-- ==== Sys2Proof/Word.lean ====
section
/-! DEFINITION. The words of the HX512: a byte of a framed line, the bit sets that a line carries whole
(Section 4.1 and R172), and the sparse table in which the part's large record stores are held. -/

namespace Sys2Proof

/-- One byte of a framed line (R172). -/
abbrev Byte := BitVec 8

/-- A subset of the six seat features, element k in bit k in the order STEP_FREE, NEAR_EXIT, POWER_POINT,
LARGE_DESK, QUIET_ZONE, SCREENED (R172). -/
abbrev FeatureSet := BitVec 6

/-- A subset of the answer options A..E, option k in bit k (R121, R172). -/
abbrev OptionSet := BitVec 5

/-- A set of sheet pages, page p in bit p; bit 0 is never used (R1: a subset of 1..4). -/
abbrev PageSet := BitVec 5

/-- A record store: the records present, each with its number, in rising order of the number.
A number that is not listed has no record (or holds the record's reset value, as the store says). -/
abbrev Table (α : Type) := List (Nat × α)

end Sys2Proof
end

