-- ==== Sys2Proof/Config.lean ====
section
/-! DEFINITION. The figures that the manual fixes for the part, and the free values: what the manual leaves
open while the part goes on. A free value is opaque, so nothing can be proved of it. -/

namespace Sys2Proof.Config

/-- The largest candidate number (Section 4.3). -/
def maxNumber : Nat := 99999999

/-- The largest serial (R106). -/
def maxSerial : Nat := 9999999

/-- 23:59:59, where the hall clock rests (R21). -/
def lastSecond : Nat := 86399

/-- Candidate record slots of the roll store (R1). -/
def rollSlots : Nat := 1024

/-- Pages of the directory (R14). -/
def directoryPages : Nat := 160

/-- Seat records (R42). -/
def seatRecords : Nat := 512

/-- Places of the custody table (R105). -/
def scriptPlaces : Nat := 2048

/-- Scripts that may be bound to one candidate record (R107). -/
def scriptsPerRecord : Nat := 4

/-- Entries of a directed queue (R83). -/
def queuePlaces : Nat := 8

/-- Bytes of the request stage (R164). -/
def stageBytes : Nat := 240

/-- The largest payload of a request frame (R163). -/
def framePayload : Nat := 60

/-- Rows of an answer sheet (R134). -/
def sheetRows : Nat := 45

/-- The part code that IDENTIFY returns (R181). -/
def partCode : Nat := 512

/-- The revision described by the manual (R181). -/
def revision : Nat := 3

/-- FREE VALUE. What an answer carries for an admission opening time T0 − Aw that lies before 00:00:00:
R25 and R40 give the value T0 − Aw, and R172 gives a hall time no form below 0 (log entry 15). -/
opaque openingBeforeMidnight : (t0 aw : Nat) → BitVec 24

/-- FREE VALUE. Whether, where a failed answer is also a unit's third miss in a row, the DESK_LOST is reported
to the fault record before the DESK_CORRUPT: R176 leaves the order of two faults reported together open (log
entry 16). It may depend on the hall time, the room and the address. -/
opaque lostReportedFirst : (hallTime room address : Nat) → Bool

/-- FREE VALUE. Whether the form of a FILLING sheet that a traffic clear closes is WELL_FORMED: R145 closes it, R134
gives a closed sheet a form, and no rule names the form of this one (log entry 28). It may depend on the hall time,
the sheet number and the count of rows received. -/
opaque clearedWellFormed : (hallTime number rows : Nat) → Bool

end Sys2Proof.Config
end

