-- ==== Sys2Proof/Syntax.lean ====
section
/-! DEFINITION. The commands of the HX512: one constructor for each row of spec/opcode_table.json, with the
row's operands. The first 54 are the station requests of Section 10.8, with the arguments their owners'
rules name; the others are the events on the part's lines, timers and pins. -/

namespace Sys2Proof

/-- The five bytes of a room list argument: a count, then four rooms of which the first `count` are the
list (R172). -/
structure RoomListArg where
  count : Nat
  r0 : Nat
  r1 : Nat
  r2 : Nat
  r3 : Nat
  deriving DecidableEq, Repr

/-- One question entry of KEY_ENTRIES as it is sent: the set byte (options A..E in bits 0..4, options beyond
E in bits 5 and 6, the VOID marker in bit 7), the weight, the penalty and the section (R123, R172). -/
structure KeyEntryArg where
  set : Byte
  weight : Nat
  penalty : Nat
  section_ : Nat
  deriving DecidableEq, Repr

/-- The header fields of an answer key, as KEY_OPEN gives them and as a key slot holds them (R121, R122). -/
structure KeyHeader where
  q : Nat
  tf : Nat
  te : Nat
  margin : Nat
  caps : Vector Nat 4
  bounds : Vector Nat 7
  deriving DecidableEq, Repr

/-- The timetable fields that SCHEDULE gives, but for the room list (R23, R24). -/
structure TimetableArg where
  t0 : Nat
  r : Nat
  w : Nat
  l : Nat
  aw : Nat
  e1 : Nat
  e2 : Nat
  v : Nat
  deriving DecidableEq, Repr

/-- The commands: the rows of spec/opcode_table.json. A room operand of a segment event is one of the four
lines; `door` is the level of that room's DOOR_CALL wire as the event ends its exchange (R87). -/
inductive Instr where
  -- Chapter 1: roll store
  | enrol (number sitting allowance rate : Nat) (features : Byte)
  | amend (number sitting allowance rate : Nat) (features : Byte)
  | withdraw (number sitting : Nat)
  | retire (number sitting : Nat)
  | readCandidate (number sitting : Nat)
  | readSlot (slot : Nat)
  | readChain (number : Nat)
  | readRoll
  -- Chapter 2: sitting clock unit
  | setClock (time : Nat)
  | readClock
  | schedule (sitting : Nat) (timetable : TimetableArg) (rooms : RoomListArg)
  | retireSitting (sitting : Nat)
  | hold (sitting : Nat)
  | resume (sitting : Nat)
  | extend (sitting delta : Nat)
  | readSitting (sitting : Nat)
  -- Chapter 3: seat map and admission engine
  | defineSeat (seat room row column : Nat) (desk : Option Nat) (features : Byte)
  | seatState (seat state : Nat)
  | setRoom (room : Nat) (enabled : Bool) (separation fill : Nat)
  | admitFor (number sitting : Nat)
  | place (number sitting seat : Nat)
  | unplace (number sitting : Nat)
  | move (number sitting seat : Nat)
  | readSeat (seat : Nat)
  | readRoom (room : Nat)
  -- Chapter 4: personal time unit
  | restFor (number sitting : Nat) (begin_ : Bool)
  | submitFor (number sitting : Nat)
  -- Chapter 5: seat map and desk segments
  | ackHand (seat : Nat)
  | resetRoom (room : Nat)
  | readSegment (room : Nat)
  -- Chapter 6: custody table
  | issue (number sitting serial : Nat)
  | void (serial : Nat)
  | handOver (serial : Nat)
  | handOverSitting (sitting : Nat)
  | readScript (serial : Nat)
  | readScriptAt (position : Nat)
  | scriptsOf (number sitting : Nat)
  | readCustody
  -- Chapter 7: key store
  | keyOpen (sitting : Nat) (header : KeyHeader)
  | keyEntries (sitting first : Nat) (entries : List KeyEntryArg)
  | keySeal (sitting : Nat)
  | keyDiscard (sitting : Nat)
  | readKey (sitting : Nat)
  | readKeyEntries (sitting first count : Nat)
  -- Chapters 8 and 9: sheet intake and mark engine
  | readIntake
  | remark (number sitting : Nat)
  | readResult (number sitting : Nat)
  -- Chapter 10: attention unit, fault record, resets, identification
  | readAttention
  | clearAttention (groups : Byte)
  | setAttention (enabled : Byte) (levels : Vector Nat 6)
  | readFault
  | clearFault
  | clearTraffic
  | identify
  -- Chapter 2: events of the clock and of the hold input
  | hallSecond
  | hallHoldEdge (high : Bool)
  | holdFilterChange
  -- Chapter 10: events of the reset pins; `holdPol` is the level of the strap as it is sampled (R33)
  | powerUp
  | powerUpEnd (holdPol : Bool)
  | hallReset
  | hallResetEnd (holdPol : Bool)
  -- Chapter 5: events of a desk segment
  | timeSent (room : Fin 4) (door : Bool)
  | pollSent (room : Fin 4) (door : Bool)
  | showSent (room : Fin 4) (door : Bool)
  | deskAnswer (room : Fin 4) (door : Bool) (frame : List Byte)
  | answerWindowTimeout (room : Fin 4) (door : Bool)
  -- Chapter 8: events of the scanner port
  | sheetBegin (serial page c1 c2 c3 c4 : Nat)
  | row (number a b c d e : Nat)
  | sheetEnd (count : Nat)
  | scannerBadFrame
  | sheetGapTimeout
  | beginAnswerSent
  | verdictSent
  | portResetSent
  -- Chapter 9: event of the mark engine
  | markingComplete
  -- Chapter 10: events of the station link; `bytes` are the bytes that arrive on the line
  | stationFrame (bytes : List Byte)
  | checkFail
  | frameSilence
  | huntingQuiet
  | lineBreak
  | assemblyTimeout
  | answerSent
  deriving DecidableEq, Repr

end Sys2Proof
end

