-- ==== Sys2Proof/WellFormed.lean ====
section
/-! DEFINITION. Which commands can be sent: every operand has a value its bytes on the line can carry (R172).
A value that the line carries and a rule refuses (a sitting of 9, a serial of 9 999 999 + 1) is well formed:
the owner's rule answers it. -/

namespace Sys2Proof

/-- A value of one byte on a line (R172). -/
def fits1 (n : Nat) : Bool := decide (n < 256)

/-- A value of two bytes on a line (R172). -/
def fits2 (n : Nat) : Bool := decide (n < 65536)

/-- A value of three bytes on a line: a serial or a hall time (R172). -/
def fits3 (n : Nat) : Bool := decide (n < 16777216)

/-- A value of four bytes on a line: a candidate number (R172). -/
def fits4 (n : Nat) : Bool := decide (n < 4294967296)

/-- The five bytes of a room list. -/
def RoomListArg.fits (a : RoomListArg) : Bool :=
  fits1 a.count && fits1 a.r0 && fits1 a.r1 && fits1 a.r2 && fits1 a.r3

/-- The four bytes of a key entry. -/
def KeyEntryArg.fits (a : KeyEntryArg) : Bool :=
  fits1 a.weight && fits1 a.penalty && fits1 a.section_

/-- The header bytes of KEY_OPEN. -/
def KeyHeader.fits (h : KeyHeader) : Bool :=
  fits1 h.q && fits1 h.tf && fits1 h.te && fits1 h.margin && h.caps.all fits2 && h.bounds.all fits2

/-- The timetable bytes of SCHEDULE. -/
def TimetableArg.fits (t : TimetableArg) : Bool :=
  fits3 t.t0 && fits2 t.r && fits2 t.w && fits2 t.l && fits2 t.aw && fits2 t.e1 && fits2 t.e2 && fits2 t.v

/-- Every operand has a value that its line can carry (R123, R133, R163, R172). -/
def Instr.wellFormed : Instr → Bool
  | .enrol n k a r _ => fits4 n && fits1 k && fits1 a && fits1 r
  | .amend n k a r _ => fits4 n && fits1 k && fits1 a && fits1 r
  | .withdraw n k => fits4 n && fits1 k
  | .retire n k => fits4 n && fits1 k
  | .readCandidate n k => fits4 n && fits1 k
  | .readSlot j => fits2 j
  | .readChain n => fits4 n
  | .readRoll => true
  | .setClock t => fits3 t
  | .readClock => true
  | .schedule k t rooms => fits1 k && t.fits && rooms.fits
  | .retireSitting k => fits1 k
  | .hold k => fits1 k
  | .resume k => fits1 k
  | .extend k d => fits1 k && fits2 d
  | .readSitting k => fits1 k
  | .defineSeat i m r c d _ =>
      fits2 i && fits1 m && fits1 r && fits1 c && (match d with | none => true | some a => decide (a < 255))
  | .seatState i st => fits2 i && fits1 st
  | .setRoom m _ sep fill => fits1 m && fits1 sep && fits1 fill
  | .admitFor n k => fits4 n && fits1 k
  | .place n k i => fits4 n && fits1 k && fits2 i
  | .unplace n k => fits4 n && fits1 k
  | .move n k i => fits4 n && fits1 k && fits2 i
  | .readSeat i => fits2 i
  | .readRoom m => fits1 m
  | .restFor n k _ => fits4 n && fits1 k
  | .submitFor n k => fits4 n && fits1 k
  | .ackHand i => fits2 i
  | .resetRoom m => fits1 m
  | .readSegment m => fits1 m
  | .issue n k d => fits4 n && fits1 k && fits3 d
  | .void d => fits3 d
  | .handOver d => fits3 d
  | .handOverSitting k => fits1 k
  | .readScript d => fits3 d
  | .readScriptAt p => fits2 p
  | .scriptsOf n k => fits4 n && fits1 k
  | .readCustody => true
  | .keyOpen k h => fits1 k && h.fits
  | .keyEntries k f es =>
      fits1 k && fits1 f && decide (1 ≤ es.length) && decide (es.length ≤ 59) && es.all KeyEntryArg.fits
  | .keySeal k => fits1 k
  | .keyDiscard k => fits1 k
  | .readKey k => fits1 k
  | .readKeyEntries k f c => fits1 k && fits1 f && fits1 c
  | .readIntake => true
  | .remark n k => fits4 n && fits1 k
  | .readResult n k => fits4 n && fits1 k
  | .readAttention => true
  | .clearAttention _ => true
  | .setAttention _ ls => ls.all fits1
  | .readFault => true
  | .clearFault => true
  | .clearTraffic => true
  | .identify => true
  | .hallSecond => true
  | .hallHoldEdge _ => true
  | .holdFilterChange => true
  | .powerUp => true
  | .powerUpEnd _ => true
  | .hallReset => true
  | .hallResetEnd _ => true
  | .timeSent _ _ => true
  | .pollSent _ _ => true
  | .showSent _ _ => true
  | .deskAnswer _ _ _ => true
  | .answerWindowTimeout _ _ => true
  | .sheetBegin d p c1 c2 c3 c4 => fits3 d && fits1 p && fits1 c1 && fits1 c2 && fits1 c3 && fits1 c4
  | .row n a b c d e => fits1 n && fits1 a && fits1 b && fits1 c && fits1 d && fits1 e
  | .sheetEnd n => fits1 n
  | .scannerBadFrame => true
  | .sheetGapTimeout => true
  | .beginAnswerSent => true
  | .verdictSent => true
  | .portResetSent => true
  | .markingComplete => true
  | .stationFrame _ => true
  | .checkFail => true
  | .frameSilence => true
  | .huntingQuiet => true
  | .lineBreak => true
  | .assemblyTimeout => true
  | .answerSent => true

end Sys2Proof
end

