-- ==== Sys2Proof/Decode.lean ====
section
/-! DEFINITION. Reading and writing the bytes of a request. The opcode table gives its rows no bits, so
`decodeTableWord` reads none. What the spec does give is the layout of a request on the station link (R172) and
the code of each request (Section 10.8): `requestBytes` writes it and `decodeRequest` reads it, rejecting by
name an unknown code and a wrong number of argument bytes (R170). -/

namespace Sys2Proof

/-- A number of one byte. -/
def be1 (n : Nat) : List Byte := [BitVec.ofNat 8 n]

/-- A number of two bytes, most significant byte first (R172). -/
def be2 (n : Nat) : List Byte := [BitVec.ofNat 8 (n / 256), BitVec.ofNat 8 n]

/-- A number of three bytes, most significant byte first (R172). -/
def be3 (n : Nat) : List Byte :=
  [BitVec.ofNat 8 (n / 65536), BitVec.ofNat 8 (n / 256), BitVec.ofNat 8 n]

/-- A number of four bytes, most significant byte first (R172). -/
def be4 (n : Nat) : List Byte :=
  [BitVec.ofNat 8 (n / 16777216), BitVec.ofNat 8 (n / 65536), BitVec.ofNat 8 (n / 256), BitVec.ofNat 8 n]

/-- A flag or a two-way choice: 1 for set or begin, 0 for clear or end (R172). R172 allows any value but 0 for set; the
model sends 1 (DESIGN CHOICE, log entry 8). -/
def beFlag (b : Bool) : List Byte := [if b then 1 else 0]

/-- The number held by two bytes. -/
def num2 (a b : Byte) : Nat := a.toNat * 256 + b.toNat

/-- The number held by three bytes. -/
def num3 (a b c : Byte) : Nat := a.toNat * 65536 + b.toNat * 256 + c.toNat

/-- The number held by four bytes. -/
def num4 (a b c d : Byte) : Nat := a.toNat * 16777216 + b.toNat * 65536 + c.toNat * 256 + d.toNat

/-- A flag argument: 0 is clear or end, any other value is set or begin (R172). -/
def flagOf (b : Byte) : Bool := b != 0

/-- A desk address argument: 255 is none (R172). -/
def deskOf (b : Byte) : Option Nat := if b.toNat = 255 then none else some b.toNat

/-- The byte of a desk address argument (R172). -/
def deskByte : Option Nat → List Byte
  | none => be1 255
  | some a => be1 a

/-- The bytes of a room list (R172). -/
def RoomListArg.bytes (a : RoomListArg) : List Byte :=
  be1 a.count ++ be1 a.r0 ++ be1 a.r1 ++ be1 a.r2 ++ be1 a.r3

/-- The bytes of one question entry (R172). -/
def KeyEntryArg.bytes (e : KeyEntryArg) : List Byte :=
  e.set :: (be1 e.weight ++ be1 e.penalty ++ be1 e.section_)

/-- The bytes of a key header, in the order KEY_OPEN names its fields (R122). -/
def KeyHeader.bytes (h : KeyHeader) : List Byte :=
  be1 h.q ++ be1 h.tf ++ be1 h.te ++ be1 h.margin ++ h.caps.toList.flatMap be2 ++ h.bounds.toList.flatMap be2

/-- The timetable bytes of SCHEDULE, in the order R24 names the fields. -/
def TimetableArg.bytes (t : TimetableArg) : List Byte :=
  be3 t.t0 ++ be2 t.r ++ be2 t.w ++ be2 t.l ++ be2 t.aw ++ be2 t.e1 ++ be2 t.e2 ++ be2 t.v

/-- The bytes of a request: its code (Section 10.8) and then its arguments in the order its owner's rule names
them (R172). An event is no request and has no bytes here. -/
def requestBytes : Instr → List Byte
  | .enrol n k a r f => 1 :: (be4 n ++ be1 k ++ be1 a ++ be1 r ++ [f])
  | .amend n k a r f => 2 :: (be4 n ++ be1 k ++ be1 a ++ be1 r ++ [f])
  | .withdraw n k => 3 :: (be4 n ++ be1 k)
  | .retire n k => 4 :: (be4 n ++ be1 k)
  | .readCandidate n k => 5 :: (be4 n ++ be1 k)
  | .readSlot j => 6 :: be2 j
  | .readChain n => 7 :: be4 n
  | .readRoll => [8]
  | .setClock t => 9 :: be3 t
  | .readClock => [10]
  | .schedule k t rooms => 11 :: (be1 k ++ t.bytes ++ rooms.bytes)
  | .retireSitting k => 12 :: be1 k
  | .hold k => 13 :: be1 k
  | .resume k => 14 :: be1 k
  | .extend k d => 15 :: (be1 k ++ be2 d)
  | .readSitting k => 16 :: be1 k
  | .defineSeat i m r c d f => 17 :: (be2 i ++ be1 m ++ be1 r ++ be1 c ++ deskByte d ++ [f])
  | .seatState i st => 18 :: (be2 i ++ be1 st)
  | .setRoom m en sep fill => 19 :: (be1 m ++ beFlag en ++ be1 sep ++ be1 fill)
  | .admitFor n k => 20 :: (be4 n ++ be1 k)
  | .place n k i => 21 :: (be4 n ++ be1 k ++ be2 i)
  | .unplace n k => 22 :: (be4 n ++ be1 k)
  | .move n k i => 23 :: (be4 n ++ be1 k ++ be2 i)
  | .readSeat i => 24 :: be2 i
  | .readRoom m => 25 :: be1 m
  | .restFor n k b => 26 :: (be4 n ++ be1 k ++ beFlag b)
  | .submitFor n k => 27 :: (be4 n ++ be1 k)
  | .ackHand i => 28 :: be2 i
  | .resetRoom m => 29 :: be1 m
  | .readSegment m => 30 :: be1 m
  | .issue n k d => 31 :: (be4 n ++ be1 k ++ be3 d)
  | .void d => 32 :: be3 d
  | .handOver d => 33 :: be3 d
  | .handOverSitting k => 34 :: be1 k
  | .readScript d => 35 :: be3 d
  | .readScriptAt p => 36 :: be2 p
  | .scriptsOf n k => 37 :: (be4 n ++ be1 k)
  | .readCustody => [38]
  | .keyOpen k h => 39 :: (be1 k ++ h.bytes)
  | .keyEntries k f es => 40 :: (be1 k ++ be1 f ++ es.flatMap KeyEntryArg.bytes)
  | .keySeal k => 41 :: be1 k
  | .keyDiscard k => 42 :: be1 k
  | .readKey k => 43 :: be1 k
  | .readKeyEntries k f c => 44 :: (be1 k ++ be1 f ++ be1 c)
  | .readIntake => [45]
  | .remark n k => 46 :: (be4 n ++ be1 k)
  | .readResult n k => 47 :: (be4 n ++ be1 k)
  | .readAttention => [48]
  | .clearAttention g => [49, g]
  | .setAttention e ls => 50 :: e :: ls.toList.flatMap be1
  | .readFault => [51]
  | .clearFault => [52]
  | .clearTraffic => [53]
  | .identify => [54]
  | .hallSecond => []
  | .hallHoldEdge _ => []
  | .holdFilterChange => []
  | .powerUp => []
  | .powerUpEnd _ => []
  | .hallReset => []
  | .hallResetEnd _ => []
  | .timeSent _ _ => []
  | .pollSent _ _ => []
  | .showSent _ _ => []
  | .deskAnswer _ _ _ => []
  | .answerWindowTimeout _ _ => []
  | .sheetBegin _ _ _ _ _ _ => []
  | .row _ _ _ _ _ _ => []
  | .sheetEnd _ => []
  | .scannerBadFrame => []
  | .sheetGapTimeout => []
  | .beginAnswerSent => []
  | .verdictSent => []
  | .portResetSent => []
  | .markingComplete => []
  | .stationFrame _ => []
  | .checkFail => []
  | .frameSilence => []
  | .huntingQuiet => []
  | .lineBreak => []
  | .assemblyTimeout => []
  | .answerSent => []

/-- What the station link port finds in a complete assembly (R170, steps 1 to 4). -/
inductive RequestDecode where
  | request (i : Instr)
  | unknown
  | malformed
  deriving DecidableEq, Repr

/-- The question entries of KEY_ENTRIES, four bytes each; none where bytes are left over (R172). -/
def decodeEntries : List Byte → Option (List KeyEntryArg)
  | [] => some []
  | s :: w :: p :: k :: rest =>
      match decodeEntries rest with
      | some es => some (⟨s, w.toNat, p.toNat, k.toNat⟩ :: es)
      | none => none
  | _ => none

/-- A request whose arguments are one candidate number and one sitting. -/
def decodeNamed (mk : Nat → Nat → Instr) : List Byte → RequestDecode
  | [a, b, c, d, k] => .request (mk (num4 a b c d) k.toNat)
  | _ => .malformed

/-- A request whose arguments are one candidate number, one sitting and one byte more. -/
def decodeNamed1 (mk : Nat → Nat → Byte → Instr) : List Byte → RequestDecode
  | [a, b, c, d, k, x] => .request (mk (num4 a b c d) k.toNat x)
  | _ => .malformed

/-- A request whose arguments are one candidate number, one sitting and a number of two bytes. -/
def decodeNamed2 (mk : Nat → Nat → Nat → Instr) : List Byte → RequestDecode
  | [a, b, c, d, k, x, y] => .request (mk (num4 a b c d) k.toNat (num2 x y))
  | _ => .malformed

/-- A request without arguments. -/
def decode0 (i : Instr) : List Byte → RequestDecode
  | [] => .request i
  | _ => .malformed

/-- A request whose argument is a number of one byte. -/
def decode1 (mk : Nat → Instr) : List Byte → RequestDecode
  | [k] => .request (mk k.toNat)
  | _ => .malformed

/-- A request whose argument is a number of two bytes. -/
def decode2 (mk : Nat → Instr) : List Byte → RequestDecode
  | [a, b] => .request (mk (num2 a b))
  | _ => .malformed

/-- A request whose argument is a number of three bytes. -/
def decode3 (mk : Nat → Instr) : List Byte → RequestDecode
  | [a, b, c] => .request (mk (num3 a b c))
  | _ => .malformed

/-- ENROL and AMEND: number, sitting, allowance, rest rate, features (R4, R8). -/
def decodeEnrolment (mk : Nat → Nat → Nat → Nat → Byte → Instr) : List Byte → RequestDecode
  | [a, b, c, d, k, al, rr, f] => .request (mk (num4 a b c d) k.toNat al.toNat rr.toNat f)
  | _ => .malformed

/-- SCHEDULE (R24, R172). -/
def decodeSchedule : List Byte → RequestDecode
  | [k, t1, t2, t3, r1, r2, w1, w2, l1, l2, a1, a2, e1, e2, f1, f2, v1, v2, n, m0, m1, m2, m3] =>
      .request (.schedule k.toNat
        ⟨num3 t1 t2 t3, num2 r1 r2, num2 w1 w2, num2 l1 l2, num2 a1 a2, num2 e1 e2, num2 f1 f2, num2 v1 v2⟩
        ⟨n.toNat, m0.toNat, m1.toNat, m2.toNat, m3.toNat⟩)
  | _ => .malformed

/-- EXTEND (R36). -/
def decodeExtend : List Byte → RequestDecode
  | [k, a, b] => .request (.extend k.toNat (num2 a b))
  | _ => .malformed

/-- DEFINE_SEAT (R45, R172). -/
def decodeDefineSeat : List Byte → RequestDecode
  | [i1, i2, m, r, c, d, f] => .request (.defineSeat (num2 i1 i2) m.toNat r.toNat c.toNat (deskOf d) f)
  | _ => .malformed

/-- SEAT_STATE (R46). -/
def decodeSeatState : List Byte → RequestDecode
  | [i1, i2, st] => .request (.seatState (num2 i1 i2) st.toNat)
  | _ => .malformed

/-- SET_ROOM (R47). -/
def decodeSetRoom : List Byte → RequestDecode
  | [m, en, sep, fill] => .request (.setRoom m.toNat (flagOf en) sep.toNat fill.toNat)
  | _ => .malformed

/-- ISSUE (R110). -/
def decodeIssue : List Byte → RequestDecode
  | [a, b, c, d, k, x, y, z] => .request (.issue (num4 a b c d) k.toNat (num3 x y z))
  | _ => .malformed

/-- KEY_OPEN (R122). -/
def decodeKeyOpen : List Byte → RequestDecode
  | [k, q, tf, te, m, c0, c1, c2, c3, c4, c5, c6, c7, g0, g1, g2, g3, g4, g5, g6, g7, g8, g9, ga, gb, gc, gd] =>
      .request (.keyOpen k.toNat
        ⟨q.toNat, tf.toNat, te.toNat, m.toNat, #v[num2 c0 c1, num2 c2 c3, num2 c4 c5, num2 c6 c7],
          #v[num2 g0 g1, num2 g2 g3, num2 g4 g5, num2 g6 g7, num2 g8 g9, num2 ga gb, num2 gc gd]⟩)
  | _ => .malformed

/-- KEY_ENTRIES: a request that carries no entry, or whose entry bytes leave a remainder of 4, is MALFORMED
(R123, R172). -/
def decodeKeyEntries : List Byte → RequestDecode
  | k :: f :: rest =>
      match decodeEntries rest with
      | none => .malformed
      | some [] => .malformed
      | some (e :: es) => .request (.keyEntries k.toNat f.toNat (e :: es))
  | _ => .malformed

/-- READ_KEY_ENTRIES (R131). -/
def decodeReadKeyEntries : List Byte → RequestDecode
  | [k, f, c] => .request (.readKeyEntries k.toNat f.toNat c.toNat)
  | _ => .malformed

/-- CLEAR_ATTENTION (R175). -/
def decodeClearAttention : List Byte → RequestDecode
  | [g] => .request (.clearAttention g)
  | _ => .malformed

/-- SET_ATTENTION (R175). -/
def decodeSetAttention : List Byte → RequestDecode
  | [e, a, b, c, d, f, g] =>
      .request (.setAttention e #v[a.toNat, b.toNat, c.toNat, d.toNat, f.toNat, g.toNat])
  | _ => .malformed

/-- The arguments of the request with a code of Section 10.8, and UNKNOWN for any other code (R170). -/
def decodeArgs (code : Nat) (args : List Byte) : RequestDecode :=
  match code with
  | 1 => decodeEnrolment .enrol args
  | 2 => decodeEnrolment .amend args
  | 3 => decodeNamed .withdraw args
  | 4 => decodeNamed .retire args
  | 5 => decodeNamed .readCandidate args
  | 6 => decode2 .readSlot args
  | 7 => (match args with | [a, b, c, d] => .request (.readChain (num4 a b c d)) | _ => .malformed)
  | 8 => decode0 .readRoll args
  | 9 => decode3 .setClock args
  | 10 => decode0 .readClock args
  | 11 => decodeSchedule args
  | 12 => decode1 .retireSitting args
  | 13 => decode1 .hold args
  | 14 => decode1 .resume args
  | 15 => decodeExtend args
  | 16 => decode1 .readSitting args
  | 17 => decodeDefineSeat args
  | 18 => decodeSeatState args
  | 19 => decodeSetRoom args
  | 20 => decodeNamed .admitFor args
  | 21 => decodeNamed2 .place args
  | 22 => decodeNamed .unplace args
  | 23 => decodeNamed2 .move args
  | 24 => decode2 .readSeat args
  | 25 => decode1 .readRoom args
  | 26 => decodeNamed1 (fun n k b => .restFor n k (flagOf b)) args
  | 27 => decodeNamed .submitFor args
  | 28 => decode2 .ackHand args
  | 29 => decode1 .resetRoom args
  | 30 => decode1 .readSegment args
  | 31 => decodeIssue args
  | 32 => decode3 .void args
  | 33 => decode3 .handOver args
  | 34 => decode1 .handOverSitting args
  | 35 => decode3 .readScript args
  | 36 => decode2 .readScriptAt args
  | 37 => decodeNamed .scriptsOf args
  | 38 => decode0 .readCustody args
  | 39 => decodeKeyOpen args
  | 40 => decodeKeyEntries args
  | 41 => decode1 .keySeal args
  | 42 => decode1 .keyDiscard args
  | 43 => decode1 .readKey args
  | 44 => decodeReadKeyEntries args
  | 45 => decode0 .readIntake args
  | 46 => decodeNamed .remark args
  | 47 => decodeNamed .readResult args
  | 48 => decode0 .readAttention args
  | 49 => decodeClearAttention args
  | 50 => decodeSetAttention args
  | 51 => decode0 .readFault args
  | 52 => decode0 .clearFault args
  | 53 => decode0 .clearTraffic args
  | 54 => decode0 .identify args
  | _ => .unknown

/-- The first byte of the stage is the request code; an empty stage is MALFORMED (R170). -/
def decodeRequest : List Byte → RequestDecode
  | [] => .malformed
  | code :: args => decodeArgs code.toNat args

/-- The command that a word spells by the opcode table's bits. The table gives no row any bits, so a word
spells none. -/
def decodeTableWord (_nbits _w : Nat) : Option Instr := none

end Sys2Proof
end

