-- ==== Sys2Proof/Machine/State.lean ====
section
/-! DEFINITION. The state of the HX512, block by block, as the tables of its chapters give it, and the state
right after a power-up. Every field is plain data. Record numbers of the large stores (roll slots, directory
pages, seats) are Nats; the rooms and the sittings, of which there are four and eight, are Fins. -/

namespace Sys2Proof.Machine

/-! ### Chapter 1: candidate records and the directory -/

/-- The candidate states, in the order of the state overview (Section 1.1). -/
inductive CandState where
  | expected | seated | active | resting | done | cleared | absent | withdrawn
  deriving DecidableEq, Repr

/-- The flags of a candidate record (R1). -/
structure CandFlags where
  confirmed : Bool
  lateArrival : Bool
  clash : Bool
  capped : Bool
  warned : Bool
  withdrawn : Bool
  noScript : Bool
  deriving DecidableEq, Repr

/-- A copy of a seat's index and place: the seat of record (R42) and the seat at issue (R104). -/
structure SeatCopy where
  index : Nat
  room : Fin 4
  row : Nat
  column : Nat
  deriving DecidableEq, Repr

/-- The mark accumulator (R1, R159). -/
structure Accumulator where
  pages : PageSet
  sums : Vector Int 4
  reviewCount : Nat
  deriving DecidableEq, Repr

/-- A COMPLETE result (R155). -/
structure ResultRecord where
  total : Nat
  smax : Nat
  perMille : Nat
  band : Nat
  noMax : Bool
  review : Bool
  deriving DecidableEq, Repr

/-- A candidate record (R1). The optional fields are absent as `none`. -/
structure Candidate where
  number : Nat
  sitting : Fin 8
  state : CandState
  allowance : Nat
  restRate : Nat
  required : FeatureSet
  currentSeat : Option Nat
  seatOfRecord : Option SeatCopy
  flags : CandFlags
  ext : Option Nat
  restBudget : Option Nat
  restUsed : Nat
  personalEnd : Option Nat
  nextRecord : Option Nat
  acc : Accumulator
  result : Option ResultRecord
  deriving DecidableEq, Repr

/-- A used directory slot (R14). -/
structure DirSlot where
  number : Nat
  head : Nat
  deriving DecidableEq, Repr

/-- A directory page linked into a bucket (R14); a page that is not listed is in the pool. -/
structure Page where
  slots : Vector (Option DirSlot) 8
  next : Option Nat
  deriving DecidableEq, Repr

/-! ### Chapter 2: sittings, the hall clock and the hold input filter -/

/-- The phases of a sitting, in the order of R23. -/
inductive SittingState where
  | unscheduled | scheduled | admitting | reading | writing | closing | closed
  deriving DecidableEq, Repr

/-- The hold sources of a sitting, a subset of HALL and SITTING (R23). -/
structure HoldSources where
  hall : Bool
  sitting : Bool
  deriving DecidableEq, Repr

/-- A sitting record (R23). -/
structure Sitting where
  state : SittingState
  t0 : Nat
  r : Nat
  w : Nat
  l : Nat
  aw : Nat
  e1 : Nat
  e2 : Nat
  v : Nat
  rooms : List (Fin 4)
  hold : HoldSources
  h : Nat
  e : Nat
  deriving DecidableEq, Repr

/-- A sitting record in UNSCHEDULED: the last column of R23. -/
def Sitting.unscheduledRecord : Sitting :=
  { state := .unscheduled, t0 := 0, r := 0, w := 0, l := 0, aw := 0, e1 := 0, e2 := 0, v := 0, rooms := [],
    hold := ⟨false, false⟩, h := 0, e := 0 }

/-- The hold input filter and its pin (R33). `high` is the level of HALL_HOLD and `polarity` the sampled level
of HOLD_POL; `filtered` is the filtered level and `waiting` says that a change is in waiting. -/
structure HoldFilter where
  high : Bool
  polarity : Bool
  filtered : Bool
  waiting : Bool
  deriving DecidableEq, Repr

/-! ### Chapter 3: seats and rooms -/

/-- The seat states, in the order of R42. -/
inductive SeatState where
  | outOfUse | free | held | occupied | vacated
  deriving DecidableEq, Repr

/-- The desk statuses, in the order of R42. -/
inductive DeskStatus where
  | unbound | unknown | present | lost
  deriving DecidableEq, Repr

/-- What DEFINE_SEAT gives a seat: place, desk address (none for a paper-only seat) and features (R42). -/
structure SeatPlace where
  room : Fin 4
  row : Nat
  column : Nat
  desk : Option Nat
  features : FeatureSet
  deriving DecidableEq, Repr

/-- A seat record (R42). `place` is absent until the seat is defined. -/
structure Seat where
  place : Option SeatPlace
  state : SeatState
  candidate : Option Nat
  handRaised : Bool
  deskStatus : DeskStatus
  missCount : Nat
  stale : Bool
  deriving DecidableEq, Repr

/-- A seat record after power-up (R63): OUT_OF_USE and never defined. -/
def Seat.undefinedRecord : Seat :=
  { place := none, state := .outOfUse, candidate := none, handRaised := false, deskStatus := .unbound,
    missCount := 0, stale := false }

/-- The separation modes, in the order of R44. -/
inductive Separation where
  | orthogonal | full
  deriving DecidableEq, Repr

/-- The fill patterns, in the order of R44. -/
inductive FillPattern where
  | rowMajor | serpentine | columnMajor
  deriving DecidableEq, Repr

/-- The notices a display can show, in the order of R85; an admission refusal is one of them. -/
inductive Notice where
  | stay | warn | done | restOver | notAllocated | wrongSeat | notConfirmed | earlyBar | budget | held | limit
  | badSerial | wrongOwner | wrongRoom | notSubmitted | hallHold
  | notEnrolled | alreadySeated | inOtherSitting | late | notNow | noSeat
  deriving DecidableEq, Repr

/-- A room's last refusal at its door (R44). -/
structure DoorRefusal where
  number : Nat
  reason : Notice
  time : Nat
  deriving DecidableEq, Repr

/-- A room's last WRONG_SEAT (R44). -/
structure WrongSeat where
  seat : Nat
  number : Nat
  time : Nat
  deriving DecidableEq, Repr

/-- A room record (R44). -/
structure RoomRecord where
  enabled : Bool
  separation : Separation
  fill : FillPattern
  lastRefusal : Option DoorRefusal
  lastWrongSeat : Option WrongSeat
  deriving DecidableEq, Repr

/-- A room record after power-up (R44, R63). -/
def RoomRecord.initial : RoomRecord :=
  { enabled := false, separation := .orthogonal, fill := .rowMajor, lastRefusal := none, lastWrongSeat := none }

/-! ### Chapter 5: desk segments -/

/-- What a SHOW displays (R85). The candidate state of an END is ACTIVE, RESTING or DONE. -/
inductive ShowContent where
  | seat (room : Fin 4) (row column number : Nat) (sitting : Fin 8)
  | ending (personalEnd : Nat) (state : CandState) (restLeft : Nat)
  | notice (n : Notice)
  | blank
  deriving DecidableEq, Repr

/-- The four kinds of SHOW (R85). -/
inductive ShowKind where
  | seat | ending | notice | blank
  deriving DecidableEq, Repr

/-- An entry of a directed queue (R83). -/
structure ShowEntry where
  address : Nat
  content : ShowContent
  deriving DecidableEq, Repr

/-- A message going down a segment (R85). The held sittings are a set of sittings, sitting k in bit k. -/
inductive SegMessage where
  | time (hallTime : Nat) (held : BitVec 8)
  | poll (address : Nat)
  | show_ (entry : ShowEntry)
  deriving DecidableEq, Repr

/-- The line states, in the order of R83, with the awaited address of AWAITING. -/
inductive LineState where
  | disabled | master | awaiting (address : Nat)
  deriving DecidableEq, Repr

/-- The contact states of a room post, in the order of R83. -/
inductive PostStatus where
  | unknown | present | lost
  deriving DecidableEq, Repr

/-- A segment controller (R83), with the message that is going out, the mark that a POLL going out at a room
reset or a traffic clear opens no window (R100), the level of the DOOR_CALL wire (true: asserted) and that level
as last sampled (R103). -/
structure Segment where
  line : LineState
  timeDue : Bool
  rotation : Nat
  queue : List ShowEntry
  postStatus : PostStatus
  postMiss : Nat
  sending : Option SegMessage
  pollVoided : Bool
  doorWire : Bool
  doorSampled : Bool
  deriving DecidableEq, Repr

/-- A segment controller after power-up (R102). -/
def Segment.initial : Segment :=
  { line := .disabled, timeDue := false, rotation := 128, queue := [], postStatus := .unknown, postMiss := 0,
    sending := none, pollVoided := false, doorWire := false, doorSampled := false }

/-! ### Chapter 6: script custody -/

/-- The kinds of script, in the order of R104. -/
inductive ScriptKind where
  | booklet | sheet
  deriving DecidableEq, Repr

/-- The script states, in the order of R104. -/
inductive ScriptState where
  | issued | submitted | collected | marking | marked | handed | voided
  deriving DecidableEq, Repr

/-- A sheet result (R153). -/
structure SheetResult where
  sums : Vector Int 4
  review : List Nat
  overflow : Bool
  deriving DecidableEq, Repr

/-- A script record but for its serial, which is its number in the custody table (R104, R105). -/
structure Script where
  kind : ScriptKind
  slot : Nat
  sitting : Fin 8
  seatAtIssue : SeatCopy
  state : ScriptState
  submittedAt : Option Nat
  page : Option Nat
  result : Option SheetResult
  deriving DecidableEq, Repr

/-- The reasons that the last custody refusal can hold (R109, R113). -/
inductive CustodyReason where
  | wrongOwner | full | badSerial | unknownScript | notSubmitted | voided | wrongRoom
  deriving DecidableEq, Repr

/-- The last custody refusal (R105). -/
structure CustodyRefusal where
  serial : Nat
  reason : CustodyReason
  room : Fin 4
  address : Nat
  time : Nat
  deriving DecidableEq, Repr

/-! ### Chapter 7: answer keys -/

/-- The states of a key slot, in the order of R121. -/
inductive KeyState where
  | empty | loading | sealed_ | released
  deriving DecidableEq, Repr

/-- A defined question entry of a key (R121). -/
inductive KeyEntry where
  | void
  | answer (accepted : OptionSet) (weight penalty : Nat) (section_ : Fin 4)
  deriving DecidableEq, Repr

/-- The page count and the derived fields of a sealed key (R121, R126). -/
structure KeyDerived where
  pages : Nat
  totals : Vector Nat 4
  maxima : Vector Nat 4
  smax : Nat
  deriving DecidableEq, Repr

/-- A key slot (R121). An entry that is not listed is undefined. -/
structure KeySlot where
  state : KeyState
  header : KeyHeader
  entries : Table KeyEntry
  derived : Option KeyDerived
  deriving DecidableEq, Repr

/-- The header of an EMPTY key slot (R121). -/
def emptyHeader : KeyHeader :=
  { q := 0, tf := 0, te := 0, margin := 0, caps := Vector.replicate 4 0, bounds := Vector.replicate 7 0 }

/-- An EMPTY key slot: the last column of R121. -/
def KeySlot.emptySlot : KeySlot := { state := .empty, header := emptyHeader, entries := [], derived := none }

/-! ### Chapters 8 and 9: sheet intake and mark engine -/

/-- The states of a sheet buffer, in the order of R134. -/
inductive BufferState where
  | free | filling | queued | taken | decided
  deriving DecidableEq, Repr

/-- The form of a closed sheet, in the order of R134. -/
inductive SheetForm where
  | wellFormed | malformed
  deriving DecidableEq, Repr

/-- The reasons of a REJECT, in the order of R143. -/
inductive RejectReason where
  | malformed | badSerial | unknownScript | notASheet | notCollected | alreadyMarked | voided | embargoed
  | pageRange | duplicatePage
  deriving DecidableEq, Repr

/-- The verdicts (R133). -/
inductive Verdict where
  | accept | acceptReview | reject (reason : RejectReason) | cleared
  deriving DecidableEq, Repr

/-- The darkness of the five bubbles of a row (R133). -/
structure RowReading where
  a : Nat
  b : Nat
  c : Nat
  d : Nat
  e : Nat
  deriving DecidableEq, Repr

/-- The four reference cells of a sheet (R133). -/
structure RefCells where
  c1 : Nat
  c2 : Nat
  c3 : Nat
  c4 : Nat
  deriving DecidableEq, Repr

/-- A sheet buffer (R134). In FREE the fields but for the state are cleared. -/
structure SheetBuffer where
  state : BufferState
  number : Nat
  serial : Nat
  page : Nat
  cells : RefCells
  rows : List RowReading
  form : Option SheetForm
  verdict : Option Verdict
  deriving DecidableEq, Repr

/-- A FREE buffer (R141). -/
def SheetBuffer.freeBuffer : SheetBuffer :=
  { state := .free, number := 0, serial := 0, page := 0, cells := ⟨0, 0, 0, 0⟩, rows := [], form := none,
    verdict := none }

/-- The receive states of the scanner port, in the order of R134. -/
inductive ReceiveState where
  | idle | filling | discarding
  deriving DecidableEq, Repr

/-- An answer to a SHEET_BEGIN (R133). -/
inductive BeginAnswer where
  | go (number : Nat)
  | wait
  deriving DecidableEq, Repr

/-- The frame that the scanner port's transmitter is sending (R141); a verdict is that of a buffer. -/
inductive ScanFrame where
  | portReset
  | begin_ (answer : BeginAnswer)
  | verdict (buffer : Fin 4)
  deriving DecidableEq, Repr

/-- The last reject (R134). -/
structure LastReject where
  number : Nat
  serial : Nat
  page : Nat
  reason : RejectReason
  time : Nat
  deriving DecidableEq, Repr

/-- The sheet intake: the four buffers and the port state (R134), with the frame that is going out (R141). -/
structure Intake where
  buffers : Vector SheetBuffer 4
  receive : ReceiveState
  gapTimer : Bool
  order : List (Fin 4)
  nextNumber : Nat
  beginAnswers : List BeginAnswer
  resetOwed : Bool
  lastReject : Option LastReject
  sending : Option ScanFrame
  deriving DecidableEq, Repr

/-- The sheet intake while a power-up or a hall reset is held (R146): the transmitter sends nothing. -/
def Intake.initial : Intake :=
  { buffers := Vector.replicate 4 SheetBuffer.freeBuffer, receive := .idle, gapTimer := false, order := [],
    nextNumber := 0, beginAnswers := [], resetOwed := true, lastReject := none, sending := none }

/-- The sheet in hand (R147). -/
structure SheetInHand where
  buffer : Fin 4
  serial : Nat
  page : Nat
  slot : Nat
  sitting : Fin 8
  deriving DecidableEq, Repr

/-! ### Chapter 10: station link port, attention unit, fault record, resets -/

/-- The status codes of answers, in the order of Section 10.4. -/
inductive Status where
  | ok | okClamped | range | state | past | duplicate | full | dirFull | notEnrolled | custodyOpen | busy
  | liveRecords | positionTaken | addressTaken | notInRooms | features | adjacent | noSeat | alreadySeated
  | inOtherSitting | late | notNow | held | budget | badSerial | wrongOwner | limit | unknownScript | marked
  | notABooklet | incomplete | order | marksExist | sequence | checkFail | timeout | tooLong | unknown | malformed
  deriving DecidableEq, Repr

/-- An answer frame but for its length and check bytes (R171). -/
structure AnswerFrame where
  status : Status
  link : Bool
  payload : List Byte
  deriving DecidableEq, Repr

/-- The states of the frame receiver, with the bytes of the frame that is arriving (R163). -/
inductive Receiver where
  | waiting | inFrame (got : List Byte) | hunting
  deriving DecidableEq, Repr

/-- The states of the station link port (R164). -/
inductive PortState where
  | idle | assembling | executing
  deriving DecidableEq, Repr

/-- The station link port (R163, R164) with its transmitter: the answer frame that is going out and the answer
queue (R171). -/
structure Port where
  state : PortState
  receiver : Receiver
  stage : List Byte
  overflow : Bool
  timer : Bool
  discard : Bool
  sending : Option AnswerFrame
  queue : List AnswerFrame
  deriving DecidableEq, Repr

/-- The station link port after power-up (R182). -/
def Port.initial : Port :=
  { state := .idle, receiver := .waiting, stage := [], overflow := false, timer := false, discard := false,
    sending := none, queue := [] }

/-- The six cause groups, in the order of R173. -/
inductive CauseGroup where
  | admission | desk | time | custody | marking | fault
  deriving DecidableEq, Repr

/-- One cause group of the attention unit (R173). -/
structure Group where
  enabled : Bool
  level : Nat
  pending : Bool
  count : Nat
  deriving DecidableEq, Repr

/-- A cause group after power-up (R182). -/
def Group.initial : Group := { enabled := false, level := 0, pending := false, count := 0 }

/-- The fault classes, in the order of R176. -/
inductive FaultClass where
  | deskCorrupt | deskLost | sheetMalformed | linkCheck | linkTimeout
  deriving DecidableEq, Repr

/-- The detail of a fault (R176). -/
inductive FaultDetail where
  | unit (room : Fin 4) (address : Nat)
  | serial (serial : Nat)
  | none
  deriving DecidableEq, Repr

/-- What a valid fault record holds (R176). -/
structure FaultEntry where
  cls : FaultClass
  detail : FaultDetail
  time : Nat
  deriving DecidableEq, Repr

/-- The fault record: valid is the presence of the entry (R176). -/
structure FaultRecord where
  entry : Option FaultEntry
  more : Bool
  deriving DecidableEq, Repr

/-- Whether the part runs or is held in a reset (R178, R179). -/
inductive ResetHold where
  | running | powerUp | hallReset
  deriving DecidableEq, Repr

/-- The reset causes, in the order of R181. -/
inductive ResetCause where
  | powerUp | hallReset
  deriving DecidableEq, Repr

/-- The state of the HX512. `pending` is the queue of the commands that wait, first in, first out: the
model's own field. -/
structure State where
  pending : List Instr
  resetHold : ResetHold
  resetCause : ResetCause
  hallTime : Nat
  holdFilter : HoldFilter
  sittings : Vector Sitting 8
  roll : Table Candidate
  dirRoot : Table Nat
  dirPages : Table Page
  seats : Table Seat
  rooms : Vector RoomRecord 4
  segments : Vector Segment 4
  scripts : Table Script
  lastCustodyRefusal : Option CustodyRefusal
  keys : Vector KeySlot 8
  intake : Intake
  hand : Option SheetInHand
  port : Port
  attention : Vector Group 6
  faultRecord : FaultRecord
  deriving DecidableEq, Repr

/-- Why a step of the machine stops with a fault. The manual gives every command an effect in every state, so
no meaning answers with one. -/
inductive Fault where
  /-- Raised by nobody: the manual names no event that stops the part. Safe. -/
  | stopped
  deriving DecidableEq, Repr

/-- Why a command is refused by the model. -/
inductive Refusal where
  /-- Raised by `exec` for a command that has no meaning yet: none is left. Safe. -/
  | notModelled (mnemonic : String)
  deriving DecidableEq, Repr

/-- The machine right after a power-up: every block at its power-up values (R20, R41, R63, R102, R120, R132,
R146, R162, R182), the PORT_RESET frame going out (R135), and no command waiting. The levels of HALL_HOLD,
HOLD_POL and the DOOR_CALL wires are the model's choice (DESIGN CHOICE, log entries 3 and 4). -/
def State.reset : State :=
  { pending := [], resetHold := .running, resetCause := .powerUp, hallTime := 0,
    holdFilter := ⟨false, false, false, false⟩,
    sittings := Vector.replicate 8 Sitting.unscheduledRecord, roll := [], dirRoot := [], dirPages := [],
    seats := [], rooms := Vector.replicate 4 RoomRecord.initial, segments := Vector.replicate 4 Segment.initial,
    scripts := [], lastCustodyRefusal := none, keys := Vector.replicate 8 KeySlot.emptySlot,
    intake := { Intake.initial with sending := some .portReset }, hand := none, port := Port.initial,
    attention := Vector.replicate 6 Group.initial, faultRecord := ⟨none, false⟩ }

end Sys2Proof.Machine
end

