-- ==== Sys2Proof/Machine/Ops.lean ====
section
/-! DEFINITION. The named operations on the record stores, raising a cause, reporting a fault, and carrying out
a request: the operations that the owners' rules of every chapter share. -/

namespace Sys2Proof.Machine

/-! ### Record stores -/

/-- The record with a number in a store. -/
def tableFind {α : Type} : Table α → Nat → Option α
  | [], _ => none
  | (k, v) :: t, i => if k = i then some v else tableFind t i

/-- The store with a record written at a number; the numbers stay in rising order. -/
def tableInsert {α : Type} : Table α → Nat → α → Table α
  | [], i, v => [(i, v)]
  | (k, w) :: t, i, v => if i < k then (i, v) :: (k, w) :: t else if i = k then (i, v) :: t else (k, w) :: tableInsert t i v

/-- The store without the record of a number. -/
def tableErase {α : Type} : Table α → Nat → Table α
  | [], _ => []
  | (k, w) :: t, i => if k = i then t else (k, w) :: tableErase t i

/-- The canonical form of a store: its numbers strictly rise. -/
def tableSorted {α : Type} (t : Table α) : Bool := decide ((t.map Prod.fst).Pairwise (· < ·))

/-- The lowest number from `i` on, among the next `fuel` ones, that satisfies a test. -/
def lowestFrom (p : Nat → Bool) : (fuel i : Nat) → Option Nat
  | 0, _ => none
  | f + 1, i => if p i then some i else lowestFrom p f (i + 1)

/-- The eight indices of the sitting records, the key slots and the slots of a page. -/
def eight : List (Fin 8) := [0, 1, 2, 3, 4, 5, 6, 7]

/-- The four rooms, the four sheet buffers and the four sections. -/
def four : List (Fin 4) := [0, 1, 2, 3]

/-- Takes the numbers of a list one after another, the first of the list first (the order of records: DESIGN CHOICE, log
entry 9). -/
def takeInTurn {ι : Type} (is : List ι) (f : ι → State → State) (s : State) : State :=
  is.foldl (fun t i => f i t) s

/-! ### Access to the state -/

/-- The live candidate record in a roll slot (R1). -/
def State.cand (s : State) (j : Nat) : Option Candidate := tableFind s.roll j

/-- Writes the candidate record of a roll slot. -/
def State.setCand (s : State) (j : Nat) (c : Candidate) : State := { s with roll := tableInsert s.roll j c }

/-- Returns a roll slot to free (R2). -/
def State.eraseCand (s : State) (j : Nat) : State := { s with roll := tableErase s.roll j }

/-- The seat record of an index; an index that is not listed holds the record of R63 for power-up. -/
def State.seat (s : State) (i : Nat) : Seat := (tableFind s.seats i).getD Seat.undefinedRecord

/-- Writes a seat record; the store lists no record that equals the one of R63 for power-up. -/
def State.setSeat (s : State) (i : Nat) (v : Seat) : State :=
  { s with seats := if v = Seat.undefinedRecord then tableErase s.seats i else tableInsert s.seats i v }

/-- Writes a sitting record. -/
def State.setSitting (s : State) (k : Fin 8) (v : Sitting) : State := { s with sittings := s.sittings.set k v }

/-- Writes a room record. -/
def State.setRoom (s : State) (m : Fin 4) (v : RoomRecord) : State := { s with rooms := s.rooms.set m v }

/-- Writes a segment controller. -/
def State.setSegment (s : State) (m : Fin 4) (v : Segment) : State := { s with segments := s.segments.set m v }

/-- The script record of a serial (R105). -/
def State.script (s : State) (d : Nat) : Option Script := tableFind s.scripts d

/-- Writes the script record of a serial at its place in serial order (R105). -/
def State.setScript (s : State) (d : Nat) (x : Script) : State := { s with scripts := tableInsert s.scripts d x }

/-- Writes a key slot. -/
def State.setKey (s : State) (k : Fin 8) (v : KeySlot) : State := { s with keys := s.keys.set k v }

/-- Writes the sheet intake. -/
def State.setIntake (s : State) (v : Intake) : State := { s with intake := v }

/-- Writes one sheet buffer. -/
def State.setBuffer (s : State) (b : Fin 4) (v : SheetBuffer) : State :=
  { s with intake := { s.intake with buffers := s.intake.buffers.set b v } }

/-- Writes the station link port. -/
def State.setPort (s : State) (v : Port) : State := { s with port := v }

/-- The roll slots whose records pass a test, in rising order. -/
def State.slotsWhere (s : State) (p : Candidate → Bool) : List Nat :=
  (s.roll.filter (fun x => p x.2)).map Prod.fst

/-- The script records bound to a candidate record, in serial order (R107). -/
def State.boundScripts (s : State) (j : Nat) : Table Script := s.scripts.filter (fun x => x.2.slot == j)

/-- Changes every script record that a function changes, in place: no script changes its serial. -/
def State.mapScripts (s : State) (f : Script → Script) : State :=
  { s with scripts := s.scripts.map (fun x => (x.1, f x.2)) }

/-- The live-record count that the roll store keeps (R2): the records of the roll. -/
def State.liveCount (s : State) : Nat := s.roll.length

/-- The count of live records of one sitting that the roll store keeps (R2). -/
def State.liveOf (s : State) (k : Fin 8) : Nat := (s.slotsWhere (fun c => c.sitting == k)).length

/-! ### Causes and faults -/

/-- The number of a cause group (R173). -/
def CauseGroup.index : CauseGroup → Fin 6
  | .admission => 0
  | .desk => 1
  | .time => 2
  | .custody => 3
  | .marking => 4
  | .fault => 5

/-- A group that takes one cause: pending is set and the count rises, unless it is already 255 (R173). -/
def Group.withCause (g : Group) : Group :=
  { g with pending := true, count := if g.count < 255 then g.count + 1 else g.count }

/-- Raises one cause in a group, whether or not the group is enabled (R173). -/
def State.raise (s : State) (g : CauseGroup) : State :=
  { s with attention := s.attention.set g.index s.attention[g.index].withCause }

/-- Reports a fault: an empty record is filled and a FAULT cause raised; a valid one gets its more flag (R176). -/
def State.reportFault (s : State) (cls : FaultClass) (detail : FaultDetail) : State :=
  match s.faultRecord.entry with
  | some _ => { s with faultRecord := { s.faultRecord with more := true } }
  | none => { s with faultRecord := ⟨some ⟨cls, detail, s.hallTime⟩, false⟩ }.raise .fault

/-! ### Answers and the carrying out of a request -/

/-- The answer an owner's rule gives to a request: its status and the values it carries (R171, R172). -/
structure Answer where
  status : Status
  payload : List Byte
  deriving DecidableEq, Repr

/-- An owner's rule for a request: the records after it, and the answer it gives (R170, step 4). -/
abbrev Owner := State → State × Answer

/-- A refusal that carries no value and changes nothing. -/
def refuse (st : Status) (s : State) : State × Answer := (s, ⟨st, []⟩)

/-- A refusal that carries the value its rule names, and changes nothing. -/
def refuseWith (st : Status) (payload : List Byte) (s : State) : State × Answer := (s, ⟨st, payload⟩)

/-- The answer OK with the values its rule names. -/
def okWith (payload : List Byte) (s : State) : State × Answer := (s, ⟨.ok, payload⟩)

/-- The answer OK_CLAMPED where something was reduced or dropped, and OK otherwise. -/
def okOrClamped (clamped : Bool) (payload : List Byte) (s : State) : State × Answer :=
  (s, ⟨if clamped then .okClamped else .ok, payload⟩)

/-- Places an answer frame: the transmitter takes it where it is free, and it waits in the queue otherwise
(R171; DEDUCED, log entry 17). -/
def Port.place (p : Port) (f : AnswerFrame) : Port :=
  match p.sending with
  | none => { p with sending := some f }
  | some _ => { p with queue := p.queue ++ [f] }

/-- A link answer, not queued while 3 frames are already waiting (R171). -/
def Port.linkAnswer (p : Port) (st : Status) : Port :=
  if 3 ≤ p.queue.length then p else p.place ⟨st, true, []⟩

/-- What is left of the frames of the transmitter once the request's own answer has gone out, with the link answers
before it (R171: oldest first). -/
def afterOwnAnswer : List AnswerFrame → List AnswerFrame
  | [] => []
  | f :: fs => if f.link then afterOwnAnswer fs else fs

/-- The transmitter with these frames, the first going out and the others waiting. -/
def Port.withFrames (p : Port) (fs : List AnswerFrame) : Port := { p with sending := fs.head?, queue := fs.tail }

/-- The port returns from EXECUTING to IDLE with an empty stage (R164, R170). -/
def Port.returned (p : Port) : Port :=
  match p.state with
  | .executing => { p with state := .idle, stage := [] }
  | .idle => p
  | .assembling => p

/-- The answer frame that is going out has gone out, and the next one begins (R171); the end of a request's own answer
returns the port to IDLE (R170). With no frame going out nothing happens (DESIGN CHOICE, log entries 5 and 11). -/
def Port.answerSent (p : Port) : Port :=
  match p.sending with
  | none => p
  | some f => if f.link then p.withFrames p.queue else (p.withFrames p.queue).returned

/-- The port once an answer still owed has gone out, with the frames before it (R170, R171; DESIGN CHOICE, log entry
6). -/
def Port.settled (p : Port) : Port :=
  match p.state with
  | .executing => (p.withFrames (afterOwnAnswer (p.sending.toList ++ p.queue))).returned
  | .idle => p
  | .assembling => p

/-- Hands a complete request to its owner, who carries it out as one event, and places its answer (R170, R171). -/
def handToOwner (op : Owner) (s : State) : State :=
  (op s).1.setPort ((op s).1.port.place ⟨(op s).2.status, false, (op s).2.payload⟩)

/-- The port as a request given whole meets it: an answer still owed has gone out, the stage holds the request, and
the port is EXECUTING (R164, R170; DESIGN CHOICE, log entry 6). -/
def Port.withRequest (p : Port) (bytes : List Byte) : Port :=
  { p.settled with
      state := .executing, stage := bytes, overflow := false, timer := false, discard := false }

/-- A command while the part runs. A part held in a reset takes none (R178, R179; DEDUCED, log entry 7). -/
def whileRunning (f : State → State) (s : State) : Host.Outcome State Fault Refusal :=
  match s.resetHold with
  | .running => .next (f s)
  | .powerUp => .next s
  | .hallReset => .next s

/-- A request row: the request of that row reaches its owner (R170, step 4; DESIGN CHOICE, log entry 6). -/
def requestRow (i : Instr) (op : Owner) (s : State) : Host.Outcome State Fault Refusal :=
  whileRunning (fun t => handToOwner op (t.setPort (t.port.withRequest (requestBytes i)))) s

end Sys2Proof.Machine
end

