-- ==== Sys2Proof/Machine/Operands.lean ====
section
/-! DEFINITION. The forms of a command's operands: an index or a name within its range, a clamped value, a set
with its unknown bits dropped, a candidate record named by number and sitting (R3), a room list, and a serial
(Section 4.3, R106). -/

namespace Sys2Proof.Machine

/-- A sitting index 0..7. -/
def sittingOf (n : Nat) : Option (Fin 8) := if h : n < 8 then some ⟨n, h⟩ else none

/-- A room 0..3, or a section 0..3. -/
def roomOf (n : Nat) : Option (Fin 4) := if h : n < 4 then some ⟨n, h⟩ else none

/-- A value reduced to its largest permitted one (Section 3, clamping). -/
def clampTo (top n : Nat) : Nat := if top < n then top else n

/-- The six named features of a feature byte (R5). -/
def featuresOf (f : Byte) : FeatureSet := f.setWidth 6

/-- A feature byte with a bit beyond the six named features (R5, R45). -/
def extraFeatures (f : Byte) : Bool := decide (64 ≤ f.toNat)

/-- A set of features includes another (R50). -/
def includesAll (have_ need : FeatureSet) : Bool := need &&& ~~~have_ == 0

/-- The number of members of a feature set. -/
def featureCount (f : FeatureSet) : Nat :=
  f.getLsb 0 |>.toNat |>.add (f.getLsb 1).toNat |>.add (f.getLsb 2).toNat |>.add (f.getLsb 3).toNat
    |>.add (f.getLsb 4).toNat |>.add (f.getLsb 5).toNat

/-- The separation mode of a name byte (R172: numbered in the order of R44). -/
def separationOf : Nat → Option Separation
  | 0 => some .orthogonal
  | 1 => some .full
  | _ => none

/-- The fill pattern of a name byte (R172: numbered in the order of R44). -/
def fillOf : Nat → Option FillPattern
  | 0 => some .rowMajor
  | 1 => some .serpentine
  | 2 => some .columnMajor
  | _ => none

/-- The rooms that a room list argument names, where it has a count of 1..4 and names rooms 0..3, each once
(R24, R172). -/
def roomListOf (a : RoomListArg) : Option (List (Fin 4)) :=
  match ([a.r0, a.r1, a.r2, a.r3].take a.count).mapM roomOf with
  | none => none
  | some rooms => if 1 ≤ a.count ∧ a.count ≤ 4 ∧ rooms.Nodup then some rooms else none

/-! ### Serials -/

/-- Digit d of a number, d = 0 for the units. -/
def digit (d n : Nat) : Nat := n / 10 ^ d % 10

/-- The weighted sum of the six body digits of a serial (Section 4.3, step 1). -/
def serialSum (n : Nat) : Nat :=
  7 * digit 6 n + 6 * digit 5 n + 5 * digit 4 n + 4 * digit 3 n + 3 * digit 2 n + 2 * digit 1 n

/-- The check that a serial's body computes to, 0..10 (Section 4.3, step 2). -/
def serialCheck (n : Nat) : Nat := (11 - serialSum n % 11) % 11

/-- A valid serial: seven digits, the last of them the check of the body (R106). A check of 10 is no digit. -/
def validSerial (n : Nat) : Bool := decide (n ≤ Config.maxSerial) && decide (n % 10 = serialCheck n)

/-- The kind of a serial: BOOKLET for a first digit of 0 to 4, SHEET for 5 to 9 (R106). -/
def serialKind (n : Nat) : ScriptKind := if digit 6 n ≤ 4 then .booklet else .sheet

/-! ### Naming a candidate record -/

/-- The bucket of a candidate number (R15). -/
def bucketOf (n : Nat) : Nat := n % 64

/-- The pages of a bucket from one page on, in chain order (R14). -/
def pagesFrom (pages : Table Page) : (fuel : Nat) → Option Nat → List Nat
  | 0, _ => []
  | _ + 1, none => []
  | f + 1, some p => p :: pagesFrom pages f ((tableFind pages p).bind Page.next)

/-- The page chain of a bucket (R14). -/
def State.bucketPages (s : State) (b : Nat) : List Nat :=
  pagesFrom s.dirPages Config.directoryPages (tableFind s.dirRoot b)

/-- The slots of a directory page. -/
def slotsOf (pages : Table Page) (p : Nat) : Vector (Option DirSlot) 8 :=
  match tableFind pages p with
  | some pg => pg.slots
  | none => Vector.replicate 8 none

/-- The first directory slot that satisfies a test, pages in chain order and slots in slot order (R15). -/
def findSlot (pages : Table Page) (test : Option DirSlot → Bool) : List Nat → Option (Nat × Fin 8)
  | [] => none
  | p :: ps =>
      match eight.find? (fun x => test (slotsOf pages p)[x]) with
      | some x => some (p, x)
      | none => findSlot pages test ps

/-- A directory slot that holds a number. -/
def holdsNumber (n : Nat) : Option DirSlot → Bool
  | some d => d.number == n
  | none => false

/-- The place of a number's directory slot (R15). -/
def State.dirPlace (s : State) (n : Nat) : Option (Nat × Fin 8) :=
  findSlot s.dirPages (holdsNumber n) (s.bucketPages (bucketOf n))

/-- The lookup of a candidate number: the head record of its slot, or not found (R15). -/
def State.lookup (s : State) (n : Nat) : Option Nat :=
  match s.dirPlace n with
  | some (p, x) => (slotsOf s.dirPages p)[x].map DirSlot.head
  | none => none

/-- The records from one record on, following the next records (R17). -/
def chainFrom (roll : Table Candidate) : (fuel : Nat) → Option Nat → List Nat
  | 0, _ => []
  | _ + 1, none => []
  | f + 1, some j => j :: chainFrom roll f ((tableFind roll j).bind Candidate.nextRecord)

/-- A number's record chain, head first (R17); a number has at most one record for each of the eight sittings
(R13). -/
def State.chain (s : State) (n : Nat) : List Nat := chainFrom s.roll 8 (s.lookup n)

/-- A record of the given sitting in a roll slot. -/
def State.inSitting (s : State) (k : Fin 8) (j : Nat) : Bool :=
  match s.cand j with
  | some c => c.sitting == k
  | none => false

/-- Whether a record of the slot is in one of the states given. -/
def State.inStates (s : State) (sts : List CandState) (j : Nat) : Bool :=
  match s.cand j with
  | some c => sts.contains c.state
  | none => false

/-- The states of a candidate who has been admitted and not cleared (R52). -/
def admittedStates : List CandState := [.seated, .active, .resting, .done]

/-- The states of a candidate who is seated and has not finished (R76). -/
def writingStates : List CandState := [.seated, .active, .resting]

/-- The roll slot and the record that a request names, or the refusal of R3. -/
def State.resolve (s : State) (n k : Nat) : Except Status (Nat × Candidate) :=
  if Config.maxNumber < n then .error .range
  else
    match sittingOf k with
    | none => .error .range
    | some k' =>
        match s.lookup n with
        | none => .error .notEnrolled
        | some _ =>
            match (s.chain n).find? (s.inSitting k') with
            | none => .error .notEnrolled
            | some j =>
                match s.cand j with
                | none => .error .notEnrolled
                | some c => .ok (j, c)

end Sys2Proof.Machine
end

