-- ==== Sys2Proof/Machine/Flags.lean ====
section
/-! DEFINITION. The conditions and levels that the manual computes from the records: held, running, admission
open, base end, the raw level of the hold input, ATTN and the leading group, SHEET_READY, the segment drivers,
and the contact conditions of desks. -/

namespace Sys2Proof.Machine

/-! ### Sittings (R23, R32) -/

/-- A sitting is held while its hold sources are not empty (R23). -/
def HoldSources.any (h : HoldSources) : Bool := h.hall || h.sitting

/-- A sitting is held while its hold sources are not empty (R23). -/
def Sitting.held (t : Sitting) : Bool := t.hold.any

/-- A sitting is running while it is in READING, WRITING or CLOSING (R23). -/
def Sitting.running (t : Sitting) : Bool :=
  match t.state with
  | .reading | .writing | .closing => true
  | .unscheduled | .scheduled | .admitting | .closed => false

/-- A sitting's admission is open while it is in ADMITTING, and in READING or WRITING with e below R + L (R23). -/
def Sitting.admissionOpen (t : Sitting) : Bool :=
  match t.state with
  | .admitting => true
  | .reading | .writing => decide (t.e < t.r + t.l)
  | .unscheduled | .scheduled | .closing | .closed => false

/-- The base end of a sitting (R32). -/
def Sitting.baseEnd (t : Sitting) : Nat := min Config.lastSecond (t.t0 + t.h + t.r + t.w)

/-- The end T0 + R + W of a sitting's interval (R7). -/
def Sitting.intervalEnd (t : Sitting) : Nat := t.t0 + t.r + t.w

/-- Two sitting intervals overlap when each starts at or before the end of the other (R7). -/
def Sitting.overlaps (t u : Sitting) : Bool := decide (t.t0 ≤ u.intervalEnd) && decide (u.t0 ≤ t.intervalEnd)

/-- The set of held sittings, sitting k in bit k (R40, R85). -/
def State.heldSet (s : State) : BitVec 8 :=
  (if s.sittings[0].held then 1 else 0) ||| (if s.sittings[1].held then 2 else 0) |||
  (if s.sittings[2].held then 4 else 0) ||| (if s.sittings[3].held then 8 else 0) |||
  (if s.sittings[4].held then 16 else 0) ||| (if s.sittings[5].held then 32 else 0) |||
  (if s.sittings[6].held then 64 else 0) ||| (if s.sittings[7].held then 128 else 0)

/-! ### The hold input (R33) -/

/-- The raw level: with HOLD_POL low a high level asks for the hold, with HOLD_POL high a low one does (R33). -/
def HoldFilter.raw (f : HoldFilter) : Bool := xor f.high f.polarity

/-! ### Attention (R174) -/

/-- A group that is both pending and enabled. -/
def Group.calling (g : Group) : Bool := g.pending && g.enabled

/-- ATTN is asserted while at least one group is both pending and enabled (R174). -/
def State.attn (s : State) : Bool := s.attention.any Group.calling

/-- Picks the group of higher level, and of lower number where the levels are equal: `best` has the lower
number. -/
def leadStep (groups : Vector Group 6) (best : Option (Fin 6)) (i : Fin 6) : Option (Fin 6) :=
  if groups[i].calling then
    match best with
    | none => some i
    | some b => if groups[b].level < groups[i].level then some i else some b
  else best

/-- The six indices of the cause groups. -/
def six : List (Fin 6) := [0, 1, 2, 3, 4, 5]

/-- The leading group (R174). -/
def leadingGroup (groups : Vector Group 6) : Option (Fin 6) := six.foldl (leadStep groups) none

/-! ### Scanner port and segments -/

/-- SHEET_READY is asserted while reset owed is clear and at least one buffer is FREE (R135). -/
def Intake.sheetReady (k : Intake) : Bool := !k.resetOwed && k.buffers.any (fun b => b.state == .free)

/-- The SEGn_DE pin is high while the part drives the pair (Section 10.9). -/
def Segment.driverEnabled (g : Segment) : Bool := g.sending.isSome

/-- The room and address that a seat binds: it is defined, not OUT_OF_USE, and has a desk address (R42). -/
def Seat.binds (v : Seat) : Option (Fin 4 × Nat) :=
  match v.state with
  | .outOfUse => none
  | .free | .held | .occupied | .vacated =>
      match v.place with
      | none => none
      | some p => p.desk.map (fun a => (p.room, a))

/-- A seat holds a candidate: HELD, OCCUPIED or VACATED (R43). -/
def Seat.inUse (v : Seat) : Bool :=
  match v.state with
  | .held | .occupied | .vacated => true
  | .outOfUse | .free => false

/-- A seat lies in a room: it is defined there (R42). -/
def Seat.inRoom (v : Seat) (m : Fin 4) : Bool :=
  match v.place with
  | some p => p.room == m
  | none => false

/-- The desk addresses bound to seats of a room (R42, R88). -/
def State.boundAddresses (s : State) (m : Fin 4) : List Nat :=
  s.seats.filterMap (fun x =>
    match x.2.binds with
    | some (room, a) => if room = m then some a else none
    | none => none)

/-- The seat bound to a desk address of a room (R42). -/
def State.boundSeat (s : State) (m : Fin 4) (a : Nat) : Option Nat :=
  (s.seats.find? (fun x => x.2.binds == some (m, a))).map Prod.fst

end Sys2Proof.Machine
end

