-- ==== Sys2Proof/Machine/Display.lean ====
section
/-! DEFINITION. What the desks and posts are told: the contents of SHOW messages (R85), the directed queue that
takes them (R89), and the messages that the other blocks queue through it (R56, R93). -/

namespace Sys2Proof.Machine

/-- The kind of a SHOW (R85). -/
def ShowContent.kind : ShowContent → ShowKind
  | .seat _ _ _ _ _ => .seat
  | .ending _ _ _ => .ending
  | .notice _ => .notice
  | .blank => .blank

/-- An entry of the same address and kind (R89, step 4). -/
def ShowEntry.matches_ (e f : ShowEntry) : Bool := f.address == e.address && f.content.kind == e.content.kind

/-- A BLANK removes every queued SEAT, END and NOTICE entry of its address, and a SEAT a queued BLANK entry of its
address; the entries that remain keep their order (R89, step 3). -/
def withdrawnBy (e : ShowEntry) (q : List ShowEntry) : List ShowEntry :=
  match e.content.kind with
  | .blank => q.filter (fun f => !(f.address == e.address && f.content.kind != .blank))
  | .seat => q.filter (fun f => !(f.address == e.address && f.content.kind == .blank))
  | .ending => q
  | .notice => q

/-- The queue after steps 3 to 6 of R89, and whether the message was taken. -/
def offerQueue (e : ShowEntry) (q : List ShowEntry) : List ShowEntry × Bool :=
  if (withdrawnBy e q).any e.matches_ then
    ((withdrawnBy e q).map (fun f => if e.matches_ f then e else f), true)
  else if (withdrawnBy e q).length < Config.queuePlaces then (withdrawnBy e q ++ [e], true)
  else (withdrawnBy e q, false)

/-- Writes the directed queue of a room. -/
def State.setQueue (s : State) (m : Fin 4) (q : List ShowEntry) : State :=
  s.setSegment m { s.segments[m] with queue := q }

/-- Sets the stale flag of a seat (R91). -/
def State.markStale (s : State) (i : Nat) : State := s.setSeat i { s.seat i with stale := true }

/-- A SHOW for the desk of a seat is offered to its room's directed queue (R89). A seat without a bound desk
address receives no message (R56). -/
def offerDesk (i : Nat) (c : ShowContent) (s : State) : State :=
  match (s.seat i).binds with
  | none => s
  | some (m, a) =>
      match s.segments[m].line with
      | .disabled => s
      | .master | .awaiting _ =>
          match (s.seat i).deskStatus with
          | .lost | .unknown => s.markStale i
          | .present | .unbound =>
              if (offerQueue ⟨a, c⟩ s.segments[m].queue).2 then
                s.setQueue m (offerQueue ⟨a, c⟩ s.segments[m].queue).1
              else (s.setQueue m (offerQueue ⟨a, c⟩ s.segments[m].queue).1).markStale i

/-- A SHOW for the post of a room is offered to the room's directed queue (R89). -/
def offerPost (m : Fin 4) (c : ShowContent) (s : State) : State :=
  match s.segments[m].line with
  | .disabled => s
  | .master | .awaiting _ =>
      match s.segments[m].postStatus with
      | .lost | .unknown => s
      | .present => s.setQueue m (offerQueue ⟨0, c⟩ s.segments[m].queue).1

/-- The SEAT content of a place and a candidate record: the seat label, the candidate number and the sitting
(R85). -/
def seatContent (room : Fin 4) (row column : Nat) (c : Candidate) : ShowContent :=
  .seat room row column c.number c.sitting

/-- Rest left: the rest budget minus the rest used (R73; in an END of a DONE record: DEDUCED, log entry 19). -/
def Candidate.restLeft (c : Candidate) : Nat := c.restBudget.getD 0 - c.restUsed

/-- A SEAT for the desk of a seat, with the candidate record given. -/
def showSeat (i : Nat) (c : Candidate) (s : State) : State :=
  match (s.seat i).place with
  | some p => offerDesk i (seatContent p.room p.row p.column c) s
  | none => s

/-- A SEAT for the post of a room, with the place of a seat and the candidate record given (R56). -/
def postSeat (m : Fin 4) (i : Nat) (c : Candidate) (s : State) : State :=
  match (s.seat i).place with
  | some p => offerPost m (seatContent p.room p.row p.column c) s
  | none => s

/-- An END for the desk of a seat, with the personal end, state and rest left that the record holds (R56). A record
without a personal end has no END. -/
def endAt (i : Nat) (c : Candidate) (s : State) : State :=
  match c.personalEnd with
  | some pe => offerDesk i (.ending pe c.state c.restLeft) s
  | none => s

/-- An END for the desk of a record's current seat. -/
def showEnd (c : Candidate) (s : State) : State :=
  match c.currentSeat with
  | some i => endAt i c s
  | none => s

/-- A NOTICE for the desk of a record's current seat. -/
def showNotice (c : Candidate) (n : Notice) (s : State) : State :=
  match c.currentSeat with
  | some i => offerDesk i (.notice n) s
  | none => s

/-- The resync of a desk from the records as they stand (R93). -/
def resyncDesk (i : Nat) (s : State) : State :=
  match (s.seat i).state with
  | .outOfUse => s
  | .free => offerDesk i .blank s
  | .held | .occupied | .vacated =>
      match (s.seat i).candidate.bind s.cand with
      | none => s
      | some c =>
          match c.state with
          | .active | .resting => endAt i c (showSeat i c s)
          | .done =>
              match c.personalEnd with
              | some _ => endAt i c (showSeat i c s)
              | none => offerDesk i (.notice .done) (showSeat i c s)
          | .expected | .seated | .cleared | .absent | .withdrawn => showSeat i c s

end Sys2Proof.Machine
end

