-- ==== Sys2Proof/Machine/Clearance.lean ====
section
/-! DEFINITION. What follows a candidate's finish or an EXPECTED record's giving up of its seat, whichever rule
brought it about: submission and clearance (R111, R112), the closing of a sitting and the release of its key
(R31, R127), and the release of a held seat (R56, R58). -/

namespace Sys2Proof.Machine

/-- A seat becomes FREE: it has no candidate, and its hand-raised flag is cleared (R43). -/
def freeSeat (i : Nat) (s : State) : State :=
  s.setSeat i { s.seat i with state := .free, candidate := none, handRaised := false }

/-- A seat takes a state with a candidate (R43). -/
def takeSeat (i : Nat) (st : SeatState) (j : Nat) (s : State) : State :=
  s.setSeat i { s.seat i with state := st, candidate := some j }

/-- The record becomes CLEARED, its seat becomes FREE and a BLANK is queued for the desk (R111, R112). -/
def clearRecord (j : Nat) (c : Candidate) (noScript : Bool) (s : State) : State :=
  match c.currentSeat with
  | none =>
      s.setCand j { c with state := .cleared, flags := { c.flags with noScript := c.flags.noScript || noScript } }
  | some i =>
      offerDesk i .blank (freeSeat i (s.setCand j
        { c with state := .cleared, currentSeat := none,
                 flags := { c.flags with noScript := c.flags.noScript || noScript } }))

/-- A script that still holds its candidate: ISSUED or SUBMITTED (R112). -/
def Script.holds (x : Script) : Bool := x.state == .issued || x.state == .submitted

/-- A DONE record is cleared as soon as none of its bound scripts is ISSUED or SUBMITTED (R112). -/
def clearanceTest (j : Nat) (s : State) : State :=
  match s.cand j with
  | none => s
  | some c =>
      if c.state = .done ∧ (s.boundScripts j).all (fun x => !x.2.holds) then clearRecord j c false s else s

/-- An ISSUED script of the record becomes SUBMITTED at a hall time (R111, step 1). -/
def Script.submittedBy (j t : Nat) (x : Script) : Script :=
  if x.slot = j ∧ x.state = .issued then { x with state := .submitted, submittedAt := some t } else x

/-- The custody table's part of a finish (R111): the issued scripts become SUBMITTED, and the record is cleared
with NO_SCRIPT, or its seat becomes VACATED and the clearance test is made. -/
def submitOnFinish (j : Nat) (s : State) : State :=
  match s.cand j with
  | none => s
  | some c =>
      if (s.boundScripts j).isEmpty then
        (clearRecord j c true s).raise .custody
      else
        clearanceTest j
          (match c.currentSeat with
           | none => s.mapScripts (Script.submittedBy j s.hallTime)
           | some i => takeSeat i .vacated j (s.mapScripts (Script.submittedBy j s.hallTime)))

/-- A SEALED key becomes RELEASED as its sitting closes (R127). -/
def releaseKey (k : Fin 8) (s : State) : State :=
  match s.keys[k].state with
  | .sealed_ => s.setKey k { s.keys[k] with state := .released }
  | .empty | .loading | .released => s

/-- A record that keeps a CLOSING sitting from its close (R31). -/
def Candidate.keepsOpen (k : Fin 8) (c : Candidate) : Bool :=
  c.sitting == k && (writingStates.contains c.state || (c.state == .expected && c.currentSeat.isSome))

/-- The sitting enters CLOSED (R31). -/
def closeSitting (k : Fin 8) (s : State) : State :=
  (releaseKey k (s.setSitting k { s.sittings[k] with state := .closed, hold := ⟨false, false⟩ })).raise .time

/-- The test of a CLOSING sitting for its close (R31). -/
def closingTest (k : Fin 8) (s : State) : State :=
  if s.sittings[k].state = .closing ∧ (s.slotsWhere (Candidate.keepsOpen k)).isEmpty then closeSitting k s else s

/-- An EXPECTED record takes a final state; a seat held for it becomes FREE and its desk is told BLANK
(R9, R59). -/
def endExpected (st : CandState) (j : Nat) (s : State) : State :=
  match s.cand j with
  | none => s
  | some c =>
      match c.currentSeat with
      | none => s.setCand j { c with state := st }
      | some i => offerDesk i .blank (freeSeat i (s.setCand j { c with state := st, currentSeat := none }))

/-- The EXPECTED records of a sitting. -/
def State.expectedOf (s : State) (k : Fin 8) : List Nat :=
  s.slotsWhere (fun c => c.sitting == k && c.state == .expected)

/-- Admission close: every EXPECTED record of the sitting becomes ABSENT, in roll slot order, the sitting clock
unit is told, and one cause is raised where a record became ABSENT (R59). -/
def closeAdmission (k : Fin 8) (s : State) : State :=
  if (s.expectedOf k).isEmpty then s
  else (closingTest k (takeInTurn (s.expectedOf k) (endExpected .absent) s)).raise .admission

end Sys2Proof.Machine
end

