-- ==== Sys2Proof/Machine/Timing.lean ====
section
/-! DEFINITION. The personal time unit's shared operations: extension, rest budget and personal end (R64, R65),
activation (R70, R71), the warning (R69), the finish (R77), and the ENDs after a hold (R79). -/

namespace Sys2Proof.Machine

/-- The extension: W × a / 6000 rounded up, times 60 (R64). -/
def extensionOf (w a : Nat) : Nat := (w * a + 5999) / 6000 * 60

/-- The rest budget: W × r / 60 rounded up (R64). -/
def restBudgetOf (w r : Nat) : Nat := (w * r + 59) / 60

/-- The personal end of R65. -/
def personalEndOf (t : Sitting) (ext used : Nat) : Nat :=
  min Config.lastSecond (t.t0 + t.h + t.r + t.w + ext + used)

/-- The record with its personal end recomputed from its sitting (R65). -/
def Candidate.withPersonalEnd (t : Sitting) (c : Candidate) : Candidate :=
  { c with personalEnd := some (personalEndOf t (c.ext.getD 0) c.restUsed) }

/-- The record with extension, rest budget and personal end computed from its sitting's W (R64, R65). -/
def Candidate.withTimes (t : Sitting) (c : Candidate) : Candidate :=
  Candidate.withPersonalEnd t
    { c with ext := some (extensionOf t.w c.allowance), restBudget := some (restBudgetOf t.w c.restRate) }

/-- The remaining time: the personal end minus the hall time (R65). -/
def Candidate.remaining (c : Candidate) (hallTime : Nat) : Nat := c.personalEnd.getD 0 - hallTime

/-- The record is due its warning (R69). -/
def Candidate.dueWarning (c : Candidate) (t : Sitting) (hallTime : Nat) : Bool :=
  (c.state == .active || c.state == .resting) && !c.flags.warned && decide (0 < t.v) &&
    decide (c.remaining hallTime ≤ t.v)

/-- The warning test of a record (R69). -/
def warningTest (j : Nat) (s : State) : State :=
  match s.cand j with
  | none => s
  | some c =>
      if c.dueWarning s.sittings[c.sitting] s.hallTime then
        (showNotice c .warn (s.setCand j { c with flags := { c.flags with warned := true } })).raise .time
      else s

/-- The record as its writing begins (R70, steps 1 to 3). -/
def Candidate.activated (t : Sitting) (c : Candidate) : Candidate :=
  Candidate.withTimes t { c with state := .active, restUsed := 0 }

/-- The personal time unit sets a record up as it becomes ACTIVE (R70, R71). -/
def activate (j : Nat) (s : State) : State :=
  match s.cand j with
  | none => s
  | some c =>
      warningTest j
        (showEnd (c.activated s.sittings[c.sitting]) (s.setCand j (c.activated s.sittings[c.sitting])))

/-- What makes a record DONE (R77). -/
inductive FinishCause where
  | personalEnd | submitted | withdrawn | dayEnd
  deriving DecidableEq, Repr

/-- The flags after a finish: WITHDRAWN or CAPPED is set by its cause, the others keep their values (R77). -/
def CandFlags.finished (f : CandFlags) : FinishCause → CandFlags
  | .personalEnd => f
  | .submitted => f
  | .withdrawn => { f with withdrawn := true }
  | .dayEnd => { f with capped := true }

/-- The record as it becomes DONE: the personal end, the extension and the rest used keep their values (R77). -/
def Candidate.finished (c : Candidate) (why : FinishCause) : Candidate :=
  { c with state := .done, flags := c.flags.finished why }

/-- A record becomes DONE (R77). -/
def finish (why : FinishCause) (j : Nat) (s : State) : State :=
  match s.cand j with
  | none => s
  | some c => closingTest c.sitting (submitOnFinish j (showNotice c .done (s.setCand j (c.finished why))))

/-- The ACTIVE and RESTING records of a sitting. -/
def State.timedOf (s : State) (k : Fin 8) : List Nat :=
  s.slotsWhere (fun c => c.sitting == k && (c.state == .active || c.state == .resting))

/-- An END for the desk of a record in a roll slot. -/
def showEndOf (j : Nat) (s : State) : State :=
  match s.cand j with
  | none => s
  | some c => showEnd c s

/-- The hold sources of a running sitting change; where they become empty an END is queued for each ACTIVE or
RESTING record of the sitting, in roll slot order (R79). -/
def changeHold (k : Fin 8) (h : HoldSources) (s : State) : State :=
  if s.sittings[k].held && !h.any then
    takeInTurn (s.timedOf k) showEndOf (s.setSitting k { s.sittings[k] with hold := h })
  else s.setSitting k { s.sittings[k] with hold := h }

end Sys2Proof.Machine
end

