-- ==== Sys2Proof/Machine/Wire.lean ====
section
/-! DEFINITION. What crosses the three lines, byte by byte: the frame check (Section 4.6), the codes of named
values (R172), the values an answer carries, and the frames of Section 10.4. The layouts of answer values that
R172 does not settle are the model's (DESIGN CHOICE, log entry 8). -/

namespace Sys2Proof.Machine

/-! ### The frame check (Section 4.6) -/

/-- One bit of the CRC-8 with generator 0x31, most significant bit first. -/
def crcBit (c : Byte) : Byte := if c.msb then (c <<< 1) ^^^ 0x31 else c <<< 1

/-- The CRC-8 after one more byte. -/
def crcByte (c b : Byte) : Byte := crcBit (crcBit (crcBit (crcBit (crcBit (crcBit (crcBit (crcBit (c ^^^ b))))))))

/-- The CRC-8 of a run of bytes, from the initial value 0xFF, without final inversion. -/
def crc8 (bytes : List Byte) : Byte := bytes.foldl crcByte 0xFF

/-- A frame with its check byte. -/
def withCheck (bytes : List Byte) : List Byte := bytes ++ [crc8 bytes]

/-! ### Codes of named values (R172) -/

/-- The status code of an answer (Section 10.4). -/
def Status.code : Status → Nat
  | .ok => 0 | .okClamped => 1 | .range => 2 | .state => 3 | .past => 4 | .duplicate => 5 | .full => 6
  | .dirFull => 7 | .notEnrolled => 8 | .custodyOpen => 9 | .busy => 10 | .liveRecords => 11
  | .positionTaken => 12 | .addressTaken => 13 | .notInRooms => 14 | .features => 15 | .adjacent => 16
  | .noSeat => 17 | .alreadySeated => 18 | .inOtherSitting => 19 | .late => 20 | .notNow => 21 | .held => 22
  | .budget => 23 | .badSerial => 24 | .wrongOwner => 25 | .limit => 26 | .unknownScript => 27 | .marked => 28
  | .notABooklet => 29 | .incomplete => 30 | .order => 31 | .marksExist => 32 | .sequence => 33
  | .checkFail => 34 | .timeout => 35 | .tooLong => 36 | .unknown => 37 | .malformed => 38

/-- The candidate states, numbered from 0 (R172). -/
def CandState.code : CandState → Nat
  | .expected => 0 | .seated => 1 | .active => 2 | .resting => 3 | .done => 4 | .cleared => 5 | .absent => 6
  | .withdrawn => 7

/-- The sitting states, numbered from 0 (R172). -/
def SittingState.code : SittingState → Nat
  | .unscheduled => 0 | .scheduled => 1 | .admitting => 2 | .reading => 3 | .writing => 4 | .closing => 5
  | .closed => 6

/-- The seat states, numbered from 0 (R172). -/
def SeatState.code : SeatState → Nat
  | .outOfUse => 0 | .free => 1 | .held => 2 | .occupied => 3 | .vacated => 4

/-- The desk statuses, numbered from 0 (R172). -/
def DeskStatus.code : DeskStatus → Nat
  | .unbound => 0 | .unknown => 1 | .present => 2 | .lost => 3

/-- The post statuses, numbered from 0 (R172). -/
def PostStatus.code : PostStatus → Nat
  | .unknown => 0 | .present => 1 | .lost => 2

/-- The separation modes, numbered from 0 (R172). -/
def Separation.code : Separation → Nat
  | .orthogonal => 0 | .full => 1

/-- The fill patterns, numbered from 0 (R172). -/
def FillPattern.code : FillPattern → Nat
  | .rowMajor => 0 | .serpentine => 1 | .columnMajor => 2

/-- The notices, numbered from 1 in the order of R85 (Section 10.4). -/
def Notice.code : Notice → Nat
  | .stay => 1 | .warn => 2 | .done => 3 | .restOver => 4 | .notAllocated => 5 | .wrongSeat => 6
  | .notConfirmed => 7 | .earlyBar => 8 | .budget => 9 | .held => 10 | .limit => 11 | .badSerial => 12
  | .wrongOwner => 13 | .wrongRoom => 14 | .notSubmitted => 15 | .hallHold => 16 | .notEnrolled => 17
  | .alreadySeated => 18 | .inOtherSitting => 19 | .late => 20 | .notNow => 21 | .noSeat => 22

/-- The SHOW kinds (Section 10.4). -/
def ShowKind.code : ShowKind → Nat
  | .seat => 1 | .ending => 2 | .notice => 3 | .blank => 4

/-- The line states, numbered from 0 (R172). -/
def LineState.code : LineState → Nat
  | .disabled => 0 | .master => 1 | .awaiting _ => 2

/-- The script kinds, numbered from 0 (R172). -/
def ScriptKind.code : ScriptKind → Nat
  | .booklet => 0 | .sheet => 1

/-- The script states, numbered from 0 (R172). -/
def ScriptState.code : ScriptState → Nat
  | .issued => 0 | .submitted => 1 | .collected => 2 | .marking => 3 | .marked => 4 | .handed => 5 | .voided => 6

/-- The custody refusal reasons, numbered from 0 in the order of R109 and R113 (DESIGN CHOICE, log entry 8). -/
def CustodyReason.code : CustodyReason → Nat
  | .wrongOwner => 0 | .full => 1 | .badSerial => 2 | .unknownScript => 3 | .notSubmitted => 4 | .voided => 5
  | .wrongRoom => 6

/-- The key states, numbered from 0 (R172). -/
def KeyState.code : KeyState → Nat
  | .empty => 0 | .loading => 1 | .sealed_ => 2 | .released => 3

/-- The buffer states, numbered from 0 (R172). -/
def BufferState.code : BufferState → Nat
  | .free => 0 | .filling => 1 | .queued => 2 | .taken => 3 | .decided => 4

/-- The forms of a sheet, numbered from 0 (R172). -/
def SheetForm.code : SheetForm → Nat
  | .wellFormed => 0 | .malformed => 1

/-- The receive states, numbered from 0 (R172). -/
def ReceiveState.code : ReceiveState → Nat
  | .idle => 0 | .filling => 1 | .discarding => 2

/-- The REJECT reasons (Section 10.4). -/
def RejectReason.code : RejectReason → Nat
  | .malformed => 1 | .badSerial => 2 | .unknownScript => 3 | .notASheet => 4 | .notCollected => 5
  | .alreadyMarked => 6 | .voided => 7 | .embargoed => 8 | .pageRange => 9 | .duplicatePage => 10

/-- The verdict kinds (Section 10.4). -/
def Verdict.kindCode : Verdict → Nat
  | .accept => 1 | .acceptReview => 2 | .reject _ => 3 | .cleared => 4

/-- The reason byte of a verdict, 0 for every kind but REJECT (Section 10.4). -/
def Verdict.reasonCode : Verdict → Nat
  | .accept => 0 | .acceptReview => 0 | .reject r => r.code | .cleared => 0

/-- The fault classes, numbered from 0 (R172). -/
def FaultClass.code : FaultClass → Nat
  | .deskCorrupt => 0 | .deskLost => 1 | .sheetMalformed => 2 | .linkCheck => 3 | .linkTimeout => 4

/-- The reset causes, numbered from 0 (R172). -/
def ResetCause.code : ResetCause → Nat
  | .powerUp => 0 | .hallReset => 1

/-! ### Values of answers (R172) -/

/-- An optional value: 1 and the value where it is present, 0 where it is absent (R172). -/
def beOpt {α : Type} (f : α → List Byte) : Option α → List Byte
  | some a => 1 :: f a
  | none => [0]

/-- A list of values after its length in one byte (DESIGN CHOICE, log entry 8). -/
def beList {α : Type} (f : α → List Byte) (l : List α) : List Byte := be1 l.length ++ l.flatMap f

/-- A value that can be below 0, in two bytes of two's complement (R172). -/
def beInt2 (i : Int) : List Byte := be2 ((BitVec.ofInt 16 i).toNat)

/-- A seat named in an answer: its index with its room, row and column (R42). -/
def SeatCopy.bytes (c : SeatCopy) : List Byte := be2 c.index ++ be1 c.room.val ++ be1 c.row ++ be1 c.column

/-- The index and place of a seat, where it is defined. -/
def State.seatCopy (s : State) (i : Nat) : Option SeatCopy :=
  (s.seat i).place.map (fun p => ⟨i, p.room, p.row, p.column⟩)

/-- A seat in an answer, by its index (R42). -/
def State.seatBytes (s : State) (i : Nat) : List Byte :=
  match s.seatCopy i with
  | some c => c.bytes
  | none => be2 i

/-- The admission opening time T0 − Aw (R25, R40); before midnight it is a free value (DESIGN CHOICE, log entry
15). -/
def openingBytes (t : Sitting) : List Byte :=
  if t.aw ≤ t.t0 then be3 (t.t0 - t.aw) else be3 (Config.openingBeforeMidnight t.t0 t.aw).toNat

/-- A room list in an answer (R172). The bytes past its count are 0: R172 says only that they are not read (DESIGN
CHOICE, log entry 8). -/
def roomListBytes (rooms : List (Fin 4)) : List Byte :=
  be1 rooms.length ++ (rooms.map (fun (m : Fin 4) => BitVec.ofNat 8 m.val) ++ [0, 0, 0, 0]).take 4

/-- The hold sources as a set, HALL in bit 0 and SITTING in bit 1 (DESIGN CHOICE, log entry 8). -/
def HoldSources.bytes (h : HoldSources) : List Byte := be1 (h.hall.toNat + 2 * h.sitting.toNat)

/-- The seven flags of a candidate record, one byte each (R172). -/
def CandFlags.bytes (f : CandFlags) : List Byte :=
  beFlag f.confirmed ++ beFlag f.lateArrival ++ beFlag f.clash ++ beFlag f.capped ++ beFlag f.warned ++
  beFlag f.withdrawn ++ beFlag f.noScript

/-- The mark accumulator in an answer: pages marked, the section sums and the review count (R161). -/
def Accumulator.bytes (a : Accumulator) : List Byte :=
  be1 a.pages.toNat ++ a.sums.toList.flatMap beInt2 ++ be1 a.reviewCount

/-- A result in an answer (R161). -/
def ResultRecord.bytes (r : ResultRecord) : List Byte :=
  be2 r.total ++ be2 r.smax ++ be2 r.perMille ++ be1 r.band ++ beFlag r.noMax ++ beFlag r.review

/-- Every field of a candidate record in the order of R1, then its roll slot (R12). -/
def State.candidateBytes (s : State) (j : Nat) (c : Candidate) : List Byte :=
  be4 c.number ++ be1 c.sitting.val ++ be1 c.state.code ++ be1 c.allowance ++ be1 c.restRate ++
  be1 c.required.toNat ++ beOpt s.seatBytes c.currentSeat ++ beOpt SeatCopy.bytes c.seatOfRecord ++
  c.flags.bytes ++ beOpt be2 c.ext ++ beOpt be2 c.restBudget ++ be2 c.restUsed ++ beOpt be3 c.personalEnd ++
  beOpt be2 c.nextRecord ++ c.acc.bytes ++ beOpt ResultRecord.bytes c.result ++ be2 j

/-- A sheet result in an answer (R104). -/
def SheetResult.bytes (r : SheetResult) : List Byte :=
  r.sums.toList.flatMap beInt2 ++ beList be1 r.review ++ beFlag r.overflow

/-! ### Frames (Section 10.4) -/

/-- A request frame of the station: control byte, length, payload, and the check byte where it asks for one. -/
def requestFrame (first last check : Bool) (payload : List Byte) : List Byte :=
  let bytes := BitVec.ofNat 8 (first.toNat + 2 * last.toNat + 4 * check.toNat) :: (be1 payload.length ++ payload)
  if check then withCheck bytes else bytes

/-- An answer frame: status and link flag, length, payload and check byte (R171). -/
def AnswerFrame.bytes (f : AnswerFrame) : List Byte :=
  withCheck (be1 (f.status.code + 128 * f.link.toNat) ++ be1 f.payload.length ++ f.payload)

/-- The content bytes of a SHOW. The state of an END is ACTIVE 1, RESTING 2 or DONE 3; R85 admits no other. -/
def ShowContent.bytes : ShowContent → List Byte
  | .seat room row column number sitting =>
      be1 room.val ++ be1 row ++ be1 column ++ be4 number ++ be1 sitting.val
  | .ending pe st left =>
      be3 pe ++ be1 (match st with
        | .active => 1 | .resting => 2 | .done => 3
        | .expected | .seated | .cleared | .absent | .withdrawn => 0) ++ be2 left
  | .notice n => be1 n.code
  | .blank => []

/-- A message going down a segment. -/
def SegMessage.bytes : SegMessage → List Byte
  | .time t held => withCheck (be1 1 ++ be1 255 ++ be3 t ++ [held])
  | .poll a => withCheck (be1 2 ++ be1 a)
  | .show_ e => withCheck (be1 3 ++ be1 e.address ++ be1 e.content.kind.code ++ e.content.bytes)

/-- A frame that the scanner port sends; a verdict carries its buffer's sheet number, serial and page (R141). -/
def Intake.frameBytes (k : Intake) : ScanFrame → List Byte
  | .portReset => withCheck (be1 24)
  | .begin_ (.go n) => withCheck (be1 21 ++ be1 n)
  | .begin_ .wait => withCheck (be1 22)
  | .verdict b =>
      let v := (k.buffers[b].verdict).getD .cleared
      withCheck (be1 23 ++ be1 k.buffers[b].number ++ be3 k.buffers[b].serial ++ be1 k.buffers[b].page ++
        be1 v.kindCode ++ be1 v.reasonCode)

/-- The event of a unit's answer (R86). -/
inductive DeskEvent where
  | null
  | tap (number : Nat)
  | hand (up : Bool)
  | rest (begin_ : Bool)
  | submit
  | slot (serial : Nat)
  | collect (serial : Nat)
  | restart
  deriving DecidableEq, Repr

/-- The event that an answer's event code and fields spell; none where the code, the length or a field is not of
its defined form (R86, Section 10.4). -/
def eventOf (code : Nat) (fields : List Byte) : Option DeskEvent :=
  match code, fields with
  | 0, [] => some .null
  | 1, [a, b, c, d] => some (.tap (num4 a b c d))
  | 2, [u] => if u = 1 then some (.hand true) else if u = 0 then some (.hand false) else none
  | 3, [u] => if u = 1 then some (.rest true) else if u = 0 then some (.rest false) else none
  | 4, [] => some .submit
  | 5, [a, b, c] => if num3 a b c ≤ Config.maxSerial then some (.slot (num3 a b c)) else none
  | 6, [a, b, c] => if num3 a b c ≤ Config.maxSerial then some (.collect (num3 a b c)) else none
  | 7, [] => some .restart
  | _, _ => none

/-- The address and event of an answer frame whose check passes; none for a frame that is no good answer from
any address (R86). -/
def parseAnswer (frame : List Byte) : Option (Nat × DeskEvent) :=
  if crc8 frame = 0 then
    match frame.dropLast with
    | code :: address :: event :: fields =>
        if code.toNat = 4 then (eventOf event.toNat fields).map (fun e => (address.toNat, e)) else none
    | _ => none
  else none

/-- The command that a frame from the scanner stands for: a frame of one of the three layouts whose check passes,
or a frame whose check fails (R133, R172). -/
def scannerCommand (frame : List Byte) : Instr :=
  if crc8 frame = 0 then
    match frame with
    | [code, s1, s2, s3, p, c1, c2, c3, c4, _] =>
        if code.toNat = 11 then .sheetBegin (num3 s1 s2 s3) p.toNat c1.toNat c2.toNat c3.toNat c4.toNat
        else .scannerBadFrame
    | [code, r, a, b, c, d, e, _] =>
        if code.toNat = 12 then .row r.toNat a.toNat b.toNat c.toNat d.toNat e.toNat else .scannerBadFrame
    | [code, n, _] => if code.toNat = 13 then .sheetEnd n.toNat else .scannerBadFrame
    | _ => .scannerBadFrame
  else .scannerBadFrame

end Sys2Proof.Machine
end

