-- ==== Sys2Proof/Machine/Roll.lean ====
section
/-! DEFINITION. Chapter 1: the candidate roll and the directory, and the requests of the roll store: ENROL, AMEND,
WITHDRAW, RETIRE, READ_CANDIDATE, READ_SLOT, READ_CHAIN and READ_ROLL. -/

namespace Sys2Proof.Machine

/-! ### The directory (R14 to R18) -/

/-- An unused directory slot. -/
def slotFree (d : Option DirSlot) : Bool := d.isNone

/-- Writes one slot of a linked page. -/
def State.setDirSlot (s : State) (p : Nat) (x : Fin 8) (d : Option DirSlot) : State :=
  match tableFind s.dirPages p with
  | some pg => { s with dirPages := tableInsert s.dirPages p { pg with slots := pg.slots.set x d } }
  | none => s

/-- The lowest-numbered page in the pool (R16). -/
def State.poolPage (s : State) : Option Nat :=
  lowestFrom (fun p => (tableFind s.dirPages p).isNone) Config.directoryPages 0

/-- The first free slot of the pages already linked to a number's bucket (R16). -/
def State.freeDirSlot (s : State) (n : Nat) : Option (Nat × Fin 8) :=
  findSlot s.dirPages slotFree (s.bucketPages (bucketOf n))

/-- A page taken from the pool, its slots cleared and the number in slot 0 (R16). -/
def freshPage (n j : Nat) : Page :=
  { slots := (Vector.replicate 8 none).set 0 (some ⟨n, j⟩), next := none }

/-- Links a page at the end of a bucket's chain (R16). -/
def State.linkPage (s : State) (b p : Nat) (pg : Page) : State :=
  match (s.bucketPages b).getLast? with
  | none => { s with dirRoot := tableInsert s.dirRoot b p, dirPages := tableInsert s.dirPages p pg }
  | some q =>
      match tableFind s.dirPages q with
      | some old =>
          { s with dirPages := tableInsert (tableInsert s.dirPages q { old with next := some p }) p pg }
      | none => s

/-- A number that has no directory slot takes one, with its first record as head (R16). -/
def State.dirInsert (s : State) (n j : Nat) : State :=
  match s.freeDirSlot n with
  | some (p, x) => s.setDirSlot p x (some ⟨n, j⟩)
  | none =>
      match s.poolPage with
      | some p => s.linkPage (bucketOf n) p (freshPage n j)
      | none => s

/-- The head record of a number's directory slot changes (R17, R18). -/
def State.setHead (s : State) (n j : Nat) : State :=
  match s.dirPlace n with
  | some (p, x) => s.setDirSlot p x (some ⟨n, j⟩)
  | none => s

/-- The page before a page in a chain. -/
def pageBefore (p : Nat) : List Nat → Option Nat
  | a :: b :: rest => if b = p then some a else pageBefore p (b :: rest)
  | _ => none

/-- A page left with no used slot is unlinked from its bucket and returns to the pool (R18). -/
def State.unlinkPage (s : State) (b p : Nat) : State :=
  match tableFind s.dirPages p with
  | none => s
  | some pg =>
      match pageBefore p (s.bucketPages b) with
      | none =>
          match pg.next with
          | some q => { s with dirRoot := tableInsert s.dirRoot b q, dirPages := tableErase s.dirPages p }
          | none => { s with dirRoot := tableErase s.dirRoot b, dirPages := tableErase s.dirPages p }
      | some a =>
          match tableFind s.dirPages a with
          | some before =>
              { s with dirPages := tableErase (tableInsert s.dirPages a { before with next := pg.next }) p }
          | none => s

/-- A number's directory slot becomes free, and its page returns to the pool where it is left empty (R18). -/
def State.dirRemove (s : State) (n : Nat) : State :=
  match s.dirPlace n with
  | none => s
  | some (p, x) =>
      if (slotsOf (s.setDirSlot p x none).dirPages p).all slotFree then
        (s.setDirSlot p x none).unlinkPage (bucketOf n) p
      else s.setDirSlot p x none

/-! ### The record chain (R17 to R19) -/

/-- The next record of a record changes. -/
def State.setNext (s : State) (j : Nat) (next : Option Nat) : State :=
  match s.cand j with
  | some c => s.setCand j { c with nextRecord := next }
  | none => s

/-- Each record of a list takes the following one as its next record, and the last has none (R17). -/
def State.linkRecords (s : State) : List Nat → State
  | [] => s
  | [j] => s.setNext j none
  | j :: i :: rest => (s.setNext j (some i)).linkRecords (i :: rest)

/-- The order (T0, sitting index) of a record's sitting (R17): the sitting index is below 8. -/
def State.chainKey (s : State) (j : Nat) : Nat :=
  match s.cand j with
  | some c => s.sittings[c.sitting].t0 * 8 + c.sitting.val
  | none => 0

/-- A record is placed before the first record whose (T0, sitting index) is greater, or at the end (R17). -/
def State.placeInChain (s : State) (j : Nat) : List Nat → List Nat
  | [] => [j]
  | i :: rest => if s.chainKey j < s.chainKey i then j :: i :: rest else i :: s.placeInChain j rest

/-- A number's records form the chain given: its head stands in the directory slot, and the next records follow
(R17, R18). -/
def State.writeChain (s : State) (n : Nat) (chain : List Nat) : State :=
  match chain with
  | [] => s
  | j :: rest => (s.setHead n j).linkRecords (j :: rest)

/-- A new record joins its number's chain, or becomes the first record of a new directory slot (R16, R17). -/
def State.joinChain (s : State) (n j : Nat) : State :=
  match s.lookup n with
  | none => (s.dirInsert n j).setNext j none
  | some _ => s.writeChain n (s.placeInChain j ((s.chain n).filter (· != j)))

/-- A record leaves its number's chain; with the number's last live record the directory slot becomes free
(R18). -/
def State.leaveChain (s : State) (n j : Nat) : State :=
  match (s.chain n).filter (· != j) with
  | [] => s.dirRemove n
  | i :: rest => s.writeChain n (i :: rest)

/-- A record of a rescheduled sitting is put back at the place R17 gives under the new T0 (R19, step 1). -/
def reorderRecord (j : Nat) (s : State) : State :=
  match s.cand j with
  | some c => s.writeChain c.number (s.placeInChain j ((s.chain c.number).filter (· != j)))
  | none => s

/-! ### CLASH (R7, R19) -/

/-- The other live records of a record's number whose sitting interval overlaps its own (R7). -/
def State.clashing (s : State) (j : Nat) : List Nat :=
  match s.cand j with
  | none => []
  | some c =>
      (s.roll.filter (fun x => x.1 != j && x.2.number == c.number &&
        s.sittings[c.sitting].overlaps s.sittings[x.2.sitting])).map Prod.fst

/-- CLASH is set on a record. -/
def setClash (j : Nat) (s : State) : State :=
  match s.cand j with
  | some c => s.setCand j { c with flags := { c.flags with clash := true } }
  | none => s

/-- CLASH is set on a record and on every record it overlaps with; nothing where there is none (R7). -/
def markClashes (j : Nat) (s : State) : State :=
  if (s.clashing j).isEmpty then s else takeInTurn (j :: s.clashing j) setClash s

/-- The records on which CLASH is set. -/
def State.clashCount (s : State) : Nat := (s.slotsWhere (fun c => c.flags.clash)).length

/-- Reads the CLASH flag of a record. -/
def State.hasClash (s : State) (j : Nat) : Bool :=
  match s.cand j with
  | some c => c.flags.clash
  | none => false

/-! ### ENROL and AMEND -/

/-- The flags of a new record (R5). -/
def noFlags : CandFlags := ⟨false, false, false, false, false, false, false⟩

/-- The accumulator of a record not yet marked (R159). -/
def emptyAccumulator : Accumulator := { pages := 0, sums := Vector.replicate 4 0, reviewCount := 0 }

/-- A new record (R5). -/
def newCandidate (n : Nat) (k : Fin 8) (a r : Nat) (f : Byte) : Candidate :=
  { number := n, sitting := k, state := .expected, allowance := clampTo 100 a, restRate := clampTo 20 r,
    required := featuresOf f, currentSeat := none, seatOfRecord := none, flags := noFlags, ext := none,
    restBudget := none, restUsed := 0, personalEnd := none, nextRecord := none, acc := emptyAccumulator,
    result := none }

/-- Some value of an enrolment is reduced, or a feature bit dropped (R5). -/
def enrolmentClamped (a r : Nat) (f : Byte) : Bool := decide (100 < a) || decide (20 < r) || extraFeatures f

/-- ENROL is open for a sitting: checks 2 and 3 of R4. -/
def Sitting.enrolOpen (t : Sitting) : Bool :=
  match t.state with
  | .scheduled | .admitting | .reading => true
  | .writing => decide (t.e < t.r + t.l)
  | .unscheduled | .closing | .closed => false

/-- The number has a directory entry, or a slot for it can be had (R4, check 6). -/
def State.directoryRoom (s : State) (n : Nat) : Bool :=
  (s.lookup n).isSome || (s.freeDirSlot n).isSome || s.poolPage.isSome

/-- The lowest-numbered free roll slot (R2). -/
def State.freeRollSlot (s : State) : Option Nat :=
  lowestFrom (fun j => (s.cand j).isNone) Config.rollSlots 0

/-- A live record of a number in a sitting, in any state (R4, check 4). -/
def State.enrolled (s : State) (n : Nat) (k : Fin 8) : Bool :=
  s.roll.any (fun x => x.2.number == n && x.2.sitting == k)

/-- The record is created, linked into the directory and tested for overlaps; one cause is raised where a pair
overlaps (R5, R7, R16, R17). -/
def State.enrolAt (s : State) (j : Nat) (c : Candidate) : State :=
  let t := markClashes j ((s.setCand j c).joinChain c.number j)
  if t.hasClash j then t.raise .admission else t

/-- ENROL (R4, R5). -/
def enrol (n k a r : Nat) (f : Byte) : Owner := fun s =>
  if Config.maxNumber < n then refuse .range s
  else
    match sittingOf k with
    | none => refuse .range s
    | some k' =>
        if !s.sittings[k'].enrolOpen then refuse .state s
        else if s.enrolled n k' then refuse .duplicate s
        else
          match s.freeRollSlot with
          | none => refuse .full s
          | some j =>
              if !s.directoryRoom n then refuse .dirFull s
              else
                okOrClamped (enrolmentClamped a r f)
                  (be2 j ++ beFlag ((s.enrolAt j (newCandidate n k' a r f)).hasClash j))
                  (s.enrolAt j (newCandidate n k' a r f))

/-- AMEND (R8). -/
def amend (n k a r : Nat) (f : Byte) : Owner := fun s =>
  match s.resolve n k with
  | .error st => refuse st s
  | .ok (j, c) =>
      match c.state with
      | .expected | .seated =>
          okOrClamped (enrolmentClamped a r f) []
            (s.setCand j
              { c with allowance := clampTo 100 a, restRate := clampTo 20 r, required := featuresOf f })
      | .active | .resting | .done | .cleared | .absent | .withdrawn => refuse .state s

/-! ### WITHDRAW and RETIRE -/

/-- WITHDRAW (R9); after seating it is the finish of R78. -/
def withdraw (n k : Nat) : Owner := fun s =>
  match s.resolve n k with
  | .error st => refuse st s
  | .ok (j, c) =>
      match c.state with
      | .expected =>
          match c.currentSeat with
          | none => okWith [] (endExpected .withdrawn j s)
          | some _ => okWith [] (closingTest c.sitting (endExpected .withdrawn j s))
      | .seated | .active | .resting => okWith [] (finish .withdrawn j s)
      | .done | .cleared | .absent | .withdrawn => refuse .state s

/-- A final state, in which a record can be retired (R10, condition 1). -/
def CandState.final : CandState → Bool
  | .cleared | .absent | .withdrawn => true
  | .expected | .seated | .active | .resting | .done => false

/-- A script that keeps its candidate from retirement: ISSUED, SUBMITTED or COLLECTED (R10, condition 3). -/
def Script.custodyOpen (x : Script) : Bool :=
  x.state == .issued || x.state == .submitted || x.state == .collected

/-- The record is removed with its scripts, its link and its slot (R11). -/
def State.retireRecord (s : State) (j : Nat) (c : Candidate) : State :=
  (({ s with scripts := s.scripts.filter (fun x => x.2.slot != j) } : State).leaveChain c.number j).eraseCand j

/-- RETIRE (R10, R11). -/
def retire (n k : Nat) : Owner := fun s =>
  match s.resolve n k with
  | .error st => refuse st s
  | .ok (j, c) =>
      if !c.state.final then refuse .state s
      else if (s.boundScripts j).any (fun x => x.2.state == .marking) then refuse .busy s
      else if (s.boundScripts j).any (fun x => x.2.custodyOpen) then refuse .custodyOpen s
      else okWith (be1 (s.boundScripts j).length) (s.retireRecord j c)

/-! ### Reading the roll -/

/-- READ_CANDIDATE (R12). -/
def readCandidate (n k : Nat) : Owner := fun s =>
  match s.resolve n k with
  | .error st => refuse st s
  | .ok (j, c) => okWith (s.candidateBytes j c) s

/-- READ_SLOT (R12): the record stands behind one byte 1, and a free slot is the one byte 0, as an optional value is sent
(DESIGN CHOICE, log entry 8). -/
def readSlot (j : Nat) : Owner := fun s =>
  if Config.rollSlots ≤ j then refuse .range s else okWith (beOpt (s.candidateBytes j) (s.cand j)) s

/-- What READ_CHAIN gives of one record (R13). -/
def State.chainEntryBytes (s : State) (j : Nat) : List Byte :=
  match s.cand j with
  | some c => be1 c.sitting.val ++ be1 c.state.code ++ be2 j ++ beFlag c.flags.clash
  | none => []

/-- READ_CHAIN (R13). -/
def readChain (n : Nat) : Owner := fun s =>
  if Config.maxNumber < n then refuse .range s
  else
    match s.lookup n with
    | none => refuse .notEnrolled s
    | some _ => okWith (beList s.chainEntryBytes (s.chain n)) s

/-- The used slots of a page. -/
def Page.usedSlots (p : Page) : Nat := (p.slots.toList.filter Option.isSome).length

/-- The number of candidate numbers that hold a directory slot (R13). -/
def State.usedDirSlots (s : State) : Nat := (s.dirPages.map (fun x => x.2.usedSlots)).sum

/-- The values of READ_ROLL (R13). -/
def State.rollBytes (s : State) : List Byte :=
  be2 s.liveCount ++ be2 (Config.rollSlots - s.liveCount) ++ eight.flatMap (fun k => be2 (s.liveOf k)) ++
  be1 s.dirPages.length ++ be1 (Config.directoryPages - s.dirPages.length) ++ be2 s.usedDirSlots

/-- READ_ROLL (R13). -/
def readRoll : Owner := fun s => okWith s.rollBytes s

/-! ### The rows -/

/-- ENROL (R4). -/
def execEnrol (n k a r : Nat) (f : Byte) (s : State) : Host.Outcome State Fault Refusal :=
  requestRow (.enrol n k a r f) (enrol n k a r f) s

/-- AMEND (R8). -/
def execAmend (n k a r : Nat) (f : Byte) (s : State) : Host.Outcome State Fault Refusal :=
  requestRow (.amend n k a r f) (amend n k a r f) s

/-- WITHDRAW (R9). -/
def execWithdraw (n k : Nat) (s : State) : Host.Outcome State Fault Refusal :=
  requestRow (.withdraw n k) (withdraw n k) s

/-- RETIRE (R10). -/
def execRetire (n k : Nat) (s : State) : Host.Outcome State Fault Refusal :=
  requestRow (.retire n k) (retire n k) s

/-- READ_CANDIDATE (R12). -/
def execReadCandidate (n k : Nat) (s : State) : Host.Outcome State Fault Refusal :=
  requestRow (.readCandidate n k) (readCandidate n k) s

/-- READ_SLOT (R12). -/
def execReadSlot (j : Nat) (s : State) : Host.Outcome State Fault Refusal :=
  requestRow (.readSlot j) (readSlot j) s

/-- READ_CHAIN (R13). -/
def execReadChain (n : Nat) (s : State) : Host.Outcome State Fault Refusal :=
  requestRow (.readChain n) (readChain n) s

/-- READ_ROLL (R13). -/
def execReadRoll (s : State) : Host.Outcome State Fault Refusal := requestRow .readRoll readRoll s

end Sys2Proof.Machine
end

