-- ==== Sys2Proof/Machine/Sittings.lean ====
section
/-! DEFINITION. Chapter 2: the hall clock, the sittings and the hold input filter: the requests SET_CLOCK,
READ_CLOCK, SCHEDULE, RETIRE_SITTING, HOLD, RESUME, EXTEND and READ_SITTING, and the sittings' part of a hall
second. The row HALL_SECOND itself stands in Machine/HallSecond.lean. -/

namespace Sys2Proof.Machine

/-! ### SET_CLOCK and READ_CLOCK -/

/-- A sitting that stops SET_CLOCK by its phase (R22, check 2). -/
def Sitting.stopsClock (t : Sitting) : Bool :=
  match t.state with
  | .admitting | .reading | .writing | .closing => true
  | .unscheduled | .scheduled | .closed => false

/-- A SCHEDULED sitting whose admission opening time the new hall time would reach (R22, check 3): T0 − Aw is at
or before it. -/
def Sitting.passedBy (t : Sitting) (time : Nat) : Bool :=
  t.state == .scheduled && decide (t.t0 ≤ time + t.aw)

/-- SET_CLOCK (R22). -/
def setClock (time : Nat) : Owner := fun s =>
  if Config.lastSecond < time then refuse .range s
  else if s.sittings.any Sitting.stopsClock then refuse .state s
  else if s.sittings.any (fun t => t.passedBy time) then refuse .state s
  else okWith (be3 time) { s with hallTime := time }

/-- The values of READ_CLOCK (R40). The sampled polarity is 1 for a high HOLD_POL: R172 codes clear and set, not levels
(DESIGN CHOICE, log entry 8). -/
def State.clockBytes (s : State) : List Byte :=
  be3 s.hallTime ++ beFlag s.holdFilter.filtered ++ beFlag s.holdFilter.raw ++ beFlag s.holdFilter.waiting ++
  beFlag s.holdFilter.polarity ++ [s.heldSet]

/-- READ_CLOCK (R40). -/
def readClock : Owner := fun s => okWith s.clockBytes s

/-! ### SCHEDULE -/

/-- The timetable fields are in their ranges (R24, check 3; the room list apart). -/
def timetableInRange (t : TimetableArg) : Bool :=
  decide (t.t0 ≤ Config.lastSecond) && decide (t.r ≤ 1800) && decide (600 ≤ t.w) && decide (t.w ≤ 21600) &&
  decide (t.l ≤ t.w) && decide (t.l ≤ 3600) && decide (t.aw ≤ 3600) && decide (t.e1 ≤ 3600) &&
  decide (t.e2 ≤ 3600) && decide (t.v ≤ 3600)

/-- The sitting record that SCHEDULE writes (R25): ADMITTING where T0 − Aw is reached, SCHEDULED otherwise. -/
def scheduled (t : TimetableArg) (rooms : List (Fin 4)) (hallTime : Nat) : Sitting :=
  { state := if t.t0 ≤ hallTime + t.aw then .admitting else .scheduled, t0 := t.t0, r := t.r, w := t.w, l := t.l,
    aw := t.aw, e1 := t.e1, e2 := t.e2, v := t.v, rooms := rooms, hold := ⟨false, false⟩, h := 0, e := 0 }

/-- The live records of a sitting, in roll slot order. -/
def State.recordsOf (s : State) (k : Fin 8) : List Nat := s.slotsWhere (fun c => c.sitting == k)

/-- A rescheduled sitting's records are put back into their chains where T0 changed, and tested for overlaps where
T0, R or W changed; one cause is raised where a CLASH flag becomes set, one for the request however many records get the
flag (R19; DESIGN CHOICE, log entry 30). -/
def State.rescheduleRecords (s : State) (k : Fin 8) (old : Sitting) : State :=
  let new := s.sittings[k]
  let s1 := if old.t0 = new.t0 then s else takeInTurn (s.recordsOf k) reorderRecord s
  let s2 :=
    if old.t0 = new.t0 ∧ old.r = new.r ∧ old.w = new.w then s1
    else takeInTurn (s1.recordsOf k) markClashes s1
  if s.clashCount < s2.clashCount then s2.raise .admission else s2

/-- SCHEDULE (R24, R25, R19). -/
def schedule (k : Nat) (t : TimetableArg) (list : RoomListArg) : Owner := fun s =>
  match sittingOf k with
  | none => refuse .range s
  | some k' =>
      match s.sittings[k'].state with
      | .admitting | .reading | .writing | .closing | .closed => refuse .state s
      | .unscheduled | .scheduled =>
          match roomListOf list with
          | none => refuse .range s
          | some rooms =>
              if !timetableInRange t then refuse .range s
              else if Config.lastSecond < t.t0 + t.r + t.w then refuse .range s
              else if t.t0 ≤ s.hallTime then refuse .past s
              else
                okWith (be1 (scheduled t rooms s.hallTime).state.code ++ openingBytes (scheduled t rooms s.hallTime))
                  ((s.setSitting k' (scheduled t rooms s.hallTime)).rescheduleRecords k' s.sittings[k'])

/-! ### RETIRE_SITTING -/

/-- A key slot is emptied (R129). -/
def State.emptyKey (s : State) (k : Fin 8) : State := s.setKey k KeySlot.emptySlot

/-- RETIRE_SITTING (R26). -/
def retireSitting (k : Nat) : Owner := fun s =>
  match sittingOf k with
  | none => refuse .range s
  | some k' =>
      match s.sittings[k'].state with
      | .unscheduled | .reading | .writing | .closing => refuse .state s
      | .scheduled | .admitting | .closed =>
          if 0 < s.liveOf k' then refuse .liveRecords s
          else okWith [] ((s.emptyKey k').setSitting k' Sitting.unscheduledRecord)

/-! ### HOLD, RESUME and the hold filter -/

/-- HOLD and RESUME (R35): the SITTING source of a running sitting is set as the request asks. -/
def setSittingHold (on : Bool) (k : Nat) : Owner := fun s =>
  match sittingOf k with
  | none => refuse .range s
  | some k' =>
      if !s.sittings[k'].running then refuse .state s
      else
        okWith (HoldSources.bytes { s.sittings[k'].hold with sitting := on })
          (changeHold k' { s.sittings[k'].hold with sitting := on } s)

/-- The HALL source of a sitting follows the filtered level, where the sitting is running (R34). -/
def followHallHold (on : Bool) (k : Fin 8) (s : State) : State :=
  if s.sittings[k].running then changeHold k { s.sittings[k].hold with hall := on } s else s

/-- The filtered level changes (R33, R34). -/
def changeFiltered (s : State) : State :=
  (takeInTurn eight (followHallHold s.holdFilter.raw)
    { s with holdFilter := { s.holdFilter with filtered := s.holdFilter.raw, waiting := false } }).raise .time

/-- The settling time of the hold filter ends; where no change is in waiting there is none to end (R33). -/
def holdFilterChange (s : State) : State := if s.holdFilter.waiting then changeFiltered s else s

/-- The filter at a level of the HALL_HOLD pin: a change of the raw level away from the filtered level begins a
change in waiting, and one back to it cancels it (R33). -/
def HoldFilter.edge (f : HoldFilter) (high : Bool) : HoldFilter :=
  { f with high := high, waiting := (HoldFilter.raw { f with high := high }) != f.filtered }

/-! ### EXTEND -/

/-- A record's times follow a change of its sitting's W, and its desk is told (R80). -/
def extendRecord (k : Fin 8) (j : Nat) (s : State) : State :=
  match s.cand j with
  | none => s
  | some c =>
      showEnd (c.withTimes s.sittings[k]) (s.setCand j (c.withTimes s.sittings[k]))

/-- The sitting after EXTEND (R36, R37): W is lengthened to at most 21 600, and a CLOSING sitting whose new R + W is
greater than e returns to WRITING. -/
def Sitting.extended (t : Sitting) (delta : Nat) : Sitting :=
  let w := clampTo 21600 (t.w + delta)
  { t with w := w, state := if t.state = .closing ∧ t.e < t.r + w then .writing else t.state }

/-- EXTEND (R36, R37, R80). -/
def extend (k delta : Nat) : Owner := fun s =>
  match sittingOf k with
  | none => refuse .range s
  | some k' =>
      if delta = 0 ∨ 3600 < delta then refuse .range s
      else if !s.sittings[k'].running then refuse .state s
      else
        let new := s.sittings[k'].extended delta
        let s1 := s.setSitting k' new
        okOrClamped (decide (21600 < s.sittings[k'].w + delta))
          (be2 new.w ++ be3 new.baseEnd ++ be1 new.state.code)
          (if new.w = s.sittings[k'].w then s1 else takeInTurn (s1.timedOf k') (extendRecord k') s1)

/-! ### READ_SITTING -/

/-- What READ_SITTING adds for a sitting in ADMITTING or later: base end, admission open, opening time (R40). -/
def Sitting.laterBytes (t : Sitting) : List Byte :=
  match t.state with
  | .unscheduled | .scheduled => []
  | .admitting | .reading | .writing | .closing | .closed =>
      be3 t.baseEnd ++ beFlag t.admissionOpen ++ openingBytes t

/-- The values of READ_SITTING (R40): the fields of R23 in their order, and what a sitting in ADMITTING or later
adds. -/
def Sitting.bytes (t : Sitting) : List Byte :=
  be1 t.state.code ++ be3 t.t0 ++ be2 t.r ++ be2 t.w ++ be2 t.l ++ be2 t.aw ++ be2 t.e1 ++ be2 t.e2 ++ be2 t.v ++
  roomListBytes t.rooms ++ t.hold.bytes ++ be3 t.h ++ be3 t.e ++ t.laterBytes

/-- READ_SITTING (R40). -/
def readSitting (k : Nat) : Owner := fun s =>
  match sittingOf k with
  | none => refuse .range s
  | some k' => okWith s.sittings[k'].bytes s

/-! ### A hall second in the sittings (R21, R27 to R31, R38) -/

/-- How a sitting takes a hall second: not at all, into e, or into H (R27). -/
inductive Accrual where
  | none | unheld | held
  deriving DecidableEq, Repr

/-- The accrual of a sitting as the second is taken (R27). -/
def Sitting.accrual (t : Sitting) : Accrual :=
  if t.running then (if t.held then .held else .unheld) else .none

/-- A sitting after its accrual (R27, in CLOSING too: DEDUCED, log entry 27). -/
def Sitting.accrue (t : Sitting) : Sitting :=
  match t.accrual with
  | .none => t
  | .unheld => { t with e := t.e + 1 }
  | .held => { t with h := t.h + 1 }

/-- A SCHEDULED sitting moves to ADMITTING at the second that brings the clock to T0 − Aw (R28). -/
def openAdmission (k : Fin 8) (s : State) : State :=
  if s.sittings[k].state = .scheduled ∧ s.hallTime + s.sittings[k].aw = s.sittings[k].t0 then
    s.setSitting k { s.sittings[k] with state := .admitting, hold := ⟨false, false⟩, h := 0, e := 0 }
  else s

/-- The SEATED records of a sitting. -/
def State.seatedOf (s : State) (k : Fin 8) : List Nat :=
  s.slotsWhere (fun c => c.sitting == k && c.state == .seated)

/-- The sitting record as it starts its clock (R29, steps 1 and 2). -/
def Sitting.started (t : Sitting) (hallHold : Bool) : Sitting :=
  { t with state := if t.r = 0 then .writing else .reading, hold := ⟨hallHold, false⟩, h := 0, e := 0 }

/-- The start of a sitting at the second that brings the clock to T0 (R29). -/
def beginSitting (k : Fin 8) (s : State) : State :=
  let s1 := s.setSitting k (s.sittings[k].started s.holdFilter.filtered)
  let s2 := takeInTurn (s.seatedOf k) activate s1
  if s.sittings[k].r + s.sittings[k].l = 0 then closeAdmission k s2 else s2

/-- An ADMITTING sitting starts its clock at T0 (R29). -/
def startSitting (k : Fin 8) (s : State) : State :=
  if s.sittings[k].state = .admitting ∧ s.hallTime = s.sittings[k].t0 then beginSitting k s else s

/-- A READING sitting whose e has reached R moves to WRITING (R30). -/
def moveToWriting (k : Fin 8) (s : State) : State :=
  if s.sittings[k].state = .reading ∧ s.sittings[k].r ≤ s.sittings[k].e then
    s.setSitting k { s.sittings[k] with state := .writing }
  else s

/-- A sitting whose e has just reached R + L closes its admission (R30). -/
def reachAdmissionClose (k : Fin 8) (before : Sitting) (s : State) : State :=
  if before.accrual = .unheld ∧ before.state ≠ .closing ∧ before.e + 1 = before.r + before.l then closeAdmission k s
  else s

/-- A WRITING sitting whose e has reached R + W moves to CLOSING, and is tested at once for its close (R30). -/
def moveToClosing (k : Fin 8) (s : State) : State :=
  if s.sittings[k].state = .writing ∧ s.sittings[k].r + s.sittings[k].w ≤ s.sittings[k].e then
    closingTest k (s.setSitting k { s.sittings[k] with state := .closing })
  else s

/-- One sitting is brought up to date for a hall second that has advanced the clock, or not (R27 to R30). -/
def sittingSecond (moved : Bool) (k : Fin 8) (s : State) : State :=
  match s.sittings[k].accrual with
  | .none => if moved then startSitting k (openAdmission k s) else s
  | .unheld | .held =>
      moveToClosing k (reachAdmissionClose k s.sittings[k]
        (moveToWriting k (s.setSitting k s.sittings[k].accrue)))

/-- The day end of one sitting (R38): a running sitting is in CLOSING with its hold sources emptied, and an
admission still open is closed; with nothing left writing it closes. -/
def dayEndSitting (k : Fin 8) (s : State) : State :=
  if s.sittings[k].running then
    closingTest k
      (if s.sittings[k].admissionOpen then
        closeAdmission k (s.setSitting k { s.sittings[k] with state := .closing, hold := ⟨false, false⟩ })
      else s.setSitting k { s.sittings[k] with state := .closing, hold := ⟨false, false⟩ })
  else s

/-! ### The rows -/

/-- SET_CLOCK (R22). -/
def execSetClock (time : Nat) (s : State) : Host.Outcome State Fault Refusal :=
  requestRow (.setClock time) (setClock time) s

/-- READ_CLOCK (R40). -/
def execReadClock (s : State) : Host.Outcome State Fault Refusal := requestRow .readClock readClock s

/-- SCHEDULE (R24). -/
def execSchedule (k : Nat) (t : TimetableArg) (rooms : RoomListArg) (s : State) :
    Host.Outcome State Fault Refusal :=
  requestRow (.schedule k t rooms) (schedule k t rooms) s

/-- RETIRE_SITTING (R26). -/
def execRetireSitting (k : Nat) (s : State) : Host.Outcome State Fault Refusal :=
  requestRow (.retireSitting k) (retireSitting k) s

/-- HOLD (R35). -/
def execHold (k : Nat) (s : State) : Host.Outcome State Fault Refusal :=
  requestRow (.hold k) (setSittingHold true k) s

/-- RESUME (R35). -/
def execResume (k : Nat) (s : State) : Host.Outcome State Fault Refusal :=
  requestRow (.resume k) (setSittingHold false k) s

/-- EXTEND (R36). -/
def execExtend (k delta : Nat) (s : State) : Host.Outcome State Fault Refusal :=
  requestRow (.extend k delta) (extend k delta) s

/-- READ_SITTING (R40). -/
def execReadSitting (k : Nat) (s : State) : Host.Outcome State Fault Refusal :=
  requestRow (.readSitting k) (readSitting k) s

/-- HALL_HOLD_EDGE (R33): the pin takes a level. While the part is held in a reset the filter holds its reset
values, and the pin's level alone is taken. -/
def execHallHoldEdge (high : Bool) (s : State) : Host.Outcome State Fault Refusal :=
  match s.resetHold with
  | .running => .next { s with holdFilter := s.holdFilter.edge high }
  | .powerUp => .next { s with holdFilter := { s.holdFilter with high := high } }
  | .hallReset => .next { s with holdFilter := { s.holdFilter with high := high } }

/-- HOLD_FILTER_CHANGE (R34). -/
def execHoldFilterChange (s : State) : Host.Outcome State Fault Refusal := whileRunning holdFilterChange s

end Sys2Proof.Machine
end

