-- ==== Sys2Proof/Machine/Seating.lean ====
section
/-! DEFINITION. Chapter 3, the seat map's computations: neighbours and blocked seats (R48), fill order (R49),
admissible seats and surplus (R50), allocation (R51), and the seating of a candidate (R54). -/

namespace Sys2Proof.Machine

/-- Two places that lie side by side in one row or one column. -/
def orthogonalPlaces (p q : SeatPlace) : Bool :=
  (p.row == q.row && (p.column + 1 == q.column || q.column + 1 == p.column)) ||
  (p.column == q.column && (p.row + 1 == q.row || q.row + 1 == p.row))

/-- Two places that touch at a corner. -/
def diagonalPlaces (p q : SeatPlace) : Bool :=
  (p.row + 1 == q.row || q.row + 1 == p.row) && (p.column + 1 == q.column || q.column + 1 == p.column)

/-- Two places of one room that are neighbours under a separation mode (R48). -/
def neighbourPlaces (mode : Separation) (p q : SeatPlace) : Bool :=
  p.room == q.room &&
    match mode with
    | .orthogonal => orthogonalPlaces p q
    | .full => orthogonalPlaces p q || diagonalPlaces p q

/-- A seat with a candidate of a sitting: HELD, OCCUPIED or VACATED for a record of it (R48). -/
def State.seatsSitting (s : State) (k : Fin 8) (v : Seat) : Bool :=
  v.inUse &&
    match v.candidate with
    | some j => s.inSitting k j
    | none => false

/-- A neighbour of a place that blocks it for a sitting (R48). -/
def State.blocks (s : State) (p : SeatPlace) (k : Fin 8) (v : Seat) : Bool :=
  s.seatsSitting k v &&
    match v.place with
    | some q => neighbourPlaces s.rooms[p.room].separation p q
    | none => false

/-- A place is blocked for a sitting by a seat other than the exempt one (R48; R60, check 6). -/
def State.blocked (s : State) (exempt : Option Nat) (p : SeatPlace) (k : Fin 8) : Bool :=
  s.seats.any (fun x => some x.1 != exempt && s.blocks p k x.2)

/-- A seat is admissible for a record (R50). -/
def State.admissible (s : State) (c : Candidate) (v : Seat) : Bool :=
  match v.place with
  | none => false
  | some p =>
      s.rooms[p.room].enabled && v.state == .free && v.deskStatus != .lost &&
        includesAll p.features c.required && !s.blocked none p c.sitting

/-- The surplus of a seat for a record (R50). -/
def surplus (p : SeatPlace) (c : Candidate) : Nat := featureCount (p.features &&& ~~~c.required)

/-- The place of a seat in its room's fill order (R49), as a number: rows and columns are 0..31. -/
def fillRank (fill : FillPattern) (p : SeatPlace) : Nat :=
  match fill with
  | .rowMajor => p.row * 32 + p.column
  | .serpentine => p.row * 32 + (if p.row % 2 = 0 then p.column else 31 - p.column)
  | .columnMajor => p.column * 32 + p.row

/-- The preference of allocation among the admissible seats of a room: least surplus, then fill order (R51,
steps 2 and 3). -/
def seatRank (fill : FillPattern) (c : Candidate) (p : SeatPlace) : Nat := surplus p c * 1024 + fillRank fill p

/-- The seats of a room that are admissible for a record, each with its rank. -/
def State.candidatesIn (s : State) (m : Fin 4) (c : Candidate) : List (Nat × Nat) :=
  s.seats.filterMap (fun x =>
    match x.2.place with
    | some p => if p.room = m ∧ s.admissible c x.2 then some (seatRank s.rooms[m].fill c p, x.1) else none
    | none => none)

/-- The entry of least rank, the first of them. -/
def leastRank : List (Nat × Nat) → Option (Nat × Nat)
  | [] => none
  | x :: rest =>
      match leastRank rest with
      | none => some x
      | some y => if y.1 < x.1 then some y else some x

/-- The allocated seat: in the first room of the list that has an admissible seat, the one of least surplus and
first in fill order (R51). -/
def State.allocate (s : State) (c : Candidate) : List (Fin 4) → Option Nat
  | [] => none
  | m :: rest =>
      match leastRank (s.candidatesIn m c) with
      | some x => some x.2
      | none => s.allocate c rest

/-- The seat that an admission gives a record: the one it holds, or an allocated one (R54, steps 1 and 2). -/
def State.seatFor (s : State) (c : Candidate) : Option Nat :=
  match c.currentSeat with
  | some i => some i
  | none => s.allocate c s.sittings[c.sitting].rooms

/-- The record as it takes a seat: current seat and seat of record name it (R54, R60). -/
def State.seatedAt (s : State) (i : Nat) (c : Candidate) : Candidate :=
  { c with currentSeat := some i, seatOfRecord := s.seatCopy i }

/-- The displays of a post at an admission, where it came by a door (R56). -/
def announce (door : Option (Fin 4)) (i : Nat) (c : Candidate) (s : State) : State :=
  match door with
  | some m => postSeat m i c s
  | none => s

/-- The target record is seated (R54): the seat becomes OCCUPIED, the record SEATED, or ACTIVE with LATE_ARRIVAL
and its times set up, and the displays of R56 are queued. -/
def seatRecord (door : Option (Fin 4)) (j : Nat) (c : Candidate) (i : Nat) (s : State) : State :=
  match s.sittings[c.sitting].state with
  | .reading | .writing =>
      activate j (showSeat i (s.seatedAt i c) (announce door i (s.seatedAt i c)
        ((takeSeat i .occupied j s).setCand j
          { s.seatedAt i c with state := .active, flags := { c.flags with lateArrival := true } })))
  | .admitting | .unscheduled | .scheduled | .closing | .closed =>
      showSeat i (s.seatedAt i c) (announce door i (s.seatedAt i c)
        ((takeSeat i .occupied j s).setCand j { s.seatedAt i c with state := .seated }))

end Sys2Proof.Machine
end

