-- ==== Sys2Proof/Machine/Exchange.lean ====
section
/-! DEFINITION. Chapter 5, the segment arbiter: the choice of the next exchange (R87, R88, R90), the abandoning of
a window (R100, R101) and the desk fields of a room's bound seats (R84, R100). -/

namespace Sys2Proof.Machine

/-- The rotation POLL's address: the smallest address of the rotation set above the rotation position, or 0
(R88). -/
def State.rotationAddress (s : State) (m : Fin 4) : Nat :=
  ((s.boundAddresses m).filter (fun a => decide (s.segments[m].rotation < a))).min?.getD 0

/-- The segment after its controller has chosen the next exchange (R87): a TIME where time due is set, otherwise a
POLL(0) where DOOR_CALL is asserted, otherwise a SHOW of the head of the queue, otherwise a rotation POLL. -/
def State.chosen (s : State) (m : Fin 4) : Segment :=
  if s.segments[m].timeDue then
    { s.segments[m] with
        doorSampled := s.segments[m].doorWire, timeDue := false, sending := some (.time s.hallTime s.heldSet) }
  else if s.segments[m].doorWire then
    { s.segments[m] with doorSampled := s.segments[m].doorWire, sending := some (.poll 0) }
  else
    match s.segments[m].queue with
    | e :: rest =>
        { s.segments[m] with
            doorSampled := s.segments[m].doorWire, queue := rest, sending := some (.show_ e) }
    | [] =>
        { s.segments[m] with
            doorSampled := s.segments[m].doorWire, rotation := s.rotationAddress m,
            sending := some (.poll (s.rotationAddress m)) }

/-- In MASTER with no exchange in progress the controller chooses the next one (R87). -/
def kickSegment (m : Fin 4) (s : State) : State :=
  match s.segments[m].line, s.segments[m].sending with
  | .master, none => s.setSegment m (s.chosen m)
  | _, _ => s

/-- The DOOR_CALL wire of a room takes a level (DESIGN CHOICE, log entry 12). -/
def setDoorWire (m : Fin 4) (door : Bool) (s : State) : State :=
  s.setSegment m { s.segments[m] with doorWire := door }

/-- The exchange in progress ends. -/
def endExchange (m : Fin 4) (s : State) : State :=
  s.setSegment m { s.segments[m] with sending := none, pollVoided := false }

/-- An AWAITING window is abandoned, and a POLL that is going out will open none (R100, R101). -/
def Segment.abandoned (g : Segment) : Segment :=
  { g with
      line := (match g.line with | .awaiting _ => .master | .master => .master | .disabled => .disabled),
      pollVoided := (match g.sending with | some (.poll _) => true | some (.time _ _) => false
                                          | some (.show_ _) => false | none => false) }

/-- A seat of the room with a bound desk address has desk status UNKNOWN, miss count 0 and stale clear (R84,
R100). -/
def Seat.contactLost (m : Fin 4) (v : Seat) : Seat :=
  match v.binds with
  | some (room, _) =>
      if room = m then { v with deskStatus := .unknown, missCount := 0, stale := false } else v
  | none => v

/-- Every bound desk of a room is UNKNOWN (R84, R100). -/
def unknownDesks (m : Fin 4) (s : State) : State :=
  { s with seats := s.seats.map (fun x => (x.1, x.2.contactLost m)) }

end Sys2Proof.Machine
end

