-- ==== Sys2Proof/Machine/Personal.lean ====
section
/-! DEFINITION. Chapter 4: the personal time unit's part of a hall second (R66 to R69, R81), the desk buttons (R72,
R75), and the requests REST_FOR and SUBMIT_FOR. -/

namespace Sys2Proof.Machine

/-! ### The hall second, record by record -/

/-- A record after R66: rest used grows in a RESTING record whose sitting took the second unheld, and the personal
end is recomputed from the sitting as it now stands. -/
def Candidate.secondPassed (before after : Sitting) (c : Candidate) : Candidate :=
  Candidate.withPersonalEnd after
    { c with restUsed := if c.state = .resting ∧ before.accrual = .unheld then c.restUsed + 1 else c.restUsed }

/-- R66 for one record; `before` holds the sittings as the second was taken. -/
def accrueRest (before : Vector Sitting 8) (j : Nat) (s : State) : State :=
  match s.cand j with
  | none => s
  | some c => s.setCand j (c.secondPassed before[c.sitting] s.sittings[c.sitting])

/-- R67 for one record: a RESTING record whose rest used has reached its budget returns to ACTIVE. -/
def restOver (j : Nat) (s : State) : State :=
  match s.cand j with
  | none => s
  | some c =>
      if c.state = .resting ∧ c.restBudget.getD 0 ≤ c.restUsed then
        showEnd { c with state := .active }
          (showNotice c .restOver (s.setCand j { c with state := .active }))
      else s

/-- R68 and R69 for one record: an ACTIVE record whose personal end is reached becomes DONE, and any other is tested
for its warning. -/
def reachEnd (j : Nat) (s : State) : State :=
  match s.cand j with
  | none => s
  | some c =>
      if c.state = .active ∧ c.personalEnd.getD 0 ≤ s.hallTime then finish .personalEnd j s else warningTest j s

/-- The steps R66 to R69 for one record. -/
def recordSecond (before : Vector Sitting 8) (j : Nat) (s : State) : State :=
  reachEnd j (restOver j (accrueRest before j s))

/-- The day end of one record (R81). -/
def recordDayEnd (before : Vector Sitting 8) (j : Nat) (s : State) : State :=
  finish .dayEnd j (restOver j (accrueRest before j s))

/-! ### Rest (R73, R74) -/

/-- The refusal of a REST begin, checks 2 to 4 of R73. -/
def restRefusal (c : Candidate) (t : Sitting) : Option Status :=
  if c.state ≠ .active ∨ (t.state ≠ .writing ∧ t.state ≠ .closing) then some .state
  else if t.held then some .held
  else if c.restBudget.getD 0 ≤ c.restUsed then some .budget
  else none

/-- The record becomes RESTING, or ACTIVE again, and an END is queued for its desk (R73, R74). -/
def setResting (st : CandState) (j : Nat) (c : Candidate) (s : State) : State :=
  showEnd { c with state := st } (s.setCand j { c with state := st })

/-- REST_FOR (R73, R74). -/
def restFor (n k : Nat) (begin_ : Bool) : Owner := fun s =>
  match s.resolve n k with
  | .error st => refuse st s
  | .ok (j, c) =>
      match begin_, c.state with
      | true, .resting => okWith [] s
      | true, _ =>
          match restRefusal c s.sittings[c.sitting] with
          | some st => refuse st s
          | none => okWith [] (setResting .resting j c s)
      | false, .resting => okWith [] (setResting .active j c s)
      | false, _ => okWith [] s

/-- The notice of a refused desk button: STAY for STATE, and the refusal's own name otherwise (R72). -/
def buttonNotice : Status → Notice
  | .held => .held
  | .budget => .budget
  | _ => .stay

/-- A REST begin from the desk of an OCCUPIED seat (R72, R73). -/
def deskRestBegin (j : Nat) (c : Candidate) (s : State) : State :=
  match c.state with
  | .resting => s
  | .expected | .seated | .active | .done | .cleared | .absent | .withdrawn =>
      match restRefusal c s.sittings[c.sitting] with
      | some st => showNotice c (buttonNotice st) s
      | none => setResting .resting j c s

/-- A REST end from the desk of an OCCUPIED seat (R74). -/
def deskRestEnd (j : Nat) (c : Candidate) (s : State) : State :=
  match c.state with
  | .resting => setResting .active j c s
  | .expected | .seated | .active | .done | .cleared | .absent | .withdrawn => s

/-- A REST delivered from the desk of a seat (R72). -/
def deskRest (i : Nat) (begin_ : Bool) (s : State) : State :=
  match (s.seat i).state, begin_ with
  | .outOfUse, _ => s
  | .free, true => offerDesk i (.notice .notAllocated) s
  | .held, true => offerDesk i (.notice .notAllocated) s
  | .free, false => s
  | .held, false => s
  | .vacated, true => offerDesk i (.notice .done) s
  | .vacated, false => s
  | .occupied, _ =>
      match (s.seat i).candidate with
      | none => s
      | some j =>
          match s.cand j with
          | none => s
          | some c => if begin_ then deskRestBegin j c s else deskRestEnd j c s

/-! ### Finishing early (R75, R76) -/

/-- The refusal of a desk SUBMIT as its notice, checks 1 to 4 of R75. -/
def submitRefusal (c : Candidate) (t : Sitting) (hallTime : Nat) : Option Notice :=
  if c.state ≠ .active ∧ c.state ≠ .resting then some .stay
  else if t.held then some .held
  else if t.e < t.r + t.e1 then some .earlyBar
  else if c.remaining hallTime ≤ t.e2 then some .earlyBar
  else none

/-- A SUBMIT delivered from the desk of a seat (R72, R75). -/
def deskSubmit (i : Nat) (s : State) : State :=
  match (s.seat i).state with
  | .outOfUse => s
  | .free => offerDesk i (.notice .notAllocated) s
  | .held => offerDesk i (.notice .notAllocated) s
  | .vacated => offerDesk i (.notice .done) s
  | .occupied =>
      match (s.seat i).candidate with
      | none => s
      | some j =>
          match s.cand j with
          | none => s
          | some c =>
              match submitRefusal c s.sittings[c.sitting] s.hallTime with
              | some n => showNotice c n s
              | none => finish .submitted j s

/-- SUBMIT_FOR (R76). -/
def submitFor (n k : Nat) : Owner := fun s =>
  match s.resolve n k with
  | .error st => refuse st s
  | .ok (j, c) =>
      match c.state with
      | .seated | .active | .resting => okWith [] (finish .submitted j s)
      | .expected | .done | .cleared | .absent | .withdrawn => refuse .state s

/-! ### The rows -/

/-- REST_FOR (R73). -/
def execRestFor (n k : Nat) (begin_ : Bool) (s : State) : Host.Outcome State Fault Refusal :=
  requestRow (.restFor n k begin_) (restFor n k begin_) s

/-- SUBMIT_FOR (R76). -/
def execSubmitFor (n k : Nat) (s : State) : Host.Outcome State Fault Refusal :=
  requestRow (.submitFor n k) (submitFor n k) s

end Sys2Proof.Machine
end

