-- ==== Sys2Proof/Machine/Custody.lean ====
section
/-! DEFINITION. Chapter 6: script custody: issue at a desk and by the station (R108 to R110), collection (R113,
R114), and the requests ISSUE, VOID, HAND_OVER, HAND_OVER_SITTING, READ_SCRIPT, READ_SCRIPT_AT, SCRIPTS_OF and
READ_CUSTODY. -/

namespace Sys2Proof.Machine

/-! ### Issue -/

/-- What an issue finds in checks 2 to 7 of R109, in their order, or that it passes them. -/
inductive IssueCheck where
  | wrongOwner | already | wrongState | notConfirmed | limit | full | passes
  deriving DecidableEq, Repr

/-- Checks 2 to 7 of R109 on a valid serial. -/
def State.issueCheck (s : State) (desk : Bool) (d j : Nat) (c : Candidate) : IssueCheck :=
  match s.script d with
  | some x => if x.slot = j then .already else .wrongOwner
  | none =>
      if c.state ∉ writingStates then .wrongState
      else if desk ∧ !c.flags.confirmed then .notConfirmed
      else if Config.scriptsPerRecord ≤ (s.boundScripts j).length then .limit
      else if Config.scriptPlaces ≤ s.scripts.length then .full
      else .passes

/-- The script record that an issue inserts (R109). -/
def newScript (d j : Nat) (c : Candidate) (seat : SeatCopy) : Script :=
  { kind := serialKind d, slot := j, sitting := c.sitting, seatAtIssue := seat, state := .issued,
    submittedAt := none, page := none, result := none }

/-- The copy of a record's current seat (R109). -/
def State.currentSeatCopy (s : State) (c : Candidate) : Option SeatCopy := c.currentSeat.bind s.seatCopy

/-- Writes the last custody refusal (R105) and raises the CUSTODY cause (R109, R114). -/
def State.custodyRefused (s : State) (d : Nat) (why : CustodyReason) (m : Fin 4) (a : Nat) : State :=
  ({ s with lastCustodyRefusal := some ⟨d, why, m, a, s.hallTime⟩ }).raise .custody

/-- A desk refusal that raises a cause, with the room and address of the seat's desk (R109). -/
def State.deskIssueRefused (s : State) (i d : Nat) (why : CustodyReason) : State :=
  match (s.seat i).binds with
  | some (m, a) => s.custodyRefused d why m a
  | none => s

/-- An issue at the desk of an OCCUPIED seat (R109). -/
def deskIssue (i d j : Nat) (c : Candidate) (s : State) : State :=
  if !validSerial d then offerDesk i (.notice .badSerial) s
  else
    match s.issueCheck true d j c with
    | .already => showSeat i c s
    | .wrongOwner => offerDesk i (.notice .wrongOwner) (s.deskIssueRefused i d .wrongOwner)
    | .full => offerDesk i (.notice .stay) (s.deskIssueRefused i d .full)
    | .notConfirmed => offerDesk i (.notice .notConfirmed) s
    | .limit => offerDesk i (.notice .limit) s
    | .wrongState => offerDesk i (.notice .stay) s
    | .passes =>
        match s.currentSeatCopy c with
        | some seat => showSeat i c (s.setScript d (newScript d j c seat))
        | none => s

/-- A SLOT delivered from the desk of a seat (R108). -/
def deskSlot (i d : Nat) (s : State) : State :=
  match (s.seat i).state with
  | .outOfUse => s
  | .free => offerDesk i (.notice .notAllocated) s
  | .held => offerDesk i (.notice .notAllocated) s
  | .vacated => offerDesk i (.notice .done) s
  | .occupied =>
      match (s.seat i).candidate with
      | none => s
      | some j =>
          match s.cand j with
          | none => s
          | some c => deskIssue i d j c s

/-- The values of a successful ISSUE: the seat at issue and the number of scripts now bound (R109). -/
def issueBytes (x : SeatCopy × Nat) : List Byte := x.1.bytes ++ be1 x.2

/-- ISSUE (R109, R110), without check 5, so NOT_CONFIRMED does not arise. The serial is tested for RANGE before the
number and sitting are resolved: R110 names the serial first and R3 resolves before the owning rule runs, so which
refusal a request that fails both gets is open (DESIGN CHOICE, log entry 31). A script already bound is answered as an
absent value (DESIGN CHOICE, log entry 8). -/
def issue (n k d : Nat) : Owner := fun s =>
  if Config.maxSerial < d then refuse .range s
  else
    match s.resolve n k with
    | .error st => refuse st s
    | .ok (j, c) =>
        if !validSerial d then refuse .badSerial s
        else
          match s.issueCheck false d j c with
          | .already => okWith (beOpt issueBytes none) s
          | .wrongOwner => refuse .wrongOwner s
          | .wrongState => refuse .state s
          | .notConfirmed => refuse .state s
          | .limit => refuse .limit s
          | .full => refuse .full s
          | .passes =>
              match s.currentSeatCopy c with
              | some seat =>
                  okWith (beOpt issueBytes (some (seat, (s.boundScripts j).length + 1)))
                    (s.setScript d (newScript d j c seat))
              | none => refuse .state s

/-! ### Collection (R113, R114) -/

/-- The SEAT that the post is sent for a script (R113): the current seat of the candidate record, or its seat of
record. -/
def collectSeat (m : Fin 4) (j : Nat) (s : State) : State :=
  match s.cand j with
  | none => s
  | some c =>
      match c.currentSeat with
      | some i => postSeat m i c s
      | none =>
          match c.seatOfRecord with
          | some p => offerPost m (seatContent p.room p.row p.column c) s
          | none => s

/-- The notice of a refused COLLECT: its own, and STAY for UNKNOWN_SCRIPT and VOIDED (R114). -/
def CustodyReason.notice : CustodyReason → Notice
  | .badSerial => .badSerial
  | .notSubmitted => .notSubmitted
  | .wrongRoom => .wrongRoom
  | .wrongOwner => .wrongOwner
  | .full => .stay
  | .unknownScript => .stay
  | .voided => .stay

/-- A refused COLLECT (R114). -/
def refuseCollect (m : Fin 4) (d : Nat) (why : CustodyReason) (s : State) : State :=
  (offerPost m (.notice why.notice) s).custodyRefused d why m 0

/-- The room of a candidate record's current seat (R113, step 6). -/
def State.roomOfCand (s : State) (j : Nat) : Option (Fin 4) :=
  ((s.cand j).bind Candidate.currentSeat).bind (fun i => (s.seat i).place.map SeatPlace.room)

/-- A COLLECT delivered from the post of a room (R113). -/
def collect (m : Fin 4) (d : Nat) (s : State) : State :=
  if !validSerial d then refuseCollect m d .badSerial s
  else
    match s.script d with
    | none => refuseCollect m d .unknownScript s
    | some x =>
        match x.state with
        | .issued => refuseCollect m d .notSubmitted s
        | .voided => refuseCollect m d .voided s
        | .collected | .marking | .marked | .handed => collectSeat m x.slot s
        | .submitted =>
            if s.roomOfCand x.slot ≠ some m then refuseCollect m d .wrongRoom s
            else collectSeat m x.slot (clearanceTest x.slot (s.setScript d { x with state := .collected }))

/-! ### VOID, HAND_OVER and HAND_OVER_SITTING -/

/-- The script that a request names, or the refusal of R115, R116 and R119. -/
def State.namedScript (s : State) (d : Nat) : Except Status Script :=
  if Config.maxSerial < d then .error .range
  else if !validSerial d then .error .badSerial
  else
    match s.script d with
    | none => .error .unknownScript
    | some x => .ok x

/-- VOID (R115). -/
def voidScript (d : Nat) : Owner := fun s =>
  match s.namedScript d with
  | .error st => refuse st s
  | .ok x =>
      match x.state with
      | .issued | .submitted | .collected =>
          okWith [] (clearanceTest x.slot (s.setScript d { x with state := .voided }))
      | .marking => refuse .busy s
      | .marked => refuse .marked s
      | .handed => refuse .state s
      | .voided => okWith [] s

/-- HAND_OVER (R116). -/
def handOver (d : Nat) : Owner := fun s =>
  match s.namedScript d with
  | .error st => refuse st s
  | .ok x =>
      match x.kind, x.state with
      | .sheet, _ => refuse .notABooklet s
      | .booklet, .collected => okWith [] (s.setScript d { x with state := .handed })
      | .booklet, .handed => okWith [] s
      | .booklet, _ => refuse .state s

/-- A booklet of a sitting that HAND_OVER_SITTING hands over (R117). -/
def Script.toHandOver (k : Fin 8) (x : Script) : Bool :=
  x.sitting == k && x.kind == .booklet && x.state == .collected

/-- A script after HAND_OVER_SITTING (R117). -/
def Script.handedOver (k : Fin 8) (x : Script) : Script :=
  if x.toHandOver k then { x with state := .handed } else x

/-- HAND_OVER_SITTING (R117). -/
def handOverSitting (k : Nat) : Owner := fun s =>
  match sittingOf k with
  | none => refuse .range s
  | some k' =>
      okWith (be2 (s.scripts.filter (fun x => x.2.toHandOver k')).length) (s.mapScripts (Script.handedOver k'))

/-! ### Reading custody (R119) -/

/-- Every field of a script record in the order of R104 (R119). -/
def scriptBytes (d : Nat) (x : Script) : List Byte :=
  be3 d ++ be1 x.kind.code ++ be2 x.slot ++ be1 x.sitting.val ++ x.seatAtIssue.bytes ++ be1 x.state.code ++
  beOpt be3 x.submittedAt ++ beOpt be1 x.page ++ beOpt SheetResult.bytes x.result

/-- The number, sitting and state of a script's candidate record (R119). -/
def State.ownerBytes (s : State) (x : Script) : List Byte :=
  match s.cand x.slot with
  | some c => be4 c.number ++ be1 c.sitting.val ++ be1 c.state.code
  | none => []

/-- The position of a serial in the table: the number of records of lesser serial (R105). -/
def State.positionOf (s : State) (d : Nat) : Nat := (s.scripts.filter (fun x => decide (x.1 < d))).length

/-- The values of READ_SCRIPT (R119). -/
def State.scriptReport (s : State) (x : Nat × Script) : List Byte :=
  scriptBytes x.1 x.2 ++ be2 (s.positionOf x.1) ++ s.ownerBytes x.2

/-- READ_SCRIPT (R119). -/
def readScript (d : Nat) : Owner := fun s =>
  match s.namedScript d with
  | .error st => refuse st s
  | .ok x => okWith (s.scriptReport (d, x)) s

/-- READ_SCRIPT_AT (R119): a position beyond the end is answered as an absent record. -/
def readScriptAt (p : Nat) : Owner := fun s => okWith (beOpt s.scriptReport s.scripts[p]?) s

/-- What SCRIPTS_OF gives of one script (R119). -/
def scriptSummary (x : Nat × Script) : List Byte := be3 x.1 ++ be1 x.2.kind.code ++ be1 x.2.state.code

/-- SCRIPTS_OF (R119). -/
def scriptsOf (n k : Nat) : Owner := fun s =>
  match s.resolve n k with
  | .error st => refuse st s
  | .ok (j, _) => okWith (beList scriptSummary (s.boundScripts j)) s

/-- The count of script records in a state that the custody table keeps (R105). -/
def State.scriptsIn (s : State) (st : ScriptState) : Nat := (s.scripts.filter (fun x => x.2.state == st)).length

/-- The last custody refusal in an answer, in the order of R105. -/
def CustodyRefusal.bytes (r : CustodyRefusal) : List Byte :=
  be3 r.serial ++ be1 r.reason.code ++ be1 r.room.val ++ be1 r.address ++ be3 r.time

/-- The values of READ_CUSTODY (R119). -/
def State.custodyBytes (s : State) : List Byte :=
  be2 s.scripts.length ++ be2 (Config.scriptPlaces - s.scripts.length) ++ be2 (s.scriptsIn .issued) ++
  be2 (s.scriptsIn .submitted) ++ be2 (s.scriptsIn .collected) ++ be2 (s.scriptsIn .marking) ++
  be2 (s.scriptsIn .marked) ++ be2 (s.scriptsIn .handed) ++ be2 (s.scriptsIn .voided) ++
  beOpt CustodyRefusal.bytes s.lastCustodyRefusal

/-- READ_CUSTODY (R119). -/
def readCustody : Owner := fun s => okWith s.custodyBytes s

/-! ### The rows -/

/-- ISSUE (R110). -/
def execIssue (n k d : Nat) (s : State) : Host.Outcome State Fault Refusal :=
  requestRow (.issue n k d) (issue n k d) s

/-- VOID (R115). -/
def execVoid (d : Nat) (s : State) : Host.Outcome State Fault Refusal := requestRow (.void d) (voidScript d) s

/-- HAND_OVER (R116). -/
def execHandOver (d : Nat) (s : State) : Host.Outcome State Fault Refusal := requestRow (.handOver d) (handOver d) s

/-- HAND_OVER_SITTING (R117). -/
def execHandOverSitting (k : Nat) (s : State) : Host.Outcome State Fault Refusal :=
  requestRow (.handOverSitting k) (handOverSitting k) s

/-- READ_SCRIPT (R119). -/
def execReadScript (d : Nat) (s : State) : Host.Outcome State Fault Refusal :=
  requestRow (.readScript d) (readScript d) s

/-- READ_SCRIPT_AT (R119). -/
def execReadScriptAt (p : Nat) (s : State) : Host.Outcome State Fault Refusal :=
  requestRow (.readScriptAt p) (readScriptAt p) s

/-- SCRIPTS_OF (R119). -/
def execScriptsOf (n k : Nat) (s : State) : Host.Outcome State Fault Refusal :=
  requestRow (.scriptsOf n k) (scriptsOf n k) s

/-- READ_CUSTODY (R119). -/
def execReadCustody (s : State) : Host.Outcome State Fault Refusal := requestRow .readCustody readCustody s

end Sys2Proof.Machine
end

