-- ==== Sys2Proof/Machine/SeatMap.lean ====
section
/-! DEFINITION. Chapter 3, the requests of the seat map and the admission engine: DEFINE_SEAT, SEAT_STATE,
SET_ROOM, ADMIT_FOR, PLACE, UNPLACE, MOVE, READ_SEAT and READ_ROOM; and ACK_HAND of Chapter 5. -/

namespace Sys2Proof.Machine

/-! ### Defining seats (R45, R46) -/

/-- Another seat of the same room that is not OUT_OF_USE has the same row and column (R45, check 3). -/
def State.positionTaken (s : State) (i : Nat) (p : SeatPlace) : Bool :=
  s.seats.any (fun x => x.1 != i && x.2.state != .outOfUse &&
    match x.2.place with
    | some q => q.room == p.room && q.row == p.row && q.column == p.column
    | none => false)

/-- Another seat of the same room that is not OUT_OF_USE has the same desk address (R45, check 4). -/
def State.addressTaken (s : State) (i : Nat) (p : SeatPlace) : Bool :=
  p.desk.isSome && s.seats.any (fun x => x.1 != i && x.2.state != .outOfUse &&
    match x.2.place with
    | some q => q.room == p.room && q.desk == p.desk
    | none => false)

/-- A desk address argument that is none or 1..128 (R45, check 1). -/
def deskInRange : Option Nat → Bool
  | none => true
  | some a => decide (1 ≤ a) && decide (a ≤ 128)

/-- A seat as it becomes FREE by DEFINE_SEAT or SEAT_STATE: desk status UNKNOWN or UNBOUND, miss count 0, stale and
hand raised clear (R45, R46). -/
def freshSeat (p : SeatPlace) : Seat :=
  { place := some p, state := .free, candidate := none, handRaised := false,
    deskStatus := if p.desk.isSome then .unknown else .unbound, missCount := 0, stale := false }

/-- DEFINE_SEAT (R45). -/
def defineSeat (i m row column : Nat) (desk : Option Nat) (f : Byte) : Owner := fun s =>
  match roomOf m with
  | none => refuse .range s
  | some m' =>
      if Config.seatRecords ≤ i ∨ 31 < row ∨ 31 < column ∨ !deskInRange desk then refuse .range s
      else if (s.seat i).state ≠ .outOfUse then refuse .state s
      else if s.positionTaken i ⟨m', row, column, desk, featuresOf f⟩ then refuse .positionTaken s
      else if s.addressTaken i ⟨m', row, column, desk, featuresOf f⟩ then refuse .addressTaken s
      else
        okOrClamped (extraFeatures f) [] (s.setSeat i (freshSeat ⟨m', row, column, desk, featuresOf f⟩))

/-- SEAT_STATE to FREE, where the seat is OUT_OF_USE (R46). -/
def State.bringBack (s : State) (i : Nat) : State × Answer :=
  match (s.seat i).place with
  | none => refuse .state s
  | some p =>
      if s.positionTaken i p then refuse .positionTaken s
      else if s.addressTaken i p then refuse .addressTaken s
      else okWith [] (s.setSeat i (freshSeat p))

/-- A FREE seat that is taken out of use (R46): its place, address and features are kept. -/
def Seat.outOfUse (v : Seat) : Seat :=
  { v with state := .outOfUse, deskStatus := .unbound, missCount := 0, stale := false, handRaised := false }

/-- SEAT_STATE (R46): the requested state is FREE or OUT_OF_USE, in the numbering of R42. -/
def setSeatState (i st : Nat) : Owner := fun s =>
  if Config.seatRecords ≤ i then refuse .range s
  else if st = SeatState.free.code then
    match (s.seat i).state with
    | .outOfUse => s.bringBack i
    | .free => okWith [] s
    | .held | .occupied | .vacated => refuse .state s
  else if st = SeatState.outOfUse.code then
    match (s.seat i).state with
    | .outOfUse => okWith [] s
    | .free => okWith [] (s.setSeat i (s.seat i).outOfUse)
    | .held | .occupied | .vacated => refuse .state s
  else refuse .range s

/-! ### SET_ROOM (R47, R84) -/

/-- Any seat of the room is HELD, OCCUPIED or VACATED (R47). -/
def State.roomInUse (s : State) (m : Fin 4) : Bool := s.seats.any (fun x => x.2.inRoom m && x.2.inUse)

/-- The segment starts afresh as its room is enabled, and its first exchange is chosen (R84, R87). -/
def startSegment (m : Fin 4) (s : State) : State :=
  kickSegment m ((unknownDesks m s).setSegment m
    { Segment.initial with line := .master, timeDue := true, doorWire := s.segments[m].doorWire })

/-- The segment goes to DISABLED as its room is disabled; a message going out is cut (R84; DEDUCED, log entry 18). -/
def stopSegment (m : Fin 4) (s : State) : State :=
  s.setSegment m
    { s.segments[m] with
        line := .disabled, timeDue := false, queue := [], sending := none, pollVoided := false,
        doorSampled := false }

/-- The segment follows a change of the enabled flag, and no other write of the room (R84). -/
def followEnabled (m : Fin 4) (was now : Bool) (s : State) : State :=
  match was, now with
  | false, true => startSegment m s
  | true, false => stopSegment m s
  | false, false => s
  | true, true => s

/-- SET_ROOM (R47). -/
def setRoomSettings (m : Nat) (on : Bool) (sep fill : Nat) : Owner := fun s =>
  match roomOf m, separationOf sep, fillOf fill with
  | some m', some sep', some fill' =>
      if (s.rooms[m'].separation ≠ sep' ∨ (s.rooms[m'].enabled ∧ !on)) ∧ s.roomInUse m' then refuse .state s
      else
        okWith [] (followEnabled m' s.rooms[m'].enabled on
          (s.setRoom m' { s.rooms[m'] with enabled := on, separation := sep', fill := fill' }))
  | _, _, _ => refuse .range s

/-! ### ADMIT_FOR (R53) -/

/-- The state a record is in, where it is live. -/
def State.candState (s : State) (j : Nat) : List Byte :=
  match s.cand j with
  | some c => be1 c.state.code
  | none => []

/-- ADMIT_FOR (R53). -/
def admitFor (n k : Nat) : Owner := fun s =>
  match s.resolve n k with
  | .error st => refuse st s
  | .ok (j, c) =>
      if s.inStates admittedStates j then refuse .alreadySeated s
      else if (s.chain n).any (s.inStates admittedStates) then refuse .inOtherSitting s
      else if c.state = .absent then refuse .late s
      else if c.state ≠ .expected ∨ !s.sittings[c.sitting].admissionOpen then refuse .notNow s
      else
        match s.seatFor c with
        | none => refuse .noSeat s
        | some i =>
            okWith (s.seatBytes i ++ (seatRecord none j c i s).candState j) (seatRecord none j c i s)

/-! ### PLACE, UNPLACE and MOVE (R57, R58, R60) -/

/-- The checks of PLACE and MOVE on a seat that is to be taken, from the room list on (R57, R60, checks 4 to 6). -/
def State.seatRefusal (s : State) (c : Candidate) (exempt : Option Nat) (p : SeatPlace) : Option Status :=
  if p.room ∉ s.sittings[c.sitting].rooms then some .notInRooms
  else if !includesAll p.features c.required then some .features
  else if s.blocked exempt p c.sitting then some .adjacent
  else none

/-- PLACE (R57). -/
def place (n k i : Nat) : Owner := fun s =>
  match s.resolve n k with
  | .error st => refuse st s
  | .ok (j, c) =>
      if Config.seatRecords ≤ i then refuse .range s
      else if c.state ≠ .expected ∨ c.currentSeat.isSome then refuse .state s
      else
        match (s.seat i).place with
        | none => refuse .state s
        | some p =>
            if (s.seat i).state ≠ .free ∨ !s.rooms[p.room].enabled then refuse .state s
            else
              match s.seatRefusal c none p with
              | some st => refuse st s
              | none =>
                  okWith [] (showSeat i { c with currentSeat := some i }
                    ((takeSeat i .held j s).setCand j { c with currentSeat := some i }))

/-- The seat held for an EXPECTED record becomes FREE, and the desk is told (R58). -/
def unplaceSeat (j : Nat) (c : Candidate) (i : Nat) (s : State) : State :=
  closingTest c.sitting (offerDesk i .blank (freeSeat i (s.setCand j { c with currentSeat := none })))

/-- UNPLACE (R58). -/
def unplace (n k : Nat) : Owner := fun s =>
  match s.resolve n k with
  | .error st => refuse st s
  | .ok (j, c) =>
      match c.state with
      | .expected =>
          match c.currentSeat with
          | none => okWith [] s
          | some i => okWith [] (unplaceSeat j c i s)
      | .seated | .active | .resting | .done | .cleared | .absent | .withdrawn => refuse .state s

/-- The moved record: it names the new seat, and CONFIRMED is cleared (R60). -/
def State.movedTo (s : State) (i : Nat) (c : Candidate) : Candidate :=
  { s.seatedAt i c with flags := { c.flags with confirmed := false } }

/-- The END that follows a move of an ACTIVE or RESTING record (R56). -/
def showMovedEnd (c : Candidate) (s : State) : State :=
  match c.state with
  | .active | .resting => showEnd c s
  | .expected | .seated | .done | .cleared | .absent | .withdrawn => s

/-- The changes of a MOVE, made together, and its displays (R60, R56). -/
def moveRecord (j : Nat) (c : Candidate) (old i : Nat) (s : State) : State :=
  showMovedEnd (s.movedTo i c) (showSeat i (s.movedTo i c) (offerDesk old .blank
    ((takeSeat i .occupied j (freeSeat old s)).setCand j (s.movedTo i c))))

/-- MOVE (R60). -/
def move (n k i : Nat) : Owner := fun s =>
  match s.resolve n k with
  | .error st => refuse st s
  | .ok (j, c) =>
      if Config.seatRecords ≤ i then refuse .range s
      else if c.state ∉ writingStates then refuse .state s
      else
        match (s.seat i).place, c.currentSeat with
        | some p, some old =>
            if (s.seat i).state ≠ .free ∨ !s.rooms[p.room].enabled ∨ (s.seat i).deskStatus = .lost then
              refuse .state s
            else
              match s.seatRefusal c (some old) p with
              | some st => refuse st s
              | none => okWith (s.seatBytes i) (moveRecord j c old i s)
        | _, _ => refuse .state s

/-! ### Reading the seat map (R62) -/

/-- The place, desk address and features of a defined seat; a desk address of none is 255 (R172). -/
def SeatPlace.bytes (p : SeatPlace) : List Byte :=
  be1 p.room.val ++ be1 p.row ++ be1 p.column ++ deskByte p.desk ++ be1 p.features.toNat

/-- The number, sitting and state of the candidate at a seat (R62). -/
def State.occupantBytes (s : State) (v : Seat) : List Byte :=
  match v.candidate.bind s.cand with
  | some c => be4 c.number ++ be1 c.sitting.val ++ be1 c.state.code
  | none => []

/-- The values of READ_SEAT (R62). What DEFINE_SEAT gives a seat, its place, desk address and features, is one optional
value behind one byte (DESIGN CHOICE, log entry 8). -/
def State.seatRecordBytes (s : State) (i : Nat) : List Byte :=
  be2 i ++ beOpt SeatPlace.bytes (s.seat i).place ++ be1 (s.seat i).state.code ++
  beOpt be2 (s.seat i).candidate ++ beFlag (s.seat i).handRaised ++ be1 (s.seat i).deskStatus.code ++
  be1 (s.seat i).missCount ++ beFlag (s.seat i).stale ++ s.occupantBytes (s.seat i)

/-- READ_SEAT (R62). -/
def readSeat (i : Nat) : Owner := fun s =>
  if Config.seatRecords ≤ i then refuse .range s else okWith (s.seatRecordBytes i) s

/-- The number of a room's defined seats in a state (R62). -/
def State.seatsInState (s : State) (m : Fin 4) (st : SeatState) : Nat :=
  (s.seats.filter (fun x => x.2.inRoom m && x.2.state == st)).length

/-- The number of a room's bound desks in a desk status (R62). -/
def State.desksInStatus (s : State) (m : Fin 4) (st : DeskStatus) : Nat :=
  (s.seats.filter (fun x => x.2.inRoom m && x.2.binds.isSome && x.2.deskStatus == st)).length

/-- A room's last refusal in an answer: the reason is the notice's code (DESIGN CHOICE, log entry 8). -/
def DoorRefusal.bytes (r : DoorRefusal) : List Byte := be4 r.number ++ be1 r.reason.code ++ be3 r.time

/-- A room's last WRONG_SEAT in an answer. -/
def State.wrongSeatBytes (s : State) (w : WrongSeat) : List Byte := s.seatBytes w.seat ++ be4 w.number ++ be3 w.time

/-- The values of READ_ROOM (R62). The bound desks in each status are counted in one byte (DESIGN CHOICE, log entry 8). -/
def State.roomBytes (s : State) (m : Fin 4) : List Byte :=
  beFlag s.rooms[m].enabled ++ be1 s.rooms[m].separation.code ++ be1 s.rooms[m].fill.code ++
  beOpt DoorRefusal.bytes s.rooms[m].lastRefusal ++ beOpt s.wrongSeatBytes s.rooms[m].lastWrongSeat ++
  be2 (s.seatsInState m .outOfUse) ++ be2 (s.seatsInState m .free) ++ be2 (s.seatsInState m .held) ++
  be2 (s.seatsInState m .occupied) ++ be2 (s.seatsInState m .vacated) ++
  be1 (s.desksInStatus m .unbound) ++ be1 (s.desksInStatus m .unknown) ++ be1 (s.desksInStatus m .present) ++
  be1 (s.desksInStatus m .lost)

/-- READ_ROOM (R62). -/
def readRoom (m : Nat) : Owner := fun s =>
  match roomOf m with
  | none => refuse .range s
  | some m' => okWith (s.roomBytes m') s

/-! ### ACK_HAND (R99) -/

/-- ACK_HAND (R99). -/
def ackHand (i : Nat) : Owner := fun s =>
  if Config.seatRecords ≤ i then refuse .range s
  else okWith [] (s.setSeat i { s.seat i with handRaised := false })

/-! ### The rows -/

/-- DEFINE_SEAT (R45). -/
def execDefineSeat (i m row column : Nat) (desk : Option Nat) (f : Byte) (s : State) :
    Host.Outcome State Fault Refusal :=
  requestRow (.defineSeat i m row column desk f) (defineSeat i m row column desk f) s

/-- SEAT_STATE (R46). -/
def execSeatState (i st : Nat) (s : State) : Host.Outcome State Fault Refusal :=
  requestRow (.seatState i st) (setSeatState i st) s

/-- SET_ROOM (R47). -/
def execSetRoom (m : Nat) (on : Bool) (sep fill : Nat) (s : State) : Host.Outcome State Fault Refusal :=
  requestRow (.setRoom m on sep fill) (setRoomSettings m on sep fill) s

/-- ADMIT_FOR (R53). -/
def execAdmitFor (n k : Nat) (s : State) : Host.Outcome State Fault Refusal :=
  requestRow (.admitFor n k) (admitFor n k) s

/-- PLACE (R57). -/
def execPlace (n k i : Nat) (s : State) : Host.Outcome State Fault Refusal :=
  requestRow (.place n k i) (place n k i) s

/-- UNPLACE (R58). -/
def execUnplace (n k : Nat) (s : State) : Host.Outcome State Fault Refusal :=
  requestRow (.unplace n k) (unplace n k) s

/-- MOVE (R60). -/
def execMove (n k i : Nat) (s : State) : Host.Outcome State Fault Refusal :=
  requestRow (.move n k i) (move n k i) s

/-- READ_SEAT (R62). -/
def execReadSeat (i : Nat) (s : State) : Host.Outcome State Fault Refusal := requestRow (.readSeat i) (readSeat i) s

/-- READ_ROOM (R62). -/
def execReadRoom (m : Nat) (s : State) : Host.Outcome State Fault Refusal := requestRow (.readRoom m) (readRoom m) s

/-- ACK_HAND (R99). -/
def execAckHand (i : Nat) (s : State) : Host.Outcome State Fault Refusal := requestRow (.ackHand i) (ackHand i) s

end Sys2Proof.Machine
end

