-- ==== Sys2Proof/Machine/Segments.lean ====
section
/-! DEFINITION. Chapters 3 and 5: what a desk or a post reports and what becomes of it: door admission (R52, R55),
the badge at a desk (R61), the help button (R99), misses and lost units (R94 to R96), delivery (R97); the events of
a segment's line, and the requests RESET_ROOM and READ_SEGMENT. -/

namespace Sys2Proof.Machine

/-! ### Door admission -/

/-- What a door admission finds (R52): a refusal with its reason, or the target record and the seat it takes. -/
inductive DoorDecision where
  | refused (why : Notice)
  | admitted (slot seat : Nat)
  deriving DecidableEq, Repr

/-- A record that can be the target of a door admission: EXPECTED in a sitting whose admission is open (R52,
step 2). -/
def State.admittable (s : State) (j : Nat) : Bool :=
  match s.cand j with
  | some c => c.state == .expected && s.sittings[c.sitting].admissionOpen
  | none => false

/-- The target of a door admission: the first record of the chain that can be one (R52, step 2). -/
def State.doorTarget (s : State) (n : Nat) : Option Nat := (s.chain n).find? s.admittable

/-- Steps 5 and 6 of R52 for a target. -/
def State.doorSeat (s : State) (j : Nat) : DoorDecision :=
  if s.holdFilter.filtered then .refused .hallHold
  else
    match (s.cand j).bind s.seatFor with
    | some i => .admitted j i
    | none => .refused .noSeat

/-- The decision on a badge at a door (R52). -/
def State.doorDecision (s : State) (n : Nat) : DoorDecision :=
  if Config.maxNumber < n ∨ (s.lookup n).isNone then .refused .notEnrolled
  else
    match s.doorTarget n with
    | some j =>
        if (s.chain n).any (s.inStates admittedStates) then .refused .inOtherSitting else s.doorSeat j
    | none =>
        if (s.chain n).any (s.inStates admittedStates) then .refused .alreadySeated
        else if (s.chain n).any (s.inStates [.absent]) then .refused .late
        else .refused .notNow

/-- A refused door admission (R55). -/
def doorRefused (m : Fin 4) (n : Nat) (why : Notice) (s : State) : State :=
  ((offerPost m (.notice why) s).setRoom m
    { s.rooms[m] with lastRefusal := some ⟨n, why, s.hallTime⟩ }).raise .admission

/-- A TAP delivered from the post of a room (R52). -/
def doorTap (m : Fin 4) (n : Nat) (s : State) : State :=
  match s.doorDecision n with
  | .refused why => doorRefused m n why s
  | .admitted j i =>
      match s.cand j with
      | some c => seatRecord (some m) j c i s
      | none => s

/-! ### The badge at a desk (R61) and the help button (R99) -/

/-- The number matches a seat: the seat's candidate record is on the number's chain (R61). -/
def State.badgeMatches (s : State) (v : Seat) (n : Nat) : Bool :=
  decide (n ≤ Config.maxNumber) &&
    match v.candidate with
    | some j => (s.chain n).contains j
    | none => false

/-- WRONG_SEAT at a desk: the notice, the room's last wrong seat and the DESK cause (R61). -/
def wrongSeat (i n : Nat) (s : State) : State :=
  match (s.seat i).place with
  | none => s
  | some p =>
      ((offerDesk i (.notice .wrongSeat) s).setRoom p.room
        { s.rooms[p.room] with lastWrongSeat := some ⟨i, n, s.hallTime⟩ }).raise .desk

/-- A matching badge at an OCCUPIED seat (R61). -/
def confirmSeat (i : Nat) (s : State) : State :=
  match (s.seat i).candidate with
  | none => s
  | some j =>
      match s.cand j with
      | none => s
      | some c => showSeat i c (s.setCand j { c with flags := { c.flags with confirmed := true } })

/-- A TAP delivered from the desk of a seat (R61). -/
def deskTap (i n : Nat) (s : State) : State :=
  match (s.seat i).state, s.badgeMatches (s.seat i) n with
  | .outOfUse, _ => s
  | .free, _ => offerDesk i (.notice .notAllocated) s
  | .held, true => offerDesk i (.notice .notAllocated) s
  | .occupied, true => confirmSeat i s
  | .vacated, true => offerDesk i (.notice .done) s
  | .held, false => wrongSeat i n s
  | .occupied, false => wrongSeat i n s
  | .vacated, false => wrongSeat i n s

/-- A HAND delivered from the desk of a seat (R99). -/
def deskHand (i : Nat) (up : Bool) (s : State) : State :=
  match up, (s.seat i).handRaised with
  | true, true => s
  | true, false => (s.setSeat i { s.seat i with handRaised := true }).raise .desk
  | false, _ => s.setSeat i { s.seat i with handRaised := false }

/-! ### Contact: misses, lost units, good answers (R92 to R96) -/

/-- A desk or post becomes LOST: one DESK cause, and a DESK_LOST report (R95, R96). -/
def reportLost (m : Fin 4) (a : Nat) (s : State) : State := (s.raise .desk).reportFault .deskLost (.unit m a)

/-- A miss of a desk (R94, R95): the second becomes the third, and the desk is LOST. -/
def deskMiss (i : Nat) (s : State) : State :=
  let v := s.seat i
  if 3 ≤ v.missCount then s
  else if v.missCount = 2 then s.setSeat i { v with missCount := 3, deskStatus := .lost }
  else s.setSeat i { v with missCount := v.missCount + 1 }

/-- A miss of the post (R96). -/
def postMiss (m : Fin 4) (s : State) : State :=
  let g := s.segments[m]
  if 3 ≤ g.postMiss then s
  else if g.postMiss = 2 then s.setSegment m { g with postMiss := 3, postStatus := .lost }
  else s.setSegment m { g with postMiss := g.postMiss + 1 }

/-- The miss that an ended window counts is the third of the unit in a row (R95, R96). -/
def State.thirdMiss (s : State) (m : Fin 4) (a : Nat) : Bool :=
  if a = 0 then s.segments[m].postMiss == 2
  else
    match s.boundSeat m a with
    | some i => (s.seat i).missCount == 2
    | none => false

/-- The counting of a miss for the awaited address; an address no longer bound is not counted (R94). -/
def countMiss (m : Fin 4) (a : Nat) (s : State) : State :=
  if a = 0 then postMiss m s
  else
    match s.boundSeat m a with
    | some i => deskMiss i s
    | none => s

/-- The reports that follow a miss: the loss of the unit where it is its third (R95, R96), and a DESK_CORRUPT for
a failed answer (R94), in an order the manual leaves open (log entry 16). -/
def reportMiss (m : Fin 4) (a : Nat) (lost failed : Bool) (s : State) : State :=
  match lost, failed with
  | false, false => s
  | false, true => s.reportFault .deskCorrupt (.unit m a)
  | true, false => reportLost m a s
  | true, true =>
      if Config.lostReportedFirst s.hallTime m.val a then (reportLost m a s).reportFault .deskCorrupt (.unit m a)
      else reportLost m a (s.reportFault .deskCorrupt (.unit m a))

/-- A window that ends with no answer, or with a failed one (R94). -/
def missed (m : Fin 4) (a : Nat) (failed : Bool) (s : State) : State :=
  reportMiss m a (s.thirdMiss m a) failed (countMiss m a s)

/-- A desk that is to be resynchronised at its good answer: LOST, UNKNOWN or stale (R92, step 2). -/
def Seat.needsResync (v : Seat) : Bool := v.deskStatus == .lost || v.deskStatus == .unknown || v.stale

/-- Steps 1 and 2 of R92 for a desk. -/
def deskAnswered (i : Nat) (s : State) : State :=
  if (s.seat i).needsResync then
    resyncDesk i (s.setSeat i { s.seat i with deskStatus := .present, missCount := 0, stale := false })
  else s.setSeat i { s.seat i with deskStatus := .present, missCount := 0 }

/-- A good answer of the post (R96): its resync is a BLANK (R93). -/
def postAnswered (m : Fin 4) (s : State) : State :=
  match s.segments[m].postStatus with
  | .present => s.setSegment m { s.segments[m] with postMiss := 0 }
  | .unknown | .lost =>
      offerPost m .blank (s.setSegment m { s.segments[m] with postStatus := .present, postMiss := 0 })

/-! ### Delivery (R97) -/

/-- The event of a desk's good answer goes to the block that owns it; an event that a desk may not send is
discarded with a DESK cause (R97). -/
def deliverDesk (i : Nat) (e : DeskEvent) (s : State) : State :=
  match e with
  | .null => s
  | .tap n => deskTap i n s
  | .hand up => deskHand i up s
  | .rest b => deskRest i b s
  | .submit => deskSubmit i s
  | .slot d => deskSlot i d s
  | .restart => resyncDesk i s
  | .collect _ => s.raise .desk

/-- The event of the post's good answer (R97). -/
def deliverPost (m : Fin 4) (e : DeskEvent) (s : State) : State :=
  match e with
  | .null => s
  | .tap n => doorTap m n s
  | .collect d => collect m d s
  | .restart => offerPost m .blank s
  | .hand _ => s.raise .desk
  | .rest _ => s.raise .desk
  | .submit => s.raise .desk
  | .slot _ => s.raise .desk

/-- An event from a desk address that is no longer bound is discarded with a DESK cause; a NULL is not an event
(R97). -/
def discardEvent (e : DeskEvent) (s : State) : State :=
  match e with
  | .null => s
  | .tap _ | .hand _ | .rest _ | .submit | .slot _ | .collect _ | .restart => s.raise .desk

/-- A good answer from the awaited address (R92, R96, R97). -/
def goodAnswer (m : Fin 4) (a : Nat) (e : DeskEvent) (s : State) : State :=
  if a = 0 then deliverPost m e (postAnswered m s)
  else
    match s.boundSeat m a with
    | some i => deliverDesk i e (deskAnswered i s)
    | none => discardEvent e s

/-- A whole answer frame from the awaited address or from another, good or failed (R86). -/
def handleAnswer (m : Fin 4) (a : Nat) (frame : List Byte) (s : State) : State :=
  match parseAnswer frame with
  | some (a', e) => if a' = a then goodAnswer m a e s else missed m a true s
  | none => missed m a true s

/-- An answer window ends: the segment goes to MASTER (R92). -/
def endWindow (m : Fin 4) (s : State) : State := s.setSegment m { s.segments[m] with line := .master }

/-! ### Events of the line -/

/-- TIME_SENT: a TIME has left the line, and the next exchange is chosen (R85, R87). Where none is going out the event
cannot occur, and nothing changes (DESIGN CHOICE, log entry 11; so too below). -/
def timeSent (m : Fin 4) (door : Bool) (s : State) : State :=
  match s.segments[m].sending with
  | some (.time _ _) => kickSegment m (endExchange m (setDoorWire m door s))
  | some (.poll _) | some (.show_ _) | none => s

/-- SHOW_SENT: a SHOW has left the line, and the next exchange is chosen (R90, R87). -/
def showSent (m : Fin 4) (door : Bool) (s : State) : State :=
  match s.segments[m].sending with
  | some (.show_ _) => kickSegment m (endExchange m (setDoorWire m door s))
  | some (.poll _) | some (.time _ _) | none => s

/-- POLL_SENT: a POLL has left the line and its window opens (R83, R92), unless a reset met it while it was going
out: then it opens none, and the next exchange is chosen (R100). -/
def pollSent (m : Fin 4) (door : Bool) (s : State) : State :=
  match s.segments[m].sending with
  | some (.poll a) =>
      if s.segments[m].pollVoided then kickSegment m (endExchange m (setDoorWire m door s))
      else s.setSegment m { s.segments[m] with line := .awaiting a, sending := none, doorWire := door }
  | some (.time _ _) | some (.show_ _) | none => s

/-- DESK_ANSWER: a whole answer frame ends the window; it is handled, and the next exchange is chosen (R92;
DEDUCED, log entry 14). Outside
AWAITING an answer is ignored with its event (R100). -/
def deskAnswer (m : Fin 4) (door : Bool) (frame : List Byte) (s : State) : State :=
  match s.segments[m].line with
  | .awaiting a => kickSegment m (handleAnswer m a frame (endWindow m (setDoorWire m door s)))
  | .disabled | .master => s

/-- ANSWER_WINDOW_TIMEOUT: the window ends with no answer (R92, R94). -/
def answerWindowTimeout (m : Fin 4) (door : Bool) (s : State) : State :=
  match s.segments[m].line with
  | .awaiting a => kickSegment m (missed m a false (endWindow m (setDoorWire m door s)))
  | .disabled | .master => s

/-! ### RESET_ROOM and READ_SEGMENT -/

/-- The segment after a room reset (R100); time due and the line states other than AWAITING are kept. -/
def Segment.roomReset (g : Segment) : Segment :=
  { g.abandoned with queue := [], rotation := 128, postStatus := .unknown, postMiss := 0 }

/-- RESET_ROOM (R100). -/
def resetRoom (m : Nat) : Owner := fun s =>
  match roomOf m with
  | none => refuse .range s
  | some m' => okWith [] (kickSegment m' ((unknownDesks m' s).setSegment m' s.segments[m'].roomReset))

/-- One entry of a directed queue in an answer: address, kind and content (R103). -/
def ShowEntry.bytes (e : ShowEntry) : List Byte := be1 e.address ++ be1 e.content.kind.code ++ e.content.bytes

/-- The awaited address, present only in AWAITING (R83). -/
def LineState.awaited : LineState → Option Nat
  | .awaiting a => some a
  | .disabled => none
  | .master => none

/-- The values of READ_SEGMENT (R103). The sampled level of DOOR_CALL is 1 for asserted: R172 codes no level (DESIGN
CHOICE, log entry 8). -/
def Segment.bytes (g : Segment) : List Byte :=
  be1 g.line.code ++ beOpt be1 g.line.awaited ++ beFlag g.timeDue ++ beFlag g.doorSampled ++ be1 g.rotation ++
  be1 g.postStatus.code ++ be1 g.postMiss ++ beList ShowEntry.bytes g.queue

/-- READ_SEGMENT (R103). -/
def readSegment (m : Nat) : Owner := fun s =>
  match roomOf m with
  | none => refuse .range s
  | some m' => okWith s.segments[m'].bytes s

/-! ### The rows -/

/-- RESET_ROOM (R100). -/
def execResetRoom (m : Nat) (s : State) : Host.Outcome State Fault Refusal :=
  requestRow (.resetRoom m) (resetRoom m) s

/-- READ_SEGMENT (R103). -/
def execReadSegment (m : Nat) (s : State) : Host.Outcome State Fault Refusal :=
  requestRow (.readSegment m) (readSegment m) s

/-- TIME_SENT (R85). -/
def execTimeSent (m : Fin 4) (door : Bool) (s : State) : Host.Outcome State Fault Refusal :=
  whileRunning (timeSent m door) s

/-- POLL_SENT (R92). -/
def execPollSent (m : Fin 4) (door : Bool) (s : State) : Host.Outcome State Fault Refusal :=
  whileRunning (pollSent m door) s

/-- SHOW_SENT (R90). -/
def execShowSent (m : Fin 4) (door : Bool) (s : State) : Host.Outcome State Fault Refusal :=
  whileRunning (showSent m door) s

/-- DESK_ANSWER (R92). -/
def execDeskAnswer (m : Fin 4) (door : Bool) (frame : List Byte) (s : State) : Host.Outcome State Fault Refusal :=
  whileRunning (deskAnswer m door frame) s

/-- ANSWER_WINDOW_TIMEOUT (R94). -/
def execAnswerWindowTimeout (m : Fin 4) (door : Bool) (s : State) : Host.Outcome State Fault Refusal :=
  whileRunning (answerWindowTimeout m door) s

end Sys2Proof.Machine
end

