-- ==== Sys2Proof/Machine/Keys.lean ====
section
/-! DEFINITION. Chapter 7: answer keys: KEY_OPEN, KEY_ENTRIES, KEY_SEAL, KEY_DISCARD, READ_KEY and
READ_KEY_ENTRIES. -/

namespace Sys2Proof.Machine

/-! ### Loading (R122 to R124) -/

/-- The page count of a question count: ceil(Q / 45) (R121). -/
def pageCount (q : Nat) : Nat := (q + 44) / 45

/-- The header fields are in their ranges (R122, check 4). -/
def headerInRange (h : KeyHeader) : Bool :=
  decide (1 ≤ h.q) && decide (h.q ≤ 180) && decide (1 ≤ h.tf) && decide (h.tf ≤ 255) && decide (1 ≤ h.te) &&
  decide (h.te ≤ 255) && decide (h.margin ≤ 255) && h.caps.all (fun c => decide (1 ≤ c) && decide (c ≤ 7200)) &&
  h.bounds.all (fun g => decide (g ≤ 1001))

/-- KEY_OPEN (R122). -/
def keyOpen (k : Nat) (h : KeyHeader) : Owner := fun s =>
  match sittingOf k with
  | none => refuse .range s
  | some k' =>
      if s.sittings[k'].state = .unscheduled then refuse .state s
      else if s.keys[k'].state ≠ .empty then refuse .state s
      else if !headerInRange h then refuse .range s
      else
        okWith (be1 (pageCount h.q)) (s.setKey k' { state := .loading, header := h, entries := [], derived := none })

/-- The entry is a VOID marker (R172). -/
def argVoid (e : KeyEntryArg) : Bool := e.set.getLsbD 7

/-- The options among A..E that an entry names (R124). -/
def argOptions (e : KeyEntryArg) : OptionSet := e.set.setWidth 5

/-- A non-VOID entry with a weight of 0, a section above 3 or no option of A..E (R123, check 4). -/
def argFaulty (e : KeyEntryArg) : Bool :=
  !argVoid e && (e.weight == 0 || decide (3 < e.section_) || argOptions e == 0)

/-- The question of the first faulty entry (R123, check 4). -/
def firstFaulty : (question : Nat) → List KeyEntryArg → Option Nat
  | _, [] => none
  | q, e :: es => if argFaulty e then some q else firstFaulty (q + 1) es

/-- The penalty as written: at most the weight as written (R124). -/
def writtenPenalty (e : KeyEntryArg) : Nat := clampTo (clampTo 40 e.weight) e.penalty

/-- An entry as it is written (R124). -/
def writtenEntry (e : KeyEntryArg) : KeyEntry :=
  if argVoid e then .void
  else
    match roomOf e.section_ with
    | some k => .answer (argOptions e) (clampTo 40 e.weight) (writtenPenalty e) k
    | none => .void

/-- A weight or penalty of the entry is reduced, or an option beyond E dropped (R124). -/
def argClamped (e : KeyEntryArg) : Bool :=
  !argVoid e && (decide (40 < e.weight) || decide (clampTo 40 e.weight < e.penalty) || e.set.getLsbD 5 || e.set.getLsbD 6)

/-- The entries written to the questions from one on (R124). -/
def writeEntries (t : Table KeyEntry) : (question : Nat) → List KeyEntryArg → Table KeyEntry
  | _, [] => t
  | q, e :: es => writeEntries (tableInsert t q (writtenEntry e)) (q + 1) es

/-- The lowest undefined question of 1..Q (R124, R125, R131). -/
def KeySlot.lowestUndefined (v : KeySlot) : Option Nat :=
  lowestFrom (fun q => (tableFind v.entries q).isNone) v.header.q 1

/-- The number of questions 1..Q defined (R124, R131). -/
def KeySlot.definedCount (v : KeySlot) : Nat :=
  (v.entries.filter (fun x => decide (1 ≤ x.1) && decide (x.1 ≤ v.header.q))).length

/-- The key slot with entries written (R124). -/
def KeySlot.withEntries (v : KeySlot) (first : Nat) (es : List KeyEntryArg) : KeySlot :=
  { v with entries := writeEntries v.entries first es }

/-- The values of KEY_ENTRIES (R124). -/
def KeySlot.loadBytes (v : KeySlot) : List Byte := be1 v.definedCount ++ beOpt be1 v.lowestUndefined

/-- KEY_ENTRIES (R123, R124). A request without an entry is answered MALFORMED, and one of more than 59 TOO_LONG, by
the station link port (R123; DEDUCED, log entries 21 and 22). -/
def keyEntries (k first : Nat) (es : List KeyEntryArg) : Owner := fun s =>
  if es.length = 0 then refuse .malformed s
  else if 59 < es.length then refuse .tooLong s
  else
    match sittingOf k with
    | none => refuse .range s
    | some k' =>
        if s.keys[k'].state ≠ .loading then refuse .state s
        else if first = 0 then refuseWith .range (be1 0) s
        else if s.keys[k'].header.q < first + es.length - 1 then
          refuseWith .range (be1 (max first (s.keys[k'].header.q + 1))) s
        else
          match firstFaulty first es with
          | some q => refuseWith .range (be1 q) s
          | none =>
              okOrClamped (es.any argClamped) (s.keys[k'].withEntries first es).loadBytes
                (s.setKey k' (s.keys[k'].withEntries first es))

/-! ### Sealing (R125, R126) -/

/-- The lowest j with G_j greater than G_(j+1) (R125, check 5). -/
def boundaryFault : (j : Nat) → List Nat → Option Nat
  | j, a :: b :: rest => if b < a then some j else boundaryFault (j + 1) (b :: rest)
  | _, _ => none

/-- The weight that an entry adds to the total of a section (R126). -/
def KeyEntry.weightIn (e : KeyEntry) (k : Fin 4) : Nat :=
  match e with
  | .void => 0
  | .answer _ w _ k' => if k' = k then w else 0

/-- The section total t_k (R126). -/
def sectionTotal (entries : Table KeyEntry) (k : Fin 4) : Nat := (entries.map (fun x => x.2.weightIn k)).sum

/-- The section maximum m_k = min(C_k, t_k) (R126). -/
def sectionMaximum (v : KeySlot) (k : Fin 4) : Nat := min v.header.caps[k] (sectionTotal v.entries k)

/-- The derived fields of a sealed key (R126). -/
def KeySlot.derive (v : KeySlot) : KeyDerived :=
  { pages := pageCount v.header.q,
    totals := #v[sectionTotal v.entries 0, sectionTotal v.entries 1, sectionTotal v.entries 2,
      sectionTotal v.entries 3],
    maxima := #v[sectionMaximum v 0, sectionMaximum v 1, sectionMaximum v 2, sectionMaximum v 3],
    smax := sectionMaximum v 0 + sectionMaximum v 1 + sectionMaximum v 2 + sectionMaximum v 3 }

/-- The key slot as it is sealed: RELEASED where its sitting is CLOSED, SEALED otherwise (R126). -/
def KeySlot.sealedFor (v : KeySlot) (t : Sitting) : KeySlot :=
  { v with state := if t.state = .closed then .released else .sealed_, derived := some v.derive }

/-- The values of KEY_SEAL: the state, P, the section totals and Smax (R126). -/
def sealBytes (st : KeyState) (d : KeyDerived) : List Byte :=
  be1 st.code ++ be1 d.pages ++ d.totals.toList.flatMap be2 ++ be2 d.smax

/-- KEY_SEAL (R125, R126). An ORDER for the thresholds carries 0, and one for the boundaries the lowest j (log
entry 8). -/
def keySeal (k : Nat) : Owner := fun s =>
  match sittingOf k with
  | none => refuse .range s
  | some k' =>
      if s.keys[k'].state ≠ .loading then refuse .state s
      else
        match s.keys[k'].lowestUndefined with
        | some q => refuseWith .incomplete (be1 q) s
        | none =>
            if s.keys[k'].header.tf ≤ s.keys[k'].header.te then refuseWith .order (be1 0) s
            else
              match boundaryFault 1 s.keys[k'].header.bounds.toList with
              | some j => refuseWith .order (be1 j) s
              | none =>
                  okWith (sealBytes (s.keys[k'].sealedFor s.sittings[k']).state s.keys[k'].derive)
                    (s.setKey k' (s.keys[k'].sealedFor s.sittings[k']))

/-! ### Discarding (R130) -/

/-- A script of a sitting in a state (R130). -/
def State.hasScript (s : State) (k : Fin 8) (st : ScriptState) : Bool :=
  s.scripts.any (fun x => x.2.sitting == k && x.2.state == st)

/-- KEY_DISCARD (R130). -/
def keyDiscard (k : Nat) : Owner := fun s =>
  match sittingOf k with
  | none => refuse .range s
  | some k' =>
      match s.keys[k'].state with
      | .empty => okWith [] s
      | .loading | .sealed_ => okWith [] (s.emptyKey k')
      | .released =>
          if s.hasScript k' .marking then refuse .busy s
          else if s.hasScript k' .marked then refuse .marksExist s
          else okWith [] (s.emptyKey k')

/-! ### Reading a key (R131) -/

/-- What READ_KEY adds to the header in LOADING, and from SEALED on (R131). -/
def KeySlot.stateBytes (v : KeySlot) : List Byte :=
  match v.state, v.derived with
  | .empty, _ => []
  | .loading, _ => v.header.bytes ++ v.loadBytes
  | .sealed_, some d => v.header.bytes ++ be1 d.pages ++ d.totals.toList.flatMap be2 ++ d.maxima.toList.flatMap be2 ++ be2 d.smax
  | .released, some d => v.header.bytes ++ be1 d.pages ++ d.totals.toList.flatMap be2 ++ d.maxima.toList.flatMap be2 ++ be2 d.smax
  | .sealed_, none => v.header.bytes
  | .released, none => v.header.bytes

/-- READ_KEY (R131). A sitting above 7 is refused with RANGE, as by READ_KEY_ENTRIES: R131 names no refusal of READ_KEY
(DEDUCED, log entry 29). -/
def readKey (k : Nat) : Owner := fun s =>
  match sittingOf k with
  | none => refuse .range s
  | some k' => okWith (be1 s.keys[k'].state.code ++ s.keys[k'].stateBytes) s

/-- The four bytes of a question entry: undefined is four bytes of 0, and VOID has bit 7 of the set byte (R172); the other
bits and bytes of a VOID entry are 0 (DESIGN CHOICE, log entry 8). -/
def entryBytes : Option KeyEntry → List Byte
  | none => [0, 0, 0, 0]
  | some .void => [128, 0, 0, 0]
  | some (.answer a w p k) => be1 a.toNat ++ be1 w ++ be1 p ++ be1 k.val

/-- The entries of the questions from one on, so many of them (R131). -/
def entriesFrom (t : Table KeyEntry) : (count question : Nat) → List Byte
  | 0, _ => []
  | c + 1, q => entryBytes (tableFind t q) ++ entriesFrom t c (q + 1)

/-- READ_KEY_ENTRIES (R131). -/
def readKeyEntries (k first count : Nat) : Owner := fun s =>
  match sittingOf k with
  | none => refuse .range s
  | some k' =>
      match s.keys[k'].state with
      | .empty | .sealed_ => refuse .state s
      | .loading | .released =>
          if first = 0 ∨ count = 0 ∨ 60 < count ∨ s.keys[k'].header.q < first + count - 1 then refuse .range s
          else okWith (entriesFrom s.keys[k'].entries count first) s

/-! ### The rows -/

/-- KEY_OPEN (R122). -/
def execKeyOpen (k : Nat) (h : KeyHeader) (s : State) : Host.Outcome State Fault Refusal :=
  requestRow (.keyOpen k h) (keyOpen k h) s

/-- KEY_ENTRIES (R123). -/
def execKeyEntries (k first : Nat) (es : List KeyEntryArg) (s : State) : Host.Outcome State Fault Refusal :=
  requestRow (.keyEntries k first es) (keyEntries k first es) s

/-- KEY_SEAL (R125). -/
def execKeySeal (k : Nat) (s : State) : Host.Outcome State Fault Refusal := requestRow (.keySeal k) (keySeal k) s

/-- KEY_DISCARD (R130). -/
def execKeyDiscard (k : Nat) (s : State) : Host.Outcome State Fault Refusal :=
  requestRow (.keyDiscard k) (keyDiscard k) s

/-- READ_KEY (R131). -/
def execReadKey (k : Nat) (s : State) : Host.Outcome State Fault Refusal := requestRow (.readKey k) (readKey k) s

/-- READ_KEY_ENTRIES (R131). -/
def execReadKeyEntries (k first count : Nat) (s : State) : Host.Outcome State Fault Refusal :=
  requestRow (.readKeyEntries k first count) (readKeyEntries k first count) s

end Sys2Proof.Machine
end

