-- ==== Sys2Proof/Machine/Intake.lean ====
section
/-! DEFINITION. Chapter 8: the sheet intake: the scanner's frames (R135 to R139), the verdict order (R140), the
transmitter (R141), the eligibility of a sheet as the mark engine takes it (R142, R143), READ_INTAKE, and the
intake's part of a traffic clear (R145). -/

namespace Sys2Proof.Machine

/-! ### Verdicts (R140) -/

/-- A buffer with its verdict (R140). -/
def SheetBuffer.withVerdict (b : SheetBuffer) (v : Verdict) : SheetBuffer :=
  { b with state := .decided, verdict := some v }

/-- A buffer is DECIDED with a REJECT: the last reject is written and one cause raised in MARKING (R140). -/
def rejectSheet (b : Fin 4) (why : RejectReason) (s : State) : State :=
  let v := s.intake.buffers[b]
  ({ s with intake := { s.intake with
      buffers := s.intake.buffers.set b (v.withVerdict (.reject why)),
      lastReject := some ⟨v.number, v.serial, v.page, why, s.hallTime⟩ } }).raise .marking

/-- The page count of a released key; a key that is not sealed has no pages (R142, check 6). -/
def KeySlot.pageCountOf (v : KeySlot) : Nat := (v.derived.map KeyDerived.pages).getD 0

/-- The page is among the pages marked of the candidate record in a roll slot (R142, check 7). -/
def State.pageMarked (s : State) (j page : Nat) : Bool :=
  match s.cand j with
  | some c => c.acc.pages.getLsbD page
  | none => false

/-- Check 4 of R142; no run brings a MARKING or a HANDED sheet to it (DESIGN CHOICE, log entry 24). -/
def ScriptState.rejectReason : ScriptState → Option RejectReason
  | .collected => none
  | .issued => some .notCollected
  | .submitted => some .notCollected
  | .marked => some .alreadyMarked
  | .voided => some .voided
  | .marking => some .alreadyMarked
  | .handed => some .notASheet

/-- Checks 3 to 7 of R142 on the script that a sheet names. -/
def State.scriptEligible (s : State) (x : Script) (page : Nat) : Option RejectReason :=
  if x.kind = .booklet then some .notASheet
  else
    match x.state.rejectReason with
    | some why => some why
    | none =>
        if s.sittings[x.sitting].state ≠ .closed ∨ s.keys[x.sitting].state ≠ .released then some .embargoed
        else if page = 0 ∨ s.keys[x.sitting].pageCountOf < page then some .pageRange
        else if s.pageMarked x.slot page then some .duplicatePage
        else none

/-- What the mark engine finds as it takes a sheet: the reason of a REJECT, or the script to mark (R142). -/
def State.eligible (s : State) (serial page : Nat) : Except RejectReason Script :=
  if !validSerial serial then .error .badSerial
  else
    match s.script serial with
    | none => .error .unknownScript
    | some x =>
        match s.scriptEligible x page with
        | some why => .error why
        | none => .ok x

/-- A sheet that passes is in the mark engine's hand: its script is MARKING and its buffer TAKEN (R143, R147). -/
def takeSheet (b : Fin 4) (x : Script) (s : State) : State :=
  let v := s.intake.buffers[b]
  { (s.setScript v.serial { x with state := .marking }).setBuffer b { v with state := .taken } with
      hand := some ⟨b, v.serial, v.page, x.slot, x.sitting⟩ }

/-- The test of R140 along the verdict order: DECIDED buffers are passed over, and each decision leads to the
test of the buffer behind it. -/
def settleFrom : List (Fin 4) → State → State
  | [], s => s
  | b :: rest, s =>
      match s.intake.buffers[b].state, s.intake.buffers[b].form with
      | .decided, _ => settleFrom rest s
      | .queued, some .malformed => settleFrom rest (rejectSheet b .malformed s)
      | .queued, some .wellFormed =>
          match s.hand with
          | some _ => s
          | none =>
              match s.eligible s.intake.buffers[b].serial s.intake.buffers[b].page with
              | .error why => settleFrom rest (rejectSheet b why s)
              | .ok x => takeSheet b x s
      | .queued, none => s
      | .filling, _ => s
      | .taken, _ => s
      | .free, _ => s

/-- The intake looks at the next sheet (R140). -/
def settle (s : State) : State := settleFrom s.intake.order s

/-! ### The transmitter (R141) -/

/-- The verdict of the first buffer in the verdict order, if that buffer is DECIDED (R141). -/
def Intake.headVerdict (k : Intake) : Option ScanFrame :=
  match k.order with
  | [] => none
  | b :: _ => if k.buffers[b].state = .decided then some (.verdict b) else none

/-- A free transmitter chooses its next frame (R141). -/
def Intake.transmit (k : Intake) : Intake :=
  match k.sending with
  | some _ => k
  | none =>
      if k.resetOwed then { k with sending := some .portReset }
      else
        match k.beginAnswers with
        | a :: rest => { k with beginAnswers := rest, sending := some (.begin_ a) }
        | [] => { k with sending := k.headVerdict }

/-- After a change of the buffers: the next sheet is looked at, and a free transmitter chooses (R140, R141). -/
def intakeChanged (s : State) : State := (settle s).setIntake (settle s).intake.transmit

/-! ### Receiving (R136 to R139) -/

/-- The buffer that is FILLING; there is at most one (R134). -/
def Intake.fillingBuffer (k : Intake) : Option (Fin 4) := four.find? (fun b => k.buffers[b].state == .filling)

/-- The lowest-numbered FREE buffer (R136). -/
def Intake.freeBufferOf (k : Intake) : Option (Fin 4) := four.find? (fun b => k.buffers[b].state == .free)

/-- The filling sheet is closed MALFORMED (R138): its buffer is QUEUED, the gap timer stops, the receive state is
what the closing frame makes it, and SHEET_MALFORMED is reported with the sheet's serial. -/
def closeMalformed (next : ReceiveState) (s : State) : State :=
  match s.intake.fillingBuffer with
  | none => s.setIntake { s.intake with gapTimer := false, receive := next }
  | some b =>
      (s.setIntake { s.intake with
        buffers := s.intake.buffers.set b { s.intake.buffers[b] with state := .queued, form := some .malformed },
        gapTimer := false, receive := next }).reportFault .sheetMalformed (.serial s.intake.buffers[b].serial)

/-- A frame that closes the filling sheet, with what R140 and R141 make of it. -/
def closingFrame (next : ReceiveState) (s : State) : State := intakeChanged (closeMalformed next s)

/-- The filling buffer receives a row, or is closed; in FILLING the gap timer restarts (R137). -/
def fillBuffer (b : Fin 4) (v : SheetBuffer) (s : State) : State :=
  s.setIntake { s.intake with buffers := s.intake.buffers.set b v, gapTimer := true }

/-- The begin is not taken: WAIT, and the receive state is IDLE (R136). -/
def Intake.wait (k : Intake) : Intake :=
  { k with beginAnswers := k.beginAnswers ++ [.wait], receive := .idle }

/-- The begin is taken into a FREE buffer (R136). -/
def Intake.takeBegin (k : Intake) (b : Fin 4) (serial page : Nat) (cells : RefCells) : Intake :=
  { k with
      buffers := k.buffers.set b
        { state := .filling, number := k.nextNumber, serial := serial, page := page, cells := cells, rows := [],
          form := none, verdict := none },
      order := k.order ++ [b], nextNumber := (k.nextNumber + 1) % 256, receive := .filling, gapTimer := true,
      beginAnswers := k.beginAnswers ++ [.go k.nextNumber] }

/-- A SHEET_BEGIN whose check passes, with fewer than 4 begin answers waiting (R136). -/
def beginSheet (serial page : Nat) (cells : RefCells) (s : State) : State :=
  match s.intake.receive with
  | .filling => intakeChanged ((closeMalformed .idle s).setIntake (closeMalformed .idle s).intake.wait)
  | .idle | .discarding =>
      match s.intake.freeBufferOf with
      | some b => intakeChanged (s.setIntake (s.intake.takeBegin b serial page cells))
      | none => intakeChanged (s.setIntake s.intake.wait)

/-- A frame whose check fails (R137, R139). -/
def badScannerFrame (s : State) : State :=
  match s.intake.receive with
  | .filling => closingFrame .discarding s
  | .idle | .discarding => s

/-- A frame from the scanner: while reset owed is set every one is discarded (R135). -/
def scannerFrame (f : State → State) (s : State) : State := if s.intake.resetOwed then s else f s

/-- SHEET_BEGIN: with 4 begin answers waiting it is handled as a frame whose check fails (R136). -/
def sheetBegin (serial page c1 c2 c3 c4 : Nat) : State → State :=
  scannerFrame (fun s =>
    if 4 ≤ s.intake.beginAnswers.length then badScannerFrame s else beginSheet serial page ⟨c1, c2, c3, c4⟩ s)

/-- A ROW in FILLING (R137). -/
def fillRow (n : Nat) (r : RowReading) (s : State) : State :=
  match s.intake.fillingBuffer with
  | none => closingFrame .discarding s
  | some b =>
      if n = s.intake.buffers[b].rows.length + 1 ∧ n ≤ Config.sheetRows then
        fillBuffer b { s.intake.buffers[b] with rows := s.intake.buffers[b].rows ++ [r] } s
      else closingFrame .discarding s

/-- ROW (R137, R139). -/
def sheetRow (n : Nat) (r : RowReading) : State → State :=
  scannerFrame (fun s =>
    match s.intake.receive with
    | .filling => fillRow n r s
    | .idle | .discarding => s)

/-- The sheet closes WELL_FORMED (R137). -/
def closeWellFormed (b : Fin 4) (s : State) : State :=
  intakeChanged (s.setIntake { s.intake with
    buffers := s.intake.buffers.set b { s.intake.buffers[b] with state := .queued, form := some .wellFormed },
    gapTimer := false, receive := .idle })

/-- A SHEET_END in FILLING (R137). -/
def endSheet (count : Nat) (s : State) : State :=
  match s.intake.fillingBuffer with
  | none => closingFrame .idle s
  | some b =>
      if count = Config.sheetRows ∧ s.intake.buffers[b].rows.length = Config.sheetRows then closeWellFormed b s
      else closingFrame .idle s

/-- SHEET_END (R137, R139). -/
def sheetEnd (count : Nat) : State → State :=
  scannerFrame (fun s =>
    match s.intake.receive with
    | .filling => endSheet count s
    | .discarding => s.setIntake { s.intake with receive := .idle }
    | .idle => s)

/-- SHEET_GAP_TIMEOUT: the gap timer, where it runs, expires (R138). -/
def sheetGapTimeout (s : State) : State := if s.intake.gapTimer then closingFrame .discarding s else s

/-! ### Frames that have gone out (R135, R141) -/

/-- The transmitter is free. -/
def Intake.sent (k : Intake) : Intake := { k with sending := none }

/-- BEGIN_ANSWER_SENT (R141). -/
def beginAnswerSent (s : State) : State :=
  match s.intake.sending with
  | some (.begin_ _) => s.setIntake s.intake.sent.transmit
  | some .portReset | some (.verdict _) | none => s

/-- The buffer of a verdict that has gone out leaves the verdict order and is FREE (R141). -/
def Intake.freed (k : Intake) (b : Fin 4) : Intake :=
  { k with order := k.order.erase b, buffers := k.buffers.set b SheetBuffer.freeBuffer, sending := none }

/-- VERDICT_SENT (R141). -/
def verdictSent (s : State) : State :=
  match s.intake.sending with
  | some (.verdict b) => intakeChanged (s.setIntake (s.intake.freed b))
  | some .portReset | some (.begin_ _) | none => s

/-- PORT_RESET_SENT: reset owed is cleared (R135). -/
def portResetSent (s : State) : State :=
  match s.intake.sending with
  | some .portReset => s.setIntake { s.intake with resetOwed := false, sending := none }.transmit
  | some (.begin_ _) | some (.verdict _) | none => s

/-! ### Traffic clear (R145) -/

/-- A sheet that a traffic clear decides: FILLING, QUEUED or in the mark engine's hand (R145, steps 1 and 2). -/
def SheetBuffer.unsettled (b : SheetBuffer) : Bool :=
  match b.state with
  | .filling | .queued | .taken => true
  | .free | .decided => false

/-- The form of a FILLING sheet that a traffic clear closes at a hall time: a free value (R134, R145; DESIGN CHOICE, log
entry 28). -/
def SheetBuffer.clearedForm (hallTime : Nat) (b : SheetBuffer) : SheetForm :=
  if Config.clearedWellFormed hallTime b.number b.rows.length then .wellFormed else .malformed

/-- The buffer of a closed sheet: a sheet without a form is closed and takes one (R145, step 2). -/
def SheetBuffer.closed (hallTime : Nat) (b : SheetBuffer) : SheetBuffer :=
  { b with form := some (b.form.getD (b.clearedForm hallTime)) }

/-- A buffer after a traffic clear (R145). -/
def SheetBuffer.afterClear (hallTime : Nat) (b : SheetBuffer) : SheetBuffer :=
  if b.unsettled then (b.closed hallTime).withVerdict .cleared else b

/-- The script of an abandoned marking returns to COLLECTED (R145, step 1). -/
def abandonMarking (s : State) : State :=
  match s.hand with
  | none => s
  | some h =>
      match s.script h.serial with
      | none => { s with hand := none }
      | some x => { s.setScript h.serial { x with state := .collected } with hand := none }

/-- The intake after a traffic clear (R145, steps 2 to 4). -/
def Intake.afterClear (hallTime : Nat) (k : Intake) : Intake :=
  { k with
      buffers := k.buffers.map (SheetBuffer.afterClear hallTime),
      receive := if k.receive = .filling then .discarding else k.receive,
      gapTimer := false }

/-- The intake's and the mark engine's part of a traffic clear (R145); the verdicts then go out (R141). -/
def clearIntake (s : State) : State :=
  (abandonMarking s).setIntake ((abandonMarking s).intake.afterClear s.hallTime).transmit

/-- The number of sheets that a traffic clear gives the verdict CLEARED (R180). -/
def Intake.clearedCount (k : Intake) : Nat := (k.buffers.toList.filter SheetBuffer.unsettled).length

/-! ### READ_INTAKE (R144) -/

/-- A verdict in an answer: its kind, and the reason of a REJECT (DESIGN CHOICE, log entry 8). -/
def Verdict.bytes (v : Verdict) : List Byte :=
  match v with
  | .reject why => be1 v.kindCode ++ be1 why.code
  | .accept => be1 v.kindCode
  | .acceptReview => be1 v.kindCode
  | .cleared => be1 v.kindCode

/-- A value of a buffer, present until the buffer is FREE (R134). -/
def SheetBuffer.held (b : SheetBuffer) (n : Nat) : Option Nat := if b.state = .free then none else some n

/-- A buffer in an answer (R144). -/
def SheetBuffer.bytes (b : SheetBuffer) : List Byte :=
  be1 b.state.code ++ beOpt be1 (b.held b.number) ++ beOpt be3 (b.held b.serial) ++ beOpt be1 (b.held b.page) ++
  beOpt be1 (b.held b.rows.length) ++ beOpt (fun f => be1 (SheetForm.code f)) b.form ++ beOpt Verdict.bytes b.verdict

/-- The last reject in an answer, in the order of R134. -/
def LastReject.bytes (r : LastReject) : List Byte :=
  be1 r.number ++ be3 r.serial ++ be1 r.page ++ be1 r.reason.code ++ be3 r.time

/-- The values of READ_INTAKE (R144). The level of SHEET_READY is 1 for asserted: R172 codes no level; a set flag is sent
as 1 (DESIGN CHOICE, log entry 8). -/
def State.intakeBytes (s : State) : List Byte :=
  be1 s.intake.receive.code ++ beFlag s.intake.sheetReady ++ beFlag s.intake.resetOwed ++ be1 s.intake.nextNumber ++
  beOpt LastReject.bytes s.intake.lastReject ++ s.intake.buffers.toList.flatMap SheetBuffer.bytes ++
  beList (fun (b : Fin 4) => be1 b.val) s.intake.order ++ beFlag s.hand.isSome

/-- READ_INTAKE (R144). -/
def readIntake : Owner := fun s => okWith s.intakeBytes s

/-! ### The rows -/

/-- READ_INTAKE (R144). -/
def execReadIntake (s : State) : Host.Outcome State Fault Refusal := requestRow .readIntake readIntake s

/-- SHEET_BEGIN (R136). -/
def execSheetBegin (serial page c1 c2 c3 c4 : Nat) (s : State) : Host.Outcome State Fault Refusal :=
  whileRunning (sheetBegin serial page c1 c2 c3 c4) s

/-- ROW (R137). -/
def execRow (n a b c d e : Nat) (s : State) : Host.Outcome State Fault Refusal :=
  whileRunning (sheetRow n ⟨a, b, c, d, e⟩) s

/-- SHEET_END (R137). -/
def execSheetEnd (count : Nat) (s : State) : Host.Outcome State Fault Refusal := whileRunning (sheetEnd count) s

/-- SCANNER_BAD_FRAME (R137, R139). -/
def execScannerBadFrame (s : State) : Host.Outcome State Fault Refusal :=
  whileRunning (scannerFrame badScannerFrame) s

/-- SHEET_GAP_TIMEOUT (R138). -/
def execSheetGapTimeout (s : State) : Host.Outcome State Fault Refusal := whileRunning sheetGapTimeout s

/-- BEGIN_ANSWER_SENT (R141). -/
def execBeginAnswerSent (s : State) : Host.Outcome State Fault Refusal := whileRunning beginAnswerSent s

/-- VERDICT_SENT (R141). -/
def execVerdictSent (s : State) : Host.Outcome State Fault Refusal := whileRunning verdictSent s

/-- PORT_RESET_SENT (R135). -/
def execPortResetSent (s : State) : Host.Outcome State Fault Refusal := whileRunning portResetSent s

end Sys2Proof.Machine
end

