-- ==== Sys2Proof/Machine/Marking.lean ====
section
/-! DEFINITION. Chapter 9: the mark engine: reading the bubbles (R148 to R151), scoring a page (R152, R153), the
completion of a sheet (R154), the result (R155 to R158), and the requests REMARK and READ_RESULT. -/

namespace Sys2Proof.Machine

/-! ### Reading the bubbles -/

/-- The paper base of a sheet (R148). -/
def RefCells.base (c : RefCells) : Nat := (c.c1 + c.c2 + c.c3 + c.c4) / 4

/-- The adjusted darkness of the five bubbles of a row (R148): natural subtraction is 0 below the base. -/
def RowReading.adjusted (base : Nat) (r : RowReading) : Vector Nat 5 :=
  #v[r.a - base, r.b - base, r.c - base, r.d - base, r.e - base]

/-- The classes of a bubble (R149). -/
inductive BubbleClass where
  | filled | faint | empty
  deriving DecidableEq, Repr

/-- The class of an adjusted darkness (R149). -/
def classOf (key : KeyHeader) (d : Nat) : BubbleClass :=
  if key.tf ≤ d then .filled else if key.te ≤ d then .faint else .empty

/-- The response to a question (R150); option A is 0. -/
inductive Response where
  | option (o : Fin 5)
  | multiple
  | ambiguous
  | blank
  deriving DecidableEq, Repr

/-- The five options A..E. -/
def five : List (Fin 5) := [0, 1, 2, 3, 4]

/-- The options of a row whose bubbles are of a class. -/
def optionsOf (key : KeyHeader) (d : Vector Nat 5) (cls : BubbleClass) : List (Fin 5) :=
  five.filter (fun o => classOf key d[o] == cls)

/-- The largest adjusted darkness among some options. -/
def darkest (d : Vector Nat 5) (os : List (Fin 5)) : Nat := os.foldl (fun m o => max m d[o]) 0

/-- The response resolved from the adjusted darkness of a row (R150). -/
def resolveRow (key : KeyHeader) (d : Vector Nat 5) : Response :=
  match optionsOf key d .filled, optionsOf key d .faint with
  | [], [] => .blank
  | [], _ :: _ => .ambiguous
  | [o], [] => .option o
  | [o], f :: fs => if key.margin + darkest d (f :: fs) ≤ d[o] then .option o else .ambiguous
  | _ :: _ :: _, _ => .multiple

/-! ### Scoring a page (R151 to R153) -/

/-- The question that row i of page p carries (R151). -/
def questionOf (p i : Nat) : Nat := Config.sheetRows * (p - 1) + i

/-- What the mark engine has formed of a page: the section sums, the review list with its overflow flag, and the
number of AMBIGUOUS questions (R152, R153). -/
structure PageTally where
  sums : Vector Int 4
  review : List Nat
  overflow : Bool
  ambiguous : Nat
  deriving DecidableEq, Repr

/-- A page of which nothing has been scored. -/
def emptyTally : PageTally := { sums := Vector.replicate 4 0, review := [], overflow := false, ambiguous := 0 }

/-- A score is added to the sum of its section (R153). -/
def PageTally.add (t : PageTally) (k : Fin 4) (score : Int) : PageTally :=
  { t with sums := t.sums.set k (t.sums[k] + score) }

/-- An AMBIGUOUS question joins the review: it is listed while fewer than 8 are, and sets the overflow flag
otherwise (R152). -/
def PageTally.addReview (t : PageTally) (q : Nat) : PageTally :=
  if t.review.length < 8 then { t with review := t.review ++ [q], ambiguous := t.ambiguous + 1 }
  else { t with overflow := true, ambiguous := t.ambiguous + 1 }

/-- A question is scored from its key entry and its response (R152). -/
def PageTally.score (t : PageTally) (q : Nat) (e : KeyEntry) (r : Response) : PageTally :=
  match e, r with
  | .void, _ => t
  | .answer acc w p k, .option o => if acc.getLsbD o.val then t.add k w else t.add k (-(p : Int))
  | .answer _ _ p k, .multiple => t.add k (-(p : Int))
  | .answer _ _ _ _, .blank => t
  | .answer _ _ _ _, .ambiguous => t.addReview q

/-- One row is resolved and scored where its question is one of 1..Q (R151). -/
def PageTally.row (v : KeySlot) (base page i : Nat) (r : RowReading) (t : PageTally) : PageTally :=
  if v.header.q < questionOf page i then t
  else
    match tableFind v.entries (questionOf page i) with
    | none => t
    | some e => t.score (questionOf page i) e (resolveRow v.header (r.adjusted base))

/-- The rows of a page from row i on, in order. -/
def tallyRows (v : KeySlot) (base page : Nat) : (i : Nat) → List RowReading → PageTally → PageTally
  | _, [], t => t
  | i, r :: rest, t => tallyRows v base page (i + 1) rest (t.row v base page i r)

/-- What the mark engine computes of a sheet from its buffer and the key of its sitting (R148 to R153). -/
def tallyPage (v : KeySlot) (b : SheetBuffer) (page : Nat) : PageTally :=
  tallyRows v b.cells.base page 1 b.rows emptyTally

/-- The sheet result of a page (R153). -/
def PageTally.sheetResult (t : PageTally) : SheetResult :=
  { sums := t.sums, review := t.review, overflow := t.overflow }

/-! ### The result (R155 to R158) -/

/-- The section score: the accumulated sum within 0..C_k (R156). -/
def sectionScore (sum : Int) (cap : Nat) : Nat := min sum.toNat cap

/-- The sum of the four section scores (R156). -/
def scoreTotal (h : KeyHeader) (a : Accumulator) : Nat :=
  sectionScore a.sums[0] h.caps[0] + sectionScore a.sums[1] h.caps[1] + sectionScore a.sums[2] h.caps[2] +
    sectionScore a.sums[3] h.caps[3]

/-- The per-mille: rounded to the nearest, halves up, and 0 where Smax is 0 (R157). -/
def perMilleOf (total smax : Nat) : Nat := if smax = 0 then 0 else (2000 * total + smax) / (2 * smax)

/-- The band: the number of boundaries at or below the per-mille (R158). -/
def bandOf (bounds : Vector Nat 7) (perMille : Nat) : Nat :=
  (bounds.toList.filter (fun g => decide (g ≤ perMille))).length

/-- The key maximum of a sealed key (R126). -/
def KeySlot.maximum (v : KeySlot) : Nat := (v.derived.map KeyDerived.smax).getD 0

/-- The total S, 0 where Smax is 0 (R156, R157). -/
def totalOf (v : KeySlot) (a : Accumulator) : Nat := if v.maximum = 0 then 0 else scoreTotal v.header a

/-- The result formed from an accumulator and a released key (R155). -/
def formResult (v : KeySlot) (a : Accumulator) : ResultRecord :=
  { total := totalOf v a, smax := v.maximum, perMille := perMilleOf (totalOf v a) v.maximum,
    band := bandOf v.header.bounds (perMilleOf (totalOf v a) v.maximum), noMax := v.maximum == 0,
    review := decide (0 < a.reviewCount) }

/-! ### Completion (R154) -/

/-- The set of the pages 1..P (R155). -/
def allPages (p : Nat) : PageSet := BitVec.ofNat 5 (2 ^ (p + 1) - 2)

/-- The accumulator takes a page (R154, step 2). -/
def Accumulator.takePage (a : Accumulator) (page : Nat) (t : PageTally) : Accumulator :=
  { pages := a.pages ||| BitVec.ofNat 5 (2 ^ page),
    sums := #v[a.sums[0] + t.sums[0], a.sums[1] + t.sums[1], a.sums[2] + t.sums[2], a.sums[3] + t.sums[3]],
    reviewCount := a.reviewCount + t.ambiguous }

/-- Step 1 of R154: the script is MARKED with its page and sheet result. -/
def markScript (h : SheetInHand) (t : PageTally) (s : State) : State :=
  match s.script h.serial with
  | none => s
  | some x => s.setScript h.serial { x with state := .marked, page := some h.page, result := some t.sheetResult }

/-- Steps 2 and 3 of R154: the accumulator takes the page, and the result is formed where the pages are whole. -/
def markCandidate (h : SheetInHand) (t : PageTally) (s : State) : State :=
  match s.cand h.slot with
  | none => s
  | some c =>
      let a := c.acc.takePage h.page t
      if a.pages = allPages s.keys[h.sitting].pageCountOf then
        (s.setCand h.slot { c with acc := a, result := some (formResult s.keys[h.sitting] a) }).raise .marking
      else s.setCand h.slot { c with acc := a }

/-- Step 4 of R154: the buffer is DECIDED with ACCEPT, or with ACCEPT_REVIEW and its cause. -/
def decideMarked (h : SheetInHand) (t : PageTally) (s : State) : State :=
  match t.review with
  | [] => s.setBuffer h.buffer (s.intake.buffers[h.buffer].withVerdict .accept)
  | _ :: _ => (s.setBuffer h.buffer (s.intake.buffers[h.buffer].withVerdict .acceptReview)).raise .marking

/-- The completion of the sheet in hand (R154); the intake then looks at its next sheet (R140, R141). -/
def completeMarking (h : SheetInHand) (s : State) : State :=
  let t := tallyPage s.keys[h.sitting] s.intake.buffers[h.buffer] h.page
  intakeChanged { decideMarked h t (markCandidate h t (markScript h t s)) with hand := none }

/-- MARKING_COMPLETE: without a sheet in hand there is no marking to complete (R154). -/
def markingComplete (s : State) : State :=
  match s.hand with
  | none => s
  | some h => completeMarking h s

/-! ### REMARK (R160) and READ_RESULT (R161) -/

/-- A MARKED script of the record returns to COLLECTED without page and sheet result (R160). -/
def Script.remarked (j : Nat) (x : Script) : Script :=
  if x.slot = j ∧ x.state = .marked then { x with state := .collected, page := none, result := none } else x

/-- The bound scripts of a record in a state. -/
def State.boundIn (s : State) (j : Nat) (st : ScriptState) : Table Script :=
  (s.boundScripts j).filter (fun x => x.2.state == st)

/-- REMARK (R160). -/
def remark (n k : Nat) : Owner := fun s =>
  match s.resolve n k with
  | .error st => refuse st s
  | .ok (j, c) =>
      if !(s.boundIn j .marking).isEmpty then refuse .busy s
      else
        okWith (be1 (s.boundIn j .marked).length)
          ((s.mapScripts (Script.remarked j)).setCand j { c with acc := emptyAccumulator, result := none })

/-- What READ_RESULT gives of a MARKED script (R161): serial, page and sheet result. The last two stand without a presence
byte, a MARKED script always having both (DESIGN CHOICE, log entry 8). -/
def markedBytes (x : Nat × Script) : List Byte :=
  be3 x.1 ++ be1 (x.2.page.getD 0) ++
  (match x.2.result with
   | some r => r.bytes
   | none => [])

/-- The page count of a key that is SEALED or RELEASED; otherwise it is absent (R161). -/
def KeySlot.sealedPages (v : KeySlot) : Option Nat :=
  match v.state with
  | .empty => none
  | .loading => none
  | .sealed_ => some v.pageCountOf
  | .released => some v.pageCountOf

/-- The values of READ_RESULT (R161). -/
def State.resultBytes (s : State) (j : Nat) (c : Candidate) : List Byte :=
  be1 c.state.code ++ c.acc.bytes ++ beOpt ResultRecord.bytes c.result ++ beList markedBytes (s.boundIn j .marked) ++
  beOpt be1 s.keys[c.sitting].sealedPages

/-- READ_RESULT (R161). -/
def readResult (n k : Nat) : Owner := fun s =>
  match s.resolve n k with
  | .error st => refuse st s
  | .ok (j, c) => okWith (s.resultBytes j c) s

/-! ### The rows -/

/-- MARKING_COMPLETE (R154). -/
def execMarkingComplete (s : State) : Host.Outcome State Fault Refusal := whileRunning markingComplete s

/-- REMARK (R160). -/
def execRemark (n k : Nat) (s : State) : Host.Outcome State Fault Refusal :=
  requestRow (.remark n k) (remark n k) s

/-- READ_RESULT (R161). -/
def execReadResult (n k : Nat) (s : State) : Host.Outcome State Fault Refusal :=
  requestRow (.readResult n k) (readResult n k) s

end Sys2Proof.Machine
end

