-- ==== Sys2Proof/Machine/HallSecond.lean ====
section
/-! DEFINITION. The row HALL_SECOND (R21): the hall clock, the sittings (R27 to R31), the personal time unit (R66 to
R69), the day end (R38, R81) and the TIME that every running segment then owes (R85). -/

namespace Sys2Proof.Machine

/-- The hall time after a hall second (R21). -/
def nextHallTime (t : Nat) : Nat := if t < Config.lastSecond then t + 1 else t

/-- A record that the personal time unit takes in a hall second: ACTIVE or RESTING, in a sitting that was running
before the second (Section 4.2; R70: a record activated at this second is not taken again). -/
def Candidate.takesSecond (before : Vector Sitting 8) (c : Candidate) : Bool :=
  (c.state == .active || c.state == .resting) && before[c.sitting].running

/-- The records that take a hall second, in roll slot order (DESIGN CHOICE, log entry 9). -/
def State.takersOf (s : State) (before : Vector Sitting 8) : List Nat := s.slotsWhere (Candidate.takesSecond before)

/-- Step 1 of R21: the hall time advances. -/
def advanceClock (s : State) : State := { s with hallTime := nextHallTime s.hallTime }

/-- The sittings are brought up to date for the second (R21, R27 to R30). -/
def sittingsSecond (moved : Bool) (s : State) : State := takeInTurn eight (sittingSecond moved) s

/-- The personal time unit takes an ordinary hall second (R66 to R69). -/
def personalSecond (before : Vector Sitting 8) (s : State) : State :=
  takeInTurn (s.takersOf before) (recordSecond before) s

/-- The day end in the sittings and then in the records (R38, R81). -/
def dayEnd (before : Vector Sitting 8) (s : State) : State :=
  let s1 := takeInTurn eight dayEndSitting s
  takeInTurn (s1.takersOf before) (recordDayEnd before) s1

/-- A running segment owes a TIME (R85). -/
def Segment.owesTime (g : Segment) : Segment :=
  match g.line with
  | .disabled => g
  | .master | .awaiting _ => { g with timeDue := true }

/-- Every segment that is not DISABLED owes a TIME, and one without an exchange in progress chooses (R85, R87). -/
def broadcastTime (m : Fin 4) (s : State) : State := kickSegment m (s.setSegment m s.segments[m].owesTime)

/-- A hall second: it is day end where the clock moves from 86 398 to 86 399 (R21, R38). -/
def hallSecond (s : State) : State :=
  let s1 := sittingsSecond (decide (s.hallTime < Config.lastSecond)) (advanceClock s)
  takeInTurn four broadcastTime
    (if s.hallTime + 1 = Config.lastSecond then dayEnd s.sittings s1 else personalSecond s.sittings s1)

/-- HALL_SECOND (R21). -/
def execHallSecond (s : State) : Host.Outcome State Fault Refusal := whileRunning hallSecond s

end Sys2Proof.Machine
end

