-- ==== Sys2Proof/Machine/Attention.lean ====
section
/-! DEFINITION. Chapter 10: the attention unit (R174, R175), the fault record (R177), the traffic clear (R101, R145,
R180) and IDENTIFY (R181). -/

namespace Sys2Proof.Machine

/-! ### The attention unit -/

/-- A set of groups in one byte, group k in bit k (R172). -/
def groupSet (test : Group → Bool) (gs : Vector Group 6) : Byte :=
  (if test gs[0] then 1 else 0) ||| (if test gs[1] then 2 else 0) ||| (if test gs[2] then 4 else 0) |||
  (if test gs[3] then 8 else 0) ||| (if test gs[4] then 16 else 0) ||| (if test gs[5] then 32 else 0)

/-- The values of READ_ATTENTION (R174). -/
def State.attentionBytes (s : State) : List Byte :=
  [groupSet Group.pending s.attention, groupSet Group.enabled s.attention] ++
  s.attention.toList.flatMap (fun g => be1 g.level ++ be1 g.count) ++
  beOpt (fun (i : Fin 6) => be1 i.val) (leadingGroup s.attention)

/-- READ_ATTENTION (R174). -/
def readAttention : Owner := fun s => okWith s.attentionBytes s

/-- A set of groups that names a group above 5 (R175). -/
def namesNoGroup (set : Byte) : Bool := decide (64 ≤ set.toNat)

/-- A group as it is cleared (R175). -/
def Group.cleared (g : Group) : Group := { g with pending := false, count := 0 }

/-- The groups with the named ones cleared (R175). -/
def clearGroups (set : Byte) (gs : Vector Group 6) : Vector Group 6 :=
  Vector.ofFn (fun (i : Fin 6) => if set.getLsbD i.val then gs[i].cleared else gs[i])

/-- The counts that the named groups hold, in group order (R175). -/
def countsOf (set : Byte) (gs : Vector Group 6) : List Byte :=
  (six.filter (fun i => set.getLsbD i.val)).flatMap (fun i => be1 gs[i].count)

/-- CLEAR_ATTENTION (R175). -/
def clearAttention (set : Byte) : Owner := fun s =>
  if namesNoGroup set then refuse .range s
  else okWith (countsOf set s.attention) { s with attention := clearGroups set s.attention }

/-- The groups with every enable and level written (R175). -/
def writeGroups (enabled : Byte) (levels : Vector Nat 6) (gs : Vector Group 6) : Vector Group 6 :=
  Vector.ofFn (fun (i : Fin 6) => { gs[i] with enabled := enabled.getLsbD i.val, level := levels[i] })

/-- SET_ATTENTION (R175). -/
def setAttention (enabled : Byte) (levels : Vector Nat 6) : Owner := fun s =>
  if namesNoGroup enabled || levels.any (fun l => decide (7 < l)) then refuse .range s
  else okWith [] { s with attention := writeGroups enabled levels s.attention }

/-! ### The fault record -/

/-- The detail of a fault in an answer; the link faults have none (R176). -/
def FaultDetail.bytes : FaultDetail → List Byte
  | .unit m a => 1 :: (be1 m.val ++ be1 a)
  | .serial d => 1 :: be3 d
  | .none => [0]

/-- The fault record in an answer, in the order of R176: valid, class, detail, hall time and more. -/
def FaultRecord.bytes (r : FaultRecord) : List Byte :=
  match r.entry with
  | some e => beFlag true ++ (1 :: be1 e.cls.code) ++ e.detail.bytes ++ (1 :: be3 e.time) ++ beFlag r.more
  | none => beFlag false ++ [0] ++ [0] ++ [0] ++ beFlag r.more

/-- READ_FAULT (R177). -/
def readFault : Owner := fun s => okWith s.faultRecord.bytes s

/-- CLEAR_FAULT (R177). -/
def clearFault : Owner := fun s => okWith s.faultRecord.bytes { s with faultRecord := ⟨none, false⟩ }

/-! ### The traffic clear -/

/-- A seat whose desk address has an entry in a directed queue of its room (R101). -/
def Seat.awaitsShow (m : Fin 4) (q : List ShowEntry) (v : Seat) : Bool :=
  match v.binds with
  | some (room, a) => room == m && q.any (fun e => e.address == a)
  | none => false

/-- A seat after the queue of a segment is emptied (R101). -/
def Seat.clearedQueue (m : Fin 4) (q : List ShowEntry) (v : Seat) : Seat :=
  if v.awaitsShow m q then { v with stale := true } else v

/-- The number of seats that lose an entry with the queue of a segment (R180). -/
def State.staleCount (s : State) (m : Fin 4) : Nat :=
  (s.seats.filter (fun x => x.2.awaitsShow m s.segments[m].queue)).length

/-- A segment's part of a traffic clear (R101). -/
def clearSegment (m : Fin 4) (s : State) : State :=
  kickSegment m
    ({ s with seats := s.seats.map (fun (x : Nat × Seat) => (x.1, x.2.clearedQueue m s.segments[m].queue)) }.setSegment m
      { s.segments[m].abandoned with queue := [] })

/-- CLEAR_TRAFFIC (R180). The stale count is that of the seats whose flag R101 sets (DEDUCED, log entry 10), in two bytes
(DESIGN CHOICE, log entry 8). -/
def clearTraffic : Owner := fun s =>
  okWith (be1 s.intake.clearedCount ++ be2 (s.staleCount 0 + s.staleCount 1 + s.staleCount 2 + s.staleCount 3))
    (clearIntake (takeInTurn four clearSegment s))

/-! ### IDENTIFY -/

/-- IDENTIFY (R181). -/
def identify : Owner := fun s =>
  okWith (be2 Config.partCode ++ be1 Config.revision ++ be1 s.resetCause.code) s

/-! ### The rows -/

/-- READ_ATTENTION (R174). -/
def execReadAttention (s : State) : Host.Outcome State Fault Refusal := requestRow .readAttention readAttention s

/-- CLEAR_ATTENTION (R175). -/
def execClearAttention (set : Byte) (s : State) : Host.Outcome State Fault Refusal :=
  requestRow (.clearAttention set) (clearAttention set) s

/-- SET_ATTENTION (R175). -/
def execSetAttention (enabled : Byte) (levels : Vector Nat 6) (s : State) : Host.Outcome State Fault Refusal :=
  requestRow (.setAttention enabled levels) (setAttention enabled levels) s

/-- READ_FAULT (R177). -/
def execReadFault (s : State) : Host.Outcome State Fault Refusal := requestRow .readFault readFault s

/-- CLEAR_FAULT (R177). -/
def execClearFault (s : State) : Host.Outcome State Fault Refusal := requestRow .clearFault clearFault s

/-- CLEAR_TRAFFIC (R180). -/
def execClearTraffic (s : State) : Host.Outcome State Fault Refusal := requestRow .clearTraffic clearTraffic s

/-- IDENTIFY (R181). -/
def execIdentify (s : State) : Host.Outcome State Fault Refusal := requestRow .identify identify s

end Sys2Proof.Machine
end

