-- ==== Sys2Proof/Machine/Link.lean ====
section
/-! DEFINITION. Chapter 10: the station link port: the frame receiver (R163), the assembly of a request (R164, R165),
failed frames (R166), the assembly timer (R167), a break (R169), and the carrying out of a complete assembly
(R168, R170). -/

namespace Sys2Proof.Machine

/-! ### The owners of the requests (Section 10.8) -/

/-- The owner's rule of a request; an event has none. -/
def ownerRule : Instr → Option Owner
  | .enrol n k a r f => some (enrol n k a r f)
  | .amend n k a r f => some (amend n k a r f)
  | .withdraw n k => some (withdraw n k)
  | .retire n k => some (retire n k)
  | .readCandidate n k => some (readCandidate n k)
  | .readSlot j => some (readSlot j)
  | .readChain n => some (readChain n)
  | .readRoll => some readRoll
  | .setClock t => some (setClock t)
  | .readClock => some readClock
  | .schedule k t rooms => some (schedule k t rooms)
  | .retireSitting k => some (retireSitting k)
  | .hold k => some (setSittingHold true k)
  | .resume k => some (setSittingHold false k)
  | .extend k d => some (extend k d)
  | .readSitting k => some (readSitting k)
  | .defineSeat i m r c d f => some (defineSeat i m r c d f)
  | .seatState i st => some (setSeatState i st)
  | .setRoom m en sep fill => some (setRoomSettings m en sep fill)
  | .admitFor n k => some (admitFor n k)
  | .place n k i => some (place n k i)
  | .unplace n k => some (unplace n k)
  | .move n k i => some (move n k i)
  | .readSeat i => some (readSeat i)
  | .readRoom m => some (readRoom m)
  | .restFor n k b => some (restFor n k b)
  | .submitFor n k => some (submitFor n k)
  | .ackHand i => some (ackHand i)
  | .resetRoom m => some (resetRoom m)
  | .readSegment m => some (readSegment m)
  | .issue n k d => some (issue n k d)
  | .void d => some (voidScript d)
  | .handOver d => some (handOver d)
  | .handOverSitting k => some (handOverSitting k)
  | .readScript d => some (readScript d)
  | .readScriptAt p => some (readScriptAt p)
  | .scriptsOf n k => some (scriptsOf n k)
  | .readCustody => some readCustody
  | .keyOpen k h => some (keyOpen k h)
  | .keyEntries k f es => some (keyEntries k f es)
  | .keySeal k => some (keySeal k)
  | .keyDiscard k => some (keyDiscard k)
  | .readKey k => some (readKey k)
  | .readKeyEntries k f c => some (readKeyEntries k f c)
  | .readIntake => some readIntake
  | .remark n k => some (remark n k)
  | .readResult n k => some (readResult n k)
  | .readAttention => some readAttention
  | .clearAttention g => some (clearAttention g)
  | .setAttention e ls => some (setAttention e ls)
  | .readFault => some readFault
  | .clearFault => some clearFault
  | .clearTraffic => some clearTraffic
  | .identify => some identify
  | .hallSecond => none
  | .hallHoldEdge _ => none
  | .holdFilterChange => none
  | .powerUp => none
  | .powerUpEnd _ => none
  | .hallReset => none
  | .hallResetEnd _ => none
  | .timeSent _ _ => none
  | .pollSent _ _ => none
  | .showSent _ _ => none
  | .deskAnswer _ _ _ => none
  | .answerWindowTimeout _ _ => none
  | .sheetBegin _ _ _ _ _ _ => none
  | .row _ _ _ _ _ _ => none
  | .sheetEnd _ => none
  | .scannerBadFrame => none
  | .sheetGapTimeout => none
  | .beginAnswerSent => none
  | .verdictSent => none
  | .portResetSent => none
  | .markingComplete => none
  | .stationFrame _ => none
  | .checkFail => none
  | .frameSilence => none
  | .huntingQuiet => none
  | .lineBreak => none
  | .assemblyTimeout => none
  | .answerSent => none

/-! ### Carrying out a complete assembly (R168, R170) -/

/-- The port answers a complete request itself, without a link flag (R170, steps 1 and 2; R168, R171). -/
def ownAnswer (st : Status) (s : State) : State := s.setPort (s.port.place ⟨st, false, []⟩)

/-- The stage of a complete assembly is carried out (R170, steps 1 to 4). -/
def carryOut (s : State) : State :=
  match decodeRequest s.port.stage with
  | .unknown => ownAnswer .unknown s
  | .malformed => ownAnswer .malformed s
  | .request i =>
      match ownerRule i with
      | some op => handToOwner op s
      | none => ownAnswer .unknown s

/-- An assembly is complete: the timer stops and the port is EXECUTING; an overflow is answered TOO_LONG with the
stage emptied, and any other request is carried out (R164, R168, R170). -/
def completeAssembly (s : State) : State :=
  if s.port.overflow then
    ownAnswer .tooLong (s.setPort { s.port with state := .executing, timer := false, stage := [] })
  else carryOut (s.setPort { s.port with state := .executing, timer := false })

/-! ### A received frame (R164, R165, R170) -/

/-- A new assembly has begun, with an empty stage (R164). -/
def Port.begin_ (p : Port) : Port :=
  { p with state := .assembling, stage := [], overflow := false, timer := true, discard := false }

/-- A payload is appended to the stage; bytes that would take it past 240 are not stored and set the overflow flag
(R164). -/
def Port.append (p : Port) (payload : List Byte) : Port :=
  { p with
      stage := (p.stage ++ payload).take Config.stageBytes,
      overflow := p.overflow || decide (Config.stageBytes < p.stage.length + payload.length) }

/-- A frame's payload joins the assembly, which LAST completes (R164). -/
def assemble (last : Bool) (payload : List Byte) (s : State) : State :=
  if last then completeAssembly (s.setPort (s.port.append payload)) else s.setPort (s.port.append payload)

/-- A received frame without FIRST outside an assembly (R165). -/
def strayFrame (last : Bool) (s : State) : State :=
  if s.port.discard then (if last then s.setPort { s.port with discard := false } else s)
  else s.setPort (s.port.linkAnswer .sequence)

/-- A received frame with FIRST in EXECUTING: BUSY, and the discard flag is set; a frame that carries LAST leaves it
clear (R165, R170). -/
def busyFrame (last : Bool) (s : State) : State :=
  s.setPort { s.port.linkAnswer .busy with discard := !last }

/-- A received frame, in each state of the port (R164, R165, R170). -/
def receivedFrame (first last : Bool) (payload : List Byte) (s : State) : State :=
  match s.port.state, first with
  | .idle, true => assemble last payload (s.setPort s.port.begin_)
  | .assembling, true => assemble last payload (s.setPort s.port.begin_)
  | .executing, true => busyFrame last s
  | .assembling, false => assemble last payload s
  | .idle, false => strayFrame last s
  | .executing, false => strayFrame last s

/-! ### Failed frames, the assembly timer and a break (R166, R167, R169) -/

/-- The assembly in progress, if there is one, is dropped: the timer stops and the port goes to IDLE. -/
def Port.dropAssembly (p : Port) : Port :=
  match p.state with
  | .assembling => { p with state := .idle, stage := [], overflow := false, timer := false }
  | .idle => p
  | .executing => p

/-- A failed frame (R166). -/
def failedFrame (s : State) : State :=
  (s.setPort { s.port.dropAssembly.linkAnswer .checkFail with discard := false }).reportFault .linkCheck .none

/-- A receiver in the middle of a frame, as the assembly timer expires (R167). -/
def Receiver.abandoned : Receiver → Receiver
  | .inFrame _ => .hunting
  | .waiting => .waiting
  | .hunting => .hunting

/-- ASSEMBLY_TIMEOUT: the assembly timer, where it runs, expires (R167). -/
def assemblyTimeout (s : State) : State :=
  if s.port.timer then
    (s.setPort { s.port.dropAssembly.linkAnswer .timeout with
      timer := false, receiver := s.port.receiver.abandoned }).reportFault .linkTimeout .none
  else s

/-- LINE_BREAK (R169). -/
def lineBreak (s : State) : State :=
  s.setPort { s.port.dropAssembly with receiver := .waiting, timer := false, discard := false }

/-! ### The frame receiver (R163) -/

/-- Whether a whole frame is received or failed: its control byte has no bit beyond the three flags, and its check
byte is right where CHECK is set (R163). -/
def wholeFrame (control : Byte) (payload checked : List Byte) (s : State) : State :=
  if 8 ≤ control.toNat then failedFrame s
  else if control.getLsbD 2 && !(crc8 checked == 0) then failedFrame s
  else receivedFrame (control.getLsbD 0) (control.getLsbD 1) payload s

/-- The receiver takes a state. -/
def setReceiver (r : Receiver) (s : State) : State := s.setPort { s.port with receiver := r }

/-- The number of bytes of a frame, from its control and length bytes. -/
def frameLength (control length : Byte) : Nat := 2 + length.toNat + (control.getLsbD 2).toNat

/-- The receiver with the bytes of the frame that have arrived, the last of them just now (R163). -/
def frameBytes (got : List Byte) (s : State) : State :=
  match got with
  | control :: length :: rest =>
      if Config.framePayload < length.toNat then setReceiver .hunting (failedFrame s)
      else if got.length = frameLength control length then
        wholeFrame control (rest.take length.toNat) got (setReceiver .waiting s)
      else setReceiver (.inFrame got) s
  | _ => setReceiver (.inFrame got) s

/-- A byte arrives on the station link (R163). -/
def receiveByte (b : Byte) (s : State) : State :=
  match s.port.receiver with
  | .waiting => frameBytes [b] s
  | .inFrame got => frameBytes (got ++ [b]) s
  | .hunting => s

/-- STATION_FRAME: bytes arrive on the station link (R163, R164; DESIGN CHOICE, log entry 25). -/
def stationFrame (bytes : List Byte) (s : State) : State := takeInTurn bytes receiveByte s

/-- The receiver after a failed frame: WAITING, or HUNTING where it hunts (R163). -/
def Receiver.ended : Receiver → Receiver
  | .waiting => .waiting
  | .inFrame _ => .waiting
  | .hunting => .hunting

/-- CHECK_FAIL: a frame has failed (R163, R166; DESIGN CHOICE, log entry 25). -/
def checkFail (s : State) : State := failedFrame (setReceiver s.port.receiver.ended s)

/-- FRAME_SILENCE: 100 ms of silence inside a frame abandon it (R163). -/
def frameSilence (s : State) : State :=
  match s.port.receiver with
  | .inFrame _ => setReceiver .waiting s
  | .waiting => s
  | .hunting => s

/-- HUNTING_QUIET: 100 ms of quiet end the hunting (R163). -/
def huntingQuiet (s : State) : State :=
  match s.port.receiver with
  | .hunting => setReceiver .waiting s
  | .waiting => s
  | .inFrame _ => s

/-! ### The rows -/

/-- STATION_FRAME (R163, R164). -/
def execStationFrame (bytes : List Byte) (s : State) : Host.Outcome State Fault Refusal :=
  whileRunning (stationFrame bytes) s

/-- CHECK_FAIL (R166). -/
def execCheckFail (s : State) : Host.Outcome State Fault Refusal := whileRunning checkFail s

/-- FRAME_SILENCE (R163). -/
def execFrameSilence (s : State) : Host.Outcome State Fault Refusal := whileRunning frameSilence s

/-- HUNTING_QUIET (R163). -/
def execHuntingQuiet (s : State) : Host.Outcome State Fault Refusal := whileRunning huntingQuiet s

/-- LINE_BREAK (R169). -/
def execLineBreak (s : State) : Host.Outcome State Fault Refusal := whileRunning lineBreak s

/-- ASSEMBLY_TIMEOUT (R167). -/
def execAssemblyTimeout (s : State) : Host.Outcome State Fault Refusal := whileRunning assemblyTimeout s

/-- ANSWER_SENT: the answer frame that is going out has gone out (R170, R171; DESIGN CHOICE, log entry 5). -/
def execAnswerSent (s : State) : Host.Outcome State Fault Refusal :=
  whileRunning (fun t => t.setPort t.port.answerSent) s

end Sys2Proof.Machine
end

