-- ==== Sys2Proof/Machine/Resets.lean ====
section
/-! DEFINITION. Power-up and hall reset (R178, R179): the values that every block takes while the part is held and
as the reset ends (R20, R41, R63, R82, R102, R120, R132, R146, R162, R182), and the four reset rows. -/

namespace Sys2Proof.Machine

/-- A segment as a reset leaves it; the level of the DOOR_CALL wire is the post's (R102). -/
def Segment.afterReset (g : Segment) : Segment := { Segment.initial with doorWire := g.doorWire }

/-- Every block at the values that a power-up and a hall reset share; the fault record, the reset cause and the
levels of the pins are no part of them. -/
def blocksReset (s : State) : State :=
  { s with
      hallTime := 0,
      holdFilter := { s.holdFilter with filtered := false, waiting := false },
      sittings := Vector.replicate 8 Sitting.unscheduledRecord, roll := [], dirRoot := [], dirPages := [],
      seats := [], rooms := Vector.replicate 4 RoomRecord.initial,
      segments := s.segments.map Segment.afterReset, scripts := [], lastCustodyRefusal := none,
      keys := Vector.replicate 8 KeySlot.emptySlot, intake := Intake.initial, hand := none, port := Port.initial,
      attention := Vector.replicate 6 Group.initial }

/-- The part is held in a power-up (R178). -/
def holdPowerUp (s : State) : State := { blocksReset s with resetHold := .powerUp, faultRecord := ⟨none, false⟩ }

/-- The part is held in a hall reset: the fault record is kept (R179). -/
def holdHallReset (s : State) : State := { blocksReset s with resetHold := .hallReset }

/-- The hold input filter as a reset ends: the strap is sampled, the filtered level is OFF, and a raw level of ON is
a change in waiting (R33, R41; DEDUCED, log entry 23). -/
def HoldFilter.afterReset (f : HoldFilter) (holdPol : Bool) : HoldFilter :=
  { high := f.high, polarity := holdPol, filtered := false, waiting := xor f.high holdPol }

/-- A reset ends: the part runs, the strap is sampled, the cause is written and the PORT_RESET goes out (R33, R135,
R178, R179, R181; DEDUCED, log entry 26). -/
def endReset (cause : ResetCause) (holdPol : Bool) (s : State) : State :=
  { s with
      resetHold := .running, resetCause := cause, holdFilter := s.holdFilter.afterReset holdPol,
      intake := s.intake.transmit }

/-- POWER_UP: PWR_OK goes low, whatever the part is doing (R178, R179). -/
def execPowerUp (s : State) : Host.Outcome State Fault Refusal := .next (holdPowerUp s)

/-- POWER_UP_END: 10 ms after PWR_OK rises; a part that is held in no power-up has none to end (R178). -/
def execPowerUpEnd (holdPol : Bool) (s : State) : Host.Outcome State Fault Refusal :=
  match s.resetHold with
  | .powerUp => .next (endReset .powerUp holdPol s)
  | .running => .next s
  | .hallReset => .next s

/-- HALL_RESET: HALL_RST has been low for 100 µs; while PWR_OK is low it has no effect of its own (R178, R179). -/
def execHallReset (s : State) : Host.Outcome State Fault Refusal :=
  match s.resetHold with
  | .running => .next (holdHallReset s)
  | .powerUp => .next s
  | .hallReset => .next s

/-- HALL_RESET_END: HALL_RST rises; a part that is held in no hall reset has none to end (R179). -/
def execHallResetEnd (holdPol : Bool) (s : State) : Host.Outcome State Fault Refusal :=
  match s.resetHold with
  | .hallReset => .next (endReset .hallReset holdPol s)
  | .running => .next s
  | .powerUp => .next s

end Sys2Proof.Machine
end

