-- ==== Sys2Proof/Machine/Dispatch.lean ====
section
/-! DEFINITION. One arm for each command: its meaning. -/

namespace Sys2Proof.Machine

/-- The effect of a command on everything but the queue of commands. -/
def exec (i : Instr) (s : State) : Host.Outcome State Fault Refusal :=
  match i with
  | .enrol number sitting allowance rate features => Sys2Proof.Machine.execEnrol number sitting allowance rate features s
  | .amend number sitting allowance rate features => Sys2Proof.Machine.execAmend number sitting allowance rate features s
  | .withdraw number sitting => Sys2Proof.Machine.execWithdraw number sitting s
  | .retire number sitting => Sys2Proof.Machine.execRetire number sitting s
  | .readCandidate number sitting => Sys2Proof.Machine.execReadCandidate number sitting s
  | .readSlot slot => Sys2Proof.Machine.execReadSlot slot s
  | .readChain number => Sys2Proof.Machine.execReadChain number s
  | .readRoll => Sys2Proof.Machine.execReadRoll s
  | .setClock time => Sys2Proof.Machine.execSetClock time s
  | .readClock => Sys2Proof.Machine.execReadClock s
  | .schedule sitting timetable rooms => Sys2Proof.Machine.execSchedule sitting timetable rooms s
  | .retireSitting sitting => Sys2Proof.Machine.execRetireSitting sitting s
  | .hold sitting => Sys2Proof.Machine.execHold sitting s
  | .resume sitting => Sys2Proof.Machine.execResume sitting s
  | .extend sitting delta => Sys2Proof.Machine.execExtend sitting delta s
  | .readSitting sitting => Sys2Proof.Machine.execReadSitting sitting s
  | .defineSeat seat room row column desk features => Sys2Proof.Machine.execDefineSeat seat room row column desk features s
  | .seatState seat state => Sys2Proof.Machine.execSeatState seat state s
  | .setRoom room enabled separation fill => Sys2Proof.Machine.execSetRoom room enabled separation fill s
  | .admitFor number sitting => Sys2Proof.Machine.execAdmitFor number sitting s
  | .place number sitting seat => Sys2Proof.Machine.execPlace number sitting seat s
  | .unplace number sitting => Sys2Proof.Machine.execUnplace number sitting s
  | .move number sitting seat => Sys2Proof.Machine.execMove number sitting seat s
  | .readSeat seat => Sys2Proof.Machine.execReadSeat seat s
  | .readRoom room => Sys2Proof.Machine.execReadRoom room s
  | .restFor number sitting begin_ => Sys2Proof.Machine.execRestFor number sitting begin_ s
  | .submitFor number sitting => Sys2Proof.Machine.execSubmitFor number sitting s
  | .ackHand seat => Sys2Proof.Machine.execAckHand seat s
  | .resetRoom room => Sys2Proof.Machine.execResetRoom room s
  | .readSegment room => Sys2Proof.Machine.execReadSegment room s
  | .issue number sitting serial => Sys2Proof.Machine.execIssue number sitting serial s
  | .void serial => Sys2Proof.Machine.execVoid serial s
  | .handOver serial => Sys2Proof.Machine.execHandOver serial s
  | .handOverSitting sitting => Sys2Proof.Machine.execHandOverSitting sitting s
  | .readScript serial => Sys2Proof.Machine.execReadScript serial s
  | .readScriptAt position => Sys2Proof.Machine.execReadScriptAt position s
  | .scriptsOf number sitting => Sys2Proof.Machine.execScriptsOf number sitting s
  | .readCustody => Sys2Proof.Machine.execReadCustody s
  | .keyOpen sitting header => Sys2Proof.Machine.execKeyOpen sitting header s
  | .keyEntries sitting first entries => Sys2Proof.Machine.execKeyEntries sitting first entries s
  | .keySeal sitting => Sys2Proof.Machine.execKeySeal sitting s
  | .keyDiscard sitting => Sys2Proof.Machine.execKeyDiscard sitting s
  | .readKey sitting => Sys2Proof.Machine.execReadKey sitting s
  | .readKeyEntries sitting first count => Sys2Proof.Machine.execReadKeyEntries sitting first count s
  | .readIntake => Sys2Proof.Machine.execReadIntake s
  | .remark number sitting => Sys2Proof.Machine.execRemark number sitting s
  | .readResult number sitting => Sys2Proof.Machine.execReadResult number sitting s
  | .readAttention => Sys2Proof.Machine.execReadAttention s
  | .clearAttention groups => Sys2Proof.Machine.execClearAttention groups s
  | .setAttention enabled levels => Sys2Proof.Machine.execSetAttention enabled levels s
  | .readFault => Sys2Proof.Machine.execReadFault s
  | .clearFault => Sys2Proof.Machine.execClearFault s
  | .clearTraffic => Sys2Proof.Machine.execClearTraffic s
  | .identify => Sys2Proof.Machine.execIdentify s
  | .hallSecond => Sys2Proof.Machine.execHallSecond s
  | .hallHoldEdge high => Sys2Proof.Machine.execHallHoldEdge high s
  | .holdFilterChange => Sys2Proof.Machine.execHoldFilterChange s
  | .powerUp => Sys2Proof.Machine.execPowerUp s
  | .powerUpEnd holdPol => Sys2Proof.Machine.execPowerUpEnd holdPol s
  | .hallReset => Sys2Proof.Machine.execHallReset s
  | .hallResetEnd holdPol => Sys2Proof.Machine.execHallResetEnd holdPol s
  | .timeSent room door => Sys2Proof.Machine.execTimeSent room door s
  | .pollSent room door => Sys2Proof.Machine.execPollSent room door s
  | .showSent room door => Sys2Proof.Machine.execShowSent room door s
  | .deskAnswer room door frame => Sys2Proof.Machine.execDeskAnswer room door frame s
  | .answerWindowTimeout room door => Sys2Proof.Machine.execAnswerWindowTimeout room door s
  | .sheetBegin serial page c1 c2 c3 c4 => Sys2Proof.Machine.execSheetBegin serial page c1 c2 c3 c4 s
  | .row number a b c d e => Sys2Proof.Machine.execRow number a b c d e s
  | .sheetEnd count => Sys2Proof.Machine.execSheetEnd count s
  | .scannerBadFrame => Sys2Proof.Machine.execScannerBadFrame s
  | .sheetGapTimeout => Sys2Proof.Machine.execSheetGapTimeout s
  | .beginAnswerSent => Sys2Proof.Machine.execBeginAnswerSent s
  | .verdictSent => Sys2Proof.Machine.execVerdictSent s
  | .portResetSent => Sys2Proof.Machine.execPortResetSent s
  | .markingComplete => Sys2Proof.Machine.execMarkingComplete s
  | .stationFrame bytes => Sys2Proof.Machine.execStationFrame bytes s
  | .checkFail => Sys2Proof.Machine.execCheckFail s
  | .frameSilence => Sys2Proof.Machine.execFrameSilence s
  | .huntingQuiet => Sys2Proof.Machine.execHuntingQuiet s
  | .lineBreak => Sys2Proof.Machine.execLineBreak s
  | .assemblyTimeout => Sys2Proof.Machine.execAssemblyTimeout s
  | .answerSent => Sys2Proof.Machine.execAnswerSent s

end Sys2Proof.Machine
end

