-- ==== Sys2Proof/Machine/Step.lean ====
section
/-! DEFINITION. The step: the command at the front of the queue is taken and has its effect; on an empty queue the
part idles (DESIGN CHOICE, log entry 1). -/

namespace Sys2Proof.Machine

/-- One step of the HX512: the oldest waiting command is taken from the queue and has its effect. With no command
waiting nothing happens (DESIGN CHOICE, log entry 1). -/
def step (s : State) : Host.Outcome State Fault Refusal :=
  match s.pending with
  | [] => .next s
  | i :: rest => exec i { s with pending := rest }

/-- The state with the command that a table word spells put at the front of its queue; a word that spells none
changes nothing (DESIGN CHOICE, log entry 2: the opcode table gives no row any bits). -/
def State.withFetchWord (s : State) (nbits w : Nat) : State :=
  match decodeTableWord nbits w with
  | some i => { s with pending := i :: s.pending }
  | none => s

end Sys2Proof.Machine
end

