-- ==== Sys2Proof/Safety.lean ====
section
/-! DEFINITION. What stays true of the HX512 from step to step: the laws that the manual states of its records, as
decidable conditions on a state. Nothing in the machine depends on them. -/

namespace Sys2Proof.Machine

/-! ### What a claim says of a command -/

/-- The outcome of a request that leaves the records of `t` and is answered with a status and values: the port has taken
the request in state `s` and placed its answer, without the link flag (R170, R171). -/
def answered (i : Instr) (st : Status) (payload : List Byte) (s t : State) : Host.Outcome State Fault Refusal :=
  .next (t.setPort ((s.port.withRequest (requestBytes i)).place ⟨st, false, payload⟩))

/-- The numbers of argument bytes of the requests with the codes 1 to 54, from the arguments that their owners' rules name
(R172, Section 10.8). That of KEY_ENTRIES, code 40, is the number for one entry. -/
def argumentCounts : List Nat :=
  [8, 8, 5, 5, 5, 2, 4, 0, 3, 0] ++ [23, 1, 1, 1, 3, 1, 7, 3, 4, 5] ++ [7, 5, 7, 2, 1, 6, 5, 2, 1, 1] ++
  [8, 3, 3, 1, 3, 2, 5, 0, 27, 6] ++ [1, 1, 1, 3, 0, 5, 5, 0, 1, 7] ++ [0, 0, 0, 0]

/-- So many argument bytes are the right number for the request with a code of 1 to 54: KEY_ENTRIES carries one entry of
four bytes or more (R123, R170, R172). -/
def rightCount (code count : Nat) : Prop :=
  argumentCounts[code - 1]? = some count ∨ (code = 40 ∧ ∃ more, count = 6 + 4 * more)

/-- OK, or OK_CLAMPED where something was reduced or dropped. -/
def clampStatus (clamped : Prop) [Decidable clamped] : Status := if clamped then .okClamped else .ok

/-- A candidate record but for its links to other records: its next record and its CLASH flag. -/
def Candidate.unlinked (c : Candidate) : Candidate :=
  { c with nextRecord := none, flags := { c.flags with clash := false } }

/-- A seat record but for its stale flag, which an offered SHOW may set (R89). -/
def Seat.butStale (v : Seat) : Seat := { v with stale := false }

/-- The segments differ in their directed queues alone: what an offered SHOW can change of them (R89). -/
def State.sameButQueues (s t : State) : Prop :=
  ∀ m : Fin 4, { t.segments[m] with queue := [] } = { s.segments[m] with queue := [] }

/-- A sitting record but for its phase, hold sources and totals: the fields that SCHEDULE and EXTEND write (R23). -/
def Sitting.timetable (t : Sitting) : Sitting := { t with state := .closed, hold := ⟨false, false⟩, h := 0, e := 0 }

/-- An event that the records take in whatever state the part is: the reset rows and the level of HALL_HOLD. -/
def ofPins : Instr → Bool
  | .powerUp | .powerUpEnd _ | .hallReset | .hallResetEnd _ | .hallHoldEdge _ => true
  | _ => false

/-! ### What a claim says of the desks -/

/-- A seat becomes FREE, and a BLANK is queued for its desk (R43, R56, R58). -/
def freedDesk (x : Nat) (s : State) : State :=
  offerDesk x .blank (s.setSeat x { s.seat x with state := .free, candidate := none, handRaised := false })

/-- A script bound to the record in slot `j` is ISSUED or SUBMITTED (R112). -/
def State.scriptOut (s : State) (j : Nat) : Bool :=
  s.scripts.any (fun y => y.2.slot == j && (y.2.state == .issued || y.2.state == .submitted))

/-- The desk of seat `x` as the record in slot `j` finishes: a NOTICE DONE is queued, and then the seat becomes VACATED
where a script of the record is out, and FREE with a BLANK otherwise (R77, R111, R112). -/
def finishedDesk (x j : Nat) (s : State) : State :=
  if s.scriptOut j then
    (offerDesk x (.notice .done) s).setSeat x
      { (offerDesk x (.notice .done) s).seat x with state := .vacated, candidate := some j }
  else freedDesk x (offerDesk x (.notice .done) s)

/-- The state as the record `d` of slot `j`, at seat `x`, has finished, before its sitting is tested for its close:
DONE or CLEARED, its ISSUED scripts SUBMITTED, with NO_SCRIPT and a CUSTODY cause where it has none (R77, R111, R112).
-/
def finishedAt (x j : Nat) (d : Candidate) (s : State) : State :=
  { finishedDesk x j s with
    scripts := s.scripts.map (fun y =>
      (y.1, if y.2.slot = j ∧ y.2.state = .issued then
        { y.2 with state := .submitted, submittedAt := some s.hallTime } else y.2)),
    roll := tableInsert s.roll j
      (if s.scriptOut j then { d with state := .done }
        else { d with
          state := .cleared, currentSeat := none,
          flags := { d.flags with noScript := d.flags.noScript || (s.boundScripts j).isEmpty } }),
    attention := if (s.boundScripts j).isEmpty then (s.raise .custody).attention else s.attention }

/-- The state as the record `d` is written to slot `j` and tested for its warning, with the warning lead `v` of its
sitting and its personal end `pe`: where it is due, WARNED is set, a NOTICE WARN queued for the desk of seat `x` and
one TIME cause raised (R69). -/
def warnedAt (x j : Nat) (d : Candidate) (v pe : Nat) (s : State) : State :=
  if d.flags.warned = false ∧ 0 < v ∧ pe - s.hallTime ≤ v then
    { offerDesk x (.notice .warn) s with
      roll := tableInsert s.roll j { d with flags := { d.flags with warned := true } },
      attention := (s.raise .time).attention }
  else { s with roll := tableInsert s.roll j d }

/-! ### The hall clock and the sittings (R21, R23, R27) -/

/-- L is at most W and W at most 21 600; a sitting that runs is at T0 + e + H, and one that does not run has no hold source
(R24, R36, R27, R23). -/
def Sitting.lawful (hallTime : Nat) (t : Sitting) : Bool :=
  decide (t.l ≤ t.w) && decide (t.w ≤ 21600) &&
  if t.running then decide (hallTime < Config.lastSecond → t.t0 + t.e + t.h = hallTime)
  else t.hold == ⟨false, false⟩

/-- The hall time is 0..86 399, and every sitting is lawful at it (R21, R27). -/
def State.clockLaw (s : State) : Bool :=
  decide (s.hallTime ≤ Config.lastSecond) && s.sittings.all (Sitting.lawful s.hallTime)

/-! ### The record stores (R1, R14, R42, R105, R121) -/

/-- Every record store is in its canonical form and within its capacity: the numbers rise, a roll slot is one of the
1024, a root entry one of the 64, a page one of the 160 and a seat one of the 512, a seat that was never defined is not
listed, and the custody table holds at most 2048 scripts, each with a valid serial. A current seat is one of the 512. -/
def State.storeLaw (s : State) : Bool :=
  tableSorted s.roll && tableSorted s.dirRoot && tableSorted s.dirPages && tableSorted s.seats &&
  tableSorted s.scripts && s.keys.all (fun v => tableSorted v.entries) &&
  s.roll.all (fun x => decide (x.1 < Config.rollSlots)) && s.dirRoot.all (fun x => decide (x.1 < 64)) &&
  s.dirPages.all (fun x => decide (x.1 < Config.directoryPages)) &&
  s.seats.all (fun x => decide (x.1 < Config.seatRecords)) && s.seats.all (fun x => x.2 != Seat.undefinedRecord) &&
  s.roll.all (fun x => x.2.currentSeat.all (fun i => decide (i < Config.seatRecords))) &&
  decide (s.scripts.length ≤ Config.scriptPlaces) && s.scripts.all (fun x => validSerial x.1)

/-! ### Seats and records (R43, R48) -/

/-- The state of the seat that a record in a state has as its current seat (R43). -/
def CandState.seatState : CandState → Option SeatState
  | .expected => some .held
  | .seated | .active | .resting => some .occupied
  | .done => some .vacated
  | .cleared | .absent | .withdrawn => none

/-- A seat agrees with the records: it has a candidate exactly in HELD, OCCUPIED and VACATED, and that live record names
the seat and is in the state that goes with the seat's (R43). -/
def State.seatAgrees (s : State) (i : Nat) (v : Seat) : Bool :=
  match v.state with
  | .outOfUse => v.candidate == none
  | .free => v.place.isSome && v.candidate == none
  | .held | .occupied | .vacated =>
      v.place.isSome &&
        match v.candidate.bind s.cand with
        | some c => c.currentSeat == some i && c.state.seatState == some v.state
        | none => false

/-- A record agrees with the seats: its current seat names it, and a record that is SEATED to DONE has one (R43). -/
def State.recordAgrees (s : State) (j : Nat) (c : Candidate) : Bool :=
  match c.currentSeat with
  | some i => (s.seat i).candidate == some j && c.state.seatState == some (s.seat i).state
  | none => !admittedStates.contains c.state

/-- Seats and candidate records agree (R43). -/
def State.seatLaw (s : State) : Bool :=
  s.seats.all (fun x => s.seatAgrees x.1 x.2) && s.roll.all (fun x => s.recordAgrees x.1 x.2)

/-- The sitting of the record at a seat that is HELD, OCCUPIED or VACATED (R48). -/
def State.sittingAt (s : State) (v : Seat) : Option (Fin 8) :=
  if v.inUse then (v.candidate.bind s.cand).map Candidate.sitting else none

/-- No two seats that are neighbours under their room's separation mode are both HELD, OCCUPIED or VACATED for records of
the same sitting (R48). -/
def State.separationLaw (s : State) : Bool :=
  s.seats.all (fun x =>
    match x.2.place, s.sittingAt x.2 with
    | some p, some k => !s.blocked (some x.1) p k
    | _, _ => true)

/-! ### The directory (R14, R17) -/

/-- The pages linked into the buckets, bucket by bucket (R14). -/
def State.linkedPages (s : State) : List Nat := s.dirRoot.flatMap (fun x => s.bucketPages x.1)

/-- The used slots of a page (R14). -/
def Page.used (pg : Page) : List DirSlot := pg.slots.toList.filterMap id

/-- The used slots of the directory, page by page (R14). -/
def State.usedSlots (s : State) : List DirSlot := s.dirPages.flatMap (fun x => x.2.used)

/-- The page chain of a present root entry ends, and each of its pages is linked, holds a used slot, and holds numbers of
the bucket alone (R14). -/
def State.bucketLaw (s : State) (b : Nat) : Bool :=
  (((s.bucketPages b).getLast?.bind (tableFind s.dirPages)).bind Page.next == none) &&
  (s.bucketPages b).all (fun p =>
    match tableFind s.dirPages p with
    | some pg => !pg.used.isEmpty && pg.used.all (fun d => bucketOf d.number == b)
    | none => false)

/-- The chain of a used slot begins at its head record, holds the number's live records, all of them, in ascending order of
(T0, sitting index), and ends (R14, R17). -/
def State.chainLaw (s : State) (d : DirSlot) : Bool :=
  ((s.chain d.number).head? == some d.head) &&
  decide ((s.chain d.number).Pairwise (fun i j => s.chainKey i < s.chainKey j)) &&
  (s.chain d.number).all (fun j => (s.cand j).map Candidate.number == some d.number) &&
  (((s.chain d.number).getLast?.bind s.cand).bind Candidate.nextRecord == none) &&
  decide ((s.chain d.number).length = (s.roll.filter (fun x => x.2.number == d.number)).length)

/-- The law of the directory (R14, R17): every page outside the pool is linked into exactly one bucket, no number is held
in two slots, every live record's number has a slot, and the chains are as R17 orders them. -/
def State.directoryLaw (s : State) : Bool :=
  decide s.linkedPages.Nodup && s.dirPages.all (fun x => decide (x.1 ∈ s.linkedPages)) &&
  s.dirRoot.all (fun x => s.bucketLaw x.1) && decide (s.usedSlots.map DirSlot.number).Nodup &&
  s.usedSlots.all s.chainLaw && s.roll.all (fun x => (s.lookup x.2.number).isSome)

/-! ### Candidates and their scripts (R52, R107, R112) -/

/-- The states of its candidate record that a script's state admits: ISSUED while the candidate writes, SUBMITTED in DONE,
and COLLECTED to HANDED in DONE or CLEARED (R111, R112, R113). -/
def ScriptState.fits (x : ScriptState) (c : CandState) : Bool :=
  match x with
  | .issued => writingStates.contains c
  | .submitted => c == .done
  | .collected | .marking | .marked | .handed => c == .done || c == .cleared
  | .voided => writingStates.contains c || c == .done || c == .cleared

/-- Two live records of one number are not both SEATED, ACTIVE, RESTING or DONE (R52). -/
def oneAdmitted (x y : Nat × Candidate) : Bool :=
  !(x.2.number == y.2.number && admittedStates.contains x.2.state && admittedStates.contains y.2.state)

/-- At most one record of a number is admitted and not cleared (R52); every script is bound to a live record of its
sitting, at most four to one record (R107); a DONE record has a SUBMITTED script and no ISSUED one, and a CLEARED record
has neither (R112). -/
def State.candidateLaw (s : State) : Bool :=
  decide (s.roll.Pairwise (fun x y => oneAdmitted x y = true)) &&
  s.scripts.all (fun x =>
    match s.cand x.2.slot with
    | some c => c.sitting == x.2.sitting && x.2.state.fits c.state
    | none => false) &&
  s.roll.all (fun x => decide ((s.boundScripts x.1).length ≤ Config.scriptsPerRecord) &&
    (x.2.state != .done || (s.boundScripts x.1).any (fun y => y.2.state == .submitted)))

/-! ### Marks (R127, R128, R155, R159) -/

/-- A script that is being marked or has been (R128). -/
def Script.unsealed (x : Script) : Bool := x.state == .marking || x.state == .marked

/-- The embargo (R127, R128): a RELEASED key belongs to a CLOSED sitting, and a script is in MARKING or MARKED only while
its sitting is CLOSED and that sitting's key is RELEASED. -/
def State.embargoLaw (s : State) : Bool :=
  eight.all (fun k => s.keys[k].state != .released || s.sittings[k].state == .closed) &&
  s.scripts.all (fun x => !x.2.unsealed || s.keys[x.2.sitting].state == .released)

/-- The result that a record has: COMPLETE from its accumulator and its sitting's key once the pages marked are the pages of
the key, and none before (R155). -/
def State.resultOf (s : State) (c : Candidate) : Option ResultRecord :=
  if c.acc.pages ≠ 0 ∧ c.acc.pages = allPages s.keys[c.sitting].pageCountOf then
    some (formResult s.keys[c.sitting] c.acc)
  else none

/-- A record's pages marked are the pages of its MARKED scripts, and its result is that of its accumulator (R155, R159). -/
def State.marksAgree (s : State) (j : Nat) (c : Candidate) : Bool :=
  (([0, 1, 2, 3, 4] : List Nat).all (fun p =>
    c.acc.pages.getLsbD p == (s.boundScripts j).any (fun y => y.2.state == .marked && y.2.page == some p))) &&
  c.result == s.resultOf c

/-- The law of the marks: the embargo holds, the sheet in hand is one of the key's pages, a script has a page and a sheet
result exactly in MARKED, and the candidates' marks agree with their scripts (R128, R142, R154, R159). -/
def State.markLaw (s : State) : Bool :=
  s.embargoLaw &&
  s.hand.all (fun h => decide (1 ≤ h.page ∧ h.page ≤ s.keys[h.sitting].pageCountOf)) &&
  s.scripts.all (fun x =>
    (x.2.page.isSome == (x.2.state == .marked)) && (x.2.result.isSome == (x.2.state == .marked))) &&
  s.roll.all (fun x => s.marksAgree x.1 x.2)

/-! ### The desk segments (R83, R87, R89) -/

/-- No two entries of a directed queue have the same address and kind (R89). -/
def distinctEntries (q : List ShowEntry) : Bool :=
  decide (q.Pairwise (fun e f => ¬ (e.address = f.address ∧ e.content.kind = f.content.kind)))

/-- A segment in MASTER has an exchange in progress, and no other segment is sending (R87). -/
def Segment.exchangeLaw (g : Segment) : Bool :=
  match g.line with
  | .master => g.sending.isSome
  | .awaiting _ => g.sending.isNone
  | .disabled => g.sending.isNone && !g.timeDue && g.queue.isEmpty

/-- The law of one segment: its queue has at most 8 entries, each address and kind once, and its exchanges follow
R87. -/
def Segment.lawful (g : Segment) : Bool :=
  decide (g.queue.length ≤ Config.queuePlaces) && distinctEntries g.queue && g.exchangeLaw

/-- The law of the four segments. -/
def State.segmentLaw (s : State) : Bool := s.segments.all Segment.lawful

/-! ### The station link port (R164, R170, R171) -/

/-- The frames of the transmitter: the one going out and those that wait. -/
def Port.frames (p : Port) : List AnswerFrame := p.sending.toList ++ p.queue

/-- The answers without the link flag: there is one while the port is EXECUTING, and none otherwise; the assembly
timer runs in ASSEMBLING and nowhere else; nothing waits behind a free transmitter, and at most 4 frames wait, at
most 3 outside EXECUTING (R164, R170, R171). -/
def Port.lawful (p : Port) : Bool :=
  decide ((p.frames.filter (fun f => !f.link)).length = if p.state = .executing then 1 else 0) &&
  (p.timer == decide (p.state = .assembling)) && (p.sending.isSome || p.queue.isEmpty) &&
  decide (p.queue.length ≤ if p.state = .executing then 4 else 3)

/-- The law of the station link port. -/
def State.portLaw (s : State) : Bool := s.port.lawful

/-! ### The attention unit (R173, R175) -/

/-- A group's count is 0..255 and above 0 exactly while the group is pending; its level is 0..7 (R173). -/
def Group.lawful (g : Group) : Bool :=
  decide (g.count ≤ 255) && (g.pending == decide (0 < g.count)) && decide (g.level ≤ 7)

/-- The law of the attention unit and the fault record: more is set only in a valid record (R176). -/
def State.attentionLaw (s : State) : Bool :=
  s.attention.all Group.lawful && (s.faultRecord.entry.isSome || !s.faultRecord.more)

/-! ### The sheet intake and the mark engine (R134, R140, R141, R143) -/

/-- The fields of a buffer are those of its state: a closed sheet has a form until it is FREE (R134). A WELL_FORMED sheet
has its 45 rows, unless a traffic clear closed it (R145: a free value, log entry 28). -/
def SheetBuffer.lawful (b : SheetBuffer) : Bool :=
  decide (b.rows.length ≤ Config.sheetRows) &&
  (b.form != some .wellFormed || decide (b.rows.length = Config.sheetRows) || b.verdict == some .cleared) &&
  match b.state with
  | .free => b == SheetBuffer.freeBuffer
  | .filling => b.form == none && b.verdict == none
  | .queued => b.form.isSome && b.verdict == none
  | .taken => b.form == some .wellFormed && b.verdict == none
  | .decided => b.form.isSome && b.verdict.isSome

/-- The buffers of the verdict order, first the DECIDED ones and then the others; the first of the others is FILLING
or TAKEN, and only the last is FILLING (R134, R140). -/
def orderLaw : List SheetBuffer → Bool
  | [] => true
  | b :: rest =>
      match b.state with
      | .decided => orderLaw rest
      | .taken | .filling => (b.state != .filling || rest.isEmpty) && tailLaw rest
      | .queued | .free => false
where
  /-- Behind the next sheet every buffer is QUEUED, or it is FILLING and the last. -/
  tailLaw : List SheetBuffer → Bool
    | [] => true
    | b :: rest =>
        match b.state with
        | .queued => tailLaw rest
        | .filling => rest.isEmpty
        | .free | .taken | .decided => false

/-- The transmitter's frame agrees with the order: a verdict is that of the DECIDED head, and a free transmitter has
nothing to send (R141). -/
def Intake.sendingLaw (k : Intake) : Bool :=
  match k.sending with
  | some .portReset => k.resetOwed
  | some (.begin_ _) => !k.resetOwed
  | some (.verdict b) => !k.resetOwed && k.headVerdict == some (.verdict b)
  | none => !k.resetOwed && k.beginAnswers.isEmpty && k.headVerdict == none

/-- The law of the sheet intake (R134, R135, R140, R141): the verdict order lists exactly the buffers in use, each
once; the receive state is FILLING exactly while a buffer is, and the gap timer runs exactly then. -/
def Intake.lawful (k : Intake) : Bool :=
  k.buffers.all SheetBuffer.lawful && decide k.order.Nodup &&
  four.all (fun b => decide (b ∈ k.order) == decide (k.buffers[b].state ≠ .free)) &&
  orderLaw (k.order.map (fun b => k.buffers[b])) &&
  (decide (k.receive = .filling) == k.buffers.any (fun b => b.state == .filling)) &&
  (k.gapTimer == decide (k.receive = .filling)) && decide (k.beginAnswers.length ≤ 4) &&
  decide (k.nextNumber < 256) && (!k.resetOwed || (k.order.isEmpty && k.beginAnswers.isEmpty)) && k.sendingLaw

/-- The mark engine holds a sheet exactly while a buffer is TAKEN, and it holds that buffer's sheet (R143, R147). -/
def State.handLaw (s : State) : Bool :=
  match s.hand with
  | none => s.intake.buffers.all (fun b => b.state != .taken)
  | some h =>
      four.all (fun b => (s.intake.buffers[b].state == .taken) == (b == h.buffer)) &&
      s.intake.buffers[h.buffer].serial == h.serial && s.intake.buffers[h.buffer].page == h.page

/-- At most one script is MARKING: that of the sheet that the mark engine holds (R143, R147). -/
def State.markingLaw (s : State) : Bool :=
  match s.hand with
  | none => s.scripts.all (fun x => x.2.state != .marking)
  | some h =>
      s.scripts.all (fun x => (x.2.state == .marking) == (x.1 == h.serial)) &&
      (match s.script h.serial with
       | some x => x.slot == h.slot && x.sitting == h.sitting
       | none => false)

/-- The law of the sheet intake and the mark engine while the part runs; while it is held in a reset the intake and
the engine are empty (R134, R143, R146). -/
def State.intakeLaw (s : State) : Bool :=
  match s.resetHold with
  | .running => s.intake.lawful && s.handLaw && s.markingLaw
  | .powerUp | .hallReset => s.intake == Intake.initial && s.hand == none && s.scripts.isEmpty

end Sys2Proof.Machine
end

