-- ==== Sys2Proof/Certificates/Slice0/Obligations.lean ====
section
/-! DEFINITION. The statements for the provers. Each docstring names the rules of spec/ that the statement formalises;
where it rests on a choice of the model it names the log entry. -/

open Sys2Proof Sys2Proof.Machine

/-! ### The queue of commands, the resets and the laws -/

/-- A step takes the command at the front of the queue and is its effect with the rest of the queue; with no command
waiting the part idles (the model's own: log entries 1 and 2). -/
def Obligations.StepTakesTheFrontCommand : Prop :=
  ∀ s : State,
    (∀ c rest, s.pending = c :: rest → step s = exec c { s with pending := rest }) ∧
    (s.pending = [] → step s = .next s)

/-- Every command completes in every state, and none touches the commands that wait behind it: the manual gives each an
effect, a refusal answered to the station being one (Section 10.3, R170). A part held in a power-up or a hall reset
takes no command but those of its pins (the model's reading of R178 and R179: log entry 7). -/
def Obligations.EveryCommandCompletes : Prop :=
  ∀ (c : Instr) (s : State), ∃ t, exec c s = .next t ∧ t.pending = s.pending ∧
    (s.resetHold ≠ .running → ofPins c = false → t = s)

/-- POWER_UP and HALL_RESET bring every block to its reset values and hold the part with ATTN, SHEET_READY and the
segment drivers off; a hall reset keeps the fault record; the end rows sample the strap, write the reset cause and send
PORT_RESET (R178, R179, R182, R41, R63, R102, R135, R146). The levels of the pins are kept (log entries 3, 4); that the
strap is sampled and the reset cause changes only as the reset ends is the model's reading (log entries 23, 26). -/
def Obligations.ResetsGiveEveryBlockItsResetValues : Prop :=
  ∀ s : State,
    (∃ t, exec .powerUp s = .next t ∧ t.attn = false ∧ t.intake.sheetReady = false ∧
      (∀ m : Fin 4, t.segments[m].driverEnabled = false) ∧
      t = { State.reset with
        pending := s.pending, resetHold := .powerUp, resetCause := s.resetCause,
        holdFilter := { s.holdFilter with filtered := false, waiting := false },
        segments := s.segments.map (fun g => { Segment.initial with doorWire := g.doorWire }),
        intake := Intake.initial }) ∧
    (s.resetHold = .running → ∃ t, exec .hallReset s = .next t ∧ t.attn = false ∧ t.intake.sheetReady = false ∧
      (∀ m : Fin 4, t.segments[m].driverEnabled = false) ∧
      t = { State.reset with
        pending := s.pending, resetHold := .hallReset, resetCause := s.resetCause,
        holdFilter := { s.holdFilter with filtered := false, waiting := false },
        segments := s.segments.map (fun g => { Segment.initial with doorWire := g.doorWire }),
        intake := Intake.initial, faultRecord := s.faultRecord }) ∧
    (s.resetHold = .powerUp → exec .hallReset s = .next s) ∧
    (∀ pol, s.resetHold = .powerUp → s.intake = Intake.initial →
      exec (.powerUpEnd pol) s = .next { s with
        resetHold := .running, resetCause := .powerUp,
        holdFilter := ⟨s.holdFilter.high, pol, false, xor s.holdFilter.high pol⟩,
        intake := { Intake.initial with sending := some .portReset } }) ∧
    (∀ pol, s.resetHold = .hallReset → s.intake = Intake.initial →
      exec (.hallResetEnd pol) s = .next { s with
        resetHold := .running, resetCause := .hallReset,
        holdFilter := ⟨s.holdFilter.high, pol, false, xor s.holdFilter.high pol⟩,
        intake := { Intake.initial with sending := some .portReset } })

/-- The state after a power-up satisfies every law of Safety. -/
def Obligations.LawsHoldAfterPowerUp : Prop :=
  State.reset.clockLaw = true ∧ State.reset.storeLaw = true ∧ State.reset.segmentLaw = true ∧
  State.reset.portLaw = true ∧ State.reset.attentionLaw = true ∧ State.reset.intakeLaw = true ∧
  State.reset.seatLaw = true ∧ State.reset.separationLaw = true ∧ State.reset.directoryLaw = true ∧
  State.reset.candidateLaw = true ∧ State.reset.markLaw = true

/-- Every step keeps the law of the clock: the hall time is 0..86 399, below the day end every running sitting is at T0
+ e + H, a sitting that does not run has no hold source, and every sitting's L is at most W and W at most 21 600 (R21,
R23, R24, R27, R36). -/
def Obligations.StepKeepsTheClockLaw : Prop :=
  ∀ s t : State, s.clockLaw = true → step s = .next t → t.clockLaw = true

/-- Every step keeps the record stores in canonical form and within capacity: 1024 roll slots, a root of 64 entries and
160 pages, 512 seats, 2048 scripts with valid serials (R1, R2, R14, R42, R105, R106). -/
def Obligations.StepKeepsTheStoreLaw : Prop :=
  ∀ s t : State, s.storeLaw = true → step s = .next t → t.storeLaw = true

/-- Every step keeps the law of the segments: at most 8 queued messages, each address and kind once, and in MASTER
always an exchange in progress (R83, R84, R87, R89). -/
def Obligations.StepKeepsTheSegmentLaw : Prop :=
  ∀ s t : State, s.segmentLaw = true → step s = .next t → t.segmentLaw = true

/-- Every step keeps the law of the station link port: exactly one answer without the link flag while EXECUTING and
none otherwise, the assembly timer in ASSEMBLING only, at most 4 frames waiting (R164, R170, R171). -/
def Obligations.StepKeepsThePortLaw : Prop :=
  ∀ s t : State, s.portLaw = true → step s = .next t → t.portLaw = true

/-- Every step keeps the law of the attention unit and the fault record (R173, R175, R176). -/
def Obligations.StepKeepsTheAttentionLaw : Prop :=
  ∀ s t : State, s.attentionLaw = true → step s = .next t → t.attentionLaw = true

/-- Every step keeps the law of the sheet intake and the mark engine: one verdict for each taken sheet in begin order,
one FILLING buffer at the tail, and one MARKING script, that of the sheet in hand (R134, R140, R141, R143, R147). -/
def Obligations.StepKeepsTheIntakeLaw : Prop :=
  ∀ s t : State, s.storeLaw = true → s.intakeLaw = true → step s = .next t → t.intakeLaw = true

/-- Every step keeps seats and candidate records in agreement: a seat is HELD, OCCUPIED or VACATED exactly when a live
record names it as its current seat, in the state that goes with it (R43). -/
def Obligations.StepKeepsTheSeatLaw : Prop :=
  ∀ s t : State, s.storeLaw = true → s.seatLaw = true → step s = .next t → t.seatLaw = true

/-- Every step keeps the separation: no two neighbouring seats are in use for records of one sitting (R48). -/
def Obligations.StepKeepsTheSeparationLaw : Prop :=
  ∀ s t : State, s.storeLaw = true → s.seatLaw = true → s.separationLaw = true → step s = .next t →
    t.separationLaw = true

/-- Every step keeps the law of the directory: the page chains, one slot for each number with a live record, and the
record chains in ascending order of (T0, sitting index) (R14, R17). -/
def Obligations.StepKeepsTheDirectoryLaw : Prop :=
  ∀ s t : State, s.storeLaw = true → s.directoryLaw = true → step s = .next t → t.directoryLaw = true

/-- Every step keeps at most one admitted record of a number, at most four scripts bound to a record, each of the
record's sitting, and the agreement of DONE and CLEARED with the scripts (R52, R107, R112). -/
def Obligations.StepKeepsTheCandidateLaw : Prop :=
  ∀ s t : State, s.storeLaw = true → s.directoryLaw = true → s.intakeLaw = true → s.candidateLaw = true →
    step s = .next t → t.candidateLaw = true

/-- Every step keeps the embargo, and the pages marked and the result of each record in agreement with its MARKED
scripts and its sitting's key (R127, R128, R155, R159). -/
def Obligations.StepKeepsTheMarkLaw : Prop :=
  ∀ s t : State, s.storeLaw = true → s.intakeLaw = true → s.candidateLaw = true → s.markLaw = true →
    step s = .next t → t.markLaw = true

/-! ### The station link -/

/-- A well-formed request is read back from its bytes, with every operand at every value the bytes can carry. Its bytes
are its code and its arguments, in the order its owner's rule names them, most significant byte first (R170, R172,
Section 10.8). A complete assembly is UNKNOWN exactly where its code names no request, and otherwise MALFORMED exactly
where it is empty or the number of its argument bytes is not that of its request, KEY_ENTRIES carrying one entry of
four bytes or more (R123, R170, R172); any other is the request whose bytes it holds, a flag being set by any byte but
0 (R172). -/
def Obligations.RequestBytesAreReadBack : Prop :=
  (∀ i : Instr, i.wellFormed = true → (ownerRule i).isSome = true →
    decodeRequest (requestBytes i) = .request i) ∧
  (∀ n : Nat, be1 n = [BitVec.ofNat 8 n] ∧ be2 n = be1 (n / 256) ++ be1 n ∧ be3 n = be1 (n / 65536) ++ be2 n ∧
    be4 n = be1 (n / 16777216) ++ be3 n) ∧
  (∀ b : Bool, beFlag b = [if b then 1 else 0]) ∧
  (∀ x ∈ [((8 : Byte), Instr.readRoll), (10, .readClock), (38, .readCustody), (45, .readIntake),
      (48, .readAttention), (51, .readFault), (52, .clearFault), (53, .clearTraffic), (54, .identify)],
    requestBytes x.2 = [x.1]) ∧
  (∀ k, ∀ x ∈ [((12 : Byte), Instr.retireSitting k), (13, .hold k), (14, .resume k), (16, .readSitting k),
      (25, .readRoom k), (29, .resetRoom k), (30, .readSegment k), (34, .handOverSitting k), (41, .keySeal k),
      (42, .keyDiscard k), (43, .readKey k)],
    requestBytes x.2 = x.1 :: be1 k) ∧
  (∀ n, ∀ x ∈ [((6 : Byte), Instr.readSlot n), (24, .readSeat n), (28, .ackHand n), (36, .readScriptAt n)],
    requestBytes x.2 = x.1 :: be2 n) ∧
  (∀ n, ∀ x ∈ [((9 : Byte), Instr.setClock n), (32, .void n), (33, .handOver n), (35, .readScript n)],
    requestBytes x.2 = x.1 :: be3 n) ∧
  (∀ n k, ∀ x ∈ [((3 : Byte), Instr.withdraw n k), (4, .retire n k), (5, .readCandidate n k), (20, .admitFor n k),
      (22, .unplace n k), (27, .submitFor n k), (37, .scriptsOf n k), (46, .remark n k), (47, .readResult n k)],
    requestBytes x.2 = x.1 :: (be4 n ++ be1 k)) ∧
  (∀ n k x, requestBytes (.place n k x) = 21 :: (be4 n ++ be1 k ++ be2 x) ∧
    requestBytes (.move n k x) = 23 :: (be4 n ++ be1 k ++ be2 x) ∧
    requestBytes (.issue n k x) = 31 :: (be4 n ++ be1 k ++ be3 x) ∧
    requestBytes (.readChain n) = 7 :: be4 n) ∧
  (∀ n k a r f b, requestBytes (.enrol n k a r f) = 1 :: (be4 n ++ be1 k ++ be1 a ++ be1 r ++ [f]) ∧
    requestBytes (.amend n k a r f) = 2 :: (be4 n ++ be1 k ++ be1 a ++ be1 r ++ [f]) ∧
    requestBytes (.restFor n k b) = 26 :: (be4 n ++ be1 k ++ beFlag b)) ∧
  (∀ k delta (t : TimetableArg) (list : RoomListArg), requestBytes (.extend k delta) = 15 :: (be1 k ++ be2 delta) ∧
    requestBytes (.schedule k t list) = 11 :: (be1 k ++ be3 t.t0 ++ be2 t.r ++ be2 t.w ++ be2 t.l ++ be2 t.aw ++
      be2 t.e1 ++ be2 t.e2 ++ be2 t.v ++ be1 list.count ++ be1 list.r0 ++ be1 list.r1 ++ be1 list.r2 ++
      be1 list.r3)) ∧
  (∀ x m r c a f st b sep fill,
    requestBytes (.defineSeat x m r c (some a) f) = 17 :: (be2 x ++ be1 m ++ be1 r ++ be1 c ++ be1 a ++ [f]) ∧
    requestBytes (.defineSeat x m r c none f) = 17 :: (be2 x ++ be1 m ++ be1 r ++ be1 c ++ be1 255 ++ [f]) ∧
    requestBytes (.seatState x st) = 18 :: (be2 x ++ be1 st) ∧
    requestBytes (.setRoom m b sep fill) = 19 :: (be1 m ++ beFlag b ++ be1 sep ++ be1 fill)) ∧
  (∀ k (h : KeyHeader), requestBytes (.keyOpen k h) = 39 :: (be1 k ++ h.bytes) ∧
    h.bytes = be1 h.q ++ be1 h.tf ++ be1 h.te ++ be1 h.margin ++ h.caps.toList.flatMap be2 ++
      h.bounds.toList.flatMap be2) ∧
  (∀ k q count (es : List KeyEntryArg), requestBytes (.readKeyEntries k q count) = 44 :: (be1 k ++ be1 q ++ be1 count) ∧
    requestBytes (.keyEntries k q es) = 40 :: (be1 k ++ be1 q ++ es.flatMap (fun e =>
      e.set :: (be1 e.weight ++ be1 e.penalty ++ be1 e.section_)))) ∧
  (∀ (set : Byte) (levels : Vector Nat 6), requestBytes (.clearAttention set) = [49, set] ∧
    requestBytes (.setAttention set levels) = 50 :: set :: levels.toList.flatMap be1) ∧
  (∀ bytes : List Byte, decodeRequest bytes = .unknown ↔
    ∃ code args, bytes = code :: args ∧ (code.toNat = 0 ∨ 54 < code.toNat)) ∧
  (∀ bytes : List Byte, decodeRequest bytes = .malformed ↔ bytes = [] ∨
    ∃ code args, bytes = code :: args ∧ 1 ≤ code.toNat ∧ code.toNat ≤ 54 ∧
      ¬ rightCount code.toNat args.length) ∧
  (∀ (bytes : List Byte) (i : Instr), decodeRequest bytes = .request i → (ownerRule i).isSome = true ∧
    (bytes.head? ≠ some 19 → bytes.head? ≠ some 26 → requestBytes i = bytes)) ∧
  (∀ m en sep fill : Byte, decodeRequest [19, m, en, sep, fill] =
    .request (.setRoom m.toNat (en != 0) sep.toNat fill.toNat)) ∧
  (∀ (n : Nat) (k b : Byte), n < 4294967296 →
    decodeRequest (26 :: (be4 n ++ [k, b])) = .request (.restFor n k.toNat (b != 0)))

/-- A request that arrives as one frame with FIRST and LAST, or in any number of frames whose payloads make at most 240
bytes, the first with FIRST and the last with LAST, each checked or not, has the effect of its own row (R163, R164,
R170; the rows of the requests: log entry 6). A request frame has the bytes of Section 10.4, and its check byte is the
CRC-8 of Section 4.6. -/
def Obligations.FramedRequestIsItsRow : Prop :=
  (∀ (first last check : Bool) (payload bytes : List Byte), payload.length ≤ 60 →
    bytes = BitVec.ofNat 8 (first.toNat + 2 * last.toNat + 4 * check.toNat) ::
      BitVec.ofNat 8 payload.length :: payload →
    requestFrame first last check payload = if check then bytes ++ [crc8 bytes] else bytes) ∧
  (∀ bytes : List Byte, crc8 bytes = bytes.foldl (fun c b => (List.range 8).foldl
    (fun (x : Byte) _ => if x.getLsbD 7 then (x <<< 1) ^^^ 0x31 else x <<< 1) (c ^^^ b)) 0xFF) ∧
  ∀ (s : State) (i : Instr), s.resetHold = .running → s.port.receiver = .waiting → s.port.state ≠ .executing →
    i.wellFormed = true → (ownerRule i).isSome = true →
    (∀ check : Bool, (requestBytes i).length ≤ 60 →
      exec (.stationFrame (requestFrame true true check (requestBytes i))) s = exec i s) ∧
    (∀ (c1 c2 : Bool) (a b : List Byte) (middle : List (Bool × List Byte)),
      requestBytes i = a ++ middle.flatMap Prod.snd ++ b → (requestBytes i).length ≤ 240 →
      a.length ≤ 60 → b.length ≤ 60 → (∀ x ∈ middle, x.2.length ≤ 60) →
      exec (.stationFrame (requestFrame true false c1 a ++
        middle.flatMap (fun x => requestFrame false false x.1 x.2) ++ requestFrame false true c2 b)) s = exec i s)

/-- Frames that bring no request to an owner. A frame that completes no request: FIRST begins an assembly in IDLE and
ASSEMBLING; a later frame is appended, the bytes past 240 setting overflow; outside an assembly it is answered
SEQUENCE, or drained; in EXECUTING a FIRST is answered BUSY (R164, R165, R170). A complete assembly that is not handed
to an owner, of one frame or of several: TOO_LONG where the overflow flag is set, MALFORMED and UNKNOWN; no record
changes (R168, R170). A failed frame is answered CHECK_FAIL, drops an assembly, clears the discard flag and reports
LINK_CHECK: so fails a frame whose check byte is wrong where CHECK is set, or with a control bit beyond the three
flags, and a frame whose length byte is above 60, as that byte arrives, which leaves the receiver HUNTING (R163, R166).
A frame may arrive in parts: the receiver is IN_FRAME with the bytes so far (R163). The rows STATION_FRAME and
CHECK_FAIL: log entry 25. -/
def Obligations.FramesThatReachNoOwner : Prop :=
  (∀ (s : State) (check : Bool) (body : List Byte),
      s.resetHold = .running → s.port.receiver = .waiting → body.length ≤ 60 →
      (s.port.state ≠ .executing →
        exec (.stationFrame (requestFrame true false check body)) s = .next (s.setPort { s.port with
          state := .assembling, stage := body, overflow := false, timer := true, discard := false })) ∧
      (s.port.state = .assembling →
        exec (.stationFrame (requestFrame false false check body)) s = .next (s.setPort { s.port with
          stage := (s.port.stage ++ body).take 240,
          overflow := s.port.overflow || decide (240 < s.port.stage.length + body.length) })) ∧
      (s.port.state = .executing → ∀ last,
        exec (.stationFrame (requestFrame true last check body)) s =
          .next (s.setPort { s.port.linkAnswer .busy with discard := !last })) ∧
      (s.port.state ≠ .assembling → s.port.discard = false → ∀ last,
        exec (.stationFrame (requestFrame false last check body)) s =
          .next (s.setPort (s.port.linkAnswer .sequence))) ∧
      (s.port.state ≠ .assembling → s.port.discard = true → ∀ last,
        exec (.stationFrame (requestFrame false last check body)) s =
          .next (s.setPort { s.port with discard := !last }))) ∧
  (∀ (s : State) (check : Bool) (body : List Byte),
      s.resetHold = .running → s.port.receiver = .waiting → s.port.state = .assembling → body.length ≤ 60 →
      ((s.port.overflow = true ∨ 240 < s.port.stage.length + body.length) →
        exec (.stationFrame (requestFrame false true check body)) s = .next (s.setPort
          (Port.place { s.port with state := .executing, stage := [], overflow := true, timer := false }
            ⟨.tooLong, false, []⟩))) ∧
      (s.port.overflow = false → s.port.stage.length + body.length ≤ 240 →
        (decodeRequest (s.port.stage ++ body) = .malformed →
          exec (.stationFrame (requestFrame false true check body)) s = .next (s.setPort
            (Port.place { s.port with state := .executing, stage := s.port.stage ++ body, timer := false }
              ⟨.malformed, false, []⟩))) ∧
        (decodeRequest (s.port.stage ++ body) = .unknown →
          exec (.stationFrame (requestFrame false true check body)) s = .next (s.setPort
            (Port.place { s.port with state := .executing, stage := s.port.stage ++ body, timer := false }
              ⟨.unknown, false, []⟩))))) ∧
  (∀ (s : State) (check : Bool) (body : List Byte) (st : Status),
      s.resetHold = .running → s.port.receiver = .waiting → s.port.state ≠ .executing → body.length ≤ 60 →
      ((decodeRequest body = .malformed ∧ st = .malformed) ∨ (decodeRequest body = .unknown ∧ st = .unknown)) →
      exec (.stationFrame (requestFrame true true check body)) s = .next (s.setPort
        (Port.place { s.port with
          state := .executing, stage := body, overflow := false, timer := false, discard := false }
          ⟨st, false, []⟩))) ∧
  (∀ (s : State) (control length check : Byte) (body bytes : List Byte),
      s.resetHold = .running → s.port.receiver = .waiting → length.toNat = body.length → body.length ≤ 60 →
      bytes = control :: length :: (body ++ if control.getLsbD 2 then [check] else []) →
      (8 ≤ control.toNat ∨ (control.getLsbD 2 = true ∧ check ≠ crc8 (control :: length :: body))) →
      (s.port.state ≠ .assembling →
        exec (.stationFrame bytes) s = .next ((s.setPort { s.port.linkAnswer .checkFail with
          discard := false }).reportFault .linkCheck .none)) ∧
      (s.port.state = .assembling →
        exec (.stationFrame bytes) s = .next ((s.setPort { s.port.linkAnswer .checkFail with
          state := .idle, stage := [], overflow := false, timer := false,
          discard := false }).reportFault .linkCheck .none))) ∧
  (∀ s : State, s.resetHold = .running →
      (∀ (a b : List Byte) (t : State), exec (.stationFrame a) s = .next t →
        exec (.stationFrame (a ++ b)) s = exec (.stationFrame b) t) ∧
      (∀ control : Byte, s.port.receiver = .waiting →
        exec (.stationFrame [control]) s = .next (s.setPort { s.port with receiver := .inFrame [control] }) ∧
        ∀ (length : Byte) (part : List Byte), length.toNat ≤ 60 →
          part.length < length.toNat + (if control.getLsbD 2 then 1 else 0) →
          exec (.stationFrame (control :: length :: part)) s =
            .next (s.setPort { s.port with receiver := .inFrame (control :: length :: part) }))) ∧
  (∀ s : State, s.resetHold = .running →
      (s.port.state ≠ .assembling →
        exec .checkFail s = .next ((s.setPort { s.port.linkAnswer .checkFail with
          receiver := if s.port.receiver = .hunting then .hunting else .waiting,
          discard := false }).reportFault .linkCheck .none)) ∧
      (s.port.state = .assembling →
        exec .checkFail s = .next ((s.setPort { s.port.linkAnswer .checkFail with
          receiver := if s.port.receiver = .hunting then .hunting else .waiting, state := .idle, stage := [],
          overflow := false, timer := false, discard := false }).reportFault .linkCheck .none)) ∧
      (∀ control length : Byte, s.port.receiver = .waiting → s.port.state ≠ .assembling → 60 < length.toNat →
        exec (.stationFrame [control, length]) s = .next ((s.setPort { s.port.linkAnswer .checkFail with
          receiver := .hunting, discard := false }).reportFault .linkCheck .none)) ∧
      (∀ control length : Byte, s.port.receiver = .waiting → s.port.state = .assembling → 60 < length.toNat →
        exec (.stationFrame [control, length]) s = .next ((s.setPort { s.port.linkAnswer .checkFail with
          receiver := .hunting, state := .idle, stage := [], overflow := false, timer := false,
          discard := false }).reportFault .linkCheck .none)) ∧
      (∀ bytes, s.port.receiver = .hunting → exec (.stationFrame bytes) s = .next s))

/-- The timed events of the station link: silence in a frame, quiet while HUNTING, a break, and the assembly timer with
its TIMEOUT and LINK_TIMEOUT (R163, R167, R169). The answers: the port takes a request and places its answer, EXECUTING
with the request in the stage and the answer going out first where the transmitter is free (what a request row finds of
the port: log entry 6); ANSWER_SENT ends the frame that is going out, one at a time, and the next one begins; the end
of the request's own answer returns the port to IDLE with an empty stage, and the end of a link answer changes nothing
else; with no frame going out the event changes nothing (R170, R171; log entries 5, 11). A frame is placed behind the
one that is going out and those that wait; a link answer carries the link flag and is not queued while 3 frames wait
(R171). An answer frame has the bytes of R171 and Section 10.4, with the status codes 0 to 38. -/
def Obligations.LinkTimersAndAnswers : Prop :=
  (∀ s : State, s.resetHold = .running →
      (∀ got, s.port.receiver = .inFrame got →
        exec .frameSilence s = .next (s.setPort { s.port with receiver := .waiting })) ∧
      (s.port.receiver = .hunting →
        exec .huntingQuiet s = .next (s.setPort { s.port with receiver := .waiting })) ∧
      (s.port.state = .assembling →
        exec .lineBreak s = .next (s.setPort { s.port with
          receiver := .waiting, state := .idle, stage := [], overflow := false, timer := false, discard := false })) ∧
      (s.port.state ≠ .assembling →
        exec .lineBreak s = .next (s.setPort { s.port with receiver := .waiting, timer := false, discard := false })) ∧
      (s.port.state = .assembling → s.port.timer = true →
        exec .assemblyTimeout s = .next ((s.setPort { s.port.linkAnswer .timeout with
          state := .idle, stage := [], overflow := false, timer := false,
          receiver := match s.port.receiver with
            | .inFrame _ => .hunting | .waiting => .waiting | .hunting => .hunting }).reportFault .linkTimeout .none))) ∧
  (∀ s : State, s.resetHold = .running →
      (s.port.state ≠ .executing → s.port.sending = none → ∀ i st body,
        (s.port.withRequest (requestBytes i)).place ⟨st, false, body⟩ = { s.port with
          state := .executing, stage := requestBytes i, overflow := false, timer := false, discard := false,
          sending := some ⟨st, false, body⟩ }) ∧
      (∀ f, s.port.sending = some f →
        (f.link = false → s.port.state = .executing →
          exec .answerSent s = .next (s.setPort { s.port with
            state := .idle, stage := [], sending := s.port.queue.head?, queue := s.port.queue.tail })) ∧
        (f.link = true →
          exec .answerSent s = .next (s.setPort { s.port with
            sending := s.port.queue.head?, queue := s.port.queue.tail }))) ∧
      (s.port.sending = none → exec .answerSent s = .next s)) ∧
  (∀ (p : Port) (f : AnswerFrame) (st : Status),
      (p.sending = none → p.place f = { p with sending := some f }) ∧
      (p.sending.isSome = true → p.place f = { p with queue := p.queue ++ [f] }) ∧
      (p.queue.length < 3 → p.linkAnswer st = p.place ⟨st, true, []⟩) ∧
      (3 ≤ p.queue.length → p.linkAnswer st = p)) ∧
  (∀ (st : Status) (link : Bool) (payload bytes : List Byte), payload.length ≤ 255 →
      bytes = BitVec.ofNat 8 (st.code + if link then 128 else 0) :: BitVec.ofNat 8 payload.length :: payload →
      AnswerFrame.bytes ⟨st, link, payload⟩ = bytes ++ [crc8 bytes]) ∧
  ([Status.ok, .okClamped, .range, .state, .past, .duplicate, .full, .dirFull, .notEnrolled, .custodyOpen, .busy,
    .liveRecords, .positionTaken, .addressTaken, .notInRooms, .features, .adjacent, .noSeat, .alreadySeated,
    .inOtherSitting, .late, .notNow, .held, .budget, .badSerial, .wrongOwner, .limit, .unknownScript, .marked,
    .notABooklet, .incomplete, .order, .marksExist, .sequence, .checkFail, .timeout, .tooLong, .unknown,
    .malformed].map Status.code = List.range 39)

/-! ### Naming a record -/

/-- The requests that name a candidate record by number and sitting. -/
def namingRequests (n k : Nat) : List Instr :=
  [.withdraw n k, .retire n k, .readCandidate n k, .admitFor n k, .unplace n k, .submitFor n k, .scriptsOf n k,
   .remark n k, .readResult n k, .restFor n k true, .restFor n k false]

/-- A request that names no live record is refused with RANGE or NOT_ENROLLED, where the number has no directory entry
and where its chain has no record of the sitting, and changes nothing; READ_CHAIN, which names a number alone, stops
after the number's own checks (R3, R13). An index, or the delta of an EXTEND, outside its range is refused with RANGE,
and nothing changes (R12, R22, R24, R26, R35, R36, R40, R45 to R47, R62, R99, R100, R103, R117, R122, R123, R125, R130,
R131; READ_KEY of a sitting above 7 is the model's reading: log entry 29; an ISSUE whose serial is out of range too:
log entry 31). -/
def Obligations.UnknownNamesAndIndicesAreRefused : Prop :=
  (∀ (s : State) (n k : Nat) (i : Instr) (r d : Nat) (f : Byte), s.resetHold = .running → d ≤ 9999999 →
      i ∈ namingRequests n k ++ [.amend n k r r f, .place n k r, .move n k r, .issue n k d] →
      (99999999 < n ∨ 8 ≤ k → exec i s = answered i .range [] s s) ∧
      (n ≤ 99999999 → k < 8 → s.lookup n = none → exec i s = answered i .notEnrolled [] s s) ∧
      (n ≤ 99999999 → k < 8 → s.lookup n ≠ none →
        (∀ j c, j ∈ s.chain n → s.cand j = some c → c.sitting.val ≠ k) →
        exec i s = answered i .notEnrolled [] s s)) ∧
  (∀ (s : State) (n : Nat), s.resetHold = .running →
      (99999999 < n → exec (.readChain n) s = answered (.readChain n) .range [] s s) ∧
      (n ≤ 99999999 → s.lookup n = none → exec (.readChain n) s = answered (.readChain n) .notEnrolled [] s s)) ∧
  (∀ s : State, s.resetHold = .running →
      (∀ k delta, (delta = 0 ∨ 3600 < delta) →
        exec (.extend k delta) s = answered (.extend k delta) .range [] s s) ∧
      (∀ k h q es, 8 ≤ k → es ≠ [] → es.length ≤ 59 →
        ∀ i ∈ [Instr.retireSitting k, .hold k, .resume k, .readSitting k, .handOverSitting k, .keyOpen k h,
               .keyEntries k q es, .keySeal k, .keyDiscard k, .readKey k, .readKeyEntries k q q, .extend k q],
          exec i s = answered i .range [] s s) ∧
      (∀ k t rooms, 8 ≤ k → exec (.schedule k t rooms) s = answered (.schedule k t rooms) .range [] s s) ∧
      (∀ m, 4 ≤ m →
        ∀ i ∈ [Instr.resetRoom m, .readSegment m, .readRoom m, .setRoom m true 0 0],
          exec i s = answered i .range [] s s) ∧
      (∀ x, 512 ≤ x →
        ∀ i ∈ [Instr.readSeat x, .ackHand x, .seatState x 0, .seatState x 1, .defineSeat x 0 0 0 none 0],
          exec i s = answered i .range [] s s) ∧
      (∀ j, 1024 ≤ j → exec (.readSlot j) s = answered (.readSlot j) .range [] s s) ∧
      (∀ h, 86399 < h → exec (.setClock h) s = answered (.setClock h) .range [] s s))

/-! ### Chapter 1: the candidate roll and the directory -/

/-- The reads answer the records as they stand and change nothing: the roll, where a name that is resolved is that of a
live record on its number's chain, the clock and a sitting (R3, R12, R13, R40); the hall, the segments and the custody
table, whose READ_SCRIPT refuses a serial that names no script (R62, R103, R119); the keys, where READ_KEY_ENTRIES
refuses questions that are not the key's, the intake, the marks, the attention unit, the fault record and IDENTIFY
(R131, R144, R161, R174, R177, R181). No request changes the reset cause. Each answer carries its values in the order
its rule names them, a name by its number, an optional value behind one byte (R172); the rest of the layouts is the
model's: log entry 8; READ_SCRIPT_AT beyond the table: log entry 22. -/
def Obligations.ReadsAnswerTheRecords : Prop :=
  (∀ s : State, s.resetHold = .running →
      (∀ n k j c, s.resolve n k = .ok (j, c) →
        n ≤ 99999999 ∧ c.sitting.val = k ∧ j ∈ s.chain n ∧ s.cand j = some c ∧
        exec (.readCandidate n k) s = answered (.readCandidate n k) .ok (s.candidateBytes j c) s s) ∧
      (∀ j c, j < 1024 → s.cand j = some c →
        exec (.readSlot j) s = answered (.readSlot j) .ok (1 :: s.candidateBytes j c) s s) ∧
      (∀ j, j < 1024 → s.cand j = none → exec (.readSlot j) s = answered (.readSlot j) .ok [0] s s) ∧
      (∀ n, n ≤ 99999999 → (s.lookup n).isSome = true →
        exec (.readChain n) s = answered (.readChain n) .ok
          (be1 (s.chain n).length ++ (s.chain n).flatMap s.chainEntryBytes) s s) ∧
      exec .readRoll s = answered .readRoll .ok s.rollBytes s s ∧
      exec .readClock s = answered .readClock .ok
        (be3 s.hallTime ++ beFlag s.holdFilter.filtered ++ beFlag (xor s.holdFilter.high s.holdFilter.polarity) ++
          beFlag s.holdFilter.waiting ++ beFlag s.holdFilter.polarity ++ [s.heldSet]) s s ∧
      (∀ k : Fin 8, exec (.readSitting k) s = answered (.readSitting k) .ok s.sittings[k].bytes s s)) ∧
  (∀ s : State, s.resetHold = .running →
      (∀ x, x < 512 → exec (.readSeat x) s = answered (.readSeat x) .ok (s.seatRecordBytes x) s s) ∧
      (∀ m : Fin 4, exec (.readRoom m) s = answered (.readRoom m) .ok (s.roomBytes m) s s ∧
        exec (.readSegment m) s = answered (.readSegment m) .ok s.segments[m].bytes s s) ∧
      (∀ d y, validSerial d = true → s.script d = some y →
        exec (.readScript d) s = answered (.readScript d) .ok (s.scriptReport (d, y)) s s) ∧
      (∀ d,
        (9999999 < d → exec (.readScript d) s = answered (.readScript d) .range [] s s) ∧
        (d ≤ 9999999 → validSerial d = false →
          exec (.readScript d) s = answered (.readScript d) .badSerial [] s s) ∧
        (validSerial d = true → s.script d = none →
          exec (.readScript d) s = answered (.readScript d) .unknownScript [] s s)) ∧
      (∀ p y, s.scripts[p]? = some y →
        exec (.readScriptAt p) s = answered (.readScriptAt p) .ok (1 :: s.scriptReport y) s s) ∧
      (∀ p, s.scripts.length ≤ p → exec (.readScriptAt p) s = answered (.readScriptAt p) .ok [0] s s) ∧
      (∀ n k j c, s.resolve n k = .ok (j, c) →
        exec (.scriptsOf n k) s = answered (.scriptsOf n k) .ok
          (be1 (s.boundScripts j).length ++ (s.boundScripts j).flatMap scriptSummary) s s) ∧
      exec .readCustody s = answered .readCustody .ok s.custodyBytes s s) ∧
  (∀ s : State, s.resetHold = .running →
      (∀ k : Fin 8, exec (.readKey k) s =
        answered (.readKey k) .ok (be1 s.keys[k].state.code ++ s.keys[k].stateBytes) s s) ∧
      (∀ (k : Fin 8) (q count : Nat), s.keys[k].state ∈ [KeyState.loading, .released] → 1 ≤ q → 1 ≤ count →
        count ≤ 60 → q + count ≤ s.keys[k].header.q + 1 →
        exec (.readKeyEntries k q count) s = answered (.readKeyEntries k q count) .ok
          ((List.range' q count).flatMap (fun x => entryBytes (tableFind s.keys[k].entries x))) s s) ∧
      (∀ (k : Fin 8) (q count : Nat), s.keys[k].state ∈ [KeyState.loading, .released] →
        (q = 0 ∨ count = 0 ∨ 60 < count ∨ s.keys[k].header.q + 1 < q + count) →
        exec (.readKeyEntries k q count) s = answered (.readKeyEntries k q count) .range [] s s) ∧
      (∀ (k : Fin 8) (q count : Nat), s.keys[k].state ∈ [KeyState.empty, .sealed_] →
        exec (.readKeyEntries k q count) s = answered (.readKeyEntries k q count) .state [] s s) ∧
      exec .readIntake s = answered .readIntake .ok s.intakeBytes s s ∧
      (∀ n k j c, s.resolve n k = .ok (j, c) →
        exec (.readResult n k) s = answered (.readResult n k) .ok (s.resultBytes j c) s s) ∧
      exec .readAttention s = answered .readAttention .ok s.attentionBytes s s ∧
      exec .readFault s = answered .readFault .ok s.faultRecord.bytes s s ∧
      exec .identify s = answered .identify .ok
        [2, 0, 3, match s.resetCause with | .powerUp => 0 | .hallReset => 1] s s ∧
      (∀ i t, (ownerRule i).isSome = true → exec i s = .next t → t.resetCause = s.resetCause)) ∧
  -- how a value, a name and an option are sent
  (∀ (α : Type) (f : α → List Byte),
      (∀ a, beOpt f (some a) = 1 :: f a) ∧ beOpt f none = [0] ∧ ∀ l, beList f l = be1 l.length ++ l.flatMap f) ∧
  (∀ i : Int, -32768 ≤ i → i ≤ 32767 → beInt2 i = be2 (if i < 0 then i + 65536 else i).toNat) ∧
  ([CandState.expected, .seated, .active, .resting, .done, .cleared, .absent, .withdrawn].map CandState.code =
      List.range 8 ∧
    [SittingState.unscheduled, .scheduled, .admitting, .reading, .writing, .closing, .closed].map SittingState.code =
      List.range 7 ∧
    [SeatState.outOfUse, .free, .held, .occupied, .vacated].map SeatState.code = List.range 5 ∧
    [DeskStatus.unbound, .unknown, .present, .lost].map DeskStatus.code = List.range 4 ∧
    [PostStatus.unknown, .present, .lost].map PostStatus.code = List.range 3 ∧
    [Separation.orthogonal, .full].map Separation.code = List.range 2 ∧
    [FillPattern.rowMajor, .serpentine, .columnMajor].map FillPattern.code = List.range 3 ∧
    (∀ a, [LineState.disabled, .master, .awaiting a].map LineState.code = List.range 3) ∧
    [ScriptKind.booklet, .sheet].map ScriptKind.code = List.range 2 ∧
    [ScriptState.issued, .submitted, .collected, .marking, .marked, .handed, .voided].map ScriptState.code =
      List.range 7 ∧
    [CustodyReason.wrongOwner, .full, .badSerial, .unknownScript, .notSubmitted, .voided, .wrongRoom].map
      CustodyReason.code = List.range 7 ∧
    [KeyState.empty, .loading, .sealed_, .released].map KeyState.code = List.range 4 ∧
    [BufferState.free, .filling, .queued, .taken, .decided].map BufferState.code = List.range 5 ∧
    [SheetForm.wellFormed, .malformed].map SheetForm.code = List.range 2 ∧
    [ReceiveState.idle, .filling, .discarding].map ReceiveState.code = List.range 3 ∧
    [FaultClass.deskCorrupt, .deskLost, .sheetMalformed, .linkCheck, .linkTimeout].map FaultClass.code =
      List.range 5) ∧
  -- the layouts of the roll and of a sitting
  (∀ (x : SeatCopy) (r : ResultRecord) (a : Accumulator) (y : SheetResult),
      x.bytes = be2 x.index ++ be1 x.room.val ++ be1 x.row ++ be1 x.column ∧
      r.bytes = be2 r.total ++ be2 r.smax ++ be2 r.perMille ++ be1 r.band ++ beFlag r.noMax ++ beFlag r.review ∧
      a.bytes = be1 a.pages.toNat ++ a.sums.toList.flatMap beInt2 ++ be1 a.reviewCount ∧
      y.bytes = y.sums.toList.flatMap beInt2 ++ beList be1 y.review ++ beFlag y.overflow) ∧
  (∀ (s : State) (j x : Nat) (c : Candidate),
      (∀ p, (s.seat x).place = some p → s.seatBytes x = SeatCopy.bytes ⟨x, p.room, p.row, p.column⟩) ∧
      ((s.seat x).place = none → s.seatBytes x = be2 x) ∧
      s.candidateBytes j c = be4 c.number ++ be1 c.sitting.val ++ be1 c.state.code ++ be1 c.allowance ++
        be1 c.restRate ++ be1 c.required.toNat ++ beOpt s.seatBytes c.currentSeat ++
        beOpt SeatCopy.bytes c.seatOfRecord ++
        [c.flags.confirmed, c.flags.lateArrival, c.flags.clash, c.flags.capped, c.flags.warned, c.flags.withdrawn,
          c.flags.noScript].flatMap beFlag ++
        beOpt be2 c.ext ++ beOpt be2 c.restBudget ++ be2 c.restUsed ++ beOpt be3 c.personalEnd ++
        beOpt be2 c.nextRecord ++ c.acc.bytes ++ beOpt ResultRecord.bytes c.result ++ be2 j ∧
      (s.cand j = some c →
        s.chainEntryBytes j = be1 c.sitting.val ++ be1 c.state.code ++ be2 j ++ beFlag c.flags.clash) ∧
      s.rollBytes = be2 s.roll.length ++ be2 (1024 - s.roll.length) ++
        ([0, 1, 2, 3, 4, 5, 6, 7] : List (Fin 8)).flatMap (fun k =>
          be2 (s.roll.filter (fun y => y.2.sitting == k)).length) ++
        be1 s.dirPages.length ++ be1 (160 - s.dirPages.length) ++ be2 (s.dirPages.map (fun y => y.2.used.length)).sum ∧
      s.resultBytes j c = be1 c.state.code ++ c.acc.bytes ++ beOpt ResultRecord.bytes c.result ++
        beList (fun y => be3 y.1 ++ be1 (y.2.page.getD 0) ++
            (match y.2.result with | some r => r.bytes | none => []))
          ((s.boundScripts j).filter (fun y => y.2.state == .marked)) ++
        beOpt be1 (if s.keys[c.sitting].state ∈ [KeyState.sealed_, .released] then
          some ((s.keys[c.sitting].derived.map KeyDerived.pages).getD 0) else none)) ∧
  (∀ g : Sitting, g.bytes = be1 g.state.code ++ be3 g.t0 ++ be2 g.r ++ be2 g.w ++ be2 g.l ++ be2 g.aw ++ be2 g.e1 ++
      be2 g.e2 ++ be2 g.v ++ be1 g.rooms.length ++
      (g.rooms.map (fun (m : Fin 4) => BitVec.ofNat 8 m.val) ++ [0, 0, 0, 0]).take 4 ++
      be1 ((if g.hold.hall then 1 else 0) + if g.hold.sitting then 2 else 0) ++ be3 g.h ++ be3 g.e ++
      if g.state ∈ [SittingState.unscheduled, .scheduled] then []
        else be3 g.baseEnd ++ beFlag g.admissionOpen ++ openingBytes g) ∧
  -- the layouts of the hall, the segments, the scripts and the keys
  (∀ (s : State) (x : Nat) (m : Fin 4) (v : Seat), v = s.seat x →
      s.seatRecordBytes x = be2 x ++ beOpt (fun (p : SeatPlace) => be1 p.room.val ++ be1 p.row ++ be1 p.column ++
          be1 (p.desk.getD 255) ++ be1 p.features.toNat) v.place ++
        be1 v.state.code ++ beOpt be2 v.candidate ++ beFlag v.handRaised ++ be1 v.deskStatus.code ++
        be1 v.missCount ++ beFlag v.stale ++
        (match v.candidate.bind s.cand with
          | some c => be4 c.number ++ be1 c.sitting.val ++ be1 c.state.code
          | none => []) ∧
      s.roomBytes m = beFlag s.rooms[m].enabled ++ be1 s.rooms[m].separation.code ++ be1 s.rooms[m].fill.code ++
        beOpt (fun (r : DoorRefusal) => be4 r.number ++ be1 r.reason.code ++ be3 r.time) s.rooms[m].lastRefusal ++
        beOpt (fun (w : WrongSeat) => s.seatBytes w.seat ++ be4 w.number ++ be3 w.time) s.rooms[m].lastWrongSeat ++
        [SeatState.outOfUse, .free, .held, .occupied, .vacated].flatMap (fun st =>
          be2 (s.seats.filter (fun y => y.2.place.map SeatPlace.room == some m && y.2.state == st)).length) ++
        [DeskStatus.unbound, .unknown, .present, .lost].flatMap (fun st =>
          be1 (s.seats.filter (fun y => y.2.binds.map Prod.fst == some m && y.2.deskStatus == st)).length)) ∧
  (∀ g : Segment, g.bytes = be1 g.line.code ++ beOpt be1 (match g.line with | .awaiting a => some a | _ => none) ++
      beFlag g.timeDue ++ beFlag g.doorSampled ++ be1 g.rotation ++ be1 g.postStatus.code ++ be1 g.postMiss ++
      beList (fun e => be1 e.address ++ be1 e.content.kind.code ++ e.content.bytes) g.queue) ∧
  (∀ (s : State) (d : Nat) (y : Script),
      s.scriptReport (d, y) = be3 d ++ be1 y.kind.code ++ be2 y.slot ++ be1 y.sitting.val ++ y.seatAtIssue.bytes ++
        be1 y.state.code ++ beOpt be3 y.submittedAt ++ beOpt be1 y.page ++ beOpt SheetResult.bytes y.result ++
        be2 (s.scripts.filter (fun z => decide (z.1 < d))).length ++
        (match s.cand y.slot with
          | some c => be4 c.number ++ be1 c.sitting.val ++ be1 c.state.code
          | none => []) ∧
      scriptSummary (d, y) = be3 d ++ be1 y.kind.code ++ be1 y.state.code ∧
      s.custodyBytes = be2 s.scripts.length ++ be2 (2048 - s.scripts.length) ++
        [ScriptState.issued, .submitted, .collected, .marking, .marked, .handed, .voided].flatMap (fun st =>
          be2 (s.scripts.filter (fun z => z.2.state == st)).length) ++
        beOpt (fun (r : CustodyRefusal) => be3 r.serial ++ be1 r.reason.code ++ be1 r.room.val ++ be1 r.address ++
          be3 r.time) s.lastCustodyRefusal) ∧
  (∀ (v : KeySlot) (a : OptionSet) (w p : Nat) (sec : Fin 4),
      (v.state = .empty → v.stateBytes = []) ∧
      (v.state = .loading → tableSorted v.entries = true → v.stateBytes = v.header.bytes ++
        be1 ((List.range' 1 v.header.q).filter (fun q => (tableFind v.entries q).isSome)).length ++
        beOpt be1 ((List.range' 1 v.header.q).find? (fun q => (tableFind v.entries q).isNone))) ∧
      (∀ d, v.state ∈ [KeyState.sealed_, .released] → v.derived = some d →
        v.stateBytes = v.header.bytes ++ be1 d.pages ++ d.totals.toList.flatMap be2 ++
          d.maxima.toList.flatMap be2 ++ be2 d.smax) ∧
      entryBytes none = [0, 0, 0, 0] ∧ entryBytes (some .void) = [128, 0, 0, 0] ∧
      entryBytes (some (.answer a w p sec)) = be1 a.toNat ++ be1 w ++ be1 p ++ be1 sec.val) ∧
  -- the layouts of the intake, the attention unit and the fault record
  (∀ (s : State) (b : SheetBuffer) (held : Nat → Option Nat),
      held = (fun n => if b.state = .free then none else some n) →
      b.bytes = be1 b.state.code ++ beOpt be1 (held b.number) ++ beOpt be3 (held b.serial) ++
        beOpt be1 (held b.page) ++ beOpt be1 (held b.rows.length) ++ beOpt (fun f => be1 (SheetForm.code f)) b.form ++
        beOpt (fun (v : Verdict) => match v with
          | .accept => be1 1 | .acceptReview => be1 2 | .reject why => be1 3 ++ be1 why.code | .cleared => be1 4)
          b.verdict ∧
      s.intakeBytes = be1 s.intake.receive.code ++ beFlag s.intake.sheetReady ++ beFlag s.intake.resetOwed ++
        be1 s.intake.nextNumber ++
        beOpt (fun (r : LastReject) => be1 r.number ++ be3 r.serial ++ be1 r.page ++ be1 r.reason.code ++ be3 r.time)
          s.intake.lastReject ++
        s.intake.buffers.toList.flatMap SheetBuffer.bytes ++ beList (fun (x : Fin 4) => be1 x.val) s.intake.order ++
        beFlag s.hand.isSome) ∧
  (∀ s : State, ∃ pending enabled : Byte,
      s.attentionBytes = pending :: enabled :: (s.attention.toList.flatMap (fun g => be1 g.level ++ be1 g.count) ++
        beOpt (fun (i : Fin 6) => be1 i.val) (leadingGroup s.attention)) ∧
      pending.toNat < 64 ∧ enabled.toNat < 64 ∧
      ∀ i : Fin 6, pending.getLsbD i.val = s.attention[i].pending ∧ enabled.getLsbD i.val = s.attention[i].enabled) ∧
  (∀ (cls : FaultClass) (detail : FaultDetail) (time : Nat) (more : Bool),
      FaultRecord.bytes ⟨none, more⟩ = [0, 0, 0, 0] ++ beFlag more ∧
      FaultRecord.bytes ⟨some ⟨cls, detail, time⟩, more⟩ = [1, 1] ++ be1 cls.code ++
        (match detail with
          | .unit m a => 1 :: (be1 m.val ++ be1 a) | .serial d => 1 :: be3 d | .none => [0]) ++
        1 :: be3 time ++ beFlag more)

/-- ENROL in an open sitting creates the record of R5 in the lowest free slot; CLASH is set on it and on every record
of the number whose interval overlaps its own, with one cause, and every other record keeps all but its links (R2, R4,
R5, R7). Two intervals from T0 to T0 + R + W, both ends included, overlap where each starts at or before the end of the
other (R7). The refusals RANGE, STATE, DUPLICATE, FULL and DIR_FULL, in their order, change nothing (R4). -/
def Obligations.EnrolCreatesARecord : Prop :=
  (∀ t u : Sitting, t.overlaps u = true ↔ t.t0 ≤ u.t0 + u.r + u.w ∧ u.t0 ≤ t.t0 + t.r + t.w) ∧
  (∀ (s : State) (n : Nat) (k : Fin 8) (a r : Nat) (f : Byte) (j : Nat),
      s.resetHold = .running → s.storeLaw = true → n ≤ 99999999 →
      (s.sittings[k].state ∈ [SittingState.scheduled, .admitting, .reading] ∨
        (s.sittings[k].state = .writing ∧ s.sittings[k].e < s.sittings[k].r + s.sittings[k].l)) →
      (∀ i d, s.cand i = some d → ¬ (d.number = n ∧ d.sitting = k)) →
      j < 1024 → s.cand j = none → (∀ i, i < j → s.cand i ≠ none) →
      s.directoryRoom n = true →
      ∃ t c,
        exec (.enrol n k a r f) s = answered (.enrol n k a r f) (clampStatus (100 < a ∨ 20 < r ∨ 64 ≤ f.toNat))
          (be2 j ++ beFlag c.flags.clash) s t ∧
        t = { s with roll := t.roll, dirRoot := t.dirRoot, dirPages := t.dirPages, attention := t.attention } ∧
        t.cand j = some c ∧
        c.unlinked =
          { number := n, sitting := k, state := .expected, allowance := min a 100, restRate := min r 20,
            required := f.setWidth 6, currentSeat := none, seatOfRecord := none,
            flags := ⟨false, false, false, false, false, false, false⟩, ext := none, restBudget := none, restUsed := 0,
            personalEnd := none, nextRecord := none,
            acc := { pages := 0, sums := Vector.replicate 4 0, reviewCount := 0 }, result := none } ∧
        (c.flags.clash = true ↔
          ∃ i d, s.cand i = some d ∧ d.number = n ∧ s.sittings[k].overlaps s.sittings[d.sitting] = true) ∧
        t.attention = (if c.flags.clash then (s.raise .admission).attention else s.attention) ∧
        (∀ i, i ≠ j → s.cand i = none → t.cand i = none) ∧
        (∀ i d, s.cand i = some d → ∃ d', t.cand i = some d' ∧ d'.unlinked = d.unlinked ∧
          d'.flags.clash =
            (d.flags.clash || (d.number == n && s.sittings[k].overlaps s.sittings[d.sitting])))) ∧
  (∀ (s : State) (n : Nat) (k : Fin 8) (a r : Nat) (f : Byte) (i : Instr),
      s.resetHold = .running → n ≤ 99999999 → i = .enrol n k a r f →
      ((s.sittings[k].state ∈ [SittingState.unscheduled, .closing, .closed] ∨
        (s.sittings[k].state = .writing ∧ s.sittings[k].r + s.sittings[k].l ≤ s.sittings[k].e)) →
        exec i s = answered i .state [] s s) ∧
      ((s.sittings[k].state ∈ [SittingState.scheduled, .admitting, .reading] ∨
        (s.sittings[k].state = .writing ∧ s.sittings[k].e < s.sittings[k].r + s.sittings[k].l)) →
        ((∃ y ∈ s.roll, y.2.number = n ∧ y.2.sitting = k) → exec i s = answered i .duplicate [] s s) ∧
        ((∀ y ∈ s.roll, ¬ (y.2.number = n ∧ y.2.sitting = k)) →
          ((∀ j, j < 1024 → s.cand j ≠ none) → exec i s = answered i .full [] s s) ∧
          ((∃ j, j < 1024 ∧ s.cand j = none) → s.lookup n = none →
            (∀ p ∈ s.bucketPages (n % 64), ∀ x : Fin 8, (slotsOf s.dirPages p)[x] ≠ none) →
            (∀ p, p < 160 → tableFind s.dirPages p ≠ none) → exec i s = answered i .dirFull [] s s)))) ∧
  (∀ (s : State) (n k a r : Nat) (f : Byte), s.resetHold = .running → (99999999 < n ∨ 8 ≤ k) →
      exec (.enrol n k a r f) s = answered (.enrol n k a r f) .range [] s s)

/-- The directory: a bucket's pages follow the root entry and the next pages, a lookup finds the first slot in chain
order that holds the number, and a number's records follow its head and the next records (R14, R15, R17). ENROL links
its record into it: the first record of a number becomes the head and whole chain of a new directory slot, the first
free one of the bucket's pages, or slot 0 of the lowest-numbered page of the pool, linked at the end (R16), and a
further one stands before the first record of the chain whose (T0, sitting index) is greater, or at the end (R17). -/
def Obligations.EnrolLinksTheDirectory : Prop :=
  (∀ (s : State) (b n : Nat),
    ((s.bucketPages b).head? = tableFind s.dirRoot b ∧ (s.bucketPages b).length ≤ 160 ∧
      ∀ before p after, s.bucketPages b = before ++ p :: after → before.length < 159 →
        after.head? = (tableFind s.dirPages p).bind Page.next) ∧
    (∀ p pg, tableFind s.dirPages p = some pg → slotsOf s.dirPages p = pg.slots) ∧
    (∀ p x, s.dirPlace n = some (p, x) ↔ ∃ before after j, s.bucketPages (n % 64) = before ++ p :: after ∧
      (∀ q ∈ before, ∀ (y : Fin 8) i, (slotsOf s.dirPages q)[y] ≠ some ⟨n, i⟩) ∧
      (∀ (y : Fin 8) i, y < x → (slotsOf s.dirPages p)[y] ≠ some ⟨n, i⟩) ∧
      (slotsOf s.dirPages p)[x] = some ⟨n, j⟩) ∧
    (∀ j, s.lookup n = some j ↔ ∃ p x, s.dirPlace n = some (p, x) ∧ (slotsOf s.dirPages p)[x] = some ⟨n, j⟩) ∧
    ((s.chain n).head? = s.lookup n ∧ (s.chain n).length ≤ 8 ∧
      ∀ before j after, s.chain n = before ++ j :: after → before.length < 7 →
        after.head? = (s.cand j).bind Candidate.nextRecord) ∧
    (∀ j c, s.cand j = some c → s.chainKey j = s.sittings[c.sitting].t0 * 8 + c.sitting.val) ∧
    (s.directoryRoom n = true ↔ s.lookup n ≠ none ∨
      (∃ p ∈ s.bucketPages (n % 64), ∃ x : Fin 8, (slotsOf s.dirPages p)[x] = none) ∨
      ∃ p, p < 160 ∧ tableFind s.dirPages p = none) ∧
    (∀ k, s.enrolled n k = true ↔ ∃ y ∈ s.roll, y.2.number = n ∧ y.2.sitting = k) ∧
    (∀ j, s.freeRollSlot = some j ↔ j < 1024 ∧ s.cand j = none ∧ ∀ i, i < j → s.cand i ≠ none) ∧
    (∀ g : Sitting, g.enrolOpen = true ↔ g.state ∈ [SittingState.scheduled, .admitting, .reading] ∨
      (g.state = .writing ∧ g.e < g.r + g.l))) ∧
  ∀ (s : State) (n : Nat) (k : Fin 8) (a r : Nat) (f : Byte) (j : Nat),
    s.resetHold = .running → s.storeLaw = true → n ≤ 99999999 → s.sittings[k].enrolOpen = true →
    s.enrolled n k = false → s.freeRollSlot = some j → s.directoryRoom n = true →
    ∃ t st payload, exec (.enrol n k a r f) s = answered (.enrol n k a r f) st payload s t ∧
      (s.lookup n = none → (s.bucketPages (n % 64)).length < 160 →
        (∀ p ∈ s.bucketPages (n % 64), (tableFind s.dirPages p).isSome = true) →
        t.lookup n = some j ∧ t.chain n = [j]) ∧
      (s.lookup n = none → s.directoryLaw = true →
        (∀ before p after (x : Fin 8), s.bucketPages (n % 64) = before ++ p :: after →
          (∀ q ∈ before, ∀ y : Fin 8, (slotsOf s.dirPages q)[y] ≠ none) →
          (∀ y : Fin 8, y < x → (slotsOf s.dirPages p)[y] ≠ none) → (slotsOf s.dirPages p)[x] = none →
          t.dirPlace n = some (p, x) ∧ t.bucketPages (n % 64) = s.bucketPages (n % 64)) ∧
        (∀ p, (∀ q ∈ s.bucketPages (n % 64), ∀ y : Fin 8, (slotsOf s.dirPages q)[y] ≠ none) →
          tableFind s.dirPages p = none → (∀ q, q < p → tableFind s.dirPages q ≠ none) → p < 160 →
          t.dirPlace n = some (p, 0) ∧ t.bucketPages (n % 64) = s.bucketPages (n % 64) ++ [p])) ∧
      (s.lookup n ≠ none → (s.chain n).length < 8 → (∀ i ∈ s.chain n, (s.cand i).isSome = true) →
        ∃ before after, s.chain n = before ++ after ∧ t.chain n = before ++ j :: after ∧
          (∀ i ∈ before, s.chainKey i ≤ s.sittings[k].t0 * 8 + k) ∧
          (∀ i, after.head? = some i → s.sittings[k].t0 * 8 + k < s.chainKey i))

/-- AMEND replaces allowance, rest rate and required features of an EXPECTED or SEATED record, clamped and masked, and
nothing else; in any other state it is refused with STATE (R8). -/
def Obligations.AmendRewritesTheEnrolment : Prop :=
  ∀ (s : State) (n k a r : Nat) (f : Byte) (j : Nat) (c : Candidate),
    s.resetHold = .running → s.resolve n k = .ok (j, c) →
    (c.state ∈ [CandState.expected, .seated] →
      exec (.amend n k a r f) s = answered (.amend n k a r f) (clampStatus (100 < a ∨ 20 < r ∨ 64 ≤ f.toNat)) [] s
        (s.setCand j { c with allowance := min a 100, restRate := min r 20, required := f.setWidth 6 })) ∧
    (c.state ∉ [CandState.expected, .seated] →
      exec (.amend n k a r f) s = answered (.amend n k a r f) .state [] s s)

/-- WITHDRAW of an EXPECTED record makes it WITHDRAWN and frees a seat held for it, with a BLANK for the desk (R9, R56,
R58). WITHDRAW and SUBMIT_FOR of a SEATED, ACTIVE or RESTING record finish it: a NOTICE DONE is queued for the desk;
its ISSUED scripts become SUBMITTED; it becomes DONE at a VACATED seat while a bound script is ISSUED or SUBMITTED, and
CLEARED with its seat FREE and a BLANK for the desk otherwise, with NO_SCRIPT and a CUSTODY cause where it has none;
then its sitting is tested for its close (R9, R76, R77, R78, R111, R112). In any other state both are refused with
STATE (R9, R76). -/
def Obligations.WithdrawAndSubmitForEndTheRecord : Prop :=
  (∀ (s : State) (n k j : Nat) (c : Candidate),
      s.resetHold = .running → s.storeLaw = true → s.resolve n k = .ok (j, c) → c.state = .expected →
      (c.currentSeat = none →
        exec (.withdraw n k) s = answered (.withdraw n k) .ok [] s (s.setCand j { c with state := .withdrawn })) ∧
      (∀ i, c.currentSeat = some i → ∃ t,
        exec (.withdraw n k) s = answered (.withdraw n k) .ok [] s (closingTest c.sitting t) ∧
        t = { s with
          roll := tableInsert s.roll j { c with state := .withdrawn, currentSeat := none },
          seats := t.seats, segments := t.segments } ∧
        t.seats = (freedDesk i s).seats ∧ t.segments = (freedDesk i s).segments ∧
        s.sameButQueues t ∧
        (t.seat i).butStale =
          Seat.butStale { s.seat i with state := .free, candidate := none, handRaised := false } ∧
        ∀ x, x ≠ i → t.seat x = s.seat x)) ∧
  (∀ (s : State) (n k j : Nat) (c : Candidate) (i : Instr) (x : Nat),
      s.resetHold = .running → s.storeLaw = true → s.resolve n k = .ok (j, c) →
      c.state ∈ [CandState.seated, .active, .resting] → c.currentSeat = some x →
      i ∈ [Instr.withdraw n k, .submitFor n k] →
      ∃ t, exec i s = answered i .ok [] s (closingTest c.sitting t) ∧
        t = { s with
          roll := t.roll, seats := t.seats, segments := t.segments, attention := t.attention,
          scripts := s.scripts.map (fun y =>
            (y.1, if y.2.slot = j ∧ y.2.state = .issued then
              { y.2 with state := .submitted, submittedAt := some s.hallTime } else y.2)) } ∧
        t.seats = (finishedDesk x j s).seats ∧ t.segments = (finishedDesk x j s).segments ∧
        s.sameButQueues t ∧ (∀ y, y ≠ x → t.seat y = s.seat y) ∧
        ((∃ y ∈ s.scripts, y.2.slot = j ∧ y.2.state ∈ [ScriptState.issued, .submitted]) →
          t.roll = tableInsert s.roll j { c with
            state := .done, flags := { c.flags with withdrawn := c.flags.withdrawn || (i == .withdraw n k) } } ∧
          (t.seat x).butStale = Seat.butStale { s.seat x with state := .vacated, candidate := some j } ∧
          t.attention = s.attention) ∧
        ((∀ y ∈ s.scripts, y.2.slot = j → y.2.state ∉ [ScriptState.issued, .submitted]) →
          t.roll = tableInsert s.roll j { c with
            state := .cleared, currentSeat := none,
            flags := { c.flags with
              withdrawn := c.flags.withdrawn || (i == .withdraw n k),
              noScript := c.flags.noScript || (s.boundScripts j).isEmpty } } ∧
          (t.seat x).butStale =
            Seat.butStale { s.seat x with state := .free, candidate := none, handRaised := false } ∧
          t.attention = (if (s.boundScripts j).isEmpty then (s.raise .custody).attention else s.attention))) ∧
  (∀ (s : State) (n k j : Nat) (c : Candidate), s.resetHold = .running → s.resolve n k = .ok (j, c) →
      (c.state ∈ [CandState.done, .cleared, .absent, .withdrawn] →
        exec (.withdraw n k) s = answered (.withdraw n k) .state [] s s) ∧
      (c.state ∉ [CandState.seated, .active, .resting] →
        exec (.submitFor n k) s = answered (.submitFor n k) .state [] s s))

/-- RETIRE of a record in a final state whose scripts are all MARKED, HANDED or VOIDED removes the record and its
scripts, and closes its number's chain over the gap (R10, R11, R18). With a number's last live record its directory
slot becomes free, and a page left with no used slot is unlinked from its bucket and returns to the pool (R18). The
refusals STATE, BUSY and CUSTODY_OPEN, in their order, change nothing (R10). -/
def Obligations.RetireRemovesTheRecord : Prop :=
  (∀ (s : State) (n k j : Nat) (c : Candidate),
      s.resetHold = .running → s.storeLaw = true → s.resolve n k = .ok (j, c) → c.number = n →
      c.state ∈ [CandState.cleared, .absent, .withdrawn] →
      (∀ y ∈ s.scripts, y.2.slot = j → y.2.state ∈ [ScriptState.marked, .handed, .voided]) →
      ∃ t, exec (.retire n k) s = answered (.retire n k) .ok (be1 (s.boundScripts j).length) s t ∧
        t = { s with roll := t.roll, dirRoot := t.dirRoot, dirPages := t.dirPages, scripts := t.scripts } ∧
        t.cand j = none ∧
        (∀ d y, t.script d = some y ↔ s.script d = some y ∧ y.slot ≠ j) ∧
        (∀ i, i ≠ j → (t.cand i).map (fun d => { d with nextRecord := none }) =
          (s.cand i).map (fun d => { d with nextRecord := none })) ∧
        ((s.chain n).Nodup → (∀ i ∈ s.chain n, (s.cand i).isSome = true) → (s.chain n).filter (· != j) ≠ [] →
          t.chain n = (s.chain n).filter (· != j))) ∧
  (∀ (s : State) (n k j : Nat) (c : Candidate) (i : Instr),
      s.resetHold = .running → s.resolve n k = .ok (j, c) → i = .retire n k →
      (c.state ∉ [CandState.cleared, .absent, .withdrawn] → exec i s = answered i .state [] s s) ∧
      (c.state ∈ [CandState.cleared, .absent, .withdrawn] →
        ((∃ y ∈ s.scripts, y.2.slot = j ∧ y.2.state = .marking) → exec i s = answered i .busy [] s s) ∧
        ((∀ y ∈ s.scripts, y.2.slot = j → y.2.state ≠ .marking) →
          (∃ y ∈ s.scripts, y.2.slot = j ∧ y.2.state ∈ [ScriptState.issued, .submitted, .collected]) →
          exec i s = answered i .custodyOpen [] s s))) ∧
  (∀ (s : State) (n k j p : Nat) (x : Fin 8) (c : Candidate) (left : List Nat),
      s.resetHold = .running → s.storeLaw = true → s.directoryLaw = true → s.resolve n k = .ok (j, c) →
      c.state ∈ [CandState.cleared, .absent, .withdrawn] →
      (∀ y ∈ s.scripts, y.2.slot = j → y.2.state ∈ [ScriptState.marked, .handed, .voided]) →
      s.chain n = [j] → s.dirPlace n = some (p, x) → left = (s.bucketPages (n % 64)).filter (· != p) →
      ∃ t, exec (.retire n k) s = answered (.retire n k) .ok (be1 (s.boundScripts j).length) s t ∧
        t.lookup n = none ∧ (∀ n', n' ≠ n → t.lookup n' = s.lookup n') ∧
        (∀ b, b ≠ n % 64 → t.bucketPages b = s.bucketPages b) ∧
        (∀ q, q ≠ p → slotsOf t.dirPages q = slotsOf s.dirPages q) ∧
        ((∃ y : Fin 8, y ≠ x ∧ (slotsOf s.dirPages p)[y] ≠ none) →
          slotsOf t.dirPages p = (slotsOf s.dirPages p).set x none ∧
          t.bucketPages (n % 64) = s.bucketPages (n % 64)) ∧
        ((∀ y : Fin 8, y ≠ x → (slotsOf s.dirPages p)[y] = none) →
          tableFind t.dirPages p = none ∧ t.bucketPages (n % 64) = left ∧
          tableFind t.dirRoot (n % 64) = left.head?))

/-! ### Chapter 2: the hall clock and the sittings -/

/-- SET_CLOCK sets the hall time where no sitting is in ADMITTING to CLOSING and no SCHEDULED sitting's admission
opening would be reached, and is refused with STATE otherwise; RETIRE_SITTING of a sitting without live records gives
its record the UNSCHEDULED values and empties its key slot (R22, R26). -/
def Obligations.SetClockAndRetireSitting : Prop :=
  ∀ s : State, s.resetHold = .running →
    (∀ time, time ≤ 86399 →
      (∀ k : Fin 8, s.sittings[k].state ∈ [SittingState.unscheduled, .closed] ∨
        (s.sittings[k].state = .scheduled ∧ time + s.sittings[k].aw < s.sittings[k].t0)) →
      exec (.setClock time) s = answered (.setClock time) .ok (be3 time) s { s with hallTime := time }) ∧
    (∀ (time : Nat) (k : Fin 8), time ≤ 86399 →
      (s.sittings[k].state ∈ [SittingState.admitting, .reading, .writing, .closing] ∨
        (s.sittings[k].state = .scheduled ∧ s.sittings[k].t0 ≤ time + s.sittings[k].aw)) →
      exec (.setClock time) s = answered (.setClock time) .state [] s s) ∧
    (∀ k, 8 ≤ k → exec (.retireSitting k) s = answered (.retireSitting k) .range [] s s) ∧
    (∀ k : Fin 8,
      (s.sittings[k].state ∈ [SittingState.unscheduled, .reading, .writing, .closing] →
        exec (.retireSitting k) s = answered (.retireSitting k) .state [] s s) ∧
      (s.sittings[k].state ∈ [SittingState.scheduled, .admitting, .closed] →
        ((∃ y ∈ s.roll, y.2.sitting = k) →
          exec (.retireSitting k) s = answered (.retireSitting k) .liveRecords [] s s) ∧
        ((∀ y ∈ s.roll, y.2.sitting ≠ k) →
          exec (.retireSitting k) s = answered (.retireSitting k) .ok [] s { s with
            sittings := s.sittings.set k
              { state := .unscheduled, t0 := 0, r := 0, w := 0, l := 0, aw := 0, e1 := 0, e2 := 0, v := 0,
                rooms := [], hold := ⟨false, false⟩, h := 0, e := 0 },
            keys := s.keys.set k KeySlot.emptySlot })))

/-- SCHEDULE writes the timetable of an UNSCHEDULED or SCHEDULED sitting and opens its admission where T0 − Aw is
reached; where the sitting has live records and T0, R or W changed, CLASH is set on every record of one number that now
overlaps with one of the sitting, with one cause for the request (the model's choice: log entry 30), and every record
keeps all but its links (R19, R24, R25). Its room list is the first rooms of the argument, so many as the count says,
in their order (R24, R172). Each record of the sitting stands in its chain where R17 puts it under the new T0, and the
other records keep their order (R19, step 1). The refusals STATE, RANGE and PAST, in their order, change nothing (R24).
-/
def Obligations.ScheduleWritesTheTimetable : Prop :=
  (∀ s : State, s.clashCount = (s.roll.filter (fun y => y.2.flags.clash)).length) ∧
  (∀ g : Sitting, g.aw ≤ g.t0 → openingBytes g = be3 (g.t0 - g.aw)) ∧
  (∀ (list : RoomListArg) (rooms : List (Fin 4)), roomListOf list = some rooms ↔
    1 ≤ list.count ∧ list.count ≤ 4 ∧ rooms.Nodup ∧
      rooms.map (fun (m : Fin 4) => m.val) = [list.r0, list.r1, list.r2, list.r3].take list.count) ∧
  (∀ (s : State) (k : Fin 8) (t : TimetableArg) (list : RoomListArg) (rooms : List (Fin 4)) (new : Sitting),
      s.resetHold = .running → s.storeLaw = true →
      s.sittings[k].state ∈ [SittingState.unscheduled, .scheduled] → roomListOf list = some rooms →
      t.t0 ≤ 86399 → t.r ≤ 1800 → 600 ≤ t.w → t.w ≤ 21600 → t.l ≤ t.w → t.l ≤ 3600 → t.aw ≤ 3600 → t.e1 ≤ 3600 →
      t.e2 ≤ 3600 → t.v ≤ 3600 → t.t0 + t.r + t.w ≤ 86399 → s.hallTime < t.t0 →
      new = { state := if t.t0 ≤ s.hallTime + t.aw then .admitting else .scheduled, t0 := t.t0, r := t.r, w := t.w,
              l := t.l, aw := t.aw, e1 := t.e1, e2 := t.e2, v := t.v, rooms := rooms, hold := ⟨false, false⟩, h := 0,
              e := 0 } →
      ((∀ y ∈ s.roll, y.2.sitting ≠ k) →
        exec (.schedule k t list) s = answered (.schedule k t list) .ok (be1 new.state.code ++ openingBytes new) s
          { s with sittings := s.sittings.set k new }) ∧
      ∃ u, exec (.schedule k t list) s =
          answered (.schedule k t list) .ok (be1 new.state.code ++ openingBytes new) s u ∧
        u = { s with
          sittings := s.sittings.set k new, roll := u.roll, dirPages := u.dirPages, attention := u.attention } ∧
        u.attention = (if s.clashCount < u.clashCount then (s.raise .admission).attention else s.attention) ∧
        (∀ i, s.cand i = none → u.cand i = none) ∧
        (∀ i d, s.cand i = some d → ∃ d', u.cand i = some d' ∧ d'.unlinked = d.unlinked ∧
          (d'.flags.clash = true ↔ d.flags.clash = true ∨
            (¬ (s.sittings[k].t0 = t.t0 ∧ s.sittings[k].r = t.r ∧ s.sittings[k].w = t.w) ∧
              ∃ i' d'', i' ≠ i ∧ s.cand i' = some d'' ∧ d''.number = d.number ∧ (d.sitting = k ∨ d''.sitting = k) ∧
                u.sittings[d.sitting].overlaps u.sittings[d''.sitting] = true))) ∧
        (s.directoryLaw = true → ∀ n,
          ((∀ j d, s.cand j = some d → d.number = n → d.sitting ≠ k) → u.chain n = s.chain n) ∧
          (∀ j d, s.cand j = some d → d.number = n → d.sitting = k → ∃ before after,
            (s.chain n).filter (· != j) = before ++ after ∧ u.chain n = before ++ j :: after ∧
            (∀ i ∈ before, u.chainKey i < u.chainKey j) ∧ (∀ i ∈ after, u.chainKey j < u.chainKey i)))) ∧
  (∀ (s : State) (k : Fin 8) (t : TimetableArg) (list : RoomListArg) (named : List Nat) (i : Instr) (good : Prop),
      s.resetHold = .running → i = .schedule k t list → named = [list.r0, list.r1, list.r2, list.r3].take list.count →
      (good ↔ 1 ≤ list.count ∧ list.count ≤ 4 ∧ (∀ r ∈ named, r < 4) ∧ named.Nodup ∧ t.t0 ≤ 86399 ∧ t.r ≤ 1800 ∧
        600 ≤ t.w ∧ t.w ≤ 21600 ∧ t.l ≤ t.w ∧ t.l ≤ 3600 ∧ t.aw ≤ 3600 ∧ t.e1 ≤ 3600 ∧ t.e2 ≤ 3600 ∧ t.v ≤ 3600 ∧
        t.t0 + t.r + t.w ≤ 86399) →
      (s.sittings[k].state ∉ [SittingState.unscheduled, .scheduled] → exec i s = answered i .state [] s s) ∧
      (s.sittings[k].state ∈ [SittingState.unscheduled, .scheduled] →
        (¬ good → exec i s = answered i .range [] s s) ∧
        (good → t.t0 ≤ s.hallTime → exec i s = answered i .past [] s s)))

/-- HOLD and RESUME change the SITTING source of a running sitting and answer the sources now in force; where a RESUME
empties them an END is queued for each ACTIVE and RESTING record of the sitting; in any other phase they are refused
with STATE (R35, R79). The byte of the sources is the model's (log entry 8), and so is the order in which the records
are taken (log entry 9). -/
def Obligations.HoldAndResumeChangeTheSource : Prop :=
  (∀ (ι : Type) (f : ι → State → State) (j : ι) (js : List ι) (s : State),
    takeInTurn [] f s = s ∧ takeInTurn (j :: js) f s = takeInTurn js f (f j s)) ∧
  (∀ (s : State) (k : Fin 8) (j : Nat),
    s.timedOf k = (s.roll.filter (fun y =>
      y.2.sitting == k && (y.2.state == .active || y.2.state == .resting))).map Prod.fst ∧
    (∀ c, s.cand j = some c → showEndOf j s = showEnd c s) ∧ (s.cand j = none → showEndOf j s = s)) ∧
  ∀ (s : State) (k : Fin 8), s.resetHold = .running →
    (s.sittings[k].state ∈ [SittingState.reading, .writing, .closing] →
      exec (.hold k) s = answered (.hold k) .ok (be1 (s.sittings[k].hold.hall.toNat + 2)) s
        (s.setSitting k { s.sittings[k] with hold := ⟨s.sittings[k].hold.hall, true⟩ }) ∧
      (s.sittings[k].hold = ⟨false, true⟩ →
        exec (.resume k) s = answered (.resume k) .ok [0] s
          (takeInTurn (s.timedOf k) showEndOf
            (s.setSitting k { s.sittings[k] with hold := ⟨false, false⟩ }))) ∧
      (s.sittings[k].hold ≠ ⟨false, true⟩ →
        exec (.resume k) s = answered (.resume k) .ok (be1 s.sittings[k].hold.hall.toNat) s
          (s.setSitting k { s.sittings[k] with hold := ⟨s.sittings[k].hold.hall, false⟩ }))) ∧
    (s.sittings[k].state ∉ [SittingState.reading, .writing, .closing] →
      ∀ i ∈ [Instr.hold k, .resume k, .extend k 60], exec i s = answered i .state [] s s)

/-- EXTEND lengthens W to at most 21 600, takes a CLOSING sitting back to WRITING where R + W is greater than e again,
and recomputes extension, rest budget and personal end of the sitting's ACTIVE and RESTING records where W changed,
with an END from the new values for the desk of each; no other record changes (R36, R37, R64, R65, R80). The order in
which the records are taken is the model's (log entry 9). -/
def Obligations.ExtendLengthensTheSitting : Prop :=
  ∀ (s : State) (k : Fin 8) (delta : Nat) (new : Sitting),
    s.resetHold = .running → s.storeLaw = true → 1 ≤ delta → delta ≤ 3600 →
    s.sittings[k].state ∈ [SittingState.reading, .writing, .closing] →
    new = { s.sittings[k] with
      w := min (s.sittings[k].w + delta) 21600,
      state := if s.sittings[k].state = .closing ∧
          s.sittings[k].e < s.sittings[k].r + min (s.sittings[k].w + delta) 21600 then .writing
        else s.sittings[k].state } →
    ∃ t, exec (.extend k delta) s =
        answered (.extend k delta) (clampStatus (21600 < s.sittings[k].w + delta))
          (be2 new.w ++ be3 (min 86399 (new.t0 + new.h + new.r + new.w)) ++ be1 new.state.code) s t ∧
      t = { s with
        sittings := s.sittings.set k new, roll := t.roll, seats := t.seats, segments := t.segments } ∧
      (new.w = s.sittings[k].w → t = { s with sittings := s.sittings.set k new }) ∧
      (new.w ≠ s.sittings[k].w → t = takeInTurn (s.timedOf k) showEndOf
        { s with sittings := s.sittings.set k new, roll := t.roll }) ∧
      s.sameButQueues t ∧ (∀ x, (t.seat x).butStale = (s.seat x).butStale) ∧
      (∀ i, s.cand i = none → t.cand i = none) ∧
      (∀ i d, s.cand i = some d →
        (d.sitting = k ∧ d.state ∈ [CandState.active, .resting] ∧ new.w ≠ s.sittings[k].w →
          t.cand i = some { d with
            ext := some ((new.w * d.allowance + 5999) / 6000 * 60),
            restBudget := some ((new.w * d.restRate + 59) / 60),
            personalEnd := some (min 86399
              (new.t0 + new.h + new.r + new.w + (new.w * d.allowance + 5999) / 6000 * 60 + d.restUsed)) }) ∧
        (¬ (d.sitting = k ∧ d.state ∈ [CandState.active, .resting] ∧ new.w ≠ s.sittings[k].w) →
          t.cand i = some d))

/-- The test for a sitting's close: a CLOSING sitting without a record that is SEATED, ACTIVE or RESTING, or EXPECTED
with a seat, enters CLOSED with no hold source, releases a SEALED key and raises a TIME cause; otherwise nothing
happens (R31, R127). -/
def Obligations.SittingClosesWhenNoRecordIsLeft : Prop :=
  ∀ (s : State) (k : Fin 8),
    (s.sittings[k].state = .closing →
      (∀ y ∈ s.roll, y.2.sitting = k → y.2.state ∉ [CandState.seated, .active, .resting] ∧
        (y.2.state = .expected → y.2.currentSeat = none)) →
      closingTest k s = { s with
        sittings := s.sittings.set k { s.sittings[k] with state := .closed, hold := ⟨false, false⟩ },
        keys := if s.keys[k].state = .sealed_ then s.keys.set k { s.keys[k] with state := .released } else s.keys,
        attention := (s.raise .time).attention }) ∧
    ((s.sittings[k].state ≠ .closing ∨ ∃ y ∈ s.roll, y.2.sitting = k ∧
        (y.2.state ∈ [CandState.seated, .active, .resting] ∨
          (y.2.state = .expected ∧ y.2.currentSeat ≠ none))) →
      closingTest k s = s)

/-- A hall second advances the clock to at most 86 399; every running sitting accrues it, into H where it is held and
into e where it is not; every segment that is not DISABLED owes a TIME or is sending it; timetables, directory, rooms,
intake and link port keep their state (R21, R27, R85, R87). The sittings take the second first, then the ACTIVE and
RESTING records of the sittings that were running before it, at day end in the way of day end, and then the segments
(R21, R38, R66, R81; the order of the records and of the segments: log entry 9). -/
def Obligations.HallSecondMovesTheClock : Prop :=
  (∀ (s u z : State) (all : List (Fin 8)), s.resetHold = .running → all = [0, 1, 2, 3, 4, 5, 6, 7] →
    u = takeInTurn all (sittingSecond (decide (s.hallTime < 86399)))
      { s with hallTime := if s.hallTime < 86399 then s.hallTime + 1 else s.hallTime } →
    z = (if s.hallTime = 86398 then takeInTurn all dayEndSitting u else u) →
    exec .hallSecond s = .next (takeInTurn [0, 1, 2, 3] broadcastTime
      (takeInTurn (z.takersOf s.sittings)
        (if s.hallTime = 86398 then recordDayEnd s.sittings else recordSecond s.sittings) z))) ∧
  (∀ (u : State) (before : Vector Sitting 8) (m : Fin 4),
    u.takersOf before = (u.roll.filter (fun y =>
      (y.2.state == .active || y.2.state == .resting) && before[y.2.sitting].running)).map Prod.fst ∧
    (u.segments[m].line = .disabled → broadcastTime m u = u) ∧
    (u.segments[m].line ≠ .disabled →
      broadcastTime m u = kickSegment m (u.setSegment m { u.segments[m] with timeDue := true }))) ∧
  ∀ s : State, s.resetHold = .running → ∃ t, exec .hallSecond s = .next t ∧
    t = { s with
      hallTime := if s.hallTime < 86399 then s.hallTime + 1 else s.hallTime, sittings := t.sittings, roll := t.roll,
      seats := t.seats, segments := t.segments, scripts := t.scripts, keys := t.keys, attention := t.attention } ∧
    (∀ k : Fin 8, t.sittings[k].timetable = s.sittings[k].timetable) ∧
    (∀ k : Fin 8, s.sittings[k].running = true →
      t.sittings[k].h = s.sittings[k].h + s.sittings[k].held.toNat ∧
      t.sittings[k].e = s.sittings[k].e + (!s.sittings[k].held).toNat) ∧
    (∀ m : Fin 4, t.segments[m].line = s.segments[m].line ∧
      (s.segments[m].line ≠ .disabled →
        t.segments[m].timeDue = true ∨ ∃ held, t.segments[m].sending = some (.time t.hallTime held)))

/-- The phases at a hall second that moves the clock and is not day end: admission opens at T0 − Aw, the clock of the
sitting starts at T0 with the filtered hall hold, writing begins where e reaches R, and a sitting whose e reaches R + W
is CLOSED where no record keeps it open and CLOSING otherwise (R28, R29, R30, R31). As a sitting takes its second, its
SEATED records become ACTIVE at its start, and its EXPECTED records ABSENT as its admission closes, with one ADMISSION
cause, a seat held for one becoming FREE with a BLANK for its desk (R29, R30, R58, R59; the order of the records: log
entry 9); in any other second of a sitting no record, seat or queue changes. -/
def Obligations.HallSecondChangesThePhase : Prop :=
  (∀ (u z : State) (k : Fin 8) (moved : Bool) (g : Sitting) (closes starts : Prop), g = u.sittings[k] →
    (closes ↔ g.state ∈ [SittingState.reading, .writing] ∧ g.held = false ∧ g.e + 1 = g.r + g.l) →
    (starts ↔ moved = true ∧ u.hallTime = g.t0 ∧ (g.state = .admitting ∨ (g.state = .scheduled ∧ g.aw = 0))) →
    z = takeInTurn (u.seatedOf k) activate (u.setSitting k { g with
      state := if g.r = 0 then .writing else .reading, hold := ⟨u.holdFilter.filtered, false⟩, h := 0, e := 0 }) →
    (starts → sittingSecond moved k u = if g.r + g.l = 0 then closeAdmission k z else z) ∧
    (closes → (sittingSecond moved k u).seats = (closeAdmission k u).seats ∧
      (sittingSecond moved k u).segments = (closeAdmission k u).segments ∧
      (sittingSecond moved k u).roll = (closeAdmission k u).roll) ∧
    (¬ starts → ¬ closes → (sittingSecond moved k u).seats = u.seats ∧
      (sittingSecond moved k u).segments = u.segments ∧ (sittingSecond moved k u).roll = u.roll)) ∧
  (∀ (u : State) (k : Fin 8) (j : Nat) (c : Candidate),
    u.seatedOf k = (u.roll.filter (fun y => y.2.sitting == k && y.2.state == .seated)).map Prod.fst ∧
    u.expectedOf k = (u.roll.filter (fun y => y.2.sitting == k && y.2.state == .expected)).map Prod.fst ∧
    (u.expectedOf k = [] → closeAdmission k u = u) ∧
    (u.expectedOf k ≠ [] → closeAdmission k u =
      (closingTest k (takeInTurn (u.expectedOf k) (endExpected .absent) u)).raise .admission) ∧
    (u.cand j = some c →
      (c.currentSeat = none → endExpected .absent j u = u.setCand j { c with state := .absent }) ∧
      (∀ x, c.currentSeat = some x → endExpected .absent j u = { freedDesk x u with
        roll := tableInsert u.roll j { c with state := .absent, currentSeat := none } }))) ∧
  ∀ (s : State) (k : Fin 8) (now e : Nat),
    s.resetHold = .running → s.storeLaw = true → s.hallTime + 1 < 86399 → now = s.hallTime + 1 →
    e = s.sittings[k].e + (!s.sittings[k].held).toNat →
    ∃ t, exec .hallSecond s = .next t ∧
      (s.sittings[k].state ∈ [SittingState.unscheduled, .closed] → t.sittings[k] = s.sittings[k]) ∧
      (s.sittings[k].state = .scheduled → now + s.sittings[k].aw ≠ s.sittings[k].t0 →
        t.sittings[k] = s.sittings[k]) ∧
      (s.sittings[k].state = .scheduled → now + s.sittings[k].aw = s.sittings[k].t0 → 0 < s.sittings[k].aw →
        t.sittings[k] = { s.sittings[k] with state := .admitting, hold := ⟨false, false⟩, h := 0, e := 0 }) ∧
      (s.sittings[k].state = .admitting → now ≠ s.sittings[k].t0 → t.sittings[k] = s.sittings[k]) ∧
      ((s.sittings[k].state = .admitting ∨ (s.sittings[k].state = .scheduled ∧ s.sittings[k].aw = 0)) →
        now = s.sittings[k].t0 →
        t.sittings[k] = { s.sittings[k] with
          state := if s.sittings[k].r = 0 then .writing else .reading,
          hold := ⟨s.holdFilter.filtered, false⟩, h := 0, e := 0 }) ∧
      (s.sittings[k].state = .reading → e < s.sittings[k].r → t.sittings[k].state = .reading) ∧
      (s.sittings[k].state ∈ [SittingState.reading, .writing] → e < s.sittings[k].r + s.sittings[k].w →
        (s.sittings[k].state = .reading → s.sittings[k].r ≤ e) → t.sittings[k].state = .writing) ∧
      (s.sittings[k].state ∈ [SittingState.reading, .writing] → s.sittings[k].r + s.sittings[k].w ≤ e →
        t.sittings[k].state =
          if t.roll.any (fun y => y.2.sitting == k && ([CandState.seated, .active, .resting].contains y.2.state ||
            (y.2.state == .expected && y.2.currentSeat.isSome))) then .closing else .closed) ∧
      (s.sittings[k].state = .closing → t.sittings[k].state ∈ [SittingState.closing, .closed]) ∧
      (t.sittings[k].running = true → s.sittings[k].running = true → t.sittings[k].hold = s.sittings[k].hold)

/-- The records at a hall second that is not day end: each ACTIVE and RESTING record of a running sitting takes the
second: rest used grows in an unheld rest, the personal end follows the formula, a used-up rest ends, a reached
personal end finishes the record, and any other is warned at V; SEATED records of a sitting that starts become ACTIVE.
EXPECTED ones of a sitting whose admission closes, as e reaches R + L or at T0 where R + L is 0, become ABSENT, with an
ADMISSION cause and their seats FREE, and any other EXPECTED record is as before (R29, R30, R59, R66, R67, R68, R69,
R70). As a record takes the second, its desk is told REST_OVER and then END with rest left 0 where its rest is used up
(R67), DONE where it finishes, by its personal end or at day end with CAPPED (R68, R77, R81), and WARN with one TIME
cause where it is due (R69); at its activation the desk is told END and, where it is due, WARN (R69, R70). -/
def Obligations.HallSecondAgesTheRecords : Prop :=
  (∀ (before : Vector Sitting 8) (u w : State) (j x used pe : Nat) (c d : Candidate) (g : Sitting) (spent : Prop),
    u.cand j = some c → c.state ∈ [CandState.active, .resting] → c.currentSeat = some x → g = u.sittings[c.sitting] →
    used = (if c.state = .resting ∧ before[c.sitting].running = true ∧ before[c.sitting].held = false then
      c.restUsed + 1 else c.restUsed) →
    pe = min 86399 (g.t0 + g.h + g.r + g.w + c.ext.getD 0 + used) →
    (spent ↔ c.state = .resting ∧ c.restBudget.getD 0 ≤ used) →
    ((spent ∧ d = { c with restUsed := used, personalEnd := some pe, state := .active } ∧
        w = offerDesk x (.ending pe .active 0) (offerDesk x (.notice .restOver) u)) ∨
      (¬ spent ∧ d = { c with restUsed := used, personalEnd := some pe } ∧ w = u)) →
    (d.state = .active → pe ≤ u.hallTime →
      recordSecond before j u = closingTest c.sitting (finishedAt x j d w)) ∧
    (¬ (d.state = .active ∧ pe ≤ u.hallTime) → recordSecond before j u = warnedAt x j d g.v pe w) ∧
    recordDayEnd before j u =
      closingTest c.sitting (finishedAt x j { d with flags := { d.flags with capped := true } } w)) ∧
  (∀ (u : State) (j x ext budget pe : Nat) (c : Candidate) (g : Sitting),
    u.cand j = some c → c.currentSeat = some x → g = u.sittings[c.sitting] →
    ext = (g.w * c.allowance + 5999) / 6000 * 60 → budget = (g.w * c.restRate + 59) / 60 →
    pe = min 86399 (g.t0 + g.h + g.r + g.w + ext) →
    activate j u = warnedAt x j { c with
      state := .active, restUsed := 0, ext := some ext, restBudget := some budget, personalEnd := some pe }
      g.v pe (offerDesk x (.ending pe .active budget) u)) ∧
  ∀ (s : State) (j : Nat) (c : Candidate) (g : Sitting) (now h used pe : Nat) (st : CandState) (closes : Prop),
    s.resetHold = .running → s.storeLaw = true → s.hallTime + 1 < 86399 → now = s.hallTime + 1 →
    s.cand j = some c → g = s.sittings[c.sitting] →
    h = g.h + g.held.toNat →
    used = (if c.state = .resting ∧ g.held = false then c.restUsed + 1 else c.restUsed) →
    pe = min 86399 (g.t0 + h + g.r + g.w + c.ext.getD 0 + used) →
    st = (if c.state = .resting ∧ c.restBudget.getD 0 ≤ used then .active else c.state) →
    (closes ↔ (g.state ∈ [SittingState.reading, .writing] ∧ g.held = false ∧ g.e + 1 = g.r + g.l) ∨
      ((g.state = .admitting ∨ (g.state = .scheduled ∧ g.aw = 0)) ∧ g.t0 = now ∧ g.r + g.l = 0)) →
    ∃ t, exec .hallSecond s = .next t ∧
      (g.running = true → c.state ∈ [CandState.active, .resting] → st = .active → pe ≤ now →
        ∃ d, t.cand j = some d ∧ d.state ∈ [CandState.done, .cleared] ∧
          d = { c with
            restUsed := used, personalEnd := some pe, state := d.state, currentSeat := d.currentSeat,
            flags := { c.flags with noScript := d.flags.noScript } }) ∧
      (g.running = true → c.state ∈ [CandState.active, .resting] → ¬ (st = .active ∧ pe ≤ now) →
        t.cand j = some { c with
          restUsed := used, personalEnd := some pe, state := st,
          flags := { c.flags with warned := c.flags.warned || (decide (0 < g.v) && decide (pe - now ≤ g.v)) } }) ∧
      (c.state = .seated → g.state = .admitting → g.t0 = now →
        ∃ d, t.cand j = some d ∧
          d = { c with
            state := .active, restUsed := 0, ext := some ((g.w * c.allowance + 5999) / 6000 * 60),
            restBudget := some ((g.w * c.restRate + 59) / 60),
            personalEnd := some (min 86399 (g.t0 + g.r + g.w + (g.w * c.allowance + 5999) / 6000 * 60)),
            flags := { c.flags with warned := d.flags.warned } }) ∧
      (c.state = .expected → closes →
        t.cand j = some { c with state := .absent, currentSeat := none } ∧ t.attention[0].pending = true ∧
        (s.seatLaw = true → ∀ x, c.currentSeat = some x → (t.seat x).butStale =
          Seat.butStale { s.seat x with state := .free, candidate := none, handRaised := false })) ∧
      (c.state = .expected → ¬ closes → t.cand j = some c) ∧
      (c.state ∈ [CandState.done, .cleared, .absent, .withdrawn] → t.cand j = some c)

/-- Day end: the second that brings the clock to 86 399 leaves every sitting that was running in CLOSING or CLOSED,
with no hold source, and makes every ACTIVE and RESTING record of it DONE or CLEARED with CAPPED; an admission that was
still open closes, its EXPECTED records becoming ABSENT, with an ADMISSION cause and their seats FREE (R38, R59, R81; L
is at most W by R24). A sitting at its day end goes to CLOSING with no hold source, closes an admission still open, and
is tested for its close (R31, R38); what the desks are told then is that of the records (R59, R77, R81). -/
def Obligations.DayEndStopsTheWriting : Prop :=
  (∀ (u z : State) (k : Fin 8) (g : Sitting), g = u.sittings[k] →
    z = u.setSitting k { g with state := .closing, hold := ⟨false, false⟩ } →
    (g.state ∉ [SittingState.reading, .writing, .closing] → dayEndSitting k u = u) ∧
    (g.state ∈ [SittingState.reading, .writing] → g.e < g.r + g.l →
      dayEndSitting k u = closingTest k (closeAdmission k z)) ∧
    ((g.state = .closing ∨ (g.state ∈ [SittingState.reading, .writing] ∧ g.r + g.l ≤ g.e)) →
      dayEndSitting k u = closingTest k z)) ∧
  ∀ s : State, s.resetHold = .running → s.storeLaw = true → s.hallTime = 86398 →
    ∃ t, exec .hallSecond s = .next t ∧ t.hallTime = 86399 ∧
      (∀ k : Fin 8, s.sittings[k].running = true →
        t.sittings[k].hold = ⟨false, false⟩ ∧
        t.sittings[k].state =
          if t.roll.any (fun y => y.2.sitting == k && ([CandState.seated, .active, .resting].contains y.2.state ||
            (y.2.state == .expected && y.2.currentSeat.isSome))) then .closing else .closed) ∧
      (∀ j c, s.cand j = some c → c.state ∈ [CandState.active, .resting] → s.sittings[c.sitting].running = true →
        ∃ d, t.cand j = some d ∧ d.state ∈ [CandState.done, .cleared] ∧ d.flags.capped = true ∧
          d.ext = c.ext ∧ d.number = c.number ∧ d.allowance = c.allowance) ∧
      (∀ j c g, s.cand j = some c → c.state = .expected → g = s.sittings[c.sitting] →
        g.state ∈ [SittingState.reading, .writing] → g.l ≤ g.w → g.e < g.r + g.l →
        t.cand j = some { c with state := .absent, currentSeat := none } ∧ t.attention[0].pending = true ∧
        (s.seatLaw = true → ∀ x, c.currentSeat = some x → (t.seat x).butStale =
          Seat.butStale { s.seat x with state := .free, candidate := none, handRaised := false }))

/-- The hall hold input: a change of the pin's level makes or cancels a change in waiting; as the settling time ends
the filtered level follows the raw one, the HALL source of every running sitting follows it, and one TIME cause is
raised; where that leaves a sitting no hold source, an END is queued for each of its ACTIVE and RESTING records (R79;
in their order of log entry 9); with no change in waiting nothing happens (R33, R34; log entry 11). While a reset is
held the pin's level alone is taken (the model's reading: log entries 7 and 23). -/
def Obligations.HallHoldInputIsFiltered : Prop :=
  ∀ s : State,
    (∀ high, s.resetHold = .running → exec (.hallHoldEdge high) s = .next { s with
      holdFilter := { s.holdFilter with
        high := high, waiting := (xor high s.holdFilter.polarity) != s.holdFilter.filtered } }) ∧
    (∀ high, s.resetHold ≠ .running → exec (.hallHoldEdge high) s = .next { s with
      holdFilter := { s.holdFilter with high := high } }) ∧
    (s.resetHold = .running → s.holdFilter.waiting = false → exec .holdFilterChange s = .next s) ∧
    (s.resetHold = .running → s.holdFilter.waiting = true → ∃ t, exec .holdFilterChange s = .next t ∧
      t = { s with
        holdFilter := { s.holdFilter with
          filtered := xor s.holdFilter.high s.holdFilter.polarity, waiting := false },
        sittings := t.sittings, seats := t.seats, segments := t.segments,
        attention := (s.raise .time).attention } ∧
      s.sameButQueues t ∧
      (xor s.holdFilter.high s.holdFilter.polarity = true → t.seats = s.seats ∧ t.segments = s.segments) ∧
      (∀ z, z = takeInTurn (([0, 1, 2, 3, 4, 5, 6, 7] : List (Fin 8)).filter (fun k =>
          s.sittings[k].running && s.sittings[k].hold == ⟨true, false⟩))
          (fun k u => takeInTurn (s.timedOf k) showEndOf u) s →
        xor s.holdFilter.high s.holdFilter.polarity = false → t.seats = z.seats ∧ t.segments = z.segments) ∧
      ∀ k : Fin 8, t.sittings[k] =
        if s.sittings[k].running then
          { s.sittings[k] with
              hold := ⟨xor s.holdFilter.high s.holdFilter.polarity, s.sittings[k].hold.sitting⟩ }
        else s.sittings[k])

/-! ### Chapter 3: seats, rooms and admission -/

/-- DEFINE_SEAT gives an OUT_OF_USE seat its place, address and features and makes it FREE, unless another seat in use
has the position or the address; SEAT_STATE takes a FREE seat out of use and brings a defined one back, unless another
seat in use has its position or its address. The refusals RANGE, STATE, POSITION_TAKEN and ADDRESS_TAKEN of both change
nothing; a seat never defined is not brought back (R45, R46). -/
def Obligations.SeatsAreDefinedAndTakenOut : Prop :=
  (∀ (s : State) (x m row column : Nat) (desk : Option Nat) (f : Byte), s.resetHold = .running →
    (512 ≤ x ∨ 4 ≤ m ∨ 31 < row ∨ 31 < column ∨ desk = some 0 ∨ (∃ a, desk = some a ∧ 128 < a)) →
    exec (.defineSeat x m row column desk f) s = answered (.defineSeat x m row column desk f) .range [] s s) ∧
  (∀ (s : State) (x : Nat), s.resetHold = .running → x < 512 → (s.seat x).state = .outOfUse →
    (s.seat x).place = none →
    exec (.seatState x 1) s = answered (.seatState x 1) .state [] s s ∧
    exec (.seatState x 0) s = answered (.seatState x 0) .ok [] s s) ∧
  ∀ (s : State) (x : Nat) (p : SeatPlace) (f : Byte) (fresh : Seat),
    s.resetHold = .running → s.storeLaw = true → x < 512 → p.row ≤ 31 → p.column ≤ 31 →
    (∀ a, p.desk = some a → 1 ≤ a ∧ a ≤ 128) →
    fresh = { place := some p, state := .free, candidate := none, handRaised := false,
              deskStatus := if p.desk = none then .unbound else .unknown, missCount := 0, stale := false } →
    (p.features = f.setWidth 6 → ∀ i, i = Instr.defineSeat x p.room p.row p.column p.desk f →
      ((s.seat x).state ≠ .outOfUse → exec i s = answered i .state [] s s) ∧
      ((s.seat x).state = .outOfUse →
        (∃ y q, y ≠ x ∧ (s.seat y).state ≠ .outOfUse ∧ (s.seat y).place = some q ∧ q.room = p.room ∧
          q.row = p.row ∧ q.column = p.column) → exec i s = answered i .positionTaken [] s s) ∧
      ((s.seat x).state = .outOfUse →
        (∀ y q, y ≠ x → (s.seat y).state ≠ .outOfUse → (s.seat y).place = some q → q.room = p.room →
          ¬ (q.row = p.row ∧ q.column = p.column)) →
        ((∃ y q a, p.desk = some a ∧ y ≠ x ∧ (s.seat y).state ≠ .outOfUse ∧ (s.seat y).place = some q ∧
          q.room = p.room ∧ q.desk = some a) → exec i s = answered i .addressTaken [] s s) ∧
        ((∀ y q a, p.desk = some a → y ≠ x → (s.seat y).state ≠ .outOfUse → (s.seat y).place = some q →
          q.room = p.room → q.desk ≠ some a) →
          exec i s = answered i (clampStatus (64 ≤ f.toNat)) [] s (s.setSeat x fresh)))) ∧
    ((s.seat x).place = some p →
      ((s.seat x).state ∈ [SeatState.held, .occupied, .vacated] → ∀ st, st ≤ 1 →
        exec (.seatState x st) s = answered (.seatState x st) .state [] s s) ∧
      ((s.seat x).state = .free →
        exec (.seatState x 1) s = answered (.seatState x 1) .ok [] s s ∧
        exec (.seatState x 0) s = answered (.seatState x 0) .ok [] s (s.setSeat x { s.seat x with
          state := .outOfUse, deskStatus := .unbound, missCount := 0, stale := false, handRaised := false })) ∧
      ((s.seat x).state = .outOfUse →
        exec (.seatState x 0) s = answered (.seatState x 0) .ok [] s s ∧
        ((∃ y q, y ≠ x ∧ (s.seat y).state ≠ .outOfUse ∧ (s.seat y).place = some q ∧ q.room = p.room ∧
          q.row = p.row ∧ q.column = p.column) →
          exec (.seatState x 1) s = answered (.seatState x 1) .positionTaken [] s s) ∧
        ((∀ y q, y ≠ x → (s.seat y).state ≠ .outOfUse → (s.seat y).place = some q → q.room = p.room →
          ¬ (q.row = p.row ∧ q.column = p.column)) →
          (∃ y q a, p.desk = some a ∧ y ≠ x ∧ (s.seat y).state ≠ .outOfUse ∧ (s.seat y).place = some q ∧
            q.room = p.room ∧ q.desk = some a) →
          exec (.seatState x 1) s = answered (.seatState x 1) .addressTaken [] s s) ∧
        ((∀ y q, y ≠ x → (s.seat y).state ≠ .outOfUse → (s.seat y).place = some q → q.room = p.room →
          ¬ (q.row = p.row ∧ q.column = p.column) ∧ (p.desk ≠ none → q.desk ≠ p.desk)) →
          exec (.seatState x 1) s = answered (.seatState x 1) .ok [] s (s.setSeat x fresh)))) ∧
    (∀ st, 2 ≤ st → exec (.seatState x st) s = answered (.seatState x st) .range [] s s)

/-- SET_ROOM writes the three settings of a room, unless a seat in use there forbids it; the segment starts afresh with
a TIME as the room is enabled, with its bound desks UNKNOWN, and goes to DISABLED with an empty queue as it is disabled
(R47, R84, R87); that a message going out is cut then is the model's reading (log entry 18). -/
def Obligations.SetRoomSetsTheRoom : Prop :=
  (∀ (s : State) (m : Nat) (on : Bool) (a b : Nat), s.resetHold = .running → (4 ≤ m ∨ 2 ≤ a ∨ 3 ≤ b) →
    exec (.setRoom m on a b) s = answered (.setRoom m on a b) .range [] s s) ∧
  ∀ (s : State) (m : Fin 4) (on : Bool) (sep : Separation) (fill : FillPattern) (i : Instr) (room : RoomRecord),
    s.resetHold = .running → i = .setRoom m on sep.code fill.code →
    room = { s.rooms[m] with enabled := on, separation := sep, fill := fill } →
    ((sep ≠ s.rooms[m].separation ∨ (s.rooms[m].enabled = true ∧ on = false)) →
      (∃ y p, y ∈ s.seats ∧ y.2.place = some p ∧ p.room = m ∧
        y.2.state ∈ [SeatState.held, .occupied, .vacated]) → exec i s = answered i .state [] s s) ∧
    (((sep = s.rooms[m].separation ∧ (s.rooms[m].enabled = true → on = true)) ∨
        ∀ y p, y ∈ s.seats → y.2.place = some p → p.room = m →
          y.2.state ∉ [SeatState.held, .occupied, .vacated]) →
      (s.rooms[m].enabled = on → exec i s = answered i .ok [] s { s with rooms := s.rooms.set m room }) ∧
      (s.rooms[m].enabled = false → on = true → exec i s = answered i .ok [] s { s with
        rooms := s.rooms.set m room,
        seats := s.seats.map (fun y => (y.1, y.2.contactLost m)),
        segments := s.segments.set m
          { line := .master, timeDue := false, rotation := 128, queue := [], postStatus := .unknown, postMiss := 0,
            sending := some (.time s.hallTime s.heldSet), pollVoided := false,
            doorWire := s.segments[m].doorWire, doorSampled := s.segments[m].doorWire } }) ∧
      (s.rooms[m].enabled = true → on = false → exec i s = answered i .ok [] s { s with
        rooms := s.rooms.set m room,
        segments := s.segments.set m { s.segments[m] with
          line := .disabled, timeDue := false, queue := [], sending := none, pollVoided := false,
          doorSampled := false } }))

/-- Two places of a room are neighbours under ORTHOGONAL where they differ by one in row or column alone, and under
FULL also where they differ by one in both; a place is blocked for a sitting where a neighbour of it is in use for a
record of that sitting (R48); a seat is admissible, and allocation takes the first room that has an admissible seat,
least surplus first and then fill order (R48, R49, R50, R51). The surplus is the number of the seat's features that the
record does not require (R50), and the fill order of a pattern is that of R49. -/
def Obligations.AllocationTakesTheFirstRoom : Prop :=
  (∀ (mode : Separation) (p q : SeatPlace) (dr dc : Nat),
    dr = (p.row - q.row) + (q.row - p.row) → dc = (p.column - q.column) + (q.column - p.column) →
    neighbourPlaces mode p q = (p.room == q.room && decide (dr + dc = 1 ∨ (mode = .full ∧ dr = 1 ∧ dc = 1)))) ∧
  (∀ (s : State) (c : Candidate) (v : Seat) (p : SeatPlace), v.place = some p →
    (s.admissible c v = true ↔ s.rooms[p.room].enabled = true ∧ v.state = .free ∧ v.deskStatus ≠ .lost ∧
      (∀ b, b < 6 → c.required.getLsbD b = true → p.features.getLsbD b = true) ∧
      ∀ y q j d, y ∈ s.seats → y.2.state ∈ [SeatState.held, .occupied, .vacated] → y.2.candidate = some j →
        s.cand j = some d → d.sitting = c.sitting → y.2.place = some q →
        neighbourPlaces s.rooms[p.room].separation p q = false)) ∧
  (∀ (s : State) (exempt : Option Nat) (p : SeatPlace) (k : Fin 8),
    s.blocked exempt p k = true ↔ ∃ y q j d, y ∈ s.seats ∧ exempt ≠ some y.1 ∧
      y.2.state ∈ [SeatState.held, .occupied, .vacated] ∧ y.2.candidate = some j ∧ s.cand j = some d ∧ d.sitting = k ∧
      y.2.place = some q ∧ neighbourPlaces s.rooms[p.room].separation p q = true) ∧
  (∀ has need : FeatureSet, includesAll has need = true ↔ ∀ b, b < 6 → need.getLsbD b = true → has.getLsbD b = true) ∧
  (∀ (s : State) (m : Fin 4) (c : Candidate), s.candidatesIn m c = [] ↔
    ∀ y p, y ∈ s.seats → y.2.place = some p → p.room = m → s.admissible c y.2 = false) ∧
  (∀ (s : State) (c : Candidate) (rooms : List (Fin 4)),
    (s.allocate c rooms = none ↔ ∀ m ∈ rooms, s.candidatesIn m c = []) ∧
    (∀ i, s.allocate c rooms = some i → ∃ before m after v p, rooms = before ++ m :: after ∧
      (∀ m' ∈ before, s.candidatesIn m' c = []) ∧
      (i, v) ∈ s.seats ∧ v.place = some p ∧ p.room = m ∧ s.admissible c v = true ∧
      ∀ y q, y ∈ s.seats → y.2.place = some q → q.room = m → s.admissible c y.2 = true →
        surplus p c * 1024 + fillRank s.rooms[m].fill p ≤ surplus q c * 1024 + fillRank s.rooms[m].fill q) ∧
    (∀ m y, y ∈ s.seats → s.admissible c y.2 = true → y.2.inRoom m = true → s.candidatesIn m c ≠ [])) ∧
  (∀ (p : SeatPlace) (c : Candidate),
    surplus p c = (([0, 1, 2, 3, 4, 5] : List Nat).filter (fun b =>
      p.features.getLsbD b && !c.required.getLsbD b)).length ∧ surplus p c ≤ 6) ∧
  (∀ (fill : FillPattern) (p q : SeatPlace), p.row ≤ 31 → p.column ≤ 31 → q.row ≤ 31 → q.column ≤ 31 →
    fillRank fill p < 1024 ∧
    (fillRank fill p < fillRank fill q ↔
      (fill = .rowMajor ∧ (p.row < q.row ∨ (p.row = q.row ∧ p.column < q.column))) ∨
      (fill = .serpentine ∧ (p.row < q.row ∨ (p.row = q.row ∧
        (if p.row % 2 = 0 then p.column < q.column else q.column < p.column)))) ∨
      (fill = .columnMajor ∧ (p.column < q.column ∨ (p.column = q.column ∧ p.row < q.row)))))

/-- ADMIT_FOR seats an EXPECTED record whose sitting's admission is open at the seat it holds or an allocated one:
SEATED while the sitting is ADMITTING, and ACTIVE with LATE_ARRIVAL and its times set up later; the refusals in their
order (R53, R54, R64, R65, R71). Admission is open in ADMITTING, and in READING and WRITING with e below R + L (R23). A
SEAT is queued for the seat's desk, and, where the record became ACTIVE, an END and, where it is due, a WARN with one
TIME cause (R56, R69, R71). -/
def Obligations.AdmitForSeatsTheCandidate : Prop :=
  (∀ g : Sitting, g.admissionOpen = true ↔
    g.state = .admitting ∨ (g.state ∈ [SittingState.reading, .writing] ∧ g.e < g.r + g.l)) ∧
  (∀ (s : State) (c : Candidate), (∀ x, c.currentSeat = some x → s.seatFor c = some x) ∧
    (c.currentSeat = none → s.seatFor c = s.allocate c s.sittings[c.sitting].rooms)) ∧
  ∀ (s : State) (n k j : Nat) (c : Candidate) (i : Instr) (g : Sitting), s.resetHold = .running → s.storeLaw = true →
    s.resolve n k = .ok (j, c) → i = .admitFor n k → g = s.sittings[c.sitting] →
    (c.state ∈ [CandState.seated, .active, .resting, .done] → exec i s = answered i .alreadySeated [] s s) ∧
    (c.state ∉ [CandState.seated, .active, .resting, .done] →
      ((∃ j' d, j' ∈ s.chain n ∧ s.cand j' = some d ∧
        d.state ∈ [CandState.seated, .active, .resting, .done]) → exec i s = answered i .inOtherSitting [] s s) ∧
      ((∀ j' d, j' ∈ s.chain n → s.cand j' = some d →
        d.state ∉ [CandState.seated, .active, .resting, .done]) →
        (c.state = .absent → exec i s = answered i .late [] s s) ∧
        (c.state ∈ [CandState.cleared, .withdrawn] → exec i s = answered i .notNow [] s s) ∧
        (c.state = .expected → g.admissionOpen = false → exec i s = answered i .notNow [] s s) ∧
        (c.state = .expected → g.admissionOpen = true → s.seatFor c = none →
          exec i s = answered i .noSeat [] s s) ∧
        (∀ x p, c.state = .expected → g.admissionOpen = true → s.seatFor c = some x → (s.seat x).place = some p →
          ∃ t d, exec i s = answered i .ok
              (be2 x ++ be1 p.room.val ++ be1 p.row ++ be1 p.column ++ be1 d.state.code) s t ∧
            t = { s with
              roll := tableInsert s.roll j d, seats := t.seats, segments := t.segments, attention := t.attention } ∧
            s.sameButQueues t ∧ (∀ y, y ≠ x → t.seat y = s.seat y) ∧
            (t.seat x).butStale = Seat.butStale { s.seat x with state := .occupied, candidate := some j } ∧
            (∀ w, w = offerDesk x (.seat p.room p.row p.column c.number c.sitting)
                (s.setSeat x { s.seat x with state := .occupied, candidate := some j }) →
              (g.state = .admitting → t = { w with roll := tableInsert s.roll j d }) ∧
              (∀ pe budget, g.state ≠ .admitting → d.personalEnd = some pe → d.restBudget = some budget →
                t = warnedAt x j { d with flags := { c.flags with lateArrival := true } } g.v pe
                  (offerDesk x (.ending pe .active budget) w))) ∧
            (g.state = .admitting → t.attention = s.attention ∧ d = { c with
              state := .seated, currentSeat := some x, seatOfRecord := some ⟨x, p.room, p.row, p.column⟩ }) ∧
            (g.state ≠ .admitting → d = { c with
              state := .active, currentSeat := some x, seatOfRecord := some ⟨x, p.room, p.row, p.column⟩,
              flags := { c.flags with lateArrival := true, warned := d.flags.warned },
              restUsed := 0, ext := some ((g.w * c.allowance + 5999) / 6000 * 60),
              restBudget := some ((g.w * c.restRate + 59) / 60),
              personalEnd := some (min 86399
                (g.t0 + g.h + g.r + g.w + (g.w * c.allowance + 5999) / 6000 * 60)) }))))

/-- PLACE holds a FREE seat for an EXPECTED record without one, with a SEAT for its desk, UNPLACE gives it up with a
BLANK, and MOVE takes a seated record to a FREE seat and frees its old one, with CONFIRMED cleared, a BLANK for the old
desk and a SEAT for the new one, followed by an END where the record is ACTIVE or RESTING; a seat outside the room
list, without the features or blocked is refused (R56, R57, R58, R60). The refusals RANGE and STATE of the three, and
those of MOVE in their order, change nothing (R57, R58, R60). -/
def Obligations.PlaceUnplaceAndMove : Prop :=
  (∀ (s : State) (n k j x : Nat) (c : Candidate) (p : SeatPlace), s.resetHold = .running → s.storeLaw = true →
      s.resolve n k = .ok (j, c) → x < 512 →
      (c.state = .expected → c.currentSeat = none → exec (.unplace n k) s = answered (.unplace n k) .ok [] s s) ∧
      (∀ y, c.state = .expected → c.currentSeat = some y → ∃ t,
        exec (.unplace n k) s = answered (.unplace n k) .ok [] s (closingTest c.sitting t) ∧
        t = { s with
          roll := tableInsert s.roll j { c with currentSeat := none }, seats := t.seats, segments := t.segments } ∧
        t.seats = (freedDesk y s).seats ∧ t.segments = (freedDesk y s).segments ∧
        s.sameButQueues t ∧ (∀ z, z ≠ y → t.seat z = s.seat z) ∧
        (t.seat y).butStale =
          Seat.butStale { s.seat y with state := .free, candidate := none, handRaised := false }) ∧
      (c.state = .expected → c.currentSeat = none → (s.seat x).state = .free → (s.seat x).place = some p →
        s.rooms[p.room].enabled = true → ∀ i, i = Instr.place n k x →
        (p.room ∉ s.sittings[c.sitting].rooms → exec i s = answered i .notInRooms [] s s) ∧
        (p.room ∈ s.sittings[c.sitting].rooms →
          (includesAll p.features c.required = false → exec i s = answered i .features [] s s) ∧
          (includesAll p.features c.required = true →
            (s.blocked none p c.sitting = true → exec i s = answered i .adjacent [] s s) ∧
            (s.blocked none p c.sitting = false → ∃ t, exec i s = answered i .ok [] s t ∧
              t = { s with
                roll := tableInsert s.roll j { c with currentSeat := some x }, seats := t.seats,
                segments := t.segments } ∧
              (∀ w, w = offerDesk x (.seat p.room p.row p.column c.number c.sitting)
                  (s.setSeat x { s.seat x with state := .held, candidate := some j }) →
                t.seats = w.seats ∧ t.segments = w.segments) ∧
              s.sameButQueues t ∧ (∀ z, z ≠ x → t.seat z = s.seat z) ∧
              (t.seat x).butStale = Seat.butStale { s.seat x with state := .held, candidate := some j })))) ∧
      (∀ y, c.state ∈ [CandState.seated, .active, .resting] → c.currentSeat = some y → y ≠ x →
        (s.seat x).state = .free → (s.seat x).place = some p → s.rooms[p.room].enabled = true →
        (s.seat x).deskStatus ≠ .lost → p.room ∈ s.sittings[c.sitting].rooms →
        includesAll p.features c.required = true → s.blocked (some y) p c.sitting = false →
        ∃ t, exec (.move n k x) s = answered (.move n k x) .ok
            (be2 x ++ be1 p.room.val ++ be1 p.row ++ be1 p.column) s t ∧
          t = { s with
            roll := tableInsert s.roll j { c with
              currentSeat := some x, seatOfRecord := some ⟨x, p.room, p.row, p.column⟩,
              flags := { c.flags with confirmed := false } },
            seats := t.seats, segments := t.segments } ∧
          (∀ w, w = offerDesk x (.seat p.room p.row p.column c.number c.sitting) (offerDesk y .blank
              ((s.setSeat y { s.seat y with state := .free, candidate := none, handRaised := false }).setSeat x
                { s.seat x with state := .occupied, candidate := some j })) →
            (c.state = .seated → t.seats = w.seats ∧ t.segments = w.segments) ∧
            (c.state ∈ [CandState.active, .resting] →
              t.seats = (showEnd { c with currentSeat := some x } w).seats ∧
              t.segments = (showEnd { c with currentSeat := some x } w).segments)) ∧
          s.sameButQueues t ∧ (∀ z, z ≠ x → z ≠ y → t.seat z = s.seat z) ∧
          (t.seat y).butStale =
            Seat.butStale { s.seat y with state := .free, candidate := none, handRaised := false } ∧
          (t.seat x).butStale = Seat.butStale { s.seat x with state := .occupied, candidate := some j })) ∧
  (∀ (s : State) (n k j x : Nat) (c : Candidate), s.resetHold = .running → s.resolve n k = .ok (j, c) →
      (512 ≤ x → ∀ i ∈ [Instr.place n k x, .move n k x], exec i s = answered i .range [] s s) ∧
      (c.state ≠ .expected → exec (.unplace n k) s = answered (.unplace n k) .state [] s s) ∧
      (x < 512 → ∀ i, i = Instr.place n k x →
        ((c.state ≠ .expected ∨ c.currentSeat ≠ none) → exec i s = answered i .state [] s s) ∧
        (c.state = .expected → c.currentSeat = none →
          ((s.seat x).state ≠ .free ∨ (s.seat x).place = none ∨
            ∃ p, (s.seat x).place = some p ∧ s.rooms[p.room].enabled = false) → exec i s = answered i .state [] s s)) ∧
      (x < 512 → ∀ i, i = Instr.move n k x →
        (c.state ∉ [CandState.seated, .active, .resting] → exec i s = answered i .state [] s s) ∧
        (∀ y, c.state ∈ [CandState.seated, .active, .resting] → c.currentSeat = some y →
          (((s.seat x).state ≠ .free ∨ (s.seat x).place = none ∨ (s.seat x).deskStatus = .lost ∨
            ∃ p, (s.seat x).place = some p ∧ s.rooms[p.room].enabled = false) → exec i s = answered i .state [] s s) ∧
          (∀ p, (s.seat x).state = .free → (s.seat x).place = some p → (s.seat x).deskStatus ≠ .lost →
            s.rooms[p.room].enabled = true →
            (p.room ∉ s.sittings[c.sitting].rooms → exec i s = answered i .notInRooms [] s s) ∧
            (p.room ∈ s.sittings[c.sitting].rooms →
              (includesAll p.features c.required = false → exec i s = answered i .features [] s s) ∧
              (includesAll p.features c.required = true → s.blocked (some y) p c.sitting = true →
                exec i s = answered i .adjacent [] s s))))))

/-! ### Chapter 4: personal time -/

/-- Extension, rest budget, personal end and base end by the formulas: the extension is W × a / 6000 rounded up, times
60, and the rest budget W × r / 60 rounded up (R32, R64, R65). REST_FOR begins a rest of an ACTIVE record in a sitting
that is WRITING or CLOSING and not held, while rest is left, ends one, and changes nothing where the record is already
as asked (R73, R74). The END for a record's desk carries its personal end, its state and its rest left (R56, R73). -/
def Obligations.PersonalTimesAndRest : Prop :=
  (∀ (s : State) (c : Candidate),
    (∀ x pe, c.currentSeat = some x → c.personalEnd = some pe →
      showEnd c s = offerDesk x (.ending pe c.state (c.restBudget.getD 0 - c.restUsed)) s) ∧
    ((c.currentSeat = none ∨ c.personalEnd = none) → showEnd c s = s)) ∧
  ((∀ w a : Nat, ∃ m, extensionOf w a = 60 * m ∧ w * a ≤ 6000 * m ∧ ∀ m', w * a ≤ 6000 * m' → m ≤ m') ∧
    (∀ w r : Nat, w * r ≤ 60 * restBudgetOf w r ∧ ∀ b, w * r ≤ 60 * b → restBudgetOf w r ≤ b) ∧
    (∀ (t : Sitting) (c : Candidate), c.withTimes t = { c with
      ext := some (extensionOf t.w c.allowance), restBudget := some (restBudgetOf t.w c.restRate),
      personalEnd := some (min 86399
        (t.t0 + t.h + t.r + t.w + extensionOf t.w c.allowance + c.restUsed)) }) ∧
    (∀ t : Sitting, t.baseEnd = min 86399 (t.t0 + t.h + t.r + t.w)) ∧
    (∀ (t : Sitting) (c : Candidate), c.allowance = 0 → c.restUsed = 0 → (c.withTimes t).personalEnd = some t.baseEnd)) ∧
  (∀ (s : State) (n k j : Nat) (c : Candidate) (g : Sitting), s.resetHold = .running →
      s.resolve n k = .ok (j, c) → g = s.sittings[c.sitting] →
      (c.state = .resting → exec (.restFor n k true) s = answered (.restFor n k true) .ok [] s s) ∧
      (c.state ≠ .resting →
        exec (.restFor n k false) s = answered (.restFor n k false) .ok [] s s ∧
        ((c.state ≠ .active ∨ g.state ∉ [SittingState.writing, .closing]) →
          exec (.restFor n k true) s = answered (.restFor n k true) .state [] s s)) ∧
      (c.state = .active → g.state ∈ [SittingState.writing, .closing] →
        (g.held = true → exec (.restFor n k true) s = answered (.restFor n k true) .held [] s s) ∧
        (g.held = false → c.restBudget.getD 0 ≤ c.restUsed →
          exec (.restFor n k true) s = answered (.restFor n k true) .budget [] s s) ∧
        (g.held = false → c.restUsed < c.restBudget.getD 0 →
          exec (.restFor n k true) s = answered (.restFor n k true) .ok [] s
            (showEnd { c with state := .resting } (s.setCand j { c with state := .resting })))) ∧
      (c.state = .resting →
        exec (.restFor n k false) s = answered (.restFor n k false) .ok [] s
          (showEnd { c with state := .active } (s.setCand j { c with state := .active }))))

/-! ### Chapter 5: the desk segments -/

/-- The directed queue takes a message: a BLANK removes the other messages of its address and a SEAT a BLANK; then a
message of the same address and kind is replaced in its place, and otherwise the message is appended while fewer than 8
are queued and dropped where there are 8; a DISABLED segment and a unit that is LOST or UNKNOWN take none, and the seat
of a desk that misses a message is left stale (R89). -/
def Obligations.DirectedQueueTakesAMessage : Prop :=
  (∀ (v : Seat) (m : Fin 4) (a : Nat), v.binds = some (m, a) ↔
    v.state ≠ .outOfUse ∧ ∃ p, v.place = some p ∧ p.room = m ∧ p.desk = some a) ∧
  (∀ (e : ShowEntry) (q left : List ShowEntry),
    left = q.filter (fun f => !(f.address == e.address &&
      ((e.content.kind == .blank && f.content.kind != .blank) ||
        (e.content.kind == .seat && f.content.kind == .blank)))) →
    ((∃ f ∈ left, f.address = e.address ∧ f.content.kind = e.content.kind) →
      offerQueue e q = (left.map (fun f =>
        if f.address = e.address ∧ f.content.kind = e.content.kind then e else f), true)) ∧
    ((∀ f ∈ left, ¬ (f.address = e.address ∧ f.content.kind = e.content.kind)) →
      (left.length < 8 → offerQueue e q = (left ++ [e], true)) ∧
      (8 ≤ left.length → offerQueue e q = (left, false))) ∧
    (q.length ≤ 8 → distinctEntries q = true →
      (offerQueue e q).1.length ≤ 8 ∧ distinctEntries (offerQueue e q).1 = true)) ∧
  (∀ (s : State) (x a : Nat) (m : Fin 4) (c : ShowContent), (s.seat x).binds = some (m, a) →
    (s.segments[m].line = .disabled → offerDesk x c s = s) ∧
    (s.segments[m].line ≠ .disabled → (s.seat x).deskStatus ∈ [DeskStatus.lost, .unknown] →
      offerDesk x c s = s.setSeat x { s.seat x with stale := true }) ∧
    (s.segments[m].line ≠ .disabled → (s.seat x).deskStatus = .present →
      offerDesk x c s = (if (offerQueue ⟨a, c⟩ s.segments[m].queue).2 then s.setQueue m (offerQueue ⟨a, c⟩ s.segments[m].queue).1
        else (s.setQueue m (offerQueue ⟨a, c⟩ s.segments[m].queue).1).setSeat x { s.seat x with stale := true }))) ∧
  (∀ (s : State) (x : Nat) (c : ShowContent), (s.seat x).binds = none → offerDesk x c s = s) ∧
  (∀ (s : State) (m : Fin 4) (c : ShowContent),
    (s.segments[m].line = .disabled ∨ s.segments[m].postStatus ∈ [PostStatus.lost, .unknown] → offerPost m c s = s) ∧
    (s.segments[m].line ≠ .disabled → s.segments[m].postStatus = .present →
      offerPost m c s = s.setQueue m (offerQueue ⟨0, c⟩ s.segments[m].queue).1))

/-- As a TIME or a SHOW has left the line, and a POLL that a reset met while it was going out, the next exchange is
chosen: a TIME that is due, a POLL(0) where DOOR_CALL is asserted, the head of the directed queue, and otherwise a POLL
of the next address of the rotation, 0 after the last; as any other POLL has left, its window opens (R85, R87, R88,
R90, R92, R100). The same choice is made wherever a segment in MASTER is left with no exchange in progress, and none is
made elsewhere (R87); the rotation is over the bound addresses (R88), and a TIME carries the hall time and the held
sittings (R85). A TIME, a POLL and a SHOW have the bytes of Section 10.4 (R85, R172). -/
def Obligations.SentMessagesLeadToTheNext : Prop :=
  (∀ (s : State) (m : Fin 4) (g : Segment), g = s.segments[m] →
    (∀ a, a ∈ s.boundAddresses m ↔ ∃ y ∈ s.seats, y.2.binds = some (m, a)) ∧
    (∀ k : Fin 8, s.heldSet.getLsbD k = (s.sittings[k].hold.hall || s.sittings[k].hold.sitting)) ∧
    ((g.line ≠ .master ∨ g.sending ≠ none) → kickSegment m s = s) ∧
    (g.line = .master → g.sending = none →
      (g.timeDue = true → kickSegment m s = s.setSegment m { g with
        doorSampled := g.doorWire, timeDue := false, sending := some (.time s.hallTime s.heldSet) }) ∧
      (g.timeDue = false → g.doorWire = true →
        kickSegment m s = s.setSegment m { g with doorSampled := true, sending := some (.poll 0) }) ∧
      (∀ e rest, g.timeDue = false → g.doorWire = false → g.queue = e :: rest →
        kickSegment m s = s.setSegment m { g with
          doorSampled := false, queue := rest, sending := some (.show_ e) }) ∧
      (∀ r, g.timeDue = false → g.doorWire = false → g.queue = [] →
        ((r ∈ s.boundAddresses m ∧ g.rotation < r ∧ ∀ b ∈ s.boundAddresses m, g.rotation < b → r ≤ b) ∨
          (r = 0 ∧ ∀ b ∈ s.boundAddresses m, b ≤ g.rotation)) →
        kickSegment m s = s.setSegment m { g with
          doorSampled := false, rotation := r, sending := some (.poll r) }))) ∧
  (∀ (h a : Nat) (held : BitVec 8) (c : ShowContent),
    (SegMessage.time h held).bytes = withCheck (be1 1 ++ be1 255 ++ be3 h ++ [held]) ∧
    (SegMessage.poll a).bytes = withCheck (be1 2 ++ be1 a) ∧
    (SegMessage.show_ ⟨a, c⟩).bytes = withCheck (be1 3 ++ be1 a ++ be1 c.kind.code ++ c.bytes)) ∧
  (∀ (room : Fin 4) (k : Fin 8) (row column n pe left : Nat),
    (∀ c, c = ShowContent.seat room row column n k →
      c.kind.code = 1 ∧ c.bytes = be1 room.val ++ be1 row ++ be1 column ++ be4 n ++ be1 k.val) ∧
    (∀ c st code, c = ShowContent.ending pe st left →
      (st, code) ∈ [(CandState.active, 1), (.resting, 2), (.done, 3)] →
      c.kind.code = 2 ∧ c.bytes = be3 pe ++ be1 code ++ be2 left) ∧
    (∀ notice, (ShowContent.notice notice).kind.code = 3 ∧ (ShowContent.notice notice).bytes = be1 notice.code) ∧
    ShowContent.blank.kind.code = 4 ∧ ShowContent.blank.bytes = []) ∧
  ([Notice.stay, .warn, .done, .restOver, .notAllocated, .wrongSeat, .notConfirmed, .earlyBar, .budget, .held, .limit,
    .badSerial, .wrongOwner, .wrongRoom, .notSubmitted, .hallHold, .notEnrolled, .alreadySeated, .inOtherSitting,
    .late, .notNow, .noSeat].map Notice.code = List.range' 1 22) ∧
  ∀ (s : State) (m : Fin 4) (door : Bool) (i : Instr) (g : Segment), s.resetHold = .running → g = s.segments[m] →
    (∀ a, g.sending = some (.poll a) → g.pollVoided = false →
      exec (.pollSent m door) s = .next (s.setSegment m { g with
        line := .awaiting a, sending := none, doorWire := door })) ∧
    (g.line = .master →
      ((i = .timeSent m door ∧ ∃ h held, g.sending = some (.time h held)) ∨
        (i = .showSent m door ∧ ∃ e, g.sending = some (.show_ e)) ∨
        (i = .pollSent m door ∧ (∃ a, g.sending = some (.poll a)) ∧ g.pollVoided = true)) →
      (g.timeDue = true → exec i s = .next (s.setSegment m { g with
        doorWire := door, doorSampled := door, pollVoided := false, timeDue := false,
        sending := some (.time s.hallTime s.heldSet) })) ∧
      (g.timeDue = false → door = true → exec i s = .next (s.setSegment m { g with
        doorWire := door, doorSampled := door, pollVoided := false, sending := some (.poll 0) })) ∧
      (∀ e rest, g.timeDue = false → door = false → g.queue = e :: rest →
        exec i s = .next (s.setSegment m { g with
          doorWire := door, doorSampled := door, pollVoided := false, queue := rest,
          sending := some (.show_ e) })) ∧
      (∀ r, g.timeDue = false → door = false → g.queue = [] →
        ((r ∈ s.boundAddresses m ∧ g.rotation < r ∧ ∀ b ∈ s.boundAddresses m, g.rotation < b → r ≤ b) ∨
          (r = 0 ∧ ∀ b ∈ s.boundAddresses m, b ≤ g.rotation)) →
        exec i s = .next (s.setSegment m { g with
          doorWire := door, doorSampled := door, pollVoided := false, rotation := r,
          sending := some (.poll r) })))

/-- A frame is a good answer where it is one of the layouts of Section 10.4 for an answer, with its check byte, and
carries the address and the event of that layout (R86). A good answer from the awaited desk makes it PRESENT with no
miss, a desk that was LOST, UNKNOWN or stale is first resynchronised, its event is delivered, and the next exchange is
chosen (the last after the delivery: log entry 14); a HAND up sets the hand-raised flag with one DESK cause, a matching
TAP at an OCCUPIED seat confirms its candidate (R61, R92, R97, R99); outside AWAITING an answer is ignored, and so is
the end of a window (R100; log entry 11). The resync of a desk, which a RESTART offers too, is BLANK at a FREE seat,
SEAT, and END or NOTICE DONE after it, as R93 gives (R93, R98; the rest left in an END with state DONE: log entry 19).
-/
def Obligations.GoodAnswersAreDelivered : Prop :=
  (∀ (frame : List Byte) (a : Nat) (e : DeskEvent), parseAnswer frame = some (a, e) ↔
    ∃ code fields, a < 256 ∧ frame = withCheck (be1 4 ++ be1 a ++ be1 code ++ fields) ∧
      ((code = 0 ∧ fields = [] ∧ e = .null) ∨
        (∃ n, code = 1 ∧ n < 4294967296 ∧ fields = be4 n ∧ e = .tap n) ∨
        (∃ up, code = 2 ∧ fields = beFlag up ∧ e = .hand up) ∨
        (∃ begin_, code = 3 ∧ fields = beFlag begin_ ∧ e = .rest begin_) ∨
        (code = 4 ∧ fields = [] ∧ e = .submit) ∨
        (∃ d, code = 5 ∧ d ≤ 9999999 ∧ fields = be3 d ∧ e = .slot d) ∨
        (∃ d, code = 6 ∧ d ≤ 9999999 ∧ fields = be3 d ∧ e = .collect d) ∨
        (code = 7 ∧ fields = [] ∧ e = .restart))) ∧
  (∀ (bytes : List Byte), withCheck bytes = bytes ++ [crc8 bytes]) ∧
  (∀ (s : State) (m : Fin 4) (a x : Nat),
    (s.boundSeat m a = some x → ∃ v, (x, v) ∈ s.seats ∧ v.binds = some (m, a)) ∧
    (s.boundSeat m a = none ↔ ∀ y ∈ s.seats, y.2.binds ≠ some (m, a))) ∧
  (∀ (s : State) (m : Fin 4) (door : Bool) (frame : List Byte) (a x : Nat) (e : DeskEvent) (v : Seat),
      s.resetHold = .running →
      (s.segments[m].line = .awaiting a → parseAnswer frame = some (a, e) → 0 < a → s.boundSeat m a = some x →
        s.storeLaw = true → v = s.seat x → ∃ u t,
        exec (.deskAnswer m door frame) s = .next t ∧
        t = kickSegment m (deliverDesk x e u) ∧
        t.segments[m].line = .master ∧ t.segments[m].sending.isSome = true ∧
        u = { s with seats := u.seats, segments := u.segments } ∧
        (∀ y, y ≠ x → u.seat y = s.seat y) ∧
        (u.seat x).butStale = Seat.butStale { v with deskStatus := .present, missCount := 0 } ∧
        ((v.deskStatus ∈ [DeskStatus.lost, .unknown] ∨ v.stale = true) →
          u = resyncDesk x ((s.setSegment m { s.segments[m] with line := .master, doorWire := door }).setSeat x
            { v with deskStatus := .present, missCount := 0, stale := false })) ∧
        (v.deskStatus = .present → v.stale = false →
          u.seat x = { v with deskStatus := .present, missCount := 0 } ∧
          u.segments = s.segments.set m { s.segments[m] with line := .master, doorWire := door }) ∧
        (e = .null → t = kickSegment m u) ∧
        (e = .hand true → v.handRaised = false →
          (t.seat x).handRaised = true ∧ t.attention = (s.raise .desk).attention) ∧
        (e = .hand true → v.handRaised = true → t.attention = s.attention) ∧
        (e = .hand false → (t.seat x).handRaised = false ∧ t.attention = s.attention) ∧
        (∀ n j c, e = .tap n → n ≤ 99999999 → v.state = .occupied → v.candidate = some j → j ∈ s.chain n →
          s.cand j = some c →
          t.cand j = some { c with flags := { c.flags with confirmed := true } } ∧ t.attention = s.attention) ∧
        (∀ n j, e = .tap n → v.state = .occupied → v.candidate = some j → j ∉ s.chain n →
          t.roll = s.roll ∧ t.attention = (s.raise .desk).attention ∧
          ∀ p, v.place = some p → t.rooms[p.room].lastWrongSeat = some ⟨x, n, s.hallTime⟩)) ∧
      ((∀ b, s.segments[m].line ≠ .awaiting b) →
        exec (.deskAnswer m door frame) s = .next s ∧ exec (.answerWindowTimeout m door) s = .next s)) ∧
  (∀ (s : State) (x : Nat) (v : Seat), v = s.seat x →
      deliverDesk x .restart s = resyncDesk x s ∧
      (v.state = .free → resyncDesk x s = offerDesk x .blank s) ∧
      (∀ j c p t, v.state ∈ [SeatState.held, .occupied, .vacated] → v.candidate = some j → s.cand j = some c →
        v.place = some p → t = offerDesk x (.seat p.room p.row p.column c.number c.sitting) s →
        (c.state ∈ [CandState.expected, .seated] → resyncDesk x s = t) ∧
        (∀ pe, c.state ∈ [CandState.active, .resting, .done] → c.personalEnd = some pe →
          resyncDesk x s = offerDesk x (.ending pe c.state (c.restBudget.getD 0 - c.restUsed)) t) ∧
        (c.state = .done → c.personalEnd = none → resyncDesk x s = offerDesk x (.notice .done) t)))

/-- The desk buttons, the slot reader and the events a desk may not send reach their owners. REST begin, SUBMIT and
SLOT show NOT_ALLOCATED at a FREE or HELD seat and DONE at a VACATED one, where a REST end is ignored (R72, R108); at
an OCCUPIED seat each is checked for the candidate: a REST begins or ends or shows STAY, HELD or BUDGET (R73, R74), a
SUBMIT finishes the candidate or shows STAY, HELD or EARLY_BAR (R75, R77, R111), and a SLOT issues the script with a
SEAT for the desk or shows the refusal, WRONG_OWNER and FULL with a CUSTODY cause (R109). A TAP shows NOT_ALLOCATED at
a FREE seat; a matching one shows NOT_ALLOCATED at a HELD seat and DONE at a VACATED one and confirms the candidate
with a SEAT at an OCCUPIED one, and one that does not match shows WRONG_SEAT at each, writes the room's last wrong seat
and raises one DESK cause (R61). A COLLECT from a desk raises one DESK cause (R97). -/
def Obligations.DeskEventsReachTheirOwners : Prop :=
  (∀ (s : State) (x d : Nat),
    (∀ e ∈ [DeskEvent.rest true, .submit, .slot d],
      ((s.seat x).state ∈ [SeatState.free, .held] → deliverDesk x e s = offerDesk x (.notice .notAllocated) s) ∧
      ((s.seat x).state = .vacated → deliverDesk x e s = offerDesk x (.notice .done) s)) ∧
    ((s.seat x).state ∈ [SeatState.free, .held, .vacated] → deliverDesk x (.rest false) s = s) ∧
    deliverDesk x (.collect d) s = s.raise .desk ∧ deliverDesk x .null s = s) ∧
  (∀ (s : State) (x n : Nat) (matching : Prop),
    (matching ↔ n ≤ 99999999 ∧ ∃ j, (s.seat x).candidate = some j ∧ j ∈ s.chain n) →
    ((s.seat x).state = .free → deliverDesk x (.tap n) s = offerDesk x (.notice .notAllocated) s) ∧
    (matching →
      ((s.seat x).state = .held → deliverDesk x (.tap n) s = offerDesk x (.notice .notAllocated) s) ∧
      ((s.seat x).state = .vacated → deliverDesk x (.tap n) s = offerDesk x (.notice .done) s) ∧
      (∀ j c p, (s.seat x).state = .occupied → (s.seat x).candidate = some j → s.cand j = some c →
        (s.seat x).place = some p → deliverDesk x (.tap n) s =
          offerDesk x (.seat p.room p.row p.column c.number c.sitting)
            (s.setCand j { c with flags := { c.flags with confirmed := true } }))) ∧
    (∀ p, ¬ matching → (s.seat x).state ∈ [SeatState.held, .occupied, .vacated] → (s.seat x).place = some p →
      deliverDesk x (.tap n) s = { offerDesk x (.notice .wrongSeat) s with
        rooms := s.rooms.set p.room { s.rooms[p.room] with lastWrongSeat := some ⟨x, n, s.hallTime⟩ },
        attention := (s.raise .desk).attention })) ∧
  (∀ (s : State) (x j : Nat) (c : Candidate) (g : Sitting),
    (s.seat x).state = .occupied → (s.seat x).candidate = some j → s.cand j = some c → c.currentSeat = some x →
    g = s.sittings[c.sitting] →
    (c.state = .resting →
      deliverDesk x (.rest true) s = s ∧
      deliverDesk x (.rest false) s =
        showEnd { c with state := .active } (s.setCand j { c with state := .active })) ∧
    (c.state ≠ .resting →
      deliverDesk x (.rest false) s = s ∧
      ((c.state ≠ .active ∨ g.state ∉ [SittingState.writing, .closing]) →
        deliverDesk x (.rest true) s = offerDesk x (.notice .stay) s)) ∧
    (c.state = .active → g.state ∈ [SittingState.writing, .closing] →
      (g.held = true → deliverDesk x (.rest true) s = offerDesk x (.notice .held) s) ∧
      (g.held = false → c.restBudget.getD 0 ≤ c.restUsed →
        deliverDesk x (.rest true) s = offerDesk x (.notice .budget) s) ∧
      (g.held = false → c.restUsed < c.restBudget.getD 0 →
        deliverDesk x (.rest true) s =
          showEnd { c with state := .resting } (s.setCand j { c with state := .resting }))) ∧
    (c.state ∉ [CandState.active, .resting] → deliverDesk x .submit s = offerDesk x (.notice .stay) s) ∧
    (∀ pe, c.state ∈ [CandState.active, .resting] → c.personalEnd = some pe →
      (g.held = true → deliverDesk x .submit s = offerDesk x (.notice .held) s) ∧
      (g.held = false → (g.e < g.r + g.e1 ∨ pe - s.hallTime ≤ g.e2) →
        deliverDesk x .submit s = offerDesk x (.notice .earlyBar) s) ∧
      (s.storeLaw = true → g.held = false → g.r + g.e1 ≤ g.e → g.e2 < pe - s.hallTime → ∃ t,
        deliverDesk x .submit s = closingTest c.sitting t ∧
        t = { s with
          roll := t.roll, seats := t.seats, segments := t.segments, attention := t.attention,
          scripts := s.scripts.map (fun y =>
            (y.1, if y.2.slot = j ∧ y.2.state = .issued then
              { y.2 with state := .submitted, submittedAt := some s.hallTime } else y.2)) } ∧
        t.seats = (finishedDesk x j s).seats ∧ t.segments = (finishedDesk x j s).segments ∧
        s.sameButQueues t ∧ (∀ y, y ≠ x → t.seat y = s.seat y) ∧
        ((∃ y ∈ s.scripts, y.2.slot = j ∧ y.2.state ∈ [ScriptState.issued, .submitted]) →
          t.roll = tableInsert s.roll j { c with state := .done } ∧
          (t.seat x).butStale = Seat.butStale { s.seat x with state := .vacated } ∧ t.attention = s.attention) ∧
        ((∀ y ∈ s.scripts, y.2.slot = j → y.2.state ∉ [ScriptState.issued, .submitted]) →
          t.roll = tableInsert s.roll j { c with
            state := .cleared, currentSeat := none,
            flags := { c.flags with noScript := c.flags.noScript || (s.boundScripts j).isEmpty } } ∧
          (t.seat x).butStale =
            Seat.butStale { s.seat x with state := .free, candidate := none, handRaised := false } ∧
          t.attention = (if (s.boundScripts j).isEmpty then (s.raise .custody).attention else s.attention)))) ∧
    (∀ d, validSerial d = false → deliverDesk x (.slot d) s = offerDesk x (.notice .badSerial) s) ∧
    (∀ d y p, validSerial d = true → s.script d = some y → (s.seat x).place = some p →
      (y.slot = j → deliverDesk x (.slot d) s =
        offerDesk x (.seat p.room p.row p.column c.number c.sitting) s) ∧
      (∀ m a, y.slot ≠ j → (s.seat x).binds = some (m, a) → deliverDesk x (.slot d) s =
        offerDesk x (.notice .wrongOwner)
          ({ s with lastCustodyRefusal := some ⟨d, .wrongOwner, m, a, s.hallTime⟩ }.raise .custody))) ∧
    (∀ d p, validSerial d = true → s.script d = none → c.state ∈ [CandState.seated, .active, .resting] →
      (s.seat x).place = some p →
      (c.flags.confirmed = false → deliverDesk x (.slot d) s = offerDesk x (.notice .notConfirmed) s) ∧
      (c.flags.confirmed = true → 4 ≤ (s.boundScripts j).length →
        deliverDesk x (.slot d) s = offerDesk x (.notice .limit) s) ∧
      (∀ m a, c.flags.confirmed = true → (s.boundScripts j).length < 4 → 2048 ≤ s.scripts.length →
        (s.seat x).binds = some (m, a) → deliverDesk x (.slot d) s =
          offerDesk x (.notice .stay)
            ({ s with lastCustodyRefusal := some ⟨d, .full, m, a, s.hallTime⟩ }.raise .custody)) ∧
      (c.flags.confirmed = true → (s.boundScripts j).length < 4 → s.scripts.length < 2048 →
        deliverDesk x (.slot d) s = offerDesk x (.seat p.room p.row p.column c.number c.sitting)
          (s.setScript d
            { kind := if d / 1000000 ≤ 4 then .booklet else .sheet, slot := j, sitting := c.sitting,
              seatAtIssue := ⟨x, p.room, p.row, p.column⟩, state := .issued, submittedAt := none, page := none,
              result := none }))))

/-- A good answer from the post makes it PRESENT with no miss, with a BLANK where it was LOST or UNKNOWN, and its event
is delivered (R93, R96, R97). A TAP at the door is refused in the order of R52, with the notice, the room's last
refusal and one ADMISSION cause (R52, R55), or seats the target (R52, R54), with a SEAT for the post and the desk, and
an END, and a WARN where it is due, where it became ACTIVE (R56, R69). A COLLECT is refused with its notice, the last
custody refusal and one CUSTODY cause, ignored with a SEAT for the post, or collects the script, which may clear its
candidate (R112, R113, R114). A RESTART offers a BLANK (R98); an event the post may not send, and any event from a desk
address no longer bound, raises one DESK cause (R97). The next exchange is chosen after the delivery (log entry 14). -/
def Obligations.PostEventsAreTaken : Prop :=
  (∀ (s : State) (m : Fin 4) (door : Bool) (frame : List Byte) (a : Nat) (e : DeskEvent) (z w : State),
    s.resetHold = .running → s.segments[m].line = .awaiting a → parseAnswer frame = some (a, e) →
    z = s.setSegment m { s.segments[m] with line := .master, doorWire := door } →
    w = z.setSegment m { z.segments[m] with postStatus := .present, postMiss := 0 } →
    (a = 0 → exec (.deskAnswer m door frame) s = .next (kickSegment m (deliverPost m e
      (if s.segments[m].postStatus = .present then w else offerPost m .blank w)))) ∧
    (0 < a → s.boundSeat m a = none →
      exec (.deskAnswer m door frame) s = .next (kickSegment m (if e = .null then z else z.raise .desk)))) ∧
  (∀ (u : State) (m : Fin 4) (up : Bool) (d : Nat),
    deliverPost m .null u = u ∧ deliverPost m .restart u = offerPost m .blank u ∧
    (∀ e ∈ [DeskEvent.hand up, .rest up, .submit, .slot d], deliverPost m e u = u.raise .desk)) ∧
  (∀ (u : State) (m : Fin 4) (n : Nat) (target : Candidate → Prop) (found admitted absent : Prop),
    (∀ c, target c ↔ c.state = .expected ∧ u.sittings[c.sitting].admissionOpen = true) →
    (found ↔ ∃ j c, j ∈ u.chain n ∧ u.cand j = some c ∧ target c) →
    (admitted ↔ ∃ j c, j ∈ u.chain n ∧ u.cand j = some c ∧ c.state ∈ [CandState.seated, .active, .resting, .done]) →
    (absent ↔ ∃ j c, j ∈ u.chain n ∧ u.cand j = some c ∧ c.state = .absent) →
    (∀ why : Notice,
      ((why = .notEnrolled ∧ (99999999 < n ∨ u.lookup n = none)) ∨
        (n ≤ 99999999 ∧ u.lookup n ≠ none ∧
          ((why = .inOtherSitting ∧ admitted ∧ found) ∨ (why = .alreadySeated ∧ admitted ∧ ¬ found) ∨
            (why = .late ∧ ¬ admitted ∧ ¬ found ∧ absent) ∨ (why = .notNow ∧ ¬ admitted ∧ ¬ found ∧ ¬ absent) ∨
            (why = .hallHold ∧ ¬ admitted ∧ found ∧ u.holdFilter.filtered = true)))) →
      deliverPost m (.tap n) u = { offerPost m (.notice why) u with
        rooms := u.rooms.set m { u.rooms[m] with lastRefusal := some ⟨n, why, u.hallTime⟩ },
        attention := (u.raise .admission).attention }) ∧
    (∀ j c before after, n ≤ 99999999 → u.lookup n ≠ none → ¬ admitted → u.holdFilter.filtered = false →
      u.chain n = before ++ j :: after → (∀ i d, i ∈ before → u.cand i = some d → ¬ target d) →
      u.cand j = some c → target c →
      (u.seatFor c = none → deliverPost m (.tap n) u = { offerPost m (.notice .noSeat) u with
        rooms := u.rooms.set m { u.rooms[m] with lastRefusal := some ⟨n, .noSeat, u.hallTime⟩ },
        attention := (u.raise .admission).attention }) ∧
      (∀ x p g, u.storeLaw = true → u.seatFor c = some x → (u.seat x).place = some p → g = u.sittings[c.sitting] →
        ∃ t d, deliverPost m (.tap n) u = t ∧
          t = { u with
            roll := tableInsert u.roll j d, seats := t.seats, segments := t.segments, attention := t.attention } ∧
          u.sameButQueues t ∧ (∀ y, y ≠ x → t.seat y = u.seat y) ∧
          (t.seat x).butStale = Seat.butStale { u.seat x with state := .occupied, candidate := some j } ∧
          (∀ w, w = offerDesk x (.seat p.room p.row p.column c.number c.sitting)
              (offerPost m (.seat p.room p.row p.column c.number c.sitting)
                (u.setSeat x { u.seat x with state := .occupied, candidate := some j })) →
            (g.state = .admitting → t = { w with roll := tableInsert u.roll j d }) ∧
            (∀ pe budget, g.state ≠ .admitting → d.personalEnd = some pe → d.restBudget = some budget →
              t = warnedAt x j { d with flags := { c.flags with lateArrival := true } } g.v pe
                (offerDesk x (.ending pe .active budget) w))) ∧
          (u.segments[m].line ≠ .disabled → u.segments[m].postStatus = .present → u.segments[m].queue = [] →
            t.segments[m].queue.head? =
              some ⟨0, .seat p.room p.row p.column c.number c.sitting⟩) ∧
          (g.state = .admitting → t.attention = u.attention ∧ d = { c with
            state := .seated, currentSeat := some x, seatOfRecord := some ⟨x, p.room, p.row, p.column⟩ }) ∧
          (g.state ≠ .admitting → d = { c with
            state := .active, currentSeat := some x, seatOfRecord := some ⟨x, p.room, p.row, p.column⟩,
            flags := { c.flags with lateArrival := true, warned := d.flags.warned },
            restUsed := 0, ext := some ((g.w * c.allowance + 5999) / 6000 * 60),
            restBudget := some ((g.w * c.restRate + 59) / 60),
            personalEnd := some (min 86399
              (g.t0 + g.h + g.r + g.w + (g.w * c.allowance + 5999) / 6000 * 60)) })))) ∧
  (∀ (u : State) (m : Fin 4) (d : Nat),
    (∀ (why : CustodyReason) (notice : Notice),
      ((why = .badSerial ∧ notice = .badSerial ∧ validSerial d = false) ∨
        (why = .unknownScript ∧ notice = .stay ∧ validSerial d = true ∧ u.script d = none) ∨
        (validSerial d = true ∧ ∃ y, u.script d = some y ∧
          ((why = .notSubmitted ∧ notice = .notSubmitted ∧ y.state = .issued) ∨
            (why = .voided ∧ notice = .stay ∧ y.state = .voided) ∨
            (why = .wrongRoom ∧ notice = .wrongRoom ∧ y.state = .submitted ∧
              ∀ c x p, u.cand y.slot = some c → c.currentSeat = some x → (u.seat x).place = some p →
                p.room ≠ m)))) →
      deliverPost m (.collect d) u = { offerPost m (.notice notice) u with
        lastCustodyRefusal := some ⟨d, why, m, 0, u.hallTime⟩, attention := (u.raise .custody).attention }) ∧
    (∀ y c, validSerial d = true → u.script d = some y → u.cand y.slot = some c →
      (y.state ∈ [ScriptState.collected, .marking, .marked, .handed] →
        (∀ x p, c.currentSeat = some x → (u.seat x).place = some p → deliverPost m (.collect d) u =
          offerPost m (.seat p.room p.row p.column c.number c.sitting) u) ∧
        (∀ r, c.currentSeat = none → c.seatOfRecord = some r → deliverPost m (.collect d) u =
          offerPost m (.seat r.room r.row r.column c.number c.sitting) u)) ∧
      (∀ x p new, y.state = .submitted → c.state = .done → c.currentSeat = some x → (u.seat x).place = some p →
        p.room = m → new = tableInsert u.scripts d { y with state := .collected } →
        ((∃ z ∈ new, z.2.slot = y.slot ∧ z.2.state ∈ [ScriptState.issued, .submitted]) →
          deliverPost m (.collect d) u =
            offerPost m (.seat p.room p.row p.column c.number c.sitting) { u with scripts := new }) ∧
        (∀ r, u.storeLaw = true → c.seatOfRecord = some r →
          (∀ z ∈ new, z.2.slot = y.slot → z.2.state ∉ [ScriptState.issued, .submitted]) → ∃ t,
            deliverPost m (.collect d) u = offerPost m (.seat r.room r.row r.column c.number c.sitting) t ∧
            t = { u with
              scripts := new, seats := t.seats, segments := t.segments,
              roll := tableInsert u.roll y.slot { c with state := .cleared, currentSeat := none } } ∧
            t.seats = (freedDesk x u).seats ∧ t.segments = (freedDesk x u).segments ∧
            u.sameButQueues t ∧ (∀ z, z ≠ x → t.seat z = u.seat z) ∧
            (t.seat x).butStale =
              Seat.butStale { u.seat x with state := .free, candidate := none, handRaised := false }))))

/-- A window that ends with no answer, or with a failed one (a frame that is no good answer from the awaited address),
counts a miss of the awaited unit; the third in a row makes the desk or the post LOST with one DESK cause and a
DESK_LOST report; a failed answer is reported as DESK_CORRUPT; a miss of a LOST unit counts no further, and a miss of
an address no longer bound counts against no seat (R92, R94, R95, R96, R176). Which of two reports made together comes
first is left open (log entry 16); the next exchange is chosen after them (log entry 14). -/
def Obligations.MissedAnswersCountToLost : Prop :=
  ∀ (s : State) (m : Fin 4) (door : Bool) (a : Nat) (w : State) (frame : List Byte),
    s.resetHold = .running → s.storeLaw = true → s.segments[m].line = .awaiting a →
    w = s.setSegment m { s.segments[m] with line := .master, doorWire := door } →
    (∀ e, parseAnswer frame ≠ some (a, e)) →
    (∀ x v lost, 0 < a → s.boundSeat m a = some x → v = s.seat x →
      lost = w.setSeat x { v with missCount := 3, deskStatus := .lost } →
      (v.missCount < 2 →
        exec (.answerWindowTimeout m door) s =
          .next (kickSegment m (w.setSeat x { v with missCount := v.missCount + 1 })) ∧
        exec (.deskAnswer m door frame) s = .next (kickSegment m
          ((w.setSeat x { v with missCount := v.missCount + 1 }).reportFault .deskCorrupt (.unit m a)))) ∧
      (v.missCount = 2 →
        exec (.answerWindowTimeout m door) s =
          .next (kickSegment m ((lost.raise .desk).reportFault .deskLost (.unit m a))) ∧
        (exec (.deskAnswer m door frame) s = .next (kickSegment m
            (((lost.raise .desk).reportFault .deskLost (.unit m a)).reportFault .deskCorrupt (.unit m a))) ∨
          exec (.deskAnswer m door frame) s = .next (kickSegment m
            (((lost.reportFault .deskCorrupt (.unit m a)).raise .desk).reportFault .deskLost (.unit m a))))) ∧
      (3 ≤ v.missCount →
        exec (.answerWindowTimeout m door) s = .next (kickSegment m w) ∧
        exec (.deskAnswer m door frame) s =
          .next (kickSegment m (w.reportFault .deskCorrupt (.unit m a))))) ∧
    (0 < a → s.boundSeat m a = none →
      exec (.answerWindowTimeout m door) s = .next (kickSegment m w) ∧
      exec (.deskAnswer m door frame) s = .next (kickSegment m (w.reportFault .deskCorrupt (.unit m a)))) ∧
    (∀ g lost, a = 0 → g = w.segments[m] → lost = w.setSegment m { g with postMiss := 3, postStatus := .lost } →
      (g.postMiss < 2 →
        exec (.answerWindowTimeout m door) s =
          .next (kickSegment m (w.setSegment m { g with postMiss := g.postMiss + 1 })) ∧
        exec (.deskAnswer m door frame) s = .next (kickSegment m
          ((w.setSegment m { g with postMiss := g.postMiss + 1 }).reportFault .deskCorrupt (.unit m 0)))) ∧
      (g.postMiss = 2 →
        exec (.answerWindowTimeout m door) s =
          .next (kickSegment m ((lost.raise .desk).reportFault .deskLost (.unit m 0))) ∧
        (exec (.deskAnswer m door frame) s = .next (kickSegment m
            (((lost.raise .desk).reportFault .deskLost (.unit m 0)).reportFault .deskCorrupt (.unit m 0))) ∨
          exec (.deskAnswer m door frame) s = .next (kickSegment m
            (((lost.reportFault .deskCorrupt (.unit m 0)).raise .desk).reportFault .deskLost (.unit m 0))))) ∧
      (3 ≤ g.postMiss →
        exec (.answerWindowTimeout m door) s = .next (kickSegment m w) ∧
        exec (.deskAnswer m door frame) s =
          .next (kickSegment m (w.reportFault .deskCorrupt (.unit m 0)))))

/-- ACK_HAND clears the hand-raised flag of its seat; RESET_ROOM empties the room's queue, makes its post and bound
desks UNKNOWN and restarts its rotation, abandons a window, after which the next exchange is chosen, and leaves a POLL
that is going out without one (R87, R99, R100). -/
def Obligations.HandsAndRoomResets : Prop :=
  (∀ (v : Seat) (m : Fin 4),
    ((∃ a, v.binds = some (m, a)) →
      v.contactLost m = { v with deskStatus := .unknown, missCount := 0, stale := false }) ∧
    ((∀ a, v.binds ≠ some (m, a)) → v.contactLost m = v)) ∧
  ∀ s : State, s.resetHold = .running →
    (∀ x, x < 512 → exec (.ackHand x) s =
      answered (.ackHand x) .ok [] s (s.setSeat x { s.seat x with handRaised := false })) ∧
    (∀ (m : Fin 4) (g : Segment), g = s.segments[m] →
      ((g.line = .disabled ∨ (g.line = .master ∧ g.sending.isSome = true)) →
        exec (.resetRoom m) s = answered (.resetRoom m) .ok [] s { s with
          seats := s.seats.map (fun y => (y.1, y.2.contactLost m)),
          segments := s.segments.set m { g with
            queue := [], rotation := 128, postStatus := .unknown, postMiss := 0,
            pollVoided := match g.sending with | some (.poll _) => true | _ => false } }) ∧
      (∀ a, g.line = .awaiting a → g.sending = none → ∃ t,
        exec (.resetRoom m) s = answered (.resetRoom m) .ok [] s t ∧
        t = kickSegment m { s with
          seats := s.seats.map (fun y => (y.1, y.2.contactLost m)),
          segments := s.segments.set m { g with
            line := .master, queue := [], rotation := 128, postStatus := .unknown, postMiss := 0,
            pollVoided := false } } ∧
        t = { s with
          seats := s.seats.map (fun y => (y.1, y.2.contactLost m)),
          segments := s.segments.set m t.segments[m] } ∧
        t.segments[m].line = .master ∧ t.segments[m].sending.isSome = true ∧ t.segments[m].queue = [] ∧
        t.segments[m].postStatus = .unknown ∧ t.segments[m].postMiss = 0))

/-! ### Chapter 6: script custody -/

/-- A serial is valid where its seventh digit is the check of its first six (Section 4.3, R106). ISSUE binds a valid
serial to a SEATED, ACTIVE or RESTING record with fewer than four scripts, with a copy of its seat; a serial already
bound to it is answered OK with no change. The refusals are RANGE, BAD_SERIAL, WRONG_OWNER, STATE, LIMIT and FULL, in
their order (R106, R107, R109, R110); that RANGE for the serial is tested before the name is resolved is the model's
choice (log entry 31). The byte 0 or 1 before the values of the answer is the model's (log entry 8). -/
def Obligations.IssueBindsAScript : Prop :=
  (∀ d : Nat, validSerial d = true ↔ ∃ a1 a2 a3 a4 a5 a6 check : Fin 10,
    d = 1000000 * a1.val + 100000 * a2.val + 10000 * a3.val + 1000 * a4.val + 100 * a5.val + 10 * a6.val + check.val ∧
    check.val = (11 - (7 * a1.val + 6 * a2.val + 5 * a3.val + 4 * a4.val + 3 * a5.val + 2 * a6.val) % 11) % 11) ∧
  (∀ (s : State) (j : Nat), s.boundScripts j = s.scripts.filter (fun y => y.2.slot == j)) ∧
  (∀ (s : State) (n k d : Nat), s.resetHold = .running → 9999999 < d →
    exec (.issue n k d) s = answered (.issue n k d) .range [] s s) ∧
  ∀ (s : State) (n k j d : Nat) (c : Candidate) (i : Instr), s.resetHold = .running → s.storeLaw = true →
    s.resolve n k = .ok (j, c) → d ≤ 9999999 → i = .issue n k d →
    (validSerial d = false → exec i s = answered i .badSerial [] s s) ∧
    (validSerial d = true →
      (∀ y, s.script d = some y → y.slot = j → exec i s = answered i .ok [0] s s) ∧
      (∀ y, s.script d = some y → y.slot ≠ j → exec i s = answered i .wrongOwner [] s s) ∧
      (s.script d = none → c.state ∉ [CandState.seated, .active, .resting] →
        exec i s = answered i .state [] s s) ∧
      (s.script d = none → c.state ∈ [CandState.seated, .active, .resting] →
        (4 ≤ (s.boundScripts j).length → exec i s = answered i .limit [] s s) ∧
        ((s.boundScripts j).length < 4 → s.scripts.length = 2048 → exec i s = answered i .full [] s s) ∧
        (∀ x p, (s.boundScripts j).length < 4 → s.scripts.length < 2048 → c.currentSeat = some x →
          (s.seat x).place = some p →
          exec i s = answered i .ok
            (1 :: (be2 x ++ be1 p.room.val ++ be1 p.row ++ be1 p.column ++ be1 ((s.boundScripts j).length + 1))) s
            (s.setScript d
              { kind := if d / 1000000 ≤ 4 then .booklet else .sheet, slot := j, sitting := c.sitting,
                seatAtIssue := ⟨x, p.room, p.row, p.column⟩, state := .issued, submittedAt := none, page := none,
                result := none }))))

/-- VOID, HAND_OVER and HAND_OVER_SITTING: a voided script may clear its DONE candidate, whose seat then becomes FREE
with a BLANK for its desk; a collected booklet is handed over, and every one of a sitting at once. VOID and HAND_OVER
refuse a serial with RANGE, BAD_SERIAL and UNKNOWN_SCRIPT (R112, R115, R116, R117). -/
def Obligations.ScriptsAreVoidedAndHandedOver : Prop :=
  ∀ s : State, s.resetHold = .running →
    (∀ d, ∀ i ∈ [Instr.void d, .handOver d],
      (9999999 < d → exec i s = answered i .range [] s s) ∧
      (d ≤ 9999999 → validSerial d = false → exec i s = answered i .badSerial [] s s) ∧
      (validSerial d = true → s.script d = none → exec i s = answered i .unknownScript [] s s)) ∧
    (∀ d y, validSerial d = true → s.script d = some y →
      (y.state ∈ [ScriptState.issued, .submitted, .collected] →
        ∀ new, new = tableInsert s.scripts d { y with state := .voided } →
        ((∀ c, s.cand y.slot = some c → c.state = .done →
            ∃ z ∈ new, z.2.slot = y.slot ∧ z.2.state ∈ [ScriptState.issued, .submitted]) →
          exec (.void d) s = answered (.void d) .ok [] s { s with scripts := new }) ∧
        (∀ c x, s.storeLaw = true → s.cand y.slot = some c → c.state = .done → c.currentSeat = some x →
          (∀ z ∈ new, z.2.slot = y.slot → z.2.state ∉ [ScriptState.issued, .submitted]) →
          ∃ t, exec (.void d) s = answered (.void d) .ok [] s t ∧
            t = { s with
              scripts := new, seats := t.seats, segments := t.segments,
              roll := tableInsert s.roll y.slot { c with state := .cleared, currentSeat := none } } ∧
            t.seats = (freedDesk x s).seats ∧ t.segments = (freedDesk x s).segments ∧
            s.sameButQueues t ∧ (∀ z, z ≠ x → t.seat z = s.seat z) ∧
            (t.seat x).butStale =
              Seat.butStale { s.seat x with state := .free, candidate := none, handRaised := false })) ∧
      (y.state = .voided → exec (.void d) s = answered (.void d) .ok [] s s) ∧
      (y.state = .marking → exec (.void d) s = answered (.void d) .busy [] s s) ∧
      (y.state = .marked → exec (.void d) s = answered (.void d) .marked [] s s) ∧
      (y.state = .handed → exec (.void d) s = answered (.void d) .state [] s s) ∧
      (y.kind = .sheet → exec (.handOver d) s = answered (.handOver d) .notABooklet [] s s) ∧
      (y.kind = .booklet →
        (y.state = .collected → exec (.handOver d) s = answered (.handOver d) .ok [] s
          { s with scripts := tableInsert s.scripts d { y with state := .handed } }) ∧
        (y.state = .handed → exec (.handOver d) s = answered (.handOver d) .ok [] s s) ∧
        (y.state ∉ [ScriptState.collected, .handed] →
          exec (.handOver d) s = answered (.handOver d) .state [] s s))) ∧
    (∀ k : Fin 8, exec (.handOverSitting k) s = answered (.handOverSitting k) .ok
      (be2 (s.scripts.filter (fun z =>
        z.2.sitting == k && z.2.kind == .booklet && z.2.state == .collected)).length) s
      { s with scripts := s.scripts.map (fun z =>
        (z.1, if z.2.sitting = k ∧ z.2.kind = .booklet ∧ z.2.state = .collected then
          { z.2 with state := .handed } else z.2)) })

/-! ### Chapter 7: answer keys -/

/-- KEY_OPEN, KEY_ENTRIES, KEY_SEAL and KEY_DISCARD: a key is opened with a header in range, loaded entry by entry,
sealed where it is whole and its thresholds and boundaries are in order, with its section totals and maxima, and
discarded (R121, R122, R123, R124, R125, R126, R130). The refusals of each, in their order, change nothing; a
KEY_ENTRIES that is refused names the first entry at fault and writes none (R122, R123, R125, R130). What the model
settles: the byte 0 of an ORDER for the thresholds (log entry 8), the question that a RANGE names where the first
question is 0 or the request runs past Q, and the answers to a KEY_ENTRIES of no entry or of more than 59 that comes as
a row (log entries 21 and 22). -/
def Obligations.KeysAreLoadedSealedAndDiscarded : Prop :=
  ∀ (s : State) (k : Fin 8) (v : KeySlot), s.resetHold = .running → s.storeLaw = true → v = s.keys[k] →
    (∀ (h : KeyHeader) (good : Prop),
      (good ↔ 1 ≤ h.q ∧ h.q ≤ 180 ∧ 1 ≤ h.tf ∧ h.tf ≤ 255 ∧ 1 ≤ h.te ∧ h.te ≤ 255 ∧ h.margin ≤ 255 ∧
        (∀ i : Fin 4, 1 ≤ h.caps[i] ∧ h.caps[i] ≤ 7200) ∧ ∀ i : Fin 7, h.bounds[i] ≤ 1001) →
      ((s.sittings[k].state = .unscheduled ∨ v.state ≠ .empty) →
        exec (.keyOpen k h) s = answered (.keyOpen k h) .state [] s s) ∧
      (s.sittings[k].state ≠ .unscheduled → v.state = .empty →
        (¬ good → exec (.keyOpen k h) s = answered (.keyOpen k h) .range [] s s) ∧
        (good → exec (.keyOpen k h) s = answered (.keyOpen k h) .ok (be1 ((h.q + 44) / 45)) s
          { s with keys := s.keys.set k { state := .loading, header := h, entries := [], derived := none } }))) ∧
    (∀ (q : Nat) (es : List KeyEntryArg) (i : Instr) (faulty : KeyEntryArg → Prop), i = .keyEntries k q es →
      (∀ e, faulty e ↔ e.set.getLsbD 7 = false ∧
        (e.weight = 0 ∨ 3 < e.section_ ∨ e.set.setWidth 5 = (0 : BitVec 5))) →
      (es = [] → exec i s = answered i .malformed [] s s) ∧
      (59 < es.length → exec i s = answered i .tooLong [] s s) ∧
      (1 ≤ es.length → es.length ≤ 59 →
        (v.state ≠ .loading → exec i s = answered i .state [] s s) ∧
        (v.state = .loading →
          (q = 0 → exec i s = answered i .range (be1 0) s s) ∧
          (1 ≤ q → v.header.q + 1 < q + es.length →
            exec i s = answered i .range (be1 (max q (v.header.q + 1))) s s) ∧
          (1 ≤ q → q + es.length ≤ v.header.q + 1 →
            (∀ y e, es[y]? = some e → faulty e → (∀ y' e', y' < y → es[y']? = some e' → ¬ faulty e') →
              exec i s = answered i .range (be1 (q + y)) s s) ∧
            (∀ w, (∀ e ∈ es, ¬ faulty e) → w = v.withEntries q es →
              w = { v with entries := w.entries } ∧
              (∀ y e, es[y]? = some e → tableFind w.entries (q + y) =
                some (if e.set.getLsbD 7 then .void
                  else .answer (e.set.setWidth 5) (min e.weight 40) (min e.penalty (min e.weight 40))
                    (Fin.ofNat 4 e.section_))) ∧
              (∀ y, (y < q ∨ q + es.length ≤ y) → tableFind w.entries y = tableFind v.entries y) ∧
              w.loadBytes =
                be1 ((List.range' 1 v.header.q).filter (fun y => (tableFind w.entries y).isSome)).length ++
                beOpt be1 ((List.range' 1 v.header.q).find? (fun y => (tableFind w.entries y).isNone)) ∧
              exec i s = answered i
                (clampStatus (∃ e ∈ es, e.set.getLsbD 7 = false ∧ (40 < e.weight ∨ min e.weight 40 < e.penalty ∨
                  e.set.getLsbD 5 = true ∨ e.set.getLsbD 6 = true)))
                w.loadBytes s { s with keys := s.keys.set k w }))))) ∧
    (v.state ≠ .loading → exec (.keySeal k) s = answered (.keySeal k) .state [] s s) ∧
    (v.state = .loading →
      (∀ q, 1 ≤ q → q ≤ v.header.q → tableFind v.entries q = none →
        (∀ q', 1 ≤ q' → q' < q → tableFind v.entries q' ≠ none) →
        exec (.keySeal k) s = answered (.keySeal k) .incomplete (be1 q) s s) ∧
      ((∀ q, 1 ≤ q → q ≤ v.header.q → tableFind v.entries q ≠ none) →
        (v.header.tf ≤ v.header.te → exec (.keySeal k) s = answered (.keySeal k) .order (be1 0) s s) ∧
        (∀ i j : Fin 7, v.header.te < v.header.tf → j.val = i.val + 1 → v.header.bounds[j] < v.header.bounds[i] →
          (∀ i' j' : Fin 7, j'.val = i'.val + 1 → i' < i → v.header.bounds[i'] ≤ v.header.bounds[j']) →
          exec (.keySeal k) s = answered (.keySeal k) .order (be1 (i.val + 1)) s s) ∧
        (v.header.te < v.header.tf → (∀ i j : Fin 7, i ≤ j → v.header.bounds[i] ≤ v.header.bounds[j]) →
          ∀ st d, st = (if s.sittings[k].state = .closed then KeyState.released else .sealed_) → d = v.derive →
          d.pages = (v.header.q + 44) / 45 ∧
          (∀ i : Fin 4, d.totals[i] = (v.entries.map (fun x => match x.2 with
            | .void => 0 | .answer _ weight _ sec => if sec = i then weight else 0)).sum ∧
            d.maxima[i] = min v.header.caps[i] d.totals[i]) ∧
          d.smax = d.maxima[0] + d.maxima[1] + d.maxima[2] + d.maxima[3] ∧
          exec (.keySeal k) s = answered (.keySeal k) .ok
            (be1 st.code ++ be1 d.pages ++ d.totals.toList.flatMap be2 ++ be2 d.smax) s
            { s with keys := s.keys.set k { v with state := st, derived := some d } }))) ∧
    (v.state = .empty → exec (.keyDiscard k) s = answered (.keyDiscard k) .ok [] s s) ∧
    ((v.state ∈ [KeyState.loading, .sealed_] ∨ (v.state = .released ∧
        ∀ y ∈ s.scripts, y.2.sitting = k → y.2.state ∉ [ScriptState.marking, .marked])) →
      exec (.keyDiscard k) s = answered (.keyDiscard k) .ok [] s
        { s with keys := s.keys.set k KeySlot.emptySlot }) ∧
    (v.state = .released →
      ((∃ y ∈ s.scripts, y.2.sitting = k ∧ y.2.state = .marking) →
        exec (.keyDiscard k) s = answered (.keyDiscard k) .busy [] s s) ∧
      ((∀ y ∈ s.scripts, y.2.sitting = k → y.2.state ≠ .marking) →
        (∃ y ∈ s.scripts, y.2.sitting = k ∧ y.2.state = .marked) →
        exec (.keyDiscard k) s = answered (.keyDiscard k) .marksExist [] s s))

/-! ### Chapter 8: the sheet intake -/

/-- The scanner's frames: a SHEET_BEGIN takes the lowest-numbered FREE buffer and is answered GO, or WAIT where there
is none; the rows fill the sheet in order; a SHEET_END of 45 closes it WELL_FORMED; any other frame and the gap timer
close it MALFORMED with a report, a SHEET_BEGIN among them, which is answered WAIT; a SHEET_BEGIN with 4 begin answers
waiting is handled as a frame whose check fails; outside FILLING rows and bad frames are ignored, and while reset owed
is set every frame is (R135, R136, R137, R138, R139, R141). The bytes of a frame spell its row where they are one of
the three layouts of Section 10.4 with its check byte, and a bad frame otherwise (R133, R172; log entry 25). A begin
answer that is going out is not counted among those that wait (log entry 17), and a gap timer that does not run cannot
expire (log entry 11). -/
def Obligations.ScannerFramesFillTheSheets : Prop :=
  (∀ (frame : List Byte) (good : Instr → Prop),
    (∀ i, good i ↔
      (∃ d p a b c e, d < 16777216 ∧ p < 256 ∧ a < 256 ∧ b < 256 ∧ c < 256 ∧ e < 256 ∧ i = .sheetBegin d p a b c e ∧
        frame = withCheck (be1 11 ++ be3 d ++ be1 p ++ be1 a ++ be1 b ++ be1 c ++ be1 e)) ∨
      (∃ n a b c d e, n < 256 ∧ a < 256 ∧ b < 256 ∧ c < 256 ∧ d < 256 ∧ e < 256 ∧ i = .row n a b c d e ∧
        frame = withCheck (be1 12 ++ be1 n ++ be1 a ++ be1 b ++ be1 c ++ be1 d ++ be1 e)) ∨
      (∃ n, n < 256 ∧ i = .sheetEnd n ∧ frame = withCheck (be1 13 ++ be1 n))) →
    (∀ i, good i → scannerCommand frame = i) ∧ ((∀ i, ¬ good i) → scannerCommand frame = .scannerBadFrame)) ∧
  ∀ s : State, s.resetHold = .running → s.intakeLaw = true →
    (s.intake.resetOwed = true → ∀ d p a b c e n, ∀ i ∈ [Instr.sheetBegin d p a b c e, .row n a b c d e, .sheetEnd n,
      .scannerBadFrame], exec i s = .next s) ∧
    (s.intake.resetOwed = false → s.intake.receive ≠ .filling → ∀ d p a b c e n,
      exec (.row n a b c d e) s = .next s ∧ exec .scannerBadFrame s = .next s ∧ exec .sheetGapTimeout s = .next s ∧
      exec (.sheetEnd n) s = .next (s.setIntake { s.intake with receive := .idle }) ∧
      (s.intake.beginAnswers.length = 4 → exec (.sheetBegin d p a b c e) s = .next s) ∧
      (s.intake.beginAnswers.length < 4 → ∀ (answer : BeginAnswer) (k' : Intake),
        (answer = .wait ∧ (∀ x : Fin 4, s.intake.buffers[x].state ≠ .free) ∧
          k' = { s.intake with receive := .idle }) ∨
        (∃ x : Fin 4, s.intake.buffers[x].state = .free ∧ (∀ y : Fin 4, y < x → s.intake.buffers[y].state ≠ .free) ∧
          answer = .go s.intake.nextNumber ∧ k' = { s.intake with
            buffers := s.intake.buffers.set x
              { state := .filling, number := s.intake.nextNumber, serial := d, page := p, cells := ⟨a, b, c, e⟩,
                rows := [], form := none, verdict := none },
            order := s.intake.order ++ [x], nextNumber := (s.intake.nextNumber + 1) % 256, receive := .filling,
            gapTimer := true }) →
        exec (.sheetBegin d p a b c e) s = .next (s.setIntake (match s.intake.sending with
          | none => { k' with sending := some (.begin_ answer) }
          | some _ => { k' with beginAnswers := s.intake.beginAnswers ++ [answer] })))) ∧
    (∀ (x : Fin 4) (v : SheetBuffer), s.intake.resetOwed = false → v = s.intake.buffers[x] → v.state = .filling →
      ∀ (n a b c d e p : Nat),
      (n = v.rows.length + 1 → n ≤ 45 → exec (.row n a b c d e) s = .next (s.setIntake { s.intake with
        buffers := s.intake.buffers.set x { v with rows := v.rows ++ [⟨a, b, c, d, e⟩] }, gapTimer := true })) ∧
      (n = 45 → v.rows.length = 45 → ∃ t, exec (.sheetEnd n) s = .next t ∧
        t = { s with
          intake := t.intake, hand := t.hand, scripts := t.scripts, attention := t.attention } ∧
        t.intake.receive = .idle ∧ t.intake.gapTimer = false ∧ t.intake.order = s.intake.order ∧
        t.intake.buffers[x] = { v with
          state := t.intake.buffers[x].state, form := some .wellFormed, verdict := t.intake.buffers[x].verdict } ∧
        t.intake.buffers[x].state ∈ [BufferState.queued, .taken, .decided]) ∧
      (∀ i next, ((i = .row n a b c d e ∧ (n ≠ v.rows.length + 1 ∨ 45 < n) ∧ next = .discarding) ∨
          (i = .sheetEnd n ∧ (n ≠ 45 ∨ v.rows.length ≠ 45) ∧ next = .idle) ∨
          (i = .scannerBadFrame ∧ next = .discarding) ∨ (i = .sheetGapTimeout ∧ next = .discarding) ∨
          (i = .sheetBegin d p a b c e ∧ s.intake.beginAnswers.length < 4 ∧ next = .idle) ∨
          (i = .sheetBegin d p a b c e ∧ s.intake.beginAnswers.length = 4 ∧ next = .discarding)) →
        ∃ t, exec i s = .next t ∧
          t = { s with
            intake := t.intake, attention := t.attention,
            faultRecord := (s.reportFault .sheetMalformed (.serial v.serial)).faultRecord } ∧
          t.intake.receive = next ∧ t.intake.gapTimer = false ∧ t.intake.order = s.intake.order ∧
          t.intake.nextNumber = s.intake.nextNumber ∧
          (¬ (i = .sheetBegin d p a b c e ∧ s.intake.beginAnswers.length < 4) →
            t.intake.beginAnswers = s.intake.beginAnswers ∧
            (s.intake.sending.isSome = true → t.intake.sending = s.intake.sending)) ∧
          (i = .sheetBegin d p a b c e → s.intake.beginAnswers.length < 4 →
            (s.intake.sending = none → t.intake.beginAnswers = [] ∧ t.intake.sending = some (.begin_ .wait)) ∧
            (s.intake.sending.isSome = true → t.intake.sending = s.intake.sending ∧
              t.intake.beginAnswers = s.intake.beginAnswers ++ [.wait])) ∧
          t.intake.buffers[x] = { v with
            state := t.intake.buffers[x].state, form := some .malformed,
            verdict := t.intake.buffers[x].verdict } ∧
          ((t.intake.buffers[x].state = .queued ∧ t.intake.buffers[x].verdict = none) ∨
            (t.intake.buffers[x].state = .decided ∧
              t.intake.buffers[x].verdict = some (.reject .malformed)))))

/-- The scanner port's transmitter: a sent PORT_RESET clears reset owed, a sent verdict frees its buffer and leaves the
verdict order, and the next frame is the oldest begin answer, or the verdict of the first buffer in the order where
that is DECIDED (R135, R141). The frames have the bytes of Section 10.4, a VERDICT with the number, serial and page of
its sheet (R133, R141, R172). -/
def Obligations.ScannerAnswersGoOutInOrder : Prop :=
  (∀ (k : Intake) (b : Fin 4) (n : Nat),
    k.frameBytes .portReset = withCheck (be1 24) ∧ k.frameBytes (.begin_ (.go n)) = withCheck (be1 21 ++ be1 n) ∧
    k.frameBytes (.begin_ .wait) = withCheck (be1 22) ∧
    (∀ v kind reason, k.buffers[b].verdict = some v →
      ((v, kind, reason) ∈ [(Verdict.accept, 1, 0), (.acceptReview, 2, 0), (.cleared, 4, 0)] ∨
        ∃ why, v = .reject why ∧ kind = 3 ∧ reason = why.code) →
      k.frameBytes (.verdict b) = withCheck (be1 23 ++ be1 k.buffers[b].number ++ be3 k.buffers[b].serial ++
        be1 k.buffers[b].page ++ be1 kind ++ be1 reason))) ∧
  ([RejectReason.malformed, .badSerial, .unknownScript, .notASheet, .notCollected, .alreadyMarked, .voided, .embargoed,
    .pageRange, .duplicatePage].map RejectReason.code = List.range' 1 10) ∧
  ∀ s : State, s.resetHold = .running → s.intakeLaw = true →
    (s.intake.sending = some .portReset → exec .portResetSent s =
      .next (s.setIntake { s.intake with resetOwed := false, sending := none })) ∧
    (∀ (i : Instr) (k' : Intake),
      ((i = .beginAnswerSent ∧ (∃ a, s.intake.sending = some (.begin_ a)) ∧ k' = s.intake) ∨
        (i = .verdictSent ∧ ∃ b, s.intake.sending = some (.verdict b) ∧ k' = { s.intake with
          order := s.intake.order.tail, buffers := s.intake.buffers.set b SheetBuffer.freeBuffer })) →
      (∀ a rest, s.intake.beginAnswers = a :: rest → exec i s = .next (s.setIntake { k' with
        beginAnswers := rest, sending := some (.begin_ a) })) ∧
      (s.intake.beginAnswers = [] →
        (∀ b, k'.order.head? = some b → k'.buffers[b].state = .decided →
          exec i s = .next (s.setIntake { k' with sending := some (.verdict b) })) ∧
        ((∀ b, k'.order.head? = some b → k'.buffers[b].state ≠ .decided) →
          exec i s = .next (s.setIntake { k' with sending := none }))))

/-- A sheet that is closed WELL_FORMED leads to the look at the next sheet, and a free transmitter then chooses (R137,
R140, R141). The next sheet, the first in the verdict order that is not DECIDED, is rejected where it is MALFORMED, and
otherwise taken where the mark engine holds none: rejected for the first reason of R142 that applies, with the last
reject and one MARKING cause, or marked: its script is MARKING, its buffer TAKEN and the sheet in hand (R140, R142,
R143). A rejection leads to the look at the sheet behind it; a sheet that is FILLING or TAKEN, or waits for the mark
engine, changes nothing (R140). -/
def Obligations.SheetsAreTakenAndChecked : Prop :=
  (∀ (s : State) (serial page : Nat),
    (validSerial serial = false → s.eligible serial page = .error .badSerial) ∧
    (validSerial serial = true → s.script serial = none → s.eligible serial page = .error .unknownScript) ∧
    (∀ y, validSerial serial = true → s.script serial = some y →
      (y.kind = .booklet → s.eligible serial page = .error .notASheet) ∧
      (y.kind = .sheet →
        (y.state ∈ [ScriptState.issued, .submitted] → s.eligible serial page = .error .notCollected) ∧
        (y.state = .marked → s.eligible serial page = .error .alreadyMarked) ∧
        (y.state = .voided → s.eligible serial page = .error .voided) ∧
        (y.state = .collected →
          ((s.sittings[y.sitting].state ≠ .closed ∨ s.keys[y.sitting].state ≠ .released) →
            s.eligible serial page = .error .embargoed) ∧
          (∀ d c, s.sittings[y.sitting].state = .closed → s.keys[y.sitting].state = .released →
            s.keys[y.sitting].derived = some d → s.cand y.slot = some c →
            ((page = 0 ∨ d.pages < page) → s.eligible serial page = .error .pageRange) ∧
            (1 ≤ page → page ≤ d.pages →
              (c.acc.pages.getLsbD page = true → s.eligible serial page = .error .duplicatePage) ∧
              (c.acc.pages.getLsbD page = false → s.eligible serial page = .ok y))))))) ∧
  (∀ (s : State),
    ((∀ b ∈ s.intake.order, s.intake.buffers[b].state = .decided) → settle s = s) ∧
    (∀ (before after : List (Fin 4)) (b : Fin 4) (v : SheetBuffer) (reject : RejectReason → State),
      s.intake.order = before ++ b :: after → (∀ x ∈ before, s.intake.buffers[x].state = .decided) →
      v = s.intake.buffers[b] →
      (∀ why, reject why = { s with
        intake := { s.intake with
          buffers := s.intake.buffers.set b { v with state := .decided, verdict := some (.reject why) },
          lastReject := some ⟨v.number, v.serial, v.page, why, s.hallTime⟩ },
        attention := (s.raise .marking).attention }) →
      (v.state ∈ [BufferState.filling, .taken] → settle s = s) ∧
      (v.state = .queued → v.form = some .malformed → settle s = settle (reject .malformed)) ∧
      (v.state = .queued → v.form = some .wellFormed →
        (s.hand.isSome = true → settle s = s) ∧
        (∀ why, s.hand = none → s.eligible v.serial v.page = .error why → settle s = settle (reject why)) ∧
        (∀ y, s.hand = none → s.eligible v.serial v.page = .ok y → settle s = { s with
          scripts := tableInsert s.scripts v.serial { y with state := .marking },
          intake := { s.intake with buffers := s.intake.buffers.set b { v with state := .taken } },
          hand := some ⟨b, v.serial, v.page, y.slot, y.sitting⟩ })))) ∧
  (∀ s : State, intakeChanged s = (settle s).setIntake (settle s).intake.transmit) ∧
  (∀ (k : Intake),
    (k.sheetReady = true ↔ k.resetOwed = false ∧ ∃ b : Fin 4, k.buffers[b].state = .free) ∧
    (k.sending.isSome = true → k.transmit = k) ∧
    (k.sending = none →
      (k.resetOwed = true → k.transmit = { k with sending := some .portReset }) ∧
      (k.resetOwed = false →
        (∀ a rest, k.beginAnswers = a :: rest →
          k.transmit = { k with beginAnswers := rest, sending := some (.begin_ a) }) ∧
        (∀ b rest, k.beginAnswers = [] → k.order = b :: rest → k.buffers[b].state = .decided →
          k.transmit = { k with sending := some (.verdict b) }) ∧
        (k.beginAnswers = [] → (∀ b, k.order.head? = some b → k.buffers[b].state ≠ .decided) →
          k.transmit = k)))) ∧
  (∀ (s z : State) (b : Fin 4), s.resetHold = .running → s.intakeLaw = true → s.intake.resetOwed = false →
    s.intake.buffers[b].state = .filling → s.intake.buffers[b].rows.length = 45 →
    z = { s with intake := { s.intake with
      buffers := s.intake.buffers.set b { s.intake.buffers[b] with state := .queued, form := some .wellFormed },
      gapTimer := false, receive := .idle } } →
    exec (.sheetEnd 45) s = .next ((settle z).setIntake (settle z).intake.transmit))

/-! ### Chapter 9: marks -/

/-- The marks: paper base and adjusted darkness, the class of a bubble, the response to a question, its score, the
per-mille and the band (R148, R149, R150, R152, R157, R158). Row i of page p carries question 45 × (p − 1) + i, and is
scored where the key has that question (R151); the page sums are those of its rows (R153). The result holds the total,
the sum of the four section sums each taken within 0 and the section's cap, the key maximum, the per-mille, the band,
NO_MAX where the maximum is 0, and REVIEW (R155, R156, R157); the pages of a key of P pages are 1 to P (R155). -/
def Obligations.MarksAreComputed : Prop :=
  (∀ (v : KeySlot) (base page i q : Nat) (r : RowReading) (t : PageTally), q = 45 * (page - 1) + i →
    questionOf page i = q ∧
    (v.header.q < q → t.row v base page i r = t) ∧
    (tableFind v.entries q = none → t.row v base page i r = t) ∧
    (∀ e, q ≤ v.header.q → tableFind v.entries q = some e →
      t.row v base page i r = t.score q e (resolveRow v.header (r.adjusted base)))) ∧
  (∀ (v : KeySlot) (b : SheetBuffer) (page : Nat),
    tallyPage v b page = (b.rows.zipIdx 1).foldl (fun t x => t.row v b.cells.base page x.2 x.1)
      { sums := #v[0, 0, 0, 0], review := [], overflow := false, ambiguous := 0 }) ∧
  (∀ p q : Nat, p ≤ 4 → (allPages p).getLsbD q = decide (1 ≤ q ∧ q ≤ p)) ∧
  (∀ (v : KeySlot) (d : KeyDerived), v.derived = some d → v.pageCountOf = d.pages ∧ v.maximum = d.smax) ∧
  (∀ (sum : Int) (cap : Nat),
    (sectionScore sum cap : Int) = if sum < 0 then 0 else if (cap : Int) < sum then (cap : Int) else sum) ∧
  (∀ (v : KeySlot) (a : Accumulator) (total perMille : Nat), 0 < v.maximum →
    total = sectionScore a.sums[0] v.header.caps[0] + sectionScore a.sums[1] v.header.caps[1] +
      sectionScore a.sums[2] v.header.caps[2] + sectionScore a.sums[3] v.header.caps[3] →
    perMille = (2000 * total + v.maximum) / (2 * v.maximum) →
    formResult v a = {
      total := total, smax := v.maximum, perMille := perMille, band := bandOf v.header.bounds perMille,
      noMax := false, review := decide (0 < a.reviewCount) }) ∧
  (∀ c : RefCells, c.base = (c.c1 + c.c2 + c.c3 + c.c4) / 4) ∧
  (∀ (base : Nat) (r : RowReading),
    r.adjusted base = #v[r.a - base, r.b - base, r.c - base, r.d - base, r.e - base]) ∧
  (∀ (h : KeyHeader) (d : Nat), h.te < h.tf →
    (classOf h d = .filled ↔ h.tf ≤ d) ∧ (classOf h d = .faint ↔ h.te ≤ d ∧ d < h.tf) ∧
    (classOf h d = .empty ↔ d < h.te)) ∧
  (∀ (h : KeyHeader) (d : Vector Nat 5),
    ((∃ o p : Fin 5, o ≠ p ∧ classOf h d[o] = .filled ∧ classOf h d[p] = .filled) → resolveRow h d = .multiple) ∧
    (∀ o : Fin 5, classOf h d[o] = .filled → (∀ p : Fin 5, p ≠ o → classOf h d[p] = .empty) →
      resolveRow h d = .option o) ∧
    (∀ o f : Fin 5, classOf h d[o] = .filled → (∀ p : Fin 5, p ≠ o → classOf h d[p] ≠ .filled) →
      classOf h d[f] = .faint → (∀ p : Fin 5, classOf h d[p] = .faint → d[p] ≤ d[f]) →
      resolveRow h d = if (h.margin : Int) ≤ (d[o] : Int) - d[f] then .option o else .ambiguous) ∧
    ((∀ p : Fin 5, classOf h d[p] = .empty) → resolveRow h d = .blank) ∧
    ((∀ p : Fin 5, classOf h d[p] ≠ .filled) → (∃ p : Fin 5, classOf h d[p] = .faint) →
      resolveRow h d = .ambiguous)) ∧
  (∀ (t : PageTally) (q : Nat) (acc : OptionSet) (w p : Nat) (k : Fin 4) (r : Response) (score : Int),
    t.score q .void r = t ∧
    (r ≠ .ambiguous →
      score = (match r with
        | .option o => if acc.getLsbD o.val then (w : Int) else -(p : Int)
        | .multiple => -(p : Int)
        | .blank => 0
        | .ambiguous => 0) →
      t.score q (.answer acc w p k) r = { t with sums := t.sums.set k (t.sums[k] + score) }) ∧
    t.score q (.answer acc w p k) .ambiguous = { t with
      ambiguous := t.ambiguous + 1,
      review := if t.review.length < 8 then t.review ++ [q] else t.review,
      overflow := t.overflow || decide (8 ≤ t.review.length) }) ∧
  (∀ total smax : Nat, 0 < smax → perMilleOf total smax = (2000 * total + smax) / (2 * smax) ∧
    (total ≤ smax → perMilleOf total smax ≤ 1000)) ∧
  (∀ (bounds : Vector Nat 7) (p : Nat), bandOf bounds p = (bounds.toList.filter (fun g => decide (g ≤ p))).length ∧
    bandOf bounds p ≤ 7 ∧
    ((∀ i j : Fin 7, i ≤ j → bounds[i] ≤ bounds[j]) → ∀ j : Fin 7, j.val < bandOf bounds p ↔ bounds[j] ≤ p)) ∧
  (∀ (v : KeySlot) (a : Accumulator), v.maximum = 0 → formResult v a = {
    total := 0, smax := 0, perMille := 0, band := bandOf v.header.bounds 0, noMax := true,
    review := decide (0 < a.reviewCount) })

/-- The completion of a sheet: its script is MARKED with page and sheet result, its candidate's accumulator takes the
page, the result is formed where the pages are whole, with one MARKING cause, its buffer is DECIDED, with one MARKING
cause for an ACCEPT_REVIEW, and the intake looks at the next sheet, which alone can make another script MARKING (R143,
R154, R155); without a sheet in hand nothing happens (log entry 11). A REMARK takes a candidate's marks back (R160). -/
def Obligations.MarkingsCompleteAndAreTakenBack : Prop :=
  (∀ (s : State) (h : SheetInHand) (y : Script) (c : Candidate) (v : SheetBuffer) (tally : PageTally) (acc : Accumulator)
        (formed : Bool) (z : State),
      s.resetHold = .running → s.hand = some h → s.script h.serial = some y → s.cand h.slot = some c →
      v = s.intake.buffers[h.buffer] → tally = tallyPage s.keys[h.sitting] v h.page →
      acc = c.acc.takePage h.page tally → formed = decide (acc.pages = allPages s.keys[h.sitting].pageCountOf) →
      z = (if formed then s.raise .marking else s) →
      exec .markingComplete s = .next (intakeChanged { s with
        hand := none,
        scripts := tableInsert s.scripts h.serial { y with
          state := .marked, page := some h.page,
          result := some { sums := tally.sums, review := tally.review, overflow := tally.overflow } },
        roll := tableInsert s.roll h.slot { c with
          acc := acc, result := if formed then some (formResult s.keys[h.sitting] acc) else c.result },
        intake := { s.intake with buffers := s.intake.buffers.set h.buffer { v with
          state := .decided, verdict := some (if tally.review = [] then .accept else .acceptReview) } },
        attention := if tally.review = [] then z.attention else (z.raise .marking).attention })) ∧
  (∀ (s : State) (h : SheetInHand) (y : Script) (c : Candidate) (tally : PageTally) (acc : Accumulator),
    s.resetHold = .running → s.storeLaw = true → s.intakeLaw = true → s.hand = some h →
    s.script h.serial = some y → s.cand h.slot = some c →
    tally = tallyPage s.keys[h.sitting] s.intake.buffers[h.buffer] h.page →
    acc = { pages := c.acc.pages ||| BitVec.ofNat 5 (2 ^ h.page),
            sums := #v[c.acc.sums[0] + tally.sums[0], c.acc.sums[1] + tally.sums[1], c.acc.sums[2] + tally.sums[2],
              c.acc.sums[3] + tally.sums[3]],
            reviewCount := c.acc.reviewCount + tally.ambiguous } →
    ∃ t, exec .markingComplete s = .next t ∧
      t = { s with
        roll := tableInsert s.roll h.slot { c with
          acc := acc,
          result := if acc.pages = allPages s.keys[h.sitting].pageCountOf then
            some (formResult s.keys[h.sitting] acc) else c.result },
        scripts := t.scripts, intake := t.intake, hand := t.hand, attention := t.attention } ∧
      t.script h.serial = some { y with
        state := .marked, page := some h.page,
        result := some { sums := tally.sums, review := tally.review, overflow := tally.overflow } } ∧
      t.intake.buffers[h.buffer] = { s.intake.buffers[h.buffer] with
        state := .decided, verdict := some (if tally.review = [] then .accept else .acceptReview) } ∧
      (∀ d, d ≠ h.serial → t.script d = s.script d ∨
        ∃ z h', s.script d = some z ∧ z.state = .collected ∧ t.script d = some { z with state := .marking } ∧
          t.hand = some h' ∧ h'.serial = d)) ∧
  (∀ s : State, s.resetHold = .running → s.hand = none → exec .markingComplete s = .next s) ∧
  (∀ (s : State) (n k j : Nat) (c : Candidate), s.resetHold = .running → s.resolve n k = .ok (j, c) →
    ((∃ y ∈ s.scripts, y.2.slot = j ∧ y.2.state = .marking) →
      exec (.remark n k) s = answered (.remark n k) .busy [] s s) ∧
    ((∀ y ∈ s.scripts, y.2.slot = j → y.2.state ≠ .marking) →
      exec (.remark n k) s = answered (.remark n k) .ok
        (be1 (s.scripts.filter (fun y => y.2.slot == j && y.2.state == .marked)).length) s
        { s with
          roll := tableInsert s.roll j { c with
            acc := { pages := 0, sums := #v[0, 0, 0, 0], reviewCount := 0 }, result := none },
          scripts := s.scripts.map (fun y => (y.1,
            if y.2.slot = j ∧ y.2.state = .marked then
              { y.2 with state := .collected, page := none, result := none } else y.2)) }))

/-! ### Chapter 10: attention, faults, traffic clear and identification -/

/-- A raised cause sets its group's pending flag and counts to at most 255, enabled or not; ATTN is asserted while a
group is pending and enabled, and the leading group is the one of highest level, the lowest-numbered among equals
(R173, R174). -/
def Obligations.CausesAndTheLeadingGroup : Prop :=
  (∀ (s : State) (g : CauseGroup),
    s.raise g = { s with attention := (s.raise g).attention } ∧
    (s.raise g).attention[g.index] = { s.attention[g.index] with
      pending := true, count := if s.attention[g.index].count < 255 then s.attention[g.index].count + 1
        else s.attention[g.index].count } ∧
    (∀ i : Fin 6, i ≠ g.index → (s.raise g).attention[i] = s.attention[i])) ∧
  (CauseGroup.index .admission = 0 ∧ CauseGroup.index .desk = 1 ∧ CauseGroup.index .time = 2 ∧
    CauseGroup.index .custody = 3 ∧ CauseGroup.index .marking = 4 ∧ CauseGroup.index .fault = 5) ∧
  (∀ s : State, (s.attn = true ↔ ∃ i : Fin 6, s.attention[i].pending = true ∧ s.attention[i].enabled = true) ∧
    (leadingGroup s.attention = none ↔ s.attn = false) ∧
    (∀ i : Fin 6, leadingGroup s.attention = some i ↔
      (s.attention[i].pending = true ∧ s.attention[i].enabled = true ∧
        ∀ j : Fin 6, s.attention[j].pending = true → s.attention[j].enabled = true → j ≠ i →
          s.attention[j].level < s.attention[i].level ∨
            (s.attention[j].level = s.attention[i].level ∧ i < j))))

/-- CLEAR_ATTENTION clears the named groups and answers their counts; SET_ATTENTION writes every enable and level; both
refuse a group above 5 and SET_ATTENTION a level above 7. A fault fills the empty record with one FAULT cause and sets
more in a valid one; CLEAR_FAULT empties the record (R175, R176, R177; layouts: log entry 8). -/
def Obligations.AttentionAndFaultRequests : Prop :=
  (∀ s : State, s.resetHold = .running →
    (∀ set : Byte, 64 ≤ set.toNat →
      exec (.clearAttention set) s = answered (.clearAttention set) .range [] s s) ∧
    (∀ set : Byte, set.toNat < 64 → ∃ t, exec (.clearAttention set) s = answered (.clearAttention set) .ok
        (([0, 1, 2, 3, 4, 5] : List (Fin 6)).flatMap (fun i =>
          if set.getLsbD i.val then [BitVec.ofNat 8 s.attention[i].count] else [])) s t ∧
      t = { s with attention := t.attention } ∧
      ∀ i : Fin 6, t.attention[i] = if set.getLsbD i.val then { s.attention[i] with pending := false, count := 0 }
        else s.attention[i]) ∧
    (∀ (set : Byte) (levels : Vector Nat 6), (64 ≤ set.toNat ∨ ∃ i : Fin 6, 7 < levels[i]) →
      exec (.setAttention set levels) s = answered (.setAttention set levels) .range [] s s) ∧
    (∀ (set : Byte) (levels : Vector Nat 6), set.toNat < 64 → (∀ i : Fin 6, levels[i] ≤ 7) → ∃ t,
      exec (.setAttention set levels) s = answered (.setAttention set levels) .ok [] s t ∧
      t = { s with attention := t.attention } ∧
      ∀ i : Fin 6, t.attention[i] = { s.attention[i] with enabled := set.getLsbD i.val, level := levels[i] }) ∧
    exec .clearFault s = answered .clearFault .ok s.faultRecord.bytes s
      { s with faultRecord := { entry := none, more := false } }) ∧
  (∀ (s : State) (cls : FaultClass) (detail : FaultDetail),
    (s.faultRecord.entry = none → s.reportFault cls detail = { s.raise .fault with
      faultRecord := { entry := some { cls := cls, detail := detail, time := s.hallTime }, more := false } }) ∧
    (s.faultRecord.entry.isSome = true →
      s.reportFault cls detail = { s with faultRecord := { s.faultRecord with more := true } }))

/-- CLEAR_TRAFFIC empties every directed queue with its seats left stale, abandons every window, gives every sheet that
is FILLING, QUEUED or in hand the verdict CLEARED, and returns the script in hand to COLLECTED; it answers how many
sheets and seats (R101, R145, R180; the count of seats: log entry 10, and its two bytes: log entry 8). Every closed
sheet has a form (R134); that of a FILLING sheet closed here is left open (log entry 28). A segment whose window is
abandoned chooses its next exchange, and a free scanner transmitter its next frame (R87, R141). -/
def Obligations.ClearTrafficClearsTheLines : Prop :=
  (∀ (s : State) (m : Fin 4), s.staleCount m = (s.seats.filter (fun y => match y.2.binds with
    | some (room, a) => room == m && s.segments[m].queue.any (fun e => e.address == a)
    | none => false)).length) ∧
  ∀ s : State, s.resetHold = .running → s.storeLaw = true →
    ∃ t, exec .clearTraffic s = answered .clearTraffic .ok
        (be1 (s.intake.buffers.toList.filter (fun b =>
            [BufferState.filling, .queued, .taken].contains b.state)).length ++
          be2 (s.staleCount 0 + s.staleCount 1 + s.staleCount 2 + s.staleCount 3)) s t ∧
      t = { s with
        seats := t.seats, segments := t.segments, scripts := t.scripts, intake := t.intake, hand := none } ∧
      (∀ (m : Fin 4) (g : Segment), g = s.segments[m] →
        t.segments[m] = (kickSegment m (s.setSegment m { g with
          queue := [],
          line := match g.line with | .disabled => .disabled | .master => .master | .awaiting _ => .master,
          pollVoided := match g.sending with | some (.poll _) => true | _ => false })).segments[m]) ∧
      t.intake = Intake.transmit { s.intake with
        buffers := t.intake.buffers, gapTimer := false,
        receive := if s.intake.receive = .filling then .discarding else s.intake.receive } ∧
      (∀ m : Fin 4, t.segments[m].queue = [] ∧
        t.segments[m].line =
          (match s.segments[m].line with | .disabled => LineState.disabled | .master => .master | .awaiting _ => .master) ∧
        t.segments[m].postStatus = s.segments[m].postStatus ∧ t.segments[m].postMiss = s.segments[m].postMiss ∧
        (s.segments[m].sending.isSome = true → t.segments[m].sending = s.segments[m].sending) ∧
        (s.segments[m].line ≠ .disabled → t.segments[m].sending.isSome = true)) ∧
      (∀ x, t.seat x = { s.seat x with
        stale := (s.seat x).stale || (match (s.seat x).binds with
          | some (m, a) => s.segments[m].queue.any (fun e => e.address == a)
          | none => false) }) ∧
      (∀ b : Fin 4,
        (s.intake.buffers[b].state ∈ [BufferState.filling, .queued, .taken] → ∃ form, t.intake.buffers[b] =
          { s.intake.buffers[b] with state := .decided, form := some form, verdict := some .cleared } ∧
          ∀ f, s.intake.buffers[b].form = some f → form = f) ∧
        (s.intake.buffers[b].state ∈ [BufferState.free, .decided] → t.intake.buffers[b] = s.intake.buffers[b])) ∧
      t.intake.nextNumber = s.intake.nextNumber ∧ t.intake.lastReject = s.intake.lastReject ∧
      t.intake.resetOwed = s.intake.resetOwed ∧
      (s.intake.sending.isSome = true →
        t.intake.sending = s.intake.sending ∧ t.intake.beginAnswers = s.intake.beginAnswers) ∧
      t.intake.gapTimer = false ∧ t.intake.order = s.intake.order ∧
      t.intake.receive = (if s.intake.receive = .filling then .discarding else s.intake.receive) ∧
      (s.hand = none → t.scripts = s.scripts) ∧
      (∀ h y, s.hand = some h → s.script h.serial = some y →
        t.scripts = tableInsert s.scripts h.serial { y with state := .collected })
end

