-- ==== Sys2Proof/Laws/State.lean ====
section
/-! SUPPORT. One lemma for each field and each update of the state, true by rfl. -/

namespace Sys2Proof.Machine

variable (s : State)

/-! ### State.setCand -/

@[simp] theorem State.setCand_pending (j : Nat) (c : Candidate) : (s.setCand j c).pending = s.pending := rfl
@[simp] theorem State.setCand_resetHold (j : Nat) (c : Candidate) : (s.setCand j c).resetHold = s.resetHold := rfl
@[simp] theorem State.setCand_resetCause (j : Nat) (c : Candidate) : (s.setCand j c).resetCause = s.resetCause := rfl
@[simp] theorem State.setCand_hallTime (j : Nat) (c : Candidate) : (s.setCand j c).hallTime = s.hallTime := rfl
@[simp] theorem State.setCand_holdFilter (j : Nat) (c : Candidate) : (s.setCand j c).holdFilter = s.holdFilter := rfl
@[simp] theorem State.setCand_sittings (j : Nat) (c : Candidate) : (s.setCand j c).sittings = s.sittings := rfl
@[simp] theorem State.setCand_roll (j : Nat) (c : Candidate) : (s.setCand j c).roll = tableInsert s.roll j c := rfl
@[simp] theorem State.setCand_dirRoot (j : Nat) (c : Candidate) : (s.setCand j c).dirRoot = s.dirRoot := rfl
@[simp] theorem State.setCand_dirPages (j : Nat) (c : Candidate) : (s.setCand j c).dirPages = s.dirPages := rfl
@[simp] theorem State.setCand_seats (j : Nat) (c : Candidate) : (s.setCand j c).seats = s.seats := rfl
@[simp] theorem State.setCand_rooms (j : Nat) (c : Candidate) : (s.setCand j c).rooms = s.rooms := rfl
@[simp] theorem State.setCand_segments (j : Nat) (c : Candidate) : (s.setCand j c).segments = s.segments := rfl
@[simp] theorem State.setCand_scripts (j : Nat) (c : Candidate) : (s.setCand j c).scripts = s.scripts := rfl
@[simp] theorem State.setCand_lastCustodyRefusal (j : Nat) (c : Candidate) : (s.setCand j c).lastCustodyRefusal = s.lastCustodyRefusal := rfl
@[simp] theorem State.setCand_keys (j : Nat) (c : Candidate) : (s.setCand j c).keys = s.keys := rfl
@[simp] theorem State.setCand_intake (j : Nat) (c : Candidate) : (s.setCand j c).intake = s.intake := rfl
@[simp] theorem State.setCand_hand (j : Nat) (c : Candidate) : (s.setCand j c).hand = s.hand := rfl
@[simp] theorem State.setCand_port (j : Nat) (c : Candidate) : (s.setCand j c).port = s.port := rfl
@[simp] theorem State.setCand_attention (j : Nat) (c : Candidate) : (s.setCand j c).attention = s.attention := rfl
@[simp] theorem State.setCand_faultRecord (j : Nat) (c : Candidate) : (s.setCand j c).faultRecord = s.faultRecord := rfl

/-! ### State.eraseCand -/

@[simp] theorem State.eraseCand_pending (j : Nat) : (s.eraseCand j).pending = s.pending := rfl
@[simp] theorem State.eraseCand_resetHold (j : Nat) : (s.eraseCand j).resetHold = s.resetHold := rfl
@[simp] theorem State.eraseCand_resetCause (j : Nat) : (s.eraseCand j).resetCause = s.resetCause := rfl
@[simp] theorem State.eraseCand_hallTime (j : Nat) : (s.eraseCand j).hallTime = s.hallTime := rfl
@[simp] theorem State.eraseCand_holdFilter (j : Nat) : (s.eraseCand j).holdFilter = s.holdFilter := rfl
@[simp] theorem State.eraseCand_sittings (j : Nat) : (s.eraseCand j).sittings = s.sittings := rfl
@[simp] theorem State.eraseCand_roll (j : Nat) : (s.eraseCand j).roll = tableErase s.roll j := rfl
@[simp] theorem State.eraseCand_dirRoot (j : Nat) : (s.eraseCand j).dirRoot = s.dirRoot := rfl
@[simp] theorem State.eraseCand_dirPages (j : Nat) : (s.eraseCand j).dirPages = s.dirPages := rfl
@[simp] theorem State.eraseCand_seats (j : Nat) : (s.eraseCand j).seats = s.seats := rfl
@[simp] theorem State.eraseCand_rooms (j : Nat) : (s.eraseCand j).rooms = s.rooms := rfl
@[simp] theorem State.eraseCand_segments (j : Nat) : (s.eraseCand j).segments = s.segments := rfl
@[simp] theorem State.eraseCand_scripts (j : Nat) : (s.eraseCand j).scripts = s.scripts := rfl
@[simp] theorem State.eraseCand_lastCustodyRefusal (j : Nat) : (s.eraseCand j).lastCustodyRefusal = s.lastCustodyRefusal := rfl
@[simp] theorem State.eraseCand_keys (j : Nat) : (s.eraseCand j).keys = s.keys := rfl
@[simp] theorem State.eraseCand_intake (j : Nat) : (s.eraseCand j).intake = s.intake := rfl
@[simp] theorem State.eraseCand_hand (j : Nat) : (s.eraseCand j).hand = s.hand := rfl
@[simp] theorem State.eraseCand_port (j : Nat) : (s.eraseCand j).port = s.port := rfl
@[simp] theorem State.eraseCand_attention (j : Nat) : (s.eraseCand j).attention = s.attention := rfl
@[simp] theorem State.eraseCand_faultRecord (j : Nat) : (s.eraseCand j).faultRecord = s.faultRecord := rfl

/-! ### State.setSeat -/

@[simp] theorem State.setSeat_pending (i : Nat) (v : Seat) : (s.setSeat i v).pending = s.pending := rfl
@[simp] theorem State.setSeat_resetHold (i : Nat) (v : Seat) : (s.setSeat i v).resetHold = s.resetHold := rfl
@[simp] theorem State.setSeat_resetCause (i : Nat) (v : Seat) : (s.setSeat i v).resetCause = s.resetCause := rfl
@[simp] theorem State.setSeat_hallTime (i : Nat) (v : Seat) : (s.setSeat i v).hallTime = s.hallTime := rfl
@[simp] theorem State.setSeat_holdFilter (i : Nat) (v : Seat) : (s.setSeat i v).holdFilter = s.holdFilter := rfl
@[simp] theorem State.setSeat_sittings (i : Nat) (v : Seat) : (s.setSeat i v).sittings = s.sittings := rfl
@[simp] theorem State.setSeat_roll (i : Nat) (v : Seat) : (s.setSeat i v).roll = s.roll := rfl
@[simp] theorem State.setSeat_dirRoot (i : Nat) (v : Seat) : (s.setSeat i v).dirRoot = s.dirRoot := rfl
@[simp] theorem State.setSeat_dirPages (i : Nat) (v : Seat) : (s.setSeat i v).dirPages = s.dirPages := rfl
@[simp] theorem State.setSeat_seats (i : Nat) (v : Seat) : (s.setSeat i v).seats = if v = Seat.undefinedRecord then tableErase s.seats i else tableInsert s.seats i v := rfl
@[simp] theorem State.setSeat_rooms (i : Nat) (v : Seat) : (s.setSeat i v).rooms = s.rooms := rfl
@[simp] theorem State.setSeat_segments (i : Nat) (v : Seat) : (s.setSeat i v).segments = s.segments := rfl
@[simp] theorem State.setSeat_scripts (i : Nat) (v : Seat) : (s.setSeat i v).scripts = s.scripts := rfl
@[simp] theorem State.setSeat_lastCustodyRefusal (i : Nat) (v : Seat) : (s.setSeat i v).lastCustodyRefusal = s.lastCustodyRefusal := rfl
@[simp] theorem State.setSeat_keys (i : Nat) (v : Seat) : (s.setSeat i v).keys = s.keys := rfl
@[simp] theorem State.setSeat_intake (i : Nat) (v : Seat) : (s.setSeat i v).intake = s.intake := rfl
@[simp] theorem State.setSeat_hand (i : Nat) (v : Seat) : (s.setSeat i v).hand = s.hand := rfl
@[simp] theorem State.setSeat_port (i : Nat) (v : Seat) : (s.setSeat i v).port = s.port := rfl
@[simp] theorem State.setSeat_attention (i : Nat) (v : Seat) : (s.setSeat i v).attention = s.attention := rfl
@[simp] theorem State.setSeat_faultRecord (i : Nat) (v : Seat) : (s.setSeat i v).faultRecord = s.faultRecord := rfl

/-! ### State.setSitting -/

@[simp] theorem State.setSitting_pending (k : Fin 8) (v : Sitting) : (s.setSitting k v).pending = s.pending := rfl
@[simp] theorem State.setSitting_resetHold (k : Fin 8) (v : Sitting) : (s.setSitting k v).resetHold = s.resetHold := rfl
@[simp] theorem State.setSitting_resetCause (k : Fin 8) (v : Sitting) : (s.setSitting k v).resetCause = s.resetCause := rfl
@[simp] theorem State.setSitting_hallTime (k : Fin 8) (v : Sitting) : (s.setSitting k v).hallTime = s.hallTime := rfl
@[simp] theorem State.setSitting_holdFilter (k : Fin 8) (v : Sitting) : (s.setSitting k v).holdFilter = s.holdFilter := rfl
@[simp] theorem State.setSitting_sittings (k : Fin 8) (v : Sitting) : (s.setSitting k v).sittings = s.sittings.set k v := rfl
@[simp] theorem State.setSitting_roll (k : Fin 8) (v : Sitting) : (s.setSitting k v).roll = s.roll := rfl
@[simp] theorem State.setSitting_dirRoot (k : Fin 8) (v : Sitting) : (s.setSitting k v).dirRoot = s.dirRoot := rfl
@[simp] theorem State.setSitting_dirPages (k : Fin 8) (v : Sitting) : (s.setSitting k v).dirPages = s.dirPages := rfl
@[simp] theorem State.setSitting_seats (k : Fin 8) (v : Sitting) : (s.setSitting k v).seats = s.seats := rfl
@[simp] theorem State.setSitting_rooms (k : Fin 8) (v : Sitting) : (s.setSitting k v).rooms = s.rooms := rfl
@[simp] theorem State.setSitting_segments (k : Fin 8) (v : Sitting) : (s.setSitting k v).segments = s.segments := rfl
@[simp] theorem State.setSitting_scripts (k : Fin 8) (v : Sitting) : (s.setSitting k v).scripts = s.scripts := rfl
@[simp] theorem State.setSitting_lastCustodyRefusal (k : Fin 8) (v : Sitting) : (s.setSitting k v).lastCustodyRefusal = s.lastCustodyRefusal := rfl
@[simp] theorem State.setSitting_keys (k : Fin 8) (v : Sitting) : (s.setSitting k v).keys = s.keys := rfl
@[simp] theorem State.setSitting_intake (k : Fin 8) (v : Sitting) : (s.setSitting k v).intake = s.intake := rfl
@[simp] theorem State.setSitting_hand (k : Fin 8) (v : Sitting) : (s.setSitting k v).hand = s.hand := rfl
@[simp] theorem State.setSitting_port (k : Fin 8) (v : Sitting) : (s.setSitting k v).port = s.port := rfl
@[simp] theorem State.setSitting_attention (k : Fin 8) (v : Sitting) : (s.setSitting k v).attention = s.attention := rfl
@[simp] theorem State.setSitting_faultRecord (k : Fin 8) (v : Sitting) : (s.setSitting k v).faultRecord = s.faultRecord := rfl

/-! ### State.setRoom -/

@[simp] theorem State.setRoom_pending (m : Fin 4) (v : RoomRecord) : (s.setRoom m v).pending = s.pending := rfl
@[simp] theorem State.setRoom_resetHold (m : Fin 4) (v : RoomRecord) : (s.setRoom m v).resetHold = s.resetHold := rfl
@[simp] theorem State.setRoom_resetCause (m : Fin 4) (v : RoomRecord) : (s.setRoom m v).resetCause = s.resetCause := rfl
@[simp] theorem State.setRoom_hallTime (m : Fin 4) (v : RoomRecord) : (s.setRoom m v).hallTime = s.hallTime := rfl
@[simp] theorem State.setRoom_holdFilter (m : Fin 4) (v : RoomRecord) : (s.setRoom m v).holdFilter = s.holdFilter := rfl
@[simp] theorem State.setRoom_sittings (m : Fin 4) (v : RoomRecord) : (s.setRoom m v).sittings = s.sittings := rfl
@[simp] theorem State.setRoom_roll (m : Fin 4) (v : RoomRecord) : (s.setRoom m v).roll = s.roll := rfl
@[simp] theorem State.setRoom_dirRoot (m : Fin 4) (v : RoomRecord) : (s.setRoom m v).dirRoot = s.dirRoot := rfl
@[simp] theorem State.setRoom_dirPages (m : Fin 4) (v : RoomRecord) : (s.setRoom m v).dirPages = s.dirPages := rfl
@[simp] theorem State.setRoom_seats (m : Fin 4) (v : RoomRecord) : (s.setRoom m v).seats = s.seats := rfl
@[simp] theorem State.setRoom_rooms (m : Fin 4) (v : RoomRecord) : (s.setRoom m v).rooms = s.rooms.set m v := rfl
@[simp] theorem State.setRoom_segments (m : Fin 4) (v : RoomRecord) : (s.setRoom m v).segments = s.segments := rfl
@[simp] theorem State.setRoom_scripts (m : Fin 4) (v : RoomRecord) : (s.setRoom m v).scripts = s.scripts := rfl
@[simp] theorem State.setRoom_lastCustodyRefusal (m : Fin 4) (v : RoomRecord) : (s.setRoom m v).lastCustodyRefusal = s.lastCustodyRefusal := rfl
@[simp] theorem State.setRoom_keys (m : Fin 4) (v : RoomRecord) : (s.setRoom m v).keys = s.keys := rfl
@[simp] theorem State.setRoom_intake (m : Fin 4) (v : RoomRecord) : (s.setRoom m v).intake = s.intake := rfl
@[simp] theorem State.setRoom_hand (m : Fin 4) (v : RoomRecord) : (s.setRoom m v).hand = s.hand := rfl
@[simp] theorem State.setRoom_port (m : Fin 4) (v : RoomRecord) : (s.setRoom m v).port = s.port := rfl
@[simp] theorem State.setRoom_attention (m : Fin 4) (v : RoomRecord) : (s.setRoom m v).attention = s.attention := rfl
@[simp] theorem State.setRoom_faultRecord (m : Fin 4) (v : RoomRecord) : (s.setRoom m v).faultRecord = s.faultRecord := rfl

/-! ### State.setSegment -/

@[simp] theorem State.setSegment_pending (m : Fin 4) (v : Segment) : (s.setSegment m v).pending = s.pending := rfl
@[simp] theorem State.setSegment_resetHold (m : Fin 4) (v : Segment) : (s.setSegment m v).resetHold = s.resetHold := rfl
@[simp] theorem State.setSegment_resetCause (m : Fin 4) (v : Segment) : (s.setSegment m v).resetCause = s.resetCause := rfl
@[simp] theorem State.setSegment_hallTime (m : Fin 4) (v : Segment) : (s.setSegment m v).hallTime = s.hallTime := rfl
@[simp] theorem State.setSegment_holdFilter (m : Fin 4) (v : Segment) : (s.setSegment m v).holdFilter = s.holdFilter := rfl
@[simp] theorem State.setSegment_sittings (m : Fin 4) (v : Segment) : (s.setSegment m v).sittings = s.sittings := rfl
@[simp] theorem State.setSegment_roll (m : Fin 4) (v : Segment) : (s.setSegment m v).roll = s.roll := rfl
@[simp] theorem State.setSegment_dirRoot (m : Fin 4) (v : Segment) : (s.setSegment m v).dirRoot = s.dirRoot := rfl
@[simp] theorem State.setSegment_dirPages (m : Fin 4) (v : Segment) : (s.setSegment m v).dirPages = s.dirPages := rfl
@[simp] theorem State.setSegment_seats (m : Fin 4) (v : Segment) : (s.setSegment m v).seats = s.seats := rfl
@[simp] theorem State.setSegment_rooms (m : Fin 4) (v : Segment) : (s.setSegment m v).rooms = s.rooms := rfl
@[simp] theorem State.setSegment_segments (m : Fin 4) (v : Segment) : (s.setSegment m v).segments = s.segments.set m v := rfl
@[simp] theorem State.setSegment_scripts (m : Fin 4) (v : Segment) : (s.setSegment m v).scripts = s.scripts := rfl
@[simp] theorem State.setSegment_lastCustodyRefusal (m : Fin 4) (v : Segment) : (s.setSegment m v).lastCustodyRefusal = s.lastCustodyRefusal := rfl
@[simp] theorem State.setSegment_keys (m : Fin 4) (v : Segment) : (s.setSegment m v).keys = s.keys := rfl
@[simp] theorem State.setSegment_intake (m : Fin 4) (v : Segment) : (s.setSegment m v).intake = s.intake := rfl
@[simp] theorem State.setSegment_hand (m : Fin 4) (v : Segment) : (s.setSegment m v).hand = s.hand := rfl
@[simp] theorem State.setSegment_port (m : Fin 4) (v : Segment) : (s.setSegment m v).port = s.port := rfl
@[simp] theorem State.setSegment_attention (m : Fin 4) (v : Segment) : (s.setSegment m v).attention = s.attention := rfl
@[simp] theorem State.setSegment_faultRecord (m : Fin 4) (v : Segment) : (s.setSegment m v).faultRecord = s.faultRecord := rfl

/-! ### State.setScript -/

@[simp] theorem State.setScript_pending (d : Nat) (x : Script) : (s.setScript d x).pending = s.pending := rfl
@[simp] theorem State.setScript_resetHold (d : Nat) (x : Script) : (s.setScript d x).resetHold = s.resetHold := rfl
@[simp] theorem State.setScript_resetCause (d : Nat) (x : Script) : (s.setScript d x).resetCause = s.resetCause := rfl
@[simp] theorem State.setScript_hallTime (d : Nat) (x : Script) : (s.setScript d x).hallTime = s.hallTime := rfl
@[simp] theorem State.setScript_holdFilter (d : Nat) (x : Script) : (s.setScript d x).holdFilter = s.holdFilter := rfl
@[simp] theorem State.setScript_sittings (d : Nat) (x : Script) : (s.setScript d x).sittings = s.sittings := rfl
@[simp] theorem State.setScript_roll (d : Nat) (x : Script) : (s.setScript d x).roll = s.roll := rfl
@[simp] theorem State.setScript_dirRoot (d : Nat) (x : Script) : (s.setScript d x).dirRoot = s.dirRoot := rfl
@[simp] theorem State.setScript_dirPages (d : Nat) (x : Script) : (s.setScript d x).dirPages = s.dirPages := rfl
@[simp] theorem State.setScript_seats (d : Nat) (x : Script) : (s.setScript d x).seats = s.seats := rfl
@[simp] theorem State.setScript_rooms (d : Nat) (x : Script) : (s.setScript d x).rooms = s.rooms := rfl
@[simp] theorem State.setScript_segments (d : Nat) (x : Script) : (s.setScript d x).segments = s.segments := rfl
@[simp] theorem State.setScript_scripts (d : Nat) (x : Script) : (s.setScript d x).scripts = tableInsert s.scripts d x := rfl
@[simp] theorem State.setScript_lastCustodyRefusal (d : Nat) (x : Script) : (s.setScript d x).lastCustodyRefusal = s.lastCustodyRefusal := rfl
@[simp] theorem State.setScript_keys (d : Nat) (x : Script) : (s.setScript d x).keys = s.keys := rfl
@[simp] theorem State.setScript_intake (d : Nat) (x : Script) : (s.setScript d x).intake = s.intake := rfl
@[simp] theorem State.setScript_hand (d : Nat) (x : Script) : (s.setScript d x).hand = s.hand := rfl
@[simp] theorem State.setScript_port (d : Nat) (x : Script) : (s.setScript d x).port = s.port := rfl
@[simp] theorem State.setScript_attention (d : Nat) (x : Script) : (s.setScript d x).attention = s.attention := rfl
@[simp] theorem State.setScript_faultRecord (d : Nat) (x : Script) : (s.setScript d x).faultRecord = s.faultRecord := rfl

/-! ### State.setKey -/

@[simp] theorem State.setKey_pending (k : Fin 8) (v : KeySlot) : (s.setKey k v).pending = s.pending := rfl
@[simp] theorem State.setKey_resetHold (k : Fin 8) (v : KeySlot) : (s.setKey k v).resetHold = s.resetHold := rfl
@[simp] theorem State.setKey_resetCause (k : Fin 8) (v : KeySlot) : (s.setKey k v).resetCause = s.resetCause := rfl
@[simp] theorem State.setKey_hallTime (k : Fin 8) (v : KeySlot) : (s.setKey k v).hallTime = s.hallTime := rfl
@[simp] theorem State.setKey_holdFilter (k : Fin 8) (v : KeySlot) : (s.setKey k v).holdFilter = s.holdFilter := rfl
@[simp] theorem State.setKey_sittings (k : Fin 8) (v : KeySlot) : (s.setKey k v).sittings = s.sittings := rfl
@[simp] theorem State.setKey_roll (k : Fin 8) (v : KeySlot) : (s.setKey k v).roll = s.roll := rfl
@[simp] theorem State.setKey_dirRoot (k : Fin 8) (v : KeySlot) : (s.setKey k v).dirRoot = s.dirRoot := rfl
@[simp] theorem State.setKey_dirPages (k : Fin 8) (v : KeySlot) : (s.setKey k v).dirPages = s.dirPages := rfl
@[simp] theorem State.setKey_seats (k : Fin 8) (v : KeySlot) : (s.setKey k v).seats = s.seats := rfl
@[simp] theorem State.setKey_rooms (k : Fin 8) (v : KeySlot) : (s.setKey k v).rooms = s.rooms := rfl
@[simp] theorem State.setKey_segments (k : Fin 8) (v : KeySlot) : (s.setKey k v).segments = s.segments := rfl
@[simp] theorem State.setKey_scripts (k : Fin 8) (v : KeySlot) : (s.setKey k v).scripts = s.scripts := rfl
@[simp] theorem State.setKey_lastCustodyRefusal (k : Fin 8) (v : KeySlot) : (s.setKey k v).lastCustodyRefusal = s.lastCustodyRefusal := rfl
@[simp] theorem State.setKey_keys (k : Fin 8) (v : KeySlot) : (s.setKey k v).keys = s.keys.set k v := rfl
@[simp] theorem State.setKey_intake (k : Fin 8) (v : KeySlot) : (s.setKey k v).intake = s.intake := rfl
@[simp] theorem State.setKey_hand (k : Fin 8) (v : KeySlot) : (s.setKey k v).hand = s.hand := rfl
@[simp] theorem State.setKey_port (k : Fin 8) (v : KeySlot) : (s.setKey k v).port = s.port := rfl
@[simp] theorem State.setKey_attention (k : Fin 8) (v : KeySlot) : (s.setKey k v).attention = s.attention := rfl
@[simp] theorem State.setKey_faultRecord (k : Fin 8) (v : KeySlot) : (s.setKey k v).faultRecord = s.faultRecord := rfl

/-! ### State.setIntake -/

@[simp] theorem State.setIntake_pending (v : Intake) : (s.setIntake v).pending = s.pending := rfl
@[simp] theorem State.setIntake_resetHold (v : Intake) : (s.setIntake v).resetHold = s.resetHold := rfl
@[simp] theorem State.setIntake_resetCause (v : Intake) : (s.setIntake v).resetCause = s.resetCause := rfl
@[simp] theorem State.setIntake_hallTime (v : Intake) : (s.setIntake v).hallTime = s.hallTime := rfl
@[simp] theorem State.setIntake_holdFilter (v : Intake) : (s.setIntake v).holdFilter = s.holdFilter := rfl
@[simp] theorem State.setIntake_sittings (v : Intake) : (s.setIntake v).sittings = s.sittings := rfl
@[simp] theorem State.setIntake_roll (v : Intake) : (s.setIntake v).roll = s.roll := rfl
@[simp] theorem State.setIntake_dirRoot (v : Intake) : (s.setIntake v).dirRoot = s.dirRoot := rfl
@[simp] theorem State.setIntake_dirPages (v : Intake) : (s.setIntake v).dirPages = s.dirPages := rfl
@[simp] theorem State.setIntake_seats (v : Intake) : (s.setIntake v).seats = s.seats := rfl
@[simp] theorem State.setIntake_rooms (v : Intake) : (s.setIntake v).rooms = s.rooms := rfl
@[simp] theorem State.setIntake_segments (v : Intake) : (s.setIntake v).segments = s.segments := rfl
@[simp] theorem State.setIntake_scripts (v : Intake) : (s.setIntake v).scripts = s.scripts := rfl
@[simp] theorem State.setIntake_lastCustodyRefusal (v : Intake) : (s.setIntake v).lastCustodyRefusal = s.lastCustodyRefusal := rfl
@[simp] theorem State.setIntake_keys (v : Intake) : (s.setIntake v).keys = s.keys := rfl
@[simp] theorem State.setIntake_intake (v : Intake) : (s.setIntake v).intake = v := rfl
@[simp] theorem State.setIntake_hand (v : Intake) : (s.setIntake v).hand = s.hand := rfl
@[simp] theorem State.setIntake_port (v : Intake) : (s.setIntake v).port = s.port := rfl
@[simp] theorem State.setIntake_attention (v : Intake) : (s.setIntake v).attention = s.attention := rfl
@[simp] theorem State.setIntake_faultRecord (v : Intake) : (s.setIntake v).faultRecord = s.faultRecord := rfl

/-! ### State.setBuffer -/

@[simp] theorem State.setBuffer_pending (b : Fin 4) (v : SheetBuffer) : (s.setBuffer b v).pending = s.pending := rfl
@[simp] theorem State.setBuffer_resetHold (b : Fin 4) (v : SheetBuffer) : (s.setBuffer b v).resetHold = s.resetHold := rfl
@[simp] theorem State.setBuffer_resetCause (b : Fin 4) (v : SheetBuffer) : (s.setBuffer b v).resetCause = s.resetCause := rfl
@[simp] theorem State.setBuffer_hallTime (b : Fin 4) (v : SheetBuffer) : (s.setBuffer b v).hallTime = s.hallTime := rfl
@[simp] theorem State.setBuffer_holdFilter (b : Fin 4) (v : SheetBuffer) : (s.setBuffer b v).holdFilter = s.holdFilter := rfl
@[simp] theorem State.setBuffer_sittings (b : Fin 4) (v : SheetBuffer) : (s.setBuffer b v).sittings = s.sittings := rfl
@[simp] theorem State.setBuffer_roll (b : Fin 4) (v : SheetBuffer) : (s.setBuffer b v).roll = s.roll := rfl
@[simp] theorem State.setBuffer_dirRoot (b : Fin 4) (v : SheetBuffer) : (s.setBuffer b v).dirRoot = s.dirRoot := rfl
@[simp] theorem State.setBuffer_dirPages (b : Fin 4) (v : SheetBuffer) : (s.setBuffer b v).dirPages = s.dirPages := rfl
@[simp] theorem State.setBuffer_seats (b : Fin 4) (v : SheetBuffer) : (s.setBuffer b v).seats = s.seats := rfl
@[simp] theorem State.setBuffer_rooms (b : Fin 4) (v : SheetBuffer) : (s.setBuffer b v).rooms = s.rooms := rfl
@[simp] theorem State.setBuffer_segments (b : Fin 4) (v : SheetBuffer) : (s.setBuffer b v).segments = s.segments := rfl
@[simp] theorem State.setBuffer_scripts (b : Fin 4) (v : SheetBuffer) : (s.setBuffer b v).scripts = s.scripts := rfl
@[simp] theorem State.setBuffer_lastCustodyRefusal (b : Fin 4) (v : SheetBuffer) : (s.setBuffer b v).lastCustodyRefusal = s.lastCustodyRefusal := rfl
@[simp] theorem State.setBuffer_keys (b : Fin 4) (v : SheetBuffer) : (s.setBuffer b v).keys = s.keys := rfl
@[simp] theorem State.setBuffer_intake (b : Fin 4) (v : SheetBuffer) : (s.setBuffer b v).intake = { s.intake with buffers := s.intake.buffers.set b v } := rfl
@[simp] theorem State.setBuffer_hand (b : Fin 4) (v : SheetBuffer) : (s.setBuffer b v).hand = s.hand := rfl
@[simp] theorem State.setBuffer_port (b : Fin 4) (v : SheetBuffer) : (s.setBuffer b v).port = s.port := rfl
@[simp] theorem State.setBuffer_attention (b : Fin 4) (v : SheetBuffer) : (s.setBuffer b v).attention = s.attention := rfl
@[simp] theorem State.setBuffer_faultRecord (b : Fin 4) (v : SheetBuffer) : (s.setBuffer b v).faultRecord = s.faultRecord := rfl

/-! ### State.setPort -/

@[simp] theorem State.setPort_pending (v : Port) : (s.setPort v).pending = s.pending := rfl
@[simp] theorem State.setPort_resetHold (v : Port) : (s.setPort v).resetHold = s.resetHold := rfl
@[simp] theorem State.setPort_resetCause (v : Port) : (s.setPort v).resetCause = s.resetCause := rfl
@[simp] theorem State.setPort_hallTime (v : Port) : (s.setPort v).hallTime = s.hallTime := rfl
@[simp] theorem State.setPort_holdFilter (v : Port) : (s.setPort v).holdFilter = s.holdFilter := rfl
@[simp] theorem State.setPort_sittings (v : Port) : (s.setPort v).sittings = s.sittings := rfl
@[simp] theorem State.setPort_roll (v : Port) : (s.setPort v).roll = s.roll := rfl
@[simp] theorem State.setPort_dirRoot (v : Port) : (s.setPort v).dirRoot = s.dirRoot := rfl
@[simp] theorem State.setPort_dirPages (v : Port) : (s.setPort v).dirPages = s.dirPages := rfl
@[simp] theorem State.setPort_seats (v : Port) : (s.setPort v).seats = s.seats := rfl
@[simp] theorem State.setPort_rooms (v : Port) : (s.setPort v).rooms = s.rooms := rfl
@[simp] theorem State.setPort_segments (v : Port) : (s.setPort v).segments = s.segments := rfl
@[simp] theorem State.setPort_scripts (v : Port) : (s.setPort v).scripts = s.scripts := rfl
@[simp] theorem State.setPort_lastCustodyRefusal (v : Port) : (s.setPort v).lastCustodyRefusal = s.lastCustodyRefusal := rfl
@[simp] theorem State.setPort_keys (v : Port) : (s.setPort v).keys = s.keys := rfl
@[simp] theorem State.setPort_intake (v : Port) : (s.setPort v).intake = s.intake := rfl
@[simp] theorem State.setPort_hand (v : Port) : (s.setPort v).hand = s.hand := rfl
@[simp] theorem State.setPort_port (v : Port) : (s.setPort v).port = v := rfl
@[simp] theorem State.setPort_attention (v : Port) : (s.setPort v).attention = s.attention := rfl
@[simp] theorem State.setPort_faultRecord (v : Port) : (s.setPort v).faultRecord = s.faultRecord := rfl

/-! ### State.mapScripts -/

@[simp] theorem State.mapScripts_pending (f : Script → Script) : (s.mapScripts f).pending = s.pending := rfl
@[simp] theorem State.mapScripts_resetHold (f : Script → Script) : (s.mapScripts f).resetHold = s.resetHold := rfl
@[simp] theorem State.mapScripts_resetCause (f : Script → Script) : (s.mapScripts f).resetCause = s.resetCause := rfl
@[simp] theorem State.mapScripts_hallTime (f : Script → Script) : (s.mapScripts f).hallTime = s.hallTime := rfl
@[simp] theorem State.mapScripts_holdFilter (f : Script → Script) : (s.mapScripts f).holdFilter = s.holdFilter := rfl
@[simp] theorem State.mapScripts_sittings (f : Script → Script) : (s.mapScripts f).sittings = s.sittings := rfl
@[simp] theorem State.mapScripts_roll (f : Script → Script) : (s.mapScripts f).roll = s.roll := rfl
@[simp] theorem State.mapScripts_dirRoot (f : Script → Script) : (s.mapScripts f).dirRoot = s.dirRoot := rfl
@[simp] theorem State.mapScripts_dirPages (f : Script → Script) : (s.mapScripts f).dirPages = s.dirPages := rfl
@[simp] theorem State.mapScripts_seats (f : Script → Script) : (s.mapScripts f).seats = s.seats := rfl
@[simp] theorem State.mapScripts_rooms (f : Script → Script) : (s.mapScripts f).rooms = s.rooms := rfl
@[simp] theorem State.mapScripts_segments (f : Script → Script) : (s.mapScripts f).segments = s.segments := rfl
@[simp] theorem State.mapScripts_scripts (f : Script → Script) : (s.mapScripts f).scripts = s.scripts.map (fun x => (x.1, f x.2)) := rfl
@[simp] theorem State.mapScripts_lastCustodyRefusal (f : Script → Script) : (s.mapScripts f).lastCustodyRefusal = s.lastCustodyRefusal := rfl
@[simp] theorem State.mapScripts_keys (f : Script → Script) : (s.mapScripts f).keys = s.keys := rfl
@[simp] theorem State.mapScripts_intake (f : Script → Script) : (s.mapScripts f).intake = s.intake := rfl
@[simp] theorem State.mapScripts_hand (f : Script → Script) : (s.mapScripts f).hand = s.hand := rfl
@[simp] theorem State.mapScripts_port (f : Script → Script) : (s.mapScripts f).port = s.port := rfl
@[simp] theorem State.mapScripts_attention (f : Script → Script) : (s.mapScripts f).attention = s.attention := rfl
@[simp] theorem State.mapScripts_faultRecord (f : Script → Script) : (s.mapScripts f).faultRecord = s.faultRecord := rfl

/-! ### State.raise -/

@[simp] theorem State.raise_pending (g : CauseGroup) : (s.raise g).pending = s.pending := rfl
@[simp] theorem State.raise_resetHold (g : CauseGroup) : (s.raise g).resetHold = s.resetHold := rfl
@[simp] theorem State.raise_resetCause (g : CauseGroup) : (s.raise g).resetCause = s.resetCause := rfl
@[simp] theorem State.raise_hallTime (g : CauseGroup) : (s.raise g).hallTime = s.hallTime := rfl
@[simp] theorem State.raise_holdFilter (g : CauseGroup) : (s.raise g).holdFilter = s.holdFilter := rfl
@[simp] theorem State.raise_sittings (g : CauseGroup) : (s.raise g).sittings = s.sittings := rfl
@[simp] theorem State.raise_roll (g : CauseGroup) : (s.raise g).roll = s.roll := rfl
@[simp] theorem State.raise_dirRoot (g : CauseGroup) : (s.raise g).dirRoot = s.dirRoot := rfl
@[simp] theorem State.raise_dirPages (g : CauseGroup) : (s.raise g).dirPages = s.dirPages := rfl
@[simp] theorem State.raise_seats (g : CauseGroup) : (s.raise g).seats = s.seats := rfl
@[simp] theorem State.raise_rooms (g : CauseGroup) : (s.raise g).rooms = s.rooms := rfl
@[simp] theorem State.raise_segments (g : CauseGroup) : (s.raise g).segments = s.segments := rfl
@[simp] theorem State.raise_scripts (g : CauseGroup) : (s.raise g).scripts = s.scripts := rfl
@[simp] theorem State.raise_lastCustodyRefusal (g : CauseGroup) : (s.raise g).lastCustodyRefusal = s.lastCustodyRefusal := rfl
@[simp] theorem State.raise_keys (g : CauseGroup) : (s.raise g).keys = s.keys := rfl
@[simp] theorem State.raise_intake (g : CauseGroup) : (s.raise g).intake = s.intake := rfl
@[simp] theorem State.raise_hand (g : CauseGroup) : (s.raise g).hand = s.hand := rfl
@[simp] theorem State.raise_port (g : CauseGroup) : (s.raise g).port = s.port := rfl
@[simp] theorem State.raise_attention (g : CauseGroup) : (s.raise g).attention = s.attention.set g.index s.attention[g.index].withCause := rfl
@[simp] theorem State.raise_faultRecord (g : CauseGroup) : (s.raise g).faultRecord = s.faultRecord := rfl

end Sys2Proof.Machine
end

