-- ==== Sys2Proof/Laws/Tables.lean ====
section
/-! SUPPORT. What the operations on record stores do: reading back what was written, leaving the rest, and keeping
the canonical form. -/

namespace Sys2Proof.Machine

variable {α : Type}

/-- A record written at a number is read back there. -/
@[simp] theorem tableFind_insert_self (t : Table α) (i : Nat) (v : α) : tableFind (tableInsert t i v) i = some v := by
  induction t with
  | nil => simp [tableInsert, tableFind]
  | cons x t ih =>
    obtain ⟨k, w⟩ := x
    unfold tableInsert
    by_cases h1 : i < k
    · simp [h1, tableFind]
    · by_cases h2 : i = k
      · simp [h2, tableFind]
      · have : k ≠ i := fun h => h2 h.symm
        simp [h1, h2, tableFind, this, ih]

/-- A record written at a number leaves the records of the other numbers. -/
theorem tableFind_insert_ne (t : Table α) {i j : Nat} (v : α) (h : j ≠ i) :
    tableFind (tableInsert t i v) j = tableFind t j := by
  induction t with
  | nil => simp [tableInsert, tableFind, Ne.symm h]
  | cons x t ih =>
    obtain ⟨k, w⟩ := x
    unfold tableInsert
    by_cases h1 : i < k
    · simp [h1, tableFind, Ne.symm h]
    · by_cases h2 : i = k
      · subst h2; simp [tableFind, Ne.symm h]
      · simp only [h1, h2, if_false, tableFind, ih]

/-- A record erased leaves the records of the other numbers. -/
theorem tableFind_erase_ne (t : Table α) {i j : Nat} (h : j ≠ i) : tableFind (tableErase t i) j = tableFind t j := by
  induction t with
  | nil => rfl
  | cons x t ih =>
    obtain ⟨k, w⟩ := x
    by_cases h1 : k = i
    · subst h1; simp [tableErase, tableFind, Ne.symm h]
    · simp only [tableErase, h1, if_false, tableFind, ih]

/-- The numbers of a store after a write are those before it and the one written. -/
theorem mem_keys_insert (t : Table α) (i : Nat) (v : α) (k : Nat) :
    k ∈ (tableInsert t i v).map Prod.fst ↔ k = i ∨ k ∈ t.map Prod.fst := by
  induction t with
  | nil => simp [tableInsert]
  | cons x t ih =>
    obtain ⟨m, w⟩ := x
    unfold tableInsert
    by_cases h1 : i < m
    · simp [h1]
    · by_cases h2 : i = m
      · simp [h2]
      · simp only [h1, h2, if_false, List.map_cons, List.mem_cons, ih]
        tauto

/-- The numbers of a store after an erasure are among those before it. -/
theorem mem_keys_erase (t : Table α) (i k : Nat) (h : k ∈ (tableErase t i).map Prod.fst) : k ∈ t.map Prod.fst := by
  induction t with
  | nil => simp [tableErase] at h
  | cons x t ih =>
    obtain ⟨m, w⟩ := x
    by_cases h1 : m = i
    · simp only [tableErase, h1, if_true] at h; exact List.mem_cons_of_mem _ h
    · simp only [tableErase, h1, if_false, List.map_cons, List.mem_cons] at h
      rcases h with h | h
      · simp [h]
      · exact List.mem_cons_of_mem _ (ih h)

/-- A write keeps the canonical form of a store. -/
theorem tableSorted_insert (t : Table α) (i : Nat) (v : α) (h : tableSorted t = true) :
    tableSorted (tableInsert t i v) = true := by
  simp only [tableSorted, decide_eq_true_eq] at *
  induction t with
  | nil => simp [tableInsert]
  | cons x t ih =>
    obtain ⟨m, w⟩ := x
    simp only [List.map_cons, List.pairwise_cons] at h
    unfold tableInsert
    by_cases h1 : i < m
    · simp only [h1, if_true, List.map_cons, List.pairwise_cons, List.mem_cons]
      refine ⟨?_, h.1, h.2⟩
      rintro a (rfl | ha)
      · exact h1
      · exact lt_trans h1 (h.1 a ha)
    · by_cases h2 : i = m
      · subst h2; simpa [List.pairwise_cons] using h
      · simp only [h1, h2, if_false, List.map_cons, List.pairwise_cons]
        refine ⟨?_, ih h.2⟩
        intro a ha
        rcases (mem_keys_insert t i v a).1 ha with rfl | ha
        · omega
        · exact h.1 a ha

/-- An erasure keeps the canonical form of a store. -/
theorem tableSorted_erase (t : Table α) (i : Nat) (h : tableSorted t = true) : tableSorted (tableErase t i) = true := by
  simp only [tableSorted, decide_eq_true_eq] at *
  induction t with
  | nil => simp [tableErase]
  | cons x t ih =>
    obtain ⟨m, w⟩ := x
    simp only [List.map_cons, List.pairwise_cons] at h
    by_cases h1 : m = i
    · simpa [tableErase, h1] using h.2
    · simp only [tableErase, h1, if_false, List.map_cons, List.pairwise_cons]
      exact ⟨fun a ha => h.1 a (mem_keys_erase t i a ha), ih h.2⟩

/-- A change of the records in place keeps the canonical form of a store. -/
theorem tableSorted_map {β : Type} (t : Table α) (f : α → β) :
    tableSorted (t.map (fun x => (x.1, f x.2))) = tableSorted t := by
  simp [tableSorted, List.map_map, Function.comp_def]

/-- A selection of the records keeps the canonical form of a store. -/
theorem tableSorted_filter (t : Table α) (p : Nat × α → Bool) (h : tableSorted t = true) :
    tableSorted (t.filter p) = true := by
  simp only [tableSorted, decide_eq_true_eq] at *
  exact h.sublist (List.filter_sublist.map _)

/-- A record changed in place is read back changed. -/
theorem tableFind_map {β : Type} (t : Table α) (f : α → β) (i : Nat) :
    tableFind (t.map (fun x => (x.1, f x.2))) i = (tableFind t i).map f := by
  induction t with
  | nil => rfl
  | cons x t ih =>
    obtain ⟨m, w⟩ := x
    by_cases h : m = i <;> simp [tableFind, h, ih]

/-- A record read in a store is one of its records. -/
theorem mem_of_tableFind (t : Table α) (i : Nat) (v : α) (h : tableFind t i = some v) : (i, v) ∈ t := by
  induction t with
  | nil => simp [tableFind] at h
  | cons x t ih =>
    obtain ⟨m, w⟩ := x
    by_cases h1 : m = i
    · simp only [tableFind, h1, if_true, Option.some.injEq] at h; simp [h1, h]
    · simp only [tableFind, h1, if_false] at h; exact List.mem_cons_of_mem _ (ih h)

/-- A candidate record written is read back, and the others are unchanged. -/
theorem State.cand_setCand (s : State) (i j : Nat) (c : Candidate) :
    (s.setCand i c).cand j = if j = i then some c else s.cand j := by
  by_cases h : j = i
  · subst h; simp [State.cand]
  · simp [State.cand, h, tableFind_insert_ne _ _ h]

/-- A script record written is read back, and the others are unchanged. -/
theorem State.script_setScript (s : State) (d e : Nat) (x : Script) :
    (s.setScript d x).script e = if e = d then some x else s.script e := by
  by_cases h : e = d
  · subst h; simp [State.script]
  · simp [State.script, h, tableFind_insert_ne _ _ h]

end Sys2Proof.Machine
end

