-- ==== Sys2Proof/Laws/Frames.lean ====
section
/-! SUPPORT. What the shared operations leave unchanged. A footprint is a relation between the state before and the
state after; it says at once everything that the operation can change. -/

namespace Sys2Proof.Machine

/-! ### Footprints -/

/-- Only the seat records and the segments differ: what a display message can change. -/
def State.OnlyDesks (s t : State) : Prop := t = { s with seats := t.seats, segments := t.segments }

/-- Only the records of the hall differ: what an owner's rule can change. The queue of commands, the reset state, the
hall clock, the hold filter, the link port and the sheet intake with the mark engine are as before. -/
def State.OnlyRecords (s t : State) : Prop :=
  t = { s with
    roll := t.roll, dirRoot := t.dirRoot, dirPages := t.dirPages, seats := t.seats, segments := t.segments,
    rooms := t.rooms, sittings := t.sittings, scripts := t.scripts, keys := t.keys, attention := t.attention,
    lastCustodyRefusal := t.lastCustodyRefusal, faultRecord := t.faultRecord }

theorem State.OnlyDesks.refl (s : State) : s.OnlyDesks s := rfl

theorem State.OnlyRecords.refl (s : State) : s.OnlyRecords s := rfl

theorem State.OnlyDesks.trans {s t u : State} (h : s.OnlyDesks t) (g : t.OnlyDesks u) : s.OnlyDesks u := by
  unfold State.OnlyDesks at *
  rw [h] at g
  exact g

theorem State.OnlyRecords.trans {s t u : State} (h : s.OnlyRecords t) (g : t.OnlyRecords u) : s.OnlyRecords u := by
  unfold State.OnlyRecords at *
  rw [h] at g
  exact g

/-- A display message changes records of the hall only. -/
theorem State.OnlyDesks.records {s t : State} (h : s.OnlyDesks t) : s.OnlyRecords t := by
  unfold State.OnlyDesks at h
  unfold State.OnlyRecords
  rw [h]

theorem State.OnlyRecords.port {s t : State} (h : s.OnlyRecords t) : t.port = s.port := by rw [h]
theorem State.OnlyRecords.hallTime {s t : State} (h : s.OnlyRecords t) : t.hallTime = s.hallTime := by rw [h]
theorem State.OnlyRecords.intake {s t : State} (h : s.OnlyRecords t) : t.intake = s.intake := by rw [h]
theorem State.OnlyRecords.hand {s t : State} (h : s.OnlyRecords t) : t.hand = s.hand := by rw [h]
theorem State.OnlyRecords.pending {s t : State} (h : s.OnlyRecords t) : t.pending = s.pending := by rw [h]
theorem State.OnlyRecords.holdFilter {s t : State} (h : s.OnlyRecords t) : t.holdFilter = s.holdFilter := by rw [h]
theorem State.OnlyRecords.resetHold {s t : State} (h : s.OnlyRecords t) : t.resetHold = s.resetHold := by rw [h]

/-- Taking the numbers of a list in turn keeps a footprint that every one of them keeps. -/
theorem takeInTurn_records {ι : Type} (is : List ι) (f : ι → State → State)
    (h : ∀ (i : ι) (s : State), s.OnlyRecords (f i s)) (s : State) : s.OnlyRecords (takeInTurn is f s) := by
  unfold takeInTurn
  induction is generalizing s with
  | nil => exact .refl s
  | cons i is ih => exact (h i s).trans (ih (f i s))

/-- Taking the numbers of a list in turn keeps whatever every one of them keeps. -/
theorem takeInTurn_invariant {ι : Type} (P : State → Prop) (is : List ι) (f : ι → State → State)
    (h : ∀ i s, P s → P (f i s)) (s : State) (hs : P s) : P (takeInTurn is f s) := by
  unfold takeInTurn
  induction is generalizing s with
  | nil => exact hs
  | cons i is ih => exact ih (f i s) (h i s hs)

/-! ### Display -/

theorem markStale_desks (i : Nat) (s : State) : s.OnlyDesks (s.markStale i) := rfl

theorem setQueue_desks (m : Fin 4) (q : List ShowEntry) (s : State) : s.OnlyDesks (s.setQueue m q) := rfl

theorem offerDesk_desks (i : Nat) (c : ShowContent) (s : State) : s.OnlyDesks (offerDesk i c s) := by
  unfold offerDesk
  repeat' split
  all_goals rfl

theorem offerPost_desks (m : Fin 4) (c : ShowContent) (s : State) : s.OnlyDesks (offerPost m c s) := by
  unfold offerPost
  repeat' split
  all_goals rfl

theorem showSeat_desks (i : Nat) (c : Candidate) (s : State) : s.OnlyDesks (showSeat i c s) := by
  unfold showSeat
  split
  · exact offerDesk_desks ..
  · rfl

theorem postSeat_desks (m : Fin 4) (i : Nat) (c : Candidate) (s : State) : s.OnlyDesks (postSeat m i c s) := by
  unfold postSeat
  split
  · exact offerPost_desks ..
  · rfl

theorem endAt_desks (i : Nat) (c : Candidate) (s : State) : s.OnlyDesks (endAt i c s) := by
  unfold endAt
  split
  · exact offerDesk_desks ..
  · rfl

theorem showEnd_desks (c : Candidate) (s : State) : s.OnlyDesks (showEnd c s) := by
  unfold showEnd
  split
  · exact endAt_desks ..
  · rfl

theorem showNotice_desks (c : Candidate) (n : Notice) (s : State) : s.OnlyDesks (showNotice c n s) := by
  unfold showNotice
  split
  · exact offerDesk_desks ..
  · rfl

theorem resyncDesk_desks (i : Nat) (s : State) : s.OnlyDesks (resyncDesk i s) := by
  unfold resyncDesk
  repeat' split
  all_goals first
    | rfl
    | exact offerDesk_desks ..
    | exact showSeat_desks ..
    | exact (showSeat_desks ..).trans (endAt_desks ..)
    | exact (showSeat_desks ..).trans (offerDesk_desks ..)

theorem kickSegment_desks (m : Fin 4) (s : State) : s.OnlyDesks (kickSegment m s) := by
  unfold kickSegment
  split <;> rfl

/-! ### Causes and faults -/

theorem raise_records (g : CauseGroup) (s : State) : s.OnlyRecords (s.raise g) := rfl

theorem reportFault_records (cls : FaultClass) (d : FaultDetail) (s : State) :
    s.OnlyRecords (s.reportFault cls d) := by
  unfold State.reportFault
  split <;> rfl

/-! ### Clearance, closing and finishing -/

theorem clearRecord_records (j : Nat) (c : Candidate) (b : Bool) (s : State) :
    s.OnlyRecords (clearRecord j c b s) := by
  unfold clearRecord
  split
  · rfl
  · exact State.OnlyRecords.trans (t := freeSeat _ (s.setCand j _)) rfl (offerDesk_desks ..).records

theorem clearanceTest_records (j : Nat) (s : State) : s.OnlyRecords (clearanceTest j s) := by
  unfold clearanceTest
  repeat' split
  all_goals first
    | rfl
    | exact clearRecord_records ..

theorem submitOnFinish_records (j : Nat) (s : State) : s.OnlyRecords (submitOnFinish j s) := by
  unfold submitOnFinish
  split
  · rfl
  · split
    · exact (clearRecord_records ..).trans (raise_records ..)
    · split
      · exact State.OnlyRecords.trans (t := s.mapScripts _) rfl (clearanceTest_records ..)
      · exact State.OnlyRecords.trans (t := takeSeat _ .vacated j (s.mapScripts _)) rfl (clearanceTest_records ..)

theorem releaseKey_records (k : Fin 8) (s : State) : s.OnlyRecords (releaseKey k s) := by
  unfold releaseKey
  split <;> rfl

theorem closeSitting_records (k : Fin 8) (s : State) : s.OnlyRecords (closeSitting k s) := by
  unfold closeSitting
  exact (State.OnlyRecords.trans (t := s.setSitting k _) rfl (releaseKey_records ..)).trans (raise_records ..)

theorem closingTest_records (k : Fin 8) (s : State) : s.OnlyRecords (closingTest k s) := by
  unfold closingTest
  split
  · exact closeSitting_records ..
  · rfl

theorem endExpected_records (st : CandState) (j : Nat) (s : State) : s.OnlyRecords (endExpected st j s) := by
  unfold endExpected
  repeat' split
  all_goals first
    | rfl
    | exact State.OnlyRecords.trans (t := freeSeat _ (s.setCand j _)) rfl (offerDesk_desks ..).records

theorem closeAdmission_records (k : Fin 8) (s : State) : s.OnlyRecords (closeAdmission k s) := by
  unfold closeAdmission
  split
  · rfl
  · exact ((takeInTurn_records _ _ (endExpected_records _) _).trans (closingTest_records ..)).trans (raise_records ..)

theorem finish_records (why : FinishCause) (j : Nat) (s : State) : s.OnlyRecords (finish why j s) := by
  unfold finish
  split
  · rfl
  · exact ((State.OnlyRecords.trans (t := s.setCand j _) rfl (showNotice_desks ..).records).trans
      (submitOnFinish_records ..)).trans (closingTest_records ..)

/-! ### Personal time and holds -/

theorem warningTest_records (j : Nat) (s : State) : s.OnlyRecords (warningTest j s) := by
  unfold warningTest
  repeat' split
  all_goals first
    | rfl
    | exact (State.OnlyRecords.trans (t := s.setCand j _) rfl (showNotice_desks ..).records).trans (raise_records ..)

theorem activate_records (j : Nat) (s : State) : s.OnlyRecords (activate j s) := by
  unfold activate
  split
  · rfl
  · exact (State.OnlyRecords.trans (t := s.setCand j _) rfl (showEnd_desks ..).records).trans (warningTest_records ..)

theorem showEndOf_desks (j : Nat) (s : State) : s.OnlyDesks (showEndOf j s) := by
  unfold showEndOf
  split
  · rfl
  · exact showEnd_desks ..

theorem changeHold_records (k : Fin 8) (h : HoldSources) (s : State) : s.OnlyRecords (changeHold k h s) := by
  unfold changeHold
  split
  · exact State.OnlyRecords.trans (t := s.setSitting k _) rfl
      (takeInTurn_records _ _ (fun j s => (showEndOf_desks j s).records) _)
  · rfl

/-! ### The carrying out of a request -/

/-- A request that an owner carries out while the part runs, said once: the owner's records, and its answer placed by
a port that has taken the request. -/
theorem requestRow_running (i : Instr) (op : Owner) (s : State) (h : s.resetHold = .running) :
    requestRow i op s = .next (handToOwner op (s.setPort (s.port.withRequest (requestBytes i)))) := by
  simp [requestRow, whileRunning, h]

/-- An event while the part runs. -/
theorem whileRunning_running (f : State → State) (s : State) (h : s.resetHold = .running) :
    whileRunning f s = .next (f s) := by
  simp [whileRunning, h]

/-- A part held in a reset takes no command of those that wait for it to run. -/
theorem whileRunning_held (f : State → State) (s : State) (h : s.resetHold ≠ .running) :
    whileRunning f s = .next s := by
  unfold whileRunning
  split
  · contradiction
  all_goals rfl

/-- Every command completes. -/
theorem whileRunning_next (f : State → State) (s : State) : ∃ t, whileRunning f s = .next t := by
  unfold whileRunning
  split <;> exact ⟨_, rfl⟩

/-- A port that has taken a request is EXECUTING it, whatever it was doing. -/
theorem Port.withRequest_state (p : Port) (b : List Byte) : (p.withRequest b).state = .executing := rfl

/-! ### The sheet intake -/

/-- A buffer rejected changes the intake and the attention unit alone. -/
theorem rejectSheet_eq (b : Fin 4) (why : RejectReason) (s : State) :
    rejectSheet b why s =
      { s with intake := (rejectSheet b why s).intake, attention := (rejectSheet b why s).attention } := rfl

/-- The look at the next sheet changes the intake, the scripts, the sheet in hand and the attention unit alone. -/
theorem settleFrom_eq (order : List (Fin 4)) (s : State) :
    settleFrom order s =
      { s with intake := (settleFrom order s).intake, scripts := (settleFrom order s).scripts,
               hand := (settleFrom order s).hand, attention := (settleFrom order s).attention } := by
  induction order generalizing s with
  | nil => rfl
  | cons b rest ih =>
    simp only [settleFrom]
    split
    · exact ih s
    · rw [ih]; rfl
    · split
      · rfl
      · split
        · rw [ih]; rfl
        · rfl
    all_goals rfl

/-- A transmitter that is busy goes on with its frame. -/
theorem Intake.transmit_busy (k : Intake) (f : ScanFrame) (h : k.sending = some f) : k.transmit = k := by
  simp [Intake.transmit, h]

/-- The transmitter's choice changes what is going out and the begin answers alone. -/
theorem Intake.transmit_eq (k : Intake) :
    k.transmit = { k with sending := k.transmit.sending, beginAnswers := k.transmit.beginAnswers } := by
  unfold Intake.transmit
  repeat' split
  all_goals rfl

/-! ### The answers of the link, and a sheet that a traffic clear closes -/

@[simp] theorem Port.withFrames_sending (p : Port) (fs : List AnswerFrame) : (p.withFrames fs).sending = fs.head? := rfl
@[simp] theorem Port.withFrames_queue (p : Port) (fs : List AnswerFrame) : (p.withFrames fs).queue = fs.tail := rfl
@[simp] theorem Port.withFrames_state (p : Port) (fs : List AnswerFrame) : (p.withFrames fs).state = p.state := rfl
@[simp] theorem Port.withFrames_stage (p : Port) (fs : List AnswerFrame) : (p.withFrames fs).stage = p.stage := rfl

/-- The return to IDLE changes the state and the stage alone. -/
theorem Port.returned_eq (p : Port) :
    p.returned = { p with
      state := if p.state = .executing then .idle else p.state,
      stage := if p.state = .executing then [] else p.stage } := by
  rcases p with ⟨st, _⟩
  cases st <;> rfl

/-- What ANSWER_SENT does to the port: nothing, or the frame that is going out ends and the next one begins, the port
returning to IDLE where that frame was a request's own answer. -/
theorem Port.answerSent_cases (p : Port) :
    (p.sending = none ∧ p.answerSent = p) ∨
    (∃ f, p.sending = some f ∧ f.link = true ∧ p.answerSent = p.withFrames p.queue) ∨
    (∃ f, p.sending = some f ∧ f.link = false ∧ p.answerSent = (p.withFrames p.queue).returned) := by
  unfold Port.answerSent
  cases h : p.sending with
  | none => exact .inl ⟨rfl, rfl⟩
  | some f => cases hl : f.link <;> simp [hl]

/-- A traffic clear leaves a settled buffer alone, and decides any other with a form, keeping the one it has. -/
theorem SheetBuffer.afterClear_cases (hallTime : Nat) (b : SheetBuffer) :
    (b.unsettled = false ∧ b.afterClear hallTime = b) ∨
    (b.unsettled = true ∧ ∃ form, (∀ f, b.form = some f → form = f) ∧
      b.afterClear hallTime = { b with state := .decided, form := some form, verdict := some .cleared }) := by
  unfold SheetBuffer.afterClear
  cases h : b.unsettled with
  | false => exact .inl ⟨rfl, by simp⟩
  | true => exact .inr ⟨rfl, b.form.getD (b.clearedForm hallTime), by intro f hf; simp [hf], by
      simp [SheetBuffer.closed, SheetBuffer.withVerdict]⟩

end Sys2Proof.Machine
end

