-- ==== Sys2Proof/Laws/PerInstr.lean ====
section
/-! SUPPORT. The family Requests: one lemma for each command. A command that the station sends as a request has
bytes that begin with a code of Section 10.8 and fit the request stage; an event has none. -/

namespace Sys2Proof.Laws

/-- The bytes of a well-formed command: none for an event; for a request a code of 1..54 and arguments, at most 240
bytes in all (Section 10.8, R164, R172). -/
def Requests.Statement (i : Instr) : Prop :=
  i.wellFormed = true →
    requestBytes i = [] ∨
      (requestBytes i).length ≤ 240 ∧ ∃ c args, requestBytes i = c :: args ∧ 1 ≤ c.toNat ∧ c.toNat ≤ 54

/-- The law of a request from its bytes. -/
theorem request_law (i : Instr) (c : Byte) (args : List Byte) (hl : (c :: args).length ≤ 240) (h1 : 1 ≤ c.toNat)
    (h2 : c.toNat ≤ 54) (h : requestBytes i = c :: args) : Requests.Statement i := by
  intro _
  exact .inr ⟨by rw [h]; exact hl, c, args, h, h1, h2⟩

/-- The question entries of KEY_ENTRIES take four bytes each. -/
theorem entries_length (es : List KeyEntryArg) : (es.flatMap KeyEntryArg.bytes).length = 4 * es.length := by
  induction es with
  | nil => rfl
  | cons e es ih => simp [KeyEntryArg.bytes, be1] at ih ⊢; omega

/-- A desk address argument takes one byte. -/
theorem deskByte_length (d : Option Nat) : (deskByte d).length = 1 := by cases d <;> rfl

/-- A vector of numbers of one byte. -/
theorem flatMap_be1_length {n : Nat} (v : Vector Nat n) : (v.toList.flatMap be1).length = n := by
  have : ∀ l : List Nat, (l.flatMap be1).length = l.length := by
    intro l; induction l with
    | nil => rfl
    | cons a l ih => simp [be1] at ih ⊢
  rw [this]; simp

/-- A vector of numbers of two bytes. -/
theorem flatMap_be2_length {n : Nat} (v : Vector Nat n) : (v.toList.flatMap be2).length = 2 * n := by
  have : ∀ l : List Nat, (l.flatMap be2).length = 2 * l.length := by
    intro l; induction l with
    | nil => rfl
    | cons a l ih => simp [be2] at ih ⊢; omega
  rw [this]; simp

theorem Requests.enrol (number sitting allowance rate : Nat) (features : Byte) : Requests.Statement (.enrol number sitting allowance rate features) :=
  request_law _ _ _ (Nat.le_of_ble_eq_true rfl) (Nat.le_of_ble_eq_true rfl) (Nat.le_of_ble_eq_true rfl) rfl

theorem Requests.amend (number sitting allowance rate : Nat) (features : Byte) : Requests.Statement (.amend number sitting allowance rate features) :=
  request_law _ _ _ (Nat.le_of_ble_eq_true rfl) (Nat.le_of_ble_eq_true rfl) (Nat.le_of_ble_eq_true rfl) rfl

theorem Requests.withdraw (number sitting : Nat) : Requests.Statement (.withdraw number sitting) :=
  request_law _ _ _ (Nat.le_of_ble_eq_true rfl) (Nat.le_of_ble_eq_true rfl) (Nat.le_of_ble_eq_true rfl) rfl

theorem Requests.retire (number sitting : Nat) : Requests.Statement (.retire number sitting) :=
  request_law _ _ _ (Nat.le_of_ble_eq_true rfl) (Nat.le_of_ble_eq_true rfl) (Nat.le_of_ble_eq_true rfl) rfl

theorem Requests.readCandidate (number sitting : Nat) : Requests.Statement (.readCandidate number sitting) :=
  request_law _ _ _ (Nat.le_of_ble_eq_true rfl) (Nat.le_of_ble_eq_true rfl) (Nat.le_of_ble_eq_true rfl) rfl

theorem Requests.readSlot (slot : Nat) : Requests.Statement (.readSlot slot) :=
  request_law _ _ _ (Nat.le_of_ble_eq_true rfl) (Nat.le_of_ble_eq_true rfl) (Nat.le_of_ble_eq_true rfl) rfl

theorem Requests.readChain (number : Nat) : Requests.Statement (.readChain number) :=
  request_law _ _ _ (Nat.le_of_ble_eq_true rfl) (Nat.le_of_ble_eq_true rfl) (Nat.le_of_ble_eq_true rfl) rfl

theorem Requests.readRoll : Requests.Statement (.readRoll) :=
  request_law _ _ _ (Nat.le_of_ble_eq_true rfl) (Nat.le_of_ble_eq_true rfl) (Nat.le_of_ble_eq_true rfl) rfl

theorem Requests.setClock (time : Nat) : Requests.Statement (.setClock time) :=
  request_law _ _ _ (Nat.le_of_ble_eq_true rfl) (Nat.le_of_ble_eq_true rfl) (Nat.le_of_ble_eq_true rfl) rfl

theorem Requests.readClock : Requests.Statement (.readClock) :=
  request_law _ _ _ (Nat.le_of_ble_eq_true rfl) (Nat.le_of_ble_eq_true rfl) (Nat.le_of_ble_eq_true rfl) rfl

theorem Requests.schedule (sitting : Nat) (timetable : TimetableArg) (rooms : RoomListArg) : Requests.Statement (.schedule sitting timetable rooms) :=
  request_law _ _ _ (Nat.le_of_ble_eq_true rfl) (Nat.le_of_ble_eq_true rfl) (Nat.le_of_ble_eq_true rfl) rfl

theorem Requests.retireSitting (sitting : Nat) : Requests.Statement (.retireSitting sitting) :=
  request_law _ _ _ (Nat.le_of_ble_eq_true rfl) (Nat.le_of_ble_eq_true rfl) (Nat.le_of_ble_eq_true rfl) rfl

theorem Requests.hold (sitting : Nat) : Requests.Statement (.hold sitting) :=
  request_law _ _ _ (Nat.le_of_ble_eq_true rfl) (Nat.le_of_ble_eq_true rfl) (Nat.le_of_ble_eq_true rfl) rfl

theorem Requests.resume (sitting : Nat) : Requests.Statement (.resume sitting) :=
  request_law _ _ _ (Nat.le_of_ble_eq_true rfl) (Nat.le_of_ble_eq_true rfl) (Nat.le_of_ble_eq_true rfl) rfl

theorem Requests.extend (sitting delta : Nat) : Requests.Statement (.extend sitting delta) :=
  request_law _ _ _ (Nat.le_of_ble_eq_true rfl) (Nat.le_of_ble_eq_true rfl) (Nat.le_of_ble_eq_true rfl) rfl

theorem Requests.readSitting (sitting : Nat) : Requests.Statement (.readSitting sitting) :=
  request_law _ _ _ (Nat.le_of_ble_eq_true rfl) (Nat.le_of_ble_eq_true rfl) (Nat.le_of_ble_eq_true rfl) rfl

theorem Requests.defineSeat (seat room row column : Nat) (desk : Option Nat) (features : Byte) : Requests.Statement (.defineSeat seat room row column desk features) := by
  intro _
  refine .inr ⟨?_, _, _, rfl, by decide, by decide⟩
  simp [requestBytes, be1, be2, deskByte_length]

theorem Requests.seatState (seat state : Nat) : Requests.Statement (.seatState seat state) :=
  request_law _ _ _ (Nat.le_of_ble_eq_true rfl) (Nat.le_of_ble_eq_true rfl) (Nat.le_of_ble_eq_true rfl) rfl

theorem Requests.setRoom (room : Nat) (enabled : Bool) (separation fill : Nat) : Requests.Statement (.setRoom room enabled separation fill) :=
  request_law _ _ _ (Nat.le_of_ble_eq_true rfl) (Nat.le_of_ble_eq_true rfl) (Nat.le_of_ble_eq_true rfl) rfl

theorem Requests.admitFor (number sitting : Nat) : Requests.Statement (.admitFor number sitting) :=
  request_law _ _ _ (Nat.le_of_ble_eq_true rfl) (Nat.le_of_ble_eq_true rfl) (Nat.le_of_ble_eq_true rfl) rfl

theorem Requests.place (number sitting seat : Nat) : Requests.Statement (.place number sitting seat) :=
  request_law _ _ _ (Nat.le_of_ble_eq_true rfl) (Nat.le_of_ble_eq_true rfl) (Nat.le_of_ble_eq_true rfl) rfl

theorem Requests.unplace (number sitting : Nat) : Requests.Statement (.unplace number sitting) :=
  request_law _ _ _ (Nat.le_of_ble_eq_true rfl) (Nat.le_of_ble_eq_true rfl) (Nat.le_of_ble_eq_true rfl) rfl

theorem Requests.move (number sitting seat : Nat) : Requests.Statement (.move number sitting seat) :=
  request_law _ _ _ (Nat.le_of_ble_eq_true rfl) (Nat.le_of_ble_eq_true rfl) (Nat.le_of_ble_eq_true rfl) rfl

theorem Requests.readSeat (seat : Nat) : Requests.Statement (.readSeat seat) :=
  request_law _ _ _ (Nat.le_of_ble_eq_true rfl) (Nat.le_of_ble_eq_true rfl) (Nat.le_of_ble_eq_true rfl) rfl

theorem Requests.readRoom (room : Nat) : Requests.Statement (.readRoom room) :=
  request_law _ _ _ (Nat.le_of_ble_eq_true rfl) (Nat.le_of_ble_eq_true rfl) (Nat.le_of_ble_eq_true rfl) rfl

theorem Requests.restFor (number sitting : Nat) (begin_ : Bool) : Requests.Statement (.restFor number sitting begin_) :=
  request_law _ _ _ (Nat.le_of_ble_eq_true rfl) (Nat.le_of_ble_eq_true rfl) (Nat.le_of_ble_eq_true rfl) rfl

theorem Requests.submitFor (number sitting : Nat) : Requests.Statement (.submitFor number sitting) :=
  request_law _ _ _ (Nat.le_of_ble_eq_true rfl) (Nat.le_of_ble_eq_true rfl) (Nat.le_of_ble_eq_true rfl) rfl

theorem Requests.ackHand (seat : Nat) : Requests.Statement (.ackHand seat) :=
  request_law _ _ _ (Nat.le_of_ble_eq_true rfl) (Nat.le_of_ble_eq_true rfl) (Nat.le_of_ble_eq_true rfl) rfl

theorem Requests.resetRoom (room : Nat) : Requests.Statement (.resetRoom room) :=
  request_law _ _ _ (Nat.le_of_ble_eq_true rfl) (Nat.le_of_ble_eq_true rfl) (Nat.le_of_ble_eq_true rfl) rfl

theorem Requests.readSegment (room : Nat) : Requests.Statement (.readSegment room) :=
  request_law _ _ _ (Nat.le_of_ble_eq_true rfl) (Nat.le_of_ble_eq_true rfl) (Nat.le_of_ble_eq_true rfl) rfl

theorem Requests.issue (number sitting serial : Nat) : Requests.Statement (.issue number sitting serial) :=
  request_law _ _ _ (Nat.le_of_ble_eq_true rfl) (Nat.le_of_ble_eq_true rfl) (Nat.le_of_ble_eq_true rfl) rfl

theorem Requests.void (serial : Nat) : Requests.Statement (.void serial) :=
  request_law _ _ _ (Nat.le_of_ble_eq_true rfl) (Nat.le_of_ble_eq_true rfl) (Nat.le_of_ble_eq_true rfl) rfl

theorem Requests.handOver (serial : Nat) : Requests.Statement (.handOver serial) :=
  request_law _ _ _ (Nat.le_of_ble_eq_true rfl) (Nat.le_of_ble_eq_true rfl) (Nat.le_of_ble_eq_true rfl) rfl

theorem Requests.handOverSitting (sitting : Nat) : Requests.Statement (.handOverSitting sitting) :=
  request_law _ _ _ (Nat.le_of_ble_eq_true rfl) (Nat.le_of_ble_eq_true rfl) (Nat.le_of_ble_eq_true rfl) rfl

theorem Requests.readScript (serial : Nat) : Requests.Statement (.readScript serial) :=
  request_law _ _ _ (Nat.le_of_ble_eq_true rfl) (Nat.le_of_ble_eq_true rfl) (Nat.le_of_ble_eq_true rfl) rfl

theorem Requests.readScriptAt (position : Nat) : Requests.Statement (.readScriptAt position) :=
  request_law _ _ _ (Nat.le_of_ble_eq_true rfl) (Nat.le_of_ble_eq_true rfl) (Nat.le_of_ble_eq_true rfl) rfl

theorem Requests.scriptsOf (number sitting : Nat) : Requests.Statement (.scriptsOf number sitting) :=
  request_law _ _ _ (Nat.le_of_ble_eq_true rfl) (Nat.le_of_ble_eq_true rfl) (Nat.le_of_ble_eq_true rfl) rfl

theorem Requests.readCustody : Requests.Statement (.readCustody) :=
  request_law _ _ _ (Nat.le_of_ble_eq_true rfl) (Nat.le_of_ble_eq_true rfl) (Nat.le_of_ble_eq_true rfl) rfl

theorem Requests.keyOpen (sitting : Nat) (header : KeyHeader) : Requests.Statement (.keyOpen sitting header) := by
  intro _
  refine .inr ⟨?_, _, _, rfl, by decide, by decide⟩
  simp [requestBytes, KeyHeader.bytes, be1, flatMap_be2_length, -List.length_flatMap]

theorem Requests.keyEntries (sitting first : Nat) (entries : List KeyEntryArg) : Requests.Statement (.keyEntries sitting first entries) := by
  intro h
  simp only [Instr.wellFormed, Bool.and_eq_true, decide_eq_true_eq] at h
  refine .inr ⟨?_, _, _, rfl, by decide, by decide⟩
  have := entries_length entries
  simp only [requestBytes, be1, List.length_cons, List.length_append, List.length_nil, this]
  omega

theorem Requests.keySeal (sitting : Nat) : Requests.Statement (.keySeal sitting) :=
  request_law _ _ _ (Nat.le_of_ble_eq_true rfl) (Nat.le_of_ble_eq_true rfl) (Nat.le_of_ble_eq_true rfl) rfl

theorem Requests.keyDiscard (sitting : Nat) : Requests.Statement (.keyDiscard sitting) :=
  request_law _ _ _ (Nat.le_of_ble_eq_true rfl) (Nat.le_of_ble_eq_true rfl) (Nat.le_of_ble_eq_true rfl) rfl

theorem Requests.readKey (sitting : Nat) : Requests.Statement (.readKey sitting) :=
  request_law _ _ _ (Nat.le_of_ble_eq_true rfl) (Nat.le_of_ble_eq_true rfl) (Nat.le_of_ble_eq_true rfl) rfl

theorem Requests.readKeyEntries (sitting first count : Nat) : Requests.Statement (.readKeyEntries sitting first count) :=
  request_law _ _ _ (Nat.le_of_ble_eq_true rfl) (Nat.le_of_ble_eq_true rfl) (Nat.le_of_ble_eq_true rfl) rfl

theorem Requests.readIntake : Requests.Statement (.readIntake) :=
  request_law _ _ _ (Nat.le_of_ble_eq_true rfl) (Nat.le_of_ble_eq_true rfl) (Nat.le_of_ble_eq_true rfl) rfl

theorem Requests.remark (number sitting : Nat) : Requests.Statement (.remark number sitting) :=
  request_law _ _ _ (Nat.le_of_ble_eq_true rfl) (Nat.le_of_ble_eq_true rfl) (Nat.le_of_ble_eq_true rfl) rfl

theorem Requests.readResult (number sitting : Nat) : Requests.Statement (.readResult number sitting) :=
  request_law _ _ _ (Nat.le_of_ble_eq_true rfl) (Nat.le_of_ble_eq_true rfl) (Nat.le_of_ble_eq_true rfl) rfl

theorem Requests.readAttention : Requests.Statement (.readAttention) :=
  request_law _ _ _ (Nat.le_of_ble_eq_true rfl) (Nat.le_of_ble_eq_true rfl) (Nat.le_of_ble_eq_true rfl) rfl

theorem Requests.clearAttention (groups : Byte) : Requests.Statement (.clearAttention groups) :=
  request_law _ _ _ (Nat.le_of_ble_eq_true rfl) (Nat.le_of_ble_eq_true rfl) (Nat.le_of_ble_eq_true rfl) rfl

theorem Requests.setAttention (enabled : Byte) (levels : Vector Nat 6) : Requests.Statement (.setAttention enabled levels) := by
  intro _
  refine .inr ⟨?_, _, _, rfl, by decide, by decide⟩
  simp [requestBytes, flatMap_be1_length, -List.length_flatMap]

theorem Requests.readFault : Requests.Statement (.readFault) :=
  request_law _ _ _ (Nat.le_of_ble_eq_true rfl) (Nat.le_of_ble_eq_true rfl) (Nat.le_of_ble_eq_true rfl) rfl

theorem Requests.clearFault : Requests.Statement (.clearFault) :=
  request_law _ _ _ (Nat.le_of_ble_eq_true rfl) (Nat.le_of_ble_eq_true rfl) (Nat.le_of_ble_eq_true rfl) rfl

theorem Requests.clearTraffic : Requests.Statement (.clearTraffic) :=
  request_law _ _ _ (Nat.le_of_ble_eq_true rfl) (Nat.le_of_ble_eq_true rfl) (Nat.le_of_ble_eq_true rfl) rfl

theorem Requests.identify : Requests.Statement (.identify) :=
  request_law _ _ _ (Nat.le_of_ble_eq_true rfl) (Nat.le_of_ble_eq_true rfl) (Nat.le_of_ble_eq_true rfl) rfl

theorem Requests.hallSecond : Requests.Statement (.hallSecond) := fun _ => .inl rfl

theorem Requests.hallHoldEdge (high : Bool) : Requests.Statement (.hallHoldEdge high) := fun _ => .inl rfl

theorem Requests.holdFilterChange : Requests.Statement (.holdFilterChange) := fun _ => .inl rfl

theorem Requests.powerUp : Requests.Statement (.powerUp) := fun _ => .inl rfl

theorem Requests.powerUpEnd (holdPol : Bool) : Requests.Statement (.powerUpEnd holdPol) := fun _ => .inl rfl

theorem Requests.hallReset : Requests.Statement (.hallReset) := fun _ => .inl rfl

theorem Requests.hallResetEnd (holdPol : Bool) : Requests.Statement (.hallResetEnd holdPol) := fun _ => .inl rfl

theorem Requests.timeSent (room : Fin 4) (door : Bool) : Requests.Statement (.timeSent room door) := fun _ => .inl rfl

theorem Requests.pollSent (room : Fin 4) (door : Bool) : Requests.Statement (.pollSent room door) := fun _ => .inl rfl

theorem Requests.showSent (room : Fin 4) (door : Bool) : Requests.Statement (.showSent room door) := fun _ => .inl rfl

theorem Requests.deskAnswer (room : Fin 4) (door : Bool) (frame : List Byte) : Requests.Statement (.deskAnswer room door frame) := fun _ => .inl rfl

theorem Requests.answerWindowTimeout (room : Fin 4) (door : Bool) : Requests.Statement (.answerWindowTimeout room door) := fun _ => .inl rfl

theorem Requests.sheetBegin (serial page c1 c2 c3 c4 : Nat) : Requests.Statement (.sheetBegin serial page c1 c2 c3 c4) := fun _ => .inl rfl

theorem Requests.row (number a b c d e : Nat) : Requests.Statement (.row number a b c d e) := fun _ => .inl rfl

theorem Requests.sheetEnd (count : Nat) : Requests.Statement (.sheetEnd count) := fun _ => .inl rfl

theorem Requests.scannerBadFrame : Requests.Statement (.scannerBadFrame) := fun _ => .inl rfl

theorem Requests.sheetGapTimeout : Requests.Statement (.sheetGapTimeout) := fun _ => .inl rfl

theorem Requests.beginAnswerSent : Requests.Statement (.beginAnswerSent) := fun _ => .inl rfl

theorem Requests.verdictSent : Requests.Statement (.verdictSent) := fun _ => .inl rfl

theorem Requests.portResetSent : Requests.Statement (.portResetSent) := fun _ => .inl rfl

theorem Requests.markingComplete : Requests.Statement (.markingComplete) := fun _ => .inl rfl

theorem Requests.stationFrame (bytes : List Byte) : Requests.Statement (.stationFrame bytes) := fun _ => .inl rfl

theorem Requests.checkFail : Requests.Statement (.checkFail) := fun _ => .inl rfl

theorem Requests.frameSilence : Requests.Statement (.frameSilence) := fun _ => .inl rfl

theorem Requests.huntingQuiet : Requests.Statement (.huntingQuiet) := fun _ => .inl rfl

theorem Requests.lineBreak : Requests.Statement (.lineBreak) := fun _ => .inl rfl

theorem Requests.assemblyTimeout : Requests.Statement (.assemblyTimeout) := fun _ => .inl rfl

theorem Requests.answerSent : Requests.Statement (.answerSent) := fun _ => .inl rfl

end Sys2Proof.Laws
end

