-- ==== Sys2Proof/Laws/Port.lean ====
section
/-! SUPPORT. The owners' rules do not look at the station link port: each has the same effect and the same answer
whatever the port holds. So a request row is said in one line (`exec_request`): the owner's records, and its answer
placed by a port that has taken the request. -/

namespace Sys2Proof.Machine

/-- An operation that neither reads nor writes the station link port. -/
def PortFree (f : State → State) : Prop := ∀ s p, f (s.setPort p) = (f s).setPort p

/-- An owner's rule that neither reads nor writes the station link port. -/
def Owner.PortFree (op : Owner) : Prop := ∀ s p, op (s.setPort p) = ((op s).1.setPort p, (op s).2)

/-! ### What is read through the port's changes -/

variable (s : State) (p : Port)

@[simp] theorem setPort_seat (i : Nat) : (s.setPort p).seat i = s.seat i := rfl
@[simp] theorem setPort_cand (j : Nat) : (s.setPort p).cand j = s.cand j := rfl
@[simp] theorem setPort_script (d : Nat) : (s.setPort p).script d = s.script d := rfl
@[simp] theorem setPort_resolve (n k : Nat) : (s.setPort p).resolve n k = s.resolve n k := rfl
@[simp] theorem setPort_lookup (n : Nat) : (s.setPort p).lookup n = s.lookup n := rfl
@[simp] theorem setPort_dirPlace (n : Nat) : (s.setPort p).dirPlace n = s.dirPlace n := rfl
@[simp] theorem setPort_chain (n : Nat) : (s.setPort p).chain n = s.chain n := rfl
@[simp] theorem setPort_bucketPages (b : Nat) : (s.setPort p).bucketPages b = s.bucketPages b := rfl
@[simp] theorem setPort_boundScripts (j : Nat) : (s.setPort p).boundScripts j = s.boundScripts j := rfl
@[simp] theorem setPort_slotsWhere (f : Candidate → Bool) : (s.setPort p).slotsWhere f = s.slotsWhere f := rfl
@[simp] theorem setPort_namedScript (d : Nat) : (s.setPort p).namedScript d = s.namedScript d := rfl

/-! ### Combining -/

theorem PortFree.comp {f g : State → State} (hf : PortFree f) (hg : PortFree g) : PortFree (fun s => f (g s)) := by
  intro s p
  show f (g (s.setPort p)) = (f (g s)).setPort p
  rw [hg, hf]

/-- A choice whose two outcomes do not look at the port does not. -/
theorem ite_portFree {c : Prop} [i : Decidable c] [j : Decidable c] {a b t u : State} {p : Port}
    (h : a = t.setPort p) (g : b = u.setPort p) : @ite _ c i a b = (@ite _ c j t u).setPort p := by
  by_cases hc : c <;> simp only [hc, if_true, if_false, h, g]

/-- A choice between two answers that do not look at the port does not. -/
theorem ite_ownerFree {c : Prop} [i : Decidable c] [j : Decidable c] {a b t u : State × Answer} {p : Port}
    (h : a = (t.1.setPort p, t.2)) (g : b = (u.1.setPort p, u.2)) :
    @ite _ c i a b = ((@ite _ c j t u).1.setPort p, (@ite _ c j t u).2) := by
  by_cases hc : c <;> simp only [hc, if_true, if_false, h, g]

theorem takeInTurn_portFree {ι : Type} (is : List ι) (f : ι → State → State) (h : ∀ i, PortFree (f i)) :
    PortFree (takeInTurn is f) := by
  intro s p
  unfold takeInTurn
  induction is generalizing s with
  | nil => rfl
  | cons i is ih => simp only [List.foldl_cons, h i s p, ih]

/-! ### Display, seats and causes -/

theorem raise_portFree (g : CauseGroup) : PortFree (State.raise · g) := fun _ _ => rfl

theorem reportFault_portFree (cls : FaultClass) (d : FaultDetail) : PortFree (State.reportFault · cls d) := by
  intro s p
  cases h : s.faultRecord.entry <;> simp only [State.reportFault, State.setPort_faultRecord, h] <;> rfl

theorem offerDesk_portFree (i : Nat) (c : ShowContent) : PortFree (offerDesk i c) := by
  intro s p
  unfold offerDesk
  rw [setPort_seat]
  simp only [State.setPort_segments]
  (repeat' split) <;> first | rfl | (simp_all; rfl) | simp_all

theorem offerPost_portFree (m : Fin 4) (c : ShowContent) : PortFree (offerPost m c) := by
  intro s p
  unfold offerPost
  simp only [State.setPort_segments]
  (repeat' split) <;> first | rfl | simp_all

theorem showSeat_portFree (i : Nat) (c : Candidate) : PortFree (showSeat i c) := by
  intro s p
  cases h : (s.seat i).place <;> simp only [showSeat, setPort_seat, h]
  exact offerDesk_portFree _ _ s p

theorem postSeat_portFree (m : Fin 4) (i : Nat) (c : Candidate) : PortFree (postSeat m i c) := by
  intro s p
  cases h : (s.seat i).place <;> simp only [postSeat, setPort_seat, h]
  exact offerPost_portFree _ _ s p

theorem endAt_portFree (i : Nat) (c : Candidate) : PortFree (endAt i c) := by
  intro s p
  unfold endAt
  split
  · exact offerDesk_portFree _ _ s p
  · rfl

theorem showEnd_portFree (c : Candidate) : PortFree (showEnd c) := by
  intro s p
  unfold showEnd
  split
  · exact endAt_portFree _ _ s p
  · rfl

theorem showNotice_portFree (c : Candidate) (n : Notice) : PortFree (showNotice c n) := by
  intro s p
  unfold showNotice
  split
  · exact offerDesk_portFree _ _ s p
  · rfl

theorem showEndOf_portFree (j : Nat) : PortFree (showEndOf j) := by
  intro s p
  cases h : s.cand j <;> simp only [showEndOf, setPort_cand, h]
  exact showEnd_portFree _ s p

theorem kickSegment_portFree (m : Fin 4) : PortFree (kickSegment m) := by
  intro s p
  unfold kickSegment
  simp only [State.setPort_segments]
  (repeat' split) <;> first | rfl | simp_all

/-! ### Clearance, closing and finishing -/

theorem clearRecord_portFree (j : Nat) (c : Candidate) (b : Bool) : PortFree (clearRecord j c b) := by
  intro s p
  cases h : c.currentSeat with
  | none => simp only [clearRecord, h]; rfl
  | some i =>
    simp only [clearRecord, h]
    exact offerDesk_portFree i .blank (freeSeat i (s.setCand j _)) p

theorem clearanceTest_portFree (j : Nat) : PortFree (clearanceTest j) := by
  intro s p
  cases h : s.cand j with
  | none => simp only [clearanceTest, setPort_cand, h]
  | some c =>
    simp only [clearanceTest, setPort_cand, setPort_boundScripts, h]
    refine ite_portFree ?_ ?_
    · exact clearRecord_portFree j c false s p
    · rfl

theorem submitOnFinish_portFree (j : Nat) : PortFree (submitOnFinish j) := by
  intro s p
  cases h : s.cand j with
  | none => simp only [submitOnFinish, setPort_cand, h]
  | some c =>
    simp only [submitOnFinish, setPort_cand, setPort_boundScripts, h]
    refine ite_portFree ?_ ?_
    · rw [clearRecord_portFree j c true s p]; rfl
    · cases c.currentSeat with
      | none => exact clearanceTest_portFree j (s.mapScripts _) p
      | some i => exact clearanceTest_portFree j (takeSeat i .vacated j (s.mapScripts _)) p

theorem releaseKey_portFree (k : Fin 8) : PortFree (releaseKey k) := by
  intro s p
  cases h : s.keys[k].state <;> simp only [releaseKey, State.setPort_keys, h] <;> rfl

theorem closeSitting_portFree (k : Fin 8) : PortFree (closeSitting k) := by
  intro s p
  unfold closeSitting
  exact congrArg (State.raise · .time) (releaseKey_portFree k (s.setSitting k _) p)

theorem closingTest_portFree (k : Fin 8) : PortFree (closingTest k) := by
  intro s p
  simp only [closingTest, State.setPort_sittings, setPort_slotsWhere]
  refine ite_portFree ?_ ?_
  · exact closeSitting_portFree k s p
  · rfl

theorem endExpected_portFree (st : CandState) (j : Nat) : PortFree (endExpected st j) := by
  intro s p
  cases h : s.cand j with
  | none => simp only [endExpected, setPort_cand, h]
  | some c =>
    cases g : c.currentSeat with
    | none => simp only [endExpected, setPort_cand, h, g]; rfl
    | some i =>
      simp only [endExpected, setPort_cand, h, g]
      exact offerDesk_portFree i .blank (freeSeat i (s.setCand j _)) p

theorem finish_portFree (why : FinishCause) (j : Nat) : PortFree (finish why j) := by
  intro s p
  cases h : s.cand j with
  | none => simp only [finish, setPort_cand, h]
  | some c =>
    simp only [finish, setPort_cand, h]
    rw [show (s.setPort p).setCand j (c.finished why) = (s.setCand j (c.finished why)).setPort p from rfl,
      showNotice_portFree, submitOnFinish_portFree, closingTest_portFree]

/-! ### Personal time and holds -/

theorem warningTest_portFree (j : Nat) : PortFree (warningTest j) := by
  intro s p
  cases h : s.cand j with
  | none => simp only [warningTest, setPort_cand, h]
  | some c =>
    simp only [warningTest, setPort_cand, h, State.setPort_sittings, State.setPort_hallTime]
    refine ite_portFree ?_ ?_
    · exact congrArg (State.raise · .time) (showNotice_portFree c .warn (s.setCand j _) p)
    · rfl

theorem activate_portFree (j : Nat) : PortFree (activate j) := by
  intro s p
  cases h : s.cand j with
  | none => simp only [activate, setPort_cand, h]
  | some c =>
    simp only [activate, setPort_cand, h, State.setPort_sittings]
    rw [← warningTest_portFree, ← showEnd_portFree]; rfl

theorem changeHold_portFree (k : Fin 8) (h : HoldSources) : PortFree (changeHold k h) := by
  intro s p
  simp only [changeHold, State.setPort_sittings]
  refine ite_portFree ?_ ?_
  · exact takeInTurn_portFree _ _ showEndOf_portFree (s.setSitting k _) p
  · rfl

theorem extendRecord_portFree (k : Fin 8) (j : Nat) : PortFree (extendRecord k j) := by
  intro s p
  cases h : s.cand j with
  | none => simp only [extendRecord, setPort_cand, h]
  | some c =>
    simp only [extendRecord, setPort_cand, h, State.setPort_sittings]
    exact showEnd_portFree _ (s.setCand j _) p

theorem seatRecord_portFree (j : Nat) (c : Candidate) (i : Nat) : PortFree (seatRecord none j c i) := by
  intro s p
  have late := (activate_portFree j).comp (showSeat_portFree i (s.seatedAt i c))
  cases h : s.sittings[c.sitting].state <;> simp only [seatRecord, State.setPort_sittings, h]
  case reading => exact late ((takeSeat i .occupied j s).setCand j _) p
  case writing => exact late ((takeSeat i .occupied j s).setCand j _) p
  all_goals exact showSeat_portFree i (s.seatedAt i c) ((takeSeat i .occupied j s).setCand j _) p

/-! ### The directory and the chains -/

theorem setNext_portFree (j : Nat) (next : Option Nat) : PortFree (State.setNext · j next) := by
  intro s p
  cases h : s.cand j <;> simp only [State.setNext, setPort_cand, h] <;> rfl

theorem linkRecords_portFree (l : List Nat) : PortFree (State.linkRecords · l) := by
  intro s p
  induction l generalizing s with
  | nil => rfl
  | cons j rest ih =>
    cases rest with
    | nil => exact setNext_portFree j none s p
    | cons i rest =>
      simp only [State.linkRecords]
      rw [show (s.setPort p).setNext j (some i) = (s.setNext j (some i)).setPort p from setNext_portFree _ _ s p]
      exact ih _

theorem setDirSlot_portFree (q : Nat) (x : Fin 8) (d : Option DirSlot) : PortFree (State.setDirSlot · q x d) := by
  intro s p
  cases h : tableFind s.dirPages q <;> simp only [State.setDirSlot, State.setPort_dirPages, h] <;> rfl

theorem setHead_portFree (n j : Nat) : PortFree (State.setHead · n j) := by
  intro s p
  cases h : s.dirPlace n <;> simp only [State.setHead, setPort_dirPlace, h]
  exact setDirSlot_portFree _ _ _ s p

theorem writeChain_portFree (n : Nat) (l : List Nat) : PortFree (State.writeChain · n l) := by
  intro s p
  cases l with
  | nil => rfl
  | cons j rest =>
    simp only [State.writeChain]
    rw [show (s.setPort p).setHead n j = (s.setHead n j).setPort p from setHead_portFree n j s p]
    exact linkRecords_portFree (j :: rest) (s.setHead n j) p

@[simp] theorem setPort_placeInChain (j : Nat) (l : List Nat) :
    (s.setPort p).placeInChain j l = s.placeInChain j l := by
  induction l with
  | nil => rfl
  | cons i rest ih => simp only [State.placeInChain, ih]; rfl

theorem linkPage_portFree (b q : Nat) (pg : Page) : PortFree (State.linkPage · b q pg) := by
  intro s p
  simp only [State.linkPage, setPort_bucketPages, State.setPort_dirPages, State.setPort_dirRoot]
  (repeat' split) <;> first | rfl | simp_all

theorem dirInsert_portFree (n j : Nat) : PortFree (State.dirInsert · n j) := by
  intro s p
  have h1 : (s.setPort p).freeDirSlot n = s.freeDirSlot n := rfl
  have h2 : (s.setPort p).poolPage = s.poolPage := rfl
  simp only [State.dirInsert, h1, h2]
  cases s.freeDirSlot n with
  | some q => exact setDirSlot_portFree _ _ _ s p
  | none =>
    cases s.poolPage with
    | some q => exact linkPage_portFree _ _ _ s p
    | none => rfl

theorem joinChain_portFree (n j : Nat) : PortFree (State.joinChain · n j) := by
  intro s p
  simp only [State.joinChain, setPort_lookup, setPort_chain, setPort_placeInChain]
  cases s.lookup n with
  | none =>
    simp only
    rw [show (s.setPort p).dirInsert n j = (s.dirInsert n j).setPort p from dirInsert_portFree n j s p]
    exact setNext_portFree _ _ _ p
  | some _ => exact writeChain_portFree _ _ s p

theorem unlinkPage_portFree (b q : Nat) : PortFree (State.unlinkPage · b q) := by
  intro s p
  simp only [State.unlinkPage, setPort_bucketPages, State.setPort_dirPages, State.setPort_dirRoot]
  (repeat' split) <;> first | rfl | simp_all

theorem dirRemove_portFree (n : Nat) : PortFree (State.dirRemove · n) := by
  intro s p
  simp only [State.dirRemove, setPort_dirPlace]
  cases s.dirPlace n with
  | none => rfl
  | some q =>
    simp only
    rw [show (s.setPort p).setDirSlot q.1 q.2 none = (s.setDirSlot q.1 q.2 none).setPort p from
      setDirSlot_portFree _ _ _ s p]
    simp only [State.setPort_dirPages]
    refine ite_portFree ?_ ?_
    · exact unlinkPage_portFree _ _ _ p
    · rfl

theorem leaveChain_portFree (n j : Nat) : PortFree (State.leaveChain · n j) := by
  intro s p
  simp only [State.leaveChain, setPort_chain]
  cases (s.chain n).filter (· != j) with
  | nil => exact dirRemove_portFree n s p
  | cons i rest => exact writeChain_portFree n (i :: rest) s p

theorem reorderRecord_portFree (j : Nat) : PortFree (reorderRecord j) := by
  intro s p
  cases h : s.cand j <;> simp only [reorderRecord, setPort_cand, h, setPort_chain, setPort_placeInChain]
  exact writeChain_portFree _ _ s p

theorem setClash_portFree (j : Nat) : PortFree (setClash j) := by
  intro s p
  cases h : s.cand j <;> simp only [setClash, setPort_cand, h] <;> rfl

theorem markClashes_portFree (j : Nat) : PortFree (markClashes j) := by
  intro s p
  have h : (s.setPort p).clashing j = s.clashing j := rfl
  simp only [markClashes, h]
  refine ite_portFree ?_ ?_
  · rfl
  · exact takeInTurn_portFree _ _ setClash_portFree s p

theorem enrolAt_portFree (j : Nat) (c : Candidate) : PortFree (State.enrolAt · j c) := by
  intro s p
  have h : markClashes j (((s.setPort p).setCand j c).joinChain c.number j) =
      (markClashes j ((s.setCand j c).joinChain c.number j)).setPort p := by
    rw [← markClashes_portFree, ← joinChain_portFree]; rfl
  simp only [State.enrolAt, h]
  have hc : ∀ t : State, (t.setPort p).hasClash j = t.hasClash j := fun _ => rfl
  rw [hc]
  exact ite_portFree rfl rfl

theorem rescheduleRecords_portFree (k : Fin 8) (old : Sitting) : PortFree (State.rescheduleRecords · k old) := by
  intro s p
  have h1 : takeInTurn (s.recordsOf k) reorderRecord (s.setPort p) =
      (takeInTurn (s.recordsOf k) reorderRecord s).setPort p := takeInTurn_portFree _ _ reorderRecord_portFree s p
  have h2 : ∀ (l : List Nat) (t : State), takeInTurn l markClashes (t.setPort p) =
      (takeInTurn l markClashes t).setPort p := fun l t => takeInTurn_portFree l _ markClashes_portFree t p
  have h3 : ∀ t : State, (t.setPort p).recordsOf k = t.recordsOf k := fun _ => rfl
  have h4 : ∀ t : State, (t.setPort p).clashCount = t.clashCount := fun _ => rfl
  simp only [State.rescheduleRecords, State.setPort_sittings, h3, h4]
  by_cases a : old.t0 = s.sittings[k].t0
  · by_cases b : old.t0 = s.sittings[k].t0 ∧ old.r = s.sittings[k].r ∧ old.w = s.sittings[k].w
    · simp only [if_pos a, if_pos b, h4]; exact ite_portFree rfl rfl
    · simp only [if_pos a, if_neg b, h2, h3, h4]; exact ite_portFree rfl rfl
  · by_cases b : old.t0 = s.sittings[k].t0 ∧ old.r = s.sittings[k].r ∧ old.w = s.sittings[k].w
    · exact absurd b.1 a
    · simp only [if_neg a, if_neg b, h1, h2, h3, h4]; exact ite_portFree rfl rfl

/-! ### The traffic clear -/

theorem clearSegment_portFree (m : Fin 4) : PortFree (clearSegment m) := by
  intro s p
  unfold clearSegment
  exact kickSegment_portFree m
    ({ s with seats := s.seats.map (fun (x : Nat × Seat) => (x.1, x.2.clearedQueue m s.segments[m].queue)) }.setSegment m
      { s.segments[m].abandoned with queue := [] }) p

theorem clearIntake_portFree : PortFree clearIntake := by
  intro s p
  have h : abandonMarking (s.setPort p) = (abandonMarking s).setPort p := by
    simp only [abandonMarking, State.setPort_hand, setPort_script]
    (repeat' split) <;> first | rfl | simp_all
  simp only [clearIntake, h]
  rfl

/-! ### The owners' rules -/

theorem enrol_portFree (n k a r : Nat) (f : Byte) : Owner.PortFree (enrol n k a r f) := by
  intro s p
  have h1 : (s.setPort p).freeRollSlot = s.freeRollSlot := rfl
  have h2 : (s.setPort p).directoryRoom n = s.directoryRoom n := rfl
  have h3 : ∀ k', (s.setPort p).enrolled n k' = s.enrolled n k' := fun _ => rfl
  have h4 : ∀ j c, (s.setPort p).enrolAt j c = (s.enrolAt j c).setPort p := fun j c => enrolAt_portFree j c s p
  have h5 : ∀ (t : State) j, (t.setPort p).hasClash j = t.hasClash j := fun _ _ => rfl
  simp only [enrol, State.setPort_sittings, h1, h2, h3, h4, h5]
  repeat' first | rfl | refine ite_ownerFree ?_ ?_ | split

theorem amend_portFree (n k a r : Nat) (f : Byte) : Owner.PortFree (amend n k a r f) := by
  intro s p
  simp only [amend, setPort_resolve]
  repeat' first | rfl | refine ite_ownerFree ?_ ?_ | split

theorem withdraw_portFree (n k : Nat) : Owner.PortFree (withdraw n k) := by
  intro s p
  have h1 : ∀ j, endExpected .withdrawn j (s.setPort p) = (endExpected .withdrawn j s).setPort p :=
    fun j => endExpected_portFree _ j s p
  have h2 : ∀ k' t, closingTest k' (State.setPort t p) = (closingTest k' t).setPort p :=
    fun k' t => closingTest_portFree k' t p
  have h3 : ∀ j, finish .withdrawn j (s.setPort p) = (finish .withdrawn j s).setPort p :=
    fun j => finish_portFree _ j s p
  simp only [withdraw, setPort_resolve, h1, h2, h3]
  repeat' first | rfl | refine ite_ownerFree ?_ ?_ | split

theorem retire_portFree (n k : Nat) : Owner.PortFree (retire n k) := by
  intro s p
  have h1 : ∀ j c, (s.setPort p).retireRecord j c = (s.retireRecord j c).setPort p := by
    intro j c
    have h := leaveChain_portFree c.number j { s with scripts := s.scripts.filter (fun x => x.2.slot != j) } p
    exact congrArg (State.eraseCand · j) h
  simp only [retire, setPort_resolve, setPort_boundScripts, h1]
  repeat' first | rfl | refine ite_ownerFree ?_ ?_ | split

theorem readCandidate_portFree (n k : Nat) : Owner.PortFree (readCandidate n k) := by
  intro s p
  simp only [readCandidate, setPort_resolve]
  repeat' first | rfl | refine ite_ownerFree ?_ ?_ | split

theorem readSlot_portFree (j : Nat) : Owner.PortFree (readSlot j) := by
  intro s p
  simp only [readSlot, setPort_cand]
  repeat' first | rfl | refine ite_ownerFree ?_ ?_ | split

theorem readChain_portFree (n : Nat) : Owner.PortFree (readChain n) := by
  intro s p
  simp only [readChain, setPort_lookup]
  repeat' first | rfl | refine ite_ownerFree ?_ ?_ | split

theorem readRoll_portFree : Owner.PortFree (readRoll) := by
  intro s p
  rfl

theorem setClock_portFree (t : Nat) : Owner.PortFree (setClock t) := by
  intro s p
  simp only [setClock, State.setPort_sittings]
  repeat' first | rfl | refine ite_ownerFree ?_ ?_ | split

theorem readClock_portFree : Owner.PortFree (readClock) := by
  intro s p
  rfl

theorem schedule_portFree (k : Nat) (t : TimetableArg) (list : RoomListArg) : Owner.PortFree (schedule k t list) := by
  intro s p
  have h1 : ∀ k' v old, ((s.setPort p).setSitting k' v).rescheduleRecords k' old =
      ((s.setSitting k' v).rescheduleRecords k' old).setPort p :=
    fun k' v old => rescheduleRecords_portFree k' old (s.setSitting k' v) p
  simp only [schedule, State.setPort_sittings, State.setPort_hallTime, h1]
  repeat' first | rfl | refine ite_ownerFree ?_ ?_ | split
  all_goals first | (simp_all; done) | (simp_all; rfl)

theorem retireSitting_portFree (k : Nat) : Owner.PortFree (retireSitting k) := by
  intro s p
  have h1 : ∀ k', (s.setPort p).liveOf k' = s.liveOf k' := fun _ => rfl
  simp only [retireSitting, State.setPort_sittings, h1]
  repeat' first | rfl | refine ite_ownerFree ?_ ?_ | split
  all_goals first | (simp_all; done) | (simp_all; rfl)

theorem setSittingHold_portFree (on : Bool) (k : Nat) : Owner.PortFree (setSittingHold on k) := by
  intro s p
  have h1 : ∀ k' h, changeHold k' h (s.setPort p) = (changeHold k' h s).setPort p := fun k' h => changeHold_portFree k' h s p
  simp only [setSittingHold, State.setPort_sittings, h1]
  repeat' first | rfl | refine ite_ownerFree ?_ ?_ | split

theorem extend_portFree (k d : Nat) : Owner.PortFree (extend k d) := by
  intro s p
  cases h : sittingOf k with
  | none => simp only [extend, h]; rfl
  | some k' =>
    simp only [extend, h, State.setPort_sittings]
    refine ite_ownerFree rfl (ite_ownerFree rfl (Prod.ext ?_ rfl))
    exact ite_portFree rfl
      (takeInTurn_portFree _ _ (extendRecord_portFree k') (s.setSitting k' (s.sittings[k'].extended d)) p)

theorem readSitting_portFree (k : Nat) : Owner.PortFree (readSitting k) := by
  intro s p
  simp only [readSitting, State.setPort_sittings]
  repeat' first | rfl | refine ite_ownerFree ?_ ?_ | split

theorem defineSeat_portFree (i m r c : Nat) (d : Option Nat) (f : Byte) : Owner.PortFree (defineSeat i m r c d f) := by
  intro s p
  have h1 : ∀ q, (s.setPort p).positionTaken i q = s.positionTaken i q := fun _ => rfl
  have h2 : ∀ q, (s.setPort p).addressTaken i q = s.addressTaken i q := fun _ => rfl
  simp only [defineSeat, setPort_seat, h1, h2]
  repeat' first | rfl | refine ite_ownerFree ?_ ?_ | split

theorem setSeatState_portFree (i st : Nat) : Owner.PortFree (setSeatState i st) := by
  intro s p
  have h1 : ∀ q, (s.setPort p).positionTaken i q = s.positionTaken i q := fun _ => rfl
  have h2 : ∀ q, (s.setPort p).addressTaken i q = s.addressTaken i q := fun _ => rfl
  simp only [setSeatState, State.bringBack, setPort_seat, h1, h2]
  repeat' first | rfl | refine ite_ownerFree ?_ ?_ | split

theorem setRoomSettings_portFree (m : Nat) (on : Bool) (sep fill : Nat) : Owner.PortFree (setRoomSettings m on sep fill) := by
  intro s p
  have h1 : ∀ m', (s.setPort p).roomInUse m' = s.roomInUse m' := fun _ => rfl
  have h2 : ∀ m' a b v, followEnabled m' a b ((s.setPort p).setRoom m' v) = (followEnabled m' a b (s.setRoom m' v)).setPort p := by
    intro m' a b v
    cases a <;> cases b
    · rfl
    · exact kickSegment_portFree m' ((unknownDesks m' (s.setRoom m' v)).setSegment m' _) p
    · rfl
    · rfl
  simp only [setRoomSettings, State.setPort_rooms, h1, h2]
  repeat' first | rfl | refine ite_ownerFree ?_ ?_ | split

theorem admitFor_portFree (n k : Nat) : Owner.PortFree (admitFor n k) := by
  intro s p
  have h1 : ∀ l j, (s.setPort p).inStates l j = s.inStates l j := fun _ _ => rfl
  have h2 : ∀ c, (s.setPort p).seatFor c = s.seatFor c := by
    intro c
    have h : ∀ l, (s.setPort p).allocate c l = s.allocate c l := by
      intro l
      induction l with
      | nil => rfl
      | cons m l ih => simp only [State.allocate, ih]; rfl
    simp only [State.seatFor, State.setPort_sittings, h]
  have h3 : ∀ j c i, seatRecord none j c i (s.setPort p) = (seatRecord none j c i s).setPort p :=
    fun j c i => seatRecord_portFree j c i s p
  have h4 : (s.setPort p).seatBytes = s.seatBytes := rfl
  have h5 : ∀ (t : State) j, (t.setPort p).candState j = t.candState j := fun _ _ => rfl
  have h6 : (s.setPort p).inStates = s.inStates := rfl
  simp only [admitFor, setPort_resolve, State.setPort_sittings, setPort_chain, h1, h2, h3, h4, h5, h6]
  repeat' first | rfl | refine ite_ownerFree ?_ ?_ | split

theorem place_portFree (n k i : Nat) : Owner.PortFree (place n k i) := by
  intro s p
  have h1 : ∀ c e q, (s.setPort p).seatRefusal c e q = s.seatRefusal c e q := fun _ _ _ => rfl
  have h2 : ∀ j c d, showSeat i d ((takeSeat i .held j (s.setPort p)).setCand j c) =
      (showSeat i d ((takeSeat i .held j s).setCand j c)).setPort p :=
    fun j c d => showSeat_portFree i d ((takeSeat i .held j s).setCand j c) p
  simp only [place, setPort_resolve, setPort_seat, State.setPort_rooms, h1, h2]
  repeat' first | rfl | refine ite_ownerFree ?_ ?_ | split

theorem unplace_portFree (n k : Nat) : Owner.PortFree (unplace n k) := by
  intro s p
  have h1 : ∀ j c i, unplaceSeat j c i (s.setPort p) = (unplaceSeat j c i s).setPort p := by
    intro j c i
    have h := offerDesk_portFree i .blank (freeSeat i (s.setCand j { c with currentSeat := none })) p
    unfold unplaceSeat
    rw [← closingTest_portFree, ← h]
    rfl
  simp only [unplace, setPort_resolve, h1]
  repeat' first | rfl | refine ite_ownerFree ?_ ?_ | split

theorem move_portFree (n k i : Nat) : Owner.PortFree (move n k i) := by
  intro s p
  have h1 : ∀ c e q, (s.setPort p).seatRefusal c e q = s.seatRefusal c e q := fun _ _ _ => rfl
  have h2 : ∀ j c old, moveRecord j c old i (s.setPort p) = (moveRecord j c old i s).setPort p := by
    intro j c old
    have hm : PortFree (showMovedEnd (s.movedTo i c)) := by
      intro t q
      unfold showMovedEnd
      split <;> first | rfl | exact showEnd_portFree _ t q
    unfold moveRecord
    rw [← hm, ← showSeat_portFree, ← offerDesk_portFree]
    rfl
  have h3 : (s.setPort p).seatBytes = s.seatBytes := rfl
  simp only [move, setPort_resolve, setPort_seat, State.setPort_rooms, h1, h2, h3]
  repeat' first | rfl | refine ite_ownerFree ?_ ?_ | split

theorem readSeat_portFree (i : Nat) : Owner.PortFree (readSeat i) := by
  intro s p
  simp only [readSeat]
  repeat' first | rfl | refine ite_ownerFree ?_ ?_ | split

theorem readRoom_portFree (m : Nat) : Owner.PortFree (readRoom m) := by
  intro s p
  simp only [readRoom]
  repeat' first | rfl | refine ite_ownerFree ?_ ?_ | split

theorem ackHand_portFree (i : Nat) : Owner.PortFree (ackHand i) := by
  intro s p
  simp only [ackHand, setPort_seat]
  repeat' first | rfl | refine ite_ownerFree ?_ ?_ | split

theorem restFor_portFree (n k : Nat) (b : Bool) : Owner.PortFree (restFor n k b) := by
  intro s p
  have h1 : ∀ st j c, setResting st j c (s.setPort p) = (setResting st j c s).setPort p :=
    fun st j c => showEnd_portFree _ (s.setCand j { c with state := st }) p
  simp only [restFor, setPort_resolve, State.setPort_sittings, h1]
  repeat' first | rfl | refine ite_ownerFree ?_ ?_ | split
  all_goals first | (simp_all; done) | (simp_all; rfl)

theorem submitFor_portFree (n k : Nat) : Owner.PortFree (submitFor n k) := by
  intro s p
  have h1 : ∀ j, finish .submitted j (s.setPort p) = (finish .submitted j s).setPort p :=
    fun j => finish_portFree _ j s p
  simp only [submitFor, setPort_resolve, h1]
  repeat' first | rfl | refine ite_ownerFree ?_ ?_ | split

theorem resetRoom_portFree (m : Nat) : Owner.PortFree (resetRoom m) := by
  intro s p
  have h1 : ∀ m', kickSegment m' ((unknownDesks m' (s.setPort p)).setSegment m' s.segments[m'].roomReset) =
      (kickSegment m' ((unknownDesks m' s).setSegment m' s.segments[m'].roomReset)).setPort p :=
    fun m' => kickSegment_portFree m' ((unknownDesks m' s).setSegment m' s.segments[m'].roomReset) p
  simp only [resetRoom, State.setPort_segments, h1]
  repeat' first | rfl | refine ite_ownerFree ?_ ?_ | split

theorem readSegment_portFree (m : Nat) : Owner.PortFree (readSegment m) := by
  intro s p
  simp only [readSegment, State.setPort_segments]
  repeat' first | rfl | refine ite_ownerFree ?_ ?_ | split

theorem issue_portFree (n k d : Nat) : Owner.PortFree (issue n k d) := by
  intro s p
  have h1 : ∀ b j c, (s.setPort p).issueCheck b d j c = s.issueCheck b d j c := fun _ _ _ => rfl
  have h2 : ∀ c, (s.setPort p).currentSeatCopy c = s.currentSeatCopy c := fun _ => rfl
  simp only [issue, setPort_resolve, setPort_boundScripts, h1, h2]
  repeat' first | rfl | refine ite_ownerFree ?_ ?_ | split

theorem voidScript_portFree (d : Nat) : Owner.PortFree (voidScript d) := by
  intro s p
  have h1 : ∀ j x, clearanceTest j ((s.setPort p).setScript d x) = (clearanceTest j (s.setScript d x)).setPort p :=
    fun j x => clearanceTest_portFree j (s.setScript d x) p
  simp only [voidScript, setPort_namedScript, h1]
  repeat' first | rfl | refine ite_ownerFree ?_ ?_ | split

theorem handOver_portFree (d : Nat) : Owner.PortFree (handOver d) := by
  intro s p
  simp only [handOver, setPort_namedScript]
  repeat' first | rfl | refine ite_ownerFree ?_ ?_ | split

theorem handOverSitting_portFree (k : Nat) : Owner.PortFree (handOverSitting k) := by
  intro s p
  simp only [handOverSitting, State.setPort_scripts]
  repeat' first | rfl | refine ite_ownerFree ?_ ?_ | split

theorem readScript_portFree (d : Nat) : Owner.PortFree (readScript d) := by
  intro s p
  simp only [readScript, setPort_namedScript]
  repeat' first | rfl | refine ite_ownerFree ?_ ?_ | split

theorem readScriptAt_portFree (q : Nat) : Owner.PortFree (readScriptAt q) := by
  intro s p
  simp only [readScriptAt]
  repeat' first | rfl | refine ite_ownerFree ?_ ?_ | split

theorem scriptsOf_portFree (n k : Nat) : Owner.PortFree (scriptsOf n k) := by
  intro s p
  simp only [scriptsOf, setPort_resolve, setPort_boundScripts]
  repeat' first | rfl | refine ite_ownerFree ?_ ?_ | split

theorem readCustody_portFree : Owner.PortFree (readCustody) := by
  intro s p
  rfl

theorem keyOpen_portFree (k : Nat) (h : KeyHeader) : Owner.PortFree (keyOpen k h) := by
  intro s p
  simp only [keyOpen, State.setPort_sittings, State.setPort_keys]
  repeat' first | rfl | refine ite_ownerFree ?_ ?_ | split

theorem keyEntries_portFree (k q : Nat) (es : List KeyEntryArg) : Owner.PortFree (keyEntries k q es) := by
  intro s p
  simp only [keyEntries, State.setPort_keys]
  repeat' first | rfl | refine ite_ownerFree ?_ ?_ | split

theorem keySeal_portFree (k : Nat) : Owner.PortFree (keySeal k) := by
  intro s p
  cases h : sittingOf k with
  | none => simp only [keySeal, h]; rfl
  | some k' =>
    simp only [keySeal, h, State.setPort_keys, State.setPort_sittings]
    refine ite_ownerFree rfl ?_
    cases s.keys[k'].lowestUndefined with
    | some q => rfl
    | none =>
      refine ite_ownerFree rfl ?_
      cases boundaryFault 1 s.keys[k'].header.bounds.toList <;> rfl

theorem keyDiscard_portFree (k : Nat) : Owner.PortFree (keyDiscard k) := by
  intro s p
  have h1 : ∀ k' st, (s.setPort p).hasScript k' st = s.hasScript k' st := fun _ _ => rfl
  simp only [keyDiscard, State.setPort_keys, h1]
  repeat' first | rfl | refine ite_ownerFree ?_ ?_ | split
  all_goals first | (simp_all; done) | (simp_all; rfl)

theorem readKey_portFree (k : Nat) : Owner.PortFree (readKey k) := by
  intro s p
  simp only [readKey, State.setPort_keys]
  repeat' first | rfl | refine ite_ownerFree ?_ ?_ | split

theorem readKeyEntries_portFree (k q c : Nat) : Owner.PortFree (readKeyEntries k q c) := by
  intro s p
  cases h : sittingOf k with
  | none => simp only [readKeyEntries, h]; rfl
  | some k' =>
    simp only [readKeyEntries, h, State.setPort_keys]
    cases s.keys[k'].state <;> first | rfl | exact ite_ownerFree rfl rfl

theorem readIntake_portFree : Owner.PortFree (readIntake) := by
  intro s p
  rfl

theorem remark_portFree (n k : Nat) : Owner.PortFree (remark n k) := by
  intro s p
  have h1 : ∀ j st, (s.setPort p).boundIn j st = s.boundIn j st := fun _ _ => rfl
  simp only [remark, setPort_resolve, h1]
  repeat' first | rfl | refine ite_ownerFree ?_ ?_ | split

theorem readResult_portFree (n k : Nat) : Owner.PortFree (readResult n k) := by
  intro s p
  simp only [readResult, setPort_resolve]
  repeat' first | rfl | refine ite_ownerFree ?_ ?_ | split

theorem readAttention_portFree : Owner.PortFree (readAttention) := by
  intro s p
  rfl

theorem clearAttention_portFree (g : Byte) : Owner.PortFree (clearAttention g) := by
  intro s p
  simp only [clearAttention, State.setPort_sittings, State.setPort_attention]
  repeat' first | rfl | refine ite_ownerFree ?_ ?_ | split

theorem setAttention_portFree (e : Byte) (l : Vector Nat 6) : Owner.PortFree (setAttention e l) := by
  intro s p
  simp only [setAttention, State.setPort_sittings, State.setPort_attention]
  repeat' first | rfl | refine ite_ownerFree ?_ ?_ | split

theorem readFault_portFree : Owner.PortFree (readFault) := by
  intro s p
  rfl

theorem clearFault_portFree : Owner.PortFree (clearFault) := by
  intro s p
  rfl

theorem identify_portFree : Owner.PortFree (identify) := by
  intro s p
  rfl

theorem clearTraffic_portFree : Owner.PortFree (clearTraffic) := by
  intro s p
  have h := takeInTurn_portFree four _ clearSegment_portFree s p
  show okWith _ (clearIntake (takeInTurn four clearSegment (s.setPort p))) = _
  rw [h, clearIntake_portFree]
  rfl

/-- No owner's rule looks at the port. -/
theorem ownerRule_portFree (i : Instr) (op : Owner) (h : ownerRule i = some op) : op.PortFree := by
  cases i <;> simp only [ownerRule, Option.some.injEq, reduceCtorEq] at h <;> subst h
  case enrol => exact enrol_portFree _ _ _ _ _
  case amend => exact amend_portFree _ _ _ _ _
  case withdraw => exact withdraw_portFree _ _
  case retire => exact retire_portFree _ _
  case readCandidate => exact readCandidate_portFree _ _
  case readSlot => exact readSlot_portFree _
  case readChain => exact readChain_portFree _
  case readRoll => exact readRoll_portFree
  case setClock => exact setClock_portFree _
  case readClock => exact readClock_portFree
  case schedule => exact schedule_portFree _ _ _
  case retireSitting => exact retireSitting_portFree _
  case hold => exact setSittingHold_portFree _ _
  case resume => exact setSittingHold_portFree _ _
  case extend => exact extend_portFree _ _
  case readSitting => exact readSitting_portFree _
  case defineSeat => exact defineSeat_portFree _ _ _ _ _ _
  case seatState => exact setSeatState_portFree _ _
  case setRoom => exact setRoomSettings_portFree _ _ _ _
  case admitFor => exact admitFor_portFree _ _
  case place => exact place_portFree _ _ _
  case unplace => exact unplace_portFree _ _
  case move => exact move_portFree _ _ _
  case readSeat => exact readSeat_portFree _
  case readRoom => exact readRoom_portFree _
  case restFor => exact restFor_portFree _ _ _
  case submitFor => exact submitFor_portFree _ _
  case ackHand => exact ackHand_portFree _
  case resetRoom => exact resetRoom_portFree _
  case readSegment => exact readSegment_portFree _
  case issue => exact issue_portFree _ _ _
  case void => exact voidScript_portFree _
  case handOver => exact handOver_portFree _
  case handOverSitting => exact handOverSitting_portFree _
  case readScript => exact readScript_portFree _
  case readScriptAt => exact readScriptAt_portFree _
  case scriptsOf => exact scriptsOf_portFree _ _
  case readCustody => exact readCustody_portFree
  case keyOpen => exact keyOpen_portFree _ _
  case keyEntries => exact keyEntries_portFree _ _ _
  case keySeal => exact keySeal_portFree _
  case keyDiscard => exact keyDiscard_portFree _
  case readKey => exact readKey_portFree _
  case readKeyEntries => exact readKeyEntries_portFree _ _ _
  case readIntake => exact readIntake_portFree
  case remark => exact remark_portFree _ _
  case readResult => exact readResult_portFree _ _
  case readAttention => exact readAttention_portFree
  case clearAttention => exact clearAttention_portFree _
  case setAttention => exact setAttention_portFree _ _
  case readFault => exact readFault_portFree
  case clearFault => exact clearFault_portFree
  case clearTraffic => exact clearTraffic_portFree
  case identify => exact identify_portFree

/-- A request row, said once: the owner's records, and its answer placed by a port that has taken the request. -/
theorem requestRow_answered (i : Instr) (op : Owner) (hp : op.PortFree) (s : State) (h : s.resetHold = .running) :
    requestRow i op s = answered i (op s).2.status (op s).2.payload s (op s).1 := by
  rw [requestRow_running i op s h]
  unfold handToOwner
  rw [hp s _]
  rfl

/-- A request that an owner carries out while the part runs. -/
theorem exec_request (i : Instr) (op : Owner) (ho : ownerRule i = some op) (s : State) (h : s.resetHold = .running) :
    exec i s = answered i (op s).2.status (op s).2.payload s (op s).1 := by
  have hp := ownerRule_portFree i op ho
  cases i <;> simp only [ownerRule, Option.some.injEq, reduceCtorEq] at ho <;> subst ho <;>
    exact requestRow_answered _ _ hp s h

/-- A request whose owner leaves the records of `t` and answers with a status and values. -/
theorem exec_answered {i : Instr} {op : Owner} {s t : State} {st : Status} {payload : List Byte}
    (ho : ownerRule i = some op) (h : s.resetHold = .running) (he : op s = (t, ⟨st, payload⟩)) :
    exec i s = answered i st payload s t := by
  rw [exec_request i op ho s h, he]

end Sys2Proof.Machine
end

