-- ==== Sys2Proof/Tests/Slice0.lean ====
section
/-! SUPPORT. Tests on small states. The expected values are those of the manual's tables and worked examples, or hand
calculations from its rules; each section names its source. The second half holds, for every statement of
Certificates/Slice0 with hypotheses, a state and operands that meet them. -/

-- One theorem after another: a hundred evaluations at once would take more threads than the check allows.
set_option Elab.async false

namespace Sys2Proof.Tests

open Sys2Proof Sys2Proof.Machine

/-! ### Building small states -/

/-- The state that a command leaves. -/
def after (i : Instr) (s : State) : State :=
  match exec i s with
  | .next t => t
  | .fault _ => s
  | .refused _ => s

/-- The answer that goes out after a command, where the transmitter was free. -/
def answer (i : Instr) (s : State) : Option (Status × List Byte) :=
  (after i s).port.sending.map (fun f => (f.status, f.payload))

/-- The part after a power-up, with its PORT_RESET sent. -/
def idle : State := { State.reset with intake := { Intake.initial with resetOwed := false } }

/-- Sitting 0 of the worked examples: T0 09:00:00, R 600, W 7200, L 1800, Aw 1800, E1 1800, E2 900, V 900. -/
def paper (st : SittingState) (e : Nat) : Sitting :=
  { state := st, t0 := 32400, r := 600, w := 7200, l := 1800, aw := 1800, e1 := 1800, e2 := 900, v := 900,
    rooms := [0, 1], hold := ⟨false, false⟩, h := 0, e := e }

/-- The record of candidate 20 250 001 in sitting 0, with allowance 25 and rest rate 8. -/
def candidate (st : CandState) (seat : Option Nat) : Candidate :=
  { number := 20250001, sitting := 0, state := st, allowance := 25, restRate := 8, required := 0, currentSeat := seat,
    seatOfRecord := none, flags := ⟨false, false, false, false, false, false, false⟩, ext := some 1800,
    restBudget := some 960, restUsed := 0, personalEnd := some 42000, nextRecord := none,
    acc := { pages := 0, sums := Vector.replicate 4 0, reviewCount := 0 }, result := none }

/-- A seat of room 0 in row 0, at a column and a desk address. -/
def seatAt (column : Nat) (desk : Option Nat) (st : SeatState) (j : Option Nat) (d : DeskStatus) : Seat :=
  { place := some ⟨0, 0, column, desk, 0⟩, state := st, candidate := j, handRaised := false, deskStatus := d,
    missCount := 0, stale := false }

/-- A segment in MASTER that is sending a message. -/
def sending (x : SegMessage) : Segment :=
  { Segment.initial with line := .master, sending := some x, postStatus := .present }

/-- A directory page whose slot 0 names a number. -/
def pageOf (n head : Nat) : Page := { slots := (Vector.replicate 8 none).set 0 (some ⟨n, head⟩), next := none }

/-- A hall: room 0 enabled with three seats, and the candidate in roll slot 0, named in bucket 17. -/
def hall (now : Nat) (g : Sitting) (c : Candidate) (v : Seat) (scripts : Table Script) : State :=
  { idle with
    hallTime := now, sittings := idle.sittings.set 0 g, roll := [(0, c)], dirRoot := [(17, 0)],
    dirPages := [(0, pageOf 20250001 0)],
    seats := [(0, v), (1, seatAt 1 (some 2) .free none .present), (2, seatAt 3 none .free none .unbound)],
    rooms := idle.rooms.set 0 { RoomRecord.initial with enabled := true },
    segments := idle.segments.set 0 (sending (.time now 0)), scripts := scripts }

/-- The candidate seated at seat 0 and writing at 10:00:00. -/
def writing : State :=
  hall 36000 (paper .writing 3600) (candidate .active (some 0)) (seatAt 0 (some 1) .occupied (some 0) .present) []

/-- The candidate expected, with no seat, while sitting 0 is admitting at 08:40:00. -/
def arriving : State :=
  hall 31200 (paper .admitting 0) { candidate .expected none with ext := none, restBudget := none, personalEnd := none }
    (seatAt 0 (some 1) .free none .present) []

/-- A script of roll slot 0. -/
def scriptOf (kind : ScriptKind) (st : ScriptState) : Script :=
  { kind := kind, slot := 0, sitting := 0, seatAtIssue := ⟨0, 0, 0, 0⟩, state := st, submittedAt := none, page := none,
    result := none }

/-- The header of the key of sitting 0 (Chapter 7). -/
def header : KeyHeader :=
  { q := 6, tf := 120, te := 60, margin := 40, caps := #v[16, 8, 100, 100],
    bounds := #v[400, 500, 600, 700, 1001, 1001, 1001] }

/-- The entries of the key of sitting 0 (Chapter 7). -/
def entries : Table KeyEntry :=
  [(1, .answer 2 4 1 0), (2, .answer 8 4 1 0), (3, .answer 5 4 1 0), (4, .answer 16 4 1 0), (5, .answer 4 8 0 1), (6, .void)]

/-- The key of sitting 0, in a state (Chapter 7). -/
def key (st : KeyState) : KeySlot :=
  { state := st, header := header, entries := entries,
    derived := some { pages := 1, totals := #v[16, 8, 0, 0], maxima := #v[16, 8, 0, 0], smax := 24 } }

/-- The rows of the sheet of candidate 20 250 001 (Chapter 9); rows 6 to 45 are blank. -/
def sheetRows : List RowReading :=
  [⟨30, 190, 28, 25, 31⟩, ⟨24, 150, 26, 200, 23⟩, ⟨180, 24, 110, 22, 25⟩, ⟨26, 24, 27, 118, 25⟩, ⟨25, 23, 24, 29, 160⟩] ++
    List.replicate 40 ⟨23, 23, 23, 23, 23⟩

/-- A buffer that holds sheet 5123844, page 1. -/
def sheetBuffer (st : BufferState) (rows : List RowReading) (form : Option SheetForm) : SheetBuffer :=
  { state := st, number := 0, serial := 5123844, page := 1, cells := ⟨22, 25, 19, 26⟩, rows := rows, form := form,
    verdict := none }

/-- Sheet 5123844 in hand, its paper closed and its key released (Chapters 8 and 9). -/
def marking : State :=
  { hall 45000 (paper .closed 7800) (candidate .cleared none) (seatAt 0 (some 1) .free none .present)
      [(5123844, scriptOf .sheet .marking)] with
    keys := idle.keys.set 0 (key .released),
    hand := some ⟨0, 5123844, 1, 0, 0⟩,
    intake := { idle.intake with
      buffers := idle.intake.buffers.set 0 (sheetBuffer .taken sheetRows (some .wellFormed)), order := [0],
      nextNumber := 1 } }

/-- A sheet that is arriving, with some rows. -/
def filling (rows : List RowReading) : State :=
  { idle with
    intake := { idle.intake with
      buffers := idle.intake.buffers.set 0 (sheetBuffer .filling rows none), order := [0], nextNumber := 1,
      receive := .filling, gapTimer := true } }

/-! ### Ill-formed commands are refused by WellFormed -/

theorem test_number_of_five_bytes : (Instr.withdraw 4294967296 0).wellFormed = false := by decide
theorem test_sitting_of_two_bytes : (Instr.withdraw 0 256).wellFormed = false := by decide
theorem test_slot_of_three_bytes : (Instr.readSlot 65536).wellFormed = false := by decide
theorem test_time_of_four_bytes : (Instr.setClock 16777216).wellFormed = false := by decide
theorem test_timetable_reading_of_three_bytes :
    (Instr.schedule 0 ⟨0, 65536, 600, 0, 0, 0, 0, 0⟩ ⟨1, 0, 0, 0, 0⟩).wellFormed = false := by decide
theorem test_room_list_of_wide_rooms :
    (Instr.schedule 0 ⟨0, 0, 600, 0, 0, 0, 0, 0⟩ ⟨1, 256, 0, 0, 0⟩).wellFormed = false := by decide
theorem test_desk_of_255_is_no_address : (Instr.defineSeat 0 0 0 0 (some 255) 0).wellFormed = false := by decide
theorem test_header_of_wide_caps :
    (Instr.keyOpen 0 { header with caps := #v[65536, 0, 0, 0] }).wellFormed = false := by decide +kernel
theorem test_no_entries : (Instr.keyEntries 0 1 []).wellFormed = false := by decide
theorem test_sixty_entries : (Instr.keyEntries 0 1 (List.replicate 60 ⟨0, 0, 0, 0⟩)).wellFormed = false := by decide
theorem test_entry_of_wide_weight : (Instr.keyEntries 0 1 [⟨0, 256, 0, 0⟩]).wellFormed = false := by decide
theorem test_wide_level : (Instr.setAttention 0 #v[0, 0, 0, 0, 0, 256]).wellFormed = false := by decide +kernel
theorem test_wide_cell : (Instr.sheetBegin 5123844 1 0 0 0 256).wellFormed = false := by decide
theorem test_row_of_wide_darkness : (Instr.row 1 256 0 0 0 0).wellFormed = false := by decide
theorem test_widest_operands_are_well_formed :
    (Instr.issue 4294967295 255 16777215).wellFormed = true ∧
    (Instr.defineSeat 65535 255 255 255 (some 254) 255).wellFormed = true := by decide

/-! ### Bytes on the lines (Sections 4.3, 4.6 and 10.8, R106, R170, R172) -/

/-- The CRC-8 of Section 4.6 over the ASCII digits 1 to 9: F7, the published check value of that polynomial and start value. -/
theorem test_crc_check_value : crc8 [0x31, 0x32, 0x33, 0x34, 0x35, 0x36, 0x37, 0x38, 0x39] = 0xF7 := by decide +kernel

/-- ENROL(20 250 001, 3, 25, 8, STEP_FREE) written out byte by byte: code 1, number, sitting, a, r, features. -/
theorem test_enrol_bytes :
    decodeRequest [0x01, 0x01, 0x34, 0xFD, 0x91, 0x03, 0x19, 0x08, 0x01] = .request (.enrol 20250001 3 25 8 1) := by
  decide +kernel

/-- EXTEND(4, 300): code 15, sitting, two bytes of seconds. -/
theorem test_extend_bytes : decodeRequest [15, 4, 0x01, 0x2C] = .request (.extend 4 300) := by decide +kernel

/-- DEFINE_SEAT of a paper-only seat: the desk address byte is 255. -/
theorem test_define_seat_bytes :
    decodeRequest [17, 0x01, 0xFF, 3, 31, 0, 0xFF, 4] = .request (.defineSeat 511 3 31 0 none 4) := by decide +kernel

/-- ISSUE(20 250 001, 0, 1042262): code 31 and a three-byte serial. -/
theorem test_issue_bytes :
    decodeRequest [31, 0x01, 0x34, 0xFD, 0x91, 0, 0x0F, 0xE7, 0x56] = .request (.issue 20250001 0 1042262) := by decide +kernel

/-- REST_FOR begin: any value but 0. -/
theorem test_rest_for_bytes :
    decodeRequest [26, 0x01, 0x34, 0xFD, 0x91, 0, 2] = .request (.restFor 20250001 0 true) := by decide +kernel

theorem test_codes_without_a_request :
    decodeRequest [0] = .unknown ∧ decodeRequest [55] = .unknown ∧ decodeRequest [54] = .request .identify ∧
    decodeRequest [54, 0] = .malformed ∧ decodeRequest [] = .malformed := by decide +kernel

/-- The serials of the worked examples of Chapter 6. -/
theorem test_serial_check_digits :
    validSerial 1042262 = true ∧ validSerial 1042270 = true ∧ validSerial 5123844 = true ∧
    validSerial 5123845 = false := by decide

/-! ### Chapter 1: the worked examples of a record chain and of the pages of a bucket -/

/-- The sittings of the record chain: 0 at 09:00:00, 3 at 14:00:00 and 5 at 09:00:00. -/
def chainSittings : Vector Sitting 8 :=
  ((idle.sittings.set 0 (paper .scheduled 0)).set 3 { paper .scheduled 0 with t0 := 50400, w := 5400 }).set 5
    { paper .scheduled 0 with r := 0, w := 3600, l := 0 }

/-- After ENROL in sitting 3 and then in sitting 0: slot 1 is the head and leads to slot 0. -/
def chained : State :=
  { idle with
    sittings := chainSittings,
    roll := [(0, { candidate .expected none with sitting := 3 }), (1, { candidate .expected none with nextRecord := some 0 })],
    dirRoot := [(17, 0)], dirPages := [(0, pageOf 20250001 1)] }

theorem test_enrol_first_record :
    answer (.enrol 20250001 3 25 8 0) { idle with sittings := chainSittings } = some (.ok, [0, 0, 0]) ∧
    (after (.enrol 20250001 3 25 8 0) { idle with sittings := chainSittings }).dirPages = [(0, pageOf 20250001 0)] := by
  decide +kernel

theorem test_enrol_in_a_clashing_sitting :
    answer (.enrol 20250001 5 25 8 0) chained = some (.ok, [0, 2, 1]) ∧
    (after (.enrol 20250001 5 25 8 0) chained).chain 20250001 = [1, 2, 0] ∧
    (after (.enrol 20250001 5 25 8 0) chained).roll.map (fun x => x.2.flags.clash) = [false, true, true] := by
  decide +kernel

theorem test_read_chain :
    answer (.readChain 20250001) chained = some (.ok, [2, 0, 0, 0, 1, 0, 3, 0, 0, 0, 0]) := by decide +kernel

theorem test_retire_of_the_head :
    (after (.retire 20250001 0) { chained with
      roll := [(0, { candidate .expected none with sitting := 3 }),
        (1, { candidate .withdrawn none with nextRecord := some 0 })] }).chain 20250001 = [0] := by
  decide +kernel

/-- A page of bucket 17 whose slots 0, 1 and 3 to 7 are used. -/
def pageWithGap : Page :=
  { slots := #v[some ⟨20250001, 0⟩, some ⟨20250065, 1⟩, none, some ⟨20250193, 3⟩, some ⟨20250257, 4⟩,
      some ⟨20250321, 5⟩, some ⟨20250385, 6⟩, some ⟨20250449, 7⟩], next := some 5 }

/-- The tenth number goes to page 4 slot 2, ahead of page 5's free slots. -/
theorem test_enrol_takes_the_first_free_directory_slot :
    (after (.enrol 20250577 0 0 0 0) { idle with
      sittings := chainSittings, dirRoot := [(17, 4)],
      dirPages := [(4, pageWithGap), (5, pageOf 20250513 8)] }).dirPlace 20250577 = some (4, 2) := by decide +kernel

/-- The only record of 20 250 513 is retired: page 5 returns to the pool. -/
theorem test_retire_unlinks_an_empty_page :
    (after (.retire 20250513 0) { idle with
      roll := [(8, { candidate .withdrawn none with number := 20250513 })], dirRoot := [(17, 4)],
      dirPages := [(4, pageWithGap), (5, pageOf 20250513 8)] }).dirPages = [(4, { pageWithGap with next := none })] := by
  decide +kernel

/-! ### Chapters 2 and 4: EXTEND at the close of writing, a hall hold, and one candidate's morning -/

/-- Sitting 4 in CLOSING at 14:05:00 or 14:06:00, with its W. -/
def closing (w e : Nat) : State :=
  { idle with
    hallTime := 46800 + e,
    sittings := idle.sittings.set 4 { paper .closing e with t0 := 46800, r := 0, w := w, l := 0 } }

theorem test_extend_up_to_e_stays_closing :
    answer (.extend 4 300) (closing 3600 3900) = some (.ok, be2 3900 ++ be3 50700 ++ [5]) := by decide +kernel

theorem test_extend_above_e_returns_to_writing :
    answer (.extend 4 600) (closing 3900 3960) = some (.ok, be2 4500 ++ be3 51300 ++ [4]) := by decide +kernel

/-- Sitting 0 at 09:49:59, held by the hall or not. -/
def beforeTheHold (held : Bool) : State :=
  { writing with
    hallTime := 35399, sittings := writing.sittings.set 0 { paper .writing 2999 with hold := ⟨held, false⟩ } }

theorem test_first_held_second :
    (after .hallSecond (beforeTheHold true)).sittings[0].h = 1 ∧
    (after .hallSecond (beforeTheHold true)).sittings[0].e = 2999 ∧
    (after .hallSecond (beforeTheHold true)).sittings[0].baseEnd = 40201 ∧
    ((after .hallSecond (beforeTheHold true)).cand 0).bind Candidate.personalEnd = some 42001 := by decide +kernel

theorem test_filtered_hold_reaches_a_running_sitting :
    (after .holdFilterChange { beforeTheHold false with holdFilter := ⟨true, false, false, true⟩ }).sittings[0].hold =
      ⟨true, false⟩ := by decide +kernel

/-- A pulse shorter than the settling time: the change in waiting is cancelled. -/
theorem test_short_pulse_is_cancelled :
    (after (.hallHoldEdge false) { idle with holdFilter := ⟨true, false, false, true⟩ }).holdFilter =
      ⟨false, false, false, false⟩ := by decide +kernel

theorem test_activation_times :
    ((candidate .active none).withTimes (paper .reading 0)).ext = some 1800 ∧
    ((candidate .active none).withTimes (paper .reading 0)).restBudget = some 960 ∧
    ((candidate .active none).withTimes (paper .reading 0)).personalEnd = some 42000 := by decide +kernel

/-- EXTEND(0, 600) at 11:30:00: W 7800, H 750, rest used 400. -/
theorem test_extend_moves_the_personal_end :
    ({ candidate .active none with restUsed := 400 }.withTimes { paper .writing 8250 with w := 7800, h := 750 }).ext =
      some 1980 ∧
    ({ candidate .active none with restUsed := 400 }.withTimes { paper .writing 8250 with w := 7800, h := 750 }).restBudget =
      some 1040 ∧
    ({ candidate .active none with restUsed := 400 }.withTimes
      { paper .writing 8250 with w := 7800, h := 750 }).personalEnd = some 43930 := by decide +kernel

/-- The hall second of 11:44:10: the warning at V. -/
theorem test_warning_second :
    ((after .hallSecond (hall 42249 { paper .closing 9099 with h := 750 }
      { candidate .active (some 0) with restUsed := 400, personalEnd := some 43150 }
      (seatAt 0 (some 1) .occupied (some 0) .present) [])).cand 0).map (fun c => c.flags.warned) = some true := by
  decide +kernel

/-- The hall second of 11:59:10: the personal end is reached, and the sitting closes. -/
theorem test_personal_end_second :
    ((after .hallSecond (hall 43149 { paper .closing 9999 with h := 750 }
      { candidate .active (some 0) with restUsed := 400, personalEnd := some 43150 }
      (seatAt 0 (some 1) .occupied (some 0) .present) [(1042262, scriptOf .booklet .issued)])).cand 0).map
        (fun c => (c.state, c.personalEnd)) = some (.done, some 43150) ∧
    (after .hallSecond (hall 43149 { paper .closing 9999 with h := 750 }
      { candidate .active (some 0) with restUsed := 400, personalEnd := some 43150 }
      (seatAt 0 (some 1) .occupied (some 0) .present) [(1042262, scriptOf .booklet .issued)])).sittings[0].state =
        .closed := by
  decide +kernel

theorem test_rest_begins_and_is_refused_in_a_hold :
    (after (.restFor 20250001 0 true) writing).roll.map (fun x => x.2.state) = [.resting] ∧
    answer (.restFor 20250001 0 true) (beforeTheHold true) = some (.held, []) := by decide +kernel

/-! ### Chapter 3: filling a room under FULL separation -/

/-- Room 1 of the example: seat 4 × row + column; (2,0) LARGE_DESK (bit 1), (1,3) with two features, (2,3) paper-only,
(0,2) LOST. A sits at (0,0). -/
def roomOne (n : Nat) : Nat × Seat :=
  (n, { place := some { room := 1, row := n / 4, column := n % 4, desk := if n = 11 then none else some (n + 1),
                        features := if n = 8 then 2 else if n = 7 then 12 else 0 },
        state := if n = 0 then .occupied else .free, candidate := if n = 0 then some 0 else none, handRaised := false,
        deskStatus := if n = 2 then .lost else if n = 11 then .unbound else .present, missCount := 0, stale := false })

def fullRoom : State :=
  { idle with
    roll := [(0, { candidate .seated (some 0) with sitting := 2 })], seats := (List.range 12).map roomOne,
    rooms := idle.rooms.set 1 { enabled := true, separation := .full, fill := .columnMajor, lastRefusal := none,
                                lastWrongSeat := none } }

theorem test_allocation_of_b : fullRoom.allocate { candidate .expected none with sitting := 2 } [1, 2] = some 9 := by
  decide +kernel

theorem test_allocation_of_c :
    fullRoom.allocate { candidate .expected none with sitting := 3, required := 2 } [1] = some 8 := by decide +kernel

theorem test_admission_while_admitting :
    answer (.admitFor 20250001 0) arriving = some (.ok, [0, 0, 0, 0, 0, 1]) := by decide +kernel

theorem test_a_second_seat_at_one_place :
    answer (.defineSeat 5 0 0 1 none 0) arriving = some (.positionTaken, []) := by decide +kernel

/-! ### Chapter 5: a queue under pressure; a desk lost and found -/

/-- ENDs for the desks from 11 on. -/
def ends (n : Nat) : List ShowEntry := (List.range n).map (fun i => ⟨11 + i, .ending 40950 .active 0⟩)

theorem test_ninth_message_is_dropped : offerQueue ⟨19, .ending 40950 .active 0⟩ (ends 8) = (ends 8, false) := by
  decide +kernel

theorem test_end_is_replaced_in_place :
    (offerQueue ⟨15, .ending 40950 .resting 0⟩ (ends 8)).1[4]? = some ⟨15, .ending 40950 .resting 0⟩ := by decide +kernel

/-- A hall whose segment 0 awaits an answer from an address. -/
def awaiting (a : Nat) (v : Seat) : State :=
  { hall 36000 (paper .writing 3600) (candidate .active (some 0)) v [(1042262, scriptOf .booklet .submitted)] with
    segments := idle.segments.set 0 { Segment.initial with line := .awaiting a, postStatus := .present, rotation := 1 } }

theorem test_third_miss_loses_the_desk :
    ((after (.answerWindowTimeout 0 false)
      (awaiting 1 { seatAt 0 (some 1) .occupied (some 0) .present with missCount := 2 })).seat 0).deskStatus = .lost ∧
    (after (.answerWindowTimeout 0 false)
      (awaiting 1 { seatAt 0 (some 1) .occupied (some 0) .present with missCount := 2 })).faultRecord.entry =
      some ⟨.deskLost, .unit 0 1, 36000⟩ := by decide +kernel

/-- A RESTART (event 7) of a LOST desk resynchronises it with SEAT and END; the SEAT goes out at once. -/
theorem test_lost_desk_is_found :
    ((after (.deskAnswer 0 false (withCheck [4, 1, 7]))
      (awaiting 1 { seatAt 0 (some 1) .occupied (some 0) .lost with missCount := 3, stale := true })).seat 0).missCount = 0 ∧
    (after (.deskAnswer 0 false (withCheck [4, 1, 7]))
      (awaiting 1 { seatAt 0 (some 1) .occupied (some 0) .lost with missCount := 3, stale := true })).segments[0].sending =
      some (.show_ ⟨1, .seat 0 0 0 20250001 0⟩) ∧
    (after (.deskAnswer 0 false (withCheck [4, 1, 7]))
      (awaiting 1 { seatAt 0 (some 1) .occupied (some 0) .lost with missCount := 3, stale := true })).segments[0].queue =
      [⟨1, .ending 42000 .active 960⟩] := by decide +kernel

/-! ### Chapter 6: one candidate's scripts -/

theorem test_issue_of_a_booklet :
    answer (.issue 20250001 0 1042262) writing = some (.ok, [1, 0, 0, 0, 0, 0, 1]) ∧
    answer (.issue 20250001 0 5123845) writing = some (.badSerial, []) := by decide +kernel

theorem test_void_of_an_issued_booklet :
    (after (.void 1042262) { writing with scripts := [(1042262, scriptOf .booklet .issued)] }).scripts =
      [(1042262, scriptOf .booklet .voided)] := by decide +kernel

/-- COLLECT (event 6) of 1042262 at the post of room 0, the last script of a DONE candidate. -/
theorem test_collect_clears_the_candidate :
    ((after (.deskAnswer 0 false (withCheck [4, 0, 6, 0x0F, 0xE7, 0x56])) { awaiting 0
      (seatAt 0 (some 1) .vacated (some 0) .present) with roll := [(0, candidate .done (some 0))] }).cand 0).map
        (fun c => (c.state, c.currentSeat)) = some (.cleared, none) ∧
    ((after (.deskAnswer 0 false (withCheck [4, 0, 6, 0x0F, 0xE7, 0x56])) { awaiting 0
      (seatAt 0 (some 1) .vacated (some 0) .present) with roll := [(0, candidate .done (some 0))] }).script 1042262).map
        (fun x => x.state) = some .collected := by decide +kernel

theorem test_hand_over_of_a_sitting :
    answer (.handOverSitting 0) { writing with
      scripts := [(1042262, scriptOf .booklet .collected), (1042289, scriptOf .booklet .collected),
        (2000059, { scriptOf .booklet .collected with sitting := 1 }), (5123844, scriptOf .sheet .collected)] } =
      some (.ok, [0, 2]) := by decide +kernel

/-! ### Chapter 7: loading the key of sitting 0 -/

/-- Slot 0 LOADING, with some of its entries. -/
def loading (es : Table KeyEntry) : State :=
  { writing with keys := writing.keys.set 0 { state := .loading, header := header, entries := es, derived := none } }

theorem test_key_open : answer (.keyOpen 0 header) writing = some (.ok, [1]) := by decide +kernel

theorem test_key_entries_above_q :
    answer (.keyEntries 0 5 [⟨4, 8, 0, 1⟩, ⟨128, 0, 0, 0⟩, ⟨1, 1, 0, 0⟩]) (loading []) = some (.range, [7]) := by
  decide +kernel

theorem test_key_entries_clamped :
    answer (.keyEntries 0 1 [⟨2, 4, 1, 0⟩, ⟨8, 4, 6, 0⟩, ⟨5, 4, 1, 0⟩, ⟨16, 4, 1, 0⟩]) (loading []) =
      some (.okClamped, [4, 1, 5]) ∧
    tableFind (after (.keyEntries 0 1 [⟨2, 4, 1, 0⟩, ⟨8, 4, 6, 0⟩, ⟨5, 4, 1, 0⟩, ⟨16, 4, 1, 0⟩])
      (loading [])).keys[0].entries 2 = some (.answer 8 4 4 0) := by decide +kernel

theorem test_key_seal_of_a_key_with_a_gap :
    answer (.keySeal 0) (loading (entries.take 4)) = some (.incomplete, [5]) := by decide +kernel

theorem test_key_seal :
    (after (.keySeal 0) (loading entries)).keys[0] = key .sealed_ ∧
    answer (.readKeyEntries 0 1 6) { writing with keys := writing.keys.set 0 (key .sealed_) } = some (.state, []) := by
  decide +kernel

/-! ### Chapter 8: sheets in the intake; Chapter 9: the sheet of candidate 20 250 001, two pages and a cap -/

theorem test_sheet_begin_takes_the_lowest_free_buffer :
    (after (.sheetBegin 5123844 1 22 25 19 26) idle).intake.sending = some (.begin_ (.go 0)) ∧
    (after (.sheetBegin 5123844 1 22 25 19 26) idle).intake.order = [0] := by decide +kernel

/-- Two seconds with no frame behind 17 rows. -/
theorem test_gap_timer_closes_the_sheet :
    (after .sheetGapTimeout (filling (sheetRows.take 17))).faultRecord.entry =
      some ⟨.sheetMalformed, .serial 5123844, 0⟩ ∧
    (after .sheetGapTimeout (filling (sheetRows.take 17))).intake.receive = .discarding := by decide +kernel

theorem test_sheet_of_the_example :
    (tallyPage (key .released) (sheetBuffer .taken sheetRows (some .wellFormed)) 1).sums = #v[7, 0, 0, 0] ∧
    (tallyPage (key .released) (sheetBuffer .taken sheetRows (some .wellFormed)) 1).review = [4] := by decide +kernel

theorem test_marking_completes_the_result :
    ((after .markingComplete marking).cand 0).bind (fun c => c.result) =
      some { total := 7, smax := 24, perMille := 292, band := 0, noMax := false, review := true } ∧
    (after .markingComplete marking).intake.buffers[0].verdict = some .acceptReview := by decide +kernel

theorem test_per_mille_of_two_pages :
    perMilleOf 210 240 = 875 ∧ bandOf #v[400, 500, 600, 700, 1001, 1001, 1001] 875 = 4 := by decide +kernel

/-! ### Chapter 10: the link, the attention unit and the resets -/

/-- The part with its port in a state. -/
def atPort (p : Port) : State := { idle with port := p }

/-- A port that is assembling a request. -/
def assembling (stage : List Byte) : Port := { Port.initial with state := .assembling, stage := stage, timer := true }

/-- A port that is executing a request, its answer going out. -/
def executing : Port := { Port.initial with state := .executing, stage := [54], sending := some ⟨.ok, false, [2, 0, 3, 0]⟩ }

/-- A port that is executing a request while a BUSY goes out, with its own answer behind it. -/
def busySending : Port :=
  { executing with sending := some ⟨.busy, true, []⟩, queue := [⟨.ok, false, [2, 0, 3, 0]⟩] }

/-- IDENTIFY (code 54) as one checked frame: part 512, revision 3, POWER_UP. -/
theorem test_identify_over_the_link :
    answer (.stationFrame (requestFrame true true true [54])) idle = some (.ok, [2, 0, 3, 0]) := by decide +kernel

/-- A BUSY that has gone out leaves the request's own answer to go out next, and the port EXECUTING (R170, R171). -/
theorem test_answers_go_out_one_at_a_time :
    (after .answerSent (atPort busySending)).port = executing ∧
    (after .answerSent (atPort executing)).port = Port.initial := by decide +kernel

/-- A FILLING sheet that a traffic clear closes has a form and the verdict CLEARED (R134, R145). -/
theorem test_clear_traffic_closes_the_sheet :
    (after .clearTraffic (filling (sheetRows.take 17))).intake.buffers[0].form.isSome = true ∧
    (after .clearTraffic (filling (sheetRows.take 17))).intake.buffers[0].verdict = some .cleared ∧
    (after .clearTraffic (filling (sheetRows.take 17))).intake.receive = .discarding := by decide +kernel

/-- BUSY has code 10 and a link answer the top bit; a SHOW NOTICE DONE for desk 5; the REJECT of sheet 7 (Section
10.4). -/
theorem test_frames_that_are_sent :
    AnswerFrame.bytes ⟨.busy, true, []⟩ = withCheck [138, 0] ∧
    (SegMessage.show_ ⟨5, .notice .done⟩).bytes = withCheck [3, 5, 3, 3] ∧
    Intake.frameBytes { Intake.initial with
      buffers := Intake.initial.buffers.set 0
        { sheetBuffer .decided [] (some .malformed) with number := 7, verdict := some (.reject .malformed) } }
      (.verdict 0) = withCheck [23, 7, 0x4E, 0x2F, 0x04, 1, 3, 1] := by decide +kernel

/-- A SHEET_END of 45 rows (code 13), and a code that the scanner does not send (Section 10.4). -/
theorem test_scanner_frames :
    scannerCommand (withCheck [13, 45]) = .sheetEnd 45 ∧ scannerCommand [13, 45, 0] = .scannerBadFrame ∧
    scannerCommand (withCheck [14, 45]) = .scannerBadFrame := by decide +kernel

/-- A frame with a wrong check byte is answered CHECK_FAIL, with the link flag, and reported. -/
theorem test_wrong_check_byte :
    ((after (.stationFrame [7, 1, 54, 0]) idle).port.sending.map (fun f => (f.status, f.link)) =
      some (.checkFail, true)) ∧
    (after (.stationFrame [7, 1, 54, 0]) idle).faultRecord.entry = some ⟨.linkCheck, .none, 0⟩ := by decide +kernel

/-- HAND up (event 2, value 1) raises the flag and one DESK cause; CLEAR_ATTENTION of group 1 then answers 1. -/
theorem test_hand_raises_a_desk_cause :
    (after (.deskAnswer 0 false (withCheck [4, 1, 2, 1]))
      (awaiting 1 (seatAt 0 (some 1) .occupied (some 0) .present))).attention[1] = ⟨false, 0, true, 1⟩ := by
  decide +kernel

theorem test_clear_attention :
    answer (.clearAttention 2) { idle with attention := idle.attention.set 1 ⟨true, 3, true, 9⟩ } = some (.ok, [9]) := by
  decide +kernel

theorem test_hall_reset_keeps_the_fault_record :
    (after .hallReset { writing with faultRecord := ⟨some ⟨.linkCheck, .none, 7⟩, true⟩ }).faultRecord =
      ⟨some ⟨.linkCheck, .none, 7⟩, true⟩ ∧
    (after .hallReset writing).roll = [] := by decide +kernel

/-- The front of the queue; and the table gives its rows no bits, so a word spells no command. -/
theorem test_front_of_the_queue :
    step { idle with pending := [.identify, .readRoll] } = exec .identify { idle with pending := [.readRoll] } ∧
    idle.withFetchWord 8 54 = idle := ⟨rfl, rfl⟩

/-! ### Witnesses: the queue, the resets and the laws -/

theorem witness_StepTakesTheFrontCommand :
    { idle with pending := [Instr.identify, .readRoll] }.pending = .identify :: [.readRoll] ∧ idle.pending = [] :=
  ⟨rfl, rfl⟩

theorem witness_EveryCommandCompletes :
    { idle with resetHold := .powerUp }.resetHold ≠ .running ∧ ofPins .identify = false := by decide

theorem witness_ResetsGiveEveryBlockItsResetValues :
    writing.resetHold = .running ∧ { State.reset with resetHold := .powerUp }.resetHold = .powerUp ∧
    { State.reset with intake := Intake.initial, resetHold := .powerUp }.intake = Intake.initial ∧
    { State.reset with intake := Intake.initial, resetHold := .hallReset }.resetHold = .hallReset :=
  ⟨rfl, rfl, rfl, rfl⟩

theorem witness_StepKeepsTheLaws :
    (writing.clockLaw && writing.storeLaw && writing.segmentLaw && writing.portLaw && writing.attentionLaw &&
      writing.intakeLaw) = true ∧
    ∃ t, step { writing with pending := [.hallSecond] } = .next t := ⟨by decide +kernel, _, rfl⟩

theorem witness_StepKeepsTheIntakeLaw :
    marking.storeLaw = true ∧ marking.intakeLaw = true ∧ (filling (sheetRows.take 45)).intakeLaw = true ∧
    ∃ t, step { marking with pending := [.markingComplete] } = .next t :=
  ⟨by decide +kernel, by decide +kernel, by decide +kernel, _, rfl⟩

/-- The chain of the worked example, the candidate at her seat and her sheet in hand satisfy the laws of the records. -/
theorem witness_StepKeepsTheLawsOfTheRecords :
    (writing.storeLaw && writing.intakeLaw && writing.seatLaw && writing.separationLaw && writing.directoryLaw &&
      writing.candidateLaw && writing.markLaw) = true ∧
    (marking.storeLaw && marking.intakeLaw && marking.seatLaw && marking.separationLaw && marking.directoryLaw &&
      marking.candidateLaw && marking.markLaw) = true ∧
    (chained.storeLaw && chained.directoryLaw) = true ∧
    (∃ t, step { marking with pending := [.markingComplete] } = .next t) ∧
    ∃ t, step { chained with pending := [.enrol 20250001 5 0 0 0] } = .next t :=
  ⟨by decide +kernel, by decide +kernel, by decide +kernel, ⟨_, rfl⟩, _, rfl⟩

/-! ### Witnesses: the station link -/

/-- KEY_ENTRIES with so many entries: 14 fit in one frame, 29 in two and 59 in four. -/
def entriesRequest (n : Nat) : Instr := .keyEntries 0 1 (List.replicate n ⟨1, 4, 1, 0⟩)

theorem witness_RequestBytesAreReadBack :
    (Instr.issue 4294967295 255 16777215).wellFormed = true ∧
    (ownerRule (.issue 4294967295 255 16777215)).isSome = true ∧
    (entriesRequest 59).wellFormed = true := by decide +kernel

theorem witness_AssembliesAreJudged :
    decodeRequest [] = .malformed ∧ decodeRequest [0, 1] = .unknown ∧ decodeRequest [55] = .unknown ∧
    decodeRequest [54, 0] = .malformed ∧ decodeRequest [40, 0, 1] = .malformed ∧
    decodeRequest [54] = .request .identify ∧ argumentCounts[54 - 1]? = some 0 ∧
    argumentCounts.length = 54 := by decide +kernel

theorem witness_FramedRequestIsItsRow :
    idle.resetHold = .running ∧ idle.port.receiver = .waiting ∧ idle.port.state ≠ .executing ∧
    (entriesRequest 14).wellFormed = true ∧ (requestBytes (entriesRequest 14)).length ≤ 60 ∧
    requestBytes (entriesRequest 29) =
      (requestBytes (entriesRequest 29)).take 60 ++ (requestBytes (entriesRequest 29)).drop 60 ∧
    ((requestBytes (entriesRequest 29)).take 60).length ≤ 60 ∧
    ((requestBytes (entriesRequest 29)).drop 60).length ≤ 60 := by decide +kernel

theorem witness_RequestInFourFrames :
    requestBytes (entriesRequest 59) = (requestBytes (entriesRequest 59)).take 60 ++
      [(true, ((requestBytes (entriesRequest 59)).drop 60).take 60),
        (false, ((requestBytes (entriesRequest 59)).drop 120).take 60)].flatMap Prod.snd ++
      (requestBytes (entriesRequest 59)).drop 180 ∧
    (requestBytes (entriesRequest 59)).length = 239 ∧
    ((requestBytes (entriesRequest 59)).drop 180).length ≤ 60 := by decide +kernel

theorem witness_FramesThatReachNoOwner :
    ((List.replicate 60 (0 : Byte)).length ≤ 60 ∧ (atPort (assembling [1])).port.state = .assembling ∧
      (atPort executing).port.state = .executing ∧ (atPort executing).port.discard = false ∧
      (atPort { executing with discard := true }).port.discard = true) ∧
    ((atPort { assembling (List.replicate 240 0) with overflow := true }).port.overflow = true ∧
      240 < (List.replicate 240 (0 : Byte)).length + [(0 : Byte)].length ∧
      (List.replicate 180 (0 : Byte)).length + (List.replicate 60 (0 : Byte)).length ≤ 240 ∧
      decodeRequest ((assembling [54]).stage ++ [0]) = .malformed ∧
      decodeRequest ((assembling []).stage ++ [0]) = .unknown) ∧
    (idle.port.state ≠ .assembling ∧ 60 < (61 : Byte).toNat ∧
      (atPort { Port.initial with receiver := .hunting }).port.receiver = .hunting) := by decide +kernel

theorem witness_FramesFail :
    (decodeRequest [] = .malformed ∧ decodeRequest [55] = .unknown) ∧
    ((1 : Byte).toNat = [(54 : Byte)].length ∧ (7 : Byte).getLsbD 2 = true ∧ 0 ≠ crc8 [7, 1, 54] ∧
      [(7 : Byte), 1, 54, 0] = 7 :: 1 :: ([54] ++ if (7 : Byte).getLsbD 2 then [0] else [])) ∧
    (8 ≤ (8 : Byte).toNat ∧ 8 ≤ (128 : Byte).toNat ∧ (60 : Byte).toNat ≤ 60 ∧
      (List.replicate 60 (0 : Byte)).length < (60 : Byte).toNat + (if (7 : Byte).getLsbD 2 then 1 else 0)) ∧
    ((atPort (assembling [1])).port.state = .assembling ∧ (atPort (assembling [1])).port.receiver = .waiting ∧
      60 < (255 : Byte).toNat) := by decide +kernel

/-- A port that is EXECUTING, with a link answer going out, its own answer behind it and so many frames waiting. -/
def waitingFrames (n : Nat) : Port :=
  { busySending with queue := ⟨.ok, false, [2, 0, 3, 0]⟩ :: List.replicate (n - 1) ⟨.checkFail, true, []⟩ }

/-- A link answer behind 2, 3 and 4 waiting frames, and the request's own answer behind 3 (R171). -/
theorem witness_FramesArePlaced :
    ((waitingFrames 2).queue.length < 3 ∧ ((waitingFrames 2).linkAnswer .sequence).queue.length = 3 ∧
      ((waitingFrames 2).linkAnswer .sequence).queue.getLast? = some ⟨.sequence, true, []⟩) ∧
    (3 ≤ (waitingFrames 3).queue.length ∧ (waitingFrames 3).linkAnswer .sequence = waitingFrames 3 ∧
      (waitingFrames 3).sending.isSome = true ∧
      ((waitingFrames 3).place ⟨.tooLong, false, []⟩).queue.getLast? = some ⟨.tooLong, false, []⟩) ∧
    (3 ≤ (waitingFrames 4).queue.length ∧ (waitingFrames 4).linkAnswer .sequence = waitingFrames 4) ∧
    (waitingFrames 4).lawful = true ∧ ([] : List Byte).length ≤ 255 := by decide +kernel

theorem witness_LinkTimersAndAnswers :
    ((atPort { Port.initial with receiver := .inFrame [3, 60] }).port.receiver = .inFrame [3, 60] ∧
      (atPort (assembling [1])).port.timer = true ∧ (atPort (assembling [1])).port.state = .assembling) ∧
    (atPort executing).port.state = .executing ∧
    (atPort executing).port.sending = some ⟨.ok, false, [2, 0, 3, 0]⟩ ∧ idle.port.sending = none ∧
    (atPort busySending).port.sending = some ⟨.busy, true, []⟩ ∧ (atPort busySending).portLaw = true := by decide +kernel

/-! ### Witnesses: naming a record, the roll and the directory -/

theorem witness_UnknownNamesAndIndicesAreRefused :
    (Instr.withdraw 100000000 0 ∈ namingRequests 100000000 0 ∧ Instr.withdraw 0 8 ∈ namingRequests 0 8 ∧
      writing.lookup 99999999 = none ∧ writing.lookup 20250065 = none ∧ writing.lookup 20250001 ≠ none ∧
      writing.chain 20250001 = [0] ∧ (writing.cand 0).map (fun c => c.sitting.val) ≠ some 7) ∧
    (idle.resetHold = .running ∧ List.replicate 59 (⟨0, 0, 0, 0⟩ : KeyEntryArg) ≠ [] ∧
      (List.replicate 59 (⟨0, 0, 0, 0⟩ : KeyEntryArg)).length ≤ 59 ∧ 8 ≤ 8 ∧ 4 ≤ 4 ∧ 512 ≤ 512 ∧ 1024 ≤ 1024 ∧
      86399 < 86400 ∧ 99999999 < 100000000 ∧ 3600 < 3601) := by decide +kernel

theorem writing_resolves : writing.resolve 20250001 0 = .ok (0, candidate .active (some 0)) := rfl

theorem arriving_resolves :
    arriving.resolve 20250001 0 = .ok (0, { candidate .expected none with
      ext := none, restBudget := none, personalEnd := none }) := rfl

/-- A live record is listed in the roll. -/
theorem of_listed {p : Nat → Candidate → Prop} {s : State} (h : ∀ x ∈ s.roll, p x.1 x.2) :
    ∀ i d, s.cand i = some d → p i d :=
  fun i d e => h (i, d) (mem_of_tableFind s.roll i d e)

theorem witness_EnrolCreatesARecord :
    (chained.storeLaw = true ∧ chained.sittings[5].state = .scheduled ∧ chained.cand 2 = none ∧
      (∀ i, i < 2 → chained.cand i ≠ none) ∧ chained.directoryRoom 20250001 = true) ∧
    (∀ i d, chained.cand i = some d → ¬ (d.number = 20250001 ∧ d.sitting = 5)) ∧
    (paper .writing 2399).e < (paper .writing 2399).r + (paper .writing 2399).l :=
  ⟨by decide +kernel, of_listed (p := fun _ d => ¬ (d.number = 20250001 ∧ d.sitting = 5)) (by decide +kernel),
    by decide⟩

/-- A sitting that is SCHEDULED. -/
def scheduled : State := { idle with hallTime := 30599, sittings := idle.sittings.set 0 (paper .scheduled 0) }

/-- A store that lists the numbers of a list finds each of them. -/
theorem tableFind_listed {α : Type} (f : Nat → α) (j : Nat) : ∀ l : List Nat, j ∈ l →
    tableFind (l.map (fun i => (i, f i))) j = some (f j)
  | [], h => absurd h List.not_mem_nil
  | i :: l, h => by
      by_cases e : i = j
      · simp [tableFind, e]
      · have hj : j ∈ l := (List.mem_cons.mp h).resolve_left (fun x => e x.symm)
        simp [tableFind, e, tableFind_listed f j l hj]

/-- A roll without a free slot. -/
def fullRoll : State :=
  { scheduled with roll := (List.range 1024).map (fun j => (j, { candidate .expected none with number := 7 })) }

/-- A directory without a free page, bucket 17 linked to one page without a free slot. -/
def fullDirectory : State :=
  { scheduled with
    dirRoot := [(17, 0)],
    dirPages := (List.range 160).map (fun p => (p, { slots := Vector.replicate 8 (some ⟨17, 0⟩), next := none })) }

theorem witness_EnrolIsRefused :
    (idle.sittings[0].state ∈ [SittingState.unscheduled, .closing, .closed] ∧
      (paper .writing 2400).r + (paper .writing 2400).l ≤ (paper .writing 2400).e ∧
      scheduled.sittings[0].state ∈ [SittingState.scheduled, .admitting, .reading] ∧
      (∃ y ∈ chained.roll, y.2.number = 20250001 ∧ y.2.sitting = 0)) ∧
    (∀ j, j < 1024 → fullRoll.cand j ≠ none) ∧
    (fullDirectory.lookup 20250001 = none ∧ fullDirectory.bucketPages 17 = [0] ∧
      (∀ x : Fin 8, (slotsOf fullDirectory.dirPages 0)[x] ≠ none) ∧ fullDirectory.cand 0 = none) ∧
    ∀ p, p < 160 → tableFind fullDirectory.dirPages p ≠ none := by
  refine ⟨by decide +kernel, fun j h => ?_, by decide +kernel, fun p h => ?_⟩
  · show tableFind _ j ≠ none
    rw [fullRoll, tableFind_listed _ j _ (List.mem_range.mpr h)]
    exact Option.some_ne_none _
  · rw [fullDirectory, tableFind_listed _ p _ (List.mem_range.mpr h)]
    exact Option.some_ne_none _

theorem witness_EnrolLinksTheDirectory :
    (chained.sittings[5].enrolOpen = true ∧ chained.enrolled 20250001 5 = false ∧
      chained.freeRollSlot = some 2 ∧ chained.directoryRoom 20250001 = true) ∧
    (chained.lookup 20250001 ≠ none ∧ (chained.chain 20250001).length < 8 ∧
      ∀ i ∈ chained.chain 20250001, (chained.cand i).isSome = true) ∧
    (chained.lookup 20250065 = none ∧ (chained.bucketPages (20250065 % 64)).length < 160 ∧
      ∀ p ∈ chained.bucketPages (20250065 % 64), (tableFind chained.dirPages p).isSome = true) ∧
    chained.enrolled 20250065 5 = false ∧ chained.directoryRoom 20250065 = true ∧
    (chained.directoryLaw = true ∧ chained.dirPlace 20250001 = some (0, 0) ∧
      chained.bucketPages (20250065 % 64) = [] ++ 0 :: [] ∧
      (∀ y : Fin 8, y < 1 → (slotsOf chained.dirPages 0)[y] ≠ none) ∧ (slotsOf chained.dirPages 0)[(1 : Fin 8)] = none) ∧
    ({ idle with sittings := chainSittings }.directoryLaw = true ∧
      { idle with sittings := chainSittings }.bucketPages (20250065 % 64) = [] ∧
      tableFind idle.dirPages 0 = none) := by decide +kernel

theorem witness_AmendRewritesTheEnrolment :
    CandState.expected ∈ [CandState.expected, .seated] ∧ CandState.active ∉ [CandState.expected, .seated] := by decide

/-- The candidate expected, seat 0 held. -/
def placed : State :=
  { arriving with
    roll := [(0, candidate .expected (some 0))],
    seats := [(0, seatAt 0 (some 1) .held (some 0) .present), (2, seatAt 3 none .free none .unbound)] }

/-- The candidate writing with a script in a state. -/
def withScript (kind : ScriptKind) (st : ScriptState) : State := { writing with scripts := [(1042262, scriptOf kind st)] }

theorem witness_WithdrawAndSubmitForEndTheRecord :
    (arriving.storeLaw = true ∧ placed.storeLaw = true ∧
      placed.resolve 20250001 0 = .ok (0, candidate .expected (some 0))) ∧
    (writing.storeLaw = true ∧ (candidate .active (some 0)).currentSeat = some 0 ∧
      (∃ y ∈ (withScript .booklet .issued).scripts, y.2.slot = 0 ∧ y.2.state ∈ [ScriptState.issued, .submitted]) ∧
      (∀ y ∈ (withScript .booklet .collected).scripts, y.2.slot = 0 →
        y.2.state ∉ [ScriptState.issued, .submitted])) ∧
    { writing with roll := [(0, candidate .done (some 0))] }.resolve 20250001 0 = .ok (0, candidate .done (some 0)) :=
  ⟨⟨by decide +kernel, by decide +kernel, rfl⟩, by decide +kernel, rfl⟩

/-- The chain of two records, the head of it WITHDRAWN. -/
def retiring : State :=
  { chained with
    roll := [(0, { candidate .expected none with sitting := 3 }), (1, { candidate .withdrawn none with nextRecord := some 0 })],
    scripts := [(1042262, { scriptOf .booklet .handed with slot := 1 })] }

theorem witness_RetireRemovesTheRecord :
    retiring.storeLaw = true ∧
    retiring.resolve 20250001 0 = .ok (1, { candidate .withdrawn none with nextRecord := some 0 }) ∧
    (∀ y ∈ retiring.scripts, y.2.slot = 1 → y.2.state ∈ [ScriptState.marked, .handed, .voided]) ∧
    (retiring.chain 20250001).Nodup ∧ (∀ i ∈ retiring.chain 20250001, (retiring.cand i).isSome = true) ∧
    (retiring.chain 20250001).filter (· != 1) ≠ [] :=
  ⟨by decide +kernel, rfl, by decide +kernel, by decide +kernel, by decide +kernel, by decide +kernel⟩

/-- Two numbers of bucket 17 on one page, 20 250 065 WITHDRAWN in roll slot 1. -/
def paired : State :=
  { writing with
    roll := [(0, candidate .active (some 0)), (1, { candidate .withdrawn none with number := 20250065 })],
    dirPages := [(0, { pageOf 20250001 0 with slots := (pageOf 20250001 0).slots.set 1 (some ⟨20250065, 1⟩) })] }

theorem witness_RetireFreesTheDirectory :
    (paired.storeLaw = true ∧ paired.directoryLaw = true ∧ paired.chain 20250065 = [1] ∧
      paired.dirPlace 20250065 = some (0, 1) ∧ (slotsOf paired.dirPages 0)[(0 : Fin 8)] ≠ none ∧
      paired.resolve 20250065 0 = .ok (1, { candidate .withdrawn none with number := 20250065 })) ∧
    ({ arriving with roll := [(0, candidate .withdrawn none)] }.directoryLaw = true ∧
      { arriving with roll := [(0, candidate .withdrawn none)] }.dirPlace 20250001 = some (0, 0) ∧
      ∀ y : Fin 8, y ≠ 0 → (slotsOf arriving.dirPages 0)[y] = none) ∧
    CandState.active ∉ [CandState.cleared, .absent, .withdrawn] ∧
    (∃ y ∈ marking.scripts, y.2.slot = 0 ∧ y.2.state = .marking) ∧
    (∀ y ∈ (withScript .booklet .collected).scripts, y.2.slot = 0 → y.2.state ≠ .marking) ∧
    (∃ y ∈ (withScript .booklet .collected).scripts, y.2.slot = 0 ∧
      y.2.state ∈ [ScriptState.issued, .submitted, .collected]) :=
  ⟨⟨by decide +kernel, by decide +kernel, by decide +kernel, by decide +kernel, by decide +kernel, rfl⟩,
    by decide +kernel, by decide, by decide +kernel, by decide +kernel, by decide +kernel⟩

/-! ### Witnesses: the clock and the sittings -/

theorem witness_SetClockAndRetireSitting :
    (∀ k : Fin 8, scheduled.sittings[k].state ∈ [SittingState.unscheduled, .closed] ∨
      (scheduled.sittings[k].state = .scheduled ∧
        30599 + scheduled.sittings[k].aw < scheduled.sittings[k].t0)) ∧
    scheduled.sittings[0].t0 ≤ 30600 + scheduled.sittings[0].aw ∧
    writing.sittings[0].state ∈ [SittingState.admitting, .reading, .writing, .closing] ∧
    (∃ y ∈ arriving.roll, y.2.sitting = 0) ∧ (∀ y ∈ scheduled.roll, y.2.sitting ≠ 0) := by decide +kernel

theorem witness_ScheduleWritesTheTimetable :
    idle.storeLaw = true ∧ idle.sittings[0].state ∈ [SittingState.unscheduled, .scheduled] ∧
    roomListOf ⟨2, 1, 0, 3, 9⟩ = some [1, 0] ∧ roomListOf ⟨2, 0, 1, 0, 0⟩ = some [0, 1] ∧ 62999 + 1800 + 21600 ≤ 86399 ∧ idle.hallTime < 62999 ∧
    (∀ y ∈ idle.roll, y.2.sitting ≠ 0) ∧ (∃ y ∈ chained.roll, y.2.sitting = 0) ∧
    chained.storeLaw = true ∧ chained.directoryLaw = true ∧ chained.sittings[3].state = .scheduled ∧
    writing.sittings[0].state ∉ [SittingState.unscheduled, .scheduled] ∧ ¬ (600 ≤ 599) ∧ 31200 ≤ arriving.hallTime := by
  decide +kernel

/-- Sitting 0 in WRITING with hold sources. -/
def held (h : HoldSources) : State := { writing with sittings := writing.sittings.set 0 { paper .writing 3600 with hold := h } }

theorem witness_HoldAndResumeChangeTheSource :
    (held ⟨false, true⟩).sittings[0].state ∈ [SittingState.reading, .writing, .closing] ∧
    (held ⟨false, true⟩).sittings[0].hold = ⟨false, true⟩ ∧ (held ⟨true, true⟩).sittings[0].hold ≠ ⟨false, true⟩ ∧
    idle.sittings[0].state ∉ [SittingState.reading, .writing, .closing] := by decide +kernel

theorem witness_ExtendLengthensTheSitting :
    (closing 3600 3900).storeLaw = true ∧
    (closing 3600 3900).sittings[4].state ∈ [SittingState.reading, .writing, .closing] ∧ 1 ≤ 3600 ∧ 3600 ≤ 3600 ∧
    writing.cand 0 = some (candidate .active (some 0)) ∧ writing.sittings[0].w ≠ min (writing.sittings[0].w + 1) 21600 :=
  ⟨by decide +kernel, by decide +kernel, by decide, by decide, rfl, by decide +kernel⟩

theorem witness_SittingClosesWhenNoRecordIsLeft :
    (∀ y ∈ (closing 3600 3900).roll, y.2.sitting = 4 → y.2.state ∉ [CandState.seated, .active, .resting] ∧
      (y.2.state = .expected → y.2.currentSeat = none)) ∧
    (closing 3600 3900).sittings[4].state = .closing ∧ (closing 3600 3900).sittings[3].state ≠ .closing ∧
    (∃ y ∈ placed.roll, y.2.sitting = 0 ∧ (y.2.state ∈ [CandState.seated, .active, .resting] ∨
      (y.2.state = .expected ∧ y.2.currentSeat ≠ none))) := by decide +kernel

theorem witness_HallSecondMovesTheClock :
    writing.resetHold = .running ∧ writing.sittings[0].running = true ∧ writing.segments[0].line ≠ .disabled := by
  decide +kernel

/-- Sitting 0 in a phase at a hall time. -/
def phase (now : Nat) (g : Sitting) : State :=
  { writing with hallTime := now, sittings := writing.sittings.set 0 g }

theorem witness_HallSecondChangesThePhase :
    scheduled.storeLaw = true ∧ scheduled.hallTime + 1 < 86399 ∧ 30600 + scheduled.sittings[0].aw =
      scheduled.sittings[0].t0 ∧ 0 < scheduled.sittings[0].aw ∧
    (phase 32399 (paper .admitting 0)).sittings[0].t0 = 32399 + 1 ∧
    (phase 32999 (paper .reading 599)).sittings[0].r ≤ 599 + 1 ∧
    (phase 32998 (paper .reading 598)).sittings[0].r > 598 + 1 ∧
    (phase 40199 (paper .writing 7799)).sittings[0].r + (phase 40199 (paper .writing 7799)).sittings[0].w ≤ 7799 + 1 ∧
    (phase 40199 (paper .writing 7799)).roll.any (fun y => y.2.sitting == 0 &&
      ([CandState.seated, .active, .resting].contains y.2.state ||
        (y.2.state == .expected && y.2.currentSeat.isSome))) = true ∧
    (phase 40199 (paper .writing 7799)).storeLaw = true := by decide +kernel

/-- The candidate expected, with seat 0 held, at a time and in a phase of the sitting. -/
def awaited (now : Nat) (g : Sitting) : State :=
  { placed with hallTime := now, sittings := placed.sittings.set 0 g }

/-- A sitting with no time for late arrival, at the second before T0. -/
def sharpStart : State := awaited 32399 { paper .admitting 0 with r := 0, l := 0 }

/-- Admission closes at T0 where R + L is 0 (R29, R59). -/
theorem test_absent_at_the_start :
    ((after .hallSecond sharpStart).cand 0).map (fun c => (c.state, c.currentSeat)) = some (.absent, none) ∧
    ((after .hallSecond sharpStart).seat 0).state = .free := by decide +kernel

theorem witness_AdmissionCloses :
    (sharpStart.storeLaw && sharpStart.seatLaw) = true ∧ sharpStart.hallTime + 1 = 32400 ∧
    sharpStart.sittings[0].state = .admitting ∧ sharpStart.sittings[0].t0 = 32400 ∧
    sharpStart.sittings[0].r + sharpStart.sittings[0].l = 0 ∧
    (sharpStart.cand 0).map (fun c => (c.state, c.currentSeat)) = some (.expected, some 0) ∧
    ((awaited 34799 (paper .writing 2399)).storeLaw && (awaited 34799 (paper .writing 2399)).seatLaw) = true ∧
    2399 + 1 = 600 + 1800 ∧ (awaited 34000 (paper .writing 1600)).storeLaw = true ∧ 1600 + 1 ≠ 600 + 1800 := by
  decide +kernel

theorem witness_HallSecondAgesTheRecords :
    writing.storeLaw = true ∧ writing.hallTime + 1 < 86399 ∧
    writing.cand 0 = some (candidate .active (some 0)) ∧ writing.sittings[0].running = true ∧
    ¬ ((candidate .active (some 0)).state = .active ∧
      min 86399 (32400 + 0 + 600 + 7200 + (candidate .active (some 0)).ext.getD 0 + 0) ≤ writing.hallTime + 1) ∧
    min 86399 (32400 + 750 + 600 + 7200 + 1800 + 400) ≤ 43149 + 1 ∧
    (paper .admitting 0).t0 = 32399 + 1 ∧
    (paper .writing 2399).e + 1 = (paper .writing 2399).r + (paper .writing 2399).l := by decide +kernel

/-- The last second but one of the hall day, sitting 0 still writing. -/
def beforeDayEnd : State := phase 86398 { paper .writing 7000 with t0 := 79398 }

/-- The same second, held long enough for the admission to be still open, with a candidate who has not come. -/
def openAtDayEnd : State := awaited 86398 { paper .writing 1600 with t0 := 78600, h := 6198 }

theorem witness_DayEndStopsTheWriting :
    beforeDayEnd.resetHold = .running ∧ beforeDayEnd.storeLaw = true ∧ beforeDayEnd.hallTime = 86398 ∧
    beforeDayEnd.sittings[0].running = true ∧ beforeDayEnd.cand 0 = some (candidate .active (some 0)) ∧
    (openAtDayEnd.storeLaw && openAtDayEnd.seatLaw) = true ∧ openAtDayEnd.hallTime = 86398 ∧
    (openAtDayEnd.cand 0).map (fun c => (c.state, c.currentSeat)) = some (.expected, some 0) ∧
    openAtDayEnd.sittings[0].state = .writing ∧ openAtDayEnd.sittings[0].l ≤ openAtDayEnd.sittings[0].w ∧
    openAtDayEnd.sittings[0].e < openAtDayEnd.sittings[0].r + openAtDayEnd.sittings[0].l := by
  decide +kernel

/-- Day end closes an admission that is still open (R38, R59). -/
theorem test_absent_at_day_end :
    ((after .hallSecond openAtDayEnd).cand 0).map (fun c => (c.state, c.currentSeat)) = some (.absent, none) ∧
    ((after .hallSecond openAtDayEnd).seat 0).state = .free := by decide +kernel

theorem witness_HallHoldInputIsFiltered :
    { idle with holdFilter := ⟨true, false, false, true⟩ }.holdFilter.waiting = true ∧
    idle.holdFilter.waiting = false ∧ { idle with resetHold := .hallReset }.resetHold ≠ .running := by decide

/-! ### Witnesses: seats, rooms and admission -/

/-- A seat is defined by a listed record. -/
theorem of_listed_seat {p : Nat → Seat → Prop} {s : State} (h : ∀ x ∈ s.seats, p x.1 x.2)
    (h0 : ∀ i, p i Seat.undefinedRecord) (i : Nat) : p i (s.seat i) := by
  unfold State.seat
  cases e : tableFind s.seats i with
  | none => exact h0 i
  | some v => exact h (i, v) (mem_of_tableFind s.seats i v e)

/-- Seat 2 is taken out of use at the place of seat 0, or at another place with seat 0's desk address. -/
def takenOut (column : Nat) : State :=
  { arriving with
    seats := [(0, seatAt 0 (some 1) .free none .present), (2, seatAt column (some 1) .outOfUse none .unbound)] }

/-- SEAT_STATE brings no seat back to a taken position, or with a taken desk address, nor one never defined (R46). -/
theorem test_seat_not_brought_back :
    answer (.seatState 2 1) (takenOut 0) = some (.positionTaken, []) ∧
    answer (.seatState 2 1) (takenOut 5) = some (.addressTaken, []) ∧
    answer (.seatState 9 1) (takenOut 0) = some (.state, []) := by decide +kernel

theorem witness_SeatsAreBroughtBack :
    (takenOut 0).storeLaw = true ∧ (takenOut 5).storeLaw = true ∧ ((takenOut 0).seat 2).state = .outOfUse ∧
    ((takenOut 0).seat 2).place = some ⟨0, 0, 0, some 1, 0⟩ ∧ ((takenOut 5).seat 2).place = some ⟨0, 0, 5, some 1, 0⟩ ∧
    ((takenOut 0).seat 0).state ≠ .outOfUse ∧ ((takenOut 0).seat 0).place = some ⟨0, 0, 0, some 1, 0⟩ := by
  decide +kernel

theorem witness_SeatsAreDefinedAndTakenOut :
    (512 ≤ 512 ∧ 4 ≤ 4 ∧ 31 < 32 ∧ 128 < 129 ∧ (arriving.seat 511).place = none) ∧
    arriving.storeLaw = true ∧ (arriving.seat 511).state = .outOfUse ∧ (arriving.seat 0).state ≠ .outOfUse ∧
    (∃ q, (arriving.seat 1).place = some q ∧ q.room = 0 ∧ q.row = 0 ∧ q.column = 1 ∧ q.desk = some 2) ∧
    (∀ y q, y ≠ 511 → (arriving.seat y).state ≠ .outOfUse → (arriving.seat y).place = some q → q.room = 3 →
      ¬ (q.row = 31 ∧ q.column = 31)) ∧
    (writing.seat 0).state ∈ [SeatState.held, .occupied, .vacated] ∧ (arriving.seat 2).state = .free ∧
    { arriving with seats := [(2, seatAt 3 none .outOfUse none .unbound)] }.storeLaw = true := by
  refine ⟨by decide +kernel, by decide +kernel, by decide +kernel, by decide +kernel, ⟨_, rfl, rfl, rfl, rfl, rfl⟩, ?_,
    by decide +kernel, by decide +kernel, by decide +kernel⟩
  intro y
  refine of_listed_seat (p := fun y v => ∀ q, y ≠ 511 → v.state ≠ .outOfUse → v.place = some q → q.room = 3 →
    ¬ (q.row = 31 ∧ q.column = 31)) (s := arriving) ?_ ?_ y
  · intro x hx q _ _ hq hr
    have : ∀ x ∈ arriving.seats, (x.2.place.map SeatPlace.room) = some 0 := by decide +kernel
    have h := this x hx
    rw [hq] at h
    injection h with h
    exact absurd (hr.symm.trans h) (by decide)
  · intro i q _ h
    exact absurd rfl h

theorem witness_SetRoomSetsTheRoom :
    (∃ y ∈ writing.seats, ∃ p, y.2.place = some p ∧ p.room = 0 ∧ y.2.state ∈ [SeatState.held, .occupied, .vacated]) ∧
    (Separation.full ≠ writing.rooms[0].separation) ∧ writing.rooms[0].enabled = true ∧
    idle.rooms[0].enabled = false ∧ idle.seats = [] := by
  refine ⟨⟨_, List.mem_cons_self, _, rfl, rfl, by decide⟩, by decide +kernel, by decide +kernel, by decide +kernel, rfl⟩

theorem witness_AllocationTakesTheFirstRoom :
    (seatAt 0 (some 1) .free none .present).place = some ⟨0, 0, 0, some 1, 0⟩ ∧
    arriving.admissible (candidate .expected none) (seatAt 0 (some 1) .free none .present) = true ∧
    arriving.allocate (candidate .expected none) [1, 0] = some 0 ∧
    arriving.allocate (candidate .expected none) [1] = none ∧
    surplus ⟨1, 1, 3, some 8, 12⟩ { candidate .expected none with required := 8 } = 1 ∧
    fillRank .serpentine ⟨1, 1, 3, none, 0⟩ < fillRank .serpentine ⟨1, 1, 2, none, 0⟩ := by decide +kernel

/-- The record of the candidate that arrives. -/
def arriver : Candidate := { candidate .expected none with ext := none, restBudget := none, personalEnd := none }

theorem witness_AdmitForSeatsTheCandidate :
    arriving.storeLaw = true ∧ arriving.resolve 20250001 0 = .ok (0, arriver) ∧
    (∀ j' d, j' ∈ arriving.chain 20250001 → arriving.cand j' = some d →
      d.state ∉ [CandState.seated, .active, .resting, .done]) ∧
    arriving.sittings[0].admissionOpen = true ∧ arriving.seatFor arriver = some 0 ∧
    (arriving.seat 0).place = some ⟨0, 0, 0, some 1, 0⟩ ∧
    (phase 34000 (paper .writing 1600)).sittings[0].admissionOpen = true ∧
    idle.sittings[0].admissionOpen = false ∧ { arriving with seats := [] }.seatFor arriver = none := by
  refine ⟨by decide +kernel, rfl, ?_, by decide +kernel, by decide +kernel, by decide +kernel, by decide +kernel,
    by decide +kernel, by decide +kernel⟩
  exact fun j' d _ => of_listed (s := arriving)
    (p := fun _ d => d.state ∉ [CandState.seated, .active, .resting, .done]) (by decide +kernel) j' d

theorem witness_AdmitForInAnotherSitting :
    (∃ j' d, j' ∈ chained.chain 20250001 ∧ chained.cand j' = some d ∧
      d.state ∉ [CandState.seated, .active, .resting, .done]) ∧
    (∃ j' d, j' ∈ writing.chain 20250001 ∧ writing.cand j' = some d ∧
      d.state ∈ [CandState.seated, .active, .resting, .done]) :=
  ⟨⟨0, _, by decide +kernel, rfl, by decide⟩, ⟨0, _, by decide +kernel, rfl, by decide⟩⟩

theorem witness_PlaceUnplaceAndMove :
    arriving.storeLaw = true ∧ (arriving.seat 0).state = .free ∧ arriving.rooms[0].enabled = true ∧
    (0 : Fin 4) ∈ arriving.sittings[0].rooms ∧ (3 : Fin 4) ∉ arriving.sittings[0].rooms ∧
    includesAll 0 (candidate .expected none).required = true ∧ includesAll 0 1 = false ∧
    arriving.blocked none ⟨0, 0, 0, some 1, 0⟩ 0 = false ∧ writing.blocked none ⟨0, 0, 1, some 2, 0⟩ 0 = true ∧
    writing.blocked (some 0) ⟨0, 0, 1, some 2, 0⟩ 0 = false ∧ (writing.seat 1).state = .free ∧
    (writing.seat 1).deskStatus ≠ .lost ∧ placed.cand 0 = some (candidate .expected (some 0)) ∧
    (writing.seat 300).place = none ∧ (writing.seat 0).state ≠ .free ∧ fullRoom.rooms[0].enabled = false ∧
    (fullRoom.seat 2).deskStatus = .lost ∧ fullRoom.blocked none ⟨1, 0, 1, some 2, 0⟩ 2 = true := by decide +kernel

/-! ### Witnesses: personal time, segments and custody -/

/-- The candidate at rest. -/
def resting : State := { writing with roll := [(0, candidate .resting (some 0))] }

theorem witness_PersonalTimesAndRest :
    (7200 * 25 ≤ 6000 * 30 ∧ 7200 * 8 ≤ 60 * 960 ∧
      { candidate .active (some 0) with allowance := 0, restUsed := 0 }.allowance = 0) ∧
    resting.resolve 20250001 0 = .ok (0, candidate .resting (some 0)) ∧
    writing.sittings[0].state ∈ [SittingState.writing, .closing] ∧ writing.sittings[0].held = false ∧
    (held ⟨true, false⟩).sittings[0].held = true ∧
    (candidate .active (some 0)).restUsed < (candidate .active (some 0)).restBudget.getD 0 ∧
    { candidate .active (some 0) with restUsed := 960 }.restBudget.getD 0 ≤ 960 :=
  ⟨by decide, rfl, by decide +kernel, by decide +kernel, by decide +kernel, by decide, by decide⟩

theorem witness_DirectedQueueTakesAMessage :
    (∀ f ∈ ends 8, ¬ (f.address = 19 ∧ f.content.kind = ShowKind.ending)) ∧ 8 ≤ (ends 8).length ∧ (ends 7).length < 8 ∧
    (∃ f ∈ ends 8, f.address = 15 ∧ f.content.kind = ShowKind.ending) ∧ distinctEntries (ends 8) = true ∧
    (writing.seat 0).binds = some (0, 1) ∧ writing.segments[0].line ≠ .disabled ∧
    (writing.seat 0).deskStatus = .present ∧ idle.segments[0].line = .disabled ∧
    writing.segments[0].postStatus = .present ∧ idle.segments[0].postStatus = .unknown ∧
    (writing.seat 2).binds = none := by decide +kernel

theorem witness_SentMessagesLeadToTheNext :
    (sending (.poll 1)).sending = some (.poll 1) ∧ (sending (.poll 1)).pollVoided = false ∧
    (sending (.time 0 0)).line = .master ∧ { sending (.time 0 0) with timeDue := true }.timeDue = true ∧
    (1 ∈ writing.boundAddresses 0 ∧ 0 < 1 ∧ ∀ b ∈ writing.boundAddresses 0, 0 < b → 1 ≤ b) ∧
    (∀ b ∈ writing.boundAddresses 0, b ≤ 2) ∧
    (CandState.resting, 2) ∈ [(CandState.active, 1), (.resting, 2), (.done, 3)] := by decide +kernel

theorem witness_GoodAnswersAreDelivered :
    (awaiting 1 (seatAt 0 (some 1) .occupied (some 0) .present)).segments[0].line = .awaiting 1 ∧
    parseAnswer (withCheck [4, 1, 0]) = some (1, .null) ∧ parseAnswer (withCheck [4, 1, 2, 1]) = some (1, .hand true) ∧
    parseAnswer (withCheck [4, 1, 1, 0x01, 0x34, 0xFD, 0x91]) = some (1, .tap 20250001) ∧
    (awaiting 1 (seatAt 0 (some 1) .occupied (some 0) .present)).boundSeat 0 1 = some 0 ∧
    (awaiting 1 (seatAt 0 (some 1) .occupied (some 0) .present)).storeLaw = true ∧
    0 ∈ (awaiting 1 (seatAt 0 (some 1) .occupied (some 0) .present)).chain 20250001 ∧
    0 ∉ (awaiting 1 (seatAt 0 (some 1) .occupied (some 0) .present)).chain 99999999 ∧
    (seatAt 0 (some 1) .occupied (some 0) .lost).deskStatus ∈ [DeskStatus.lost, .unknown] ∧
    (writing.seat 0).candidate = some 0 ∧ (writing.seat 0).place = some ⟨0, 0, 0, some 1, 0⟩ ∧
    (candidate .active (some 0)).personalEnd = some 42000 := by decide +kernel

/-- The candidate CONFIRMED at her desk. -/
def confirmed : State :=
  { writing with roll := [(0, { candidate .active (some 0) with
      flags := ⟨true, false, false, false, false, false, false⟩ })] }

/-- The candidate DONE at seat 0. -/
def finished : State :=
  { withScript .booklet .submitted with
    roll := [(0, candidate .done (some 0))], seats := [(0, seatAt 0 (some 1) .vacated (some 0) .present)] }

/-- The badge of the candidate at a held seat and another badge at a vacated one (R61). -/
theorem test_badge_at_the_desk :
    ((deliverDesk 0 (.tap 20250001) sharpStart).segments[0].queue.map ShowEntry.content) = [.notice .notAllocated] ∧
    ((deliverDesk 0 (.tap 7) finished).segments[0].queue.map ShowEntry.content) = [.notice .wrongSeat] ∧
    (deliverDesk 0 (.tap 7) finished).rooms[0].lastWrongSeat.map (fun w => (w.seat, w.number)) = some (0, 7) := by
  decide +kernel

theorem witness_TapsAtADesk :
    ((sharpStart.seat 0).state = .held ∧ (sharpStart.seat 0).candidate = some 0 ∧ 0 ∈ sharpStart.chain 20250001) ∧
    ((writing.seat 0).state = .occupied ∧ 0 ∈ writing.chain 20250001 ∧ 0 ∉ writing.chain 7 ∧
      (writing.seat 0).place = some ⟨0, 0, 0, some 1, 0⟩) ∧
    ((finished.seat 0).state = .vacated ∧ 0 ∈ finished.chain 20250001 ∧ 0 ∉ finished.chain 7 ∧
      99999999 < 100000000) := by decide +kernel

theorem witness_DeskEventsReachTheirOwners :
    ((writing.seat 1).state ∈ [SeatState.free, .held] ∧ (seatAt 0 (some 1) .vacated (some 0) .present).state = .vacated) ∧
    ((writing.seat 0).state = .occupied ∧ (writing.seat 0).candidate = some 0 ∧
      writing.cand 0 = some (candidate .active (some 0)) ∧ resting.cand 0 = some (candidate .resting (some 0)) ∧
      writing.sittings[0].state ∈ [SittingState.writing, .closing] ∧ writing.sittings[0].held = false ∧
      (held ⟨true, false⟩).sittings[0].held = true ∧
      { candidate .active (some 0) with restUsed := 960 }.restBudget.getD 0 ≤ 960) ∧
    (writing.storeLaw = true ∧ writing.sittings[0].r + writing.sittings[0].e1 ≤ writing.sittings[0].e ∧
      writing.sittings[0].e2 < 42000 - writing.hallTime ∧ (paper .writing 2399).e < 600 + (paper .writing 2399).e1 ∧
      42000 - 41100 ≤ (paper .writing 0).e2) ∧
    (validSerial 5123845 = false ∧ validSerial 1042262 = true ∧
      (withScript .booklet .issued).script 1042262 = some (scriptOf .booklet .issued) ∧
      { scriptOf .booklet .issued with slot := 1 }.slot ≠ 0 ∧ (writing.seat 0).binds = some (0, 1) ∧
      (writing.seat 0).place = some ⟨0, 0, 0, some 1, 0⟩ ∧ confirmed.script 1042262 = none ∧
      (confirmed.cand 0).map (fun c => c.flags.confirmed) = some true ∧ (confirmed.boundScripts 0).length < 4 ∧
      confirmed.scripts.length < 2048) := by decide +kernel

/-- The candidate arriving, the post of room 0 awaited. -/
def atTheDoor : State :=
  { arriving with
    segments := idle.segments.set 0 { Segment.initial with line := .awaiting 0, postStatus := .present, rotation := 1 } }

/-- A badge at the door (event 1) takes the candidate to seat 0: the post is shown it (R52, R54, R56). -/
theorem test_badge_at_the_door :
    ((after (.deskAnswer 0 false (withCheck [4, 0, 1, 0x01, 0x34, 0xFD, 0x91])) atTheDoor).cand 0).map
        (fun c => (c.state, c.currentSeat)) = some (.seated, some 0) ∧
    (after (.deskAnswer 0 false (withCheck [4, 0, 1, 0x01, 0x34, 0xFD, 0x91])) atTheDoor).segments[0].sending =
      some (.show_ ⟨0, .seat 0 0 0 20250001 0⟩) := by decide +kernel

/-- A badge with no directory entry is refused with NOT_ENROLLED, one ADMISSION cause and the last refusal (R52, R55). -/
theorem test_unknown_badge_at_the_door :
    (after (.deskAnswer 0 false (withCheck [4, 0, 1, 0, 0, 0, 9])) atTheDoor).rooms[0].lastRefusal =
      some ⟨9, .notEnrolled, 31200⟩ ∧
    (after (.deskAnswer 0 false (withCheck [4, 0, 1, 0, 0, 0, 9])) atTheDoor).attention[0] = ⟨false, 0, true, 1⟩ := by
  decide +kernel

theorem witness_PostEventsAreTaken :
    (atTheDoor.resetHold = .running ∧ atTheDoor.segments[0].line = .awaiting 0 ∧
      parseAnswer (withCheck [4, 0, 1, 0x01, 0x34, 0xFD, 0x91]) = some (0, .tap 20250001) ∧
      (awaiting 9 (seatAt 0 (some 1) .occupied (some 0) .present)).boundSeat 0 9 = none ∧
      parseAnswer (withCheck [4, 9, 4]) = some (9, .submit)) ∧
    (atTheDoor.storeLaw = true ∧ atTheDoor.chain 20250001 = [] ++ 0 :: [] ∧
      atTheDoor.lookup 20250001 ≠ none ∧ atTheDoor.holdFilter.filtered = false ∧
      (∀ j ∈ atTheDoor.chain 20250001, atTheDoor.inStates [.seated, .active, .resting, .done] j = false) ∧
      (atTheDoor.cand 0).map (fun c => (c.state, atTheDoor.sittings[c.sitting].admissionOpen)) =
        some (.expected, true) ∧
      atTheDoor.seatFor arriver = some 0 ∧ atTheDoor.cand 0 = some arriver ∧
      { atTheDoor with seats := [] }.seatFor arriver = none ∧ atTheDoor.lookup 9 = none) ∧
    (validSerial 5123845 = false ∧ validSerial 1042262 = true ∧ writing.script 1042262 = none ∧
      (withScript .booklet .voided).script 1042262 = some (scriptOf .booklet .voided) ∧
      finished.storeLaw = true ∧ finished.script 1042262 = some (scriptOf .booklet .submitted) ∧
      finished.cand 0 = some (candidate .done (some 0)) ∧ (finished.seat 0).place = some ⟨0, 0, 0, some 1, 0⟩ ∧
      (∀ z ∈ tableInsert finished.scripts 1042262 (scriptOf .booklet .collected), z.2.slot = 0 →
        z.2.state ∉ [ScriptState.issued, .submitted]) ∧
      { candidate .done (some 0) with seatOfRecord := some ⟨0, 0, 0, 0⟩ }.seatOfRecord = some ⟨0, 0, 0, 0⟩) := by
  decide +kernel

theorem witness_MissedAnswersCountToLost :
    (awaiting 0 (seatAt 0 (some 1) .occupied (some 0) .present)).segments[0].line = .awaiting 0 ∧
    (awaiting 1 (seatAt 0 (some 1) .occupied (some 0) .present)).boundSeat 0 1 = some 0 ∧
    (awaiting 9 (seatAt 0 (some 1) .occupied (some 0) .present)).boundSeat 0 9 = none ∧
    parseAnswer [4, 1, 0, 0] = none ∧ parseAnswer (withCheck [4, 2, 4]) = some (2, .submit) ∧
    (awaiting 1 (seatAt 0 (some 1) .occupied (some 0) .present)).storeLaw = true := by decide +kernel

theorem witness_HandsAndRoomResets :
    idle.segments[0].line = .disabled ∧ (sending (.poll 1)).line = .master ∧
    (sending (.poll 1)).sending.isSome = true ∧
    (awaiting 128 (seatAt 0 (some 1) .occupied (some 0) .present)).segments[0].sending = none := by decide +kernel

/-- The layouts meet a seat with a place and one without, a candidate on a chain, and keys in every state. -/
theorem witness_AnswersAreLaidOut :
    (writing.seat 0).place = some ⟨0, 0, 0, some 1, 0⟩ ∧ (writing.seat 511).place = none ∧
    writing.cand 0 = some (candidate .active (some 0)) ∧ (loading entries).keys[0].state = .loading ∧
    tableSorted (loading entries).keys[0].entries = true ∧ KeySlot.emptySlot.state = .empty ∧
    (key .sealed_).state ∈ [KeyState.sealed_, .released] ∧ (key .sealed_).derived.isSome = true ∧
    (-32768 : Int) ≤ -1 ∧ (-1 : Int) ≤ 32767 ∧ beInt2 (-1) = [255, 255] := by decide +kernel

theorem witness_ReadsAnswerTheRecords :
    (writing.resolve 20250001 0 = .ok (0, candidate .active (some 0)) ∧
      writing.cand 0 = some (candidate .active (some 0)) ∧ writing.cand 1023 = none ∧
      (writing.lookup 20250001).isSome = true) ∧
    (validSerial 1042262 = true ∧
      (withScript .booklet .issued).script 1042262 = some (scriptOf .booklet .issued) ∧
      (withScript .booklet .issued).scripts[0]? = some (1042262, scriptOf .booklet .issued) ∧
      (withScript .booklet .issued).scripts.length ≤ 1) ∧
    (9999999 < 10000000 ∧ 5123845 ≤ 9999999 ∧ validSerial 5123845 = false ∧ validSerial 1042270 = true ∧
      (withScript .booklet .issued).script 1042270 = none) ∧
    ((loading entries).keys[0].state ∈ [KeyState.loading, .released] ∧
      1 + 6 ≤ (loading entries).keys[0].header.q + 1 ∧ (loading entries).keys[0].header.q + 1 < 2 + 6 ∧
      writing.keys[0].state ∈ [KeyState.empty, .sealed_]) :=
  ⟨⟨rfl, rfl, rfl, rfl⟩, by decide +kernel, by decide +kernel, by decide +kernel⟩

theorem witness_IssueBindsAScript :
    9999999 < 10000000 ∧
    (withScript .booklet .issued).script 1042262 = some (scriptOf .booklet .issued) ∧
    { scriptOf .booklet .issued with slot := 1 }.slot ≠ 0 ∧ writing.script 1042262 = none ∧
    (writing.boundScripts 0).length < 4 ∧ writing.scripts.length < 2048 ∧
    (writing.seat 0).place = some ⟨0, 0, 0, some 1, 0⟩ ∧
    4 ≤ ({ writing with scripts := [(1042262, scriptOf .booklet .voided), (1042270, scriptOf .booklet .voided),
      (1042289, scriptOf .booklet .voided), (5123844, scriptOf .sheet .issued)] }.boundScripts 0).length := by
  decide +kernel

/-- The custody table can be full. -/
theorem witness_IssueIntoAFullTable :
    ((List.range 2048).map (fun d => (d, { scriptOf .booklet .issued with slot := 1 }))).length = 2048 := by
  rw [List.length_map, List.length_range]

theorem witness_ScriptsAreVoidedAndHandedOver :
    (9999999 < 10000000 ∧ 5123845 ≤ 9999999 ∧ validSerial 5123845 = false ∧ validSerial 1042270 = true ∧
      finished.script 1042270 = none) ∧
    finished.storeLaw = true ∧ finished.script 1042262 = some (scriptOf .booklet .submitted) ∧
    finished.cand 0 = some (candidate .done (some 0)) ∧
    (∀ z ∈ tableInsert finished.scripts 1042262 (scriptOf .booklet .voided), z.2.slot = 0 →
      z.2.state ∉ [ScriptState.issued, .submitted]) ∧
    (∃ z ∈ tableInsert (tableInsert finished.scripts 5123844 (scriptOf .sheet .submitted)) 1042262
      (scriptOf .booklet .voided), z.2.slot = 0 ∧ z.2.state ∈ [ScriptState.issued, .submitted]) := by decide +kernel

/-! ### Witnesses: keys, sheets, marks and the blocks of Chapter 10 -/

theorem witness_KeysAreLoadedSealedAndDiscarded :
    (writing.sittings[0].state ≠ .unscheduled ∧ writing.keys[0].state = .empty ∧
      ∀ i : Fin 4, 1 ≤ header.caps[i] ∧ header.caps[i] ≤ 7200) ∧
    (∀ i : Fin 7, header.bounds[i] ≤ 1001) ∧ (loading []).keys[0].state = .loading ∧
    (2 : Byte).getLsbD 7 = false ∧ (2 : Byte).setWidth 5 ≠ (0 : BitVec 5) ∧ (128 : Byte).getLsbD 7 = true ∧
    tableFind (entries.take 4) 5 = none ∧ (∀ q', q' < 5 → 1 ≤ q' → tableFind (entries.take 4) q' ≠ none) ∧
    (∀ q, q < 7 → 1 ≤ q → tableFind entries q ≠ none) ∧ header.te < header.tf ∧
    (∀ i j : Fin 7, i ≤ j → header.bounds[i] ≤ header.bounds[j]) ∧
    (∀ y ∈ writing.scripts, y.2.sitting = 0 → y.2.state ∉ [ScriptState.marking, .marked]) ∧
    (∃ y ∈ marking.scripts, y.2.sitting = 0 ∧ y.2.state = .marking) ∧
    (loading []).storeLaw = true ∧ (loading entries).storeLaw = true ∧ ¬ (1 ≤ (0 : Nat)) ∧
    (4 : Byte).setWidth 5 ≠ (0 : BitVec 5) ∧ (64 : Byte).setWidth 5 = (0 : BitVec 5) ∧
    [(⟨4, 8, 0, 1⟩ : KeyEntryArg), ⟨4, 0, 0, 1⟩][1]? = some ⟨4, 0, 0, 1⟩ ∧
    (#v[400, 300, 600, 700, 1001, 1001, 1001] : Vector Nat 7)[(1 : Fin 7)] <
      (#v[400, 300, 600, 700, 1001, 1001, 1001] : Vector Nat 7)[(0 : Fin 7)] ∧
    (∃ y ∈ (withScript .sheet .marked).scripts, y.2.sitting = 0 ∧ y.2.state = .marked) := by decide +kernel

/-- An intake with a verdict of each kind. -/
def fourVerdicts : Intake :=
  { Intake.initial with
    buffers := #v[{ SheetBuffer.freeBuffer with verdict := some .accept },
      { SheetBuffer.freeBuffer with verdict := some (.reject .duplicatePage) },
      { SheetBuffer.freeBuffer with verdict := some .acceptReview },
      { SheetBuffer.freeBuffer with verdict := some .cleared }] }

/-- The good scanner frames and the others (Section 10.4). -/
theorem witness_ScannerFramesAreRead :
    scannerCommand (withCheck (be1 11 ++ be3 16777215 ++ be1 255 ++ be1 22 ++ be1 25 ++ be1 19 ++ be1 26)) =
      .sheetBegin 16777215 255 22 25 19 26 ∧
    scannerCommand (withCheck (be1 12 ++ be1 1 ++ be1 0 ++ be1 90 ++ be1 0 ++ be1 0 ++ be1 255)) =
      .row 1 0 90 0 0 255 ∧
    (∀ v ∈ [Verdict.accept, .acceptReview, .cleared], (v, v.kindCode, 0) ∈
      [(Verdict.accept, 1, 0), (.acceptReview, 2, 0), (.cleared, 4, 0)]) ∧
    fourVerdicts.buffers[1].verdict = some (.reject .duplicatePage) := by decide +kernel

theorem witness_ScannerFramesFillTheSheets :
    idle.intakeLaw = true ∧ State.reset.intakeLaw = true ∧ State.reset.intake.resetOwed = true ∧
    idle.intake.resetOwed = false ∧ idle.intake.receive ≠ .filling ∧ idle.intake.beginAnswers.length < 4 ∧
    idle.intake.buffers[0].state = .free ∧ (filling sheetRows).intakeLaw = true ∧
    (filling sheetRows).intake.buffers[0].rows.length = 45 ∧
    44 + 1 = ((filling (sheetRows.take 44)).intake.buffers[0].rows.length) + 1 ∧
    (filling (sheetRows.take 44)).intakeLaw = true ∧
    { filling [] with intake := { (filling []).intake with
      beginAnswers := [.wait, .wait, .wait, .wait], sending := some (.begin_ .wait) } }.intakeLaw = true ∧
    { idle with intake := { idle.intake with
      beginAnswers := [.wait, .wait, .wait, .wait], sending := some (.begin_ .wait) } }.intakeLaw = true := by
  decide +kernel

/-- Four sheets in the intake, the first decided and its verdict going out. -/
def fourSheets : State :=
  { idle with
    intake := { idle.intake with
      buffers := #v[{ sheetBuffer .decided sheetRows (some .wellFormed) with verdict := some .accept },
        sheetBuffer .decided sheetRows (some .wellFormed), sheetBuffer .decided sheetRows (some .wellFormed),
        sheetBuffer .decided sheetRows (some .wellFormed)].map (fun b => { b with verdict := some .accept }),
      order := [2, 0, 1, 3], sending := some (.verdict 2) } }

theorem witness_ScannerAnswersGoOutInOrder :
    State.reset.intake.sending = some .portReset ∧ fourSheets.intakeLaw = true ∧
    fourSheets.intake.sending = some (.verdict 2) ∧ fourSheets.intake.beginAnswers = [] ∧
    fourSheets.intake.order.tail.head? = some 0 ∧ fourSheets.intake.buffers[0].state = .decided ∧
    (∀ x : Fin 4, fourSheets.intake.buffers[x].state ≠ .free) ∧
    (after (.sheetBegin 5123844 1 22 25 19 26) idle).intakeLaw = true ∧
    (after (.sheetBegin 5123844 1 22 25 19 26) idle).intake.sending = some (.begin_ (.go 0)) := by decide +kernel

/-- Sheet 5123844 waits in buffer 0 behind a sheet that is DECIDED; its script is COLLECTED and its key released. -/
def queuedSheet (form : SheetForm) : State :=
  { marking with
    hand := none, scripts := [(5123844, scriptOf .sheet .collected)],
    intake := { idle.intake with
      buffers := #v[sheetBuffer .queued sheetRows (some form),
        { sheetBuffer .decided sheetRows (some .wellFormed) with verdict := some .accept },
        SheetBuffer.freeBuffer, SheetBuffer.freeBuffer],
      order := [1, 0], nextNumber := 2, sending := some (.verdict 1) } }

theorem witness_SheetsAreTakenAndChecked :
    ((match (queuedSheet .wellFormed).eligible 5123844 1 with | .ok y => y.state == .collected | .error _ => false) = true ∧
      (queuedSheet .wellFormed).keys[0].derived =
        some { pages := 1, totals := #v[16, 8, 0, 0], maxima := #v[16, 8, 0, 0], smax := 24 } ∧
      (queuedSheet .wellFormed).sittings[0].state = .closed ∧ (queuedSheet .wellFormed).keys[0].state = .released ∧
      (queuedSheet .wellFormed).script 5123844 = some (scriptOf .sheet .collected) ∧
      (withScript .sheet .issued).sittings[0].state ≠ .closed) ∧
    ((queuedSheet .malformed).intake.order = [1] ++ 0 :: [] ∧
      (queuedSheet .malformed).intake.buffers[1].state = .decided ∧
      (queuedSheet .malformed).intake.buffers[0].state = .queued ∧ (queuedSheet .malformed).hand = none ∧
      marking.hand.isSome = true) ∧
    (State.reset.intake.sending.isSome = true ∧ Intake.initial.sending = none ∧ Intake.initial.resetOwed = true) ∧
    ((filling sheetRows).intakeLaw = true ∧ (filling sheetRows).intake.resetOwed = false ∧
      (filling sheetRows).intake.buffers[0].state = .filling ∧
      (filling sheetRows).intake.buffers[0].rows.length = 45) := by decide +kernel

theorem witness_MarksAreComputed :
    header.te < header.tf ∧ classOf header 120 = .filled ∧ classOf header 119 = .faint ∧ classOf header 60 = .faint ∧
    classOf header 59 = .empty ∧ resolveRow header #v[1, 127, 3, 177, 0] = .multiple ∧
    resolveRow header #v[157, 1, 87, 0, 2] = .option 0 ∧ resolveRow { header with margin := 80 } #v[157, 1, 87, 0, 2] =
      .ambiguous ∧ resolveRow header #v[3, 1, 4, 95, 2] = .ambiguous ∧ 0 < 24 ∧
    (∀ i j : Fin 7, i ≤ j → header.bounds[i] ≤ header.bounds[j]) := by decide +kernel

theorem witness_MarkingsCompleteAndAreTakenBack :
    marking.resetHold = .running ∧ marking.storeLaw = true ∧ marking.intakeLaw = true ∧
    marking.hand = some ⟨0, 5123844, 1, 0, 0⟩ ∧ marking.script 5123844 = some (scriptOf .sheet .marking) ∧
    marking.cand 0 = some (candidate .cleared none) ∧ idle.hand = none ∧
    (∀ y ∈ writing.scripts, y.2.slot = 0 → y.2.state ≠ .marking) ∧
    (∃ y ∈ marking.scripts, y.2.slot = 0 ∧ y.2.state = .marking) := by decide +kernel

/-- A key whose maximum is 24, the pages of sheet 5123844 and the questions at the ends of the key and of a page. -/
theorem witness_ResultsAreFormed :
    (key .released).maximum = 24 ∧ (key .released).derived = some { pages := 1, totals := #v[16, 8, 0, 0], maxima := #v[16, 8, 0, 0], smax := 24 } ∧
    tableFind (key .released).entries (45 * (1 - 1) + 6) = some .void ∧ 6 ≤ (key .released).header.q ∧
    (key .released).header.q < 45 * (1 - 1) + 7 ∧ (key .released).header.q < 45 * (2 - 1) + 1 ∧
    tableFind (entries.take 5) (45 * (1 - 1) + 6) = none := by decide +kernel

/-! ### Witnesses: what the desks are told -/

/-- The candidate resting, the rest budget used up as the second passes. -/
def lastRest : State :=
  { writing with roll := [(0, { candidate .resting (some 0) with restUsed := 959, personalEnd := some 42959 })] }

/-- The last second of a rest shows REST_OVER and then END with rest left 0 (R67). -/
theorem test_rest_over :
    (after .hallSecond lastRest).segments[0].queue =
      [⟨1, .notice .restOver⟩, ⟨1, .ending 42960 .active 0⟩] := by decide +kernel

/-- The warning at V shows WARN with one TIME cause (R69). -/
theorem test_warn :
    (after .hallSecond { writing with hallTime := 41099 }).segments[0].queue = [⟨1, .notice .warn⟩] ∧
    (after .hallSecond { writing with hallTime := 41099 }).attention[2].count = 1 := by decide +kernel

/-- A finish without a script shows DONE and then BLANK, which withdraws it (R77, R89, R111). -/
theorem test_done_and_blank :
    (after (.submitFor 20250001 0) writing).segments[0].queue = [⟨1, .blank⟩] ∧
    (after (.submitFor 20250001 0) (withScript .booklet .issued)).segments[0].queue = [⟨1, .notice .done⟩] := by
  decide +kernel

/-- The end of a hall hold and an EXTEND show END (R79, R80). -/
theorem test_end_after_a_hold :
    (after .holdFilterChange { held ⟨true, false⟩ with holdFilter := ⟨false, false, true, true⟩ }).segments[0].queue =
      [⟨1, .ending 42000 .active 960⟩] ∧
    (after (.extend 0 600) writing).segments[0].queue = [⟨1, .ending 42780 .active 1040⟩] := by decide +kernel

theorem witness_DesksAreToldOfTheSecond :
    (lastRest.cand 0).map (fun c => (c.state, c.currentSeat, c.restUsed + 1, c.restBudget)) =
      some (.resting, some 0, 960, some 960) ∧
    (lastRest.sittings[0].running = true ∧ lastRest.sittings[0].held = false) ∧
    (writing.cand 0 = some (candidate .active (some 0)) ∧ writing.hallTime < 42000 ∧
      ({ writing with hallTime := 42000 }).cand 0 = some (candidate .active (some 0))) ∧
    (writing.hallTime ≠ 86398 ∧ beforeDayEnd.hallTime = 86398 ∧ idle.segments[0].line = .disabled ∧
      writing.segments[0].line ≠ .disabled) := by decide +kernel

theorem witness_DesksAreToldOfTheSitting :
    ({ sharpStart with hallTime := 32400 }.sittings[0].t0 = 32400 ∧ sharpStart.sittings[0].state = .admitting ∧
      (awaited 30600 { paper .scheduled 0 with aw := 0, t0 := 30600 }).sittings[0].state = .scheduled) ∧
    ((awaited 34799 (paper .writing 2399)).sittings[0].state ∈ [SittingState.reading, .writing] ∧
      (awaited 34799 (paper .writing 2399)).sittings[0].held = false ∧
      (paper .writing 2399).e + 1 = (paper .writing 2399).r + (paper .writing 2399).l) ∧
    (placed.expectedOf 0 ≠ [] ∧ writing.expectedOf 0 = [] ∧ placed.cand 0 = some (candidate .expected (some 0)) ∧
      arriving.cand 0 = some arriver ∧ arriver.currentSeat = none) ∧
    (idle.sittings[0].state ∉ [SittingState.reading, .writing, .closing] ∧
      (paper .writing 2400).r + (paper .writing 2400).l ≤ (paper .writing 2400).e ∧
      (paper .writing 2399).e < (paper .writing 2399).r + (paper .writing 2399).l) := by decide +kernel

theorem witness_DesksAreToldOfRequests :
    (min (21600 + 1) 21600 = 21600 ∧
      { held ⟨true, false⟩ with holdFilter := ⟨false, false, true, true⟩ }.holdFilter.raw = false ∧
      { writing with holdFilter := ⟨true, false, false, true⟩ }.holdFilter.raw = true) ∧
    ((paper .writing 1600).state ≠ .admitting ∧ (candidate .active (some 0)).personalEnd = some 42000 ∧
      (candidate .active (some 0)).restBudget = some 960 ∧ arriver.personalEnd = none) ∧
    ((candidate .seated (some 0)).state = .seated ∧ CandState.active ∈ [CandState.active, .resting]) ∧
    ((seatAt 0 (some 1) .free none .present).binds = some (0, 1) ∧
      ∀ a : Fin 129, (seatAt 0 (some 1) .free none .present).binds ≠ some (1, a.val)) ∧
    (∀ d : Bool, { Segment.initial with line := .master, doorWire := d }.sending = none) ∧
    ({ idle with roll := [(0, arriver)] }.seatFor arriver = none ∧
      arriving.seatFor (candidate .expected (some 0)) = some 0) := by decide +kernel

theorem witness_AttentionAndFaultRequests :
    64 ≤ (64 : Byte).toNat ∧ (63 : Byte).toNat < 64 ∧ (∀ i : Fin 6, (Vector.replicate 6 7)[i] ≤ 7) ∧
    (∃ i : Fin 6, 7 < #v[0, 0, 0, 0, 0, 8][i]) ∧ idle.faultRecord.entry = none ∧
    { idle with faultRecord := ⟨some ⟨.linkCheck, .none, 7⟩, false⟩ }.faultRecord.entry.isSome = true := by
  decide +kernel

theorem witness_ClearTrafficClearsTheLines :
    marking.resetHold = .running ∧ marking.storeLaw = true ∧ marking.hand = some ⟨0, 5123844, 1, 0, 0⟩ ∧
    marking.script 5123844 = some (scriptOf .sheet .marking) ∧ writing.hand = none ∧
    writing.segments[0].sending.isSome = true ∧
    (awaiting 1 (seatAt 0 (some 1) .occupied (some 0) .present)).segments[0].line ≠ .disabled ∧
    (filling []).storeLaw = true ∧ (filling []).intake.buffers[0].form = none := by decide +kernel

end Sys2Proof.Tests
end

