-- ==== Sys2Proof/Proofs/Stores.lean ====
section
/-! SUPPORT. Record stores whose records all satisfy a condition, and the store law read store by store (R1, R14, R42,
R105). -/

namespace Sys2Proof.Machine

variable {α β : Type}

/-! ### Stores in canonical form -/

/-- A store in canonical form whose records, with their numbers, all satisfy a condition. -/
def TableOf (P : Nat → α → Prop) (t : Table α) : Prop := tableSorted t = true ∧ ∀ x ∈ t, P x.1 x.2

/-- In a store in canonical form the first number is below the others. -/
theorem tableSorted_cons (x : Nat × α) (t : Table α) :
    tableSorted (x :: t) = true ↔ (∀ y ∈ t, x.1 < y.1) ∧ tableSorted t = true := by
  simp [tableSorted]

/-- In a store in canonical form a record is read at its number exactly where it stands in the store. -/
theorem tableFind_iff_mem {t : Table α} (h : tableSorted t = true) (i : Nat) (v : α) :
    tableFind t i = some v ↔ (i, v) ∈ t := by
  refine ⟨mem_of_tableFind t i v, fun hm => ?_⟩
  induction t with
  | nil => simp at hm
  | cons x t ih =>
    obtain ⟨k, w⟩ := x
    obtain ⟨hlt, ht⟩ := (tableSorted_cons _ _).1 h
    rcases List.mem_cons.1 hm with hx | hx
    · obtain ⟨rfl, rfl⟩ := Prod.mk.inj hx
      simp [tableFind]
    · have hk : k ≠ i := Nat.ne_of_lt (hlt _ hx)
      simp only [tableFind, hk, if_false]
      exact ih ht hx

/-- A number has no record in a store exactly where it is not listed. -/
theorem tableFind_eq_none (t : Table α) (i : Nat) : tableFind t i = none ↔ ∀ x ∈ t, x.1 ≠ i := by
  induction t with
  | nil => simp [tableFind]
  | cons x t ih =>
    obtain ⟨k, w⟩ := x
    by_cases h : k = i <;> simp [tableFind, h, ih]

/-- A number whose record is erased has none. -/
theorem tableFind_erase_self {t : Table α} (h : tableSorted t = true) (i : Nat) :
    tableFind (tableErase t i) i = none := by
  induction t with
  | nil => rfl
  | cons x t ih =>
    obtain ⟨k, w⟩ := x
    obtain ⟨hlt, ht⟩ := (tableSorted_cons _ _).1 h
    by_cases hk : k = i
    · subst hk
      simp only [tableErase, if_true]
      exact (tableFind_eq_none t k).2 fun y hy => (Nat.ne_of_lt (hlt y hy)).symm
    · simp only [tableErase, hk, if_false, tableFind, ih ht]

/-- The records of a store after a write are among the one written and those before it. -/
theorem mem_of_mem_insert {t : Table α} {i : Nat} {v : α} {x : Nat × α} (h : x ∈ tableInsert t i v) :
    x = (i, v) ∨ x ∈ t := by
  induction t with
  | nil => simpa [tableInsert] using h
  | cons y t ih =>
    obtain ⟨k, w⟩ := y
    unfold tableInsert at h
    split at h
    · simpa using h
    · split at h
      · rcases List.mem_cons.1 h with h | h
        · exact .inl h
        · exact .inr (List.mem_cons_of_mem _ h)
      · rcases List.mem_cons.1 h with h | h
        · exact .inr (h ▸ List.mem_cons_self)
        · exact (ih h).imp_right (List.mem_cons_of_mem _)

/-- The records of a store after an erasure are among those before it. -/
theorem mem_of_mem_erase {t : Table α} {i : Nat} {x : Nat × α} (h : x ∈ tableErase t i) : x ∈ t := by
  induction t with
  | nil => simp [tableErase] at h
  | cons y t ih =>
    obtain ⟨k, w⟩ := y
    unfold tableErase at h
    split at h
    · exact List.mem_cons_of_mem _ h
    · rcases List.mem_cons.1 h with h | h
      · exact h ▸ List.mem_cons_self
      · exact List.mem_cons_of_mem _ (ih h)

/-- A write over a record changes no reading of the store in which the two records agree. -/
theorem map_insert_of_find (f : Nat × α → β) {t : Table α} (h : tableSorted t = true) {i : Nat} {c v : α}
    (hc : tableFind t i = some c) (hf : f (i, v) = f (i, c)) : (tableInsert t i v).map f = t.map f := by
  induction t with
  | nil => simp [tableFind] at hc
  | cons x t ih =>
    obtain ⟨k, w⟩ := x
    obtain ⟨hlt, ht⟩ := (tableSorted_cons _ _).1 h
    by_cases hk : k = i
    · subst hk
      simp only [tableFind, if_true, Option.some.injEq] at hc
      simp [tableInsert, hf, hc]
    · simp only [tableFind, hk, if_false] at hc
      have hi : k < i := hlt _ (mem_of_tableFind t i c hc)
      simp only [tableInsert, Nat.not_lt.2 hi.le, Ne.symm hk, if_false, List.map_cons, ih ht hc]

/-- A write over a record keeps the number of records. -/
theorem length_insert_of_find {t : Table α} (h : tableSorted t = true) {i : Nat} {c : α} (v : α)
    (hc : tableFind t i = some c) : (tableInsert t i v).length = t.length := by
  have := congrArg List.length (map_insert_of_find (fun _ => ()) h (v := v) hc rfl)
  simpa using this

/-- A write adds one record at most. -/
theorem length_insert_le (t : Table α) (i : Nat) (v : α) : (tableInsert t i v).length ≤ t.length + 1 := by
  induction t with
  | nil => simp [tableInsert]
  | cons x t ih =>
    obtain ⟨k, w⟩ := x
    unfold tableInsert
    split
    · simp
    · split
      · simp
      · simpa using ih

namespace TableOf

variable {P : Nat → α → Prop} {t : Table α}

theorem empty : TableOf P ([] : Table α) := ⟨rfl, by simp⟩

theorem insert (h : TableOf P t) {i : Nat} {v : α} (hv : P i v) : TableOf P (tableInsert t i v) := by
  refine ⟨tableSorted_insert t i v h.1, fun x hx => ?_⟩
  rcases mem_of_mem_insert hx with rfl | hx
  · exact hv
  · exact h.2 x hx

theorem erase (h : TableOf P t) (i : Nat) : TableOf P (tableErase t i) :=
  ⟨tableSorted_erase t i h.1, fun x hx => h.2 x (mem_of_mem_erase hx)⟩

theorem map {Q : Nat → β → Prop} (h : TableOf P t) {f : α → β} (hf : ∀ i v, P i v → Q i (f v)) :
    TableOf Q (t.map (fun x => (x.1, f x.2))) := by
  refine ⟨(tableSorted_map t f).trans h.1, fun x hx => ?_⟩
  obtain ⟨y, hy, rfl⟩ := List.mem_map.1 hx
  exact hf _ _ (h.2 y hy)

theorem filter (h : TableOf P t) (p : Nat × α → Bool) : TableOf P (t.filter p) :=
  ⟨tableSorted_filter t p h.1, fun x hx => h.2 x (List.mem_filter.1 hx).1⟩

theorem find (h : TableOf P t) {i : Nat} {v : α} (hf : tableFind t i = some v) : P i v :=
  h.2 _ (mem_of_tableFind t i v hf)

end TableOf

/-! ### The store law, store by store -/

/-- The roll: 1024 slots, and a current seat is one of the 512 (R1, R42). -/
def RollLaw : Table Candidate → Prop :=
  TableOf fun j c => j < 1024 ∧ ∀ i, c.currentSeat = some i → i < 512

/-- The root of the directory has 64 entries (R14). -/
def RootLaw : Table Nat → Prop := TableOf fun b _ => b < 64

/-- The directory has 160 pages (R14). -/
def PagesLaw : Table Page → Prop := TableOf fun p _ => p < 160

/-- 512 seats; one that was never defined is not listed (R42). -/
def SeatsLaw : Table Seat → Prop := TableOf fun i v => i < 512 ∧ v ≠ Seat.undefinedRecord

/-- At most 2048 scripts, each with a valid serial (R105, R106). -/
def ScriptsLaw (t : Table Script) : Prop := TableOf (fun d _ => validSerial d = true) t ∧ t.length ≤ 2048

/-- The entries of every key in canonical form (R121). -/
def KeysLaw (v : Vector KeySlot 8) : Prop := ∀ k : Fin 8, tableSorted v[k].entries = true

/-- The law of the record stores, store by store. -/
structure State.Stores (s : State) : Prop where
  roll : RollLaw s.roll
  root : RootLaw s.dirRoot
  pages : PagesLaw s.dirPages
  seats : SeatsLaw s.seats
  scripts : ScriptsLaw s.scripts
  keys : KeysLaw s.keys

/-- The store law is the law of each store. -/
theorem storeLaw_iff (s : State) : s.storeLaw = true ↔ s.Stores := by
  have hk : (s.keys.all (fun v => tableSorted v.entries) = true) ↔ KeysLaw s.keys := by
    rw [Vector.all_eq_true]
    exact ⟨fun h k => h k.1 k.2, fun h k hk => h ⟨k, hk⟩⟩
  simp only [State.storeLaw, Bool.and_eq_true, List.all_eq_true, decide_eq_true_eq, bne_iff_ne, hk,
    Option.all_eq_true]
  simp only [Config.rollSlots, Config.directoryPages, Config.seatRecords, Config.scriptPlaces]
  constructor
  · rintro ⟨⟨⟨⟨⟨⟨⟨⟨⟨⟨⟨⟨⟨sr, so⟩, sp⟩, se⟩, sc⟩, ke⟩, br⟩, bo⟩, bp⟩, be⟩, un⟩, cs⟩, le⟩, va⟩
    exact ⟨⟨sr, fun x hx => ⟨br x hx, cs x hx⟩⟩, ⟨so, bo⟩, ⟨sp, bp⟩, ⟨se, fun x hx => ⟨be x hx, un x hx⟩⟩,
      ⟨⟨sc, va⟩, le⟩, ke⟩
  · rintro ⟨⟨sr, r⟩, ⟨so, bo⟩, ⟨sp, bp⟩, ⟨se, e⟩, ⟨⟨sc, va⟩, le⟩, ke⟩
    exact ⟨⟨⟨⟨⟨⟨⟨⟨⟨⟨⟨⟨⟨sr, so⟩, sp⟩, se⟩, sc⟩, ke⟩, fun x hx => (r x hx).1⟩, bo⟩, bp⟩, fun x hx => (e x hx).1⟩,
      fun x hx => (e x hx).2⟩, fun x hx => (r x hx).2⟩, le⟩, va⟩

namespace State.Stores

variable {s : State}

/-- A live record stands in one of the 1024 slots. -/
theorem cand_lt (h : s.Stores) {j : Nat} {c : Candidate} (hc : s.cand j = some c) : j < 1024 := (h.roll.find hc).1

/-- The current seat of a live record is one of the 512. -/
theorem seat_lt (h : s.Stores) {j i : Nat} {c : Candidate} (hc : s.cand j = some c) (hi : c.currentSeat = some i) :
    i < 512 := (h.roll.find hc).2 i hi

/-- A live record is one of the records of the roll. -/
theorem cand_iff (h : s.Stores) (j : Nat) (c : Candidate) : s.cand j = some c ↔ (j, c) ∈ s.roll :=
  tableFind_iff_mem h.roll.1 j c

end State.Stores

end Sys2Proof.Machine
end

