-- ==== Sys2Proof/Proofs/Quiet.lean ====
section
/-! SUPPORT. Quiet changes: those that keep the law of the record stores and leave everything that the directory and the
record chains read (R14, R17): the directory itself, each record's number, sitting and next record, and every T0. All
operations but ENROL, RETIRE, SCHEDULE, RETIRE_SITTING and the resets are quiet. -/

namespace Sys2Proof.Machine

variable {s t u : State}

/-- What the directory and the record chains read of a record (R14, R17). -/
def Candidate.links (c : Candidate) : Nat × Fin 8 × Option Nat := (c.number, c.sitting, c.nextRecord)

/-- Two states agree in all that the directory and the record chains read (R14, R17). -/
structure State.SameLinks (s t : State) : Prop where
  root : t.dirRoot = s.dirRoot
  pages : t.dirPages = s.dirPages
  roll : t.roll.map (fun x => (x.1, x.2.links)) = s.roll.map (fun x => (x.1, x.2.links))
  starts : ∀ k : Fin 8, t.sittings[k].t0 = s.sittings[k].t0

theorem State.SameLinks.refl (s : State) : s.SameLinks s := ⟨rfl, rfl, rfl, fun _ => rfl⟩

theorem State.SameLinks.trans (h : s.SameLinks t) (g : t.SameLinks u) : s.SameLinks u :=
  ⟨g.root.trans h.root, g.pages.trans h.pages, g.roll.trans h.roll, fun k => (g.starts k).trans (h.starts k)⟩

/-- A change that keeps the law of the stores and all that the directory and the record chains read. -/
structure State.Quiet (s t : State) : Prop where
  keeps : s.Stores → t.Stores ∧ s.SameLinks t

/-- An owner's rule whose change is quiet. -/
def Owner.Quiet (op : Owner) : Prop := ∀ s : State, s.Quiet (op s).1

namespace State.Quiet

theorem refl (s : State) : s.Quiet s := ⟨fun h => ⟨h, .refl s⟩⟩

theorem trans (h : s.Quiet t) (g : t.Quiet u) : s.Quiet u := ⟨fun hs =>
  have ht := h.keeps hs
  have hu := g.keeps ht.1
  ⟨hu.1, ht.2.trans hu.2⟩⟩

theorem after (g : t.Quiet u) (h : s.Quiet t) : s.Quiet u := h.trans g

theorem stores (h : s.Quiet t) (hs : s.Stores) : t.Stores := (h.keeps hs).1

theorem links (h : s.Quiet t) (hs : s.Stores) : s.SameLinks t := (h.keeps hs).2

/-- Only a state that meets the law of the stores need be looked at. -/
theorem of (h : s.Stores → s.Quiet t) : s.Quiet t := ⟨fun hs => (h hs).keeps hs⟩

/-- A change of no store and of no sitting's T0. -/
theorem of_same (roll : t.roll = s.roll) (root : t.dirRoot = s.dirRoot) (pages : t.dirPages = s.dirPages)
    (seats : t.seats = s.seats) (scripts : t.scripts = s.scripts) (keys : t.keys = s.keys)
    (starts : ∀ k : Fin 8, t.sittings[k].t0 = s.sittings[k].t0) : s.Quiet t := ⟨fun h =>
  ⟨⟨roll ▸ h.roll, root ▸ h.root, pages ▸ h.pages, seats ▸ h.seats, scripts ▸ h.scripts, keys ▸ h.keys⟩,
    ⟨root, pages, by rw [roll], starts⟩⟩⟩

end State.Quiet

theorem takeInTurn_quiet {ι : Type} (is : List ι) (f : ι → State → State)
    (h : ∀ (i : ι) (s : State), s.Quiet (f i s)) (s : State) :
    s.Quiet (takeInTurn is f s) :=
  takeInTurn_invariant (fun t => s.Quiet t) is f (fun i t ht => ht.trans (h i t)) s (.refl s)

/-! ### The updates of the state -/

theorem setSegment_quiet (m : Fin 4) (g : Segment) (s : State) : s.Quiet (s.setSegment m g) :=
  .of_same rfl rfl rfl rfl rfl rfl fun _ => rfl

theorem setRoom_quiet (m : Fin 4) (r : RoomRecord) (s : State) : s.Quiet (s.setRoom m r) :=
  .of_same rfl rfl rfl rfl rfl rfl fun _ => rfl

theorem setIntake_quiet (k : Intake) (s : State) : s.Quiet (s.setIntake k) :=
  .of_same rfl rfl rfl rfl rfl rfl fun _ => rfl

theorem setBuffer_quiet (b : Fin 4) (v : SheetBuffer) (s : State) : s.Quiet (s.setBuffer b v) :=
  .of_same rfl rfl rfl rfl rfl rfl fun _ => rfl

theorem setPort_quiet (p : Port) (s : State) : s.Quiet (s.setPort p) :=
  .of_same rfl rfl rfl rfl rfl rfl fun _ => rfl

theorem raise_quiet (g : CauseGroup) (s : State) : s.Quiet (s.raise g) :=
  .of_same rfl rfl rfl rfl rfl rfl fun _ => rfl

theorem reportFault_quiet (cls : FaultClass) (d : FaultDetail) (s : State) : s.Quiet (s.reportFault cls d) := by
  unfold State.reportFault
  split <;> exact .of_same rfl rfl rfl rfl rfl rfl fun _ => rfl

/-- Only the intake, the sheet in hand, the attention unit, the fault record, the clock, the hold filter and the like
change: nothing that the stores hold. -/
theorem setSitting_quiet {k : Fin 8} {v : Sitting} (h : v.t0 = s.sittings[k].t0) : s.Quiet (s.setSitting k v) := by
  refine .of_same rfl rfl rfl rfl rfl rfl fun i => ?_
  by_cases hi : k = i
  · subst hi; simpa using h
  · have : k.val ≠ i.val := fun e => hi (Fin.ext e)
    simp [this]

theorem setKey_quiet {k : Fin 8} {v : KeySlot} (h : tableSorted v.entries = true) : s.Quiet (s.setKey k v) := by
  refine ⟨fun hs => ⟨{ hs with keys := fun i => ?_ }, ⟨rfl, rfl, rfl, fun _ => rfl⟩⟩⟩
  by_cases hi : k = i
  · subst hi; simpa using h
  · have : k.val ≠ i.val := fun e => hi (Fin.ext e)
    simpa [this] using hs.keys i

theorem setSeat_quiet {i : Nat} (h : i < 512) (v : Seat) : s.Quiet (s.setSeat i v) := by
  refine ⟨fun hs => ⟨{ hs with seats := ?_ }, ⟨rfl, rfl, rfl, fun _ => rfl⟩⟩⟩
  show SeatsLaw (if v = Seat.undefinedRecord then tableErase s.seats i else tableInsert s.seats i v)
  split
  · exact hs.seats.erase i
  · next hv => exact hs.seats.insert ⟨h, hv⟩

/-- Seats changed in place, defined ones into defined ones. -/
theorem mapSeats_quiet {f : Seat → Seat} (h : ∀ v, v ≠ Seat.undefinedRecord → f v ≠ Seat.undefinedRecord) (s : State) :
    s.Quiet { s with seats := s.seats.map (fun x => (x.1, f x.2)) } :=
  ⟨fun hs => ⟨{ hs with seats := hs.seats.map fun _ v hv => ⟨hv.1, h v hv.2⟩ }, ⟨rfl, rfl, rfl, fun _ => rfl⟩⟩⟩

/-- A live record rewritten, with its links as they are and a current seat that is one of the 512. -/
theorem setCand_quiet {j : Nat} {c d : Candidate} (hc : s.cand j = some c) (hl : d.links = c.links)
    (hi : ∀ i, d.currentSeat = some i → i < 512) : s.Quiet (s.setCand j d) :=
  ⟨fun hs => ⟨{ hs with roll := hs.roll.insert ⟨hs.cand_lt hc, hi⟩ },
    ⟨rfl, rfl, map_insert_of_find _ hs.roll.1 hc (by simp [hl]), fun _ => rfl⟩⟩⟩

/-- A live record rewritten, with its links and its current seat as they are. -/
theorem setCand_sameSeat_quiet {j : Nat} {c d : Candidate} (hc : s.cand j = some c) (hl : d.links = c.links)
    (hi : d.currentSeat = c.currentSeat) : s.Quiet (s.setCand j d) :=
  .of fun hs => setCand_quiet hc hl fun _ h => hs.seat_lt hc (hi ▸ h)

/-- A listed script rewritten. -/
theorem setScript_quiet {d : Nat} {x : Script} (hx : s.script d = some x) (y : Script) : s.Quiet (s.setScript d y) :=
  ⟨fun hs => ⟨{ hs with scripts := ⟨hs.scripts.1.insert (hs.scripts.1.find (i := d) hx),
    (length_insert_of_find hs.scripts.1.1 y hx).trans_le hs.scripts.2⟩ }, ⟨rfl, rfl, rfl, fun _ => rfl⟩⟩⟩

/-- A script with a valid serial inserted where a place is free. -/
theorem insertScript_quiet {d : Nat} (hd : validSerial d = true) (hl : s.scripts.length < 2048) (y : Script) :
    s.Quiet (s.setScript d y) :=
  ⟨fun hs => ⟨{ hs with scripts := ⟨hs.scripts.1.insert hd, (length_insert_le s.scripts d y).trans hl⟩ },
    ⟨rfl, rfl, rfl, fun _ => rfl⟩⟩⟩

theorem mapScripts_quiet (f : Script → Script) (s : State) : s.Quiet (s.mapScripts f) :=
  ⟨fun hs => ⟨{ hs with scripts := ⟨hs.scripts.1.map fun _ _ h => h, (List.length_map ..).trans_le hs.scripts.2⟩ },
    ⟨rfl, rfl, rfl, fun _ => rfl⟩⟩⟩

/-! ### What is read of seats and names -/

/-- A seat that is listed is one of the 512. -/
theorem State.Stores.listed_lt (hs : s.Stores) {i : Nat} (h : s.seat i ≠ Seat.undefinedRecord) : i < 512 := by
  unfold State.seat at h
  cases hf : tableFind s.seats i with
  | none => simp [hf] at h
  | some v => exact (hs.seats.find hf).1

/-- A seat with a place is one of the 512. -/
theorem State.Stores.placed_lt (hs : s.Stores) {i : Nat} {p : SeatPlace} (h : (s.seat i).place = some p) : i < 512 :=
  hs.listed_lt fun e => by simp [e, Seat.undefinedRecord] at h

/-- A seat that binds a desk has a place. -/
theorem Seat.place_of_binds {v : Seat} {x : Fin 4 × Nat} (h : v.binds = some x) : ∃ p, v.place = some p := by
  unfold Seat.binds at h
  cases hp : v.place with
  | none => rw [hp] at h; split at h <;> simp at h
  | some p => exact ⟨p, rfl⟩

/-- A seat that binds a desk is one of the 512. -/
theorem State.Stores.bound_lt (hs : s.Stores) {i : Nat} {x : Fin 4 × Nat} (h : (s.seat i).binds = some x) : i < 512 :=
  let ⟨_, hp⟩ := Seat.place_of_binds h
  hs.placed_lt hp

/-- A desk address is bound to one of the 512 seats. -/
theorem State.Stores.boundSeat_lt (hs : s.Stores) {m : Fin 4} {a i : Nat} (h : s.boundSeat m a = some i) : i < 512 := by
  unfold State.boundSeat at h
  cases hf : s.seats.find? (fun x => x.2.binds == some (m, a)) with
  | none => simp [hf] at h
  | some x =>
    simp only [hf, Option.map_some, Option.some.injEq] at h
    exact h ▸ (hs.seats.2 x (List.mem_of_find?_eq_some hf)).1

/-- A sitting index that is one of the eight. -/
theorem sittingOf_eq_some {n : Nat} {k : Fin 8} : sittingOf n = some k ↔ n = k.val := by
  unfold sittingOf
  split
  · next h =>
    simp only [Option.some.injEq]
    exact ⟨fun e => by rw [← e], fun e => Fin.ext e⟩
  · next h => simpa using fun e : n = k.val => h (e ▸ k.2)

/-- A record that a request names is live, stands on its number's chain and is of the sitting named (R3). -/
theorem State.resolve_ok {n k j : Nat} {c : Candidate} (h : s.resolve n k = .ok (j, c)) :
    n ≤ 99999999 ∧ c.sitting.val = k ∧ j ∈ s.chain n ∧ s.cand j = some c := by
  unfold State.resolve at h
  split at h
  · cases h
  next hn =>
  split at h
  · cases h
  next k' hk =>
  split at h
  · cases h
  split at h
  · cases h
  next i hi =>
  split at h
  · cases h
  next d hd =>
  obtain ⟨rfl, rfl⟩ := Prod.mk.inj (Except.ok.inj h)
  have hin : s.inSitting k' i = true := List.find?_some hi
  simp only [State.inSitting, hd, beq_iff_eq] at hin
  refine ⟨Nat.not_lt.1 hn, ?_, List.mem_of_find?_eq_some hi, hd⟩
  rw [hin, sittingOf_eq_some.1 hk]

/-- A record that a request names is live. -/
theorem State.cand_of_resolve {n k j : Nat} {c : Candidate} (h : s.resolve n k = .ok (j, c)) : s.cand j = some c :=
  (State.resolve_ok h).2.2.2

/-! ### Display -/

theorem markStale_quiet {i : Nat} (h : i < 512) : s.Quiet (s.markStale i) := setSeat_quiet h _

theorem setQueue_quiet (m : Fin 4) (q : List ShowEntry) (s : State) : s.Quiet (s.setQueue m q) :=
  setSegment_quiet ..

theorem offerDesk_quiet (i : Nat) (c : ShowContent) (s : State) : s.Quiet (offerDesk i c s) := by
  refine .of fun hs => ?_
  unfold offerDesk
  split
  · exact .refl s
  next hb =>
  have hi := hs.bound_lt hb
  split
  · exact .refl s
  all_goals
    split
    all_goals first
      | exact markStale_quiet hi
      | split
        · exact setQueue_quiet ..
        · exact (markStale_quiet hi).after (setQueue_quiet ..)

theorem offerPost_quiet (m : Fin 4) (c : ShowContent) (s : State) : s.Quiet (offerPost m c s) := by
  unfold offerPost
  repeat' split
  all_goals first
    | exact .refl s
    | exact setQueue_quiet ..

theorem showSeat_quiet (i : Nat) (c : Candidate) (s : State) : s.Quiet (showSeat i c s) := by
  unfold showSeat
  split
  · exact offerDesk_quiet ..
  · exact .refl s

theorem postSeat_quiet (m : Fin 4) (i : Nat) (c : Candidate) (s : State) : s.Quiet (postSeat m i c s) := by
  unfold postSeat
  split
  · exact offerPost_quiet ..
  · exact .refl s

theorem endAt_quiet (i : Nat) (c : Candidate) (s : State) : s.Quiet (endAt i c s) := by
  unfold endAt
  split
  · exact offerDesk_quiet ..
  · exact .refl s

theorem showEnd_quiet (c : Candidate) (s : State) : s.Quiet (showEnd c s) := by
  unfold showEnd
  split
  · exact endAt_quiet ..
  · exact .refl s

theorem showNotice_quiet (c : Candidate) (n : Notice) (s : State) : s.Quiet (showNotice c n s) := by
  unfold showNotice
  split
  · exact offerDesk_quiet ..
  · exact .refl s

theorem resyncDesk_quiet (i : Nat) (s : State) : s.Quiet (resyncDesk i s) := by
  unfold resyncDesk
  repeat' split
  all_goals first
    | exact .refl s
    | exact offerDesk_quiet ..
    | exact showSeat_quiet ..
    | exact (endAt_quiet ..).after (showSeat_quiet ..)
    | exact (offerDesk_quiet ..).after (showSeat_quiet ..)

theorem kickSegment_quiet (m : Fin 4) (s : State) : s.Quiet (kickSegment m s) := by
  unfold kickSegment
  split
  · exact setSegment_quiet ..
  · exact .refl s

/-! ### Clearance, closing and finishing -/

theorem freeSeat_quiet {i : Nat} (h : i < 512) (s : State) : s.Quiet (freeSeat i s) := setSeat_quiet h _

theorem takeSeat_quiet {i : Nat} (h : i < 512) (st : SeatState) (j : Nat) (s : State) : s.Quiet (takeSeat i st j s) :=
  setSeat_quiet h _

theorem clearRecord_quiet {j : Nat} {c : Candidate} (hc : s.cand j = some c) (b : Bool) :
    s.Quiet (clearRecord j c b s) := by
  refine .of fun hs => ?_
  unfold clearRecord
  split
  · exact setCand_sameSeat_quiet hc rfl rfl
  · next i hi =>
    exact (offerDesk_quiet ..).after ((freeSeat_quiet (hs.seat_lt hc hi) _).after
      (setCand_quiet hc rfl fun _ h => nomatch h))

theorem clearanceTest_quiet (j : Nat) (s : State) : s.Quiet (clearanceTest j s) := by
  unfold clearanceTest
  split
  · exact .refl s
  · next c hc =>
    split
    · exact clearRecord_quiet hc _
    · exact .refl s

theorem submitOnFinish_quiet (j : Nat) (s : State) : s.Quiet (submitOnFinish j s) := by
  refine .of fun hs => ?_
  unfold submitOnFinish
  split
  · exact .refl s
  next c hc =>
  split
  · exact (raise_quiet ..).after (clearRecord_quiet hc _)
  · refine (clearanceTest_quiet ..).after ?_
    split
    · exact mapScripts_quiet ..
    · next i hi => exact (takeSeat_quiet (hs.seat_lt hc hi) ..).after (mapScripts_quiet ..)

theorem releaseKey_quiet (k : Fin 8) (s : State) : s.Quiet (releaseKey k s) := by
  refine .of fun hs => ?_
  unfold releaseKey
  split
  · exact setKey_quiet (hs.keys k)
  all_goals exact .refl s

theorem closeSitting_quiet (k : Fin 8) (s : State) : s.Quiet (closeSitting k s) := by
  unfold closeSitting
  exact (raise_quiet ..).after ((releaseKey_quiet ..).after (setSitting_quiet rfl))

theorem closingTest_quiet (k : Fin 8) (s : State) : s.Quiet (closingTest k s) := by
  unfold closingTest
  split
  · exact closeSitting_quiet ..
  · exact .refl s

theorem endExpected_quiet (st : CandState) (j : Nat) (s : State) : s.Quiet (endExpected st j s) := by
  refine .of fun hs => ?_
  unfold endExpected
  split
  · exact .refl s
  next c hc =>
  split
  · exact setCand_sameSeat_quiet hc rfl rfl
  · next i hi =>
    exact (offerDesk_quiet ..).after ((freeSeat_quiet (hs.seat_lt hc hi) _).after
      (setCand_quiet hc rfl fun _ h => nomatch h))

theorem closeAdmission_quiet (k : Fin 8) (s : State) : s.Quiet (closeAdmission k s) := by
  unfold closeAdmission
  split
  · exact .refl s
  · exact (raise_quiet ..).after ((closingTest_quiet ..).after (takeInTurn_quiet _ _ (endExpected_quiet _) s))

theorem finish_quiet (why : FinishCause) (j : Nat) (s : State) : s.Quiet (finish why j s) := by
  unfold finish
  split
  · exact .refl s
  · next c hc =>
    exact (closingTest_quiet ..).after ((submitOnFinish_quiet ..).after ((showNotice_quiet ..).after
      (setCand_sameSeat_quiet hc rfl rfl)))

/-! ### Personal time, holds and seating -/

theorem warningTest_quiet (j : Nat) (s : State) : s.Quiet (warningTest j s) := by
  unfold warningTest
  split
  · exact .refl s
  next c hc =>
  split
  · exact (raise_quiet ..).after ((showNotice_quiet ..).after (setCand_sameSeat_quiet hc rfl rfl))
  · exact .refl s

theorem activate_quiet (j : Nat) (s : State) : s.Quiet (activate j s) := by
  unfold activate
  split
  · exact .refl s
  · next c hc =>
    exact (warningTest_quiet ..).after ((showEnd_quiet ..).after (setCand_sameSeat_quiet hc rfl rfl))

theorem showEndOf_quiet (j : Nat) (s : State) : s.Quiet (showEndOf j s) := by
  unfold showEndOf
  split
  · exact .refl s
  · exact showEnd_quiet ..

theorem changeHold_quiet (k : Fin 8) (h : HoldSources) (s : State) : s.Quiet (changeHold k h s) := by
  have hset : s.Quiet (s.setSitting k { s.sittings[k] with hold := h }) := setSitting_quiet rfl
  unfold changeHold
  split
  · exact (takeInTurn_quiet _ _ showEndOf_quiet _).after hset
  · exact hset

theorem extendRecord_quiet (k : Fin 8) (j : Nat) (s : State) : s.Quiet (extendRecord k j s) := by
  unfold extendRecord
  split
  · exact .refl s
  · next c hc => exact (showEnd_quiet ..).after (setCand_sameSeat_quiet hc rfl rfl)

theorem announce_quiet (door : Option (Fin 4)) (i : Nat) (c : Candidate) (s : State) : s.Quiet (announce door i c s) := by
  unfold announce
  split
  · exact postSeat_quiet ..
  · exact .refl s

/-- A record that takes one of the 512 seats. -/
theorem takeSeat_setCand_quiet {i j : Nat} {c d : Candidate} (hi : i < 512) (st : SeatState) (hc : s.cand j = some c)
    (hl : d.links = c.links) (hd : d.currentSeat = some i) : s.Quiet ((takeSeat i st j s).setCand j d) :=
  State.Quiet.after (setCand_quiet hc hl fun _ h => Option.some.inj (hd.symm.trans h) ▸ hi) (takeSeat_quiet hi ..)

theorem seatRecord_quiet {door : Option (Fin 4)} {j i : Nat} {c : Candidate} (hi : i < 512) (hc : s.cand j = some c) :
    s.Quiet (seatRecord door j c i s) := by
  have shown : ∀ d : Candidate, d.links = c.links → d.currentSeat = some i →
      s.Quiet (showSeat i (s.seatedAt i c) (announce door i (s.seatedAt i c)
        ((takeSeat i .occupied j s).setCand j d))) := fun d hl hd =>
    (showSeat_quiet ..).after ((announce_quiet ..).after (takeSeat_setCand_quiet hi _ hc hl hd))
  unfold seatRecord
  split
  · exact (activate_quiet ..).after (shown _ rfl rfl)
  · exact (activate_quiet ..).after (shown _ rfl rfl)
  all_goals exact shown _ rfl rfl

/-- The seat of least rank is one of those ranked. -/
theorem mem_of_leastRank : ∀ {l : List (Nat × Nat)} {x : Nat × Nat}, leastRank l = some x → x ∈ l
  | [], _, h => by simp [leastRank] at h
  | y :: rest, x, h => by
    unfold leastRank at h
    split at h
    · exact Option.some.inj h ▸ List.mem_cons_self
    · next z hz =>
      split at h
      · exact Option.some.inj h ▸ List.mem_cons_of_mem _ (mem_of_leastRank hz)
      · exact Option.some.inj h ▸ List.mem_cons_self

/-- A seat that is ranked is listed. -/
theorem State.Stores.candidatesIn_lt (hs : s.Stores) {m : Fin 4} {c : Candidate} {x : Nat × Nat}
    (h : x ∈ s.candidatesIn m c) : x.2 < 512 := by
  obtain ⟨y, hy, hx⟩ := List.mem_filterMap.1 h
  split at hx
  · split at hx
    · exact Option.some.inj hx ▸ (hs.seats.2 y hy).1
    · cases hx
  · cases hx

/-- An allocated seat is one of the 512. -/
theorem State.Stores.allocate_lt (hs : s.Stores) {c : Candidate} {rooms : List (Fin 4)} {i : Nat}
    (h : s.allocate c rooms = some i) : i < 512 := by
  induction rooms with
  | nil => simp [State.allocate] at h
  | cons m rest ih =>
    unfold State.allocate at h
    split at h
    · next x hx => exact Option.some.inj h ▸ hs.candidatesIn_lt (mem_of_leastRank hx)
    · exact ih h

/-- The seat that an admission gives is one of the 512. -/
theorem State.Stores.seatFor_lt (hs : s.Stores) {j i : Nat} {c : Candidate} (hc : s.cand j = some c)
    (h : s.seatFor c = some i) : i < 512 := by
  unfold State.seatFor at h
  split at h
  · next hi => exact hs.seat_lt hc (hi.trans h)
  · exact hs.allocate_lt h

end Sys2Proof.Machine
end

