-- ==== Sys2Proof/Proofs/QuietEvents.lean ====
section
/-! SUPPORT. The events of the part are quiet: the hall second, what desks and posts report, the sheet intake and the
mark engine, and the line of the station. -/

namespace Sys2Proof.Machine

variable {s t : State}

/-! ### A hall second in the records (R66 to R69, R81) -/

theorem accrueRest_quiet (before : Vector Sitting 8) (j : Nat) (s : State) : s.Quiet (accrueRest before j s) := by
  unfold accrueRest
  split
  · exact .refl s
  · next c hc => exact setCand_sameSeat_quiet hc rfl rfl

theorem restOver_quiet (j : Nat) (s : State) : s.Quiet (restOver j s) := by
  unfold restOver
  split
  · exact .refl s
  next c hc =>
  split
  · exact (showEnd_quiet ..).after ((showNotice_quiet ..).after (setCand_sameSeat_quiet hc rfl rfl))
  · exact .refl s

theorem reachEnd_quiet (j : Nat) (s : State) : s.Quiet (reachEnd j s) := by
  unfold reachEnd
  split
  · exact .refl s
  · split
    · exact finish_quiet ..
    · exact warningTest_quiet ..

theorem recordSecond_quiet (before : Vector Sitting 8) (j : Nat) (s : State) : s.Quiet (recordSecond before j s) := by
  unfold recordSecond
  exact (reachEnd_quiet ..).after ((restOver_quiet ..).after (accrueRest_quiet ..))

theorem recordDayEnd_quiet (before : Vector Sitting 8) (j : Nat) (s : State) : s.Quiet (recordDayEnd before j s) := by
  unfold recordDayEnd
  exact (finish_quiet ..).after ((restOver_quiet ..).after (accrueRest_quiet ..))

/-! ### A hall second in the sittings (R27 to R31, R38) -/

theorem accrue_t0 (g : Sitting) : g.accrue.t0 = g.t0 := by
  unfold Sitting.accrue
  split <;> rfl

theorem openAdmission_quiet (k : Fin 8) (s : State) : s.Quiet (openAdmission k s) := by
  unfold openAdmission
  split
  · exact setSitting_quiet rfl
  · exact .refl s

theorem beginSitting_quiet (k : Fin 8) (s : State) : s.Quiet (beginSitting k s) := by
  have started := (takeInTurn_quiet (s.seatedOf k) _ activate_quiet _).after
    (setSitting_quiet (s := s) (k := k) (v := s.sittings[k].started s.holdFilter.filtered) rfl)
  unfold beginSitting
  dsimp only
  split
  · exact (closeAdmission_quiet ..).after started
  · exact started

theorem startSitting_quiet (k : Fin 8) (s : State) : s.Quiet (startSitting k s) := by
  unfold startSitting
  split
  · exact beginSitting_quiet ..
  · exact .refl s

theorem moveToWriting_quiet (k : Fin 8) (s : State) : s.Quiet (moveToWriting k s) := by
  unfold moveToWriting
  split
  · exact setSitting_quiet rfl
  · exact .refl s

theorem reachAdmissionClose_quiet (k : Fin 8) (before : Sitting) (s : State) :
    s.Quiet (reachAdmissionClose k before s) := by
  unfold reachAdmissionClose
  split
  · exact closeAdmission_quiet ..
  · exact .refl s

theorem moveToClosing_quiet (k : Fin 8) (s : State) : s.Quiet (moveToClosing k s) := by
  unfold moveToClosing
  split
  · exact (closingTest_quiet ..).after (setSitting_quiet rfl)
  · exact .refl s

theorem sittingSecond_quiet (moved : Bool) (k : Fin 8) (s : State) : s.Quiet (sittingSecond moved k s) := by
  have aged := (moveToClosing_quiet k _).after ((reachAdmissionClose_quiet k s.sittings[k] _).after
    ((moveToWriting_quiet k _).after (setSitting_quiet (accrue_t0 s.sittings[k]))))
  unfold sittingSecond
  split
  · split
    · exact (startSitting_quiet ..).after (openAdmission_quiet ..)
    · exact .refl s
  · exact aged
  · exact aged

theorem dayEndSitting_quiet (k : Fin 8) (s : State) : s.Quiet (dayEndSitting k s) := by
  have closing : s.Quiet (s.setSitting k { s.sittings[k] with state := .closing, hold := ⟨false, false⟩ }) :=
    setSitting_quiet rfl
  unfold dayEndSitting
  split
  · refine (closingTest_quiet ..).after ?_
    split
    · exact (closeAdmission_quiet ..).after closing
    · exact closing
  · exact .refl s

theorem hallSecond_quiet (s : State) : s.Quiet (hallSecond s) := by
  have sittings : s.Quiet (sittingsSecond (decide (s.hallTime < Config.lastSecond)) (advanceClock s)) :=
    (takeInTurn_quiet eight _ (sittingSecond_quiet _) _).after (.of_same rfl rfl rfl rfl rfl rfl fun _ => rfl)
  unfold hallSecond
  refine (takeInTurn_quiet four _ (fun m u => ?_) _).after ?_
  · exact (kickSegment_quiet m _).after (setSegment_quiet ..)
  · split
    · exact (takeInTurn_quiet _ _ (recordDayEnd_quiet _) _).after
        ((takeInTurn_quiet eight _ dayEndSitting_quiet _).after sittings)
    · exact (takeInTurn_quiet _ _ (recordSecond_quiet _) _).after sittings

theorem followHallHold_quiet (on : Bool) (k : Fin 8) (s : State) : s.Quiet (followHallHold on k s) := by
  unfold followHallHold
  split
  · exact changeHold_quiet ..
  · exact .refl s

theorem holdFilterChange_quiet (s : State) : s.Quiet (holdFilterChange s) := by
  unfold holdFilterChange
  split
  · unfold changeFiltered
    exact (raise_quiet ..).after ((takeInTurn_quiet eight _ (followHallHold_quiet _) _).after
      (.of_same rfl rfl rfl rfl rfl rfl fun _ => rfl))
  · exact .refl s

/-! ### The desk buttons (R72 to R75) -/

theorem setResting_quiet {j : Nat} {c : Candidate} (hc : s.cand j = some c) (st : CandState) :
    s.Quiet (setResting st j c s) := by
  unfold setResting
  exact (showEnd_quiet ..).after (setCand_sameSeat_quiet hc rfl rfl)

theorem deskRestBegin_quiet {j : Nat} {c : Candidate} (hc : s.cand j = some c) : s.Quiet (deskRestBegin j c s) := by
  unfold deskRestBegin
  split
  · exact .refl s
  all_goals
    split
    · exact showNotice_quiet ..
    · exact setResting_quiet hc _

theorem deskRestEnd_quiet {j : Nat} {c : Candidate} (hc : s.cand j = some c) : s.Quiet (deskRestEnd j c s) := by
  unfold deskRestEnd
  split
  · exact setResting_quiet hc _
  all_goals exact .refl s

theorem deskRest_quiet (i : Nat) (b : Bool) (s : State) : s.Quiet (deskRest i b s) := by
  unfold deskRest
  repeat' split
  all_goals first
    | exact .refl s
    | exact offerDesk_quiet ..
    | exact deskRestBegin_quiet ‹_›
    | exact deskRestEnd_quiet ‹_›

theorem deskSubmit_quiet (i : Nat) (s : State) : s.Quiet (deskSubmit i s) := by
  unfold deskSubmit
  repeat' split
  all_goals first
    | exact .refl s
    | exact offerDesk_quiet ..
    | exact showNotice_quiet ..
    | exact finish_quiet ..

/-! ### Custody at the desks and the posts (R108, R109, R113, R114) -/

theorem custodyRefused_quiet (d : Nat) (why : CustodyReason) (m : Fin 4) (a : Nat) (s : State) :
    s.Quiet (s.custodyRefused d why m a) := .of_same rfl rfl rfl rfl rfl rfl fun _ => rfl

theorem deskIssueRefused_quiet (i d : Nat) (why : CustodyReason) (s : State) : s.Quiet (s.deskIssueRefused i d why) := by
  unfold State.deskIssueRefused
  split
  · exact custodyRefused_quiet ..
  · exact .refl s

/-- An issue that passes its checks finds a place in the custody table (R109, check 7). -/
theorem length_lt_of_issueCheck {desk : Bool} {d j : Nat} {c : Candidate} (h : s.issueCheck desk d j c = .passes) :
    s.scripts.length < 2048 := by
  unfold State.issueCheck at h
  repeat' split at h
  all_goals first
    | exact Nat.not_le.1 ‹¬ Config.scriptPlaces ≤ s.scripts.length›
    | cases h

theorem deskIssue_quiet (i d j : Nat) (c : Candidate) (s : State) : s.Quiet (deskIssue i d j c s) := by
  unfold deskIssue
  split
  · exact offerDesk_quiet ..
  next hd =>
  split
  · exact showSeat_quiet ..
  · exact (offerDesk_quiet ..).after (deskIssueRefused_quiet ..)
  · exact (offerDesk_quiet ..).after (deskIssueRefused_quiet ..)
  · exact offerDesk_quiet ..
  · exact offerDesk_quiet ..
  · exact offerDesk_quiet ..
  · next hp =>
    split
    · exact (showSeat_quiet ..).after (insertScript_quiet (by simpa using hd) (length_lt_of_issueCheck hp) _)
    · exact .refl s

theorem deskSlot_quiet (i d : Nat) (s : State) : s.Quiet (deskSlot i d s) := by
  unfold deskSlot
  repeat' split
  all_goals first
    | exact .refl s
    | exact offerDesk_quiet ..
    | exact deskIssue_quiet ..

theorem collectSeat_quiet (m : Fin 4) (j : Nat) (s : State) : s.Quiet (collectSeat m j s) := by
  unfold collectSeat
  repeat' split
  all_goals first
    | exact .refl s
    | exact postSeat_quiet ..
    | exact offerPost_quiet ..

theorem refuseCollect_quiet (m : Fin 4) (d : Nat) (why : CustodyReason) (s : State) : s.Quiet (refuseCollect m d why s) := by
  unfold refuseCollect
  exact (custodyRefused_quiet ..).after (offerPost_quiet ..)

theorem collect_quiet (m : Fin 4) (d : Nat) (s : State) : s.Quiet (collect m d s) := by
  unfold collect
  split
  · exact refuseCollect_quiet ..
  split
  · exact refuseCollect_quiet ..
  next x hx =>
  split
  · exact refuseCollect_quiet ..
  · exact refuseCollect_quiet ..
  · exact collectSeat_quiet ..
  · exact collectSeat_quiet ..
  · exact collectSeat_quiet ..
  · exact collectSeat_quiet ..
  · split
    · exact refuseCollect_quiet ..
    · exact (collectSeat_quiet ..).after ((clearanceTest_quiet ..).after (setScript_quiet hx _))

/-! ### The door, the badge and the help button (R52, R61, R99) -/

theorem doorRefused_quiet (m : Fin 4) (n : Nat) (why : Notice) (s : State) : s.Quiet (doorRefused m n why s) := by
  unfold doorRefused
  exact (raise_quiet ..).after ((setRoom_quiet ..).after (offerPost_quiet ..))

/-- A door admits a record to the seat that R54 gives it. -/
theorem seatFor_of_doorDecision {n j i : Nat} (h : s.doorDecision n = .admitted j i) :
    (s.cand j).bind s.seatFor = some i := by
  have seat : ∀ j', s.doorSeat j' = .admitted j i → (s.cand j).bind s.seatFor = some i := by
    intro j' h
    unfold State.doorSeat at h
    split at h
    · cases h
    · split at h
      · next hi =>
        cases h
        exact hi
      · cases h
  unfold State.doorDecision at h
  repeat' split at h
  all_goals first
    | exact seat _ h
    | cases h

theorem doorTap_quiet (m : Fin 4) (n : Nat) (s : State) : s.Quiet (doorTap m n s) := by
  refine .of fun hs => ?_
  unfold doorTap
  split
  · exact doorRefused_quiet ..
  next j i hd =>
  split
  · next c hc =>
    have hi : s.seatFor c = some i := by simpa [hc] using seatFor_of_doorDecision hd
    exact seatRecord_quiet (hs.seatFor_lt hc hi) hc
  · exact .refl s

theorem wrongSeat_quiet (i n : Nat) (s : State) : s.Quiet (wrongSeat i n s) := by
  unfold wrongSeat
  split
  · exact .refl s
  · exact (raise_quiet ..).after ((setRoom_quiet ..).after (offerDesk_quiet ..))

theorem confirmSeat_quiet (i : Nat) (s : State) : s.Quiet (confirmSeat i s) := by
  unfold confirmSeat
  split
  · exact .refl s
  · split
    · exact .refl s
    · next hc => exact (showSeat_quiet ..).after (setCand_sameSeat_quiet hc rfl rfl)

theorem deskTap_quiet (i n : Nat) (s : State) : s.Quiet (deskTap i n s) := by
  unfold deskTap
  split
  · exact .refl s
  · exact offerDesk_quiet ..
  · exact offerDesk_quiet ..
  · exact confirmSeat_quiet ..
  · exact offerDesk_quiet ..
  all_goals exact wrongSeat_quiet ..

theorem deskHand_quiet {i : Nat} (hi : i < 512) (up : Bool) (s : State) : s.Quiet (deskHand i up s) := by
  unfold deskHand
  split
  · exact .refl s
  · exact (raise_quiet ..).after (setSeat_quiet hi _)
  · exact setSeat_quiet hi _

/-! ### Contact and delivery (R92 to R97) -/

theorem reportLost_quiet (m : Fin 4) (a : Nat) (s : State) : s.Quiet (reportLost m a s) := by
  unfold reportLost
  exact (reportFault_quiet ..).after (raise_quiet ..)

theorem deskMiss_quiet {i : Nat} (hi : i < 512) (s : State) : s.Quiet (deskMiss i s) := by
  unfold deskMiss
  dsimp only
  repeat' split
  all_goals first
    | exact .refl s
    | exact setSeat_quiet hi _

theorem postMiss_quiet (m : Fin 4) (s : State) : s.Quiet (postMiss m s) := by
  unfold postMiss
  dsimp only
  repeat' split
  all_goals first
    | exact .refl s
    | exact setSegment_quiet ..

theorem countMiss_quiet (m : Fin 4) (a : Nat) (s : State) : s.Quiet (countMiss m a s) := by
  refine .of fun hs => ?_
  unfold countMiss
  split
  · exact postMiss_quiet ..
  · split
    · next hi => exact deskMiss_quiet (hs.boundSeat_lt hi) s
    · exact .refl s

theorem reportMiss_quiet (m : Fin 4) (a : Nat) (lost failed : Bool) (s : State) :
    s.Quiet (reportMiss m a lost failed s) := by
  unfold reportMiss
  split
  · exact .refl s
  · exact reportFault_quiet ..
  · exact reportLost_quiet ..
  · split
    · exact (reportFault_quiet ..).after (reportLost_quiet ..)
    · exact (reportLost_quiet ..).after (reportFault_quiet ..)

theorem missed_quiet (m : Fin 4) (a : Nat) (failed : Bool) (s : State) : s.Quiet (missed m a failed s) := by
  unfold missed
  exact (reportMiss_quiet ..).after (countMiss_quiet ..)

theorem deskAnswered_quiet {i : Nat} (hi : i < 512) (s : State) : s.Quiet (deskAnswered i s) := by
  unfold deskAnswered
  split
  · exact (resyncDesk_quiet ..).after (setSeat_quiet hi _)
  · exact setSeat_quiet hi _

theorem postAnswered_quiet (m : Fin 4) (s : State) : s.Quiet (postAnswered m s) := by
  unfold postAnswered
  split
  · exact setSegment_quiet ..
  all_goals exact (offerPost_quiet ..).after (setSegment_quiet ..)

theorem deliverDesk_quiet {i : Nat} (hi : i < 512) (e : DeskEvent) (s : State) : s.Quiet (deliverDesk i e s) := by
  cases e with
  | null => exact .refl s
  | tap n => exact deskTap_quiet i n s
  | hand up => exact deskHand_quiet hi up s
  | rest b => exact deskRest_quiet i b s
  | submit => exact deskSubmit_quiet i s
  | slot d => exact deskSlot_quiet i d s
  | collect d => exact raise_quiet .desk s
  | restart => exact resyncDesk_quiet i s

theorem deliverPost_quiet (m : Fin 4) (e : DeskEvent) (s : State) : s.Quiet (deliverPost m e s) := by
  cases e with
  | null => exact .refl s
  | tap n => exact doorTap_quiet m n s
  | collect d => exact collect_quiet m d s
  | restart => exact offerPost_quiet m .blank s
  | _ => exact raise_quiet .desk s

theorem discardEvent_quiet (e : DeskEvent) (s : State) : s.Quiet (discardEvent e s) := by
  cases e with
  | null => exact .refl s
  | _ => exact raise_quiet .desk s

theorem goodAnswer_quiet (m : Fin 4) (a : Nat) (e : DeskEvent) (s : State) : s.Quiet (goodAnswer m a e s) := by
  refine .of fun hs => ?_
  unfold goodAnswer
  split
  · exact (deliverPost_quiet ..).after (postAnswered_quiet ..)
  · split
    · next hi =>
      exact (deliverDesk_quiet (hs.boundSeat_lt hi) ..).after (deskAnswered_quiet (hs.boundSeat_lt hi) _)
    · exact discardEvent_quiet ..

theorem handleAnswer_quiet (m : Fin 4) (a : Nat) (frame : List Byte) (s : State) :
    s.Quiet (handleAnswer m a frame s) := by
  unfold handleAnswer
  split
  · split
    · exact goodAnswer_quiet ..
    · exact missed_quiet ..
  · exact missed_quiet ..

/-! ### The events of a segment's line (R85, R90, R92, R94) -/

/-- An exchange ends with a level of the door's wire, and the next one is chosen. -/
theorem nextExchange_quiet (m : Fin 4) (door : Bool) (s : State) :
    s.Quiet (kickSegment m (endExchange m (setDoorWire m door s))) :=
  (kickSegment_quiet ..).after ((setSegment_quiet ..).after (setSegment_quiet ..))

theorem timeSent_quiet (m : Fin 4) (door : Bool) (s : State) : s.Quiet (timeSent m door s) := by
  unfold timeSent
  split
  · exact nextExchange_quiet ..
  all_goals exact .refl s

theorem showSent_quiet (m : Fin 4) (door : Bool) (s : State) : s.Quiet (showSent m door s) := by
  unfold showSent
  split
  · exact nextExchange_quiet ..
  all_goals exact .refl s

theorem pollSent_quiet (m : Fin 4) (door : Bool) (s : State) : s.Quiet (pollSent m door s) := by
  unfold pollSent
  split
  · split
    · exact nextExchange_quiet ..
    · exact setSegment_quiet ..
  all_goals exact .refl s

theorem endWindow_quiet (m : Fin 4) (door : Bool) (s : State) : s.Quiet (endWindow m (setDoorWire m door s)) :=
  State.Quiet.after (setSegment_quiet ..) (setSegment_quiet ..)

theorem deskAnswer_quiet (m : Fin 4) (door : Bool) (frame : List Byte) (s : State) :
    s.Quiet (deskAnswer m door frame s) := by
  unfold deskAnswer
  split
  · exact (kickSegment_quiet ..).after ((handleAnswer_quiet ..).after (endWindow_quiet ..))
  all_goals exact .refl s

theorem answerWindowTimeout_quiet (m : Fin 4) (door : Bool) (s : State) : s.Quiet (answerWindowTimeout m door s) := by
  unfold answerWindowTimeout
  split
  · exact (kickSegment_quiet ..).after ((missed_quiet ..).after (endWindow_quiet ..))
  all_goals exact .refl s

/-! ### The sheet intake and the mark engine (R136 to R143, R154) -/

/-- The mark engine's hand is no store. -/
theorem setHand_quiet (h : Option SheetInHand) (s : State) : s.Quiet { s with hand := h } :=
  .of_same rfl rfl rfl rfl rfl rfl fun _ => rfl

theorem rejectSheet_quiet (b : Fin 4) (why : RejectReason) (s : State) : s.Quiet (rejectSheet b why s) :=
  .of_same rfl rfl rfl rfl rfl rfl fun _ => rfl

/-- A sheet that passes names a listed script (R142, check 2). -/
theorem script_of_eligible {d page : Nat} {x : Script} (h : s.eligible d page = .ok x) : s.script d = some x := by
  unfold State.eligible at h
  split at h
  · cases h
  split at h
  · cases h
  next y hy =>
  split at h
  · cases h
  · exact Except.ok.inj h ▸ hy

theorem takeSheet_quiet {b : Fin 4} {x : Script} (hx : s.script s.intake.buffers[b].serial = some x) :
    s.Quiet (takeSheet b x s) := by
  unfold takeSheet
  exact (setHand_quiet ..).after ((setBuffer_quiet ..).after (setScript_quiet hx _))

theorem settleFrom_quiet (order : List (Fin 4)) (s : State) : s.Quiet (settleFrom order s) := by
  induction order generalizing s with
  | nil => exact .refl s
  | cons b rest ih =>
    unfold settleFrom
    split
    · exact ih s
    · exact (ih _).after (rejectSheet_quiet ..)
    · split
      · exact .refl s
      · split
        · exact (ih _).after (rejectSheet_quiet ..)
        · next he => exact takeSheet_quiet (script_of_eligible he)
    all_goals exact .refl s

theorem intakeChanged_quiet (s : State) : s.Quiet (intakeChanged s) := by
  unfold intakeChanged
  exact (setIntake_quiet ..).after (settleFrom_quiet ..)

theorem closeMalformed_quiet (next : ReceiveState) (s : State) : s.Quiet (closeMalformed next s) := by
  unfold closeMalformed
  split
  · exact setIntake_quiet ..
  · exact (reportFault_quiet ..).after (setIntake_quiet ..)

theorem closingFrame_quiet (next : ReceiveState) (s : State) : s.Quiet (closingFrame next s) := by
  unfold closingFrame
  exact (intakeChanged_quiet ..).after (closeMalformed_quiet ..)

theorem badScannerFrame_quiet (s : State) : s.Quiet (badScannerFrame s) := by
  unfold badScannerFrame
  split
  · exact closingFrame_quiet ..
  all_goals exact .refl s

theorem beginSheet_quiet (serial page : Nat) (cells : RefCells) (s : State) :
    s.Quiet (beginSheet serial page cells s) := by
  unfold beginSheet
  split
  · exact (intakeChanged_quiet ..).after ((setIntake_quiet ..).after (closeMalformed_quiet ..))
  all_goals
    split
    all_goals exact (intakeChanged_quiet ..).after (setIntake_quiet ..)

theorem scannerFrame_quiet {f : State → State} (h : ∀ s : State, s.Quiet (f s)) (s : State) :
    s.Quiet (scannerFrame f s) := by
  unfold scannerFrame
  split
  · exact .refl s
  · exact h s

theorem sheetBegin_quiet (serial page c1 c2 c3 c4 : Nat) (s : State) :
    s.Quiet (sheetBegin serial page c1 c2 c3 c4 s) := by
  refine scannerFrame_quiet (fun s => ?_) s
  split
  · exact badScannerFrame_quiet ..
  · exact beginSheet_quiet ..

theorem fillRow_quiet (n : Nat) (r : RowReading) (s : State) : s.Quiet (fillRow n r s) := by
  unfold fillRow
  split
  · exact closingFrame_quiet ..
  · split
    · exact setIntake_quiet ..
    · exact closingFrame_quiet ..

theorem sheetRow_quiet (n : Nat) (r : RowReading) (s : State) : s.Quiet (sheetRow n r s) := by
  refine scannerFrame_quiet (fun s => ?_) s
  split
  · exact fillRow_quiet ..
  all_goals exact .refl s

theorem endSheet_quiet (count : Nat) (s : State) : s.Quiet (endSheet count s) := by
  unfold endSheet
  split
  · exact closingFrame_quiet ..
  · split
    · exact (intakeChanged_quiet ..).after (setIntake_quiet ..)
    · exact closingFrame_quiet ..

theorem sheetEnd_quiet (count : Nat) (s : State) : s.Quiet (sheetEnd count s) := by
  refine scannerFrame_quiet (fun s => ?_) s
  split
  · exact endSheet_quiet ..
  · exact setIntake_quiet ..
  · exact .refl s

theorem sheetGapTimeout_quiet (s : State) : s.Quiet (sheetGapTimeout s) := by
  unfold sheetGapTimeout
  split
  · exact closingFrame_quiet ..
  · exact .refl s

theorem beginAnswerSent_quiet (s : State) : s.Quiet (beginAnswerSent s) := by
  unfold beginAnswerSent
  split
  · exact setIntake_quiet ..
  all_goals exact .refl s

theorem verdictSent_quiet (s : State) : s.Quiet (verdictSent s) := by
  unfold verdictSent
  split
  · exact (intakeChanged_quiet ..).after (setIntake_quiet ..)
  all_goals exact .refl s

theorem portResetSent_quiet (s : State) : s.Quiet (portResetSent s) := by
  unfold portResetSent
  split
  · exact setIntake_quiet ..
  all_goals exact .refl s

theorem markScript_quiet (h : SheetInHand) (y : PageTally) (s : State) : s.Quiet (markScript h y s) := by
  unfold markScript
  split
  · exact .refl s
  · next hx => exact setScript_quiet hx _

theorem markCandidate_quiet (h : SheetInHand) (y : PageTally) (s : State) : s.Quiet (markCandidate h y s) := by
  unfold markCandidate
  split
  · exact .refl s
  · next hc =>
    dsimp only
    split
    · exact (raise_quiet ..).after (setCand_sameSeat_quiet hc rfl rfl)
    · exact setCand_sameSeat_quiet hc rfl rfl

theorem decideMarked_quiet (h : SheetInHand) (y : PageTally) (s : State) : s.Quiet (decideMarked h y s) := by
  unfold decideMarked
  split
  · exact setBuffer_quiet ..
  · exact (raise_quiet ..).after (setBuffer_quiet ..)

theorem markingComplete_quiet (s : State) : s.Quiet (markingComplete s) := by
  unfold markingComplete
  split
  · exact .refl s
  · exact (intakeChanged_quiet ..).after ((setHand_quiet ..).after ((decideMarked_quiet ..).after
      ((markCandidate_quiet ..).after (markScript_quiet ..))))

/-! ### The traffic clear (R101, R145) -/

theorem clearedQueue_ne_undefined (m : Fin 4) (q : List ShowEntry) (v : Seat) (h : v ≠ Seat.undefinedRecord) :
    v.clearedQueue m q ≠ Seat.undefinedRecord := by
  unfold Seat.clearedQueue
  split
  · exact fun e => by simpa [Seat.undefinedRecord] using congrArg Seat.stale e
  · exact h

theorem clearSegment_quiet (m : Fin 4) (s : State) : s.Quiet (clearSegment m s) := by
  unfold clearSegment
  exact (kickSegment_quiet ..).after ((setSegment_quiet ..).after (mapSeats_quiet (clearedQueue_ne_undefined m _) s))

theorem abandonMarking_quiet (s : State) : s.Quiet (abandonMarking s) := by
  unfold abandonMarking
  split
  · exact .refl s
  · split
    · exact setHand_quiet ..
    · next hx => exact (setHand_quiet ..).after (setScript_quiet hx _)

theorem clearIntake_quiet (s : State) : s.Quiet (clearIntake s) := by
  unfold clearIntake
  exact (setIntake_quiet ..).after (abandonMarking_quiet ..)

end Sys2Proof.Machine
end

