-- ==== Sys2Proof/Proofs/QuietOwners.lean ====
section
/-! SUPPORT. The owners' rules are quiet but for ENROL, RETIRE, SCHEDULE and RETIRE_SITTING; and what every step then
keeps: a condition that quiet changes, those four rules and the resets keep. -/

namespace Sys2Proof.Machine

variable {s t : State}

/-! ### The roll, the sittings and the seats -/

theorem amend_quiet (n k a r : Nat) (f : Byte) : Owner.Quiet (amend n k a r f) := by
  intro s
  unfold amend
  split
  · exact .refl s
  next h =>
  have hc := State.cand_of_resolve h
  split
  · exact setCand_sameSeat_quiet hc rfl rfl
  · exact setCand_sameSeat_quiet hc rfl rfl
  all_goals exact .refl s

theorem withdraw_quiet (n k : Nat) : Owner.Quiet (withdraw n k) := by
  intro s
  unfold withdraw
  split
  · exact .refl s
  split
  · split
    · exact endExpected_quiet ..
    · exact (closingTest_quiet ..).after (endExpected_quiet ..)
  · exact finish_quiet ..
  · exact finish_quiet ..
  · exact finish_quiet ..
  all_goals exact .refl s

theorem setClock_quiet (time : Nat) : Owner.Quiet (setClock time) := by
  intro s
  unfold setClock
  repeat' split
  all_goals exact .of_same rfl rfl rfl rfl rfl rfl fun _ => rfl

theorem setSittingHold_quiet (on : Bool) (k : Nat) : Owner.Quiet (setSittingHold on k) := by
  intro s
  unfold setSittingHold
  split
  · exact .refl s
  split
  · exact .refl s
  · exact changeHold_quiet ..

theorem extend_quiet (k delta : Nat) : Owner.Quiet (extend k delta) := by
  intro s
  unfold extend
  split
  · exact .refl s
  next k' _ =>
  split
  · exact .refl s
  split
  · exact .refl s
  have longer : s.Quiet (s.setSitting k' (s.sittings[k'].extended delta)) := setSitting_quiet rfl
  dsimp only [okOrClamped]
  split
  · exact longer
  · exact (takeInTurn_quiet _ _ (extendRecord_quiet _) _).after longer

theorem defineSeat_quiet (i m r c : Nat) (d : Option Nat) (f : Byte) : Owner.Quiet (defineSeat i m r c d f) := by
  intro s
  unfold defineSeat
  split
  · exact .refl s
  split
  · exact .refl s
  next h =>
  split
  · exact .refl s
  split
  · exact .refl s
  split
  · exact .refl s
  · exact setSeat_quiet (Nat.not_le.1 fun g => h (.inl g)) _

theorem setSeatState_quiet (i st : Nat) : Owner.Quiet (setSeatState i st) := by
  intro s
  unfold setSeatState
  split
  · exact .refl s
  next h =>
  have hi : i < 512 := Nat.not_le.1 h
  split
  · split
    · unfold State.bringBack
      repeat' split
      all_goals first
        | exact .refl s
        | exact setSeat_quiet hi _
    all_goals exact .refl s
  · repeat' split
    all_goals first
      | exact .refl s
      | exact setSeat_quiet hi _

theorem contactLost_ne_undefined (m : Fin 4) (v : Seat) (h : v ≠ Seat.undefinedRecord) :
    v.contactLost m ≠ Seat.undefinedRecord := by
  unfold Seat.contactLost
  split
  · next hb =>
    obtain ⟨p, hp⟩ := Seat.place_of_binds hb
    split
    · exact fun e => by simpa [Seat.undefinedRecord, hp] using congrArg Seat.place e
    · exact h
  · exact h

theorem unknownDesks_quiet (m : Fin 4) (s : State) : s.Quiet (unknownDesks m s) :=
  mapSeats_quiet (contactLost_ne_undefined m) s

theorem followEnabled_quiet (m : Fin 4) (was now : Bool) (s : State) : s.Quiet (followEnabled m was now s) := by
  unfold followEnabled
  split
  · unfold startSegment
    exact (kickSegment_quiet ..).after ((setSegment_quiet ..).after (unknownDesks_quiet ..))
  · exact setSegment_quiet ..
  all_goals exact .refl s

theorem setRoomSettings_quiet (m : Nat) (on : Bool) (sep fill : Nat) : Owner.Quiet (setRoomSettings m on sep fill) := by
  intro s
  unfold setRoomSettings
  split
  · split
    · exact .refl s
    · exact (followEnabled_quiet ..).after (setRoom_quiet ..)
  · exact .refl s

theorem ackHand_quiet (i : Nat) : Owner.Quiet (ackHand i) := by
  intro s
  unfold ackHand
  split
  · exact .refl s
  next h => exact setSeat_quiet (Nat.not_le.1 h) _

theorem resetRoom_quiet (m : Nat) : Owner.Quiet (resetRoom m) := by
  intro s
  unfold resetRoom
  split
  · exact .refl s
  · exact (kickSegment_quiet ..).after ((setSegment_quiet ..).after (unknownDesks_quiet ..))

/-! ### Admission, placing and moving -/

theorem admitFor_quiet (n k : Nat) : Owner.Quiet (admitFor n k) := by
  refine fun s => .of fun hs => ?_
  unfold admitFor
  split
  · exact .refl s
  next h =>
  have hc := State.cand_of_resolve h
  repeat' split
  all_goals first
    | exact .refl s
    | next hi => exact seatRecord_quiet (hs.seatFor_lt hc hi) hc

theorem place_quiet (n k i : Nat) : Owner.Quiet (place n k i) := by
  intro s
  unfold place
  split
  · exact .refl s
  next h =>
  have hc := State.cand_of_resolve h
  split
  · exact .refl s
  next hi =>
  repeat' split
  all_goals first
    | exact .refl s
    | exact (showSeat_quiet ..).after (takeSeat_setCand_quiet (Nat.not_le.1 hi) _ hc rfl rfl)

theorem unplaceSeat_quiet {j i : Nat} {c : Candidate} (hi : i < 512) (hc : s.cand j = some c) :
    s.Quiet (unplaceSeat j c i s) := by
  unfold unplaceSeat
  exact (closingTest_quiet ..).after ((offerDesk_quiet ..).after ((freeSeat_quiet hi _).after
    (setCand_quiet hc rfl fun _ h => nomatch h)))

theorem unplace_quiet (n k : Nat) : Owner.Quiet (unplace n k) := by
  refine fun s => .of fun hs => ?_
  unfold unplace
  split
  · exact .refl s
  next h =>
  have hc := State.cand_of_resolve h
  split
  · split
    · exact .refl s
    · next hi => exact unplaceSeat_quiet (hs.seat_lt hc hi) hc
  all_goals exact .refl s

theorem showMovedEnd_quiet (c : Candidate) (s : State) : s.Quiet (showMovedEnd c s) := by
  unfold showMovedEnd
  split
  · exact showEnd_quiet ..
  · exact showEnd_quiet ..
  all_goals exact .refl s

theorem moveRecord_quiet {j old i : Nat} {c : Candidate} (ho : old < 512) (hi : i < 512) (hc : s.cand j = some c) :
    s.Quiet (moveRecord j c old i s) := by
  unfold moveRecord
  exact (showMovedEnd_quiet ..).after ((showSeat_quiet ..).after ((offerDesk_quiet ..).after
    (State.Quiet.after (takeSeat_setCand_quiet (d := s.movedTo i c) hi .occupied (s := freeSeat old s) hc rfl rfl)
      (freeSeat_quiet ho _))))

theorem move_quiet (n k i : Nat) : Owner.Quiet (move n k i) := by
  refine fun s => .of fun hs => ?_
  unfold move
  split
  · exact .refl s
  next h =>
  have hc := State.cand_of_resolve h
  split
  · exact .refl s
  next hi =>
  split
  · exact .refl s
  split
  · next ho =>
    repeat' split
    all_goals first
      | exact .refl s
      | exact moveRecord_quiet (hs.seat_lt hc ho) (Nat.not_le.1 hi) hc
  · exact .refl s

/-! ### Personal time and custody -/

theorem restFor_quiet (n k : Nat) (b : Bool) : Owner.Quiet (restFor n k b) := by
  intro s
  unfold restFor
  split
  · exact .refl s
  next h =>
  have hc := State.cand_of_resolve h
  repeat' split
  all_goals first
    | exact .refl s
    | exact setResting_quiet hc _

theorem submitFor_quiet (n k : Nat) : Owner.Quiet (submitFor n k) := by
  intro s
  unfold submitFor
  split
  · exact .refl s
  split
  · exact finish_quiet ..
  · exact finish_quiet ..
  · exact finish_quiet ..
  all_goals exact .refl s

theorem issue_quiet (n k d : Nat) : Owner.Quiet (issue n k d) := by
  intro s
  unfold issue
  split
  · exact .refl s
  split
  · exact .refl s
  split
  · exact .refl s
  next hd =>
  split
  case h_7 hp =>
    split
    · exact insertScript_quiet (by simpa using hd) (length_lt_of_issueCheck hp) _
    · exact .refl s
  all_goals exact .refl s

/-- A script that a request names is listed (R115). -/
theorem State.script_of_namedScript {d : Nat} {x : Script} (h : s.namedScript d = .ok x) : s.script d = some x := by
  unfold State.namedScript at h
  split at h
  · cases h
  split at h
  · cases h
  split at h
  · cases h
  · next hx => exact Except.ok.inj h ▸ hx

theorem voidScript_quiet (d : Nat) : Owner.Quiet (voidScript d) := by
  intro s
  unfold voidScript
  split
  · exact .refl s
  next h =>
  have hx := State.script_of_namedScript h
  split
  · exact (clearanceTest_quiet ..).after (setScript_quiet hx _)
  · exact (clearanceTest_quiet ..).after (setScript_quiet hx _)
  · exact (clearanceTest_quiet ..).after (setScript_quiet hx _)
  all_goals exact .refl s

theorem handOver_quiet (d : Nat) : Owner.Quiet (handOver d) := by
  intro s
  unfold handOver
  split
  · exact .refl s
  next h =>
  split
  · exact .refl s
  · exact setScript_quiet (State.script_of_namedScript h) _
  all_goals exact .refl s

theorem handOverSitting_quiet (k : Nat) : Owner.Quiet (handOverSitting k) := by
  intro s
  unfold handOverSitting
  split
  · exact .refl s
  · exact mapScripts_quiet ..

theorem remark_quiet (n k : Nat) : Owner.Quiet (remark n k) := by
  intro s
  unfold remark
  split
  · exact .refl s
  next h =>
  have hc := State.cand_of_resolve h
  split
  · exact .refl s
  · exact State.Quiet.after (setCand_sameSeat_quiet (s := s.mapScripts _) hc rfl rfl) (mapScripts_quiet ..)

/-! ### The keys and Chapter 10 -/

theorem tableSorted_writeEntries {e : Table KeyEntry} (h : tableSorted e = true) (q : Nat) (es : List KeyEntryArg) :
    tableSorted (writeEntries e q es) = true := by
  induction es generalizing e q with
  | nil => exact h
  | cons x es ih => exact ih (tableSorted_insert _ _ _ h) _

theorem emptyKey_quiet (k : Fin 8) (s : State) : s.Quiet (s.emptyKey k) := setKey_quiet rfl

theorem keyOpen_quiet (k : Nat) (h : KeyHeader) : Owner.Quiet (keyOpen k h) := by
  intro s
  unfold keyOpen
  repeat' split
  all_goals first
    | exact .refl s
    | exact setKey_quiet rfl

theorem keyEntries_quiet (k q : Nat) (es : List KeyEntryArg) : Owner.Quiet (keyEntries k q es) := by
  refine fun s => .of fun hs => ?_
  unfold keyEntries
  repeat' split
  all_goals first
    | exact .refl s
    | exact setKey_quiet (tableSorted_writeEntries (hs.keys _) _ _)

theorem keySeal_quiet (k : Nat) : Owner.Quiet (keySeal k) := by
  refine fun s => .of fun hs => ?_
  unfold keySeal
  repeat' split
  all_goals first
    | exact .refl s
    | exact setKey_quiet (hs.keys _)

theorem keyDiscard_quiet (k : Nat) : Owner.Quiet (keyDiscard k) := by
  intro s
  unfold keyDiscard
  repeat' split
  all_goals first
    | exact .refl s
    | exact emptyKey_quiet ..

theorem clearTraffic_quiet : Owner.Quiet clearTraffic := by
  intro s
  unfold clearTraffic
  exact (clearIntake_quiet ..).after (takeInTurn_quiet four _ clearSegment_quiet s)

/-- An owner's rule that leaves the records as they are. -/
theorem Owner.quiet_of_reads {op : Owner} (h : ∀ s, (op s).1 = s) : op.Quiet := fun s => (h s).symm ▸ .refl s

/-- An owner's rule that leaves the records but for the attention unit or the fault record. -/
theorem attention_quiet (i : Instr) (op : Owner) (h : ownerRule i = some op)
    (hi : (∃ g, i = .clearAttention g) ∨ (∃ e l, i = .setAttention e l) ∨ i = .clearFault) : op.Quiet := by
  intro s
  rcases hi with ⟨g, rfl⟩ | ⟨e, l, rfl⟩ | rfl <;> cases h
  · unfold clearAttention; split <;> exact .of_same rfl rfl rfl rfl rfl rfl fun _ => rfl
  · unfold setAttention; split <;> exact .of_same rfl rfl rfl rfl rfl rfl fun _ => rfl
  · exact .of_same rfl rfl rfl rfl rfl rfl fun _ => rfl

/-- The requests that only read (R12, R13, R40, R62, R103, R119, R131, R144, R161, R174, R177, R181). -/
def onlyReads : Instr → Bool
  | .readCandidate .. | .readSlot .. | .readChain .. | .readRoll | .readClock | .readSitting .. | .readSeat ..
  | .readRoom .. | .readSegment .. | .readScript .. | .readScriptAt .. | .scriptsOf .. | .readCustody | .readKey ..
  | .readKeyEntries .. | .readIntake | .readResult .. | .readAttention | .readFault | .identify => true
  | _ => false

/-- A request that only reads leaves the records as they are, whatever it answers. -/
theorem reads_same {i : Instr} (hr : onlyReads i = true) {op : Owner} (h : ownerRule i = some op) (s : State) :
    (op s).1 = s := by
  cases i <;> cases hr <;> cases h
  case readCandidate => unfold readCandidate; split <;> rfl
  case readSlot => unfold readSlot; split <;> rfl
  case readChain => unfold readChain; split; rfl; split <;> rfl
  case readSitting => unfold readSitting; split <;> rfl
  case readSeat => unfold readSeat; split <;> rfl
  case readRoom => unfold readRoom; split <;> rfl
  case readSegment => unfold readSegment; split <;> rfl
  case readScript => unfold readScript; split <;> rfl
  case scriptsOf => unfold scriptsOf; split <;> rfl
  case readKey => unfold readKey; split <;> rfl
  case readKeyEntries => unfold readKeyEntries; repeat' split
                         all_goals rfl
  case readResult => unfold readResult; split <;> rfl
  all_goals rfl

/-- The requests whose effect on the records the directory and the chains can see. -/
def relinks : Instr → Bool
  | .enrol .. | .retire .. | .schedule .. | .retireSitting .. => true
  | _ => false

/-- Every owner's rule is quiet but those of ENROL, RETIRE, SCHEDULE and RETIRE_SITTING. -/
theorem ownerRule_quiet {i : Instr} (hn : relinks i = false) {op : Owner} (h : ownerRule i = some op) : op.Quiet := by
  by_cases hr : onlyReads i = true
  · exact Owner.quiet_of_reads (reads_same hr h)
  cases i <;> simp only [relinks, onlyReads, Bool.true_eq_false, not_true] at hn hr <;>
    simp only [ownerRule, Option.some.injEq, reduceCtorEq] at h <;> subst h <;> intro s
  case amend => exact amend_quiet ..
  case withdraw => exact withdraw_quiet ..
  case setClock => exact setClock_quiet ..
  case hold => exact setSittingHold_quiet ..
  case resume => exact setSittingHold_quiet ..
  case extend => exact extend_quiet ..
  case defineSeat => exact defineSeat_quiet ..
  case seatState => exact setSeatState_quiet ..
  case setRoom => exact setRoomSettings_quiet ..
  case admitFor => exact admitFor_quiet ..
  case place => exact place_quiet ..
  case unplace => exact unplace_quiet ..
  case move => exact move_quiet ..
  case restFor => exact restFor_quiet ..
  case submitFor => exact submitFor_quiet ..
  case ackHand => exact ackHand_quiet ..
  case resetRoom => exact resetRoom_quiet ..
  case issue => exact issue_quiet ..
  case void => exact voidScript_quiet ..
  case handOver => exact handOver_quiet ..
  case handOverSitting => exact handOverSitting_quiet ..
  case keyOpen => exact keyOpen_quiet ..
  case keyEntries => exact keyEntries_quiet ..
  case keySeal => exact keySeal_quiet ..
  case keyDiscard => exact keyDiscard_quiet ..
  case remark => exact remark_quiet ..
  case clearAttention => exact attention_quiet _ _ rfl (.inl ⟨_, rfl⟩) s
  case setAttention => exact attention_quiet _ _ rfl (.inr (.inl ⟨_, _, rfl⟩)) s
  case clearFault => exact attention_quiet _ _ rfl (.inr (.inr rfl)) s
  case clearTraffic => exact clearTraffic_quiet s

/-! ### What every step keeps -/

theorem setPending_quiet (q : List Instr) (s : State) : s.Quiet { s with pending := q } :=
  .of_same rfl rfl rfl rfl rfl rfl fun _ => rfl

theorem setHoldFilter_quiet (f : HoldFilter) (s : State) : s.Quiet { s with holdFilter := f } :=
  .of_same rfl rfl rfl rfl rfl rfl fun _ => rfl

theorem endReset_quiet (cause : ResetCause) (pol : Bool) (s : State) : s.Quiet (endReset cause pol s) :=
  .of_same rfl rfl rfl rfl rfl rfl fun _ => rfl

/-- A condition on the records that quiet changes, the four requests that relink and the resets keep. -/
structure Kept (P : State → Prop) : Prop where
  quiet : ∀ {s t : State}, s.Quiet t → P s → P t
  relink : ∀ {i : Instr} {op : Owner} (s : State), relinks i = true → ownerRule i = some op → P s → P (op s).1
  reset : ∀ s : State, P (blocksReset s)

namespace Kept

variable {P : State → Prop}

theorem owner (h : Kept P) {i : Instr} {op : Owner} (ho : ownerRule i = some op) (s : State) (hs : P s) :
    P (op s).1 := by
  cases hr : relinks i with
  | true => exact h.relink s hr ho hs
  | false => exact h.quiet (ownerRule_quiet hr ho s) hs

theorem handToOwner (h : Kept P) {i : Instr} {op : Owner} (ho : ownerRule i = some op) (s : State) (hs : P s) :
    P (handToOwner op s) := h.quiet (setPort_quiet ..) (h.owner ho s hs)

theorem setPort (h : Kept P) (p : Port) (s : State) (hs : P s) : P (s.setPort p) := h.quiet (setPort_quiet ..) hs

/-- A condition on the records holds through a failed frame. -/
theorem failedFrame (h : Kept P) (s : State) (hs : P s) : P (failedFrame s) := by
  unfold Machine.failedFrame
  exact h.quiet (reportFault_quiet ..) (h.setPort _ _ hs)

theorem completeAssembly (h : Kept P) (s : State) (hs : P s) : P (completeAssembly s) := by
  unfold Machine.completeAssembly
  split
  · exact h.setPort _ _ (h.setPort _ _ hs)
  · unfold carryOut
    split
    · exact h.setPort _ _ (h.setPort _ _ hs)
    · exact h.setPort _ _ (h.setPort _ _ hs)
    · split
      · next ho => exact h.handToOwner ho _ (h.setPort _ _ hs)
      · exact h.setPort _ _ (h.setPort _ _ hs)

theorem assemble (h : Kept P) (last : Bool) (payload : List Byte) (s : State) (hs : P s) :
    P (assemble last payload s) := by
  unfold Machine.assemble
  split
  · exact h.completeAssembly _ (h.setPort _ _ hs)
  · exact h.setPort _ _ hs

theorem receivedFrame (h : Kept P) (first last : Bool) (payload : List Byte) (s : State) (hs : P s) :
    P (receivedFrame first last payload s) := by
  have stray : P (strayFrame last s) := by
    unfold strayFrame
    repeat' split
    all_goals first
      | exact hs
      | exact h.setPort _ _ hs
  unfold Machine.receivedFrame
  split
  · exact h.assemble _ _ _ (h.setPort _ _ hs)
  · exact h.assemble _ _ _ (h.setPort _ _ hs)
  · exact h.setPort _ _ hs
  · exact h.assemble _ _ _ hs
  · exact stray
  · exact stray

theorem frameBytes (h : Kept P) (got : List Byte) (s : State) (hs : P s) : P (frameBytes got s) := by
  unfold Machine.frameBytes
  split
  · split
    · exact h.setPort _ _ (h.failedFrame _ hs)
    · split
      · unfold wholeFrame
        have hw := h.setPort { s.port with receiver := .waiting } s hs
        repeat' split
        · exact h.failedFrame _ hw
        · exact h.failedFrame _ hw
        · exact h.receivedFrame _ _ _ _ hw
      · exact h.setPort _ _ hs
  · exact h.setPort _ _ hs

theorem stationFrame (h : Kept P) (bytes : List Byte) (s : State) (hs : P s) : P (stationFrame bytes s) := by
  refine takeInTurn_invariant P bytes receiveByte (fun b s hs => ?_) s hs
  unfold receiveByte
  split
  · exact h.frameBytes _ _ hs
  · exact h.frameBytes _ _ hs
  · exact hs

/-- The other events of the station's line (R163, R166, R167, R169, R171) report faults and write the port. -/
theorem assemblyTimeout (h : Kept P) (s : State) (hs : P s) : P (assemblyTimeout s) := by
  unfold Machine.assemblyTimeout
  split
  · exact h.quiet (reportFault_quiet ..) (h.setPort _ _ hs)
  · exact hs

theorem receiverEvent (h : Kept P) (s : State) (hs : P s) : P (frameSilence s) ∧ P (huntingQuiet s) := by
  unfold frameSilence huntingQuiet
  constructor <;> split <;> first
    | exact hs
    | exact h.setPort _ _ hs

theorem whileRunning {f : State → State} (hf : ∀ s, P s → P (f s)) (hs : P s)
    (he : whileRunning f s = .next t) : P t := by
  unfold Machine.whileRunning at he
  split at he <;> cases he
  · exact hf s hs
  all_goals exact hs

/-- The four reset rows. -/
theorem resets (h : Kept P) {i : Instr}
    (hi : i ∈ [Instr.powerUp, .hallReset] ∨ ∃ pol, i ∈ [Instr.powerUpEnd pol, .hallResetEnd pol]) (hs : P s)
    (he : exec i s = .next t) : P t := by
  have held : ∀ u : State, (∀ k : Fin 8, u.sittings[k].t0 = (blocksReset s).sittings[k].t0) →
      u.roll = [] → u.dirRoot = [] → u.dirPages = [] → u.seats = [] → u.scripts = [] →
      u.keys = (blocksReset s).keys → P u := fun u starts roll root pages seats scripts keys =>
    h.quiet (.of_same roll root pages seats scripts keys starts) (h.reset s)
  simp only [List.mem_cons, List.not_mem_nil, or_false] at hi
  rcases hi with (rfl | rfl) | ⟨pol, rfl | rfl⟩
  · cases he
    exact held _ (fun _ => rfl) rfl rfl rfl rfl rfl rfl
  · simp only [exec, execHallReset] at he
    split at he <;> cases he
    · exact held _ (fun _ => rfl) rfl rfl rfl rfl rfl rfl
    all_goals exact hs
  · simp only [exec, execPowerUpEnd] at he
    split at he <;> cases he
    · exact h.quiet (endReset_quiet ..) hs
    all_goals exact hs
  · simp only [exec, execHallResetEnd] at he
    split at he <;> cases he
    · exact h.quiet (endReset_quiet ..) hs
    all_goals exact hs

/-- A request that the part carries out. -/
theorem request (h : Kept P) {i : Instr} {op : Owner} (ho : ownerRule i = some op) (hs : P s)
    (he : exec i s = .next t) : P t := by
  have hrow : exec i s = requestRow i op s := by
    cases i <;> simp only [ownerRule, Option.some.injEq, reduceCtorEq] at ho <;> subst ho <;> rfl
  rw [hrow] at he
  exact whileRunning (fun u hu => h.handToOwner ho _ (h.setPort _ _ hu)) hs he

/-- Every command keeps a condition that quiet changes, the requests that relink and the resets keep. -/
theorem exec (h : Kept P) (i : Instr) (hs : P s) (he : exec i s = .next t) : P t := by
  cases ho : ownerRule i with
  | some op => exact h.request ho hs he
  | none =>
    have event : ∀ {f : State → State}, (∀ s : State, s.Quiet (f s)) → Machine.whileRunning f s = .next t → P t :=
      fun hf he => whileRunning (fun u hu => h.quiet (hf u) hu) hs he
    cases i <;> simp only [ownerRule, reduceCtorEq] at ho
    case hallSecond => exact event hallSecond_quiet he
    case hallHoldEdge high =>
      simp only [Machine.exec, execHallHoldEdge] at he
      split at he <;> cases he <;> exact h.quiet (setHoldFilter_quiet ..) hs
    case holdFilterChange => exact event holdFilterChange_quiet he
    case powerUp => exact h.resets (.inl (by simp)) hs he
    case powerUpEnd pol => exact h.resets (.inr ⟨pol, by simp⟩) hs he
    case hallReset => exact h.resets (.inl (by simp)) hs he
    case hallResetEnd pol => exact h.resets (.inr ⟨pol, by simp⟩) hs he
    case timeSent m d => exact event (timeSent_quiet m d) he
    case pollSent m d => exact event (pollSent_quiet m d) he
    case showSent m d => exact event (showSent_quiet m d) he
    case deskAnswer m d f => exact event (deskAnswer_quiet m d f) he
    case answerWindowTimeout m d => exact event (answerWindowTimeout_quiet m d) he
    case sheetBegin d p c1 c2 c3 c4 => exact event (sheetBegin_quiet d p c1 c2 c3 c4) he
    case row n a b c d e => exact event (sheetRow_quiet n ⟨a, b, c, d, e⟩) he
    case sheetEnd n => exact event (sheetEnd_quiet n) he
    case scannerBadFrame => exact event (scannerFrame_quiet badScannerFrame_quiet) he
    case sheetGapTimeout => exact event sheetGapTimeout_quiet he
    case beginAnswerSent => exact event beginAnswerSent_quiet he
    case verdictSent => exact event verdictSent_quiet he
    case portResetSent => exact event portResetSent_quiet he
    case markingComplete => exact event markingComplete_quiet he
    case stationFrame bytes => exact whileRunning (h.stationFrame bytes) hs he
    case checkFail => exact whileRunning (fun u hu => h.failedFrame _ (h.setPort _ _ hu)) hs he
    case frameSilence => exact whileRunning (fun u hu => (h.receiverEvent u hu).1) hs he
    case huntingQuiet => exact whileRunning (fun u hu => (h.receiverEvent u hu).2) hs he
    case lineBreak => exact event (fun u => setPort_quiet _ u) he
    case assemblyTimeout => exact whileRunning h.assemblyTimeout hs he
    case answerSent => exact event (fun u => setPort_quiet _ u) he

/-- Every step keeps such a condition. -/
theorem step (h : Kept P) (hs : P s) (he : step s = .next t) : P t := by
  unfold Machine.step at he
  split at he
  · cases he
    exact hs
  · exact h.exec _ (h.quiet (setPending_quiet ..) hs) he

end Kept

end Sys2Proof.Machine
end

