-- ==== Sys2Proof/Proofs/Relinking.lean ====
section
/-! SUPPORT. What the operations on the directory and on the record chains change (R14 to R19): the directory and the
next records alone, within the capacities of the stores. Every step keeps the store law. -/

namespace Sys2Proof.Machine

variable {s t u : State}

/-- A candidate record without its next record. -/
def Candidate.unchained (c : Candidate) : Candidate := { c with nextRecord := none }

/-- Only the directory and the records' next records differ (R14, R17). -/
structure State.Relinked (s t : State) : Prop where
  frame : t = { s with roll := t.roll, dirRoot := t.dirRoot, dirPages := t.dirPages }
  cands : ∀ i, (t.cand i).map Candidate.unchained = (s.cand i).map Candidate.unchained
  stores : s.Stores → t.Stores

namespace State.Relinked

theorem refl (s : State) : s.Relinked s := ⟨rfl, fun _ => rfl, id⟩

theorem trans (h : s.Relinked t) (g : t.Relinked u) : s.Relinked u := by
  refine ⟨?_, fun i => (g.cands i).trans (h.cands i), g.stores ∘ h.stores⟩
  have hu := g.frame
  rw [h.frame] at hu
  exact hu

/-- The later change first, as the state is written. -/
theorem after (g : t.Relinked u) (h : s.Relinked t) : s.Relinked u := h.trans g

theorem sittings (h : s.Relinked t) : t.sittings = s.sittings := by rw [h.frame]
theorem scripts (h : s.Relinked t) : t.scripts = s.scripts := by rw [h.frame]
theorem attention (h : s.Relinked t) : t.attention = s.attention := by rw [h.frame]

/-- A record is live after the change exactly where it was before. -/
theorem cand_eq_none (h : s.Relinked t) (i : Nat) : t.cand i = none ↔ s.cand i = none := by
  simpa using congrArg (· = none) (h.cands i)

/-- A live record keeps all but its next record. -/
theorem cand (h : s.Relinked t) {i : Nat} {c : Candidate} (hc : s.cand i = some c) :
    ∃ o, t.cand i = some { c with nextRecord := o } := by
  have hi := h.cands i
  rw [hc] at hi
  cases hd : t.cand i with
  | none => simp [hd] at hi
  | some d =>
    refine ⟨d.nextRecord, ?_⟩
    simp only [hd, Option.map_some, Option.some.injEq] at hi
    have : { d.unchained with nextRecord := d.nextRecord } = { c.unchained with nextRecord := d.nextRecord } := by
      rw [hi]
    exact congrArg some this

theorem symm_cands (h : s.Relinked t) {i : Nat} {d : Candidate} (hd : t.cand i = some d) :
    ∃ c, s.cand i = some c ∧ d.number = c.number ∧ d.sitting = c.sitting ∧ d.flags = c.flags ∧
      d.unchained = c.unchained := by
  cases hc : s.cand i with
  | none => rw [(h.cand_eq_none i).2 hc] at hd; cases hd
  | some c =>
    obtain ⟨o, ho⟩ := h.cand hc
    obtain rfl := Option.some.inj (ho.symm.trans hd)
    exact ⟨c, rfl, rfl, rfl, rfl, rfl⟩

/-- The order of a record's sitting is as before. -/
theorem chainKey (h : s.Relinked t) (i : Nat) : t.chainKey i = s.chainKey i := by
  unfold State.chainKey
  cases hc : s.cand i with
  | none => rw [(h.cand_eq_none i).2 hc]
  | some c =>
    obtain ⟨o, ho⟩ := h.cand hc
    simp only [ho, h.sittings]

end State.Relinked

/-- Only the candidate records differ. -/
def State.OnlyRoll (s t : State) : Prop := t = { s with roll := t.roll }

/-- Only the directory's pages differ. -/
def State.OnlyPages (s t : State) : Prop := t = { s with dirPages := t.dirPages }

/-- Only the candidate records and the directory's pages differ: what a chain that is written can change. -/
def State.OnlyChains (s t : State) : Prop := t = { s with roll := t.roll, dirPages := t.dirPages }

theorem State.OnlyRoll.trans (h : s.OnlyRoll t) (g : t.OnlyRoll u) : s.OnlyRoll u := by
  unfold State.OnlyRoll at *
  rw [h] at g
  exact g

theorem State.OnlyChains.trans (h : s.OnlyChains t) (g : t.OnlyChains u) : s.OnlyChains u := by
  unfold State.OnlyChains at *
  rw [h] at g
  exact g

theorem State.OnlyRoll.chains (h : s.OnlyRoll t) : s.OnlyChains t := by
  unfold State.OnlyRoll at h
  unfold State.OnlyChains
  rw [h]

theorem State.OnlyPages.chains (h : s.OnlyPages t) : s.OnlyChains t := by
  unfold State.OnlyPages at h
  unfold State.OnlyChains
  rw [h]

theorem State.OnlyRoll.dirPages (h : s.OnlyRoll t) : t.dirPages = s.dirPages := by rw [h]
theorem State.OnlyChains.dirRoot (h : s.OnlyChains t) : t.dirRoot = s.dirRoot := by rw [h]
theorem State.OnlyPages.roll (h : s.OnlyPages t) : t.roll = s.roll := by rw [h]

theorem State.OnlyChains.relinkedFrame (h : s.OnlyChains t) :
    t = { s with roll := t.roll, dirRoot := t.dirRoot, dirPages := t.dirPages } := by
  unfold State.OnlyChains at h
  rw [h]

/-! ### The next records (R17) -/

theorem setNext_onlyRoll (s : State) (j : Nat) (o : Option Nat) : s.OnlyRoll (s.setNext j o) := by
  unfold State.setNext
  split <;> rfl

/-- A record takes a next record, and the others keep theirs. -/
theorem cand_setNext (s : State) (j : Nat) (o : Option Nat) (i : Nat) :
    (s.setNext j o).cand i = if i = j then (s.cand j).map (fun c => { c with nextRecord := o }) else s.cand i := by
  unfold State.setNext
  cases hc : s.cand j with
  | none =>
    by_cases h : i = j
    · simp [h, hc]
    · simp [h]
  | some c => simp only [State.cand_setCand, Option.map_some]

theorem setNext_relinked (s : State) (j : Nat) (o : Option Nat) : s.Relinked (s.setNext j o) := by
  refine ⟨(setNext_onlyRoll s j o).chains.relinkedFrame, fun i => ?_, fun hs => ?_⟩
  · rw [cand_setNext]
    split
    · next h => subst h; cases s.cand i <;> rfl
    · rfl
  · unfold State.setNext
    split
    · next c hc => exact { hs with roll := hs.roll.insert ⟨hs.cand_lt hc, fun i hi => hs.seat_lt hc hi⟩ }
    · exact hs

theorem linkRecords_onlyRoll (s : State) (l : List Nat) : s.OnlyRoll (s.linkRecords l) := by
  induction l generalizing s with
  | nil => rfl
  | cons j rest ih =>
    cases rest with
    | nil => exact setNext_onlyRoll s j none
    | cons i rest => exact (setNext_onlyRoll s j (some i)).trans (ih (s.setNext j (some i)))

theorem linkRecords_relinked (s : State) (l : List Nat) : s.Relinked (s.linkRecords l) := by
  induction l generalizing s with
  | nil => exact .refl s
  | cons j rest ih =>
    cases rest with
    | nil => exact setNext_relinked s j none
    | cons i rest => exact (ih (s.setNext j (some i))).after (setNext_relinked s j (some i))

/-! ### The directory (R14 to R18) -/

/-- A change of the directory alone, within its capacity. -/
theorem relinked_of_directory {root : Table Nat} {pages : Table Page} (hr : RootLaw s.dirRoot → RootLaw root)
    (hp : PagesLaw s.dirPages → PagesLaw pages) : s.Relinked { s with dirRoot := root, dirPages := pages } :=
  ⟨rfl, fun _ => rfl, fun hs => { hs with root := hr hs.root, pages := hp hs.pages }⟩

theorem setDirSlot_onlyPages (s : State) (p : Nat) (x : Fin 8) (d : Option DirSlot) :
    s.OnlyPages (s.setDirSlot p x d) := by
  unfold State.setDirSlot
  split <;> rfl

theorem setDirSlot_relinked (s : State) (p : Nat) (x : Fin 8) (d : Option DirSlot) : s.Relinked (s.setDirSlot p x d) := by
  unfold State.setDirSlot
  split
  · next pg hpg => exact relinked_of_directory id fun h => h.insert (h.find hpg)
  · exact .refl s

theorem setHead_onlyPages (s : State) (n j : Nat) : s.OnlyPages (s.setHead n j) := by
  unfold State.setHead
  split
  · exact setDirSlot_onlyPages ..
  · rfl

theorem setHead_relinked (s : State) (n j : Nat) : s.Relinked (s.setHead n j) := by
  unfold State.setHead
  split
  · exact setDirSlot_relinked ..
  · exact .refl s

/-- The lowest number that satisfies a test, among so many from one on. -/
theorem lowestFrom_eq_some {p : Nat → Bool} {f i j : Nat} :
    lowestFrom p f i = some j ↔ i ≤ j ∧ j < i + f ∧ p j = true ∧ ∀ k, i ≤ k → k < j → p k = false := by
  induction f generalizing i with
  | zero => simp [lowestFrom]; omega
  | succ f ih =>
    unfold lowestFrom
    cases hp : p i with
    | true =>
      simp only [if_true, Option.some.injEq]
      constructor
      · rintro rfl
        exact ⟨le_rfl, by omega, hp, fun k h1 h2 => by omega⟩
      · rintro ⟨h1, -, -, h4⟩
        by_contra hne
        have := h4 i le_rfl (by omega)
        simp [hp] at this
    | false =>
      simp only [Bool.false_eq_true, if_false, ih]
      constructor
      · rintro ⟨h1, h2, h3, h4⟩
        refine ⟨by omega, by omega, h3, fun k hk1 hk2 => ?_⟩
        by_cases hk : k = i
        · exact hk ▸ hp
        · exact h4 k (by omega) hk2
      · rintro ⟨h1, h2, h3, h4⟩
        have hne : i ≠ j := fun e => by rw [e, h3] at hp; cases hp
        exact ⟨by omega, by omega, h3, fun k hk1 hk2 => h4 k (by omega) hk2⟩

/-- No number among so many from one on satisfies a test. -/
theorem lowestFrom_eq_none {p : Nat → Bool} {f i : Nat} :
    lowestFrom p f i = none ↔ ∀ k, i ≤ k → k < i + f → p k = false := by
  induction f generalizing i with
  | zero => simp only [lowestFrom, true_iff]; intros; omega
  | succ f ih =>
    unfold lowestFrom
    cases hp : p i with
    | true =>
      simp only [if_true, reduceCtorEq, false_iff, not_forall]
      exact ⟨i, le_rfl, by omega, by simp [hp]⟩
    | false =>
      simp only [Bool.false_eq_true, if_false, ih]
      constructor
      · intro h k hk1 hk2
        by_cases hk : k = i
        · exact hk ▸ hp
        · exact h k (by omega) (by omega)
      · exact fun h k hk1 hk2 => h k (by omega) (by omega)

/-- The page taken from the pool is the lowest-numbered that is not linked (R16). -/
theorem poolPage_eq_some {p : Nat} : s.poolPage = some p ↔
    p < 160 ∧ tableFind s.dirPages p = none ∧ ∀ q, q < p → tableFind s.dirPages q ≠ none := by
  unfold State.poolPage
  rw [lowestFrom_eq_some]
  simp [Config.directoryPages, ← Option.isNone_iff_eq_none]

/-- The roll slot that ENROL takes is the lowest free one (R2). -/
theorem freeRollSlot_eq_some {j : Nat} : s.freeRollSlot = some j ↔
    j < 1024 ∧ s.cand j = none ∧ ∀ i, i < j → s.cand i ≠ none := by
  unfold State.freeRollSlot
  rw [lowestFrom_eq_some]
  simp [Config.rollSlots, ← Option.isNone_iff_eq_none]

theorem linkPage_relinked (s : State) {b p : Nat} (pg : Page) (hb : b < 64) (hp : p < 160) :
    s.Relinked (s.linkPage b p pg) := by
  unfold State.linkPage
  split
  · exact relinked_of_directory (fun h => h.insert hb) fun h => h.insert hp
  · split
    · next hq => exact relinked_of_directory id fun h => TableOf.insert (h.insert (h.find hq)) hp
    · exact .refl s

theorem bucketOf_lt (n : Nat) : bucketOf n < 64 := Nat.mod_lt _ (by decide)

theorem dirInsert_relinked (s : State) (n j : Nat) : s.Relinked (s.dirInsert n j) := by
  unfold State.dirInsert
  split
  · exact setDirSlot_relinked ..
  · split
    · next hp => exact linkPage_relinked s _ (bucketOf_lt n) (poolPage_eq_some.1 hp).1
    · exact .refl s

theorem unlinkPage_relinked (s : State) {b : Nat} (hb : b < 64) (p : Nat) : s.Relinked (s.unlinkPage b p) := by
  unfold State.unlinkPage
  split
  · exact .refl s
  split
  · split
    · exact relinked_of_directory (fun h => h.insert hb) fun h => h.erase p
    · exact relinked_of_directory (fun h => h.erase b) fun h => h.erase p
  · split
    · next ha => exact relinked_of_directory id fun h => TableOf.erase (h.insert (h.find ha)) p
    · exact .refl s

theorem dirRemove_relinked (s : State) (n : Nat) : s.Relinked (s.dirRemove n) := by
  unfold State.dirRemove
  split
  · exact .refl s
  · split
    · exact (unlinkPage_relinked _ (bucketOf_lt n) _).after (setDirSlot_relinked ..)
    · exact setDirSlot_relinked ..

/-! ### The chains (R17 to R19) -/

theorem writeChain_relinked (s : State) (n : Nat) (l : List Nat) : s.Relinked (s.writeChain n l) := by
  unfold State.writeChain
  split
  · exact .refl s
  · exact (linkRecords_relinked ..).after (setHead_relinked ..)

/-- A chain that is written leaves the root of the directory. -/
theorem writeChain_onlyChains (s : State) (n : Nat) (l : List Nat) : s.OnlyChains (s.writeChain n l) := by
  unfold State.writeChain
  split
  · rfl
  · exact (setHead_onlyPages ..).chains.trans (linkRecords_onlyRoll ..).chains

theorem joinChain_relinked (s : State) (n j : Nat) : s.Relinked (s.joinChain n j) := by
  unfold State.joinChain
  split
  · exact (setNext_relinked ..).after (dirInsert_relinked ..)
  · exact writeChain_relinked ..

theorem leaveChain_relinked (s : State) (n j : Nat) : s.Relinked (s.leaveChain n j) := by
  unfold State.leaveChain
  split
  · exact dirRemove_relinked ..
  · exact writeChain_relinked ..

theorem reorderRecord_relinked (j : Nat) (s : State) : s.Relinked (reorderRecord j s) := by
  unfold reorderRecord
  split
  · exact writeChain_relinked ..
  · exact .refl s

theorem takeInTurn_relinked {ι : Type} (is : List ι) (f : ι → State → State)
    (h : ∀ (i : ι) (s : State), s.Relinked (f i s)) (s : State) : s.Relinked (takeInTurn is f s) :=
  takeInTurn_invariant (fun t => s.Relinked t) is f (fun i t ht => ht.trans (h i t)) s (.refl s)

/-! ### CLASH (R7, R19) -/

theorem setClash_quiet (j : Nat) (s : State) : s.Quiet (setClash j s) := by
  unfold setClash
  split
  · next hc => exact setCand_sameSeat_quiet hc rfl rfl
  · exact .refl s

theorem markClashes_quiet (j : Nat) (s : State) : s.Quiet (markClashes j s) := by
  unfold markClashes
  split
  · exact .refl s
  · exact takeInTurn_quiet _ _ setClash_quiet s

/-- The cause that follows a clash, where there is one. -/
theorem raiseIf_quiet (b : Prop) [Decidable b] (g : CauseGroup) (s : State) : s.Quiet (if b then s.raise g else s) := by
  split
  · exact raise_quiet ..
  · exact .refl s

/-! ### The store law through the requests that relink -/

/-- A new record in one of the 1024 slots, with no seat. -/
theorem State.Stores.setCand (hs : s.Stores) {j : Nat} (hj : j < 1024) {c : Candidate} (hc : c.currentSeat = none) :
    (s.setCand j c).Stores :=
  { hs with roll := hs.roll.insert ⟨hj, fun i hi => by rw [hc] at hi; cases hi⟩ }

/-- A change of scripts that keeps some of them. -/
theorem State.Stores.filterScripts (hs : s.Stores) (p : Nat × Script → Bool) :
    ({ s with scripts := s.scripts.filter p } : State).Stores :=
  { hs with scripts := ⟨hs.scripts.1.filter p, (List.length_filter_le ..).trans hs.scripts.2⟩ }

theorem State.Stores.eraseCand (hs : s.Stores) (j : Nat) : (s.eraseCand j).Stores := { hs with roll := hs.roll.erase j }

theorem State.Stores.setSitting (hs : s.Stores) (k : Fin 8) (g : Sitting) : (s.setSitting k g).Stores := { hs with }

theorem enrolAt_stores (hs : s.Stores) {j : Nat} (hj : j < 1024) {c : Candidate} (hc : c.currentSeat = none) :
    (s.enrolAt j c).Stores := by
  unfold State.enrolAt
  exact (raiseIf_quiet ..).stores ((markClashes_quiet ..).stores
    ((joinChain_relinked ..).stores (hs.setCand hj hc)))

theorem retireRecord_stores (hs : s.Stores) (j : Nat) (c : Candidate) : (s.retireRecord j c).Stores :=
  ((leaveChain_relinked ..).stores (hs.filterScripts _)).eraseCand j

/-- The records after a SCHEDULE has put them back into their chains (R19, step 1). -/
def State.reordered (s : State) (k : Fin 8) (old : Sitting) : State :=
  if old.t0 = s.sittings[k].t0 then s else takeInTurn (s.recordsOf k) reorderRecord s

/-- The records after a SCHEDULE has tested them for overlaps (R19, step 2). -/
def State.clashTested (s : State) (k : Fin 8) (old new : Sitting) : State :=
  if old.t0 = new.t0 ∧ old.r = new.r ∧ old.w = new.w then s else takeInTurn (s.recordsOf k) markClashes s

/-- R19: the records are reordered, then tested, and one cause is raised where a flag became set. -/
theorem rescheduleRecords_eq (s : State) (k : Fin 8) (old : Sitting) :
    s.rescheduleRecords k old =
      (if s.clashCount < ((s.reordered k old).clashTested k old s.sittings[k]).clashCount then
        ((s.reordered k old).clashTested k old s.sittings[k]).raise .admission
      else (s.reordered k old).clashTested k old s.sittings[k]) := rfl

theorem reordered_relinked (s : State) (k : Fin 8) (old : Sitting) : s.Relinked (s.reordered k old) := by
  unfold State.reordered
  split
  · exact .refl s
  · exact takeInTurn_relinked _ _ reorderRecord_relinked s

theorem clashTested_quiet (s : State) (k : Fin 8) (old new : Sitting) : s.Quiet (s.clashTested k old new) := by
  unfold State.clashTested
  split
  · exact .refl s
  · exact takeInTurn_quiet _ _ markClashes_quiet s

theorem rescheduleRecords_quiet (s : State) (k : Fin 8) (old : Sitting) :
    (s.reordered k old).Quiet (s.rescheduleRecords k old) := by
  rw [rescheduleRecords_eq]
  exact (raiseIf_quiet ..).after (clashTested_quiet ..)

/-- The store law in its Prop form is a condition that every step keeps. -/
theorem stores_kept : Kept State.Stores where
  quiet h hs := h.stores hs
  relink := by
    intro i op s hr ho hs
    cases i <;> cases hr <;> cases ho
    case enrol n k a r f =>
      unfold enrol
      split
      · exact hs
      split
      · exact hs
      split
      · exact hs
      split
      · exact hs
      split
      · exact hs
      next j hj =>
      split
      · exact hs
      · exact enrolAt_stores hs (freeRollSlot_eq_some.1 hj).1 rfl
    case retire n k =>
      unfold retire
      repeat' split
      all_goals first
        | exact hs
        | exact retireRecord_stores hs _ _
    case schedule k t list =>
      unfold schedule
      repeat' split
      all_goals first
        | exact hs
        | exact (rescheduleRecords_quiet ..).stores ((reordered_relinked ..).stores (hs.setSitting _ _))
    case retireSitting k =>
      unfold retireSitting
      repeat' split
      all_goals first
        | exact hs
        | exact ((emptyKey_quiet ..).stores hs).setSitting _ _
  reset s := ⟨.empty, .empty, .empty, .empty, ⟨.empty, Nat.zero_le _⟩, fun k => by
    show tableSorted (Vector.replicate 8 KeySlot.emptySlot)[k].entries = true
    simp [KeySlot.emptySlot, tableSorted]⟩

/-- Settles O6: the store law holds store by store, quiet changes keep it, and so do the requests that relink. -/
theorem stepKeepsTheStoreLaw : Obligations.StepKeepsTheStoreLaw := by
  intro s t hs he
  exact (storeLaw_iff t).2 (stores_kept.step ((storeLaw_iff s).1 hs) he)

end Sys2Proof.Machine
end

