-- ==== Sys2Proof/Proofs/Chains.lean ====
section
/-! SUPPORT. Chains of numbers, each leading to the next: the page chain of a bucket and the record chain of a number are
the same thing read from two tables (R14, R17). And the first directory slot that satisfies a test (R15). -/

namespace Sys2Proof.Machine

variable {s t u : State} {next next' : Nat → Option Nat} {o : Option Nat} {l l' : List Nat}

/-! ### Chains -/

/-- The numbers from one on, each followed by the next, so many at most. -/
def follow (next : Nat → Option Nat) : (fuel : Nat) → Option Nat → List Nat
  | 0, _ => []
  | _ + 1, none => []
  | f + 1, some p => p :: follow next f (next p)

/-- A whole chain: it begins at a number, each member leads to the following one, and the last to none. -/
def Linked (next : Nat → Option Nat) : Option Nat → List Nat → Prop
  | o, [] => o = none
  | o, p :: l => o = some p ∧ Linked next (next p) l

theorem linked_none : Linked next none l ↔ l = [] := by cases l <;> simp [Linked]

theorem linked_some {p : Nat} : Linked next (some p) l ↔ ∃ l', l = p :: l' ∧ Linked next (next p) l' := by
  cases l with
  | nil => simp [Linked]
  | cons q l =>
    simp only [Linked, Option.some.injEq, List.cons.injEq]
    constructor
    · rintro ⟨rfl, h⟩
      exact ⟨l, ⟨rfl, rfl⟩, h⟩
    · rintro ⟨_, ⟨rfl, rfl⟩, h⟩
      exact ⟨rfl, h⟩

/-- A chain is determined by where it begins. -/
theorem linked_unique (h : Linked next o l) (h' : Linked next o l') : l = l' := by
  induction l generalizing o l' with
  | nil => subst h; exact (linked_none.1 h').symm
  | cons p l ih =>
    obtain ⟨rfl, hl⟩ := h
    obtain ⟨l'', rfl, hl'⟩ := linked_some.1 h'
    rw [ih hl hl']

/-- Each member of a chain begins the rest of it. -/
theorem linked_suffix {before after : List Nat} {p : Nat} (h : Linked next o (before ++ p :: after)) :
    Linked next (some p) (p :: after) := by
  induction before generalizing o with
  | nil => exact ⟨rfl, h.2⟩
  | cons q before ih => exact ih h.2

/-- No number stands twice in a chain that ends. -/
theorem linked_nodup (h : Linked next o l) : l.Nodup := by
  induction l generalizing o with
  | nil => exact List.nodup_nil
  | cons p l ih =>
    obtain ⟨rfl, hl⟩ := h
    refine List.nodup_cons.2 ⟨fun hp => ?_, ih hl⟩
    obtain ⟨before, after, rfl⟩ := List.append_of_mem hp
    have heq := linked_unique (linked_suffix hl) (show Linked next (some p) (p :: (before ++ p :: after)) from ⟨rfl, hl⟩)
    have := congrArg List.length heq
    simp at this
    omega

/-- A chain reads the table at its members alone. -/
theorem linked_congr (hn : ∀ p ∈ l, next' p = next p) : Linked next' o l ↔ Linked next o l := by
  induction l generalizing o with
  | nil => rfl
  | cons p l ih =>
    simp only [Linked, hn p List.mem_cons_self, ih fun q hq => hn q (List.mem_cons_of_mem _ hq)]

theorem length_follow_le (f : Nat) : (follow next f o).length ≤ f := by
  induction f generalizing o with
  | zero => simp [follow]
  | succ f ih => cases o with
    | none => simp [follow]
    | some p => simpa [follow] using ih

/-- A whole chain is followed to its end, where it is no longer than allowed. -/
theorem follow_of_linked {f : Nat} (h : Linked next o l) (hl : l.length ≤ f) : follow next f o = l := by
  induction l generalizing o f with
  | nil => subst h; cases f <;> rfl
  | cons p l ih =>
    obtain ⟨rfl, h⟩ := h
    cases f with
    | zero => simp at hl
    | succ f => rw [follow, ih h (by simpa using hl)]

/-- A chain that ends within what is allowed is whole. -/
theorem linked_of_short {f : Nat} (h : (follow next f o).length < f) : Linked next o (follow next f o) := by
  induction f generalizing o with
  | zero => simp at h
  | succ f ih => cases o with
    | none => rfl
    | some p => exact ⟨rfl, ih (by simpa [follow] using h)⟩

/-- A chain whose last member leads to none is whole. -/
theorem linked_of_last {f : Nat} (h : (follow next (f + 1) o).getLast?.bind next = none) :
    Linked next o (follow next (f + 1) o) := by
  induction f generalizing o with
  | zero => cases o with
    | none => rfl
    | some p => exact ⟨rfl, by simpa [follow, Linked] using h⟩
  | succ f ih => cases o with
    | none => rfl
    | some p =>
      refine ⟨rfl, ih ?_⟩
      cases hn : next p with
      | none => rfl
      | some q =>
        rw [follow, hn] at h
        simpa [follow, List.getLast?_cons_cons] using h

/-- The last member of a whole chain leads to none. -/
theorem last_of_linked (h : Linked next o l) : l.getLast?.bind next = none := by
  induction l generalizing o with
  | nil => rfl
  | cons p l ih =>
    cases l with
    | nil => exact h.2
    | cons q l => rw [List.getLast?_cons_cons]; exact ih h.2

theorem head_follow {f : Nat} : (follow next (f + 1) o).head? = o := by cases o <;> rfl

/-- Each member of a chain but the last that is allowed leads to the following one. -/
theorem follow_split {f : Nat} {before after : List Nat} {p : Nat} (h : follow next f o = before ++ p :: after)
    (hf : before.length + 1 < f) : after.head? = next p := by
  induction before generalizing f o with
  | nil =>
    obtain ⟨f, rfl⟩ : ∃ g, f = g + 2 := ⟨f - 2, by simp at hf; omega⟩
    cases o with
    | none => simp [follow] at h
    | some q =>
      obtain ⟨rfl, rfl⟩ := List.cons.inj h
      exact head_follow
  | cons q before ih =>
    cases f with
    | zero => simp at hf
    | succ f =>
      cases o with
      | none => simp [follow] at h
      | some r =>
        have h' := (List.cons.inj h).2
        exact ih h' (by simp at hf; omega)

/-- A chain that goes on at its end: the last member now leads to a new one, which leads to none. -/
theorem linked_append {p : Nat} (h : Linked next o l) (hp : p ∉ l) (hnew : next' p = none)
    (hlast : ∀ q, l.getLast? = some q → next' q = some p) (hn : ∀ q ∈ l, l.getLast? ≠ some q → next' q = next q) :
    Linked next' (if l = [] then some p else o) (l ++ [p]) := by
  induction l generalizing o with
  | nil => exact ⟨rfl, hnew⟩
  | cons q l ih =>
    obtain ⟨rfl, hl⟩ := h
    have hpl : p ∉ l := fun hm => hp (List.mem_cons_of_mem _ hm)
    refine ⟨rfl, ?_⟩
    cases l with
    | nil =>
      rw [hlast q rfl]
      exact ⟨rfl, hnew⟩
    | cons r l =>
      have hq : q ∉ r :: l := (List.nodup_cons.1 (linked_nodup (show Linked next (some q) (q :: r :: l) from ⟨rfl, hl⟩))).1
      have hqlast : (q :: r :: l).getLast? ≠ some q := by
        rw [List.getLast?_cons_cons]
        exact fun e => hq (List.mem_of_getLast? e)
      have := ih hl hpl (fun x hx => hlast x (by rwa [List.getLast?_cons_cons]))
        (fun x hx hne => hn x (List.mem_cons_of_mem _ hx) (by rwa [List.getLast?_cons_cons]))
      rw [hn q List.mem_cons_self hqlast]
      simpa using this

/-- A chain closed over one of its members: the one before it now leads to what followed it. -/
theorem linked_remove {before after : List Nat} {p : Nat} (h : Linked next o (before ++ p :: after))
    (hlast : ∀ q, before.getLast? = some q → next' q = next p)
    (hb : ∀ q ∈ before, before.getLast? ≠ some q → next' q = next q) (ha : ∀ q ∈ after, next' q = next q) :
    Linked next' (if before = [] then next p else o) (before ++ after) := by
  induction before generalizing o with
  | nil => exact (linked_congr ha).2 h.2
  | cons q before ih =>
    obtain ⟨rfl, hl⟩ := h
    refine ⟨rfl, ?_⟩
    cases before with
    | nil =>
      rw [hlast q rfl]
      exact (linked_congr ha).2 hl.2
    | cons r before =>
      have hq : q ∉ r :: before := fun hm =>
        (List.nodup_cons.1 (linked_nodup (show Linked next (some q) (q :: (r :: before ++ p :: after)) from ⟨rfl, hl⟩))).1
          (List.mem_append_left _ hm)
      have hqlast : (q :: r :: before).getLast? ≠ some q := by
        rw [List.getLast?_cons_cons]
        exact fun e => hq (List.mem_of_getLast? e)
      have := ih hl (fun x hx => hlast x (by rwa [List.getLast?_cons_cons]))
        (fun x hx hne => hb x (List.mem_cons_of_mem _ hx) (by rwa [List.getLast?_cons_cons]))
      rw [hb q List.mem_cons_self hqlast]
      simpa using this

/-! ### The page chains and the record chains -/

/-- The page that follows a page (R14). -/
def State.nextPage (s : State) (p : Nat) : Option Nat := (tableFind s.dirPages p).bind Page.next

/-- The record that follows a record (R17). -/
def State.nextRec (s : State) (j : Nat) : Option Nat := (s.cand j).bind Candidate.nextRecord

theorem bucketPages_eq (s : State) (b : Nat) : s.bucketPages b = follow s.nextPage 160 (tableFind s.dirRoot b) := by
  have h : ∀ f o, pagesFrom s.dirPages f o = follow s.nextPage f o := by
    intro f
    induction f with
    | zero => exact fun _ => rfl
    | succ f ih => intro o; cases o with
      | none => rfl
      | some p => exact congrArg (p :: ·) (ih _)
  exact h _ _

theorem chain_eq (s : State) (n : Nat) : s.chain n = follow s.nextRec 8 (s.lookup n) := by
  have h : ∀ f o, chainFrom s.roll f o = follow s.nextRec f o := by
    intro f
    induction f with
    | zero => exact fun _ => rfl
    | succ f ih => intro o; cases o with
      | none => rfl
      | some p => exact congrArg (p :: ·) (ih _)
  exact h _ _

theorem length_bucketPages_le (s : State) (b : Nat) : (s.bucketPages b).length ≤ 160 := by
  rw [bucketPages_eq]
  exact length_follow_le _

theorem length_chain_le (s : State) (n : Nat) : (s.chain n).length ≤ 8 := by
  rw [chain_eq]
  exact length_follow_le _

theorem head_bucketPages (s : State) (b : Nat) : (s.bucketPages b).head? = tableFind s.dirRoot b := by
  rw [bucketPages_eq]
  exact head_follow

theorem head_chain (s : State) (n : Nat) : (s.chain n).head? = s.lookup n := by
  rw [chain_eq]
  exact head_follow

/-- The page chain of a bucket that ends within the directory's pages is whole. -/
theorem linked_bucketPages {b : Nat} (h : (s.bucketPages b).length < 160) :
    Linked s.nextPage (tableFind s.dirRoot b) (s.bucketPages b) := by
  rw [bucketPages_eq] at *
  exact linked_of_short h

/-- A record chain shorter than eight is whole. -/
theorem linked_chain {n : Nat} (h : (s.chain n).length < 8) : Linked s.nextRec (s.lookup n) (s.chain n) := by
  rw [chain_eq] at *
  exact linked_of_short h

theorem bucketPages_of_linked {b : Nat} (h : Linked s.nextPage (tableFind s.dirRoot b) l) (hl : l.length ≤ 160) :
    s.bucketPages b = l := by
  rw [bucketPages_eq]
  exact follow_of_linked h hl

theorem chain_of_linked {n : Nat} (h : Linked s.nextRec (s.lookup n) l) (hl : l.length ≤ 8) : s.chain n = l := by
  rw [chain_eq]
  exact follow_of_linked h hl

/-! ### The first slot that satisfies a test (R15) -/

/-- The first member of a rising list that satisfies a test is the least that does. -/
theorem find?_of_rising {k : Nat} {f : Fin k → Bool} {is : List (Fin k)} (h : is.Pairwise (· < ·)) (x : Fin k) :
    is.find? f = some x ↔ x ∈ is ∧ f x = true ∧ ∀ y ∈ is, y < x → f y = false := by
  induction is with
  | nil => simp
  | cons i is ih =>
    obtain ⟨hi, his⟩ := List.pairwise_cons.1 h
    cases hf : f i with
    | true =>
      rw [List.find?_cons_of_pos hf, Option.some.injEq]
      constructor
      · rintro rfl
        refine ⟨List.mem_cons_self, hf, fun y hy hlt => ?_⟩
        rcases List.mem_cons.1 hy with rfl | hy
        · exact absurd hlt (lt_irrefl _)
        · exact absurd hlt (lt_asymm (hi y hy))
      · rintro ⟨hx, -, hall⟩
        rcases List.mem_cons.1 hx with rfl | hx
        · rfl
        · have := hall i List.mem_cons_self (hi x hx)
          rw [hf] at this
          cases this
    | false =>
      rw [List.find?_cons_of_neg (by simp [hf]), ih his]
      constructor
      · rintro ⟨hx, hfx, hall⟩
        refine ⟨List.mem_cons_of_mem _ hx, hfx, fun y hy hlt => ?_⟩
        rcases List.mem_cons.1 hy with rfl | hy
        · exact hf
        · exact hall y hy hlt
      · rintro ⟨hx, hfx, hall⟩
        rcases List.mem_cons.1 hx with rfl | hx
        · rw [hf] at hfx; cases hfx
        · exact ⟨hx, hfx, fun y hy hlt => hall y (List.mem_cons_of_mem _ hy) hlt⟩

theorem mem_eight : ∀ x : Fin 8, x ∈ eight := by decide

/-- The lowest of the eight indices that satisfies a test. -/
theorem find?_eight {f : Fin 8 → Bool} (x : Fin 8) :
    eight.find? f = some x ↔ f x = true ∧ ∀ y, y < x → f y = false := by
  rw [find?_of_rising (by decide)]
  simp [mem_eight]

/-- A slot of a directory page; the slots of a page in the pool are unused (R14). -/
def slotAt (pages : Table Page) (p : Nat) (x : Fin 8) : Option DirSlot := (slotsOf pages p)[x]

theorem slotAt_of_find {pages : Table Page} {p : Nat} {pg : Page} (h : tableFind pages p = some pg) (x : Fin 8) :
    slotAt pages p x = pg.slots[x] := by simp [slotAt, slotsOf, h]

theorem slotAt_of_pool {pages : Table Page} {p : Nat} (h : tableFind pages p = none) (x : Fin 8) :
    slotAt pages p x = none := by simp [slotAt, slotsOf, h]

/-- A used slot stands on a page outside the pool. -/
theorem find_of_slotAt {pages : Table Page} {p : Nat} {x : Fin 8} {d : DirSlot} (h : slotAt pages p x = some d) :
    ∃ pg, tableFind pages p = some pg ∧ pg.slots[x] = some d := by
  cases hp : tableFind pages p with
  | none => rw [slotAt_of_pool hp] at h; cases h
  | some pg => exact ⟨pg, rfl, slotAt_of_find hp x ▸ h⟩

variable {pages : Table Page} {test : Option DirSlot → Bool}

theorem findSlot_eq_none {ps : List Nat} :
    findSlot pages test ps = none ↔ ∀ p ∈ ps, ∀ x, test (slotAt pages p x) = false := by
  induction ps with
  | nil => simp [findSlot]
  | cons p ps ih =>
    unfold findSlot
    cases hf : eight.find? (fun x => test (slotsOf pages p)[x]) with
    | some x =>
      have := (find?_eight x).1 hf
      simp only [reduceCtorEq, List.mem_cons, forall_eq_or_imp, false_iff, not_and]
      intro h
      have hx := h x
      rw [show test (slotAt pages p x) = true from this.1] at hx
      cases hx
    | none =>
      have hp : ∀ x, test (slotAt pages p x) = false := fun x =>
        Bool.eq_false_iff.2 (List.find?_eq_none.1 hf x (mem_eight x))
      simp [ih, hp]

/-- The first slot that satisfies a test, pages in chain order and slots in slot order (R15). -/
theorem findSlot_eq_some {ps : List Nat} {p : Nat} {x : Fin 8} :
    findSlot pages test ps = some (p, x) ↔ ∃ before after, ps = before ++ p :: after ∧
      (∀ q ∈ before, ∀ y, test (slotAt pages q y) = false) ∧ (∀ y, y < x → test (slotAt pages p y) = false) ∧
      test (slotAt pages p x) = true := by
  induction ps with
  | nil => simp [findSlot]
  | cons q ps ih =>
    unfold findSlot
    cases hf : eight.find? (fun x => test (slotsOf pages q)[x]) with
    | some z =>
      obtain ⟨hz, hlow⟩ := (find?_eight z).1 hf
      simp only [Option.some.injEq, Prod.mk.injEq]
      constructor
      · rintro ⟨rfl, rfl⟩
        exact ⟨[], ps, rfl, by simp, hlow, hz⟩
      · rintro ⟨before, after, heq, hb, hl, hx⟩
        cases before with
        | nil =>
          obtain ⟨rfl, rfl⟩ := List.cons.inj heq
          exact ⟨rfl, Option.some.inj (hf.symm.trans ((find?_eight x).2 ⟨hx, hl⟩))⟩
        | cons r before =>
          obtain ⟨rfl, -⟩ := List.cons.inj heq
          have := hb q List.mem_cons_self z
          rw [show test (slotAt pages q z) = true from hz] at this
          cases this
    | none =>
      have hq : ∀ y, test (slotAt pages q y) = false := fun y =>
        Bool.eq_false_iff.2 (List.find?_eq_none.1 hf y (mem_eight y))
      simp only [ih]
      constructor
      · rintro ⟨before, after, rfl, hb, hl, hx⟩
        refine ⟨q :: before, after, rfl, fun r hr => ?_, hl, hx⟩
        rcases List.mem_cons.1 hr with rfl | hr
        · exact hq
        · exact hb r hr
      · rintro ⟨before, after, heq, hb, hl, hx⟩
        cases before with
        | nil =>
          obtain ⟨rfl, -⟩ := List.cons.inj heq
          rw [hq x] at hx
          cases hx
        | cons r before =>
          obtain ⟨rfl, rfl⟩ := List.cons.inj heq
          exact ⟨before, after, rfl, fun z hz => hb z (List.mem_cons_of_mem _ hz), hl, hx⟩

/-- A slot that holds a number. -/
theorem holdsNumber_eq_true {n : Nat} {d : Option DirSlot} : holdsNumber n d = true ↔ ∃ j, d = some ⟨n, j⟩ := by
  cases d with
  | none => simp [holdsNumber]
  | some d =>
    obtain ⟨m, i⟩ := d
    simp only [holdsNumber, beq_iff_eq, Option.some.injEq, DirSlot.mk.injEq]
    exact ⟨fun h => ⟨i, h, rfl⟩, fun ⟨_, h, _⟩ => h⟩

theorem holdsNumber_eq_false {n : Nat} {d : Option DirSlot} : holdsNumber n d = false ↔ ∀ j, d ≠ some ⟨n, j⟩ := by
  rw [← Bool.not_eq_true, holdsNumber_eq_true]
  simp

/-- The lookup of a number reads the slot found for it (R15). -/
theorem lookup_eq_some {n j : Nat} :
    s.lookup n = some j ↔ ∃ p x, s.dirPlace n = some (p, x) ∧ slotAt s.dirPages p x = some ⟨n, j⟩ := by
  unfold State.lookup
  cases h : s.dirPlace n with
  | none => simp
  | some y =>
    obtain ⟨p, x⟩ := y
    obtain ⟨_, _, _, _, _, hx⟩ := findSlot_eq_some.1 h
    obtain ⟨i, hi⟩ := holdsNumber_eq_true.1 hx
    simp only [Option.map_eq_some_iff]
    constructor
    · rintro ⟨d, hd, rfl⟩
      obtain rfl := Option.some.inj (hd.symm.trans hi)
      exact ⟨p, x, rfl, hd⟩
    · rintro ⟨p', x', h', hd⟩
      obtain ⟨rfl, rfl⟩ := Prod.mk.inj (Option.some.inj h')
      exact ⟨_, hd, rfl⟩

/-- A number is not found exactly where no slot of its bucket's pages holds it (R15). -/
theorem lookup_eq_none {n : Nat} :
    s.lookup n = none ↔ ∀ p ∈ s.bucketPages (n % 64), ∀ x j, slotAt s.dirPages p x ≠ some ⟨n, j⟩ := by
  have hplace : s.lookup n = none ↔ s.dirPlace n = none := by
    cases h : s.dirPlace n with
    | none => simp [State.lookup, h]
    | some y =>
      obtain ⟨p, x⟩ := y
      obtain ⟨_, _, _, _, _, hx⟩ := findSlot_eq_some.1 h
      obtain ⟨i, hi⟩ := holdsNumber_eq_true.1 hx
      simp only [reduceCtorEq, iff_false]
      rw [(lookup_eq_some).2 ⟨p, x, h, hi⟩]
      simp
  rw [hplace]
  unfold State.dirPlace
  rw [findSlot_eq_none]
  simp only [holdsNumber_eq_false]
  rfl

end Sys2Proof.Machine
end

