-- ==== Sys2Proof/Proofs/Directory.lean ====
section
/-! SUPPORT. The directory's buckets (R14): which pages each bucket links, which slots they hold, and what the
operations on slots and pages make of them (R15, R16, R18). -/

namespace Sys2Proof.Machine

variable {s t : State} {B : Nat → List Nat}

/-! ### The law of the buckets -/

/-- The pages outside the pool are linked into the buckets, each into one; the slots of a bucket's pages hold numbers of
the bucket, and no number stands in two slots (R14, R15). -/
structure State.Buckets (s : State) (B : Nat → List Nat) : Prop where
  linked : ∀ b, Linked s.nextPage (tableFind s.dirRoot b) (B b)
  covers : ∀ p, (∃ b, p ∈ B b) ↔ (tableFind s.dirPages p).isSome = true
  apart : ∀ b b' p, p ∈ B b → p ∈ B b' → b = b'
  bucket : ∀ b p x d, p ∈ B b → slotAt s.dirPages p x = some d → d.number % 64 = b
  unique : ∀ p x p' x' d d', slotAt s.dirPages p x = some d → slotAt s.dirPages p' x' = some d' →
    d.number = d'.number → p = p' ∧ x = x'

/-- Every page outside the pool has a used slot (R14, R18). -/
def State.NoEmptyPage (s : State) : Prop :=
  ∀ p, (tableFind s.dirPages p).isSome = true → ∃ x d, slotAt s.dirPages p x = some d

namespace State.Buckets

theorem present (h : s.Buckets B) {b p : Nat} (hp : p ∈ B b) : (tableFind s.dirPages p).isSome = true :=
  (h.covers p).1 ⟨b, hp⟩

theorem nodup (h : s.Buckets B) (b : Nat) : (B b).Nodup := linked_nodup (h.linked b)

/-- A bucket has no more pages than the directory. -/
theorem length_le (h : s.Buckets B) (hs : s.Stores) (b : Nat) : (B b).length ≤ 160 := by
  have hsub : B b ⊆ List.range 160 := fun p hp => by
    obtain ⟨pg, hpg⟩ := Option.isSome_iff_exists.1 (h.present hp)
    exact List.mem_range.2 (hs.pages.find hpg)
  simpa using ((h.nodup b).subperm hsub).length_le

/-- The pages that the law gives a bucket are those that its chain reaches. -/
theorem bucketPages (h : s.Buckets B) (hs : s.Stores) (b : Nat) : s.bucketPages b = B b :=
  bucketPages_of_linked (h.linked b) (h.length_le hs b)

/-- The slot of a number stands on a page of the number's bucket. -/
theorem mem_of_slot (h : s.Buckets B) {p : Nat} {x : Fin 8} {d : DirSlot} (hd : slotAt s.dirPages p x = some d) :
    p ∈ B (d.number % 64) := by
  obtain ⟨pg, hpg, -⟩ := find_of_slotAt hd
  obtain ⟨b, hb⟩ := (h.covers p).2 (by simp [hpg])
  exact h.bucket b p x d hb hd ▸ hb

/-- A number is found where a slot holds it, and there alone (R15). -/
theorem dirPlace_iff (h : s.Buckets B) (hs : s.Stores) {n p : Nat} {x : Fin 8} :
    s.dirPlace n = some (p, x) ↔ ∃ j, slotAt s.dirPages p x = some ⟨n, j⟩ := by
  unfold State.dirPlace
  rw [findSlot_eq_some]
  constructor
  · rintro ⟨_, _, _, _, _, hx⟩
    exact holdsNumber_eq_true.1 hx
  · rintro ⟨j, hj⟩
    have hp : p ∈ s.bucketPages (bucketOf n) := h.bucketPages hs _ ▸ h.mem_of_slot hj
    obtain ⟨before, after, heq⟩ := List.append_of_mem hp
    have hnodup : (before ++ p :: after).Nodup := heq ▸ h.bucketPages hs _ ▸ h.nodup _
    refine ⟨before, after, heq, fun q hq y => ?_, fun y hy => ?_, holdsNumber_eq_true.2 ⟨j, hj⟩⟩
    · refine holdsNumber_eq_false.2 fun i hi => ?_
      obtain ⟨rfl, -⟩ := h.unique _ _ _ _ _ _ hi hj rfl
      exact (List.nodup_append.1 hnodup).2.2 q hq q List.mem_cons_self rfl
    · exact holdsNumber_eq_false.2 fun i hi => absurd (h.unique _ _ _ _ _ _ hi hj rfl).2 hy.ne

theorem lookup_iff (h : s.Buckets B) (hs : s.Stores) {n j : Nat} :
    s.lookup n = some j ↔ ∃ p x, slotAt s.dirPages p x = some ⟨n, j⟩ := by
  rw [lookup_eq_some]
  exact ⟨fun ⟨p, x, _, hx⟩ => ⟨p, x, hx⟩, fun ⟨p, x, hx⟩ => ⟨p, x, (h.dirPlace_iff hs).2 ⟨j, hx⟩, hx⟩⟩

theorem lookup_none_iff (h : s.Buckets B) (hs : s.Stores) {n : Nat} :
    s.lookup n = none ↔ ∀ p x j, slotAt s.dirPages p x ≠ some ⟨n, j⟩ := by
  rw [Option.eq_none_iff_forall_ne_some]
  simp only [ne_eq, h.lookup_iff hs, not_exists]
  exact ⟨fun g p x j => g j p x, fun g j p x => g p x j⟩

/-- Two directories that hold a number in the same slots find the same. -/
theorem lookup_congr {B' : Nat → List Nat} (h : s.Buckets B) (h' : t.Buckets B') (hs : s.Stores) (ht : t.Stores)
    {n : Nat} (hn : ∀ p x j, slotAt t.dirPages p x = some ⟨n, j⟩ ↔ slotAt s.dirPages p x = some ⟨n, j⟩) :
    t.lookup n = s.lookup n := by
  refine Option.ext fun j => ?_
  rw [h.lookup_iff hs, h'.lookup_iff ht]
  simp only [hn]

end State.Buckets

/-! ### Writing a slot -/

theorem find_setDirSlot (s : State) (p : Nat) (x : Fin 8) (d : Option DirSlot) (q : Nat) :
    tableFind (s.setDirSlot p x d).dirPages q =
      if q = p then (tableFind s.dirPages p).map (fun pg => { pg with slots := pg.slots.set x d })
      else tableFind s.dirPages q := by
  unfold State.setDirSlot
  cases hp : tableFind s.dirPages p with
  | none => by_cases h : q = p <;> simp [h, hp]
  | some pg =>
    by_cases h : q = p
    · subst h; simp
    · simp [h, tableFind_insert_ne _ _ h]

theorem isSome_setDirSlot (s : State) (p : Nat) (x : Fin 8) (d : Option DirSlot) (q : Nat) :
    (tableFind (s.setDirSlot p x d).dirPages q).isSome = (tableFind s.dirPages q).isSome := by
  rw [find_setDirSlot]
  split
  · next h => simp [h]
  · rfl

theorem nextPage_setDirSlot (s : State) (p : Nat) (x : Fin 8) (d : Option DirSlot) :
    (s.setDirSlot p x d).nextPage = s.nextPage := by
  funext q
  unfold State.nextPage
  rw [find_setDirSlot]
  split
  · next h => subst h; cases tableFind s.dirPages q <;> rfl
  · rfl

theorem dirRoot_setDirSlot (s : State) (p : Nat) (x : Fin 8) (d : Option DirSlot) :
    (s.setDirSlot p x d).dirRoot = s.dirRoot := (setDirSlot_onlyPages s p x d).chains.dirRoot

/-- A slot that is written changes no bucket's pages. -/
theorem bucketPages_setDirSlot (s : State) (p : Nat) (x : Fin 8) (d : Option DirSlot) (b : Nat) :
    (s.setDirSlot p x d).bucketPages b = s.bucketPages b := by
  rw [bucketPages_eq, bucketPages_eq, nextPage_setDirSlot, dirRoot_setDirSlot]

/-- A slot of a page outside the pool is written, and the others are as before. -/
theorem slotAt_setDirSlot {p : Nat} (hp : (tableFind s.dirPages p).isSome = true) (x : Fin 8) (d : Option DirSlot)
    (q : Nat) (y : Fin 8) :
    slotAt (s.setDirSlot p x d).dirPages q y = if q = p ∧ y = x then d else slotAt s.dirPages q y := by
  obtain ⟨pg, hpg⟩ := Option.isSome_iff_exists.1 hp
  by_cases hq : q = p
  · subst hq
    have hf : tableFind (s.setDirSlot q x d).dirPages q = some { pg with slots := pg.slots.set x d } := by
      rw [find_setDirSlot]; simp [hpg]
    rw [slotAt_of_find hf, slotAt_of_find hpg]
    by_cases hy : y = x
    · subst hy; simp
    · have : x.val ≠ y.val := fun e => hy (Fin.ext e.symm)
      simp [hy, this]
  · have hf := find_setDirSlot s p x d q
    rw [if_neg hq] at hf
    simp [slotAt, slotsOf, hf, hq]

/-- A slot written with a number of the page's bucket, which no other slot holds, keeps the law of the buckets. -/
theorem State.Buckets.setSlot (h : s.Buckets B) {p n : Nat} (j : Nat) {x : Fin 8} (hp : p ∈ B (n % 64))
    (hu : ∀ q y i, slotAt s.dirPages q y = some ⟨n, i⟩ → q = p ∧ y = x) : (s.setDirSlot p x (some ⟨n, j⟩)).Buckets B := by
  have hslot := slotAt_setDirSlot (h.present hp) x (some ⟨n, j⟩)
  have other : ∀ q y d, slotAt s.dirPages q y = some d → d.number = n → q = p ∧ y = x := fun q y d hd hn =>
    hu q y d.head (by rw [hd, ← hn])
  refine ⟨fun b => ?_, fun q => ?_, h.apart, fun b q y d hq hd => ?_, fun q y q' y' d d' hd hd' hn => ?_⟩
  · rw [nextPage_setDirSlot, dirRoot_setDirSlot]; exact h.linked b
  · rw [isSome_setDirSlot]; exact h.covers q
  · rw [hslot] at hd
    split at hd
    · next hqx =>
      obtain rfl := Option.some.inj hd
      exact h.apart _ _ p hp (hqx.1 ▸ hq)
    · exact h.bucket b q y d hq hd
  · rw [hslot] at hd hd'
    split at hd
    · next hqx =>
      obtain rfl := Option.some.inj hd
      split at hd'
      · next hqx' => exact ⟨hqx.1.trans hqx'.1.symm, hqx.2.trans hqx'.2.symm⟩
      · next hne => exact absurd (other q' y' d' hd' hn.symm) hne
    · next hne =>
      split at hd'
      · obtain rfl := Option.some.inj hd'
        exact absurd (other q y d hd hn) hne
      · exact h.unique q y q' y' d d' hd hd' hn

/-- A slot that becomes unused keeps the law of the buckets. -/
theorem State.Buckets.clearSlot (h : s.Buckets B) {p : Nat} (hp : (tableFind s.dirPages p).isSome = true) (x : Fin 8) :
    (s.setDirSlot p x none).Buckets B := by
  have hslot : ∀ q y d, slotAt (s.setDirSlot p x none).dirPages q y = some d → slotAt s.dirPages q y = some d := by
    intro q y d hd
    rw [slotAt_setDirSlot hp] at hd
    split at hd
    · cases hd
    · exact hd
  refine ⟨fun b => ?_, fun q => ?_, h.apart, fun b q y d hq hd => h.bucket b q y d hq (hslot _ _ _ hd),
    fun q y q' y' d d' hd hd' => h.unique q y q' y' d d' (hslot _ _ _ hd) (hslot _ _ _ hd')⟩
  · rw [nextPage_setDirSlot, dirRoot_setDirSlot]; exact h.linked b
  · rw [isSome_setDirSlot]; exact h.covers q

/-! ### A page joins a bucket (R16) -/

/-- What linking a page at the end of a bucket's chain does, read page by page. -/
structure State.PageLinked (s t : State) (b p : Nat) (pg : Page) : Prop where
  root : ∀ b', tableFind t.dirRoot b' = if b' = b ∧ s.bucketPages b = [] then some p else tableFind s.dirRoot b'
  next : ∀ q, t.nextPage q =
    if q = p then pg.next else if (s.bucketPages b).getLast? = some q then some p else s.nextPage q
  slot : ∀ q x, slotAt t.dirPages q x = if q = p then pg.slots[x] else slotAt s.dirPages q x
  present : ∀ q, (tableFind t.dirPages q).isSome = true ↔ q = p ∨ (tableFind s.dirPages q).isSome = true

theorem slotAt_insert (pages : Table Page) (p : Nat) (pg : Page) (q : Nat) (x : Fin 8) :
    slotAt (tableInsert pages p pg) q x = if q = p then pg.slots[x] else slotAt pages q x := by
  by_cases h : q = p
  · subst h; simp [slotAt_of_find]
  · simp [slotAt, slotsOf, tableFind_insert_ne _ _ h, h]

theorem isSome_find_insert {α : Type} (t : Table α) (i : Nat) (v : α) (j : Nat) :
    (tableFind (tableInsert t i v) j).isSome = true ↔ j = i ∨ (tableFind t j).isSome = true := by
  by_cases h : j = i
  · subst h; simp
  · simp [tableFind_insert_ne _ _ h, h]

theorem linkPage_linked {b p : Nat} (pg : Page)
    (hlast : ∀ q, (s.bucketPages b).getLast? = some q → q ≠ p ∧ (tableFind s.dirPages q).isSome = true) :
    s.PageLinked (s.linkPage b p pg) b p pg := by
  unfold State.linkPage
  cases hg : (s.bucketPages b).getLast? with
  | none =>
    have hnil := List.getLast?_eq_none_iff.1 hg
    refine ⟨fun b' => ?_, fun q => ?_, slotAt_insert s.dirPages p pg, isSome_find_insert s.dirPages p pg⟩
    · by_cases h : b' = b
      · subst h; simp [hnil]
      · simp [h, tableFind_insert_ne _ _ h]
    · by_cases h : q = p
      · subst h; simp [State.nextPage]
      · simp [State.nextPage, h, hg, tableFind_insert_ne _ _ h]
  | some q =>
    obtain ⟨hqp, hq⟩ := hlast q hg
    obtain ⟨old, hold⟩ := Option.isSome_iff_exists.1 hq
    have hne : s.bucketPages b ≠ [] := fun e => by simp [e] at hg
    simp only [hold]
    refine ⟨fun b' => by simp [hne], fun r => ?_, fun r x => ?_, fun r => ?_⟩
    · by_cases h : r = p
      · subst h; simp [State.nextPage]
      · by_cases hr : r = q
        · subst hr; simp [State.nextPage, h, hg, tableFind_insert_ne _ _ h]
        · simp [State.nextPage, h, hg, Ne.symm hr, tableFind_insert_ne _ _ h, tableFind_insert_ne _ _ hr]
    · rw [slotAt_insert, slotAt_insert]
      by_cases h : r = q
      · subst h; simp [hqp, slotAt_of_find hold]
      · simp [h]
    · simp only [isSome_find_insert]
      constructor
      · rintro (h | rfl | h)
        · exact .inl h
        · exact .inr hq
        · exact .inr h
      · exact fun h => h.imp_right .inr

/-- The chain of the bucket goes on with the new page. -/
theorem State.PageLinked.linked {b p : Nat} {pg : Page} (h : s.PageLinked t b p pg) (hpg : pg.next = none)
    (hp : p ∉ s.bucketPages b) (hb : Linked s.nextPage (tableFind s.dirRoot b) (s.bucketPages b)) :
    Linked t.nextPage (tableFind t.dirRoot b) (s.bucketPages b ++ [p]) := by
  have hne : ∀ q ∈ s.bucketPages b, q ≠ p := fun q hq e => hp (e ▸ hq)
  have := linked_append (next' := t.nextPage) hb hp (by rw [h.next, if_pos rfl, hpg])
    (fun q hq => by rw [h.next, if_neg (hne q (List.mem_of_getLast? hq)), if_pos hq])
    (fun q hq hl => by rw [h.next, if_neg (hne q hq), if_neg hl])
  rw [h.root]
  simpa using this

/-- The pages of the buckets after a page is linked into one of them. -/
def withPage (B : Nat → List Nat) (b p : Nat) (b' : Nat) : List Nat := if b' = b then B b' ++ [p] else B b'

theorem mem_withPage {b p b' q : Nat} : q ∈ withPage B b p b' ↔ q ∈ B b' ∨ (b' = b ∧ q = p) := by
  unfold withPage
  split
  · next h => simp [h]
  · next h => simp [h]

/-- A page from the pool, linked into a bucket with one number that no slot holds, keeps the law of the buckets. -/
theorem State.Buckets.linkPage (h : s.Buckets B) (hs : s.Stores) {n p j : Nat} (hp : tableFind s.dirPages p = none)
    (ht : s.PageLinked t (n % 64) p (freshPage n j)) (hu : ∀ q y i, slotAt s.dirPages q y ≠ some ⟨n, i⟩) :
    t.Buckets (withPage B (n % 64) p) := by
  have hB := h.bucketPages hs (n % 64)
  have hpB : ∀ b, p ∉ B b := fun b hb => by simpa [hp] using h.present hb
  have fresh : ∀ (x : Fin 8) d, (freshPage n j).slots[x] = some d → x = 0 ∧ d = ⟨n, j⟩ := by
    intro x d hd
    by_cases hx : x = 0
    · subst hx
      exact ⟨rfl, by simpa [freshPage, eq_comm] using hd⟩
    · have : (0 : Nat) ≠ x.val := fun e => hx (Fin.ext e.symm)
      simp [freshPage, this] at hd
  have hslot : ∀ q x d, slotAt t.dirPages q x = some d →
      (q = p ∧ x = 0 ∧ d = ⟨n, j⟩) ∨ (q ≠ p ∧ slotAt s.dirPages q x = some d) := by
    intro q x d hd
    rw [ht.slot] at hd
    split at hd
    · next hq => exact .inl ⟨hq, fresh x d hd⟩
    · next hq => exact .inr ⟨hq, hd⟩
  have hnum : ∀ q x d, slotAt s.dirPages q x = some d → d.number ≠ n := fun q x d hd hn =>
    hu q x d.head (by rw [hd, ← hn])
  refine ⟨fun b => ?_, fun q => ?_, fun b b' q hq hq' => ?_, fun b q x d hq hd => ?_, fun q x q' x' d d' hd hd' hn => ?_⟩
  · by_cases hb : b = n % 64
    · subst hb
      have := ht.linked rfl (hB ▸ hpB _) (hB ▸ h.linked _)
      simpa [withPage, hB] using this
    · have hroot := ht.root b
      rw [if_neg (fun e => hb e.1)] at hroot
      rw [hroot, withPage, if_neg hb]
      refine (linked_congr fun q hq => ?_).2 (h.linked b)
      have hqp : q ≠ p := fun e => hpB b (e ▸ hq)
      have hql : (s.bucketPages (n % 64)).getLast? ≠ some q := fun e =>
        hb (h.apart _ _ q hq (hB ▸ List.mem_of_getLast? e))
      rw [ht.next, if_neg hqp, if_neg hql]
  · rw [ht.present, ← h.covers]
    simp only [mem_withPage]
    constructor
    · rintro ⟨b, hb | ⟨-, rfl⟩⟩
      · exact .inr ⟨b, hb⟩
      · exact .inl rfl
    · rintro (rfl | ⟨b, hb⟩)
      · exact ⟨_, .inr ⟨rfl, rfl⟩⟩
      · exact ⟨b, .inl hb⟩
  · rcases mem_withPage.1 hq with hq | ⟨hb, hqp⟩ <;> rcases mem_withPage.1 hq' with hq' | ⟨hb', hqp'⟩
    · exact h.apart _ _ q hq hq'
    · exact absurd (hqp' ▸ hq) (hpB b)
    · exact absurd (hqp ▸ hq') (hpB b')
    · exact hb.trans hb'.symm
  · rcases hslot q x d hd with ⟨hqp, -, rfl⟩ | ⟨hqp, hd⟩
    · rcases mem_withPage.1 hq with hq | ⟨hb, -⟩
      · exact absurd (hqp ▸ hq) (hpB b)
      · exact hb.symm
    · rcases mem_withPage.1 hq with hq | ⟨-, hq⟩
      · exact h.bucket b q x d hq hd
      · exact absurd hq hqp
  · rcases hslot q x d hd with ⟨hq, hx, rfl⟩ | ⟨-, hd⟩ <;> rcases hslot q' x' d' hd' with ⟨hq', hx', rfl⟩ | ⟨-, hd'⟩
    · exact ⟨hq.trans hq'.symm, hx.trans hx'.symm⟩
    · exact absurd hn.symm (hnum _ _ _ hd')
    · exact absurd hn (hnum _ _ _ hd)
    · exact h.unique q x q' x' d d' hd hd' hn

/-! ### A page leaves a bucket (R18) -/

/-- The page before a page in a chain is the last of those that come before it. -/
theorem pageBefore_eq {p : Nat} {before after : List Nat} (h : (before ++ p :: after).Nodup) :
    pageBefore p (before ++ p :: after) = before.getLast? := by
  have hafter : ∀ (q : Nat) (l : List Nat), p ∉ l → pageBefore p (q :: l) = none := by
    intro q l
    induction l generalizing q with
    | nil => intro _; rfl
    | cons r l ih =>
      intro hp
      have hr : r ≠ p := fun e => hp (e ▸ List.mem_cons_self)
      simp only [pageBefore, hr, if_false]
      exact ih r fun hm => hp (List.mem_cons_of_mem _ hm)
  induction before with
  | nil => exact hafter p after (List.nodup_cons.1 h).1
  | cons q before ih =>
    cases before with
    | nil => simp [pageBefore]
    | cons r before =>
      obtain ⟨hq, hrest⟩ := List.nodup_cons.1 h
      have hr : r ≠ p := fun e => by
        subst e
        exact (List.nodup_cons.1 hrest).1 (List.mem_append_right _ List.mem_cons_self)
      rw [List.getLast?_cons_cons, ← ih hrest]
      simp [pageBefore, hr]

/-- What unlinking a page from a bucket's chain does, read page by page. -/
structure State.PageUnlinked (s t : State) (b p : Nat) (before : List Nat) : Prop where
  root : ∀ b', tableFind t.dirRoot b' = if b' = b ∧ before = [] then s.nextPage p else tableFind s.dirRoot b'
  next : ∀ q, q ≠ p → t.nextPage q = if before.getLast? = some q then s.nextPage p else s.nextPage q
  slot : ∀ q x, slotAt t.dirPages q x = if q = p then none else slotAt s.dirPages q x
  present : ∀ q, (tableFind t.dirPages q).isSome = true ↔ q ≠ p ∧ (tableFind s.dirPages q).isSome = true

theorem find_erase {α : Type} {t : Table α} (h : tableSorted t = true) (i j : Nat) :
    tableFind (tableErase t i) j = if j = i then none else tableFind t j := by
  by_cases hj : j = i
  · subst hj; simp [tableFind_erase_self h]
  · simp [hj, tableFind_erase_ne _ hj]

theorem slotAt_erase {pages : Table Page} (h : tableSorted pages = true) (p q : Nat) (x : Fin 8) :
    slotAt (tableErase pages p) q x = if q = p then none else slotAt pages q x := by
  simp only [slotAt, slotsOf, find_erase h]
  split <;> simp

theorem unlinkPage_unlinked (hs : s.Stores) {b p : Nat} {before after : List Nat}
    (heq : s.bucketPages b = before ++ p :: after) (hnodup : (s.bucketPages b).Nodup)
    (hpres : ∀ q ∈ s.bucketPages b, (tableFind s.dirPages q).isSome = true) :
    s.PageUnlinked (s.unlinkPage b p) b p before := by
  have hp : p ∈ s.bucketPages b := heq ▸ List.mem_append_right _ List.mem_cons_self
  obtain ⟨pg, hpg⟩ := Option.isSome_iff_exists.1 (hpres p hp)
  have hnext : s.nextPage p = pg.next := by simp [State.nextPage, hpg]
  unfold State.unlinkPage
  simp only [hpg, heq]
  rw [pageBefore_eq (heq ▸ hnodup)]
  cases hg : before.getLast? with
  | none =>
    have hnil := List.getLast?_eq_none_iff.1 hg
    cases hn : pg.next with
    | none =>
      refine ⟨fun b' => ?_, fun q hq => ?_, slotAt_erase hs.pages.1 p, fun q => ?_⟩
      · simp [find_erase hs.root.1, hnil, hnext, hn]
      · simp [State.nextPage, find_erase hs.pages.1, hq, hg]
      · simp [find_erase hs.pages.1]
        by_cases h : q = p <;> simp [h]
    | some r =>
      refine ⟨fun b' => ?_, fun q hq => ?_, slotAt_erase hs.pages.1 p, fun q => ?_⟩
      · by_cases h : b' = b
        · subst h; simp [hnil, hnext, hn]
        · simp [h, tableFind_insert_ne _ _ h]
      · simp [State.nextPage, find_erase hs.pages.1, hq, hg]
      · simp [find_erase hs.pages.1]
        by_cases h : q = p <;> simp [h]
  | some a =>
    have hne : before ≠ [] := fun e => by simp [e] at hg
    have ha : a ∈ before := List.mem_of_getLast? hg
    have hap : a ≠ p := fun e =>
      (List.nodup_append.1 (heq ▸ hnodup)).2.2 a ha p List.mem_cons_self e
    obtain ⟨old, hold⟩ := Option.isSome_iff_exists.1 (hpres a (heq ▸ List.mem_append_left _ ha))
    have hsorted : tableSorted (tableInsert s.dirPages a { old with next := pg.next }) = true :=
      tableSorted_insert _ _ _ hs.pages.1
    simp only [hold]
    refine ⟨fun b' => by simp [hne], fun q hq => ?_, fun q x => ?_, fun q => ?_⟩
    · by_cases h : q = a
      · subst h; simp [State.nextPage, find_erase hsorted, hq, hg, hpg]
      · simp [State.nextPage, find_erase hsorted, hq, hg, Ne.symm h, tableFind_insert_ne _ _ h]
    · rw [slotAt_erase hsorted, slotAt_insert]
      by_cases h : q = a
      · subst h; simp [hap, slotAt_of_find hold]
      · simp [h]
    · rw [find_erase hsorted]
      by_cases h : q = p
      · simp [h]
      · rw [if_neg h, isSome_find_insert]
        constructor
        · rintro (rfl | hq)
          · exact ⟨h, by simp [hold]⟩
          · exact ⟨h, hq⟩
        · exact fun hq => .inr hq.2

/-- The chain of the bucket is closed over the page. -/
theorem State.PageUnlinked.linked {b p : Nat} {before after : List Nat} (h : s.PageUnlinked t b p before)
    (hb : Linked s.nextPage (tableFind s.dirRoot b) (before ++ p :: after)) :
    Linked t.nextPage (tableFind t.dirRoot b) (before ++ after) := by
  have hnodup := linked_nodup hb
  obtain ⟨-, hpa, hdisj⟩ := List.nodup_append.1 hnodup
  have hbp : ∀ q ∈ before, q ≠ p := fun q hq => hdisj q hq p List.mem_cons_self
  have hap : ∀ q ∈ after, q ≠ p := fun q hq e => (List.nodup_cons.1 hpa).1 (e ▸ hq)
  have := linked_remove (next' := t.nextPage) hb
    (fun q hq => by rw [h.next q (hbp q (List.mem_of_getLast? hq)), if_pos hq])
    (fun q hq hl => by rw [h.next q (hbp q hq), if_neg hl])
    (fun q hq => by
      have hl : before.getLast? ≠ some q := fun e =>
        hdisj q (List.mem_of_getLast? e) q (List.mem_cons_of_mem _ hq) rfl
      rw [h.next q (hap q hq), if_neg hl])
  rw [h.root]
  simpa using this

/-- The pages of the buckets after a page has left them. -/
def withoutPage (B : Nat → List Nat) (p : Nat) (b : Nat) : List Nat := (B b).filter (· != p)

theorem mem_withoutPage {p b q : Nat} : q ∈ withoutPage B p b ↔ q ∈ B b ∧ q ≠ p := by simp [withoutPage]

/-- A chain without one of its members. -/
theorem filter_ne_of_nodup {before after : List Nat} {p : Nat} (h : (before ++ p :: after).Nodup) :
    (before ++ p :: after).filter (· != p) = before ++ after := by
  obtain ⟨-, hpa, hdisj⟩ := List.nodup_append.1 h
  have hb : ∀ q ∈ before, (q != p) = true := fun q hq => by simpa using hdisj q hq p List.mem_cons_self
  have ha : ∀ q ∈ after, (q != p) = true := fun q hq => by
    simpa using fun e : q = p => (List.nodup_cons.1 hpa).1 (e ▸ hq)
  simp [List.filter_append, List.filter_eq_self.2 hb, List.filter_eq_self.2 ha]

/-- A page without a used slot, unlinked from its bucket, keeps the law of the buckets. -/
theorem State.Buckets.unlinkPage (h : s.Buckets B) {b p : Nat} {before after : List Nat}
    (heq : B b = before ++ p :: after) (ht : s.PageUnlinked t b p before) : t.Buckets (withoutPage B p) := by
  have hp : p ∈ B b := heq ▸ List.mem_append_right _ List.mem_cons_self
  have hslot : ∀ q x d, slotAt t.dirPages q x = some d → slotAt s.dirPages q x = some d := by
    intro q x d hd
    rw [ht.slot] at hd
    split at hd
    · cases hd
    · exact hd
  refine ⟨fun b' => ?_, fun q => ?_,
    fun b' b'' q hq hq' => h.apart _ _ q (mem_withoutPage.1 hq).1 (mem_withoutPage.1 hq').1,
    fun b' q x d hq hd => h.bucket b' q x d (mem_withoutPage.1 hq).1 (hslot _ _ _ hd),
    fun q x q' x' d d' hd hd' => h.unique q x q' x' d d' (hslot _ _ _ hd) (hslot _ _ _ hd')⟩
  · by_cases hb : b' = b
    · subst hb
      rw [withoutPage, heq, filter_ne_of_nodup (heq ▸ h.nodup b')]
      exact ht.linked (heq ▸ h.linked b')
    · have hpb : p ∉ B b' := fun hm => hb (h.apart _ _ p hm hp)
      have hself : withoutPage B p b' = B b' :=
        List.filter_eq_self.2 fun q hq => by simpa using fun e : q = p => hpb (e ▸ hq)
      have hroot := ht.root b'
      rw [if_neg (fun e => hb e.1)] at hroot
      rw [hroot, hself]
      refine (linked_congr fun q hq => ?_).2 (h.linked b')
      have hqp : q ≠ p := fun e => hpb (e ▸ hq)
      have hql : before.getLast? ≠ some q := fun e =>
        hb (h.apart _ _ q hq (heq ▸ List.mem_append_left _ (List.mem_of_getLast? e)))
      rw [ht.next q hqp, if_neg hql]
  · rw [ht.present, ← h.covers]
    simp only [mem_withoutPage]
    exact ⟨fun ⟨b, hb, hq⟩ => ⟨hq, b, hb⟩, fun ⟨hq, b, hb⟩ => ⟨b, hb, hq⟩⟩

end Sys2Proof.Machine
end

