-- ==== Sys2Proof/Proofs/Lookups.lean ====
section
/-! SUPPORT. What the directory's operations make of its lookups (R15 to R18): a number takes a slot, changes its head or
gives its slot up, and every other number is found as before. -/

namespace Sys2Proof.Machine

variable {s t : State} {B : Nat → List Nat}

/-! ### One slot changes -/

/-- Only one slot differs: it held a number or none, and now it holds what is given. -/
def SlotChange (s t : State) (p : Nat) (x : Fin 8) (d : Option DirSlot) : Prop :=
  ∀ q y, slotAt t.dirPages q y = if q = p ∧ y = x then d else slotAt s.dirPages q y

/-- A slot of a number that changes, to the number or to none, leaves the lookups of the other numbers. -/
theorem lookup_slotChange_ne {B' : Nat → List Nat} (h : s.Buckets B) (h' : t.Buckets B') (hs : s.Stores) (ht : t.Stores)
    {p m : Nat} {x : Fin 8} {d : Option DirSlot} (hc : SlotChange s t p x d)
    (hold : ∀ i, slotAt s.dirPages p x ≠ some ⟨m, i⟩) (hnew : ∀ i, d ≠ some ⟨m, i⟩) : t.lookup m = s.lookup m := by
  refine h.lookup_congr h' hs ht fun q y i => ?_
  rw [hc]
  split
  · next hqy =>
    rw [hqy.1, hqy.2]
    exact iff_of_false (hnew i) (hold i)
  · rfl

/-! ### A number takes a slot (R16) -/

theorem freshPage_slot (n j : Nat) (x : Fin 8) : (freshPage n j).slots[x] = if x = 0 then some ⟨n, j⟩ else none := by
  by_cases hx : x = 0
  · subst hx; simp [freshPage]
  · have : (0 : Nat) ≠ x.val := fun e => hx (Fin.ext e.symm)
    simp [freshPage, this, hx]

/-- A slot of a bucket that a number can take is unused. -/
theorem freeDirSlot_eq_some {n p : Nat} {x : Fin 8} : s.freeDirSlot n = some (p, x) ↔
    ∃ before after, s.bucketPages (n % 64) = before ++ p :: after ∧
      (∀ q ∈ before, ∀ y, slotAt s.dirPages q y ≠ none) ∧ (∀ y, y < x → slotAt s.dirPages p y ≠ none) ∧
      slotAt s.dirPages p x = none := by
  unfold State.freeDirSlot
  rw [findSlot_eq_some]
  simp [slotFree, bucketOf, Option.ne_none_iff_isSome]

theorem freeDirSlot_eq_none {n : Nat} : s.freeDirSlot n = none ↔
    ∀ p ∈ s.bucketPages (n % 64), ∀ x, slotAt s.dirPages p x ≠ none := by
  unfold State.freeDirSlot
  rw [findSlot_eq_none]
  simp [slotFree, bucketOf, Option.ne_none_iff_isSome]

theorem poolPage_eq_none : s.poolPage = none ↔ ∀ p, p < 160 → tableFind s.dirPages p ≠ none := by
  unfold State.poolPage
  rw [lowestFrom_eq_none]
  simp [Config.directoryPages, ← Option.isNone_iff_eq_none]

theorem dirInsert_free {n p : Nat} {x : Fin 8} (h : s.freeDirSlot n = some (p, x)) (j : Nat) :
    s.dirInsert n j = s.setDirSlot p x (some ⟨n, j⟩) := by simp [State.dirInsert, h]

theorem dirInsert_pool {n p : Nat} (h : s.freeDirSlot n = none) (hp : s.poolPage = some p) (j : Nat) :
    s.dirInsert n j = s.linkPage (n % 64) p (freshPage n j) := by simp [State.dirInsert, h, hp, bucketOf]

/-- The pages of a bucket are outside the pool, so the page linked at its end follows one that is there. -/
theorem poolPage_linked {n p j : Nat} (hp : s.poolPage = some p)
    (hpres : ∀ q ∈ s.bucketPages (n % 64), (tableFind s.dirPages q).isSome = true) :
    p ∉ s.bucketPages (n % 64) ∧
      s.PageLinked (s.linkPage (n % 64) p (freshPage n j)) (n % 64) p (freshPage n j) := by
  have hpool := (poolPage_eq_some.1 hp).2.1
  have hpn : p ∉ s.bucketPages (n % 64) := fun hm => by simpa [hpool] using hpres p hm
  exact ⟨hpn, linkPage_linked _ fun q hq =>
    ⟨fun e => hpn (e ▸ List.mem_of_getLast? hq), hpres q (List.mem_of_getLast? hq)⟩⟩

/-- A page taken from the pool changes one slot: its own slot 0. -/
theorem slotChange_of_pageLinked {n p j : Nat} (hp : tableFind s.dirPages p = none)
    (h : s.PageLinked t (n % 64) p (freshPage n j)) : SlotChange s t p 0 (some ⟨n, j⟩) := by
  intro q y
  rw [h.slot]
  by_cases hq : q = p
  · subst hq
    simpa [slotAt_of_pool hp] using freshPage_slot n j y
  · simp [hq]

/-- A page that took a slot, or kept its own, is not empty. -/
theorem noEmptyPage_of_slotChange {p : Nat} {x : Fin 8} {d : DirSlot} (he : s.NoEmptyPage)
    (hc : SlotChange s t p x (some d))
    (hpres : ∀ q, (tableFind t.dirPages q).isSome = true → q = p ∨ (tableFind s.dirPages q).isSome = true) :
    t.NoEmptyPage := by
  intro q hq
  by_cases hqp : q = p
  · exact ⟨x, d, by rw [hc, if_pos ⟨hqp, rfl⟩]⟩
  · obtain ⟨y, e, hye⟩ := he q ((hpres q hq).resolve_left hqp)
    exact ⟨y, e, by rw [hc, if_neg fun g => hqp g.1, hye]⟩

/-- A number that is not found takes a slot of its bucket, with its first record as head; the others are found as before
(R16). -/
theorem dirInsert_spec (h : s.Buckets B) (hs : s.Stores) (he : s.NoEmptyPage) {n : Nat} (j : Nat)
    (hn : s.lookup n = none) (hr : s.directoryRoom n = true) :
    ∃ B', (s.dirInsert n j).Buckets B' ∧ (s.dirInsert n j).NoEmptyPage ∧
      ∀ m, (s.dirInsert n j).lookup m = if m = n then some j else s.lookup m := by
  have ht := (dirInsert_relinked s n j).stores hs
  have hslots := (h.lookup_none_iff hs).1 hn
  have lookups : ∀ {t : State} {B' : Nat → List Nat} {p : Nat} {x : Fin 8}, t.Stores → t.Buckets B' →
      SlotChange s t p x (some ⟨n, j⟩) → slotAt s.dirPages p x = none →
      ∀ m, t.lookup m = if m = n then some j else s.lookup m := by
    intro t B' p x ht hB' hc hold m
    split
    · next hm => exact (hB'.lookup_iff ht).2 ⟨p, x, by rw [hc, if_pos ⟨rfl, rfl⟩, hm]⟩
    · next hm =>
      exact lookup_slotChange_ne h hB' hs ht hc (by simp [hold]) fun i e =>
        hm (by simpa using (congrArg (·.map DirSlot.number) e).symm)
  cases hf : s.freeDirSlot n with
  | some y =>
    obtain ⟨p, x⟩ := y
    obtain ⟨before, after, heq, -, -, hx⟩ := freeDirSlot_eq_some.1 hf
    rw [dirInsert_free hf] at ht ⊢
    have hp : p ∈ B (n % 64) := h.bucketPages hs _ ▸ heq ▸ List.mem_append_right _ List.mem_cons_self
    have hc : SlotChange s (s.setDirSlot p x (some ⟨n, j⟩)) p x (some ⟨n, j⟩) := slotAt_setDirSlot (h.present hp) x _
    have hB' := h.setSlot j (x := x) hp fun q y i hi => absurd hi (hslots q y i)
    refine ⟨B, hB', noEmptyPage_of_slotChange he hc fun q hq => .inr ?_, lookups ht hB' hc hx⟩
    rwa [isSome_setDirSlot] at hq
  | none =>
    cases hp : s.poolPage with
    | none => simp [State.directoryRoom, hn, hf, hp] at hr
    | some p =>
      rw [dirInsert_pool hf hp] at ht ⊢
      have hpool := (poolPage_eq_some.1 hp).2.1
      obtain ⟨-, hl⟩ := poolPage_linked (j := j) hp fun q hq => h.present (h.bucketPages hs (n % 64) ▸ hq)
      have hc := slotChange_of_pageLinked hpool hl
      have hB' := h.linkPage hs hpool hl hslots
      exact ⟨_, hB', noEmptyPage_of_slotChange he hc fun q hq => (hl.present q).1 hq,
        lookups ht hB' hc (slotAt_of_pool hpool 0)⟩

/-! ### A number's head changes (R17, R18) -/

/-- The slot of a number that is found. -/
theorem dirPlace_of_lookup {n i : Nat} (h : s.lookup n = some i) :
    ∃ p x, s.dirPlace n = some (p, x) ∧ slotAt s.dirPages p x = some ⟨n, i⟩ ∧
      (tableFind s.dirPages p).isSome = true ∧ p ∈ s.bucketPages (n % 64) := by
  obtain ⟨p, x, hp, hx⟩ := lookup_eq_some.1 h
  obtain ⟨pg, hpg, -⟩ := find_of_slotAt hx
  obtain ⟨before, after, heq, -⟩ := findSlot_eq_some.1 hp
  exact ⟨p, x, hp, hx, by simp [hpg], heq ▸ List.mem_append_right _ List.mem_cons_self⟩

theorem setHead_of_place {n p : Nat} {x : Fin 8} (h : s.dirPlace n = some (p, x)) (j : Nat) :
    s.setHead n j = s.setDirSlot p x (some ⟨n, j⟩) := by simp [State.setHead, h]

/-- A number that is found keeps its slot as its head changes, and the new head is found. -/
theorem lookup_setHead {n i : Nat} (h : s.lookup n = some i) (j : Nat) : (s.setHead n j).lookup n = some j := by
  obtain ⟨p, x, hp, hx, hpres, -⟩ := dirPlace_of_lookup h
  have hslot := slotAt_setDirSlot hpres x (some ⟨n, j⟩)
  rw [setHead_of_place hp]
  refine lookup_eq_some.2 ⟨p, x, ?_, by rw [hslot, if_pos ⟨rfl, rfl⟩]⟩
  obtain ⟨before, after, heq, hb, hl, -⟩ := findSlot_eq_some.1 hp
  refine findSlot_eq_some.2 ⟨before, after, by rw [bucketPages_setDirSlot, heq], fun q hq y => ?_, fun y hy => ?_, ?_⟩
  · rw [hslot]
    split
    · next hqy =>
      have := hb q hq y
      rw [hqy.1, hqy.2, hx] at this
      simp [holdsNumber] at this
    · exact hb q hq y
  · rw [hslot, if_neg fun g => hy.ne g.2]
    exact hl y hy
  · rw [hslot, if_pos ⟨rfl, rfl⟩]
    simp [holdsNumber]

/-- A number's head changes, and the other numbers are found as before. -/
theorem setHead_spec (h : s.Buckets B) (hs : s.Stores) (he : s.NoEmptyPage) {n i : Nat} (j : Nat)
    (hn : s.lookup n = some i) : (s.setHead n j).Buckets B ∧ (s.setHead n j).NoEmptyPage ∧
      ∀ m, (s.setHead n j).lookup m = if m = n then some j else s.lookup m := by
  have ht := (setHead_relinked s n j).stores hs
  have here := lookup_setHead hn j
  obtain ⟨p, x, hp, hx, hpres, hmem⟩ := dirPlace_of_lookup hn
  rw [setHead_of_place hp] at ht here ⊢
  have hc : SlotChange s (s.setDirSlot p x (some ⟨n, j⟩)) p x (some ⟨n, j⟩) := slotAt_setDirSlot hpres x _
  have hB' := h.setSlot j (x := x) (h.bucketPages hs (n % 64) ▸ hmem) fun q y i' hi =>
    h.unique _ _ _ _ _ _ hi hx rfl
  refine ⟨hB', noEmptyPage_of_slotChange he hc fun q hq => .inr (by rwa [isSome_setDirSlot] at hq), fun m => ?_⟩
  split
  · next hm => exact hm ▸ here
  · next hm =>
    have ne : ∀ k k' : Nat, some (DirSlot.mk n k) ≠ some ⟨m, k'⟩ := fun k k' e =>
      hm (by simpa using (congrArg (·.map DirSlot.number) e).symm)
    exact lookup_slotChange_ne h hB' hs ht hc (fun i' => hx ▸ ne _ _) fun i' => ne _ _

/-! ### A number gives its slot up (R18) -/

/-- The slots of a page are all unused. -/
theorem all_slotFree_iff {pages : Table Page} {p : Nat} :
    (slotsOf pages p).all slotFree = true ↔ ∀ y, slotAt pages p y = none := by
  rw [Vector.all_eq_true]
  simp only [slotFree, Option.isNone_iff_eq_none]
  exact ⟨fun h y => h y.1 y.2, fun h i hi => h ⟨i, hi⟩⟩

/-- What becomes of the directory as a number gives its slot up: the slot is unused, and its page, where no other slot of
it is used, leaves its bucket for the pool (R18). -/
theorem dirRemove_cases (h : s.Buckets B) (hs : s.Stores) {n i p : Nat} {x : Fin 8} (hn : s.lookup n = some i)
    (hp : s.dirPlace n = some (p, x)) :
    SlotChange s (s.dirRemove n) p x none ∧
    (((∃ y, y ≠ x ∧ slotAt s.dirPages p y ≠ none) ∧ (s.dirRemove n).Buckets B ∧
        ∀ q, (tableFind (s.dirRemove n).dirPages q).isSome = true → (tableFind s.dirPages q).isSome = true) ∨
      ((∀ y, y ≠ x → slotAt s.dirPages p y = none) ∧ (s.dirRemove n).Buckets (withoutPage B p) ∧
        ∀ q, (tableFind (s.dirRemove n).dirPages q).isSome = true ↔ q ≠ p ∧ (tableFind s.dirPages q).isSome = true)) := by
  obtain ⟨p', x', hp', hx, hpres, hmem⟩ := dirPlace_of_lookup hn
  obtain ⟨rfl, rfl⟩ := Prod.mk.inj (Option.some.inj (hp.symm.trans hp'))
  have hc : SlotChange s (s.setDirSlot p x none) p x none := slotAt_setDirSlot hpres x none
  have hB := h.clearSlot hpres x
  have hs' := (setDirSlot_relinked s p x none).stores hs
  have hempty : (slotsOf (s.setDirSlot p x none).dirPages p).all slotFree = true ↔
      ∀ y, y ≠ x → slotAt s.dirPages p y = none := by
    rw [all_slotFree_iff]
    constructor
    · intro g y hy
      have := g y
      rwa [hc, if_neg fun e => hy e.2] at this
    · intro g y
      rw [hc]
      split
      · rfl
      · next hne => exact g y fun e => hne ⟨rfl, e⟩
  unfold State.dirRemove
  rw [hp]
  dsimp only
  split
  · next hall =>
    have hall' := hempty.1 hall
    obtain ⟨before, after, heq⟩ := List.append_of_mem (hB.bucketPages hs' (n % 64) ▸ h.bucketPages hs (n % 64) ▸ hmem)
    have hun := unlinkPage_unlinked hs' heq (hB.bucketPages hs' (n % 64) ▸ hB.nodup _) fun q hq =>
      hB.present (hB.bucketPages hs' (n % 64) ▸ hq)
    refine ⟨fun q y => ?_, .inr ⟨hall', hB.unlinkPage (hB.bucketPages hs' (n % 64) ▸ heq) hun, fun q => ?_⟩⟩
    · show slotAt ((s.setDirSlot p x none).unlinkPage (n % 64) p).dirPages q y = _
      rw [hun.slot, hc]
      by_cases hq : q = p
      · subst hq
        by_cases hy : y = x
        · simp [hy]
        · simp [hy, hall' y hy]
      · simp [hq]
    · show (tableFind ((s.setDirSlot p x none).unlinkPage (n % 64) p).dirPages q).isSome = true ↔ _
      rw [hun.present, isSome_setDirSlot]
  · next hall =>
    rw [hempty] at hall
    simp only [not_forall] at hall
    obtain ⟨y, hy, hne⟩ := hall
    exact ⟨hc, .inl ⟨⟨y, hy, hne⟩, hB, fun q hq => by rwa [isSome_setDirSlot] at hq⟩⟩

/-- A number gives its slot up and is not found any more; the others are found as before (R18). -/
theorem dirRemove_spec (h : s.Buckets B) (hs : s.Stores) (he : s.NoEmptyPage) {n i : Nat} (hn : s.lookup n = some i) :
    ∃ B', (s.dirRemove n).Buckets B' ∧ (s.dirRemove n).NoEmptyPage ∧
      ∀ m, (s.dirRemove n).lookup m = if m = n then none else s.lookup m := by
  have ht := (dirRemove_relinked s n).stores hs
  obtain ⟨p, x, hp, hx, -, -⟩ := dirPlace_of_lookup hn
  obtain ⟨hc, hcases⟩ := dirRemove_cases h hs hn hp
  have lookups : ∀ {B'}, (s.dirRemove n).Buckets B' →
      ∀ m, (s.dirRemove n).lookup m = if m = n then none else s.lookup m := by
    intro B' hB' m
    split
    · next hm =>
      refine (hB'.lookup_none_iff ht).2 fun q y k hk => ?_
      rw [hc] at hk
      split at hk
      · cases hk
      · next hne => exact hne (h.unique _ _ _ _ _ _ hk hx hm)
    · next hm =>
      refine lookup_slotChange_ne h hB' hs ht hc (fun k => ?_) (by simp)
      rw [hx]
      exact fun e => hm (by simpa using (congrArg (·.map DirSlot.number) e).symm)
  rcases hcases with ⟨⟨y, hy, hne⟩, hB', hpres⟩ | ⟨-, hB', hpres⟩
  · refine ⟨B, hB', fun q hq => ?_, lookups hB'⟩
    by_cases hqp : q = p
    · obtain ⟨d, hd⟩ := Option.ne_none_iff_exists'.1 hne
      exact ⟨y, d, by rw [hc, if_neg fun g => hy g.2, hqp, hd]⟩
    · obtain ⟨z, d, hd⟩ := he q (hpres q hq)
      exact ⟨z, d, by rw [hc, if_neg fun g => hqp g.1, hd]⟩
  · refine ⟨_, hB', fun q hq => ?_, lookups hB'⟩
    obtain ⟨hqp, hq⟩ := (hpres q).1 hq
    obtain ⟨z, d, hd⟩ := he q hq
    exact ⟨z, d, by rw [hc, if_neg fun g => hqp g.1, hd]⟩

end Sys2Proof.Machine
end

