-- ==== Sys2Proof/Proofs/RecordChains.lean ====
section
/-! SUPPORT. The record chains (R17 to R19): the law of the directory, read as a law of the buckets and one of each
number's chain, and what the operations on a chain make of it. -/

namespace Sys2Proof.Machine

variable {s t : State} {n m j : Nat} {l l' : List Nat}

/-! ### The law of the chains -/

/-- A whole chain of a number, which holds the number's live records, all of them (R17). -/
structure State.ChainOf (s : State) (n : Nat) (l : List Nat) : Prop where
  linked : Linked s.nextRec (s.lookup n) l
  exact : ∀ j, j ∈ l ↔ ∃ c, s.cand j = some c ∧ c.number = n

/-- Records in ascending order of (T0, sitting index) (R17). -/
def State.Rising (s : State) (l : List Nat) : Prop := l.Pairwise (fun i j => s.chainKey i < s.chainKey j)

/-- A number has one live record of a sitting at most (R4, R13). -/
def State.OnePerSitting (s : State) : Prop :=
  ∀ i j c d, s.cand i = some c → s.cand j = some d → c.number = d.number → c.sitting = d.sitting → i = j

/-- The law of the directory: its buckets, and the chain of every number (R14, R17). -/
structure State.Ordered (s : State) : Prop where
  buckets : ∃ B, s.Buckets B
  pages : s.NoEmptyPage
  single : s.OnePerSitting
  chains : ∀ n, ∃ l, s.ChainOf n l ∧ s.Rising l

namespace State.ChainOf

theorem nodup (h : s.ChainOf n l) : l.Nodup := linked_nodup h.linked

theorem live (h : s.ChainOf n l) (hj : j ∈ l) : (s.cand j).isSome = true := by
  obtain ⟨c, hc, -⟩ := (h.exact j).1 hj
  simp [hc]

/-- A number has at most one record for each of the eight sittings (R13). -/
theorem length_le (h : s.ChainOf n l) (hone : s.OnePerSitting) : l.length ≤ 8 := by
  have hinj : ∀ i ∈ l, ∀ j ∈ l,
      ((s.cand i).elim 0 Candidate.sitting) = ((s.cand j).elim 0 Candidate.sitting) → i = j := by
    intro i hi j hj he
    obtain ⟨c, hc, hcn⟩ := (h.exact i).1 hi
    obtain ⟨d, hd, hdn⟩ := (h.exact j).1 hj
    exact hone i j c d hc hd (hcn.trans hdn.symm) (by simpa [hc, hd] using he)
  have := (List.Nodup.map_on hinj h.nodup).length_le_card
  simpa using this

/-- The chain that the law gives a number is the one that its lookup reaches. -/
theorem chain_eq (h : s.ChainOf n l) (hone : s.OnePerSitting) : s.chain n = l :=
  chain_of_linked h.linked (h.length_le hone)

/-- A number with a live record is found. -/
theorem lookup_of_live (h : s.ChainOf n l) {c : Candidate} (hc : s.cand j = some c) (hn : c.number = n) :
    ∃ i, s.lookup n = some i := by
  have hj := (h.exact j).2 ⟨c, hc, hn⟩
  cases l with
  | nil => simp at hj
  | cons i l => exact ⟨i, h.linked.1⟩

end State.ChainOf

namespace State.Ordered

/-- The chain of each number is as R17 says. -/
theorem chain (h : s.Ordered) (n : Nat) : s.ChainOf n (s.chain n) ∧ s.Rising (s.chain n) := by
  obtain ⟨l, hl, hr⟩ := h.chains n
  rw [hl.chain_eq h.single]
  exact ⟨hl, hr⟩

/-- The buckets are the page chains. -/
theorem bucketPages (h : s.Ordered) (hs : s.Stores) : s.Buckets s.bucketPages := by
  obtain ⟨B, hB⟩ := h.buckets
  have : s.bucketPages = B := funext (hB.bucketPages hs)
  rwa [this]

end State.Ordered

/-! ### The law as the model states it -/

theorem chainKey_of_cand {c : Candidate} (h : s.cand j = some c) :
    s.chainKey j = s.sittings[c.sitting].t0 * 8 + c.sitting.val := by simp [State.chainKey, h]

theorem mem_used {pg : Page} {d : DirSlot} : d ∈ pg.used ↔ ∃ x : Fin 8, pg.slots[x] = some d := by
  simp only [Page.used, List.mem_filterMap, id_eq, exists_eq_right, Vector.mem_toList_iff]
  constructor
  · intro h
    obtain ⟨i, hi, he⟩ := Vector.mem_iff_getElem.1 h
    exact ⟨⟨i, hi⟩, he⟩
  · rintro ⟨x, hx⟩
    exact Vector.mem_iff_getElem.2 ⟨x.1, x.2, hx⟩

theorem mem_usedSlots (hs : s.Stores) {d : DirSlot} : d ∈ s.usedSlots ↔ ∃ p x, slotAt s.dirPages p x = some d := by
  unfold State.usedSlots
  rw [List.mem_flatMap]
  constructor
  · rintro ⟨⟨p, pg⟩, hp, hd⟩
    obtain ⟨x, hx⟩ := mem_used.1 hd
    exact ⟨p, x, by rw [slotAt_of_find ((tableFind_iff_mem hs.pages.1 p pg).2 hp), hx]⟩
  · rintro ⟨p, x, hx⟩
    obtain ⟨pg, hpg, hd⟩ := find_of_slotAt hx
    exact ⟨(p, pg), mem_of_tableFind _ _ _ hpg, mem_used.2 ⟨x, hd⟩⟩

/-- No number stands twice on a page. -/
theorem nodup_used_iff (pg : Page) : (pg.used.map DirSlot.number).Nodup ↔
    ∀ (x y : Fin 8) d e, pg.slots[x] = some d → pg.slots[y] = some e → d.number = e.number → x = y := by
  unfold Page.used
  rw [List.map_filterMap, List.Nodup, List.pairwise_filterMap, List.pairwise_iff_getElem]
  constructor
  · intro h x y d e hd he hn
    by_contra hne
    rcases Nat.lt_or_gt_of_ne (fun g => hne (Fin.ext g)) with hlt | hlt
    · exact h x.1 y.1 (by simp) (by simp) hlt _ (by simpa using ⟨d, hd, rfl⟩) _ (by simpa using ⟨e, he, rfl⟩) hn
    · exact h y.1 x.1 (by simp) (by simp) hlt _ (by simpa using ⟨e, he, rfl⟩) _ (by simpa using ⟨d, hd, rfl⟩) hn.symm
  · intro h i k hi hk hlt a ha b hb hab
    have hi8 : i < 8 := by simpa using hi
    have hk8 : k < 8 := by simpa using hk
    simp only [id_eq, Vector.getElem_toList, Option.map_eq_some_iff] at ha hb
    obtain ⟨d, hd, rfl⟩ := ha
    obtain ⟨e, he, rfl⟩ := hb
    exact hlt.ne (congrArg Fin.val (h ⟨i, hi8⟩ ⟨k, hk8⟩ d e hd he hab))

/-- Different members of a store in canonical form satisfy a symmetric relation pairwise. -/
theorem pairwise_of_store {α : Type} {q : Table α} (hq : tableSorted q = true) {R : Nat × α → Nat × α → Prop}
    (hR : ∀ x y, R x y → R y x) : q.Pairwise R ↔ ∀ x ∈ q, ∀ y ∈ q, x.1 ≠ y.1 → R x y := by
  have hlt : q.Pairwise (fun x y => x.1 < y.1) := by
    simpa [tableSorted, List.pairwise_map] using hq
  constructor
  · intro h x hx y hy hne
    have : Std.Symm R := ⟨hR⟩
    exact h.forall hx hy fun e => hne (e ▸ rfl)
  · exact fun h => hlt.imp_of_mem fun hx hy hxy => h _ hx _ hy hxy.ne

/-- No number stands in two slots of the directory (R14). -/
theorem nodup_usedSlots_iff (hs : s.Stores) : (s.usedSlots.map DirSlot.number).Nodup ↔
    ∀ p x p' x' d d', slotAt s.dirPages p x = some d → slotAt s.dirPages p' x' = some d' →
      d.number = d'.number → p = p' ∧ x = x' := by
  unfold State.usedSlots
  rw [List.map_flatMap, List.nodup_flatMap]
  rw [pairwise_of_store hs.pages.1 fun _ _ h => List.Disjoint.symm h]
  have hfind : ∀ {p pg}, (p, pg) ∈ s.dirPages → ∀ x : Fin 8, slotAt s.dirPages p x = pg.slots[x] := fun h x =>
    slotAt_of_find ((tableFind_iff_mem hs.pages.1 _ _).2 h) x
  constructor
  · rintro ⟨hin, hapart⟩ p x p' x' d d' hd hd' hn
    obtain ⟨pg, hpg, hx⟩ := find_of_slotAt hd
    obtain ⟨pg', hpg', hx'⟩ := find_of_slotAt hd'
    have hmem := mem_of_tableFind _ _ _ hpg
    have hmem' := mem_of_tableFind _ _ _ hpg'
    by_cases hp : p = p'
    · subst hp
      obtain rfl := Option.some.inj (hpg.symm.trans hpg')
      exact ⟨rfl, (nodup_used_iff pg).1 (hin _ hmem) x x' d d' hx hx' hn⟩
    · exact absurd (List.mem_map.2 ⟨d', mem_used.2 ⟨x', hx'⟩, hn.symm⟩)
        (hapart _ hmem _ hmem' hp (List.mem_map.2 ⟨d, mem_used.2 ⟨x, hx⟩, rfl⟩))
  · intro h
    refine ⟨fun x hx => (nodup_used_iff _).2 fun y z d e hd he hn => ?_, fun x hx y hy hne => ?_⟩
    · exact (h x.1 y x.1 z d e (by rw [hfind hx, hd]) (by rw [hfind hx, he]) hn).2
    · intro a ha hb
      obtain ⟨d, hd, rfl⟩ := List.mem_map.1 ha
      obtain ⟨e, he, hen⟩ := List.mem_map.1 hb
      obtain ⟨z, hz⟩ := mem_used.1 hd
      obtain ⟨w, hw⟩ := mem_used.1 he
      exact hne (h x.1 z y.1 w d e (by rw [hfind hx, hz]) (by rw [hfind hy, hw]) hen.symm).1

/-- No page is linked twice (R14). -/
theorem nodup_linkedPages_iff (hs : s.Stores) : s.linkedPages.Nodup ↔
    (∀ b, (s.bucketPages b).Nodup) ∧ ∀ b b' p, p ∈ s.bucketPages b → p ∈ s.bucketPages b' → b = b' := by
  have hroot : ∀ {b p}, p ∈ s.bucketPages b → ∃ r, (b, r) ∈ s.dirRoot := by
    intro b p hp
    cases hr : tableFind s.dirRoot b with
    | none =>
      rw [bucketPages_eq, hr] at hp
      simp [follow] at hp
    | some r => exact ⟨r, mem_of_tableFind _ _ _ hr⟩
  unfold State.linkedPages
  rw [List.nodup_flatMap, pairwise_of_store hs.root.1 fun _ _ h => List.Disjoint.symm h]
  constructor
  · rintro ⟨hin, hapart⟩
    refine ⟨fun b => ?_, fun b b' p hp hp' => ?_⟩
    · cases hb : s.bucketPages b with
      | nil => exact List.nodup_nil
      | cons q rest =>
        obtain ⟨r, hr⟩ := hroot (hb ▸ List.mem_cons_self : q ∈ s.bucketPages b)
        exact hb ▸ hin _ hr
    · by_contra hne
      obtain ⟨r, hr⟩ := hroot hp
      obtain ⟨r', hr'⟩ := hroot hp'
      exact hapart _ hr _ hr' hne hp hp'
  · rintro ⟨hin, hapart⟩
    exact ⟨fun x _ => hin x.1, fun x _ y _ hne p hp hp' => hne (hapart x.1 y.1 p hp hp')⟩

/-- The law of one bucket, read page by page (R14). -/
theorem bucketLaw_iff (s : State) (b : Nat) : s.bucketLaw b = true ↔
    (s.bucketPages b).getLast?.bind s.nextPage = none ∧
    ∀ p ∈ s.bucketPages b, (tableFind s.dirPages p).isSome = true ∧ (∃ x d, slotAt s.dirPages p x = some d) ∧
      ∀ x d, slotAt s.dirPages p x = some d → d.number % 64 = b := by
  unfold State.bucketLaw
  rw [Bool.and_eq_true, beq_iff_eq, List.all_eq_true, Option.bind_assoc]
  refine and_congr Iff.rfl (forall₂_congr fun p _ => ?_)
  cases hp : tableFind s.dirPages p with
  | none => simp
  | some pg =>
    have hslot := slotAt_of_find hp
    simp only [Bool.and_eq_true, Bool.not_eq_true', List.isEmpty_eq_false_iff_exists_mem, List.all_eq_true, mem_used,
      beq_iff_eq, bucketOf, Option.isSome_some, true_and, hslot]
    exact and_congr ⟨fun ⟨d, x, h⟩ => ⟨x, d, h⟩, fun ⟨x, d, h⟩ => ⟨d, x, h⟩⟩
      ⟨fun g x d h => g d ⟨x, h⟩, fun g d ⟨x, h⟩ => g x d h⟩

/-- The law of one chain: it is whole, holds the number's live records, all of them, and rises (R14, R17). -/
theorem chainLaw_iff (hs : s.Stores) {d : DirSlot} (hd : s.lookup d.number = some d.head) :
    s.chainLaw d = true ↔ s.ChainOf d.number (s.chain d.number) ∧ s.Rising (s.chain d.number) := by
  have hkeys : ((s.roll.filter (fun x => x.2.number == d.number)).map Prod.fst).Nodup := by
    have := (tableSorted_filter s.roll (fun x => x.2.number == d.number) hs.roll.1)
    simp only [tableSorted, decide_eq_true_eq] at this
    exact this.imp Nat.ne_of_lt
  have hmem : ∀ j, j ∈ (s.roll.filter (fun x => x.2.number == d.number)).map Prod.fst ↔
      ∃ c, s.cand j = some c ∧ c.number = d.number := by
    intro j
    simp only [List.mem_map, List.mem_filter, beq_iff_eq, Prod.exists, exists_and_right, exists_eq_right, hs.cand_iff]
  unfold State.chainLaw
  simp only [Bool.and_eq_true, beq_iff_eq, decide_eq_true_eq, List.all_eq_true, head_chain, hd, true_and,
    Option.map_eq_some_iff, Option.bind_assoc]
  constructor
  · rintro ⟨⟨⟨hr, hall⟩, hlast⟩, hlen⟩
    have hlinked : Linked s.nextRec (s.lookup d.number) (s.chain d.number) := by
      rw [chain_eq] at hlast ⊢
      exact linked_of_last hlast
    refine ⟨⟨hlinked, fun j => ⟨hall j, fun hj => ?_⟩⟩, hr⟩
    have hsub : s.chain d.number ⊆ (s.roll.filter (fun x => x.2.number == d.number)).map Prod.fst :=
      fun i hi => (hmem i).2 (hall i hi)
    have hperm := ((linked_nodup hlinked).subperm hsub).perm_of_length_le (by simp [hlen])
    exact hperm.mem_iff.2 ((hmem j).2 hj)
  · rintro ⟨h, hr⟩
    refine ⟨⟨⟨hr, fun j hj => (h.exact j).1 hj⟩, last_of_linked h.linked⟩, ?_⟩
    have hperm := (List.perm_ext_iff_of_nodup h.nodup hkeys).2 fun j => (h.exact j).trans (hmem j).symm
    simpa using hperm.length_eq

/-- The law of the directory, as the model states it, is the law of the buckets and of the chains. -/
theorem directoryLaw_iff (hs : s.Stores) : s.directoryLaw = true ↔ s.Ordered := by
  unfold State.directoryLaw
  simp only [Bool.and_eq_true, decide_eq_true_eq, List.all_eq_true, nodup_linkedPages_iff hs, nodup_usedSlots_iff hs,
    bucketLaw_iff]
  constructor
  · rintro ⟨⟨⟨⟨⟨⟨-, hapart⟩, hcover⟩, hbucket⟩, hunique⟩, hchain⟩, hfound⟩
    have hpages : ∀ {b p}, p ∈ s.bucketPages b → (tableFind s.dirPages p).isSome = true ∧
        (∃ x d, slotAt s.dirPages p x = some d) ∧ ∀ x d, slotAt s.dirPages p x = some d → d.number % 64 = b := by
      intro b p hp
      obtain ⟨r, hr⟩ := Option.ne_none_iff_exists'.1 fun e : tableFind s.dirRoot b = none => by
        rw [bucketPages_eq, e] at hp
        simp [follow] at hp
      exact (hbucket (b, r) (mem_of_tableFind _ _ _ hr)).2 p hp
    have hcovers : ∀ p, (∃ b, p ∈ s.bucketPages b) ↔ (tableFind s.dirPages p).isSome = true := by
      refine fun p => ⟨fun ⟨b, hb⟩ => (hpages hb).1, fun hp => ?_⟩
      obtain ⟨pg, hpg⟩ := Option.isSome_iff_exists.1 hp
      obtain ⟨x, -, hx⟩ := List.mem_flatMap.1 (hcover _ (mem_of_tableFind _ _ _ hpg))
      exact ⟨x.1, hx⟩
    have hB : s.Buckets s.bucketPages := by
      refine ⟨fun b => ?_, hcovers, hapart, fun b p x d hp hd => (hpages hp).2.2 x d hd, hunique⟩
      cases hr : tableFind s.dirRoot b with
      | none => rw [bucketPages_eq, hr]; rfl
      | some r =>
        have hlast := (hbucket (b, r) (mem_of_tableFind _ _ _ hr)).1
        rw [← hr, bucketPages_eq]
        dsimp only at hlast
        rw [bucketPages_eq] at hlast
        exact linked_of_last hlast
    have chains : ∀ n, s.ChainOf n (s.chain n) ∧ s.Rising (s.chain n) := by
      intro n
      cases hn : s.lookup n with
      | some j =>
        obtain ⟨p, x, hx⟩ := (hB.lookup_iff hs).1 hn
        exact (chainLaw_iff hs hn).1 (hchain ⟨n, j⟩ ((mem_usedSlots hs).2 ⟨p, x, hx⟩))
      | none =>
        have hnil : s.chain n = [] := by rw [chain_eq, hn]; rfl
        rw [hnil]
        refine ⟨⟨hn, fun j => iff_of_false (by simp) fun ⟨c, hc, hcn⟩ => ?_⟩, List.Pairwise.nil⟩
        have := hfound _ (mem_of_tableFind _ _ _ hc)
        simp [hcn, hn] at this
    refine ⟨⟨_, hB⟩, fun p hp => ?_, fun i j c d hc hd hn hk => ?_, fun n => ⟨_, chains n⟩⟩
    · obtain ⟨b, hb⟩ := (hcovers p).2 hp
      exact (hpages hb).2.1
    · by_contra hne
      obtain ⟨h, hr⟩ := chains d.number
      have hkey : s.chainKey i = s.chainKey j := by simp only [chainKey_of_cand hc, chainKey_of_cand hd, hk]
      have : Std.Symm fun i j => s.chainKey i ≠ s.chainKey j := ⟨fun _ _ g => g.symm⟩
      exact (hr.imp Nat.ne_of_lt).forall ((h.exact i).2 ⟨c, hc, hn⟩) ((h.exact j).2 ⟨d, hd, rfl⟩) hne hkey
  · intro h
    have hB := h.bucketPages hs
    refine ⟨⟨⟨⟨⟨⟨hB.nodup, hB.apart⟩, fun x hx => ?_⟩, fun x _ => ⟨last_of_linked (hB.linked x.1), fun p hp => ?_⟩⟩,
      hB.unique⟩, fun d hd => ?_⟩, fun x hx => ?_⟩
    · have hpres : (tableFind s.dirPages x.1).isSome = true := by
        simp [(tableFind_iff_mem hs.pages.1 x.1 x.2).2 hx]
      obtain ⟨b, hb⟩ := (hB.covers x.1).2 hpres
      have hroot : ∃ r, tableFind s.dirRoot b = some r := by
        refine Option.ne_none_iff_exists'.1 fun e => ?_
        rw [bucketPages_eq, e] at hb
        simp [follow] at hb
      obtain ⟨r, hr⟩ := hroot
      exact List.mem_flatMap.2 ⟨(b, r), mem_of_tableFind _ _ _ hr, hb⟩
    · exact ⟨hB.present hp, h.pages p (hB.present hp), fun y d hd => hB.bucket x.1 p y d hp hd⟩
    · obtain ⟨p, x, hx⟩ := (mem_usedSlots hs).1 hd
      exact (chainLaw_iff hs ((hB.lookup_iff hs).2 ⟨p, x, hx⟩)).2 (h.chain d.number)
    · obtain ⟨i, hi⟩ := (h.chain x.2.number).1.lookup_of_live ((hs.cand_iff x.1 x.2).2 hx) rfl
      simp [hi]

end Sys2Proof.Machine
end

