-- ==== Sys2Proof/Proofs/ChainWriting.lean ====
section
/-! SUPPORT. What writing a chain makes of the directory and of the record chains (R16 to R19): the chain of one number is
written anew, and those of the other numbers stand. -/

namespace Sys2Proof.Machine

variable {s t : State} {n m j : Nat} {l l' : List Nat} {B : Nat → List Nat}

/-! ### Directories that are the same -/

theorem State.Buckets.congr (h : s.Buckets B) (hr : t.dirRoot = s.dirRoot) (hp : t.dirPages = s.dirPages) :
    t.Buckets B := by
  have hnext : t.nextPage = s.nextPage := by funext p; simp only [State.nextPage, hp]
  exact ⟨by rw [hnext, hr]; exact h.linked, by rw [hp]; exact h.covers, h.apart, by rw [hp]; exact h.bucket,
    by rw [hp]; exact h.unique⟩

theorem State.NoEmptyPage.congr (h : s.NoEmptyPage) (hp : t.dirPages = s.dirPages) : t.NoEmptyPage := by
  unfold State.NoEmptyPage
  rwa [hp]

theorem lookup_of_sameDirectory (hr : t.dirRoot = s.dirRoot) (hp : t.dirPages = s.dirPages) (n : Nat) :
    t.lookup n = s.lookup n := by
  simp only [State.lookup, State.dirPlace, State.bucketPages, hr, hp]

theorem linkPage_roll (s : State) (b p : Nat) (pg : Page) : (s.linkPage b p pg).roll = s.roll := by
  unfold State.linkPage
  repeat' split
  all_goals rfl

theorem dirInsert_roll (s : State) (n j : Nat) : (s.dirInsert n j).roll = s.roll := by
  unfold State.dirInsert
  split
  · exact (setDirSlot_onlyPages ..).roll
  · split
    · exact linkPage_roll ..
    · rfl

theorem unlinkPage_roll (s : State) (b p : Nat) : (s.unlinkPage b p).roll = s.roll := by
  unfold State.unlinkPage
  repeat' split
  all_goals rfl

theorem dirRemove_roll (s : State) (n : Nat) : (s.dirRemove n).roll = s.roll := by
  unfold State.dirRemove
  split
  · rfl
  · split
    · exact (unlinkPage_roll ..).trans (setDirSlot_onlyPages ..).roll
    · exact (setDirSlot_onlyPages ..).roll

/-! ### Writing a chain (R17, R18) -/

theorem nextRec_setNext (s : State) (j : Nat) (o : Option Nat) (i : Nat) :
    (s.setNext j o).nextRec i = if i = j then (if (s.cand j).isSome then o else none) else s.nextRec i := by
  unfold State.nextRec
  rw [cand_setNext]
  split
  · cases s.cand j <;> rfl
  · rfl

/-- Live records that are linked lead each to the following one; the others lead where they did. -/
theorem linkRecords_spec (hl : l.Nodup) (hlive : ∀ i ∈ l, (s.cand i).isSome = true) :
    Linked (s.linkRecords l).nextRec l.head? l ∧ ∀ i, i ∉ l → (s.linkRecords l).nextRec i = s.nextRec i := by
  induction l generalizing s with
  | nil => exact ⟨rfl, fun _ _ => rfl⟩
  | cons j rest ih =>
    cases rest with
    | nil =>
      refine ⟨⟨rfl, ?_⟩, fun i hi => ?_⟩
      · show (s.setNext j none).nextRec j = none
        rw [nextRec_setNext]; simp
      · show (s.setNext j none).nextRec i = _
        rw [nextRec_setNext, if_neg fun e : i = j => hi (e ▸ List.mem_cons_self)]
    | cons k rest =>
      obtain ⟨hj, hrest⟩ := List.nodup_cons.1 hl
      obtain ⟨hlinked, hother⟩ := ih (s := s.setNext j (some k)) hrest fun i hi => by
        have := hlive i (List.mem_cons_of_mem _ hi)
        rw [cand_setNext]
        split
        · next e => rw [← e]; simpa using this
        · exact this
      refine ⟨⟨rfl, ?_⟩, fun i hi => ?_⟩
      · show Linked _ (((s.setNext j (some k)).linkRecords (k :: rest)).nextRec j) (k :: rest)
        rw [hother j hj, nextRec_setNext, if_pos rfl, if_pos (hlive j List.mem_cons_self)]
        exact hlinked
      · show ((s.setNext j (some k)).linkRecords (k :: rest)).nextRec i = _
        rw [hother i fun h => hi (List.mem_cons_of_mem _ h), nextRec_setNext,
          if_neg fun e : i = j => hi (e ▸ List.mem_cons_self)]

theorem lookup_linkRecords (s : State) (l : List Nat) (m : Nat) : (s.linkRecords l).lookup m = s.lookup m :=
  lookup_of_sameDirectory (linkRecords_onlyRoll s l).chains.dirRoot (linkRecords_onlyRoll s l).dirPages m

/-- A number that is found takes the chain that is written for it: its head is found, and its members follow. -/
theorem writeChain_chain {i : Nat} (hn : s.lookup n = some i) (hl : l.Nodup)
    (hlive : ∀ i ∈ l, (s.cand i).isSome = true) (hne : l ≠ []) :
    Linked (s.writeChain n l).nextRec ((s.writeChain n l).lookup n) l ∧ (s.writeChain n l).lookup n = l.head? ∧
      ∀ k, k ∉ l → (s.writeChain n l).nextRec k = s.nextRec k := by
  cases l with
  | nil => exact absurd rfl hne
  | cons j rest =>
    have hroll := (setHead_onlyPages s n j).roll
    have hcand : ∀ i, (s.setHead n j).cand i = s.cand i := fun i => by rw [State.cand, hroll]; rfl
    have hnext : ∀ i, (s.setHead n j).nextRec i = s.nextRec i := fun i => by rw [State.nextRec, hcand]; rfl
    have hhead : (s.writeChain n (j :: rest)).lookup n = some j :=
      (lookup_linkRecords _ _ _).trans (lookup_setHead hn j)
    obtain ⟨hlinked, hother⟩ := linkRecords_spec (s := s.setHead n j) hl fun i hi => by rw [hcand]; exact hlive i hi
    exact ⟨hhead ▸ hlinked, hhead, fun k hk => (hother k hk).trans (hnext k)⟩

/-- A chain that is written leaves the buckets as they are and every other number as it is found. -/
theorem writeChain_directory (hB : s.Buckets B) (hs : s.Stores) (hp : s.NoEmptyPage) {i : Nat}
    (hn : s.lookup n = some i) (hne : l ≠ []) :
    (s.writeChain n l).Buckets B ∧ (s.writeChain n l).NoEmptyPage ∧
      ∀ m, m ≠ n → (s.writeChain n l).lookup m = s.lookup m := by
  cases l with
  | nil => exact absurd rfl hne
  | cons j rest =>
    obtain ⟨hB', hp', hlook⟩ := setHead_spec hB hs hp j hn
    have hpages : (s.writeChain n (j :: rest)).dirPages = (s.setHead n j).dirPages :=
      (linkRecords_onlyRoll _ _).dirPages
    have hroot : (s.writeChain n (j :: rest)).dirRoot = (s.setHead n j).dirRoot :=
      (linkRecords_onlyRoll _ _).chains.dirRoot
    refine ⟨hB'.congr hroot hpages, hp'.congr hpages, fun m hm => ?_⟩
    rw [show (s.writeChain n (j :: rest)).lookup m = (s.setHead n j).lookup m from lookup_linkRecords _ _ _, hlook,
      if_neg hm]

/-! ### Chains through a change of the links -/

/-- A chain of which no member leads elsewhere, whose number is found as before and has the same live records. -/
theorem State.ChainOf.congr (h : s.ChainOf m l) (hlook : t.lookup m = s.lookup m)
    (hnext : ∀ i ∈ l, t.nextRec i = s.nextRec i)
    (hnum : ∀ i, (∃ c, t.cand i = some c ∧ c.number = m) ↔ ∃ c, s.cand i = some c ∧ c.number = m) : t.ChainOf m l :=
  ⟨hlook ▸ (linked_congr hnext).2 h.linked, fun j => (h.exact j).trans (hnum j).symm⟩

/-- The live records of a number are the same after a change of links. -/
theorem State.Relinked.numbered (h : s.Relinked t) (i m : Nat) :
    (∃ c, t.cand i = some c ∧ c.number = m) ↔ ∃ c, s.cand i = some c ∧ c.number = m := by
  constructor
  · rintro ⟨d, hd, rfl⟩
    obtain ⟨c, hc, hn, -⟩ := h.symm_cands hd
    exact ⟨c, hc, hn.symm⟩
  · rintro ⟨c, hc, rfl⟩
    obtain ⟨o, ho⟩ := h.cand hc
    exact ⟨_, ho, rfl⟩

theorem State.Relinked.single (h : s.Relinked t) (hone : s.OnePerSitting) : t.OnePerSitting := by
  intro i j c d hc hd hn hk
  obtain ⟨c', hc', hcn, hck, -⟩ := h.symm_cands hc
  obtain ⟨d', hd', hdn, hdk, -⟩ := h.symm_cands hd
  exact hone i j c' d' hc' hd' (hcn.symm.trans (hn.trans hdn)) (hck.symm.trans (hk.trans hdk))

theorem rising_congr (h : ∀ i ∈ l, t.chainKey i = s.chainKey i) (hr : s.Rising l) : t.Rising l :=
  List.Pairwise.imp_of_mem (fun ha hb hab => by rwa [h _ ha, h _ hb]) hr

/-- The law of a directory whose buckets, live records and order are those of another one. -/
theorem State.Ordered.congr (h : s.Ordered) (hroot : t.dirRoot = s.dirRoot) (hpages : t.dirPages = s.dirPages)
    (hlinks : ∀ i, (t.cand i).map Candidate.links = (s.cand i).map Candidate.links)
    (hkey : ∀ i, (s.cand i).isSome = true → t.chainKey i = s.chainKey i) : t.Ordered := by
  have hcand : ∀ {i d}, t.cand i = some d → ∃ c, s.cand i = some c ∧ d.links = c.links := by
    intro i d hd
    have := hlinks i
    rw [hd] at this
    obtain ⟨c, hc, he⟩ := Option.map_eq_some_iff.1 this.symm
    exact ⟨c, hc, he.symm⟩
  have hcand' : ∀ {i c}, s.cand i = some c → ∃ d, t.cand i = some d ∧ d.links = c.links := by
    intro i c hc
    have := hlinks i
    rw [hc] at this
    exact Option.map_eq_some_iff.1 this
  have hnext : t.nextRec = s.nextRec := by
    funext i
    have := congrArg (fun o => o.bind fun (x : Nat × Fin 8 × Option Nat) => x.2.2) (hlinks i)
    show (t.cand i).bind _ = (s.cand i).bind _
    simpa [Option.bind_map, Function.comp_def, Candidate.links] using this
  obtain ⟨B, hB⟩ := h.buckets
  refine ⟨⟨B, hB.congr hroot hpages⟩, h.pages.congr hpages, fun i j c d hc hd hn hk => ?_, fun n => ?_⟩
  · obtain ⟨c', hc', hcl⟩ := hcand hc
    obtain ⟨d', hd', hdl⟩ := hcand hd
    simp only [Candidate.links, Prod.mk.injEq] at hcl hdl
    exact h.single i j c' d' hc' hd' (by rw [← hcl.1, ← hdl.1, hn]) (by rw [← hcl.2.1, ← hdl.2.1, hk])
  · obtain ⟨l, hl, hr⟩ := h.chains n
    refine ⟨l, hl.congr (lookup_of_sameDirectory hroot hpages n) (fun i _ => by rw [hnext]) fun i => ?_,
      rising_congr (fun i hi => hkey i (hl.live hi)) hr⟩
    constructor
    · rintro ⟨d, hd, rfl⟩
      obtain ⟨c, hc, he⟩ := hcand hd
      exact ⟨c, hc, (congrArg Prod.fst he).symm⟩
    · rintro ⟨c, hc, rfl⟩
      obtain ⟨d, hd, he⟩ := hcand' hc
      exact ⟨d, hd, congrArg Prod.fst he⟩

/-- What the links say of a record is the same on both sides of a change that keeps them. -/
theorem State.SameLinks.cand_links (h : s.SameLinks t) (i : Nat) :
    (t.cand i).map Candidate.links = (s.cand i).map Candidate.links := by
  unfold State.cand
  rw [← tableFind_map, ← tableFind_map, h.roll]

theorem State.SameLinks.chainKey (h : s.SameLinks t) (i : Nat) : t.chainKey i = s.chainKey i := by
  have hi := h.cand_links i
  unfold State.chainKey
  cases hc : s.cand i with
  | none =>
    rw [hc] at hi
    simp only [Option.map_none, Option.map_eq_none_iff] at hi
    rw [hi]
  | some c =>
    rw [hc] at hi
    obtain ⟨d, hd, he⟩ := Option.map_eq_some_iff.1 hi
    simp only [Candidate.links, Prod.mk.injEq] at he
    simp only [hd, h.starts, he.2.1]

/-- A change that keeps the links keeps the law of the directory. -/
theorem State.SameLinks.ordered (h : s.SameLinks t) (ho : s.Ordered) : t.Ordered :=
  ho.congr h.root h.pages h.cand_links fun i _ => h.chainKey i

/-! ### Placing a record in a chain (R17) -/

/-- A record stands before the first of a chain whose order is greater, or at the end (R17). -/
theorem placeInChain_split (s : State) (j : Nat) (l : List Nat) : ∃ before after, l = before ++ after ∧
    s.placeInChain j l = before ++ j :: after ∧ (∀ i ∈ before, s.chainKey i ≤ s.chainKey j) ∧
    ∀ i, after.head? = some i → s.chainKey j < s.chainKey i := by
  induction l with
  | nil => exact ⟨[], [], rfl, rfl, by simp, by simp⟩
  | cons k rest ih =>
    unfold State.placeInChain
    split
    · next hlt => exact ⟨[], k :: rest, rfl, rfl, by simp, fun i hi => by simpa using Option.some.inj hi ▸ hlt⟩
    · next hle =>
      obtain ⟨before, after, rfl, heq, hb, ha⟩ := ih
      refine ⟨k :: before, after, rfl, by rw [heq]; rfl, fun i hi => ?_, ha⟩
      rcases List.mem_cons.1 hi with rfl | hi
      · exact Nat.not_lt.1 hle
      · exact hb i hi

theorem mem_placeInChain {i : Nat} : i ∈ s.placeInChain j l ↔ i = j ∨ i ∈ l := by
  obtain ⟨before, after, rfl, heq, -, -⟩ := placeInChain_split s j l
  rw [heq]
  simp only [List.mem_append, List.mem_cons]
  tauto

theorem nodup_placeInChain (hl : l.Nodup) (hj : j ∉ l) : (s.placeInChain j l).Nodup := by
  obtain ⟨before, after, rfl, heq, -, -⟩ := placeInChain_split s j l
  rw [heq, List.nodup_middle]
  exact List.nodup_cons.2 ⟨hj, hl⟩

theorem placeInChain_ne_nil : s.placeInChain j l ≠ [] := by
  obtain ⟨before, after, -, heq, -, -⟩ := placeInChain_split s j l
  simp [heq]

/-- A record placed in a rising chain leaves it rising. -/
theorem rising_placeInChain (hr : s.Rising l) (hne : ∀ i ∈ l, s.chainKey i ≠ s.chainKey j) :
    s.Rising (s.placeInChain j l) := by
  obtain ⟨before, after, rfl, heq, hb, ha⟩ := placeInChain_split s j l
  rw [heq]
  obtain ⟨hrb, hra, hba⟩ := List.pairwise_append.1 hr
  have hafter : ∀ i ∈ after, s.chainKey j < s.chainKey i := by
    cases after with
    | nil => simp
    | cons k after =>
      have hk := ha k rfl
      intro i hi
      rcases List.mem_cons.1 hi with rfl | hi
      · exact hk
      · exact hk.trans ((List.pairwise_cons.1 hra).1 i hi)
  refine List.pairwise_append.2 ⟨hrb, List.pairwise_cons.2 ⟨hafter, hra⟩, fun i hi k hk => ?_⟩
  rcases List.mem_cons.1 hk with rfl | hk
  · exact lt_of_le_of_ne (hb i hi) (hne i (List.mem_append_left _ hi))
  · exact hba i hi k hk

/-- Records of different sittings have different orders. -/
theorem chainKey_ne {i : Nat} {c d : Candidate} (hc : s.cand i = some c) (hd : s.cand j = some d)
    (h : c.sitting ≠ d.sitting) : s.chainKey i ≠ s.chainKey j := by
  rw [chainKey_of_cand hc, chainKey_of_cand hd]
  intro e
  apply h
  have h1 := c.sitting.2
  have h2 := d.sitting.2
  exact Fin.ext (by omega)

/-! ### Chains that are written one after another -/

/-- The chains of the numbers, as the directory and the next records make them: whole, of records of the number. Not all
of its records need be in it, nor in order. -/
structure State.Chained (s : State) (L : Nat → List Nat) : Prop where
  buckets : ∃ B, s.Buckets B
  pages : s.NoEmptyPage
  linked : ∀ n, Linked s.nextRec (s.lookup n) (L n)
  owned : ∀ n i, i ∈ L n → ∃ c, s.cand i = some c ∧ c.number = n

variable {L : Nat → List Nat}

namespace State.Chained

theorem live (h : s.Chained L) {i : Nat} (hi : i ∈ L n) : (s.cand i).isSome = true := by
  obtain ⟨c, hc, -⟩ := h.owned n i hi
  simp [hc]

/-- No record is in the chains of two numbers. -/
theorem apart (h : s.Chained L) (hne : m ≠ n) {i : Nat} (hm : i ∈ L m) : i ∉ L n := by
  intro hn
  obtain ⟨c, hc, rfl⟩ := h.owned m i hm
  obtain ⟨d, hd, rfl⟩ := h.owned n i hn
  exact hne (congrArg Candidate.number (Option.some.inj (hc.symm.trans hd)))

/-- The chain of one number is written anew, and the others stand: what each operation on a chain does. -/
theorem update (h : s.Chained L) (ht : s.Relinked t) (hB : ∃ B, t.Buckets B) (hp : t.NoEmptyPage)
    (hl : Linked t.nextRec (t.lookup n) l) (hown : ∀ i ∈ l, ∃ c, s.cand i = some c ∧ c.number = n)
    (hlook : ∀ m, m ≠ n → t.lookup m = s.lookup m) (hnext : ∀ i, i ∉ l → t.nextRec i = s.nextRec i) :
    t.Chained (Function.update L n l) := by
  refine ⟨hB, hp, fun m => ?_, fun m i hi => (ht.numbered i m).2 ?_⟩
  · by_cases hm : m = n
    · subst hm
      rwa [Function.update_self]
    · rw [Function.update_of_ne hm, hlook m hm]
      refine (linked_congr fun i hi => hnext i fun hil => ?_).2 (h.linked m)
      obtain ⟨c, hc, rfl⟩ := h.owned m i hi
      obtain ⟨d, hd, rfl⟩ := hown i hil
      exact hm (congrArg Candidate.number (Option.some.inj (hc.symm.trans hd)))
  · by_cases hm : m = n
    · subst hm
      rw [Function.update_self] at hi
      exact hown i hi
    · rw [Function.update_of_ne hm] at hi
      exact h.owned m i hi

theorem writeChain (h : s.Chained L) (hs : s.Stores) {i : Nat} (hn : s.lookup n = some i) (hl : l.Nodup) (hne : l ≠ [])
    (hown : ∀ i ∈ l, ∃ c, s.cand i = some c ∧ c.number = n) : (s.writeChain n l).Chained (Function.update L n l) := by
  obtain ⟨B, hB⟩ := h.buckets
  obtain ⟨hB', hp', hlook⟩ := writeChain_directory (l := l) hB hs h.pages hn hne
  obtain ⟨hlinked, -, hother⟩ := writeChain_chain hn hl (fun i hi => by
    obtain ⟨c, hc, -⟩ := hown i hi
    simp [hc]) hne
  exact h.update (writeChain_relinked ..) ⟨B, hB'⟩ hp' hlinked hown hlook hother

/-- A number that is not found takes a slot for its first record (R16). -/
theorem dirInsert (h : s.Chained L) (hs : s.Stores) (hn : s.lookup n = none) (hr : s.directoryRoom n = true)
    {c : Candidate} (hc : s.cand j = some c) (hcn : c.number = n) :
    ((s.dirInsert n j).setNext j none).Chained (Function.update L n [j]) := by
  obtain ⟨B, hB⟩ := h.buckets
  obtain ⟨B', hB', hp', hlook⟩ := dirInsert_spec hB hs h.pages j hn hr
  have honly := setNext_onlyRoll (s.dirInsert n j) j none
  have hroll := dirInsert_roll s n j
  have hlook' : ∀ m, ((s.dirInsert n j).setNext j none).lookup m = if m = n then some j else s.lookup m := fun m =>
    (lookup_of_sameDirectory honly.chains.dirRoot honly.dirPages m).trans (hlook m)
  have hnext : ∀ i, ((s.dirInsert n j).setNext j none).nextRec i = if i = j then none else s.nextRec i := by
    intro i
    rw [nextRec_setNext]
    split
    · simp
    · simp only [State.nextRec, State.cand, hroll]
  refine h.update ((setNext_relinked ..).after (dirInsert_relinked ..)) ⟨B', hB'.congr honly.chains.dirRoot honly.dirPages⟩
    (hp'.congr honly.dirPages) ⟨by simp [hlook'], by simp [hnext, Linked]⟩
    (fun i hi => by rw [List.mem_singleton.1 hi]; exact ⟨c, hc, hcn⟩) (fun m hm => by rw [hlook', if_neg hm])
    fun i hi => by rw [hnext, if_neg (by simpa using hi)]

/-- A number without records gives its slot up (R18). -/
theorem dirRemove (h : s.Chained L) (hs : s.Stores) {i : Nat} (hn : s.lookup n = some i) :
    (s.dirRemove n).Chained (Function.update L n []) := by
  obtain ⟨B, hB⟩ := h.buckets
  obtain ⟨B', hB', hp', hlook⟩ := dirRemove_spec hB hs h.pages hn
  have hroll := dirRemove_roll s n
  exact h.update (dirRemove_relinked ..) ⟨B', hB'⟩ hp' (by simp [hlook, Linked]) (by simp)
    (fun m hm => by rw [hlook, if_neg hm]) fun i _ => by simp only [State.nextRec, State.cand, hroll]

/-- A record joins the chain of its number (R16, R17). -/
theorem joinChain (h : s.Chained L) (hs : s.Stores) {c : Candidate} (hc : s.cand j = some c)
    (hchain : s.chain c.number = L c.number) (hj : j ∉ L c.number) (hr : s.directoryRoom c.number = true) :
    (s.joinChain c.number j).Chained (Function.update L c.number (s.placeInChain j (L c.number))) := by
  have hself : (s.chain c.number).filter (· != j) = L c.number := by
    rw [hchain, List.filter_eq_self]
    exact fun i hi => by simpa using fun e : i = j => hj (e ▸ hi)
  unfold State.joinChain
  split
  · next hn =>
    have hnil : L c.number = [] := linked_none.1 (hn ▸ h.linked c.number)
    rw [hnil]
    exact h.dirInsert hs hn hr hc rfl
  · next i hn =>
    rw [hself]
    refine h.writeChain hs hn (nodup_placeInChain (linked_nodup (h.linked _)) hj) placeInChain_ne_nil fun i hi => ?_
    rcases mem_placeInChain.1 hi with rfl | hi
    · exact ⟨c, hc, rfl⟩
    · exact h.owned _ i hi

/-- A record leaves the chain of its number (R18). -/
theorem leaveChain (h : s.Chained L) (hs : s.Stores) (hchain : s.chain n = L n) (hj : j ∈ L n) :
    (s.leaveChain n j).Chained (Function.update L n ((L n).filter (· != j))) := by
  have hfound : ∃ i, s.lookup n = some i := by
    have := h.linked n
    cases hl : L n with
    | nil => simp [hl] at hj
    | cons i l => exact ⟨i, (hl ▸ this).1⟩
  obtain ⟨i, hn⟩ := hfound
  unfold State.leaveChain
  split
  · next hnil =>
    rw [← hchain, hnil]
    exact h.dirRemove hs hn
  · next k rest heq =>
    rw [← hchain, heq]
    refine h.writeChain hs hn ?_ (by simp) fun i hi => h.owned n i ?_
    · rw [← heq, hchain]
      exact (linked_nodup (h.linked n)).filter _
    · rw [← heq, hchain] at hi
      exact (List.mem_filter.1 hi).1

/-- A record is put back into the chain of its number (R19, step 1). -/
theorem reorderRecord (h : s.Chained L) (hs : s.Stores) {c : Candidate} (hc : s.cand j = some c)
    (hchain : s.chain c.number = L c.number) (hj : j ∈ L c.number) :
    (reorderRecord j s).Chained
      (Function.update L c.number (s.placeInChain j ((L c.number).filter (· != j)))) := by
  have hfound : ∃ i, s.lookup c.number = some i := by
    have := h.linked c.number
    cases hl : L c.number with
    | nil => simp [hl] at hj
    | cons i l => exact ⟨i, (hl ▸ this).1⟩
  obtain ⟨i, hn⟩ := hfound
  unfold Machine.reorderRecord
  simp only [hc, hchain]
  refine h.writeChain hs hn (nodup_placeInChain ((linked_nodup (h.linked _)).filter _) (by simp))
    placeInChain_ne_nil fun i hi => ?_
  rcases mem_placeInChain.1 hi with rfl | hi
  · exact ⟨c, hc, rfl⟩
  · exact h.owned _ i (List.mem_filter.1 hi).1

end State.Chained

theorem State.Ordered.chained (h : s.Ordered) : s.Chained s.chain :=
  ⟨h.buckets, h.pages, fun n => (h.chain n).1.linked, fun n i hi => ((h.chain n).1.exact i).1 hi⟩

/-- Chains that hold every live record, in order, are the law of the directory. -/
theorem State.Chained.ordered (h : s.Chained L) (hone : s.OnePerSitting)
    (hall : ∀ i c, s.cand i = some c → i ∈ L c.number) (hr : ∀ n, s.Rising (L n)) : s.Ordered :=
  ⟨h.buckets, h.pages, hone, fun n => ⟨L n, ⟨h.linked n, fun i => ⟨h.owned n i, fun ⟨c, hc, hn⟩ => hn ▸ hall i c hc⟩⟩, hr n⟩⟩

end Sys2Proof.Machine
end

