-- ==== Sys2Proof/Proofs/DirectoryLaw.lean ====
section
/-! SUPPORT. Every step keeps the law of the directory (R14, R17): quiet changes leave all that it reads, and ENROL,
RETIRE, SCHEDULE and RETIRE_SITTING keep it as they write the chains. -/

namespace Sys2Proof.Machine

variable {s t : State} {n m j : Nat} {l l' : List Nat} {L : Nat → List Nat}

theorem enrolled_eq_false (hs : s.Stores) {k : Fin 8} (h : s.enrolled n k = false) {i : Nat} {d : Candidate}
    (hd : s.cand i = some d) : ¬ (d.number = n ∧ d.sitting = k) := by
  rintro ⟨rfl, rfl⟩
  have := List.any_eq_false.1 h _ ((hs.cand_iff i d).1 hd)
  simp at this

theorem mem_slotsWhere (hs : s.Stores) {p : Candidate → Bool} {i : Nat} :
    i ∈ s.slotsWhere p ↔ ∃ c, s.cand i = some c ∧ p c = true := by
  simp only [State.slotsWhere, List.mem_map, List.mem_filter, Prod.exists, hs.cand_iff]
  exact ⟨fun ⟨_, c, h, e⟩ => e ▸ ⟨c, h⟩, fun ⟨c, h⟩ => ⟨i, c, h, rfl⟩⟩

theorem mem_recordsOf (hs : s.Stores) {k : Fin 8} {i : Nat} :
    i ∈ s.recordsOf k ↔ ∃ c, s.cand i = some c ∧ c.sitting = k := by
  unfold State.recordsOf
  simp only [mem_slotsWhere hs, beq_iff_eq]

/-! ### ENROL (R5, R16, R17) -/

/-- A record in a free slot, not linked yet, leaves the chains of the directory. -/
theorem State.Chained.setCand (h : s.Chained L) (hfree : s.cand j = none) (c : Candidate) :
    (s.setCand j c).Chained L := by
  obtain ⟨B, hB⟩ := h.buckets
  have hold : ∀ {i}, (s.cand i).isSome = true → (s.setCand j c).cand i = s.cand i := fun {i} hi => by
    rw [State.cand_setCand, if_neg fun e : i = j => by simp [e, hfree] at hi]
  refine ⟨⟨B, hB.congr rfl rfl⟩, h.pages.congr rfl, fun n => ?_, fun n i hi => ?_⟩
  · refine (linked_congr fun i hi => ?_).2 (h.linked n)
    simp only [State.nextRec, hold (h.live hi)]
  · rw [hold (h.live hi)]
    exact h.owned n i hi

/-- A new record that has joined the chain of its number leaves the directory in order. -/
theorem joinChain_ordered (ho : s.Ordered) (hs : s.Stores) {c : Candidate} (hj : j < 1024) (hfree : s.cand j = none)
    (hseat : c.currentSeat = none) (hroom : s.directoryRoom c.number = true)
    (hnew : ∀ i d, s.cand i = some d → ¬ (d.number = c.number ∧ d.sitting = c.sitting)) :
    ((s.setCand j c).joinChain c.number j).Ordered := by
  have hs0 : (s.setCand j c).Stores := hs.setCand hj hseat
  have hc0 : (s.setCand j c).cand j = some c := by simp [State.cand_setCand]
  have hcand : ∀ {i d}, (s.setCand j c).cand i = some d → (i = j ∧ d = c) ∨ (i ≠ j ∧ s.cand i = some d) := by
    intro i d hd
    rw [State.cand_setCand] at hd
    split at hd
    · next hi => exact .inl ⟨hi, (Option.some.inj hd).symm⟩
    · next hi => exact .inr ⟨hi, hd⟩
  have hold : ∀ {i d}, s.cand i = some d → (s.setCand j c).cand i = some d := fun {i d} hd => by
    rw [State.cand_setCand, if_neg fun e : i = j => by simp [e, hfree] at hd, hd]
  have hjl : ∀ n, j ∉ s.chain n := fun n hm => by simpa [hfree] using (ho.chain n).1.live hm
  have hone : (s.setCand j c).OnePerSitting := by
    intro i k d e hd he hn hk
    rcases hcand hd with ⟨rfl, rfl⟩ | ⟨-, hd'⟩ <;> rcases hcand he with ⟨rfl, rfl⟩ | ⟨-, he'⟩
    · rfl
    · exact absurd ⟨hn.symm, hk.symm⟩ (hnew k e he')
    · exact absurd ⟨hn, hk⟩ (hnew i d hd')
    · exact ho.single i k d e hd' he' hn hk
  have hchained := ho.chained.setCand hfree c
  have hchain : (s.setCand j c).chain c.number = s.chain c.number :=
    chain_of_linked (hchained.linked _) (length_chain_le s _)
  have hrel := joinChain_relinked (s.setCand j c) c.number j
  have hkey : ∀ {i}, (∃ d, s.cand i = some d) → (s.setCand j c).chainKey i = s.chainKey i := fun ⟨d, hd⟩ => by
    rw [chainKey_of_cand hd, chainKey_of_cand (hold hd)]; rfl
  have hrise : ∀ n, (s.setCand j c).Rising (s.chain n) := fun n =>
    rising_congr (fun i hi => hkey (Option.isSome_iff_exists.1 ((ho.chain n).1.live hi))) (ho.chain n).2
  refine (hchained.joinChain hs0 hc0 hchain (hjl _) hroom).ordered (hrel.single hone) (fun i d hd => ?_) fun n => ?_
  · obtain ⟨d', hd', hn, -⟩ := hrel.symm_cands hd
    rw [hn]
    rcases hcand hd' with ⟨rfl, rfl⟩ | ⟨-, hd'⟩
    · rw [Function.update_self]
      exact mem_placeInChain.2 (.inl rfl)
    · have hi := ((ho.chain d'.number).1.exact i).2 ⟨d', hd', rfl⟩
      by_cases he : d'.number = c.number
      · rw [he, Function.update_self]
        exact mem_placeInChain.2 (.inr (he ▸ hi))
      · rwa [Function.update_of_ne he]
  · refine rising_congr (fun i _ => hrel.chainKey i) ?_
    by_cases he : n = c.number
    · subst he
      rw [Function.update_self]
      refine rising_placeInChain (hrise _) fun i hi => ?_
      obtain ⟨d, hd, hdn⟩ := ((ho.chain c.number).1.exact i).1 hi
      exact chainKey_ne (hold hd) hc0 fun e => hnew i d hd ⟨hdn, e⟩
    · rw [Function.update_of_ne he]
      exact hrise n

/-- What follows the new record's joining its chain is quiet: the flags of a clash and its cause (R7). -/
theorem enrolAt_quiet (s : State) (j : Nat) (c : Candidate) :
    ((s.setCand j c).joinChain c.number j).Quiet (s.enrolAt j c) :=
  (raiseIf_quiet ..).after (markClashes_quiet ..)

/-! ### RETIRE (R11, R18) -/

theorem cand_eraseCand (hs : s.Stores) (j i : Nat) : (s.eraseCand j).cand i = if i = j then none else s.cand i :=
  find_erase hs.roll.1 j i

/-- A record that has left the chain of its number can be removed. -/
theorem State.Chained.eraseCand (h : s.Chained L) (hs : s.Stores) (hj : ∀ n, j ∉ L n) : (s.eraseCand j).Chained L := by
  obtain ⟨B, hB⟩ := h.buckets
  have hold : ∀ {n i}, i ∈ L n → (s.eraseCand j).cand i = s.cand i := fun {n i} hi => by
    rw [cand_eraseCand hs, if_neg fun e : i = j => hj n (e ▸ hi)]
  refine ⟨⟨B, hB.congr rfl rfl⟩, h.pages.congr rfl, fun n => ?_, fun n i hi => ?_⟩
  · refine (linked_congr fun i hi => ?_).2 (h.linked n)
    simp only [State.nextRec, hold hi]
  · rw [hold hi]
    exact h.owned n i hi

/-- A record that is retired leaves the directory in order. -/
theorem retireRecord_ordered (ho : s.Ordered) (hs : s.Stores) {c : Candidate} (hc : s.cand j = some c) :
    (s.retireRecord j c).Ordered := by
  have hs0 : ({ s with scripts := s.scripts.filter (fun x => x.2.slot != j) } : State).Stores := hs.filterScripts _
  have ho0 : ({ s with scripts := s.scripts.filter (fun x => x.2.slot != j) } : State).Ordered :=
    ho.congr rfl rfl (fun _ => rfl) fun _ _ => rfl
  have hj : j ∈ s.chain c.number := ((ho.chain c.number).1.exact j).2 ⟨c, hc, rfl⟩
  have hrel := leaveChain_relinked ({ s with scripts := s.scripts.filter (fun x => x.2.slot != j) } : State) c.number j
  have hs1 := hrel.stores hs0
  have hleft := ho0.chained.leaveChain hs0 rfl hj
  have hgone : ∀ n, j ∉ Function.update s.chain c.number ((s.chain c.number).filter (· != j)) n := by
    intro n
    by_cases hn : n = c.number
    · subst hn
      simp
    · rw [Function.update_of_ne hn]
      exact ho.chained.apart (Ne.symm hn) hj
  have hcand : ∀ {i d}, (s.retireRecord j c).cand i = some d →
      i ≠ j ∧ ∃ d', s.cand i = some d' ∧ d.number = d'.number ∧ d.sitting = d'.sitting := by
    intro i d hd
    rw [State.retireRecord, cand_eraseCand hs1] at hd
    split at hd
    · cases hd
    · next hi =>
      obtain ⟨d', hd', hn, hk, -⟩ := hrel.symm_cands hd
      exact ⟨hi, d', hd', hn, hk⟩
  have hmem : ∀ {n i}, i ≠ j → i ∈ s.chain n →
      i ∈ Function.update s.chain c.number ((s.chain c.number).filter (· != j)) n := by
    intro n i hi hin
    by_cases hn : n = c.number
    · subst hn
      rw [Function.update_self]
      exact List.mem_filter.2 ⟨hin, by simpa using hi⟩
    · rwa [Function.update_of_ne hn]
  refine (hleft.eraseCand hs1 hgone).ordered (fun i k d e hd he hn hk => ?_) (fun i d hd => ?_) fun n => ?_
  · obtain ⟨-, d', hd', hdn, hdk⟩ := hcand hd
    obtain ⟨-, e', he', hen, hek⟩ := hcand he
    exact ho.single i k d' e' hd' he' (by rw [← hdn, ← hen, hn]) (by rw [← hdk, ← hek, hk])
  · obtain ⟨hi, d', hd', hdn, -⟩ := hcand hd
    exact hmem hi (hdn ▸ ((ho.chain d'.number).1.exact i).2 ⟨d', hd', rfl⟩)
  · have hsub : (Function.update s.chain c.number ((s.chain c.number).filter (· != j)) n).Sublist (s.chain n) := by
      by_cases hn : n = c.number
      · subst hn
        rw [Function.update_self]
        exact List.filter_sublist
      · rw [Function.update_of_ne hn]
    refine rising_congr (fun i hi => ?_) (List.Pairwise.sublist hsub (ho.chain n).2)
    have hij : i ≠ j := fun e => hgone n (e ▸ hi)
    calc (s.retireRecord j c).chainKey i
        = (({ s with scripts := s.scripts.filter (fun x => x.2.slot != j) } : State).leaveChain c.number j).chainKey i := by
          unfold State.chainKey State.retireRecord
          rw [cand_eraseCand hs1, if_neg hij]
          rfl
      _ = s.chainKey i := hrel.chainKey i

/-! ### SCHEDULE (R19) -/

/-- A directory whose chains hold every live record, with the records still to be put back the only ones that may stand
out of order. -/
structure State.Reordering (s : State) (k : Fin 8) (todo : List Nat) (L : Nat → List Nat) : Prop where
  stores : s.Stores
  single : s.OnePerSitting
  chained : s.Chained L
  all : ∀ i c, s.cand i = some c → i ∈ L c.number
  rising : ∀ n, s.Rising ((L n).filter (fun i => decide (i ∉ todo)))
  todo : ∀ i ∈ todo, ∃ c, s.cand i = some c ∧ c.sitting = k

namespace State.Reordering

variable {k : Fin 8} {todo rest : List Nat}

theorem chainOf (h : s.Reordering k todo L) (n : Nat) : s.ChainOf n (L n) :=
  ⟨h.chained.linked n, fun i => ⟨h.chained.owned n i, fun ⟨c, hc, hn⟩ => hn ▸ h.all i c hc⟩⟩

theorem chain_eq (h : s.Reordering k todo L) (n : Nat) : s.chain n = L n := (h.chainOf n).chain_eq h.single

/-- The next record is put back. -/
theorem reorderRecord (h : s.Reordering k (j :: rest) L) :
    ∃ L', (reorderRecord j s).Reordering k rest L' := by
  obtain ⟨c, hc, hk⟩ := h.todo j List.mem_cons_self
  have hrel := reorderRecord_relinked j s
  have hj := h.all j c hc
  have hmem : ∀ n i, i ∈ Function.update L c.number (s.placeInChain j ((L c.number).filter (· != j))) n ↔ i ∈ L n := by
    intro n i
    by_cases hn : n = c.number
    · subst hn
      rw [Function.update_self, mem_placeInChain, List.mem_filter]
      by_cases hi : i = j
      · simp [hi, hj]
      · simp [hi]
    · rw [Function.update_of_ne hn]
  -- a number has one record of the sitting, so no other record of this number is still to be put back
  have hdone : ∀ i ∈ L c.number, i ≠ j → i ∉ rest ∧ s.chainKey i ≠ s.chainKey j := by
    intro i hi hij
    obtain ⟨d, hd, hdn⟩ := h.chained.owned _ i hi
    have hne : d.sitting ≠ c.sitting := fun e => hij (h.single i j d c hd hc hdn e)
    refine ⟨fun hr => hne ?_, chainKey_ne hd hc hne⟩
    obtain ⟨d', hd', hk'⟩ := h.todo i (List.mem_cons_of_mem _ hr)
    rw [Option.some.inj (hd.symm.trans hd'), hk', hk]
  refine ⟨_, hrel.stores h.stores, hrel.single h.single, h.chained.reorderRecord h.stores hc (h.chain_eq _) hj,
    fun i d hd => ?_, fun n => ?_, fun i hi => ?_⟩
  · obtain ⟨d', hd', hn, -⟩ := hrel.symm_cands hd
    rw [hmem, hn]
    exact h.all i d' hd'
  · refine rising_congr (fun i _ => hrel.chainKey i) ?_
    by_cases hn : n = c.number
    · subst hn
      rw [Function.update_self]
      refine List.Pairwise.sublist List.filter_sublist (rising_placeInChain ?_ fun i hi => ?_)
      · refine List.Pairwise.sublist ?_ (h.rising c.number)
        refine (List.filter_congr fun i hi => ?_) ▸ List.Sublist.refl _
        by_cases hij : i = j
        · simp [hij]
        · simp [hij, (hdone i hi hij).1]
      · obtain ⟨hi, hij⟩ := List.mem_filter.1 hi
        exact (hdone i hi (by simpa using hij)).2
    · rw [Function.update_of_ne hn]
      have hsame : (L n).filter (fun i => decide (i ∉ rest)) = (L n).filter (fun i => decide (i ∉ j :: rest)) := by
        refine List.filter_congr fun i hi => ?_
        have hij : i ≠ j := fun e => h.chained.apart hn hi (e ▸ hj)
        simp [hij]
      rw [hsame]
      exact h.rising n
  · obtain ⟨d, hd, hdk⟩ := h.todo i (List.mem_cons_of_mem _ hi)
    obtain ⟨o, ho⟩ := hrel.cand hd
    exact ⟨_, ho, hdk⟩

/-- When no record is left to be put back, the directory is in order. -/
theorem ordered (h : s.Reordering k [] L) : s.Ordered :=
  h.chained.ordered h.single h.all fun n => by simpa using h.rising n

/-- The records of a sitting are put back, one after another. -/
theorem takeInTurn (h : s.Reordering k todo L) : (takeInTurn todo Machine.reorderRecord s).Ordered := by
  induction todo generalizing s L with
  | nil => exact h.ordered
  | cons j rest ih =>
    obtain ⟨L', h'⟩ := h.reorderRecord
    exact ih h'

end State.Reordering

/-- A sitting's record is written; the orders of the other sittings' records are as before. -/
theorem chainKey_setSitting (s : State) {k : Fin 8} (g : Sitting) {i : Nat} {c : Candidate} (hc : s.cand i = some c)
    (hk : c.sitting ≠ k) : (s.setSitting k g).chainKey i = s.chainKey i := by
  rw [chainKey_of_cand hc, chainKey_of_cand (show (s.setSitting k g).cand i = some c from hc)]
  have : k.val ≠ c.sitting.val := fun e => hk (Fin.ext e.symm)
  simp [State.setSitting, this]

/-- A sitting's record is written, and all of its live records are to be put back. -/
theorem State.Ordered.reordering (ho : s.Ordered) (hs : s.Stores) (k : Fin 8) (g : Sitting) :
    (s.setSitting k g).Reordering k ((s.setSitting k g).recordsOf k) s.chain := by
  have hs1 := hs.setSitting k g
  have hcand : ∀ i, (s.setSitting k g).cand i = s.cand i := fun _ => rfl
  obtain ⟨B, hB⟩ := ho.buckets
  refine ⟨hs1, fun i j c d hc hd => ho.single i j c d hc hd,
    ⟨⟨B, hB.congr rfl rfl⟩, ho.pages.congr rfl, ho.chained.linked, ho.chained.owned⟩,
    fun i c hc => ((ho.chain c.number).1.exact i).2 ⟨c, hc, rfl⟩, fun n => ?_, fun i hi => (mem_recordsOf hs1).1 hi⟩
  refine rising_congr (fun i hi => ?_) (List.Pairwise.sublist List.filter_sublist (ho.chain n).2)
  obtain ⟨hi, hnot⟩ := List.mem_filter.1 hi
  obtain ⟨c, hc, -⟩ := ((ho.chain n).1.exact i).1 hi
  refine chainKey_setSitting s g hc fun hk => ?_
  exact of_decide_eq_true hnot ((mem_recordsOf hs1).2 ⟨c, hc, hk⟩)

/-- A sitting's new timetable leaves the directory in order (R19, step 1). -/
theorem reordered_ordered (ho : s.Ordered) (hs : s.Stores) (k : Fin 8) (g : Sitting) :
    ((s.setSitting k g).reordered k s.sittings[k]).Ordered := by
  unfold State.reordered
  split
  · next ht =>
    have : s.Quiet (s.setSitting k g) := setSitting_quiet (by simpa [State.setSitting] using ht.symm)
    exact (this.links hs).ordered ho
  · exact (ho.reordering hs k g).takeInTurn

/-! ### RETIRE_SITTING (R26) -/

/-- A sitting without live records can be written. -/
theorem setSitting_ordered (ho : s.Ordered) (hs : s.Stores) {k : Fin 8} (hk : s.liveOf k = 0) (g : Sitting) :
    (s.setSitting k g).Ordered := by
  refine ho.congr rfl rfl (fun _ => rfl) fun i hi => ?_
  obtain ⟨c, hc⟩ := Option.isSome_iff_exists.1 hi
  refine chainKey_setSitting s g hc fun e => ?_
  have : i ∈ s.recordsOf k := (mem_recordsOf hs).2 ⟨c, hc, e⟩
  rw [List.length_eq_zero_iff.1 (show (s.recordsOf k).length = 0 from hk)] at this
  exact absurd this List.not_mem_nil

/-! ### Every step -/

/-- A state without records and without linked pages is in order. -/
theorem ordered_of_empty (hroll : s.roll = []) (hroot : s.dirRoot = []) (hpages : s.dirPages = []) : s.Ordered := by
  have hcand : ∀ i, s.cand i = none := fun i => by rw [State.cand, hroll]; rfl
  have hslot : ∀ p x, slotAt s.dirPages p x = none := fun p x => slotAt_of_pool (by rw [hpages]; rfl) x
  have hlook : ∀ n, s.lookup n = none := fun n => lookup_eq_none.2 fun p _ x j => by simp [hslot]
  refine ⟨⟨fun _ => [], fun b => ?_, fun p => ?_, ?_, ?_, ?_⟩, ?_, ?_, fun n => ⟨[], ⟨hlook n, ?_⟩, List.Pairwise.nil⟩⟩
  · rw [hroot]; rfl
  · simp [hpages, tableFind]
  · simp
  · simp
  · simp [hslot]
  · simp [State.NoEmptyPage, hpages, tableFind]
  · simp [State.OnePerSitting, hcand]
  · simp [hcand]

/-- The law of the directory, with that of the stores, is a condition that every step keeps. -/
theorem ordered_kept : Kept (fun s => s.Stores ∧ s.Ordered) where
  quiet h hs := ⟨h.stores hs.1, (h.links hs.1).ordered hs.2⟩
  relink := by
    rintro i op s hr ho ⟨hs, hord⟩
    refine ⟨stores_kept.relink s hr ho hs, ?_⟩
    cases i <;> cases hr <;> cases ho
    case enrol n k a r f =>
      unfold enrol
      split
      · exact hord
      split
      · exact hord
      split
      · exact hord
      split
      · exact hord
      next k' _ _ hnew =>
      split
      · exact hord
      next j hj =>
      split
      · exact hord
      next hroom =>
      obtain ⟨hlt, hfree, -⟩ := freeRollSlot_eq_some.1 hj
      have hjoin := joinChain_ordered (c := newCandidate n k' a r f) hord hs hlt hfree rfl
        (show s.directoryRoom n = true by simpa using hroom)
        fun i d hd => enrolled_eq_false hs (show s.enrolled n k' = false by simpa using hnew) hd
      have hquiet := enrolAt_quiet s j (newCandidate n k' a r f)
      exact (hquiet.links ((joinChain_relinked ..).stores (hs.setCand hlt rfl))).ordered hjoin
    case retire n k =>
      unfold retire
      split
      · exact hord
      next j c hres =>
      repeat' split
      all_goals first
        | exact hord
        | exact retireRecord_ordered hord hs (State.cand_of_resolve hres)
    case schedule k t list =>
      unfold schedule
      repeat' split
      all_goals first
        | exact hord
        | exact ((rescheduleRecords_quiet ..).links ((reordered_relinked ..).stores (hs.setSitting _ _))).ordered
            (reordered_ordered hord hs _ _)
    case retireSitting k =>
      unfold retireSitting
      split
      · exact hord
      next k' _ =>
      split
      any_goals exact hord
      all_goals
        split
        · exact hord
        · next hlive =>
          have hq := emptyKey_quiet k' s
          exact setSitting_ordered ((hq.links hs).ordered hord) (hq.stores hs) (Nat.eq_zero_of_not_pos hlive) _
  reset s := ⟨stores_kept.reset s, ordered_of_empty rfl rfl rfl⟩

/-- Settles O13: the law of the directory is that of the buckets and of each number's chain; quiet changes leave all that
it reads, and the four requests that relink keep it. -/
theorem stepKeepsTheDirectoryLaw : Obligations.StepKeepsTheDirectoryLaw := by
  intro s t hstore hdir he
  have hs := (storeLaw_iff s).1 hstore
  obtain ⟨ht, hord⟩ := ordered_kept.step ⟨hs, (directoryLaw_iff hs).1 hdir⟩ he
  exact (directoryLaw_iff ht).2 hord

end Sys2Proof.Machine
end

