-- ==== Sys2Proof/Proofs/Names.lean ====
section
/-! SUPPORT. What a request that names a record or an index by its operands answers before anything else (R3, R12), and
AMEND, which reads a resolved name (R8). -/

namespace Sys2Proof.Machine

variable {s t : State} {n k j : Nat} {c : Candidate} {i : Instr} {op : Owner} {st : Status} {payload : List Byte}

/-! ### Answers -/

/-- A request that its owner refuses changes nothing and is answered with the refusal alone. -/
theorem exec_refused (ho : ownerRule i = some op) (h : s.resetHold = .running) (he : op s = refuse st s) :
    exec i s = answered i st [] s s := exec_answered ho h he

/-- A request that its owner takes is answered OK with its values. -/
theorem exec_ok (ho : ownerRule i = some op) (h : s.resetHold = .running) (he : op s = okWith payload t) :
    exec i s = answered i .ok payload s t := exec_answered ho h he

/-- The answer says by its status whether something was reduced or dropped. -/
theorem exec_okOrClamped {p : Prop} [Decidable p] (ho : ownerRule i = some op) (h : s.resetHold = .running) {b : Bool}
    (he : op s = okOrClamped b payload t) (hb : b = true ↔ p) : exec i s = answered i (clampStatus p) payload s t := by
  rw [exec_answered ho h he, clampStatus]
  simp only [hb]

/-! ### Indices and names (R3) -/

theorem sittingOf_val (k : Fin 8) : sittingOf k.val = some k := sittingOf_eq_some.2 rfl

theorem sittingOf_of_ge (h : 8 ≤ k) : sittingOf k = none := by simp [sittingOf, Nat.not_lt.2 h]

theorem roomOf_of_ge (h : 4 ≤ k) : roomOf k = none := by simp [roomOf, Nat.not_lt.2 h]

theorem resolve_range (h : 99999999 < n ∨ 8 ≤ k) : s.resolve n k = .error .range := by
  unfold State.resolve
  split
  · rfl
  · next hn =>
    rw [sittingOf_of_ge (h.resolve_left hn)]

theorem resolve_of_absent (hn : n ≤ 99999999) (hk : k < 8) (h : s.lookup n = none) :
    s.resolve n k = .error .notEnrolled := by
  unfold State.resolve
  rw [if_neg (show ¬ Config.maxNumber < n from Nat.not_lt.2 hn),
    sittingOf_eq_some.2 (show k = (Fin.mk k hk).val from rfl), h]

/-- A number whose chain has no record of the sitting names none (R3). -/
theorem resolve_of_noRecord (hn : n ≤ 99999999) (hk : k < 8) (h : s.lookup n ≠ none)
    (hc : ∀ j c, j ∈ s.chain n → s.cand j = some c → c.sitting.val ≠ k) : s.resolve n k = .error .notEnrolled := by
  obtain ⟨i, hi⟩ := Option.ne_none_iff_exists'.1 h
  have hnone : (s.chain n).find? (s.inSitting ⟨k, hk⟩) = none := by
    refine List.find?_eq_none.2 fun j hj hin => ?_
    cases hcand : s.cand j with
    | none => simp [State.inSitting, hcand] at hin
    | some c =>
      simp only [State.inSitting, hcand, beq_iff_eq] at hin
      exact hc j c hj hcand (congrArg Fin.val hin)
  unfold State.resolve
  rw [if_neg (show ¬ Config.maxNumber < n from Nat.not_lt.2 hn), sittingOf_eq_some.2 (show k = (Fin.mk k hk).val from rfl),
    hi]
  simp only [hnone]

/-- The owners of the requests that name a record answer an unresolved name with its refusal, before anything else. An
ISSUE looks at its serial's range first (R106). -/
theorem naming_refuses {r d : Nat} {f : Byte} (hd : d ≤ 9999999)
    (hi : i ∈ namingRequests n k ++ [.amend n k r r f, .place n k r, .move n k r, .issue n k d])
    (hres : s.resolve n k = .error st) : ∃ op, ownerRule i = some op ∧ op s = refuse st s := by
  simp only [namingRequests, List.cons_append, List.nil_append, List.mem_cons, List.not_mem_nil, or_false] at hi
  rcases hi with rfl | rfl | rfl | rfl | rfl | rfl | rfl | rfl | rfl | rfl | rfl | rfl | rfl | rfl | rfl
  · exact ⟨_, rfl, by simp only [withdraw, hres]⟩
  · exact ⟨_, rfl, by simp only [retire, hres]⟩
  · exact ⟨_, rfl, by simp only [readCandidate, hres]⟩
  · exact ⟨_, rfl, by simp only [admitFor, hres]⟩
  · exact ⟨_, rfl, by simp only [unplace, hres]⟩
  · exact ⟨_, rfl, by simp only [submitFor, hres]⟩
  · exact ⟨_, rfl, by simp only [scriptsOf, hres]⟩
  · exact ⟨_, rfl, by simp only [remark, hres]⟩
  · exact ⟨_, rfl, by simp only [readResult, hres]⟩
  · exact ⟨_, rfl, by simp only [restFor, hres]⟩
  · exact ⟨_, rfl, by simp only [restFor, hres]⟩
  · exact ⟨_, rfl, by simp only [amend, hres]⟩
  · exact ⟨_, rfl, by simp only [place, hres]⟩
  · exact ⟨_, rfl, by simp only [move, hres]⟩
  · refine ⟨_, rfl, ?_⟩
    simp only [issue, if_neg (show ¬ Config.maxSerial < d from Nat.not_lt.2 hd), hres]

/-- The requests of a sitting that is none of the eight. -/
theorem sitting_refuses {h : KeyHeader} {q : Nat} {es : List KeyEntryArg} (hk : 8 ≤ k) (he : es ≠ []) (hlen : es.length ≤ 59)
    (hi : i ∈ [Instr.retireSitting k, .hold k, .resume k, .readSitting k, .handOverSitting k, .keyOpen k h,
      .keyEntries k q es, .keySeal k, .keyDiscard k, .readKey k, .readKeyEntries k q q, .extend k q]) (s : State) :
    ∃ op, ownerRule i = some op ∧ op s = refuse .range s := by
  have hk' := sittingOf_of_ge hk
  simp only [List.mem_cons, List.not_mem_nil, or_false] at hi
  rcases hi with rfl | rfl | rfl | rfl | rfl | rfl | rfl | rfl | rfl | rfl | rfl | rfl
  · exact ⟨_, rfl, by simp only [retireSitting, hk']⟩
  · exact ⟨_, rfl, by simp only [setSittingHold, hk']⟩
  · exact ⟨_, rfl, by simp only [setSittingHold, hk']⟩
  · exact ⟨_, rfl, by simp only [readSitting, hk']⟩
  · exact ⟨_, rfl, by simp only [handOverSitting, hk']⟩
  · exact ⟨_, rfl, by simp only [keyOpen, hk']⟩
  · refine ⟨_, rfl, ?_⟩
    simp only [keyEntries, hk', List.length_eq_zero_iff, he, if_false, if_neg (Nat.not_lt.2 hlen)]
  · exact ⟨_, rfl, by simp only [keySeal, hk']⟩
  · exact ⟨_, rfl, by simp only [keyDiscard, hk']⟩
  · exact ⟨_, rfl, by simp only [readKey, hk']⟩
  · exact ⟨_, rfl, by simp only [readKeyEntries, hk']⟩
  · exact ⟨_, rfl, by simp only [extend, hk']⟩

/-- The requests of a room that is none of the four. -/
theorem room_refuses {m : Nat} (hm : 4 ≤ m)
    (hi : i ∈ [Instr.resetRoom m, .readSegment m, .readRoom m, .setRoom m true 0 0]) (s : State) :
    ∃ op, ownerRule i = some op ∧ op s = refuse .range s := by
  have hm' := roomOf_of_ge hm
  simp only [List.mem_cons, List.not_mem_nil, or_false] at hi
  rcases hi with rfl | rfl | rfl | rfl
  · exact ⟨_, rfl, by simp only [resetRoom, hm']⟩
  · exact ⟨_, rfl, by simp only [readSegment, hm']⟩
  · exact ⟨_, rfl, by simp only [readRoom, hm']⟩
  · exact ⟨_, rfl, by simp only [setRoomSettings, hm']⟩

/-- The requests of a seat that is none of the 512. -/
theorem seat_refuses {x : Nat} (hx : 512 ≤ x)
    (hi : i ∈ [Instr.readSeat x, .ackHand x, .seatState x 0, .seatState x 1, .defineSeat x 0 0 0 none 0]) (s : State) :
    ∃ op, ownerRule i = some op ∧ op s = refuse .range s := by
  have hx' : Config.seatRecords ≤ x := hx
  simp only [List.mem_cons, List.not_mem_nil, or_false] at hi
  rcases hi with rfl | rfl | rfl | rfl | rfl
  · exact ⟨_, rfl, by simp only [readSeat, hx', if_true]⟩
  · exact ⟨_, rfl, by simp only [ackHand, hx', if_true]⟩
  · exact ⟨_, rfl, by simp only [setSeatState, hx', if_true]⟩
  · exact ⟨_, rfl, by simp only [setSeatState, hx', if_true]⟩
  · exact ⟨_, rfl, by simp [defineSeat, roomOf, hx']⟩

/-- An owner's rule that refuses, as the request is executed. -/
theorem exec_of_refuses (h : s.resetHold = .running) (hr : ∃ op, ownerRule i = some op ∧ op s = refuse st s) :
    exec i s = answered i st [] s s := by
  obtain ⟨op, ho, he⟩ := hr
  exact exec_refused ho h he

/-- Settles O20: a name is resolved, and an index is looked at, before the request does anything. -/
theorem unknownNamesAndIndicesAreRefused : Obligations.UnknownNamesAndIndicesAreRefused := by
  refine ⟨fun s n k i r d f h hd hi => ⟨fun hnk => ?_, fun hn hk hl => ?_, fun hn hk hl hc => ?_⟩,
    fun s n h => ⟨fun hn => ?_, fun hn hl => ?_⟩,
    fun s h => ⟨fun k delta hdelta => ?_, fun k hd q es hk he hlen i hi => ?_, fun k t rooms hk => ?_,
      fun m hm i hi => ?_, fun x hx i hi => ?_, fun j hj => ?_, fun time ht => ?_⟩⟩
  · exact exec_of_refuses h (naming_refuses hd hi (resolve_range hnk))
  · exact exec_of_refuses h (naming_refuses hd hi (resolve_of_absent hn hk hl))
  · exact exec_of_refuses h (naming_refuses hd hi (resolve_of_noRecord hn hk hl hc))
  · exact exec_refused rfl h (by simp [readChain, Config.maxNumber, hn])
  · exact exec_refused rfl h (by simp [readChain, Config.maxNumber, Nat.not_lt.2 hn, hl])
  · refine exec_refused rfl h ?_
    cases hk : sittingOf k with
    | none => simp only [extend, hk]
    | some k' => simp only [extend, hk, if_pos hdelta]
  · exact exec_of_refuses h (sitting_refuses hk he hlen hi s)
  · exact exec_refused rfl h (by simp only [schedule, sittingOf_of_ge hk])
  · exact exec_of_refuses h (room_refuses hm hi s)
  · exact exec_of_refuses h (seat_refuses hx hi s)
  · exact exec_refused rfl h (by simp [readSlot, Config.rollSlots, hj])
  · exact exec_refused rfl h (by simp [setClock, Config.lastSecond, ht])

/-! ### AMEND (R8) -/

theorem clampTo_eq (top n : Nat) : clampTo top n = min n top := by
  unfold clampTo
  split <;> omega

/-- Some value of an enrolment is out of its range, or a feature bit unknown (R5). -/
theorem enrolmentClamped_iff {a r : Nat} {f : Byte} :
    enrolmentClamped a r f = true ↔ 100 < a ∨ 20 < r ∨ 64 ≤ f.toNat := by
  simp [enrolmentClamped, extraFeatures, or_assoc]

/-- Settles O24: AMEND writes the three fields of a resolved record in EXPECTED or SEATED. -/
theorem amendRewritesTheEnrolment : Obligations.AmendRewritesTheEnrolment := by
  intro s n k a r f j c h hres
  have write : c.state = .expected ∨ c.state = .seated → amend n k a r f s = okOrClamped (enrolmentClamped a r f) []
      (s.setCand j { c with allowance := min a 100, restRate := min r 20, required := f.setWidth 6 }) := by
    rintro (hc | hc) <;> simp only [amend, hres, hc, clampTo_eq, featuresOf]
  refine ⟨fun hc => exec_okOrClamped rfl h (write (by simpa using hc)) enrolmentClamped_iff, fun hc => ?_⟩
  refine exec_refused rfl h ?_
  unfold amend
  rw [hres]
  cases hstate : c.state <;> simp_all

end Sys2Proof.Machine
end

