-- ==== Sys2Proof/Proofs/Clashes.lean ====
section
/-! SUPPORT. Overlapping records of one number, and what setting CLASH on them changes (R7, R19). -/

namespace Sys2Proof.Machine

variable {s t u : State} {j i : Nat} {c d : Candidate} {p q : Nat → Prop}

/-- Two intervals from T0 to T0 + R + W overlap where each starts at or before the end of the other (R7). -/
theorem overlaps_iff (g h : Sitting) :
    g.overlaps h = true ↔ g.t0 ≤ h.t0 + h.r + h.w ∧ h.t0 ≤ g.t0 + g.r + g.w := by
  unfold Sitting.overlaps
  rw [Bool.and_eq_true, decide_eq_true_iff, decide_eq_true_iff]
  rfl

theorem overlaps_comm (g h : Sitting) : g.overlaps h = true ↔ h.overlaps g = true := by
  rw [overlaps_iff, overlaps_iff, and_comm]

/-! ### Overlapping records -/

/-- Two live records of one number whose sittings' intervals overlap (R7). -/
def State.Clash (s : State) (j i : Nat) : Prop :=
  i ≠ j ∧ ∃ c d, s.cand j = some c ∧ s.cand i = some d ∧ d.number = c.number ∧
    s.sittings[c.sitting].overlaps s.sittings[d.sitting] = true

/-- The records that marking the overlaps of a record marks: those it overlaps with, and itself where there is one. -/
def State.Marks (s : State) (j i : Nat) : Prop := s.Clash j i ∨ (i = j ∧ ∃ i', s.Clash j i')

theorem State.Clash.symm (h : s.Clash j i) : s.Clash i j := by
  obtain ⟨hne, c, d, hc, hd, hn, ho⟩ := h
  exact ⟨hne.symm, d, c, hd, hc, hn.symm, (overlaps_comm _ _).1 ho⟩

theorem clash_iff (hc : s.cand j = some c) : s.Clash j i ↔
    i ≠ j ∧ ∃ d, s.cand i = some d ∧ d.number = c.number ∧ s.sittings[c.sitting].overlaps s.sittings[d.sitting] = true := by
  constructor
  · rintro ⟨hne, c', d, hc', hd, hn, ho⟩
    obtain rfl := Option.some.inj (hc.symm.trans hc')
    exact ⟨hne, d, hd, hn, ho⟩
  · exact fun ⟨hne, d, hd, hn, ho⟩ => ⟨hne, c, d, hc, hd, hn, ho⟩

/-- Two states agree in what overlaps are read from: each record's number and sitting, and the sittings (R7). -/
structure State.SameNames (s t : State) : Prop where
  cands : ∀ i, (t.cand i).map (fun c => (c.number, c.sitting)) = (s.cand i).map (fun c => (c.number, c.sitting))
  sittings : t.sittings = s.sittings

theorem State.SameNames.symm (h : s.SameNames t) : t.SameNames s := ⟨fun i => (h.cands i).symm, h.sittings.symm⟩

theorem State.SameNames.clash (h : s.SameNames t) (hc : s.Clash j i) : t.Clash j i := by
  have name : ∀ {i c}, s.cand i = some c → ∃ d, t.cand i = some d ∧ d.number = c.number ∧ d.sitting = c.sitting := by
    intro i c hc
    have := h.cands i
    rw [hc] at this
    obtain ⟨d, hd, he⟩ := Option.map_eq_some_iff.1 this
    exact ⟨d, hd, congrArg Prod.fst he, congrArg Prod.snd he⟩
  obtain ⟨hne, c, d, hc, hd, hn, ho⟩ := hc
  obtain ⟨c', hc', hcn, hck⟩ := name hc
  obtain ⟨d', hd', hdn, hdk⟩ := name hd
  exact ⟨hne, c', d', hc', hd', by rw [hdn, hcn, hn], by simpa only [hck, hdk, h.sittings] using ho⟩

theorem State.SameNames.clash_iff (h : s.SameNames t) : t.Clash j i ↔ s.Clash j i := ⟨h.symm.clash, h.clash⟩

theorem State.SameNames.marks_iff (h : s.SameNames t) : t.Marks j i ↔ s.Marks j i := by
  simp only [State.Marks, h.clash_iff]

theorem State.Relinked.sameNames (h : s.Relinked t) : s.SameNames t := by
  refine ⟨fun i => ?_, h.sittings⟩
  have := congrArg (Option.map fun c : Candidate => (c.number, c.sitting)) (h.cands i)
  simpa [Function.comp_def, Candidate.unchained] using this

/-- The records that a record overlaps with. -/
theorem mem_clashing (hs : s.Stores) : i ∈ s.clashing j ↔ s.Clash j i := by
  unfold State.clashing
  cases hc : s.cand j with
  | none => simp [State.Clash, hc]
  | some c =>
    rw [Machine.clash_iff hc]
    simp only [List.mem_map, List.mem_filter, Bool.and_eq_true, bne_iff_ne, beq_iff_eq, Prod.exists, hs.cand_iff]
    constructor
    · rintro ⟨_, d, ⟨hd, ⟨hne, hn⟩, ho⟩, rfl⟩
      exact ⟨hne, d, hd, hn, ho⟩
    · rintro ⟨hne, d, hd, hn, ho⟩
      exact ⟨i, d, ⟨hd, ⟨hne, hn⟩, ho⟩, rfl⟩

/-! ### Setting CLASH -/

/-- A candidate record with its CLASH flag as given. -/
def Candidate.withClash (b : Bool) (c : Candidate) : Candidate := { c with flags := { c.flags with clash := b } }

/-- Only the CLASH flags differ: they are set on the records of a set, and are as before on the others. -/
structure State.Flagged (s t : State) (p : Nat → Prop) : Prop where
  frame : s.OnlyRoll t
  none : ∀ i, s.cand i = none → t.cand i = none
  some : ∀ i c, s.cand i = some c → ∃ b, t.cand i = some (c.withClash b) ∧ (b = true ↔ c.flags.clash = true ∨ p i)

namespace State.Flagged

theorem refl (s : State) : s.Flagged s (fun _ => False) :=
  ⟨rfl, fun _ h => h, fun _ c hc => ⟨c.flags.clash, hc, by simp⟩⟩

theorem trans (h : s.Flagged t p) (g : t.Flagged u q) : s.Flagged u (fun i => p i ∨ q i) := by
  refine ⟨h.frame.trans g.frame, fun i hi => g.none i (h.none i hi), fun i c hc => ?_⟩
  obtain ⟨b, hb, hbp⟩ := h.some i c hc
  obtain ⟨b', hb', hbq⟩ := g.some i _ hb
  exact ⟨b', hb', hbq.trans (by rw [← or_assoc, ← hbp]; rfl)⟩

theorem congr (h : s.Flagged t p) (hpq : ∀ i, p i ↔ q i) : s.Flagged t q :=
  ⟨h.frame, h.none, fun i c hc => by simpa only [← hpq] using h.some i c hc⟩

theorem sameNames (h : s.Flagged t p) : s.SameNames t := by
  refine ⟨fun i => ?_, by rw [h.frame]⟩
  cases hc : s.cand i with
  | none => rw [h.none i hc]
  | some c =>
    obtain ⟨b, hb, -⟩ := h.some i c hc
    rw [hb]
    rfl

end State.Flagged

theorem setClash_flagged (j : Nat) (s : State) : s.Flagged (setClash j s) (fun i => i = j) := by
  unfold setClash
  cases hj : s.cand j with
  | none => exact ⟨rfl, fun _ h => h, fun i c hc => ⟨c.flags.clash, hc, by
      have : i ≠ j := fun e => by simp [e, hj] at hc
      simp [this]⟩⟩
  | some c =>
    refine ⟨rfl, fun i hi => ?_, fun i d hd => ?_⟩
    · rw [State.cand_setCand, if_neg fun e : i = j => by simp [e, hj] at hi]
      exact hi
    · by_cases h : i = j
      · subst h
        obtain rfl := Option.some.inj (hj.symm.trans hd)
        exact ⟨true, by simp [State.cand_setCand, Candidate.withClash], by simp⟩
      · exact ⟨d.flags.clash, by rw [State.cand_setCand, if_neg h, hd]; rfl, by simp [h]⟩

/-- CLASH is set on the records of a list. -/
theorem setClashes_flagged (l : List Nat) (s : State) : s.Flagged (takeInTurn l setClash s) (fun i => i ∈ l) := by
  induction l generalizing s with
  | nil => exact (State.Flagged.refl s).congr fun i => by simp
  | cons j l ih => exact ((setClash_flagged j s).trans (ih _)).congr fun i => by simp

/-- CLASH is set on a record and the records it overlaps with, where there is one (R7). -/
theorem markClashes_flagged (hs : s.Stores) (j : Nat) : s.Flagged (markClashes j s) (s.Marks j) := by
  unfold markClashes
  split
  · next h =>
    have hnone : ∀ i, ¬ s.Clash j i := fun i hi => by
      have := (mem_clashing hs).2 hi
      rw [List.isEmpty_iff.1 h] at this
      exact List.not_mem_nil this
    exact (State.Flagged.refl s).congr fun i => by simp [State.Marks, hnone]
  · next h =>
    refine (setClashes_flagged _ s).congr fun i => ?_
    have hsome : ∃ i', s.Clash j i' := by
      obtain ⟨i', hi'⟩ := List.exists_mem_of_ne_nil (s.clashing j) fun e => h (by simp [e])
      exact ⟨i', (mem_clashing hs).1 hi'⟩
    simp only [List.mem_cons, mem_clashing hs, State.Marks, hsome, and_true]
    exact or_comm

/-- The overlaps of the records of a list are marked, one record after another (R19). -/
theorem markAllClashes_flagged (hs : s.Stores) (l : List Nat) :
    s.Flagged (takeInTurn l markClashes s) (fun i => ∃ j ∈ l, s.Marks j i) := by
  induction l generalizing s with
  | nil => exact (State.Flagged.refl s).congr fun i => by simp
  | cons j l ih =>
    have h := markClashes_flagged hs j
    exact (h.trans (ih ((markClashes_quiet j s).stores hs))).congr fun i => by simp [h.sameNames.marks_iff]

end Sys2Proof.Machine
end

