-- ==== Sys2Proof/Proofs/Enrolment.lean ====
section
/-! SUPPORT. ENROL: the record it creates, the overlaps it marks, and its place in the directory (R4, R5, R7, R16,
R17). -/

namespace Sys2Proof.Machine

variable {s t : State} {n a r j p : Nat} {k : Fin 8} {f : Byte} {x : Fin 8} {c : Candidate}

/-! ### What ENROL answers (R4) -/

theorem enrolOpen_iff (g : Sitting) : g.enrolOpen = true ↔
    g.state ∈ [SittingState.scheduled, .admitting, .reading] ∨ (g.state = .writing ∧ g.e < g.r + g.l) := by
  unfold Sitting.enrolOpen
  cases g.state <;> simp

theorem enrolOpen_eq_false {g : Sitting} (h : g.state ∈ [SittingState.unscheduled, .closing, .closed] ∨
    (g.state = .writing ∧ g.r + g.l ≤ g.e)) : g.enrolOpen = false := by
  unfold Sitting.enrolOpen
  cases hg : g.state <;> simp_all

theorem enrolled_iff (s : State) (n : Nat) (k : Fin 8) :
    s.enrolled n k = true ↔ ∃ y ∈ s.roll, y.2.number = n ∧ y.2.sitting = k := by
  simp [State.enrolled]

theorem directoryRoom_iff (s : State) (n : Nat) : s.directoryRoom n = true ↔ s.lookup n ≠ none ∨
    (∃ p ∈ s.bucketPages (n % 64), ∃ x : Fin 8, (slotsOf s.dirPages p)[x] = none) ∨
    ∃ p, p < 160 ∧ tableFind s.dirPages p = none := by
  unfold State.directoryRoom
  rw [Bool.or_eq_true, Bool.or_eq_true, Option.isSome_iff_ne_none, Option.isSome_iff_ne_none, Option.isSome_iff_ne_none,
    or_assoc]
  refine or_congr Iff.rfl (or_congr ?_ ?_)
  · rw [ne_eq, freeDirSlot_eq_none]
    simp only [ne_eq, not_forall, not_not, exists_prop]
    rfl
  · rw [ne_eq, poolPage_eq_none]
    simp only [ne_eq, not_forall, not_not, exists_prop]

theorem freeRollSlot_eq_none : s.freeRollSlot = none ↔ ∀ j, j < 1024 → s.cand j ≠ none := by
  unfold State.freeRollSlot
  rw [lowestFrom_eq_none]
  simp [Config.rollSlots, ← Option.isNone_iff_eq_none]

/-- ENROL where all of its checks are passed (R4). -/
theorem enrol_accepted (hn : n ≤ 99999999) (hopen : s.sittings[k].enrolOpen = true) (hnew : s.enrolled n k = false)
    (hj : s.freeRollSlot = some j) (hroom : s.directoryRoom n = true) :
    enrol n k a r f s = okOrClamped (enrolmentClamped a r f)
      (be2 j ++ beFlag ((s.enrolAt j (newCandidate n k a r f)).hasClash j)) (s.enrolAt j (newCandidate n k a r f)) := by
  unfold enrol
  rw [if_neg (show ¬ Config.maxNumber < n from Nat.not_lt.2 hn)]
  simp only [sittingOf_val, hopen, hnew, hj, hroom]
  rfl

theorem enrol_range (h : 99999999 < n ∨ 8 ≤ j) (s : State) : enrol n j a r f s = refuse .range s := by
  unfold enrol
  split
  · rfl
  · next hn => rw [sittingOf_of_ge (h.resolve_left hn)]

theorem enrol_closed (hn : n ≤ 99999999) (hopen : s.sittings[k].enrolOpen = false) :
    enrol n k a r f s = refuse .state s := by
  unfold enrol
  rw [if_neg (show ¬ Config.maxNumber < n from Nat.not_lt.2 hn)]
  simp only [sittingOf_val, hopen]
  rfl

theorem enrol_duplicate (hn : n ≤ 99999999) (hopen : s.sittings[k].enrolOpen = true) (hold : s.enrolled n k = true) :
    enrol n k a r f s = refuse .duplicate s := by
  unfold enrol
  rw [if_neg (show ¬ Config.maxNumber < n from Nat.not_lt.2 hn)]
  simp only [sittingOf_val, hopen, hold]
  rfl

theorem enrol_full (hn : n ≤ 99999999) (hopen : s.sittings[k].enrolOpen = true) (hnew : s.enrolled n k = false)
    (hj : s.freeRollSlot = none) : enrol n k a r f s = refuse .full s := by
  unfold enrol
  rw [if_neg (show ¬ Config.maxNumber < n from Nat.not_lt.2 hn)]
  simp only [sittingOf_val, hopen, hnew, hj]
  rfl

theorem enrol_dirFull (hn : n ≤ 99999999) (hopen : s.sittings[k].enrolOpen = true) (hnew : s.enrolled n k = false)
    (hj : s.freeRollSlot = some j) (hroom : s.directoryRoom n = false) : enrol n k a r f s = refuse .dirFull s := by
  unfold enrol
  rw [if_neg (show ¬ Config.maxNumber < n from Nat.not_lt.2 hn)]
  simp only [sittingOf_val, hopen, hnew, hj, hroom]
  rfl

/-! ### The record that ENROL creates (R5, R7) -/

/-- The state as the new record's overlaps have been marked, before the cause. -/
def State.enrolMarked (s : State) (j : Nat) (c : Candidate) : State :=
  markClashes j ((s.setCand j c).joinChain c.number j)

theorem enrolAt_eq (s : State) (j : Nat) (c : Candidate) : s.enrolAt j c =
    if (s.enrolMarked j c).hasClash j then (s.enrolMarked j c).raise .admission else s.enrolMarked j c := rfl

/-- A state and the same with a cause, where there was one: the records are those of the first. -/
theorem raiseIf_attention (b : Bool) (g : CauseGroup) (s : State) :
    (if b then s.raise g else s) = { s with attention := if b then (s.raise g).attention else s.attention } := by
  cases b <;> rfl

theorem enrolAt_frame (s : State) (j : Nat) (c : Candidate) : s.enrolAt j c =
    { s.enrolMarked j c with attention := if (s.enrolMarked j c).hasClash j then
        ((s.enrolMarked j c).raise .admission).attention else (s.enrolMarked j c).attention } := by
  rw [enrolAt_eq, raiseIf_attention]

theorem cand_enrolAt (s : State) (j : Nat) (c : Candidate) (i : Nat) :
    (s.enrolAt j c).cand i = (s.enrolMarked j c).cand i := by
  rw [enrolAt_frame]
  rfl

/-- The new record joins the chain of its number, and then its overlaps are marked (R5, R7). -/
theorem enrolMarked_flagged (hs : s.Stores) (hj : j < 1024) (hseat : c.currentSeat = none) :
    ((s.setCand j c).joinChain c.number j).Flagged (s.enrolMarked j c) ((s.setCand j c).Marks j) := by
  have hrel := joinChain_relinked (s.setCand j c) c.number j
  exact (markClashes_flagged (hrel.stores (hs.setCand hj hseat)) j).congr fun i => hrel.sameNames.marks_iff

theorem enrolMarked_frame (hs : s.Stores) (hj : j < 1024) (hseat : c.currentSeat = none) : s.enrolMarked j c =
    { s with roll := (s.enrolMarked j c).roll, dirRoot := (s.enrolMarked j c).dirRoot,
             dirPages := (s.enrolMarked j c).dirPages } := by
  have h := (enrolMarked_flagged hs hj hseat).frame
  unfold State.OnlyRoll at h
  rw [(joinChain_relinked (s.setCand j c) c.number j).frame] at h
  rw [h]
  rfl

/-- Each record keeps all but its links, and its CLASH flag is set where the new record overlaps it (R7). -/
theorem enrolMarked_cand (hs : s.Stores) (hj : j < 1024) (hseat : c.currentSeat = none) {i : Nat} {d : Candidate}
    (hd : (s.setCand j c).cand i = some d) :
    ∃ o b, (s.enrolMarked j c).cand i = some (({ d with nextRecord := o }).withClash b) ∧
      (b = true ↔ d.flags.clash = true ∨ (s.setCand j c).Marks j i) := by
  obtain ⟨o, ho⟩ := (joinChain_relinked (s.setCand j c) c.number j).cand hd
  obtain ⟨b, hb, hiff⟩ := (enrolMarked_flagged hs hj hseat).some i _ ho
  exact ⟨o, b, hb, hiff⟩

theorem enrolMarked_cand_none (hs : s.Stores) (hj : j < 1024) (hseat : c.currentSeat = none) {i : Nat}
    (hi : (s.setCand j c).cand i = none) : (s.enrolMarked j c).cand i = none :=
  (enrolMarked_flagged hs hj hseat).none i (((joinChain_relinked ..).cand_eq_none i).2 hi)

/-- A record overlaps a new one in a free slot where it did before. -/
theorem clash_setCand (hfree : s.cand j = none) {i : Nat} :
    (s.setCand j c).Clash j i ↔ ∃ d, s.cand i = some d ∧ d.number = c.number ∧
      s.sittings[c.sitting].overlaps s.sittings[d.sitting] = true := by
  rw [clash_iff (show (s.setCand j c).cand j = some c by simp [State.cand_setCand])]
  constructor
  · rintro ⟨hi, d, hd, h⟩
    rw [State.cand_setCand, if_neg hi] at hd
    exact ⟨d, hd, h⟩
  · rintro ⟨d, hd, h⟩
    have hi : i ≠ j := fun e => by simp [e, hfree] at hd
    exact ⟨hi, d, by rw [State.cand_setCand, if_neg hi, hd], h⟩

theorem newCandidate_eq (n : Nat) (k : Fin 8) (a r : Nat) (f : Byte) : newCandidate n k a r f =
    { number := n, sitting := k, state := .expected, allowance := min a 100, restRate := min r 20,
      required := f.setWidth 6, currentSeat := none, seatOfRecord := none,
      flags := ⟨false, false, false, false, false, false, false⟩, ext := none, restBudget := none, restUsed := 0,
      personalEnd := none, nextRecord := none,
      acc := { pages := 0, sums := Vector.replicate 4 0, reviewCount := 0 }, result := none } := by
  simp only [newCandidate, clampTo_eq, featuresOf, noFlags, emptyAccumulator]

/-- What an accepted ENROL makes of the records (R2, R5, R7). -/
theorem enrolAt_records (hs : s.Stores) (hj : j < 1024) (hfree : s.cand j = none) :
    ∃ c, (s.enrolAt j (newCandidate n k a r f)).cand j = some c ∧ c.unlinked = newCandidate n k a r f ∧
      (c.flags.clash = true ↔
        ∃ i d, s.cand i = some d ∧ d.number = n ∧ s.sittings[k].overlaps s.sittings[d.sitting] = true) ∧
      (s.enrolAt j (newCandidate n k a r f)).attention =
        (if c.flags.clash then (s.raise .admission).attention else s.attention) ∧
      (∀ i, i ≠ j → s.cand i = none → (s.enrolAt j (newCandidate n k a r f)).cand i = none) ∧
      ∀ i d, s.cand i = some d → ∃ d', (s.enrolAt j (newCandidate n k a r f)).cand i = some d' ∧
        d'.unlinked = d.unlinked ∧
        d'.flags.clash = (d.flags.clash || (d.number == n && s.sittings[k].overlaps s.sittings[d.sitting])) := by
  have hseat : (newCandidate n k a r f).currentSeat = none := rfl
  have hself : (s.setCand j (newCandidate n k a r f)).cand j = some (newCandidate n k a r f) := by
    simp [State.cand_setCand]
  have hclash : ∀ {i}, (s.setCand j (newCandidate n k a r f)).Clash j i ↔ ∃ d, s.cand i = some d ∧ d.number = n ∧
      s.sittings[k].overlaps s.sittings[d.sitting] = true := clash_setCand hfree
  have hnot : ¬ (s.setCand j (newCandidate n k a r f)).Clash j j := fun h => h.1 rfl
  obtain ⟨o, b, hb, hiff⟩ := enrolMarked_cand hs hj hseat hself
  refine ⟨_, (cand_enrolAt ..).trans hb, rfl, ?_, ?_, fun i hi hnone => ?_, fun i d hd => ?_⟩
  · show b = true ↔ _
    rw [hiff, State.Marks]
    simp only [hnot, false_or, true_and, hclash]
    exact or_iff_right (by simp [newCandidate, noFlags])
  · rw [enrolAt_frame]
    have hflag : (s.enrolMarked j (newCandidate n k a r f)).hasClash j = b := by
      unfold State.hasClash
      rw [hb]
      rfl
    rw [hflag, enrolMarked_frame hs hj hseat]
    rfl
  · rw [cand_enrolAt]
    exact enrolMarked_cand_none hs hj hseat (by rw [State.cand_setCand, if_neg hi, hnone])
  · have hi : i ≠ j := fun e => by simp [e, hfree] at hd
    obtain ⟨o, b, hb, hiff⟩ := enrolMarked_cand hs hj hseat
      (show (s.setCand j (newCandidate n k a r f)).cand i = some d by rw [State.cand_setCand, if_neg hi, hd])
    refine ⟨_, (cand_enrolAt ..).trans hb, rfl, ?_⟩
    show b = _
    rw [Bool.eq_iff_iff, hiff, State.Marks]
    simp [hi, hclash, hd]

/-- Settles O22: an accepted ENROL writes the record, links it and marks its overlaps; a refused one changes nothing. -/
theorem enrolCreatesARecord : Obligations.EnrolCreatesARecord := by
  refine ⟨overlaps_iff, fun s n k a r f j h hstore hn hopen hnew hj hfree hlow hroom => ?_,
    fun s n k a r f i h hn hi => ?_, fun s n k a r f h hnk => exec_refused rfl h (enrol_range hnk s)⟩
  · have hs := (storeLaw_iff s).1 hstore
    obtain ⟨c, hc, hrecord, hclash, hatt, hnone, hsome⟩ :=
      enrolAt_records (n := n) (k := k) (a := a) (r := r) (f := f) hs hj hfree
    have hen : s.enrolled n k = false := by
      rw [← Bool.not_eq_true, enrolled_iff]
      rintro ⟨⟨i, d⟩, hy, hyn⟩
      exact hnew i d ((hs.cand_iff i d).2 hy) hyn
    have hflag : (s.enrolAt j (newCandidate n k a r f)).hasClash j = c.flags.clash := by simp [State.hasClash, hc]
    have hacc := enrol_accepted (a := a) (r := r) (f := f) hn ((enrolOpen_iff _).2 hopen) hen
      (freeRollSlot_eq_some.2 ⟨hj, hfree, hlow⟩) hroom
    rw [hflag] at hacc
    refine ⟨_, c, exec_okOrClamped rfl h hacc enrolmentClamped_iff, ?_, hc, hrecord.trans (newCandidate_eq ..), hclash,
      hatt, hnone, hsome⟩
    rw [enrolAt_frame, enrolMarked_frame hs hj rfl]
  · subst hi
    refine ⟨fun hc => exec_refused rfl h (enrol_closed hn (enrolOpen_eq_false hc)),
      fun hopen => ⟨fun hold => ?_, fun hnew => ⟨fun hfull => ?_,
      fun ⟨j, hj, hfree⟩ hl hpages hpool => ?_⟩⟩⟩
    all_goals
      have hopen' := (enrolOpen_iff s.sittings[k]).2 hopen
    · exact exec_refused rfl h (enrol_duplicate hn hopen' ((enrolled_iff ..).2 hold))
    all_goals
      have hnew' : s.enrolled n k = false := by
        rw [← Bool.not_eq_true, enrolled_iff]
        rintro ⟨y, hy, hyn⟩
        exact hnew y hy hyn
    · exact exec_refused rfl h (enrol_full hn hopen' hnew' (freeRollSlot_eq_none.2 hfull))
    · obtain ⟨j', hj'⟩ := Option.ne_none_iff_exists'.1 fun e => freeRollSlot_eq_none.1 e j hj hfree
      refine exec_refused rfl h (enrol_dirFull hn hopen' hnew' hj' ?_)
      rw [← Bool.not_eq_true, directoryRoom_iff]
      rintro (hl' | ⟨p, hp, x, hx⟩ | ⟨p, hp, hpool'⟩)
      · exact hl' hl
      · exact hpages p hp x hx
      · exact hpool p hp hpool'

end Sys2Proof.Machine
end

