-- ==== Sys2Proof/Proofs/EnrolmentLinks.lean ====
section
/-! SUPPORT. The directory as it is read (R14, R15, R17), and where an ENROL links its record (R16, R17). Nothing but the
pages of the number's own bucket need be in order for it. -/

namespace Sys2Proof.Machine

variable {s t : State} {n j p : Nat} {k : Fin 8} {x : Fin 8} {c : Candidate}

/-! ### Reading the directory -/

theorem dirPlace_eq_some : s.dirPlace n = some (p, x) ↔ ∃ before after j, s.bucketPages (n % 64) = before ++ p :: after ∧
    (∀ q ∈ before, ∀ y i, slotAt s.dirPages q y ≠ some ⟨n, i⟩) ∧ (∀ y i, y < x → slotAt s.dirPages p y ≠ some ⟨n, i⟩) ∧
    slotAt s.dirPages p x = some ⟨n, j⟩ := by
  unfold State.dirPlace
  rw [findSlot_eq_some]
  simp only [holdsNumber_eq_false, holdsNumber_eq_true]
  constructor
  · rintro ⟨before, after, heq, hb, hp, j, hj⟩
    exact ⟨before, after, j, heq, hb, fun y i hy => hp y hy i, hj⟩
  · rintro ⟨before, after, j, heq, hb, hp, hj⟩
    exact ⟨before, after, heq, hb, fun y hy i => hp y i hy, j, hj⟩

theorem dirPlace_of_sameDirectory (hr : t.dirRoot = s.dirRoot) (hp : t.dirPages = s.dirPages) (n : Nat) :
    t.dirPlace n = s.dirPlace n := by
  simp only [State.dirPlace, State.bucketPages, hr, hp]

theorem bucketPages_of_sameDirectory (hr : t.dirRoot = s.dirRoot) (hp : t.dirPages = s.dirPages) (b : Nat) :
    t.bucketPages b = s.bucketPages b := by
  simp only [State.bucketPages, hr, hp]

theorem State.SameLinks.nextRec (h : s.SameLinks t) : t.nextRec = s.nextRec := by
  funext i
  have := congrArg (fun o => o.bind fun (x : Nat × Fin 8 × Option Nat) => x.2.2) (h.cand_links i)
  show (t.cand i).bind _ = (s.cand i).bind _
  simpa [Option.bind_map, Function.comp_def, Candidate.links] using this

theorem State.SameLinks.chain (h : s.SameLinks t) (n : Nat) : t.chain n = s.chain n := by
  rw [chain_eq, chain_eq, h.nextRec, lookup_of_sameDirectory h.root h.pages]

/-! ### The first record of a number (R16) -/

/-- A number that only one slot of its bucket's pages holds is found there. -/
theorem place_of_onlySlot {before after : List Nat} (heq : t.bucketPages (n % 64) = before ++ p :: after)
    (hp : p ∉ before) (hx : slotAt t.dirPages p x = some ⟨n, j⟩)
    (honly : ∀ q ∈ t.bucketPages (n % 64), ∀ y i, slotAt t.dirPages q y = some ⟨n, i⟩ → q = p ∧ y = x) :
    t.dirPlace n = some (p, x) ∧ t.lookup n = some j := by
  have hmem : p ∈ t.bucketPages (n % 64) := heq ▸ List.mem_append_right _ List.mem_cons_self
  have hplace : t.dirPlace n = some (p, x) := dirPlace_eq_some.2 ⟨before, after, j, heq,
    fun q hq y i hi => hp ((honly q (heq ▸ List.mem_append_left _ hq) y i hi).1 ▸ hq),
    fun y i hy hi => hy.ne (honly p hmem y i hi).2, hx⟩
  exact ⟨hplace, lookup_eq_some.2 ⟨p, x, hplace, hx⟩⟩

/-- A number that is not found takes the first unused slot of its bucket's pages. -/
theorem dirInsert_free_place (hl : s.lookup n = none) (hf : s.freeDirSlot n = some (p, x))
    (hpres : ∀ q ∈ s.bucketPages (n % 64), (tableFind s.dirPages q).isSome = true) (j : Nat) :
    (s.dirInsert n j).bucketPages (n % 64) = s.bucketPages (n % 64) ∧
      (s.dirInsert n j).dirPlace n = some (p, x) ∧ (s.dirInsert n j).lookup n = some j := by
  obtain ⟨before, after, heq, hused, -, hfree⟩ := freeDirSlot_eq_some.1 hf
  have hslot := slotAt_setDirSlot (hpres p (heq ▸ List.mem_append_right _ List.mem_cons_self)) x (some ⟨n, j⟩)
  rw [dirInsert_free hf]
  refine ⟨bucketPages_setDirSlot .., place_of_onlySlot ((bucketPages_setDirSlot ..).trans heq) (fun hp => ?_)
    (by rw [hslot, if_pos ⟨rfl, rfl⟩]) fun q hq y i hi => ?_⟩
  · exact hused p hp x hfree
  · by_contra hne
    rw [hslot, if_neg hne] at hi
    rw [bucketPages_setDirSlot] at hq
    exact lookup_eq_none.1 hl q hq y i hi

/-- A number that is not found, with no unused slot in its bucket's pages, takes slot 0 of a page from the pool. -/
theorem dirInsert_pool_place (hl : s.lookup n = none) (hf : s.freeDirSlot n = none) (hpool : s.poolPage = some p)
    (hpres : ∀ q ∈ s.bucketPages (n % 64), (tableFind s.dirPages q).isSome = true)
    (hlen : (s.bucketPages (n % 64)).length < 160) (j : Nat) :
    (s.dirInsert n j).bucketPages (n % 64) = s.bucketPages (n % 64) ++ [p] ∧
      (s.dirInsert n j).dirPlace n = some (p, 0) ∧ (s.dirInsert n j).lookup n = some j := by
  obtain ⟨hpn, hlinked⟩ := poolPage_linked (j := j) hpool hpres
  have hnone := (poolPage_eq_some.1 hpool).2.1
  have hslot := slotChange_of_pageLinked hnone hlinked
  rw [dirInsert_pool hf hpool]
  have hpages : (s.linkPage (n % 64) p (freshPage n j)).bucketPages (n % 64) = s.bucketPages (n % 64) ++ [p] :=
    bucketPages_of_linked (hlinked.linked rfl hpn (linked_bucketPages hlen)) (by simpa using hlen)
  refine ⟨hpages, place_of_onlySlot (after := []) hpages hpn (by rw [hslot, if_pos ⟨rfl, rfl⟩]) fun q hq y i hi => ?_⟩
  by_contra hne
  rw [hslot, if_neg hne] at hi
  rw [hpages] at hq
  rcases List.mem_append.1 hq with hq | hq
  · exact lookup_eq_none.1 hl q hq y i hi
  · rw [List.mem_singleton.1 hq, slotAt_of_pool hnone] at hi
    cases hi

/-- A number that is not found has its first record as whole chain, once it has been found a slot. -/
theorem chain_first (hfound : (s.dirInsert n j).lookup n = some j) :
    ((s.dirInsert n j).setNext j none).lookup n = some j ∧ ((s.dirInsert n j).setNext j none).chain n = [j] := by
  have honly := setNext_onlyRoll (s.dirInsert n j) j none
  have hlook : ((s.dirInsert n j).setNext j none).lookup n = some j :=
    (lookup_of_sameDirectory honly.chains.dirRoot honly.dirPages n).trans hfound
  refine ⟨hlook, chain_of_linked ⟨hlook, ?_⟩ (by simp)⟩
  show Linked _ (((s.dirInsert n j).setNext j none).nextRec j) []
  rw [nextRec_setNext]
  simp [Linked]

theorem joinChain_of_absent (h : s.lookup n = none) (j : Nat) :
    s.joinChain n j = (s.dirInsert n j).setNext j none := by simp [State.joinChain, h]

theorem joinChain_of_found {i : Nat} (h : s.lookup n = some i) (j : Nat) :
    s.joinChain n j = s.writeChain n (s.placeInChain j ((s.chain n).filter (· != j))) := by simp [State.joinChain, h]

/-! ### A further record of a number (R17) -/

/-- A whole chain of live records is written anew with a further one, which is placed by its order. -/
theorem joinChain_chain {i : Nat} (hl : s.lookup n = some i) (hlen : (s.chain n).length < 8) (hj : j ∉ s.chain n)
    (hlive : ∀ i ∈ s.chain n, (s.cand i).isSome = true) (hc : (s.cand j).isSome = true) :
    (s.joinChain n j).chain n = s.placeInChain j (s.chain n) := by
  have hnodup := linked_nodup (linked_chain hlen)
  have hself : (s.chain n).filter (· != j) = s.chain n :=
    List.filter_eq_self.2 fun i hi => by simpa using fun e : i = j => hj (e ▸ hi)
  rw [joinChain_of_found hl, hself]
  have hmem : ∀ i ∈ s.placeInChain j (s.chain n), (s.cand i).isSome = true := fun i hi => by
    rcases mem_placeInChain.1 hi with rfl | hi
    · exact hc
    · exact hlive i hi
  refine chain_of_linked (writeChain_chain hl (nodup_placeInChain hnodup hj) hmem placeInChain_ne_nil).1 ?_
  obtain ⟨before, after, heq, hplace, -, -⟩ := placeInChain_split s j (s.chain n)
  rw [hplace]
  rw [heq] at hlen
  simp only [List.length_append, List.length_cons] at hlen ⊢
  omega

/-- A new record in a free slot leaves a whole chain as it is. -/
theorem chain_setCand (hfree : s.cand j = none) (hlen : (s.chain n).length < 8)
    (hlive : ∀ i ∈ s.chain n, (s.cand i).isSome = true) : (s.setCand j c).chain n = s.chain n := by
  refine chain_of_linked ((linked_congr fun i hi => ?_).2 (linked_chain hlen)) hlen.le
  have hne : i ≠ j := fun e => by
    have := hlive i hi
    simp [e, hfree] at this
  unfold State.nextRec
  rw [State.cand_setCand, if_neg hne]

/-! ### What an ENROL makes of the directory -/

/-- The directory, as the overlaps have been marked, is that in which the record was linked. -/
theorem enrolAt_links (hs : s.Stores) (hj : j < 1024) (hseat : c.currentSeat = none) :
    ((s.setCand j c).joinChain c.number j).SameLinks (s.enrolAt j c) :=
  (enrolAt_quiet s j c).links ((joinChain_relinked ..).stores (hs.setCand hj hseat))

/-- The first record of a number is linked by the directory alone. -/
theorem enrolAt_directory (hs : s.Stores) (hj : j < 1024) (hseat : c.currentSeat = none)
    (hl : s.lookup c.number = none) :
    (s.enrolAt j c).dirRoot = ((s.setCand j c).dirInsert c.number j).dirRoot ∧
      (s.enrolAt j c).dirPages = ((s.setCand j c).dirInsert c.number j).dirPages := by
  have hlinks := enrolAt_links hs hj hseat
  have honly := setNext_onlyRoll ((s.setCand j c).dirInsert c.number j) j none
  rw [joinChain_of_absent (show (s.setCand j c).lookup c.number = none from hl)] at hlinks
  exact ⟨hlinks.root.trans honly.chains.dirRoot, hlinks.pages.trans honly.dirPages⟩

/-- A number that is not found, but has room in the directory, is found once it has taken a slot. -/
theorem dirInsert_found (hl : s.lookup n = none) (hroom : s.directoryRoom n = true)
    (hpres : ∀ q ∈ s.bucketPages (n % 64), (tableFind s.dirPages q).isSome = true)
    (hlen : (s.bucketPages (n % 64)).length < 160) (j : Nat) : (s.dirInsert n j).lookup n = some j := by
  cases hf : s.freeDirSlot n with
  | some y => exact (dirInsert_free_place hl hf hpres j).2.2
  | none =>
    cases hp : s.poolPage with
    | some p => exact (dirInsert_pool_place hl hf hp hpres hlen j).2.2
    | none => simp [State.directoryRoom, hl, hf, hp] at hroom

/-- With the law of the directory, a bucket that must take a page from the pool has fewer than all of them. -/
theorem bucketPages_lt (ho : s.Ordered) (hs : s.Stores) (hp : s.poolPage = some p) (b : Nat) :
    (s.bucketPages b).length < 160 := by
  have hB := ho.bucketPages hs
  obtain ⟨hlt, hnone, -⟩ := poolPage_eq_some.1 hp
  have hsub : p :: s.bucketPages b ⊆ List.range 160 := by
    intro q hq
    rcases List.mem_cons.1 hq with rfl | hq
    · exact List.mem_range.2 hlt
    · obtain ⟨pg, hpg⟩ := Option.isSome_iff_exists.1 (hB.present hq)
      exact List.mem_range.2 (hs.pages.find hpg)
  have hnodup : (p :: s.bucketPages b).Nodup :=
    List.nodup_cons.2 ⟨fun hm => by simpa [hnone] using hB.present hm, hB.nodup b⟩
  have := (hnodup.subperm hsub).length_le
  simp at this
  omega

/-- Settles O23: the lookups read what R14 to R17 say, and ENROL links the new record where they say. -/
theorem enrolLinksTheDirectory : Obligations.EnrolLinksTheDirectory := by
  refine ⟨fun s b n => ⟨⟨head_bucketPages s b, length_bucketPages_le s b, fun before p after heq hlen => ?_⟩,
    fun p pg hp => by simp [slotsOf, hp], fun p x => dirPlace_eq_some, fun j => lookup_eq_some,
    ⟨head_chain s n, length_chain_le s n, fun before j after heq hlen => ?_⟩, fun j c hc => chainKey_of_cand hc,
    directoryRoom_iff s n, enrolled_iff s n, fun j => freeRollSlot_eq_some, enrolOpen_iff⟩,
    fun s n k a r f j h hstore hn hopen hnew hj hroom => ?_⟩
  · exact follow_split (bucketPages_eq s b ▸ heq) (by omega)
  · exact follow_split (chain_eq s n ▸ heq) (by omega)
  have hs := (storeLaw_iff s).1 hstore
  obtain ⟨hlt, hfree, -⟩ := freeRollSlot_eq_some.1 hj
  have hlinks : ((s.setCand j (newCandidate n k a r f)).joinChain n j).SameLinks
      (s.enrolAt j (newCandidate n k a r f)) := enrolAt_links hs hlt rfl
  have hexec := exec_okOrClamped (i := .enrol n k a r f) rfl h (enrol_accepted hn hopen hnew hj hroom)
    enrolmentClamped_iff
  refine ⟨_, _, _, hexec, ?_⟩
  refine ⟨fun hl hlen hpres => ?_, fun hl hlaw => ⟨?_, ?_⟩, fun hl hlen hlive => ?_⟩
  · have hfound := dirInsert_found (s := s.setCand j (newCandidate n k a r f)) hl hroom hpres hlen j
    obtain ⟨hlook, hchain⟩ := chain_first hfound
    rw [joinChain_of_absent (show (s.setCand j (newCandidate n k a r f)).lookup n = none from hl)] at hlinks
    exact ⟨(lookup_of_sameDirectory hlinks.root hlinks.pages n).trans hlook, (hlinks.chain n).trans hchain⟩
  · intro before p after x heq hb hp hx
    obtain ⟨hroot, hpages⟩ := enrolAt_directory (c := newCandidate n k a r f) hs hlt rfl hl
    have hB := ((directoryLaw_iff hs).1 hlaw).bucketPages hs
    obtain ⟨hbucket, hplace, -⟩ := dirInsert_free_place (s := s.setCand j (newCandidate n k a r f)) hl
      (freeDirSlot_eq_some.2 ⟨before, after, heq, hb, hp, hx⟩) (fun q hq => hB.present hq) j
    exact ⟨(dirPlace_of_sameDirectory hroot hpages n).trans hplace,
      (bucketPages_of_sameDirectory hroot hpages _).trans hbucket⟩
  · intro p hb hnone hlow hp
    obtain ⟨hroot, hpages⟩ := enrolAt_directory (c := newCandidate n k a r f) hs hlt rfl hl
    have ho := (directoryLaw_iff hs).1 hlaw
    have hpool : s.poolPage = some p := poolPage_eq_some.2 ⟨hp, hnone, hlow⟩
    have hlen : (s.bucketPages (n % 64)).length < 160 := bucketPages_lt ho hs hpool _
    obtain ⟨hbucket, hplace, -⟩ := dirInsert_pool_place (s := s.setCand j (newCandidate n k a r f)) hl
      (freeDirSlot_eq_none.2 hb) hpool (fun q hq => (ho.bucketPages hs).present hq) hlen j
    exact ⟨(dirPlace_of_sameDirectory hroot hpages n).trans hplace,
      (bucketPages_of_sameDirectory hroot hpages _).trans hbucket⟩
  · obtain ⟨i, hi⟩ := Option.ne_none_iff_exists'.1 hl
    have hsame : (s.setCand j (newCandidate n k a r f)).chain n = s.chain n := chain_setCand hfree hlen hlive
    have hnot : j ∉ s.chain n := fun hm => by
      have := hlive j hm
      simp [hfree] at this
    have hself : (s.setCand j (newCandidate n k a r f)).cand j = some (newCandidate n k a r f) := by
      simp [State.cand_setCand]
    have hkey : (s.setCand j (newCandidate n k a r f)).chainKey j = s.sittings[k].t0 * 8 + k := by
      rw [chainKey_of_cand hself]
      rfl
    have hkeys : ∀ i ∈ s.chain n, (s.setCand j (newCandidate n k a r f)).chainKey i = s.chainKey i := fun i hi => by
      unfold State.chainKey
      rw [State.cand_setCand, if_neg fun e : i = j => hnot (e ▸ hi)]
      rfl
    have hchain := joinChain_chain (s := s.setCand j (newCandidate n k a r f)) (n := n) (j := j) hi (hsame ▸ hlen)
      (hsame ▸ hnot) (fun i hi => by
        rw [State.cand_setCand]
        split
        · rfl
        · exact hlive i (hsame ▸ hi)) (by simp [hself])
    rw [hsame] at hchain
    obtain ⟨before, after, heq, hplace, hb, ha⟩ := placeInChain_split (s.setCand j (newCandidate n k a r f)) j (s.chain n)
    refine ⟨before, after, heq, ?_, fun i hi => ?_, fun i hi => ?_⟩
    · rw [hlinks.chain n, hchain, hplace]
    · rw [← hkey, ← hkeys i (heq ▸ List.mem_append_left _ hi)]
      exact hb i hi
    · rw [← hkey, ← hkeys i (heq ▸ List.mem_append_right _ (List.mem_of_head? hi))]
      exact ha i hi

end Sys2Proof.Machine
end

