-- ==== Sys2Proof/Proofs/Retirement.lean ====
section
/-! SUPPORT. RETIRE: what it answers, and what is left of the record, its scripts, its chain and its directory slot (R10,
R11, R18). -/

namespace Sys2Proof.Machine

variable {s t : State} {n k j p : Nat} {x : Fin 8} {c : Candidate} {B : Nat → List Nat}

/-! ### What RETIRE answers (R10) -/

theorem final_iff (st : CandState) : st.final = true ↔ st ∈ [CandState.cleared, .absent, .withdrawn] := by
  cases st <;> simp [CandState.final]

theorem mem_boundScripts {y : Nat × Script} : y ∈ s.boundScripts j ↔ y ∈ s.scripts ∧ y.2.slot = j := by
  simp [State.boundScripts]

theorem custodyOpen_iff (y : Script) :
    y.custodyOpen = true ↔ y.state ∈ [ScriptState.issued, .submitted, .collected] := by
  simp [Script.custodyOpen, or_assoc]

/-- Some script of a record is in one of the states that a test names. -/
theorem any_boundScripts {q : Nat × Script → Bool} :
    (s.boundScripts j).any q = true ↔ ∃ y ∈ s.scripts, y.2.slot = j ∧ q y = true := by
  rw [List.any_eq_true]
  simp only [mem_boundScripts, and_assoc]

theorem retire_notFinal (hres : s.resolve n k = .ok (j, c)) (hc : c.state ∉ [CandState.cleared, .absent, .withdrawn]) :
    retire n k s = refuse .state s := by
  have : c.state.final = false := by rwa [← Bool.not_eq_true, final_iff]
  simp [retire, hres, this]

theorem retire_busy (hres : s.resolve n k = .ok (j, c)) (hc : c.state ∈ [CandState.cleared, .absent, .withdrawn])
    (hm : ∃ y ∈ s.scripts, y.2.slot = j ∧ y.2.state = .marking) : retire n k s = refuse .busy s := by
  have hfinal := (final_iff _).2 hc
  have hbusy : (s.boundScripts j).any (fun x => x.2.state == .marking) = true :=
    any_boundScripts.2 (by simpa using hm)
  simp only [retire, hres, hfinal, hbusy]
  rfl

theorem notMarking (hm : ∀ y ∈ s.scripts, y.2.slot = j → y.2.state ≠ .marking) :
    (s.boundScripts j).any (fun x => x.2.state == .marking) = false := by
  rw [← Bool.not_eq_true, any_boundScripts]
  rintro ⟨y, hy, hslot, hst⟩
  exact hm y hy hslot (by simpa using hst)

theorem retire_custodyOpen (hres : s.resolve n k = .ok (j, c)) (hc : c.state ∈ [CandState.cleared, .absent, .withdrawn])
    (hm : ∀ y ∈ s.scripts, y.2.slot = j → y.2.state ≠ .marking)
    (ho : ∃ y ∈ s.scripts, y.2.slot = j ∧ y.2.state ∈ [ScriptState.issued, .submitted, .collected]) :
    retire n k s = refuse .custodyOpen s := by
  have hfinal := (final_iff _).2 hc
  have hbusy := notMarking hm
  have hopen : (s.boundScripts j).any (fun x => x.2.custodyOpen) = true :=
    any_boundScripts.2 (by simpa only [custodyOpen_iff] using ho)
  simp only [retire, hres, hfinal, hbusy, hopen]
  rfl

/-- RETIRE of a record in a final state whose scripts are all done with. -/
theorem retire_accepted (hres : s.resolve n k = .ok (j, c)) (hc : c.state ∈ [CandState.cleared, .absent, .withdrawn])
    (hy : ∀ y ∈ s.scripts, y.2.slot = j → y.2.state ∈ [ScriptState.marked, .handed, .voided]) :
    retire n k s = okWith (be1 (s.boundScripts j).length) (s.retireRecord j c) := by
  have hfinal := (final_iff _).2 hc
  have hbusy := notMarking fun y hm hslot hst => by
    have := hy y hm hslot
    simp [hst] at this
  have hopen : (s.boundScripts j).any (fun x => x.2.custodyOpen) = false := by
    rw [← Bool.not_eq_true, any_boundScripts]
    rintro ⟨y, hm, hslot, hst⟩
    rw [custodyOpen_iff] at hst
    have := hy y hm hslot
    simp only [List.mem_cons, List.not_mem_nil, or_false] at this hst
    rcases this with e | e | e <;> simp [e] at hst
  simp only [retire, hres, hfinal, hbusy, hopen]
  rfl

/-! ### What is left of the records (R11) -/

/-- A state without the scripts of a record. -/
def State.withoutScripts (s : State) (j : Nat) : State := { s with scripts := s.scripts.filter (fun x => x.2.slot != j) }

theorem retireRecord_eq (s : State) (j : Nat) (c : Candidate) :
    s.retireRecord j c = ((s.withoutScripts j).leaveChain c.number j).eraseCand j := rfl

theorem retireRecord_frame (s : State) (j : Nat) (c : Candidate) : s.retireRecord j c =
    { s with roll := (s.retireRecord j c).roll, dirRoot := (s.retireRecord j c).dirRoot,
             dirPages := (s.retireRecord j c).dirPages, scripts := (s.retireRecord j c).scripts } := by
  have h := (leaveChain_relinked (s.withoutScripts j) c.number j).frame
  rw [retireRecord_eq, h]
  rfl

/-- The scripts of the record are gone, and the others stand. -/
theorem script_retireRecord (hs : s.Stores) (j : Nat) (c : Candidate) (d : Nat) (y : Script) :
    (s.retireRecord j c).script d = some y ↔ s.script d = some y ∧ y.slot ≠ j := by
  have hscripts : (s.retireRecord j c).scripts = s.scripts.filter (fun x => x.2.slot != j) :=
    (leaveChain_relinked (s.withoutScripts j) c.number j).scripts
  unfold State.script
  rw [hscripts, tableFind_iff_mem (tableSorted_filter _ _ hs.scripts.1.1), tableFind_iff_mem hs.scripts.1.1]
  simp

/-- The record is gone, and the others keep all but their next records. -/
theorem cand_retireRecord (hs : s.Stores) (j : Nat) (c : Candidate) : (s.retireRecord j c).cand j = none ∧
    ∀ i, i ≠ j → ((s.retireRecord j c).cand i).map Candidate.unchained = (s.cand i).map Candidate.unchained := by
  have hrel := leaveChain_relinked (s.withoutScripts j) c.number j
  have herase := cand_eraseCand (hrel.stores (hs.filterScripts _)) j
  refine ⟨by rw [retireRecord_eq, herase, if_pos rfl], fun i hi => ?_⟩
  rw [retireRecord_eq, herase, if_neg hi]
  exact hrel.cands i

/-- A number with further records keeps its chain without the record that is retired (R18). -/
theorem chain_retireRecord (hs : s.Stores) {i : Nat} (hl : s.lookup c.number = some i) (hnodup : (s.chain c.number).Nodup)
    (hlive : ∀ i ∈ s.chain c.number, (s.cand i).isSome = true) (hne : (s.chain c.number).filter (· != j) ≠ []) :
    (s.retireRecord j c).chain c.number = (s.chain c.number).filter (· != j) := by
  have hleave : (s.withoutScripts j).leaveChain c.number j =
      (s.withoutScripts j).writeChain c.number ((s.chain c.number).filter (· != j)) := by
    unfold State.leaveChain
    split
    · next h => exact absurd h hne
    · next h => exact congrArg _ h.symm
  have hs1 := (leaveChain_relinked (s.withoutScripts j) c.number j).stores (hs.filterScripts _)
  have hwrite := (writeChain_chain (s := s.withoutScripts j) hl (hnodup.filter _)
    (fun i hi => hlive i (List.mem_filter.1 hi).1) hne).1
  rw [← hleave] at hwrite
  refine chain_of_linked ((linked_congr fun i hi => ?_).2 hwrite)
    ((List.length_filter_le ..).trans (length_chain_le s c.number))
  have hij : i ≠ j := by simpa using (List.mem_filter.1 hi).2
  unfold State.nextRec
  rw [retireRecord_eq, cand_eraseCand hs1, if_neg hij]

/-! ### What is left of the directory (R18) -/

/-- Two pages with the same slots. -/
theorem slotsOf_ext {pages : Table Page} {p : Nat} {v : Vector (Option DirSlot) 8}
    (h : ∀ x : Fin 8, slotAt pages p x = v[x]) : slotsOf pages p = v :=
  Vector.ext fun i hi => h ⟨i, hi⟩

theorem withoutPage_of_not_mem {b : Nat} (h : p ∉ B b) : withoutPage B p b = B b :=
  List.filter_eq_self.2 fun q hq => by simpa using fun e : q = p => h (e ▸ hq)

/-- With a number's last record its slot becomes free, and a page without a used slot leaves its bucket (R18). -/
theorem dirRemove_directory (ho : s.Ordered) (hs : s.Stores) {i : Nat} (hl : s.lookup n = some i)
    (hp : s.dirPlace n = some (p, x)) :
    (s.dirRemove n).lookup n = none ∧ (∀ n', n' ≠ n → (s.dirRemove n).lookup n' = s.lookup n') ∧
    (∀ b, b ≠ n % 64 → (s.dirRemove n).bucketPages b = s.bucketPages b) ∧
    (∀ q, q ≠ p → slotsOf (s.dirRemove n).dirPages q = slotsOf s.dirPages q) ∧
    ((∃ y : Fin 8, y ≠ x ∧ slotAt s.dirPages p y ≠ none) →
      slotsOf (s.dirRemove n).dirPages p = (slotsOf s.dirPages p).set x none ∧
      (s.dirRemove n).bucketPages (n % 64) = s.bucketPages (n % 64)) ∧
    ((∀ y : Fin 8, y ≠ x → slotAt s.dirPages p y = none) →
      tableFind (s.dirRemove n).dirPages p = none ∧
      (s.dirRemove n).bucketPages (n % 64) = (s.bucketPages (n % 64)).filter (· != p) ∧
      tableFind (s.dirRemove n).dirRoot (n % 64) = ((s.bucketPages (n % 64)).filter (· != p)).head?) := by
  have hB := ho.bucketPages hs
  have ht := (dirRemove_relinked s n).stores hs
  obtain ⟨-, -, -, hlook⟩ := dirRemove_spec hB hs ho.pages hl
  obtain ⟨hslot, hcases⟩ := dirRemove_cases hB hs hl hp
  have hother : ∀ b, b ≠ n % 64 → p ∉ s.bucketPages b := by
    intro b hb hpb
    obtain ⟨j, hj⟩ := (hB.dirPlace_iff hs).1 hp
    exact hb (hB.apart _ _ p hpb (hB.mem_of_slot hj))
  refine ⟨by rw [hlook, if_pos rfl], fun n' hn' => by rw [hlook, if_neg hn'], fun b hb => ?_, fun q hq => ?_,
    fun hused => ⟨?_, ?_⟩, fun hempty => ?_⟩
  · rcases hcases with ⟨-, hB', -⟩ | ⟨-, hB', -⟩
    · exact hB'.bucketPages ht b
    · rw [hB'.bucketPages ht b, withoutPage_of_not_mem (hother b hb)]
  · refine slotsOf_ext fun y => ?_
    rw [hslot, if_neg fun e => hq e.1]
    rfl
  · refine slotsOf_ext fun y => ?_
    rw [hslot]
    by_cases hy : y = x
    · subst hy
      simp
    · have : x.val ≠ y.val := fun e => hy (Fin.ext e.symm)
      simp [hy, this, slotAt]
  · rcases hcases with ⟨-, hB', -⟩ | ⟨hempty, -⟩
    · exact hB'.bucketPages ht _
    · obtain ⟨y, hy, hne⟩ := hused
      exact absurd (hempty y hy) hne
  · rcases hcases with ⟨⟨y, hy, hne⟩, -⟩ | ⟨-, hB', hpres⟩
    · exact absurd (hempty y hy) hne
    · have hpages := hB'.bucketPages ht (n % 64)
      refine ⟨?_, hpages, ?_⟩
      · have := hpres p
        simpa using this
      · rw [← head_bucketPages, hpages]
        rfl

/-- Settles O26: RETIRE takes the record's scripts, its link and its slot, or is refused and changes nothing. -/
theorem retireRemovesTheRecord : Obligations.RetireRemovesTheRecord := by
  refine ⟨fun s n k j c h hstore hres hn hc hy => ?_, fun s n k j c i h hres hi => ?_,
    fun s n k j p x c left h hstore hlaw hres hc hy hchain hplace hleft => ?_⟩
  · subst hn
    have hs := (storeLaw_iff s).1 hstore
    obtain ⟨hgone, hothers⟩ := cand_retireRecord hs j c
    refine ⟨_, exec_ok rfl h (retire_accepted hres hc hy), retireRecord_frame s j c, hgone,
      script_retireRecord hs j c, hothers, fun hnodup hlive hne => ?_⟩
    obtain ⟨-, -, hj, -⟩ := State.resolve_ok hres
    obtain ⟨i, hi⟩ : ∃ i, s.lookup c.number = some i := by
      refine Option.ne_none_iff_exists'.1 fun e => ?_
      rw [chain_eq, e] at hj
      simp [follow] at hj
    exact chain_retireRecord hs hi hnodup hlive hne
  · subst hi
    exact ⟨fun hc => exec_refused rfl h (retire_notFinal hres hc),
      fun hc => ⟨fun hm => exec_refused rfl h (retire_busy hres hc hm),
        fun hm ho => exec_refused rfl h (retire_custodyOpen hres hc hm ho)⟩⟩
  · have hs := (storeLaw_iff s).1 hstore
    have ho := (directoryLaw_iff hs).1 hlaw
    obtain ⟨-, -, hj, hcand⟩ := State.resolve_ok hres
    have hn : c.number = n := by
      obtain ⟨d, hd, hdn⟩ := ((ho.chain n).1.exact j).1 hj
      rw [← hdn, Option.some.inj (hd.symm.trans hcand)]
    subst hn
    have hl : s.lookup c.number = some j := by rw [← head_chain, hchain]; rfl
    have hleave : (s.withoutScripts j).leaveChain c.number j = (s.withoutScripts j).dirRemove c.number := by
      have hnil : ((s.withoutScripts j).chain c.number).filter (· != j) = [] := by
        rw [show (s.withoutScripts j).chain c.number = [j] from hchain]
        simp
      unfold State.leaveChain
      rw [hnil]
    have ho0 : (s.withoutScripts j).Ordered := ho.congr rfl rfl (fun _ => rfl) fun _ _ => rfl
    have hdir := dirRemove_directory ho0 (hs.filterScripts _) hl hplace
    refine ⟨_, exec_ok rfl h (retire_accepted hres hc hy), ?_⟩
    subst hleft
    rw [retireRecord_eq, hleave]
    exact hdir

end Sys2Proof.Machine
end

