-- ==== Sys2Proof/Proofs/Timetable.lean ====
section
/-! SUPPORT. SCHEDULE: what it answers (R24), what it writes and whose CLASH it sets (R19, R25), and where the sitting's
records stand in their chains (R17, R19). -/

namespace Sys2Proof.Machine

variable {s t : State} {n j i : Nat} {k : Fin 8} {c d : Candidate}

/-! ### The operands of SCHEDULE (R24, R172) -/

theorem roomOf_eq_some {n : Nat} {m : Fin 4} : roomOf n = some m ↔ m.val = n := by
  unfold roomOf
  split
  · next h => rw [Option.some.injEq, Fin.ext_iff]; exact eq_comm
  · next h => simp only [reduceCtorEq, false_iff]; exact fun e => h (e ▸ m.2)

/-- A list of rooms is that of the numbers that name them. -/
theorem mapM_roomOf {l : List Nat} {rooms : List (Fin 4)} :
    l.mapM roomOf = some rooms ↔ rooms.map (fun m : Fin 4 => m.val) = l := by
  induction l generalizing rooms with
  | nil => simp
  | cons a l ih =>
    rw [List.mapM_cons]
    cases ha : roomOf a with
    | none =>
      simp only [Option.bind_eq_bind, Option.bind_none, reduceCtorEq, false_iff]
      intro h
      cases rooms with
      | nil => simp at h
      | cons m rooms =>
        have : roomOf a = some m := roomOf_eq_some.2 (List.cons.inj h).1
        simp [ha] at this
    | some m =>
      cases rooms with
      | nil => simp [Option.bind_eq_some_iff]
      | cons m' rooms =>
        simp [Option.bind_eq_some_iff, ih, ← roomOf_eq_some, ha, and_comm]

theorem roomListOf_eq_some {list : RoomListArg} {rooms : List (Fin 4)} : roomListOf list = some rooms ↔
    1 ≤ list.count ∧ list.count ≤ 4 ∧ rooms.Nodup ∧
      rooms.map (fun (m : Fin 4) => m.val) = [list.r0, list.r1, list.r2, list.r3].take list.count := by
  unfold roomListOf
  rw [← mapM_roomOf]
  cases hm : ([list.r0, list.r1, list.r2, list.r3].take list.count).mapM roomOf with
  | none => simp
  | some rooms' =>
    simp only [Option.ite_none_right_eq_some, Option.some.injEq]
    constructor
    · rintro ⟨⟨h1, h2, h3⟩, rfl⟩
      exact ⟨h1, h2, h3, rfl⟩
    · rintro ⟨h1, h2, h3, rfl⟩
      exact ⟨⟨h1, h2, h3⟩, rfl⟩

/-- A room list names rooms where its count is 1 to 4 and each number it names is a room, named once. -/
theorem roomListOf_isSome {list : RoomListArg} {named : List Nat}
    (hn : named = [list.r0, list.r1, list.r2, list.r3].take list.count) : (∃ rooms, roomListOf list = some rooms) ↔
      1 ≤ list.count ∧ list.count ≤ 4 ∧ (∀ r ∈ named, r < 4) ∧ named.Nodup := by
  have hinj : Function.Injective (fun m : Fin 4 => m.val) := fun _ _ h => Fin.ext h
  simp only [roomListOf_eq_some, ← hn]
  constructor
  · rintro ⟨rooms, h1, h2, h3, rfl⟩
    refine ⟨h1, h2, fun r hr => ?_, h3.map hinj⟩
    obtain ⟨m, -, rfl⟩ := List.mem_map.1 hr
    exact m.2
  · rintro ⟨h1, h2, h3, h4⟩
    obtain ⟨rooms, hrooms⟩ : ∃ rooms : List (Fin 4), rooms.map (fun m : Fin 4 => m.val) = named :=
      ⟨named.attach.map fun r => ⟨r.1, h3 r.1 r.2⟩, by simp [Function.comp_def]⟩
    exact ⟨rooms, h1, h2, List.Nodup.of_map _ (hrooms ▸ h4), hrooms⟩

theorem timetableInRange_iff (t : TimetableArg) : timetableInRange t = true ↔ t.t0 ≤ 86399 ∧ t.r ≤ 1800 ∧ 600 ≤ t.w ∧
    t.w ≤ 21600 ∧ t.l ≤ t.w ∧ t.l ≤ 3600 ∧ t.aw ≤ 3600 ∧ t.e1 ≤ 3600 ∧ t.e2 ≤ 3600 ∧ t.v ≤ 3600 := by
  simp only [timetableInRange, Bool.and_eq_true, decide_eq_true_eq, and_assoc]
  rfl

/-- SCHEDULE of a sitting that has started is refused with STATE. -/
theorem schedule_started {t : TimetableArg} {list : RoomListArg}
    (hk : s.sittings[k].state ∉ [SittingState.unscheduled, .scheduled]) : schedule k t list s = refuse .state s := by
  unfold schedule
  rw [sittingOf_val]
  cases hstate : s.sittings[k].state <;> simp_all

/-- The operands of a SCHEDULE that are in their ranges (R24, check 3). -/
def scheduleGood (t : TimetableArg) (list : RoomListArg) (rooms : List (Fin 4)) : Prop :=
  roomListOf list = some rooms ∧ timetableInRange t = true ∧ t.t0 + t.r + t.w ≤ 86399

theorem schedule_eq {t : TimetableArg} {list : RoomListArg}
    (hk : s.sittings[k].state ∈ [SittingState.unscheduled, .scheduled]) : schedule k t list s =
      match roomListOf list with
      | none => refuse .range s
      | some rooms =>
          if !timetableInRange t then refuse .range s
          else if Config.lastSecond < t.t0 + t.r + t.w then refuse .range s
          else if t.t0 ≤ s.hallTime then refuse .past s
          else
            okWith (be1 (scheduled t rooms s.hallTime).state.code ++ openingBytes (scheduled t rooms s.hallTime))
              ((s.setSitting k (scheduled t rooms s.hallTime)).rescheduleRecords k s.sittings[k]) := by
  unfold schedule
  rw [sittingOf_val]
  simp only [List.mem_cons, List.not_mem_nil, or_false] at hk
  rcases hk with hk | hk <;> simp only [hk] <;> rfl

theorem schedule_range {t : TimetableArg} {list : RoomListArg}
    (hk : s.sittings[k].state ∈ [SittingState.unscheduled, .scheduled]) (hbad : ∀ rooms, ¬ scheduleGood t list rooms) :
    schedule k t list s = refuse .range s := by
  rw [schedule_eq hk]
  split
  · rfl
  · next rooms hrooms =>
    split
    · rfl
    · next htime =>
      split
      · rfl
      · next hlast =>
        exact absurd ⟨hrooms, by simpa using htime, Nat.not_lt.1 hlast⟩ (hbad rooms)

theorem schedule_good {t : TimetableArg} {list : RoomListArg} {rooms : List (Fin 4)}
    (hk : s.sittings[k].state ∈ [SittingState.unscheduled, .scheduled]) (hgood : scheduleGood t list rooms) :
    schedule k t list s = if t.t0 ≤ s.hallTime then refuse .past s
      else okWith (be1 (scheduled t rooms s.hallTime).state.code ++ openingBytes (scheduled t rooms s.hallTime))
        ((s.setSitting k (scheduled t rooms s.hallTime)).rescheduleRecords k s.sittings[k]) := by
  obtain ⟨hrooms, htime, hlast⟩ := hgood
  have hlast' : ¬ Config.lastSecond < t.t0 + t.r + t.w := Nat.not_lt.2 hlast
  rw [schedule_eq hk, hrooms]
  simp only [htime, Bool.not_true, Bool.false_eq_true, if_false, hlast']

/-! ### The records of the sitting (R19) -/

theorem takeInTurn_onlyChains {ι : Type} (is : List ι) (f : ι → State → State)
    (h : ∀ (i : ι) (s : State), s.OnlyChains (f i s)) (s : State) : s.OnlyChains (takeInTurn is f s) :=
  takeInTurn_invariant (fun t => s.OnlyChains t) is f (fun i t ht => ht.trans (h i t)) s rfl

theorem reordered_onlyChains (s : State) (k : Fin 8) (old : Sitting) : s.OnlyChains (s.reordered k old) := by
  unfold State.reordered
  split
  · rfl
  · refine takeInTurn_onlyChains _ _ (fun j s => ?_) s
    unfold reorderRecord
    split
    · exact writeChain_onlyChains ..
    · rfl

/-- The overlaps of the records of one sitting, as their marking marks them: pairs of which one is of the sitting. -/
theorem marks_of_sitting (hc : s.cand i = some c) :
    (∃ j, (∃ d, s.cand j = some d ∧ d.sitting = k) ∧ s.Marks j i) ↔
      ∃ i' d, i' ≠ i ∧ s.cand i' = some d ∧ d.number = c.number ∧ (c.sitting = k ∨ d.sitting = k) ∧
        s.sittings[c.sitting].overlaps s.sittings[d.sitting] = true := by
  constructor
  · rintro ⟨j, ⟨d, hd, hk⟩, hclash | ⟨rfl, i', hclash⟩⟩
    · obtain ⟨hne, d', hd', hn, ho⟩ := (clash_iff hc).1 hclash.symm
      obtain rfl := Option.some.inj (hd.symm.trans hd')
      exact ⟨j, d, hne, hd, hn, .inr hk, ho⟩
    · obtain ⟨hne, d', hd', hn, ho⟩ := (clash_iff hc).1 hclash
      obtain rfl := Option.some.inj (hc.symm.trans hd)
      exact ⟨i', d', hne, hd', hn, .inl hk, ho⟩
  · rintro ⟨i', d, hne, hd, hn, hk, ho⟩
    have hclash : s.Clash i i' := (clash_iff hc).2 ⟨hne, d, hd, hn, ho⟩
    rcases hk with hk | hk
    · exact ⟨i, ⟨c, hc, hk⟩, .inr ⟨rfl, i', hclash⟩⟩
    · exact ⟨i', ⟨d, hd, hk⟩, .inl hclash.symm⟩

/-- Overlaps are tested where T0, R or W changed (R19, step 2). -/
theorem clashTested_flagged (hs : s.Stores) (k : Fin 8) (old new : Sitting) :
    s.Flagged (s.clashTested k old new) (fun i => ¬ (old.t0 = new.t0 ∧ old.r = new.r ∧ old.w = new.w) ∧
      ∃ j, (∃ d, s.cand j = some d ∧ d.sitting = k) ∧ s.Marks j i) := by
  unfold State.clashTested
  split
  · next h => exact (State.Flagged.refl s).congr fun i => by simp [h]
  · next h => exact (markAllClashes_flagged hs _).congr fun i => by simp [h, mem_recordsOf hs]

/-- Without live records of the sitting only its own record changes. -/
theorem rescheduleRecords_of_empty (h : s.recordsOf k = []) (old : Sitting) : s.rescheduleRecords k old = s := by
  have hr : s.reordered k old = s := by
    unfold State.reordered
    rw [h]
    split <;> rfl
  have hm : s.clashTested k old s.sittings[k] = s := by
    unfold State.clashTested
    rw [h]
    split <;> rfl
  rw [rescheduleRecords_eq, hr, hm, if_neg (lt_irrefl _)]

/-! ### What SCHEDULE makes of the records -/

/-- The state as the sitting's new record is written and its records have been put back and tested, before the cause. -/
def State.rescheduleTested (s : State) (k : Fin 8) (new : Sitting) : State :=
  ((s.setSitting k new).reordered k s.sittings[k]).clashTested k s.sittings[k] new

theorem setSitting_self (s : State) (k : Fin 8) (g : Sitting) : (s.setSitting k g).sittings[k] = g := by
  simp [State.setSitting]

theorem rescheduleRecords_frame (s : State) (k : Fin 8) (new : Sitting) :
    (s.setSitting k new).rescheduleRecords k s.sittings[k] =
      { s.rescheduleTested k new with attention :=
          if s.clashCount < (s.rescheduleTested k new).clashCount then
            ((s.rescheduleTested k new).raise .admission).attention
          else (s.rescheduleTested k new).attention } := by
  rw [rescheduleRecords_eq, setSitting_self]
  show (if s.clashCount < (s.rescheduleTested k new).clashCount then _ else _) = _
  split <;> rfl

theorem rescheduleTested_flagged (hs : s.Stores) (k : Fin 8) (new : Sitting) :
    ((s.setSitting k new).reordered k s.sittings[k]).Flagged (s.rescheduleTested k new)
      (fun i => ¬ (s.sittings[k].t0 = new.t0 ∧ s.sittings[k].r = new.r ∧ s.sittings[k].w = new.w) ∧
        ∃ j, (∃ d, s.cand j = some d ∧ d.sitting = k) ∧ (s.setSitting k new).Marks j i) := by
  have hrel := reordered_relinked (s.setSitting k new) k s.sittings[k]
  refine (clashTested_flagged (hrel.stores (hs.setSitting k new)) k _ new).congr fun i => and_congr Iff.rfl ?_
  refine exists_congr fun j => and_congr ⟨?_, ?_⟩ hrel.sameNames.marks_iff
  · rintro ⟨d, hd, hk⟩
    obtain ⟨c, hc, -, hck, -⟩ := hrel.symm_cands hd
    exact ⟨c, hc, hck ▸ hk⟩
  · rintro ⟨c, hc, hk⟩
    obtain ⟨o, ho⟩ := hrel.cand (show (s.setSitting k new).cand j = some c from hc)
    exact ⟨_, ho, hk⟩

theorem rescheduleTested_frame (hs : s.Stores) (k : Fin 8) (new : Sitting) : s.rescheduleTested k new =
    { s with sittings := s.sittings.set k new, roll := (s.rescheduleTested k new).roll,
             dirPages := (s.rescheduleTested k new).dirPages } := by
  have h := (reordered_onlyChains (s.setSitting k new) k s.sittings[k]).trans
    (rescheduleTested_flagged hs k new).frame.chains
  exact h

/-- Each record keeps all but its links, and its CLASH flag is set where it overlaps with one of the sitting and the
sitting's interval changed (R19). -/
theorem cand_rescheduleTested (hs : s.Stores) (new : Sitting) (hd : s.cand i = some d) :
    ∃ d', (s.rescheduleTested k new).cand i = some d' ∧ d'.unlinked = d.unlinked ∧
      (d'.flags.clash = true ↔ d.flags.clash = true ∨
        (¬ (s.sittings[k].t0 = new.t0 ∧ s.sittings[k].r = new.r ∧ s.sittings[k].w = new.w) ∧
          ∃ i' d'', i' ≠ i ∧ s.cand i' = some d'' ∧ d''.number = d.number ∧ (d.sitting = k ∨ d''.sitting = k) ∧
            (s.setSitting k new).sittings[d.sitting].overlaps (s.setSitting k new).sittings[d''.sitting] = true)) := by
  obtain ⟨o, ho⟩ := (reordered_relinked (s.setSitting k new) k s.sittings[k]).cand
    (show (s.setSitting k new).cand i = some d from hd)
  obtain ⟨b, hb, hiff⟩ := (rescheduleTested_flagged hs k new).some i _ ho
  refine ⟨_, hb, rfl, ?_⟩
  show b = true ↔ _
  rw [hiff]
  exact or_congr Iff.rfl (and_congr Iff.rfl
    (marks_of_sitting (s := s.setSitting k new) (show (s.setSitting k new).cand i = some d from hd)))

theorem cand_none_rescheduleTested (hs : s.Stores) (k : Fin 8) (new : Sitting) (hi : s.cand i = none) :
    (s.rescheduleTested k new).cand i = none :=
  (rescheduleTested_flagged hs k new).none i
    (((reordered_relinked (s.setSitting k new) k s.sittings[k]).cand_eq_none i).2 hi)

/-! ### The chains (R17, R19) -/

/-- Two lists that rise in one order and have the same members are the same. -/
theorem rising_ext {l l' : List Nat} (h : s.Rising l) (h' : s.Rising l') (hmem : ∀ i, i ∈ l ↔ i ∈ l') : l = l' := by
  have nodup : ∀ {l}, s.Rising l → l.Nodup := fun h => List.Pairwise.imp (fun hab e => by simp [e] at hab) h
  exact List.Perm.eq_of_pairwise (fun a b _ _ hab hba => absurd hab (lt_asymm hba)) h h'
    ((List.perm_ext_iff_of_nodup (nodup h) (nodup h')).2 hmem)

/-- What a change of one sitting's T0 makes of the chains: the live records stay, and the order of those of other sittings
is as before. -/
structure State.Rescheduled (s t : State) (k : Fin 8) : Prop where
  before : s.Ordered
  after : t.Ordered
  names : ∀ i, (t.cand i).map (fun c => (c.number, c.sitting)) = (s.cand i).map (fun c => (c.number, c.sitting))
  keys : ∀ i c, s.cand i = some c → c.sitting ≠ k → t.chainKey i = s.chainKey i

namespace State.Rescheduled

theorem mem_chain (h : s.Rescheduled t k) (n i : Nat) : i ∈ t.chain n ↔ i ∈ s.chain n := by
  rw [(h.after.chain n).1.exact, (h.before.chain n).1.exact]
  have key : ∀ o : Option Candidate, (∃ c, o = some c ∧ c.number = n) ↔
      ∃ y, o.map (fun c => (c.number, c.sitting)) = some y ∧ y.1 = n := by
    rintro (_ | c) <;> simp
  rw [key, key, h.names]

/-- The chain of a number without a record of the sitting is as it was. -/
theorem chain_of_other (h : s.Rescheduled t k) (hno : ∀ j d, s.cand j = some d → d.number = n → d.sitting ≠ k) :
    t.chain n = s.chain n := by
  refine rising_ext (h.after.chain n).2 (rising_congr (fun i hi => ?_) (h.before.chain n).2) (h.mem_chain n)
  obtain ⟨c, hc, hn⟩ := ((h.before.chain n).1.exact i).1 hi
  exact h.keys i c hc (hno i c hc hn)

/-- A record of the sitting stands where its new order puts it, and the other records of its number keep their order. -/
theorem chain_of_record (h : s.Rescheduled t k) (hd : s.cand j = some d) (hn : d.number = n) (hk : d.sitting = k) :
    ∃ before after, (s.chain n).filter (· != j) = before ++ after ∧ t.chain n = before ++ j :: after ∧
      (∀ i ∈ before, t.chainKey i < t.chainKey j) ∧ ∀ i ∈ after, t.chainKey j < t.chainKey i := by
  have hj : j ∈ t.chain n := (h.mem_chain n j).2 (((h.before.chain n).1.exact j).2 ⟨d, hd, hn⟩)
  obtain ⟨before, after, heq⟩ := List.append_of_mem hj
  have hrise : t.Rising (before ++ j :: after) := heq ▸ (h.after.chain n).2
  have hnodup : (before ++ j :: after).Nodup := heq ▸ (h.after.chain n).1.nodup
  have hwithout : (t.chain n).filter (· != j) = before ++ after := by rw [heq, filter_ne_of_nodup hnodup]
  obtain ⟨-, hra, hba⟩ := List.pairwise_append.1 hrise
  refine ⟨before, after, ?_, heq, fun i hi => hba i hi j List.mem_cons_self, (List.pairwise_cons.1 hra).1⟩
  rw [← hwithout]
  refine rising_ext (s := t) (rising_congr (fun i hi => ?_) ((h.before.chain n).2.filter _))
    ((h.after.chain n).2.filter _) fun i => by simp [List.mem_filter, h.mem_chain]
  obtain ⟨hi, hij⟩ := List.mem_filter.1 hi
  obtain ⟨c, hc, hcn⟩ := ((h.before.chain n).1.exact i).1 hi
  refine h.keys i c hc fun e => ?_
  have : i = j := h.before.single i j c d hc hd (hcn.trans hn.symm) (e.trans hk.symm)
  simp [this] at hij

end State.Rescheduled

/-- A new timetable puts the sitting's records back into their chains. -/
theorem rescheduleRecords_rescheduled (ho : s.Ordered) (hs : s.Stores) (k : Fin 8) (new : Sitting) :
    s.Rescheduled ((s.setSitting k new).rescheduleRecords k s.sittings[k]) k := by
  have hrel := reordered_relinked (s.setSitting k new) k s.sittings[k]
  have hlinks := (rescheduleRecords_quiet (s.setSitting k new) k s.sittings[k]).links (hrel.stores (hs.setSitting k new))
  refine ⟨ho, hlinks.ordered (reordered_ordered ho hs k new), fun i => ?_, fun i c hc hk => ?_⟩
  · have h := congrArg (Option.map fun x : Nat × Fin 8 × Option Nat => (x.1, x.2.1)) (hlinks.cand_links i)
    simp only [Option.map_map, Function.comp_def, Candidate.links] at h
    exact h.trans (hrel.sameNames.cands i)
  · rw [hlinks.chainKey, hrel.chainKey, chainKey_setSitting s new hc hk]

/-- Settles O28: SCHEDULE writes the record, puts the sitting's records back and marks their overlaps, or is refused and
changes nothing. -/
theorem scheduleWritesTheTimetable : Obligations.ScheduleWritesTheTimetable := by
  refine ⟨fun s => by simp [State.clashCount, State.slotsWhere], fun g hg => by simp [openingBytes, hg],
    fun list rooms => roomListOf_eq_some, ?_, ?_⟩
  · intro s k t list rooms new h hstore hk hrooms h1 h2 h3 h4 h5 h6 h7 h8 h9 h10 hlast hpast hnew
    have hs := (storeLaw_iff s).1 hstore
    have hexec := schedule_good hk
      ⟨hrooms, (timetableInRange_iff t).2 ⟨h1, h2, h3, h4, h5, h6, h7, h8, h9, h10⟩, hlast⟩
    rw [if_neg (Nat.not_le.2 hpast), show scheduled t rooms s.hallTime = new from hnew.symm] at hexec
    have ht0 : new.t0 = t.t0 ∧ new.r = t.r ∧ new.w = t.w := by rw [hnew]; exact ⟨rfl, rfl, rfl⟩
    obtain ⟨ht0, hr, hw⟩ := ht0
    clear hnew
    have hframe := rescheduleRecords_frame s k new
    have hcount : ((s.setSitting k new).rescheduleRecords k s.sittings[k]).clashCount =
        (s.rescheduleTested k new).clashCount := by rw [hframe]; rfl
    have hcand : ∀ i, ((s.setSitting k new).rescheduleRecords k s.sittings[k]).cand i =
        (s.rescheduleTested k new).cand i := fun i => by rw [hframe]; rfl
    have hsit : ((s.setSitting k new).rescheduleRecords k s.sittings[k]).sittings = (s.setSitting k new).sittings := by
      rw [hframe, rescheduleTested_frame hs k new]
      rfl
    refine ⟨fun hempty => ?_, _, exec_ok rfl h hexec, ?_, ?_, fun i hi => ?_, fun i d hd => ?_, fun hlaw n => ?_⟩
    · have hnone : (s.setSitting k new).recordsOf k = [] := by
        refine List.eq_nil_iff_forall_not_mem.2 fun i hi => ?_
        obtain ⟨c, hc, hck⟩ := (mem_recordsOf (hs.setSitting k new)).1 hi
        exact hempty _ ((hs.cand_iff i c).1 hc) hck
      rw [rescheduleRecords_of_empty hnone] at hexec
      exact exec_ok rfl h hexec
    · rw [hframe, rescheduleTested_frame hs k new]
    · rw [hcount, hframe]
      rw [rescheduleTested_frame hs k new]
      rfl
    · rw [hcand]
      exact cand_none_rescheduleTested hs k new hi
    · rw [hcand, hsit, ← ht0, ← hr, ← hw]
      exact cand_rescheduleTested hs new hd
    · have hres := rescheduleRecords_rescheduled ((directoryLaw_iff hs).1 hlaw) hs k new
      exact ⟨hres.chain_of_other, fun j d hd hn hk => hres.chain_of_record hd hn hk⟩
  · intro s k t list named i good h hi hnamed hgood
    subst hi
    have hgood' : good ↔ ∃ rooms, scheduleGood t list rooms := by
      simp only [scheduleGood, exists_and_right, roomListOf_isSome hnamed, timetableInRange_iff, hgood]
      tauto
    refine ⟨fun hk => exec_refused rfl h (schedule_started hk), fun hk => ⟨fun hbad => ?_, fun hg hpast => ?_⟩⟩
    · exact exec_refused rfl h (schedule_range hk fun rooms hr => hbad (hgood'.2 ⟨rooms, hr⟩))
    · obtain ⟨rooms, hr⟩ := hgood'.1 hg
      refine exec_refused rfl h ?_
      rw [schedule_good hk hr, if_pos hpast]

end Sys2Proof.Machine
end

