-- ==== Sys2Proof/Proofs/Finishing.lean ====
section
/-! SUPPORT. The end of a record by WITHDRAW and SUBMIT_FOR: what an offered SHOW changes of a desk (R89), and the finish
as one state (R77, R111, R112). -/

namespace Sys2Proof.Machine

variable {s t u : State} {n k j i x : Nat} {c d : Candidate}

/-! ### Seats -/

/-- A write over a write leaves the second. -/
theorem insert_insert {α : Type} (t : Table α) (i : Nat) (a b : α) :
    tableInsert (tableInsert t i a) i b = tableInsert t i b := by
  induction t with
  | nil => simp [tableInsert]
  | cons y t ih =>
    obtain ⟨k, w⟩ := y
    by_cases hlt : i < k
    · simp [tableInsert, hlt]
    · by_cases hk : i = k
      · subst hk
        simp [tableInsert]
      · simp [tableInsert, hlt, hk, ih]

theorem setSeat_of_ne {v : Seat} (hv : v ≠ Seat.undefinedRecord) (s : State) (i : Nat) :
    s.setSeat i v = { s with seats := tableInsert s.seats i v } := by simp [State.setSeat, hv]

/-- A seat record that is written is read, and the other seats are as before. -/
theorem seat_setSeat {v : Seat} (hv : v ≠ Seat.undefinedRecord) (s : State) (i x : Nat) :
    (s.setSeat i v).seat x = if x = i then v else s.seat x := by
  rw [setSeat_of_ne hv]
  by_cases h : x = i
  · subst h; simp [State.seat]
  · simp [State.seat, h, tableFind_insert_ne _ _ h]

theorem setSeat_setSeat {v w : Seat} (hv : v ≠ Seat.undefinedRecord) (hw : w ≠ Seat.undefinedRecord) (s : State) (i : Nat) :
    (s.setSeat i v).setSeat i w = s.setSeat i w := by
  rw [setSeat_of_ne hv, setSeat_of_ne hw, setSeat_of_ne hw, insert_insert]

/-- A seat in use is a defined one. -/
theorem ne_undefined_of_state {v : Seat} (h : v.state ≠ .outOfUse) : v ≠ Seat.undefinedRecord := fun e => h (by rw [e]; rfl)

theorem ne_undefined_of_stale {v : Seat} (h : v.stale = true) : v ≠ Seat.undefinedRecord := fun e => by
  rw [e] at h
  cases h

/-! ### An offered SHOW (R89) -/

/-- What a SHOW offered to the desk of a seat can change: the queue of a room, and the seat's stale flag. -/
structure State.Told (s t : State) (i : Nat) : Prop where
  frame : t = { s with seats := t.seats, segments := t.segments }
  queues : s.sameButQueues t
  seat : (t.seat i).butStale = (s.seat i).butStale
  others : ∀ x, x ≠ i → t.seat x = s.seat x

namespace State.Told

theorem refl (s : State) (i : Nat) : s.Told s i := ⟨rfl, fun _ => rfl, rfl, fun _ _ => rfl⟩

theorem trans (h : s.Told t i) (g : t.Told u i) : s.Told u i := by
  refine ⟨?_, fun m => (g.queues m).trans (h.queues m), g.seat.trans h.seat,
    fun x hx => (g.others x hx).trans (h.others x hx)⟩
  have hu := g.frame
  rw [h.frame] at hu
  exact hu

end State.Told

theorem setQueue_told (m : Fin 4) (q : List ShowEntry) (s : State) (i : Nat) : s.Told (s.setQueue m q) i := by
  refine ⟨rfl, fun m' => ?_, rfl, fun _ _ => rfl⟩
  by_cases h : m'.val = m.val
  · have : m' = m := Fin.ext h
    subst this
    simp [State.setQueue, State.setSegment]
  · simp [State.setQueue, State.setSegment, Ne.symm h]

theorem markStale_told (i : Nat) (s : State) : s.Told (s.markStale i) i := by
  have hv : ({ s.seat i with stale := true } : Seat) ≠ Seat.undefinedRecord := ne_undefined_of_stale rfl
  refine ⟨rfl, fun _ => rfl, ?_, fun x hx => ?_⟩
  · rw [State.markStale, seat_setSeat hv, if_pos rfl]
    rfl
  · rw [State.markStale, seat_setSeat hv, if_neg hx]

theorem offerDesk_told (i : Nat) (w : ShowContent) (s : State) : s.Told (offerDesk i w s) i := by
  unfold offerDesk
  repeat' split
  · exact .refl s i
  · exact .refl s i
  all_goals first
    | exact markStale_told i s
    | exact setQueue_told ..
    | exact (setQueue_told ..).trans (markStale_told ..)

/-- A state with other candidate records and scripts. -/
def State.withRecords (s : State) (r : Table Candidate) (sc : Table Script) : State := { s with roll := r, scripts := sc }

theorem seat_withRecords (s : State) (r : Table Candidate) (sc : Table Script) (i : Nat) :
    (s.withRecords r sc).seat i = s.seat i := rfl

theorem segments_withRecords (s : State) (r : Table Candidate) (sc : Table Script) :
    (s.withRecords r sc).segments = s.segments := rfl

/-- The desks are told the same whatever the candidate records and the scripts are. -/
theorem offerDesk_withRecords (i : Nat) (w : ShowContent) (s : State) (r : Table Candidate) (sc : Table Script) :
    offerDesk i w (s.withRecords r sc) = (offerDesk i w s).withRecords r sc := by
  unfold offerDesk
  rw [seat_withRecords, segments_withRecords]
  cases (s.seat i).binds with
  | none => rfl
  | some y =>
    obtain ⟨m, a⟩ := y
    dsimp only
    cases s.segments[m].line with
    | disabled => rfl
    | master | awaiting b =>
      cases (s.seat i).deskStatus <;> cases (offerQueue ⟨a, w⟩ s.segments[m].queue).2 <;> rfl

/-! ### A seat that is given up (R43, R56, R58) -/

/-- A seat record that is FREE. -/
def Seat.freed (v : Seat) : Seat := { v with state := .free, candidate := none, handRaised := false }

/-- A seat record that is VACATED by the record in a slot. -/
def Seat.vacatedBy (j : Nat) (v : Seat) : Seat := { v with state := .vacated, candidate := some j }

theorem freed_ne_undefined (v : Seat) : v.freed ≠ Seat.undefinedRecord := ne_undefined_of_state (by simp [Seat.freed])

theorem vacatedBy_ne_undefined (j : Nat) (v : Seat) : v.vacatedBy j ≠ Seat.undefinedRecord :=
  ne_undefined_of_state (by simp [Seat.vacatedBy])

theorem butStale_freed {v w : Seat} (h : v.butStale = w.butStale) : v.freed.butStale = w.freed.butStale :=
  congrArg Seat.freed h

theorem butStale_vacatedBy {v w : Seat} (j : Nat) (h : v.butStale = w.butStale) :
    (v.vacatedBy j).butStale = (w.vacatedBy j).butStale := congrArg (Seat.vacatedBy j) h

/-- What a seat's giving up changes of the desks: its own record as given, and the queues. -/
structure State.GivenUp (s t : State) (i : Nat) (v : Seat) : Prop where
  frame : t = { s with seats := t.seats, segments := t.segments }
  queues : s.sameButQueues t
  seat : (t.seat i).butStale = v.butStale
  others : ∀ x, x ≠ i → t.seat x = s.seat x

theorem State.Told.setSeat (h : s.Told t i) {v w : Seat} (hv : v ≠ Seat.undefinedRecord) (hw : v.butStale = w.butStale) :
    s.GivenUp (t.setSeat i v) i w := by
  refine ⟨?_, h.queues, by rw [seat_setSeat hv, if_pos rfl, hw],
    fun x hx => by rw [seat_setSeat hv, if_neg hx, h.others x hx]⟩
  have ht := h.frame
  unfold State.setSeat
  rw [ht]

theorem State.GivenUp.told {v : Seat} (h : s.GivenUp t i v) (g : t.Told u i) : s.GivenUp u i v := by
  refine ⟨?_, fun m => (g.queues m).trans (h.queues m), g.seat.trans h.seat,
    fun x hx => (g.others x hx).trans (h.others x hx)⟩
  have hu := g.frame
  rw [h.frame] at hu
  exact hu

theorem freedDesk_givenUp (h : s.Told t i) : s.GivenUp (freedDesk i t) i (s.seat i).freed :=
  (h.setSeat (freed_ne_undefined (t.seat i)) (butStale_freed h.seat)).told (offerDesk_told ..)

/-- The desk of a record that finishes (R77, R111, R112). -/
theorem finishedDesk_givenUp (x j : Nat) (s : State) : s.GivenUp (finishedDesk x j s) x
    (if s.scriptOut j then (s.seat x).vacatedBy j else (s.seat x).freed) := by
  have htold := offerDesk_told x (.notice .done) s
  unfold finishedDesk
  split
  · exact htold.setSeat (vacatedBy_ne_undefined j _) (butStale_vacatedBy j htold.seat)
  · exact freedDesk_givenUp htold

/-! ### The finish (R77, R111, R112) -/

/-- The scripts after a finish: the record's ISSUED ones are SUBMITTED (R111). -/
def State.submittedScripts (s : State) (j : Nat) : Table Script :=
  s.scripts.map (fun y => (y.1, Script.submittedBy j s.hallTime y.2))

theorem scriptOut_iff : s.scriptOut j = true ↔
    ∃ y ∈ s.scripts, y.2.slot = j ∧ y.2.state ∈ [ScriptState.issued, .submitted] := by
  simp [State.scriptOut]

theorem scriptOut_eq_false (h : ∀ y ∈ s.scripts, y.2.slot = j → y.2.state ∉ [ScriptState.issued, .submitted]) :
    s.scriptOut j = false := by
  rw [← Bool.not_eq_true, scriptOut_iff]
  rintro ⟨y, hy, hj, hst⟩
  exact h y hy hj hst

/-- A script that has become SUBMITTED still holds its record. -/
theorem submittedBy_holds (j t : Nat) (y : Script) : (Script.submittedBy j t y).slot = y.slot ∧
    (Script.submittedBy j t y).holds = y.holds := by
  unfold Script.submittedBy
  split
  · next h => exact ⟨rfl, by simp [Script.holds, h.2]⟩
  · exact ⟨rfl, rfl⟩

/-- A record can be cleared after its scripts became SUBMITTED where none of them was ISSUED or SUBMITTED (R112). -/
theorem allReturned_iff (s : State) (j : Nat) :
    ((s.submittedScripts j).filter (fun y => y.2.slot == j)).all (fun y => !y.2.holds) = !s.scriptOut j := by
  rw [Bool.eq_iff_iff, List.all_eq_true, Bool.not_eq_true', ← Bool.not_eq_true, scriptOut_iff]
  simp only [State.submittedScripts, List.mem_filter, List.mem_map, forall_exists_index, and_imp, beq_iff_eq]
  constructor
  · rintro h ⟨y, hy, hj, hst⟩
    have := h _ y hy rfl (by rw [(submittedBy_holds ..).1, hj])
    rw [(submittedBy_holds ..).2] at this
    simp only [List.mem_cons, List.not_mem_nil, or_false] at hst
    rcases hst with hst | hst <;> simp [Script.holds, hst] at this
  · rintro h _ y hy rfl hj
    rw [(submittedBy_holds ..).1] at hj
    rw [(submittedBy_holds ..).2]
    by_contra hholds
    exact h ⟨y, hy, hj, by simpa [Script.holds, or_iff_not_imp_left] using hholds⟩

/-- Without scripts of the record none changes, and none holds it. -/
theorem submittedScripts_of_empty (h : (s.boundScripts j).isEmpty = true) : s.submittedScripts j = s.scripts := by
  refine (List.map_congr_left fun y hy => ?_).trans (List.map_id _)
  have hslot : ¬ (y.2.slot = j ∧ y.2.state = .issued) := fun e => by
    have : y ∈ s.boundScripts j := mem_boundScripts.2 ⟨hy, e.1⟩
    rw [List.isEmpty_iff.1 h] at this
    exact absurd this List.not_mem_nil
  rw [Script.submittedBy, if_neg hslot]
  rfl

theorem scriptOut_of_empty (h : (s.boundScripts j).isEmpty = true) : s.scriptOut j = false := by
  refine scriptOut_eq_false fun y hy hj => ?_
  have : y ∈ s.boundScripts j := mem_boundScripts.2 ⟨hy, hj⟩
  rw [List.isEmpty_iff.1 h] at this
  exact absurd this List.not_mem_nil

/-- A record that is CLEARED (R111, R112). -/
def Candidate.clearedBy (noScript : Bool) (d : Candidate) : Candidate :=
  { d with state := .cleared, currentSeat := none, flags := { d.flags with noScript := d.flags.noScript || noScript } }

theorem clearRecord_eq (hx : d.currentSeat = some x) (b : Bool) (s : State) (r : Table Candidate) (sc : Table Script) :
    clearRecord j d b (s.withRecords r sc) = (freedDesk x s).withRecords (tableInsert r j (d.clearedBy b)) sc := by
  unfold clearRecord
  rw [hx]
  exact offerDesk_withRecords x .blank (s.setSeat x (s.seat x).freed) _ _

/-- A seat that is VACATED and then given up is as one that is given up. -/
theorem freedDesk_setSeat (x j : Nat) (s : State) : freedDesk x (s.setSeat x ((s.seat x).vacatedBy j)) = freedDesk x s := by
  unfold freedDesk
  rw [seat_setSeat (vacatedBy_ne_undefined j _), if_pos rfl]
  exact congrArg (offerDesk x .blank) (setSeat_setSeat (vacatedBy_ne_undefined j _) (freed_ne_undefined (s.seat x)) s x)

theorem raise_withRecords (h : t.attention = s.attention) (r : Table Candidate) (sc : Table Script) (g : CauseGroup) :
    (t.withRecords r sc).raise g = { t.withRecords r sc with attention := (s.raise g).attention } := by
  unfold State.raise State.withRecords
  rw [h]

theorem freedDesk_attention (x : Nat) (s : State) : (freedDesk x s).attention = s.attention := by
  rw [(freedDesk_givenUp (.refl s x)).frame]

theorem cand_withRecords (s : State) (j : Nat) (d : Candidate) (r : Table Candidate) (sc : Table Script) :
    (s.withRecords (tableInsert r j d) sc).cand j = some d := tableFind_insert_self ..

/-- A record that finishes without scripts is cleared with NO_SCRIPT and a cause (R111). -/
theorem submitOnFinish_noScript (hx : d.currentSeat = some x) (s : State) (h : (s.boundScripts j).isEmpty = true) :
    submitOnFinish j (s.setCand j d) =
      ((freedDesk x s).withRecords (tableInsert s.roll j (d.clearedBy true)) (s.submittedScripts j)).raise .custody := by
  show submitOnFinish j (s.withRecords (tableInsert s.roll j d) s.scripts) = _
  unfold submitOnFinish
  rw [cand_withRecords, submittedScripts_of_empty h]
  dsimp only
  rw [if_pos (show ((s.withRecords (tableInsert s.roll j d) s.scripts).boundScripts j).isEmpty = true from h),
    clearRecord_eq hx, insert_insert]

/-- A record that finishes with scripts has its seat VACATED and is tested for its clearance (R111, R112). -/
theorem submitOnFinish_scripts (hx : d.currentSeat = some x) (s : State) (h : (s.boundScripts j).isEmpty = false) :
    submitOnFinish j (s.setCand j d) = clearanceTest j
      ((s.setSeat x ((s.seat x).vacatedBy j)).withRecords (tableInsert s.roll j d) (s.submittedScripts j)) := by
  show submitOnFinish j (s.withRecords (tableInsert s.roll j d) s.scripts) = _
  unfold submitOnFinish
  rw [cand_withRecords]
  dsimp only
  rw [if_neg (show ¬ ((s.withRecords (tableInsert s.roll j d) s.scripts).boundScripts j).isEmpty = true from
    Bool.eq_false_iff.1 h), hx]
  rfl

/-- The clearance test of a DONE record as it finishes: it is cleared where no script of it is out (R112). -/
theorem clearanceTest_eq (hd : d.state = .done) (hx : d.currentSeat = some x) (s : State) :
    clearanceTest j ((s.setSeat x ((s.seat x).vacatedBy j)).withRecords (tableInsert s.roll j d) (s.submittedScripts j)) =
      if s.scriptOut j then
        (s.setSeat x ((s.seat x).vacatedBy j)).withRecords (tableInsert s.roll j d) (s.submittedScripts j)
      else (freedDesk x s).withRecords (tableInsert s.roll j (d.clearedBy false)) (s.submittedScripts j) := by
  have hall : (((s.setSeat x ((s.seat x).vacatedBy j)).withRecords (tableInsert s.roll j d)
      (s.submittedScripts j)).boundScripts j).all (fun y => !y.2.holds) = !s.scriptOut j := allReturned_iff s j
  unfold clearanceTest
  rw [cand_withRecords]
  dsimp only
  rw [hall]
  cases s.scriptOut j with
  | true => simp
  | false => simp [hd, clearRecord_eq hx, insert_insert, freedDesk_setSeat]

/-- The finish of a record at a seat, up to the test of its sitting (R77). -/
theorem finish_eq {why : FinishCause} (hc : s.cand j = some c) (hx : c.currentSeat = some x) :
    finish why j s = closingTest c.sitting
      (submitOnFinish j ((offerDesk x (.notice .done) s).setCand j (c.finished why))) := by
  have hseat : (c.finished why).currentSeat = some x := hx
  have hroll : (offerDesk x (.notice .done) s).roll = s.roll := by rw [(offerDesk_told x (.notice .done) s).frame]
  have hscripts : (offerDesk x (.notice .done) s).scripts = s.scripts := by
    rw [(offerDesk_told x (.notice .done) s).frame]
  have htold : offerDesk x (.notice .done) (s.setCand j (c.finished why)) =
      (offerDesk x (.notice .done) s).setCand j (c.finished why) := by
    refine (offerDesk_withRecords x (.notice .done) s (tableInsert s.roll j (c.finished why)) s.scripts).trans ?_
    unfold State.setCand State.withRecords
    rw [hroll, ← hscripts]
  unfold finish
  rw [hc]
  dsimp only
  unfold showNotice
  rw [hx]
  dsimp only
  rw [htold]

/-- The state as a record has finished, before its sitting is tested: DONE at its VACATED seat, or CLEARED with its seat
given up, with a cause where it has no script (R77, R111, R112). -/
theorem submitOnFinish_finished (hd : d.state = .done) (hx : d.currentSeat = some x) (s : State) :
    ∃ e att, submitOnFinish j ((offerDesk x (.notice .done) s).setCand j d) =
        { (finishedDesk x j s).withRecords (tableInsert s.roll j e) (s.submittedScripts j) with attention := att } ∧
      (s.scriptOut j = true → e = d ∧ att = s.attention) ∧
      (s.scriptOut j = false → e = d.clearedBy (s.boundScripts j).isEmpty ∧
        att = if (s.boundScripts j).isEmpty then (s.raise .custody).attention else s.attention) := by
  have hframe := (offerDesk_told x (.notice .done) s).frame
  have hroll : (offerDesk x (.notice .done) s).roll = s.roll := by rw [hframe]
  have hatt : (offerDesk x (.notice .done) s).attention = s.attention := by rw [hframe]
  have hout : (offerDesk x (.notice .done) s).scriptOut j = s.scriptOut j := by rw [hframe]; rfl
  have hbound : (offerDesk x (.notice .done) s).boundScripts j = s.boundScripts j := by rw [hframe]; rfl
  have hscripts : (offerDesk x (.notice .done) s).submittedScripts j = s.submittedScripts j := by rw [hframe]; rfl
  cases hempty : (s.boundScripts j).isEmpty with
  | true =>
    have hfree := scriptOut_of_empty hempty
    refine ⟨d.clearedBy true, (s.raise .custody).attention, ?_, by simp [hfree], by simp⟩
    rw [submitOnFinish_noScript hx _ (hbound ▸ hempty), hroll, hscripts, finishedDesk, hfree,
      if_neg Bool.false_ne_true]
    exact raise_withRecords ((freedDesk_attention x (offerDesk x _ s)).trans hatt) _ _ .custody
  | false =>
    rw [submitOnFinish_scripts hx _ (hbound ▸ hempty), clearanceTest_eq hd hx, hout, hroll, hscripts, finishedDesk]
    cases s.scriptOut j with
    | true => exact ⟨d, s.attention, by rw [if_pos rfl, if_pos rfl, ← hatt]; rfl, by simp, by simp⟩
    | false =>
      refine ⟨d.clearedBy false, s.attention, ?_, by simp, by simp⟩
      rw [if_neg Bool.false_ne_true, if_neg Bool.false_ne_true, ← hatt, ← freedDesk_attention x (offerDesk x _ s)]
      rfl

/-! ### WITHDRAW and SUBMIT_FOR (R9, R76, R78) -/

/-- A record after its finish by a request: WITHDRAWN is set where it was withdrawn (R77, R78). -/
def Candidate.ended (withdrawn : Bool) (c : Candidate) : Candidate :=
  { c with state := .done, flags := { c.flags with withdrawn := c.flags.withdrawn || withdrawn } }

/-- Both requests finish a record that writes, or waits for its sitting to start (R76, R78). -/
theorem ending_finishes {i : Instr} (hi : i ∈ [Instr.withdraw n k, .submitFor n k]) (hres : s.resolve n k = .ok (j, c))
    (hc : c.state ∈ [CandState.seated, .active, .resting]) : ∃ op why, ownerRule i = some op ∧
      op s = okWith [] (finish why j s) ∧ c.finished why = c.ended (i == .withdraw n k) := by
  simp only [List.mem_cons, List.not_mem_nil, or_false] at hi hc
  rcases hi with rfl | rfl
  · refine ⟨_, .withdrawn, rfl, ?_, by simp [Candidate.finished, CandFlags.finished, Candidate.ended]⟩
    rcases hc with hc | hc | hc <;> simp only [withdraw, hres, hc]
  · have hne : (Instr.submitFor n k == .withdraw n k) = false := beq_false_of_ne (by simp)
    refine ⟨_, .submitted, rfl, ?_, by simp [Candidate.finished, CandFlags.finished, Candidate.ended, hne]⟩
    rcases hc with hc | hc | hc <;> simp only [submitFor, hres, hc]

/-- An EXPECTED record that gives its seat up (R9, R56, R58). -/
theorem endExpected_seated (hc : s.cand j = some c) (hx : c.currentSeat = some x) (st : CandState) :
    endExpected st j s =
      (freedDesk x s).withRecords (tableInsert s.roll j { c with state := st, currentSeat := none }) s.scripts := by
  unfold endExpected
  rw [hc]
  dsimp only
  rw [hx]
  exact offerDesk_withRecords x .blank (s.setSeat x (s.seat x).freed) _ _

/-- Settles O25: both requests end the record, give its seat up or keep it VACATED, and test its sitting. -/
theorem withdrawAndSubmitForEndTheRecord : Obligations.WithdrawAndSubmitForEndTheRecord := by
  refine ⟨fun s n k j c h _ hres hc => ⟨fun hx => ?_, fun i hx => ?_⟩,
    fun s n k j c i x h _ hres hc hx hi => ?_, fun s n k j c h hres => ⟨fun hc => ?_, fun hc => ?_⟩⟩
  · have hcand := State.cand_of_resolve hres
    refine exec_ok rfl h ?_
    simp only [withdraw, hres, hc, hx, endExpected, hcand]
  · have hcand := State.cand_of_resolve hres
    have hdesk := freedDesk_givenUp (.refl s i)
    refine ⟨endExpected .withdrawn j s, exec_ok rfl h ?_, ?_⟩
    · simp only [withdraw, hres, hc, hx]
    rw [endExpected_seated hcand hx]
    refine ⟨?_, rfl, rfl, hdesk.queues, hdesk.seat, hdesk.others⟩
    rw [hdesk.frame]
    rfl
  · have hcand := State.cand_of_resolve hres
    obtain ⟨op, why, ho, hop, hended⟩ := ending_finishes hi hres hc
    rw [finish_eq hcand hx, hended] at hop
    obtain ⟨e, att, hfin, hout, hreturned⟩ := submitOnFinish_finished (j := j) (d := c.ended (i == .withdraw n k)) rfl hx s
    have hdesk := finishedDesk_givenUp x j s
    rw [hfin] at hop
    refine ⟨_, exec_ok ho h hop, ?_, rfl, rfl, hdesk.queues, hdesk.others, fun hscript => ?_, fun hscript => ?_⟩
    · rw [hdesk.frame]
      rfl
    · have hscript' := scriptOut_iff.2 hscript
      obtain ⟨rfl, rfl⟩ := hout hscript'
      refine ⟨rfl, ?_, rfl⟩
      rw [hscript', if_pos rfl] at hdesk
      exact hdesk.seat
    · have hscript' := scriptOut_eq_false hscript
      obtain ⟨rfl, rfl⟩ := hreturned hscript'
      refine ⟨rfl, ?_, rfl⟩
      rw [hscript', if_neg Bool.false_ne_true] at hdesk
      exact hdesk.seat
  · refine exec_refused rfl h ?_
    unfold withdraw
    rw [hres]
    cases hstate : c.state <;> simp_all
  · refine exec_refused rfl h ?_
    unfold submitFor
    rw [hres]
    cases hstate : c.state <;> simp_all

end Sys2Proof.Machine
end

