-- ==== Sys2Proof/Proofs/ResetCause.lean ====
section
/-! SUPPORT. No request changes the reset cause (R181): the shared operations leave it, and so do the owners' rules. -/

namespace Sys2Proof.Machine

variable {s t : State}

theorem State.OnlyRecords.resetCause (h : s.OnlyRecords t) : t.resetCause = s.resetCause := by rw [h]

theorem takeInTurn_resetCause {ι : Type} (is : List ι) (f : ι → State → State)
    (h : ∀ (i : ι) (s : State), (f i s).resetCause = s.resetCause) (s : State) :
    (takeInTurn is f s).resetCause = s.resetCause :=
  takeInTurn_invariant (fun t => t.resetCause = s.resetCause) is f (fun i t ht => (h i t).trans ht) s rfl

/-! ### The shared operations -/

@[simp] theorem offerDesk_resetCause (i : Nat) (w : ShowContent) (s : State) :
    (offerDesk i w s).resetCause = s.resetCause := (offerDesk_desks ..).records.resetCause

@[simp] theorem showSeat_resetCause (i : Nat) (c : Candidate) (s : State) :
    (showSeat i c s).resetCause = s.resetCause := (showSeat_desks ..).records.resetCause

@[simp] theorem showEnd_resetCause (c : Candidate) (s : State) : (showEnd c s).resetCause = s.resetCause :=
  (showEnd_desks ..).records.resetCause

@[simp] theorem kickSegment_resetCause (m : Fin 4) (s : State) : (kickSegment m s).resetCause = s.resetCause :=
  (kickSegment_desks ..).records.resetCause

@[simp] theorem clearanceTest_resetCause (j : Nat) (s : State) : (clearanceTest j s).resetCause = s.resetCause :=
  (clearanceTest_records ..).resetCause

@[simp] theorem closingTest_resetCause (k : Fin 8) (s : State) : (closingTest k s).resetCause = s.resetCause :=
  (closingTest_records ..).resetCause

@[simp] theorem endExpected_resetCause (st : CandState) (j : Nat) (s : State) :
    (endExpected st j s).resetCause = s.resetCause := (endExpected_records ..).resetCause

@[simp] theorem finish_resetCause (why : FinishCause) (j : Nat) (s : State) :
    (finish why j s).resetCause = s.resetCause := (finish_records ..).resetCause

@[simp] theorem activate_resetCause (j : Nat) (s : State) : (activate j s).resetCause = s.resetCause :=
  (activate_records ..).resetCause

@[simp] theorem changeHold_resetCause (k : Fin 8) (h : HoldSources) (s : State) :
    (changeHold k h s).resetCause = s.resetCause := (changeHold_records ..).resetCause

theorem announce_resetCause (door : Option (Fin 4)) (i : Nat) (c : Candidate) (s : State) :
    (announce door i c s).resetCause = s.resetCause := by
  unfold announce
  split
  · exact (postSeat_desks ..).records.resetCause
  · rfl

@[simp] theorem seatRecord_resetCause (door : Option (Fin 4)) (j : Nat) (c : Candidate) (i : Nat) (s : State) :
    (seatRecord door j c i s).resetCause = s.resetCause := by
  unfold seatRecord
  split <;> simp [announce_resetCause, takeSeat]

@[simp] theorem unplaceSeat_resetCause (j : Nat) (c : Candidate) (i : Nat) (s : State) :
    (unplaceSeat j c i s).resetCause = s.resetCause := by simp [unplaceSeat, freeSeat]

@[simp] theorem moveRecord_resetCause (j : Nat) (c : Candidate) (old i : Nat) (s : State) :
    (moveRecord j c old i s).resetCause = s.resetCause := by
  have htold : ∀ (c : Candidate) (s : State), (showMovedEnd c s).resetCause = s.resetCause := by
    intro c s
    unfold showMovedEnd
    split <;> simp
  simp [moveRecord, htold, takeSeat, freeSeat]

@[simp] theorem extendRecord_resetCause (k : Fin 8) (j : Nat) (s : State) :
    (extendRecord k j s).resetCause = s.resetCause := by
  unfold extendRecord
  split <;> simp

@[simp] theorem followEnabled_resetCause (m : Fin 4) (was now : Bool) (s : State) :
    (followEnabled m was now s).resetCause = s.resetCause := by
  unfold followEnabled
  split <;> simp [startSegment, stopSegment, unknownDesks]

theorem clearTraffic_resetCause (s : State) : (clearTraffic s).1.resetCause = s.resetCause := by
  have hintake : ∀ s, (clearIntake s).resetCause = s.resetCause := by
    intro s
    unfold clearIntake abandonMarking
    repeat' split
    all_goals simp
  have hsegments : ∀ s, (takeInTurn four clearSegment s).resetCause = s.resetCause :=
    takeInTurn_resetCause four clearSegment fun m s => by simp [clearSegment]
  exact (hintake _).trans (hsegments s)

/-! ### The requests that relink -/

theorem markClashes_resetCause (j : Nat) (s : State) : (markClashes j s).resetCause = s.resetCause := by
  unfold markClashes
  split
  · rfl
  · refine takeInTurn_resetCause _ _ (fun j s => ?_) s
    unfold setClash
    split <;> rfl

theorem State.Relinked.resetCause (h : s.Relinked t) : t.resetCause = s.resetCause := by rw [h.frame]

@[simp] theorem enrolAt_resetCause (s : State) (j : Nat) (c : Candidate) :
    (s.enrolAt j c).resetCause = s.resetCause := by
  rw [enrolAt_frame]
  exact (markClashes_resetCause ..).trans (joinChain_relinked ..).resetCause

@[simp] theorem retireRecord_resetCause (s : State) (j : Nat) (c : Candidate) :
    (s.retireRecord j c).resetCause = s.resetCause := by rw [retireRecord_frame]

@[simp] theorem rescheduleRecords_resetCause (s : State) (k : Fin 8) (old : Sitting) :
    (s.rescheduleRecords k old).resetCause = s.resetCause := by
  have htested : ((s.reordered k old).clashTested k old s.sittings[k]).resetCause = s.resetCause := by
    refine Eq.trans ?_ (reordered_relinked s k old).resetCause
    unfold State.clashTested
    split
    · rfl
    · exact takeInTurn_resetCause _ _ markClashes_resetCause _
  rw [rescheduleRecords_eq]
  split
  · exact htested
  · exact htested

/-! ### The owners' rules -/

@[simp] theorem refuse_fst (st : Status) (s : State) : (refuse st s).1 = s := rfl

@[simp] theorem refuseWith_fst (st : Status) (payload : List Byte) (s : State) : (refuseWith st payload s).1 = s := rfl

@[simp] theorem okWith_fst (payload : List Byte) (s : State) : (okWith payload s).1 = s := rfl

@[simp] theorem okOrClamped_fst (b : Bool) (payload : List Byte) (s : State) : (okOrClamped b payload s).1 = s := rfl

/-- No owner's rule changes the reset cause: each branch refuses, or applies shared operations that leave it. -/
theorem ownerRule_resetCause {i : Instr} {op : Owner} (ho : ownerRule i = some op) (s : State) :
    (op s).1.resetCause = s.resetCause := by
  by_cases hr : onlyReads i = true
  · rw [reads_same hr ho s]
  cases i <;> simp only [onlyReads, not_true] at hr <;>
    simp only [ownerRule, Option.some.injEq, reduceCtorEq] at ho <;> subst ho
  case clearTraffic => exact clearTraffic_resetCause s
  case extend =>
    unfold extend
    repeat' split
    any_goals rfl
    rw [okOrClamped_fst]
    split
    · rfl
    · exact takeInTurn_resetCause _ _ (extendRecord_resetCause _) _
  case handOverSitting | remark | issue | place | restFor | resetRoom | setAttention =>
    simp only [handOverSitting, remark, issue, place, restFor, resetRoom, setAttention]
    repeat' split
    all_goals simp [takeSeat, setResting, unknownDesks]
  all_goals
    simp only [enrol, amend, withdraw, retire, setClock, schedule, retireSitting, setSittingHold, defineSeat, setSeatState,
      State.bringBack, setRoomSettings, admitFor, unplace, move, submitFor, ackHand, voidScript, handOver, keyOpen,
      keyEntries, keySeal, keyDiscard, clearAttention, clearFault]
    repeat' split
    all_goals simp [State.emptyKey]

/-- A request leaves the reset cause, whether the part runs or is held in a reset. -/
theorem exec_resetCause {i : Instr} (hi : (ownerRule i).isSome = true) (he : exec i s = .next t) :
    t.resetCause = s.resetCause := by
  obtain ⟨op, ho⟩ := Option.isSome_iff_exists.1 hi
  have hrow : exec i s = requestRow i op s := by
    cases i <;> simp only [ownerRule, Option.some.injEq, reduceCtorEq] at ho <;> subst ho <;> rfl
  rw [hrow, requestRow, whileRunning] at he
  cases hreset : s.resetHold with
  | running =>
    rw [hreset] at he
    cases he
    exact ownerRule_resetCause ho (s.setPort (s.port.withRequest (requestBytes i)))
  | powerUp | hallReset =>
    rw [hreset] at he
    cases he
    rfl

end Sys2Proof.Machine
end

