-- ==== Sys2Proof/Proofs/Reads.lean ====
section
/-! SUPPORT. What the reads answer (R12, R13, R40, R62, R103, R119, R131, R144, R161, R174, R177, R181): each request's
values, and the layouts of the values. -/

namespace Sys2Proof.Machine

variable {s : State} {n k j d : Nat} {c : Candidate}

/-! ### The requests that read -/

/-- The reads of the roll, the clock and a sitting (R12, R13, R40). -/
theorem readRoll_answers (h : s.resetHold = .running) :
    (∀ n k j c, s.resolve n k = .ok (j, c) →
      n ≤ 99999999 ∧ c.sitting.val = k ∧ j ∈ s.chain n ∧ s.cand j = some c ∧
      exec (.readCandidate n k) s = answered (.readCandidate n k) .ok (s.candidateBytes j c) s s) ∧
    (∀ j c, j < 1024 → s.cand j = some c →
      exec (.readSlot j) s = answered (.readSlot j) .ok (1 :: s.candidateBytes j c) s s) ∧
    (∀ j, j < 1024 → s.cand j = none → exec (.readSlot j) s = answered (.readSlot j) .ok [0] s s) ∧
    (∀ n, n ≤ 99999999 → (s.lookup n).isSome = true →
      exec (.readChain n) s = answered (.readChain n) .ok
        (be1 (s.chain n).length ++ (s.chain n).flatMap s.chainEntryBytes) s s) ∧
    exec .readRoll s = answered .readRoll .ok s.rollBytes s s ∧
    exec .readClock s = answered .readClock .ok
      (be3 s.hallTime ++ beFlag s.holdFilter.filtered ++ beFlag (xor s.holdFilter.high s.holdFilter.polarity) ++
        beFlag s.holdFilter.waiting ++ beFlag s.holdFilter.polarity ++ [s.heldSet]) s s ∧
    (∀ k : Fin 8, exec (.readSitting k) s = answered (.readSitting k) .ok s.sittings[k].bytes s s) := by
  refine ⟨fun n k j c hres => ?_, fun j c hj hc => ?_, fun j hj hc => ?_, fun n hn hl => ?_, exec_ok rfl h rfl,
    exec_ok rfl h rfl, fun k => ?_⟩
  · obtain ⟨hn, hk, hj, hc⟩ := State.resolve_ok hres
    exact ⟨hn, hk, hj, hc, exec_ok rfl h (by simp only [readCandidate, hres])⟩
  · exact exec_ok rfl h (by simp [readSlot, Config.rollSlots, Nat.not_le.2 hj, hc, beOpt])
  · exact exec_ok rfl h (by simp [readSlot, Config.rollSlots, Nat.not_le.2 hj, hc, beOpt])
  · obtain ⟨i, hi⟩ := Option.isSome_iff_exists.1 hl
    exact exec_ok rfl h (by simp [readChain, Config.maxNumber, Nat.not_lt.2 hn, hi, beList])
  · exact exec_ok rfl h (by simp only [readSitting, sittingOf_val])

theorem roomOf_val (m : Fin 4) : roomOf m.val = some m := roomOf_eq_some.2 rfl

theorem validSerial_le (h : validSerial d = true) : d ≤ 9999999 := by
  simp only [validSerial, Bool.and_eq_true, decide_eq_true_eq] at h
  exact h.1

/-- A valid serial names the script that is there, or is refused with UNKNOWN_SCRIPT (R119). -/
theorem namedScript_of_valid (h : validSerial d = true) :
    s.namedScript d = (s.script d).elim (.error .unknownScript) .ok := by
  unfold State.namedScript
  rw [if_neg (show ¬ Config.maxSerial < d from Nat.not_lt.2 (validSerial_le h)), h]
  cases s.script d <;> rfl

/-- The reads of the hall, the segments and the custody table (R62, R103, R119). -/
theorem readHall_answers (h : s.resetHold = .running) :
    (∀ x, x < 512 → exec (.readSeat x) s = answered (.readSeat x) .ok (s.seatRecordBytes x) s s) ∧
    (∀ m : Fin 4, exec (.readRoom m) s = answered (.readRoom m) .ok (s.roomBytes m) s s ∧
      exec (.readSegment m) s = answered (.readSegment m) .ok s.segments[m].bytes s s) ∧
    (∀ d y, validSerial d = true → s.script d = some y →
      exec (.readScript d) s = answered (.readScript d) .ok (s.scriptReport (d, y)) s s) ∧
    (∀ d,
      (9999999 < d → exec (.readScript d) s = answered (.readScript d) .range [] s s) ∧
      (d ≤ 9999999 → validSerial d = false →
        exec (.readScript d) s = answered (.readScript d) .badSerial [] s s) ∧
      (validSerial d = true → s.script d = none →
        exec (.readScript d) s = answered (.readScript d) .unknownScript [] s s)) ∧
    (∀ p y, s.scripts[p]? = some y →
      exec (.readScriptAt p) s = answered (.readScriptAt p) .ok (1 :: s.scriptReport y) s s) ∧
    (∀ p, s.scripts.length ≤ p → exec (.readScriptAt p) s = answered (.readScriptAt p) .ok [0] s s) ∧
    (∀ n k j c, s.resolve n k = .ok (j, c) →
      exec (.scriptsOf n k) s = answered (.scriptsOf n k) .ok
        (be1 (s.boundScripts j).length ++ (s.boundScripts j).flatMap scriptSummary) s s) ∧
    exec .readCustody s = answered .readCustody .ok s.custodyBytes s s := by
  refine ⟨fun x hx => ?_, fun m => ⟨?_, ?_⟩, fun d y hv hy => ?_, fun d => ⟨fun hd => ?_, fun hd hv => ?_, fun hv hy => ?_⟩,
    fun p y hp => ?_, fun p hp => ?_, fun n k j c hres => ?_, exec_ok rfl h rfl⟩
  · exact exec_ok rfl h (by simp [readSeat, Config.seatRecords, Nat.not_le.2 hx])
  · exact exec_ok rfl h (by simp only [readRoom, roomOf_val])
  · exact exec_ok rfl h (by simp only [readSegment, roomOf_val])
  · exact exec_ok rfl h (by simp only [readScript, namedScript_of_valid hv, hy, Option.elim])
  · exact exec_refused rfl h (by simp [readScript, State.namedScript, Config.maxSerial, hd])
  · exact exec_refused rfl h (by simp [readScript, State.namedScript, Config.maxSerial, Nat.not_lt.2 hd, hv])
  · exact exec_refused rfl h (by simp only [readScript, namedScript_of_valid hv, hy, Option.elim])
  · exact exec_ok rfl h (by simp [readScriptAt, hp, beOpt])
  · exact exec_ok rfl h (by simp [readScriptAt, List.getElem?_eq_none hp, beOpt])
  · exact exec_ok rfl h (by simp [scriptsOf, hres, beList])

/-- The entries of a run of questions, one after another (R131). -/
theorem entriesFrom_eq (t : Table KeyEntry) (count q : Nat) :
    entriesFrom t count q = (List.range' q count).flatMap (fun x => entryBytes (tableFind t x)) := by
  induction count generalizing q with
  | zero => rfl
  | succ count ih => rw [entriesFrom, ih, List.range'_succ, List.flatMap_cons]

/-- READ_KEY_ENTRIES of a key that can be read (R131). -/
theorem readKeyEntries_eq {k : Fin 8} {q count : Nat} (hk : s.keys[k].state ∈ [KeyState.loading, .released]) :
    readKeyEntries k q count s =
      if q = 0 ∨ count = 0 ∨ 60 < count ∨ s.keys[k].header.q < q + count - 1 then refuse .range s
      else okWith (entriesFrom s.keys[k].entries count q) s := by
  unfold readKeyEntries
  rw [sittingOf_val]
  simp only [List.mem_cons, List.not_mem_nil, or_false] at hk
  rcases hk with hk | hk <;> simp only [hk]

/-- The reads of the keys, the intake, the marks, the attention unit, the fault record and IDENTIFY (R131, R144, R161,
R174, R177, R181). -/
theorem readKeys_answers (h : s.resetHold = .running) :
    (∀ k : Fin 8, exec (.readKey k) s =
      answered (.readKey k) .ok (be1 s.keys[k].state.code ++ s.keys[k].stateBytes) s s) ∧
    (∀ (k : Fin 8) (q count : Nat), s.keys[k].state ∈ [KeyState.loading, .released] → 1 ≤ q → 1 ≤ count →
      count ≤ 60 → q + count ≤ s.keys[k].header.q + 1 →
      exec (.readKeyEntries k q count) s = answered (.readKeyEntries k q count) .ok
        ((List.range' q count).flatMap (fun x => entryBytes (tableFind s.keys[k].entries x))) s s) ∧
    (∀ (k : Fin 8) (q count : Nat), s.keys[k].state ∈ [KeyState.loading, .released] →
      (q = 0 ∨ count = 0 ∨ 60 < count ∨ s.keys[k].header.q + 1 < q + count) →
      exec (.readKeyEntries k q count) s = answered (.readKeyEntries k q count) .range [] s s) ∧
    (∀ (k : Fin 8) (q count : Nat), s.keys[k].state ∈ [KeyState.empty, .sealed_] →
      exec (.readKeyEntries k q count) s = answered (.readKeyEntries k q count) .state [] s s) ∧
    exec .readIntake s = answered .readIntake .ok s.intakeBytes s s ∧
    (∀ n k j c, s.resolve n k = .ok (j, c) →
      exec (.readResult n k) s = answered (.readResult n k) .ok (s.resultBytes j c) s s) ∧
    exec .readAttention s = answered .readAttention .ok s.attentionBytes s s ∧
    exec .readFault s = answered .readFault .ok s.faultRecord.bytes s s ∧
    exec .identify s = answered .identify .ok
      [2, 0, 3, match s.resetCause with | .powerUp => 0 | .hallReset => 1] s s ∧
    (∀ i t, (ownerRule i).isSome = true → exec i s = .next t → t.resetCause = s.resetCause) := by
  refine ⟨fun k => ?_, fun k q count hk hq hc hc' hle => ?_, fun k q count hk hbad => ?_, fun k q count hk => ?_,
    exec_ok rfl h rfl, fun n k j c hres => ?_, exec_ok rfl h rfl, exec_ok rfl h rfl, exec_ok rfl h ?_,
    fun i t hi he => exec_resetCause hi he⟩
  · exact exec_ok rfl h (by simp only [readKey, sittingOf_val])
  · refine exec_ok rfl h ?_
    rw [readKeyEntries_eq hk, if_neg (by omega), entriesFrom_eq]
  · exact exec_refused rfl h (by rw [readKeyEntries_eq hk, if_pos (by omega)])
  · refine exec_refused rfl h ?_
    unfold readKeyEntries
    rw [sittingOf_val]
    simp only [List.mem_cons, List.not_mem_nil, or_false] at hk
    rcases hk with hk | hk <;> simp only [hk]
  · exact exec_ok rfl h (by simp only [readResult, hres])
  · unfold identify
    cases s.resetCause <;> rfl

end Sys2Proof.Machine
end

