-- ==== Sys2Proof/Proofs/Layouts.lean ====
section
/-! SUPPORT. How values are laid out in an answer (R172): the counts, the sets and the optional values that the layouts
name, as the records hold them. -/

namespace Sys2Proof.Machine

variable {s : State} {n k j d : Nat} {c : Candidate}

/-! ### Values -/

/-- A value that can be below 0 is sent in two's complement (R172). -/
theorem beInt2_eq {i : Int} (hlow : -32768 ≤ i) (hhigh : i ≤ 32767) :
    beInt2 i = be2 (if i < 0 then i + 65536 else i).toNat := by
  unfold beInt2
  rw [BitVec.toNat_ofInt]
  split
  · next h => rw [Int.emod_eq_add_self_emod, Int.emod_eq_of_lt (by norm_num; omega) (by norm_num; omega)]; norm_num
  · next h => rw [Int.emod_eq_of_lt (by omega) (by norm_num; omega)]

theorem holdSources_bytes (g : HoldSources) :
    g.bytes = be1 ((if g.hall then 1 else 0) + if g.sitting then 2 else 0) := by
  obtain ⟨hall, sitting⟩ := g
  cases hall <;> cases sitting <;> rfl

/-! ### The roll and a sitting -/

theorem liveOf_eq (s : State) (k : Fin 8) : s.liveOf k = (s.roll.filter (fun y => y.2.sitting == k)).length := by
  simp [State.liveOf, State.slotsWhere]

/-- A page has as many used slots as numbers (R13). -/
theorem usedSlots_eq (pg : Page) : pg.usedSlots = pg.used.length := by
  have h : ∀ l : List (Option DirSlot), (l.filter Option.isSome).length = (l.filterMap id).length := by
    intro l
    induction l with
    | nil => rfl
    | cons o l ih => cases o <;> simp [ih]
  exact h _

theorem rollBytes_eq (s : State) : s.rollBytes = be2 s.roll.length ++ be2 (1024 - s.roll.length) ++
    ([0, 1, 2, 3, 4, 5, 6, 7] : List (Fin 8)).flatMap (fun k =>
      be2 (s.roll.filter (fun y => y.2.sitting == k)).length) ++
    be1 s.dirPages.length ++ be1 (160 - s.dirPages.length) ++ be2 (s.dirPages.map (fun y => y.2.used.length)).sum := by
  simp only [State.rollBytes, State.liveCount, State.usedDirSlots, liveOf_eq, usedSlots_eq]
  rfl

theorem laterBytes_eq (g : Sitting) : g.laterBytes = if g.state ∈ [SittingState.unscheduled, .scheduled] then []
    else be3 g.baseEnd ++ beFlag g.admissionOpen ++ openingBytes g := by
  unfold Sitting.laterBytes
  cases g.state <;> rfl

theorem sealedPages_eq (v : KeySlot) : v.sealedPages = if v.state ∈ [KeyState.sealed_, .released] then
    some ((v.derived.map KeyDerived.pages).getD 0) else none := by
  unfold KeySlot.sealedPages
  cases v.state <;> rfl

/-! ### The hall -/

theorem seatPlace_bytes : SeatPlace.bytes = fun p =>
    be1 p.room.val ++ be1 p.row ++ be1 p.column ++ be1 (p.desk.getD 255) ++ be1 p.features.toNat := by
  funext p
  unfold SeatPlace.bytes
  cases p.desk <;> rfl

theorem inRoom_eq (v : Seat) (m : Fin 4) : v.inRoom m = (v.place.map SeatPlace.room == some m) := by
  unfold Seat.inRoom
  cases v.place with
  | none => rfl
  | some p => simp

/-- A bound desk is of the room of its seat (R42). -/
theorem inRoom_binds (v : Seat) (m : Fin 4) : (v.inRoom m && v.binds.isSome) = (v.binds.map Prod.fst == some m) := by
  obtain ⟨_ | ⟨room, row, column, desk, features⟩, state, candidate, _⟩ := v
  · cases state <;> rfl
  · cases state <;> cases desk <;> simp [Seat.inRoom, Seat.binds]

theorem desksInStatus_eq (s : State) (m : Fin 4) (st : DeskStatus) : s.desksInStatus m st =
    (s.seats.filter (fun y => y.2.binds.map Prod.fst == some m && y.2.deskStatus == st)).length := by
  simp only [State.desksInStatus, inRoom_binds]

theorem seatsInState_eq (s : State) (m : Fin 4) (st : SeatState) : s.seatsInState m st =
    (s.seats.filter (fun y => y.2.place.map SeatPlace.room == some m && y.2.state == st)).length := by
  simp only [State.seatsInState, inRoom_eq]

theorem roomBytes_eq (s : State) (m : Fin 4) :
    s.roomBytes m = beFlag s.rooms[m].enabled ++ be1 s.rooms[m].separation.code ++ be1 s.rooms[m].fill.code ++
      beOpt (fun (r : DoorRefusal) => be4 r.number ++ be1 r.reason.code ++ be3 r.time) s.rooms[m].lastRefusal ++
      beOpt (fun (w : WrongSeat) => s.seatBytes w.seat ++ be4 w.number ++ be3 w.time) s.rooms[m].lastWrongSeat ++
      [SeatState.outOfUse, .free, .held, .occupied, .vacated].flatMap (fun st =>
        be2 (s.seats.filter (fun y => y.2.place.map SeatPlace.room == some m && y.2.state == st)).length) ++
      [DeskStatus.unbound, .unknown, .present, .lost].flatMap (fun st =>
        be1 (s.seats.filter (fun y => y.2.binds.map Prod.fst == some m && y.2.deskStatus == st)).length) := by
  simp only [State.roomBytes, seatsInState_eq, desksInStatus_eq, List.flatMap_cons, List.flatMap_nil,
    List.append_nil, ← List.append_assoc]
  rfl

theorem segment_bytes (g : Segment) : g.bytes =
    be1 g.line.code ++ beOpt be1 (match g.line with | .awaiting a => some a | _ => none) ++
      beFlag g.timeDue ++ beFlag g.doorSampled ++ be1 g.rotation ++ be1 g.postStatus.code ++ be1 g.postMiss ++
      beList (fun e => be1 e.address ++ be1 e.content.kind.code ++ e.content.bytes) g.queue := by
  unfold Segment.bytes
  cases g.line <;> rfl

/-! ### The keys -/

/-- The number of questions 1..Q that a store in canonical form defines (R131). -/
theorem definedCount_eq {v : KeySlot} (h : tableSorted v.entries = true) : v.definedCount =
    ((List.range' 1 v.header.q).filter (fun q => (tableFind v.entries q).isSome)).length := by
  have hkeys := tableSorted_filter v.entries (fun x => decide (1 ≤ x.1) && decide (x.1 ≤ v.header.q)) h
  simp only [tableSorted, decide_eq_true_eq] at hkeys
  rw [KeySlot.definedCount, ← List.length_map (f := Prod.fst)]
  refine List.Perm.length_eq ((List.perm_ext_iff_of_nodup (hkeys.imp Nat.ne_of_lt)
    ((List.nodup_range' (step := 1)).filter _)).2 fun q => ?_)
  simp only [List.mem_map, List.mem_filter, List.mem_range'_1, Option.isSome_iff_exists, tableFind_iff_mem h,
    Bool.and_eq_true, decide_eq_true_eq]
  constructor
  · rintro ⟨⟨_, e⟩, ⟨he, hq⟩, rfl⟩
    exact ⟨by omega, e, he⟩
  · rintro ⟨hq, e, he⟩
    exact ⟨(q, e), ⟨he, by omega⟩, rfl⟩

/-- The lowest undefined question is the first that is found (R131). -/
theorem lowestFrom_eq_find (p : Nat → Bool) (f i : Nat) : lowestFrom p f i = (List.range' i f).find? p := by
  induction f generalizing i with
  | zero => rfl
  | succ f ih =>
    rw [List.range'_succ, List.find?_cons, lowestFrom, ih]
    cases p i <;> rfl

theorem stateBytes_of_derived {v : KeySlot} {d : KeyDerived} (h : v.state ∈ [KeyState.sealed_, .released])
    (hd : v.derived = some d) : v.stateBytes = v.header.bytes ++ be1 d.pages ++ d.totals.toList.flatMap be2 ++
      d.maxima.toList.flatMap be2 ++ be2 d.smax := by
  rw [List.mem_pair] at h
  obtain h | h := h <;> simp only [KeySlot.stateBytes, h, hd]

/-! ### The intake -/

theorem verdict_bytes : Verdict.bytes = fun v => match v with
    | .accept => be1 1 | .acceptReview => be1 2 | .reject why => be1 3 ++ be1 why.code | .cleared => be1 4 := by
  funext v
  cases v <;> rfl

theorem sheetBuffer_bytes (b : SheetBuffer) : b.bytes =
    be1 b.state.code ++ beOpt be1 (b.held b.number) ++ beOpt be3 (b.held b.serial) ++ beOpt be1 (b.held b.page) ++
      beOpt be1 (b.held b.rows.length) ++ beOpt (fun f => be1 (SheetForm.code f)) b.form ++
      beOpt (fun (v : Verdict) => match v with
        | .accept => be1 1 | .acceptReview => be1 2 | .reject why => be1 3 ++ be1 why.code | .cleared => be1 4)
        b.verdict := by
  rw [SheetBuffer.bytes, verdict_bytes]

/-! ### The attention unit -/

/-- Six bits as `groupSet` puts them in a byte. -/
theorem sixBits (b0 b1 b2 b3 b4 b5 : Bool) (w : Byte)
    (hw : w = ((if b0 then 1 else 0 : Nat) : Byte) ||| ((if b1 then 2 else 0 : Nat) : Byte) |||
      ((if b2 then 4 else 0 : Nat) : Byte) ||| ((if b3 then 8 else 0 : Nat) : Byte) |||
      ((if b4 then 16 else 0 : Nat) : Byte) ||| (if b5 then 32 else 0)) :
    w.toNat < 64 ∧ w.getLsbD 0 = b0 ∧ w.getLsbD 1 = b1 ∧ w.getLsbD 2 = b2 ∧ w.getLsbD 3 = b3 ∧ w.getLsbD 4 = b4 ∧
      w.getLsbD 5 = b5 := by
  subst hw
  revert b0 b1 b2 b3 b4 b5
  decide

/-- Group i stands in bit i of a set of groups (R174). -/
theorem groupSet_bits (test : Group → Bool) (gs : Vector Group 6) :
    (groupSet test gs).toNat < 64 ∧ ∀ i : Fin 6, (groupSet test gs).getLsbD i.val = test gs[i] := by
  obtain ⟨hlt, h0, h1, h2, h3, h4, h5⟩ :=
    sixBits (test gs[0]) (test gs[1]) (test gs[2]) (test gs[3]) (test gs[4]) (test gs[5]) (groupSet test gs) rfl
  refine ⟨hlt, fun i => ?_⟩
  match i with
  | 0 => exact h0
  | 1 => exact h1
  | 2 => exact h2
  | 3 => exact h3
  | 4 => exact h4
  | 5 => exact h5

end Sys2Proof.Machine
end

