-- ==== Sys2Proof/Proofs/Answers.lean ====
section
/-! The answers of the reads (O21): the rules of `Reads`, and the layouts of `Layouts`. A layout that is its definition
is closed by `rfl`. -/

namespace Sys2Proof.Machine

/-- The layouts of a candidate record, its chain entry, the roll and a result (R3, R12, R13, R161). -/
theorem rollLayouts (s : State) (j x : Nat) (c : Candidate) :
    (∀ p, (s.seat x).place = some p → s.seatBytes x = SeatCopy.bytes ⟨x, p.room, p.row, p.column⟩) ∧
    ((s.seat x).place = none → s.seatBytes x = be2 x) ∧
    (s.cand j = some c →
      s.chainEntryBytes j = be1 c.sitting.val ++ be1 c.state.code ++ be2 j ++ beFlag c.flags.clash) ∧
    s.resultBytes j c = be1 c.state.code ++ c.acc.bytes ++ beOpt ResultRecord.bytes c.result ++
      beList markedBytes ((s.boundScripts j).filter (fun y => y.2.state == .marked)) ++
      beOpt be1 (if s.keys[c.sitting].state ∈ [KeyState.sealed_, .released] then
        some ((s.keys[c.sitting].derived.map KeyDerived.pages).getD 0) else none) := by
  refine ⟨fun p hp => ?_, fun hp => ?_, fun h => ?_, ?_⟩
  · simp only [State.seatBytes, State.seatCopy, hp, Option.map_some]
  · simp only [State.seatBytes, State.seatCopy, hp, Option.map_none]
  · simp only [State.chainEntryBytes, h]
  · rw [State.resultBytes, sealedPages_eq]
    rfl

theorem sitting_bytes (g : Sitting) : g.bytes =
    be1 g.state.code ++ be3 g.t0 ++ be2 g.r ++ be2 g.w ++ be2 g.l ++ be2 g.aw ++ be2 g.e1 ++ be2 g.e2 ++ be2 g.v ++
      be1 g.rooms.length ++ (g.rooms.map (fun (m : Fin 4) => BitVec.ofNat 8 m.val) ++ [0, 0, 0, 0]).take 4 ++
      be1 ((if g.hold.hall then 1 else 0) + if g.hold.sitting then 2 else 0) ++ be3 g.h ++ be3 g.e ++
      if g.state ∈ [SittingState.unscheduled, .scheduled] then []
        else be3 g.baseEnd ++ beFlag g.admissionOpen ++ openingBytes g := by
  rw [Sitting.bytes, roomListBytes, holdSources_bytes, laterBytes_eq]
  simp only [List.append_assoc]

theorem loadingBytes {v : KeySlot} (h : v.state = .loading) (ht : tableSorted v.entries = true) : v.stateBytes =
    v.header.bytes ++ be1 ((List.range' 1 v.header.q).filter (fun q => (tableFind v.entries q).isSome)).length ++
      beOpt be1 ((List.range' 1 v.header.q).find? (fun q => (tableFind v.entries q).isNone)) := by
  simp only [KeySlot.stateBytes, h, KeySlot.loadBytes, KeySlot.lowestUndefined, lowestFrom_eq_find, definedCount_eq ht,
    List.append_assoc]

/-- Settles O21: each read's rule gives the answer of its layout, and each layout is the one that R172 names. -/
theorem readsAnswerTheRecords : Obligations.ReadsAnswerTheRecords := by
  refine ⟨fun s h => readRoll_answers h, fun s h => readHall_answers h, fun s h => readKeys_answers h,
    fun α f => ⟨fun _ => rfl, rfl, fun _ => rfl⟩, fun i => beInt2_eq,
    ⟨rfl, rfl, rfl, rfl, rfl, rfl, rfl, fun _ => rfl, rfl, rfl, rfl, rfl, rfl, rfl, rfl, rfl⟩,
    fun _ _ _ _ => ⟨rfl, rfl, rfl, rfl⟩, ?roll, sitting_bytes, ?hall, segment_bytes,
    fun _ _ _ => ⟨rfl, rfl, rfl⟩, ?keys, ?intake, ?attention, ?fault⟩
  case roll =>
    intro s j x c
    obtain ⟨hplaced, hunplaced, hentry, hresult⟩ := rollLayouts s j x c
    exact ⟨hplaced, hunplaced, rfl, hentry, rollBytes_eq s, hresult⟩
  case hall =>
    rintro s x m v rfl
    refine ⟨?_, roomBytes_eq s m⟩
    rw [State.seatRecordBytes, seatPlace_bytes]
    rfl
  case keys =>
    intro v a w p sec
    exact ⟨fun h => by simp only [KeySlot.stateBytes, h], loadingBytes, fun d => stateBytes_of_derived, rfl, rfl, rfl⟩
  case intake =>
    rintro s b held rfl
    exact ⟨sheetBuffer_bytes b, rfl⟩
  case attention =>
    intro s
    obtain ⟨hpending, hpendingBits⟩ := groupSet_bits Group.pending s.attention
    obtain ⟨henabled, henabledBits⟩ := groupSet_bits Group.enabled s.attention
    exact ⟨_, _, rfl, hpending, henabled, fun i => ⟨hpendingBits i, henabledBits i⟩⟩
  case fault =>
    intro cls detail time more
    exact ⟨rfl, by cases detail <;> rfl⟩

end Sys2Proof.Machine
end

