-- ==== Sys2Proof/Proofs/ClockFrames.lean ====
section
/-! SUPPORT. The hall time and the sitting records, which most operations leave (R21, R23); where a record of a sitting
finishes, the sitting may close (R31), and nothing else of the two changes. -/

namespace Sys2Proof.Machine

variable {s t u : State}

/-- The hall time and the sitting records. -/
def State.clock (s : State) : Nat × Vector Sitting 8 := (s.hallTime, s.sittings)

theorem clock_eq_iff : t.clock = s.clock ↔ t.hallTime = s.hallTime ∧ t.sittings = s.sittings := Prod.mk_inj

/-! ### The updates of the state -/

@[simp] theorem setCand_clock (s : State) (j : Nat) (c : Candidate) : (s.setCand j c).clock = s.clock := rfl
@[simp] theorem eraseCand_clock (s : State) (j : Nat) : (s.eraseCand j).clock = s.clock := rfl
@[simp] theorem setSeat_clock (s : State) (i : Nat) (v : Seat) : (s.setSeat i v).clock = s.clock := rfl
@[simp] theorem setRoom_clock (s : State) (m : Fin 4) (v : RoomRecord) : (s.setRoom m v).clock = s.clock := rfl
@[simp] theorem setSegment_clock (s : State) (m : Fin 4) (g : Segment) : (s.setSegment m g).clock = s.clock := rfl
@[simp] theorem setScript_clock (s : State) (d : Nat) (x : Script) : (s.setScript d x).clock = s.clock := rfl
@[simp] theorem setKey_clock (s : State) (k : Fin 8) (v : KeySlot) : (s.setKey k v).clock = s.clock := rfl
@[simp] theorem setIntake_clock (s : State) (k : Intake) : (s.setIntake k).clock = s.clock := rfl
@[simp] theorem setBuffer_clock (s : State) (b : Fin 4) (v : SheetBuffer) : (s.setBuffer b v).clock = s.clock := rfl
@[simp] theorem setPort_clock (s : State) (p : Port) : (s.setPort p).clock = s.clock := rfl
@[simp] theorem mapScripts_clock (s : State) (f : Script → Script) : (s.mapScripts f).clock = s.clock := rfl
@[simp] theorem raise_clock (s : State) (g : CauseGroup) : (s.raise g).clock = s.clock := rfl
@[simp] theorem setHand_clock (s : State) (h : Option SheetInHand) : ({ s with hand := h } : State).clock = s.clock := rfl

@[simp] theorem reportFault_clock (s : State) (cls : FaultClass) (d : FaultDetail) :
    (s.reportFault cls d).clock = s.clock := by
  unfold State.reportFault
  split <;> rfl

theorem takeInTurn_clock {ι : Type} (is : List ι) (f : ι → State → State)
    (h : ∀ (i : ι) (s : State), (f i s).clock = s.clock) (s : State) : (takeInTurn is f s).clock = s.clock :=
  takeInTurn_invariant (fun t => t.clock = s.clock) is f (fun i t ht => (h i t).trans ht) s rfl

/-! ### What the desks and posts are told -/

theorem State.OnlyDesks.clock (h : s.OnlyDesks t) : t.clock = s.clock := by
  rw [h]
  rfl

@[simp] theorem markStale_clock (i : Nat) (s : State) : (s.markStale i).clock = s.clock := rfl

@[simp] theorem offerDesk_clock (i : Nat) (w : ShowContent) (s : State) : (offerDesk i w s).clock = s.clock :=
  (offerDesk_desks ..).clock

@[simp] theorem offerPost_clock (m : Fin 4) (w : ShowContent) (s : State) : (offerPost m w s).clock = s.clock :=
  (offerPost_desks ..).clock

@[simp] theorem showSeat_clock (i : Nat) (c : Candidate) (s : State) : (showSeat i c s).clock = s.clock :=
  (showSeat_desks ..).clock

@[simp] theorem postSeat_clock (m : Fin 4) (i : Nat) (c : Candidate) (s : State) : (postSeat m i c s).clock = s.clock :=
  (postSeat_desks ..).clock

@[simp] theorem showEnd_clock (c : Candidate) (s : State) : (showEnd c s).clock = s.clock := (showEnd_desks ..).clock

@[simp] theorem showEndOf_clock (j : Nat) (s : State) : (showEndOf j s).clock = s.clock := (showEndOf_desks ..).clock

@[simp] theorem showNotice_clock (c : Candidate) (n : Notice) (s : State) : (showNotice c n s).clock = s.clock :=
  (showNotice_desks ..).clock

@[simp] theorem resyncDesk_clock (i : Nat) (s : State) : (resyncDesk i s).clock = s.clock := (resyncDesk_desks ..).clock

@[simp] theorem kickSegment_clock (m : Fin 4) (s : State) : (kickSegment m s).clock = s.clock := (kickSegment_desks ..).clock

/-! ### Seats, clearance and personal time -/

@[simp] theorem freeSeat_clock (i : Nat) (s : State) : (freeSeat i s).clock = s.clock := rfl

@[simp] theorem takeSeat_clock (i : Nat) (st : SeatState) (j : Nat) (s : State) : (takeSeat i st j s).clock = s.clock := rfl

@[simp] theorem clearRecord_clock (j : Nat) (c : Candidate) (b : Bool) (s : State) :
    (clearRecord j c b s).clock = s.clock := by
  unfold clearRecord
  split <;> simp

@[simp] theorem clearanceTest_clock (j : Nat) (s : State) : (clearanceTest j s).clock = s.clock := by
  unfold clearanceTest
  repeat' split
  all_goals simp

@[simp] theorem submitOnFinish_clock (j : Nat) (s : State) : (submitOnFinish j s).clock = s.clock := by
  unfold submitOnFinish
  repeat' split
  all_goals simp

@[simp] theorem endExpected_clock (st : CandState) (j : Nat) (s : State) : (endExpected st j s).clock = s.clock := by
  unfold endExpected
  repeat' split
  all_goals simp

@[simp] theorem warningTest_clock (j : Nat) (s : State) : (warningTest j s).clock = s.clock := by
  unfold warningTest
  repeat' split
  all_goals simp

@[simp] theorem activate_clock (j : Nat) (s : State) : (activate j s).clock = s.clock := by
  unfold activate
  split <;> simp

@[simp] theorem extendRecord_clock (k : Fin 8) (j : Nat) (s : State) : (extendRecord k j s).clock = s.clock := by
  unfold extendRecord
  split <;> simp

@[simp] theorem accrueRest_clock (before : Vector Sitting 8) (j : Nat) (s : State) :
    (accrueRest before j s).clock = s.clock := by
  unfold accrueRest
  split <;> simp

@[simp] theorem restOver_clock (j : Nat) (s : State) : (restOver j s).clock = s.clock := by
  unfold restOver
  repeat' split
  all_goals simp

@[simp] theorem setResting_clock (st : CandState) (j : Nat) (c : Candidate) (s : State) :
    (setResting st j c s).clock = s.clock := by simp [setResting]

@[simp] theorem announce_clock (door : Option (Fin 4)) (i : Nat) (c : Candidate) (s : State) :
    (announce door i c s).clock = s.clock := by
  unfold announce
  split <;> simp

@[simp] theorem seatRecord_clock (door : Option (Fin 4)) (j : Nat) (c : Candidate) (i : Nat) (s : State) :
    (seatRecord door j c i s).clock = s.clock := by
  unfold seatRecord
  split <;> simp

@[simp] theorem moveRecord_clock (j : Nat) (c : Candidate) (old i : Nat) (s : State) :
    (moveRecord j c old i s).clock = s.clock := by
  have htold : ∀ (c : Candidate) (s : State), (showMovedEnd c s).clock = s.clock := by
    intro c s
    unfold showMovedEnd
    split <;> simp
  simp [moveRecord, htold]

@[simp] theorem unknownDesks_clock (m : Fin 4) (s : State) : (unknownDesks m s).clock = s.clock := rfl

@[simp] theorem followEnabled_clock (m : Fin 4) (was now : Bool) (s : State) :
    (followEnabled m was now s).clock = s.clock := by
  unfold followEnabled
  split <;> simp [startSegment, stopSegment]

/-! ### The desks, the posts and the doors -/

@[simp] theorem deskRest_clock (i : Nat) (b : Bool) (s : State) : (deskRest i b s).clock = s.clock := by
  unfold deskRest deskRestBegin deskRestEnd
  repeat' split
  all_goals simp

@[simp] theorem custodyRefused_clock (d : Nat) (why : CustodyReason) (m : Fin 4) (a : Nat) (s : State) :
    (s.custodyRefused d why m a).clock = s.clock := rfl

@[simp] theorem deskSlot_clock (i d : Nat) (s : State) : (deskSlot i d s).clock = s.clock := by
  unfold deskSlot deskIssue State.deskIssueRefused
  repeat' split
  all_goals simp

@[simp] theorem collect_clock (m : Fin 4) (d : Nat) (s : State) : (collect m d s).clock = s.clock := by
  unfold collect collectSeat refuseCollect
  repeat' split
  all_goals simp

@[simp] theorem doorTap_clock (m : Fin 4) (n : Nat) (s : State) : (doorTap m n s).clock = s.clock := by
  unfold doorTap doorRefused
  repeat' split
  all_goals simp

@[simp] theorem deskTap_clock (i n : Nat) (s : State) : (deskTap i n s).clock = s.clock := by
  unfold deskTap confirmSeat wrongSeat
  repeat' split
  all_goals simp

@[simp] theorem deskHand_clock (i : Nat) (up : Bool) (s : State) : (deskHand i up s).clock = s.clock := by
  unfold deskHand
  split <;> simp

@[simp] theorem missed_clock (m : Fin 4) (a : Nat) (failed : Bool) (s : State) : (missed m a failed s).clock = s.clock := by
  have hcount : ∀ s, (countMiss m a s).clock = s.clock := by
    intro s
    unfold countMiss postMiss deskMiss
    dsimp only
    repeat' split
    all_goals simp
  have hreport : ∀ lost s, (reportMiss m a lost failed s).clock = s.clock := by
    intro lost s
    unfold reportMiss reportLost
    repeat' split
    all_goals simp
  unfold missed
  exact (hreport _ _).trans (hcount _)

@[simp] theorem deskAnswered_clock (i : Nat) (s : State) : (deskAnswered i s).clock = s.clock := by
  unfold deskAnswered
  split <;> simp

@[simp] theorem postAnswered_clock (m : Fin 4) (s : State) : (postAnswered m s).clock = s.clock := by
  unfold postAnswered
  split <;> simp

@[simp] theorem deliverPost_clock (m : Fin 4) (e : DeskEvent) (s : State) : (deliverPost m e s).clock = s.clock := by
  cases e <;> simp [deliverPost]

@[simp] theorem discardEvent_clock (e : DeskEvent) (s : State) : (discardEvent e s).clock = s.clock := by
  cases e <;> simp [discardEvent]

@[simp] theorem setDoorWire_clock (m : Fin 4) (door : Bool) (s : State) : (setDoorWire m door s).clock = s.clock := rfl

@[simp] theorem endExchange_clock (m : Fin 4) (s : State) : (endExchange m s).clock = s.clock := rfl

@[simp] theorem endWindow_clock (m : Fin 4) (s : State) : (endWindow m s).clock = s.clock := rfl

/-! ### The sheet intake, the mark engine and the traffic clear -/

@[simp] theorem rejectSheet_clock (b : Fin 4) (why : RejectReason) (s : State) : (rejectSheet b why s).clock = s.clock := rfl

@[simp] theorem settleFrom_clock (order : List (Fin 4)) (s : State) : (settleFrom order s).clock = s.clock := by
  rw [settleFrom_eq]
  rfl

@[simp] theorem intakeChanged_clock (s : State) : (intakeChanged s).clock = s.clock := by simp [intakeChanged, settle]

@[simp] theorem closeMalformed_clock (next : ReceiveState) (s : State) : (closeMalformed next s).clock = s.clock := by
  unfold closeMalformed
  split <;> simp

@[simp] theorem badScannerFrame_clock (s : State) : (badScannerFrame s).clock = s.clock := by
  unfold badScannerFrame closingFrame
  split <;> simp

theorem scannerFrame_clock {f : State → State} (h : ∀ s : State, (f s).clock = s.clock) (s : State) :
    (scannerFrame f s).clock = s.clock := by
  unfold scannerFrame
  split
  · rfl
  · exact h s

theorem sheetBegin_clock (serial page c1 c2 c3 c4 : Nat) (s : State) :
    (sheetBegin serial page c1 c2 c3 c4 s).clock = s.clock := by
  refine scannerFrame_clock (fun s => ?_) s
  unfold beginSheet
  repeat' split
  all_goals simp

theorem sheetRow_clock (n : Nat) (r : RowReading) (s : State) : (sheetRow n r s).clock = s.clock := by
  refine scannerFrame_clock (fun s => ?_) s
  unfold fillRow fillBuffer closingFrame
  repeat' split
  all_goals simp

theorem sheetEnd_clock (count : Nat) (s : State) : (sheetEnd count s).clock = s.clock := by
  refine scannerFrame_clock (fun s => ?_) s
  unfold endSheet closeWellFormed closingFrame
  repeat' split
  all_goals simp

theorem sheetGapTimeout_clock (s : State) : (sheetGapTimeout s).clock = s.clock := by
  unfold sheetGapTimeout closingFrame
  split <;> simp

theorem beginAnswerSent_clock (s : State) : (beginAnswerSent s).clock = s.clock := by
  unfold beginAnswerSent
  split <;> simp

theorem verdictSent_clock (s : State) : (verdictSent s).clock = s.clock := by
  unfold verdictSent
  split <;> simp

theorem portResetSent_clock (s : State) : (portResetSent s).clock = s.clock := by
  unfold portResetSent
  split <;> simp

theorem markingComplete_clock (s : State) : (markingComplete s).clock = s.clock := by
  have hscript : ∀ h y s, (markScript h y s).clock = s.clock := by
    intro h y s
    unfold markScript
    split <;> simp
  have hcandidate : ∀ h y s, (markCandidate h y s).clock = s.clock := by
    intro h y s
    unfold markCandidate
    dsimp only
    repeat' split
    all_goals simp
  have hdecide : ∀ h y s, (decideMarked h y s).clock = s.clock := by
    intro h y s
    unfold decideMarked
    split <;> simp
  unfold markingComplete completeMarking
  split <;> simp [hscript, hcandidate, hdecide]

@[simp] theorem clearTraffic_clock (s : State) : (clearTraffic s).1.clock = s.clock := by
  have habandon : ∀ s, (abandonMarking s).clock = s.clock := by
    intro s
    unfold abandonMarking
    repeat' split
    all_goals rfl
  have hintake : ∀ s, (clearIntake s).clock = s.clock := fun s => habandon s
  have hsegments : ∀ s, (takeInTurn four clearSegment s).clock = s.clock :=
    takeInTurn_clock four clearSegment fun m s => by simp [clearSegment]; rfl
  exact (hintake _).trans (hsegments s)

end Sys2Proof.Machine
end

