-- ==== Sys2Proof/Proofs/Conserved.lean ====
section
/-! SUPPORT. What the station's line does to the records (R163 to R171): it writes the port, reports faults, and hands
requests to their owners. A condition that these three keep is kept by every request and every event of the line. -/

namespace Sys2Proof.Machine

variable {s t : State}

/-- A condition that no write to the port, no fault report and no owner's rule breaks. -/
structure Conserved (P : State → Prop) : Prop where
  port : ∀ (p : Port) (s : State), P s → P (s.setPort p)
  fault : ∀ (cls : FaultClass) (d : FaultDetail) (s : State), P s → P (s.reportFault cls d)
  owner : ∀ {i : Instr} {op : Owner}, ownerRule i = some op → ∀ s, P s → P (op s).1

/-- The events of the station's line (R163, R166, R167, R169, R171). -/
def ofLine : Instr → Bool
  | .stationFrame _ | .checkFail | .frameSilence | .huntingQuiet | .lineBreak | .assemblyTimeout | .answerSent => true
  | _ => false

namespace Conserved

variable {P : State → Prop}

theorem completed (h : Conserved P) (hs : P s) : P (completeAssembly s) := by
  have answered : ∀ st u, P u → P (ownAnswer st u) := fun st u => h.port _ u
  have begun := fun p => h.port p s hs
  unfold completeAssembly carryOut
  split
  · exact answered _ _ (begun _)
  · split
    · exact answered _ _ (begun _)
    · exact answered _ _ (begun _)
    · split
      · next ho => exact h.port _ _ (h.owner ho _ (begun _))
      · exact answered _ _ (begun _)

theorem received (h : Conserved P) (first last : Bool) (payload : List Byte) (hs : P s) :
    P (receivedFrame first last payload s) := by
  have joined : ∀ u, P u → P (assemble last payload u) := by
    intro u hu
    unfold assemble
    split
    · exact h.completed (h.port _ u hu)
    · exact h.port _ u hu
  have stray : P (strayFrame last s) := by
    unfold strayFrame
    repeat' split
    · exact h.port _ s hs
    · exact hs
    · exact h.port _ s hs
  unfold receivedFrame
  split
  · exact joined _ (h.port _ s hs)
  · exact joined _ (h.port _ s hs)
  · exact h.port _ s hs
  · exact joined s hs
  · exact stray
  · exact stray

theorem byte (h : Conserved P) (b : Byte) (hs : P s) : P (receiveByte b s) := by
  have failed : ∀ u, P u → P (failedFrame u) := fun u hu => h.fault _ _ _ (h.port _ u hu)
  have whole : ∀ control payload checked u, P u → P (wholeFrame control payload checked u) := by
    intro control payload checked u hu
    unfold wholeFrame
    repeat' split
    · exact failed u hu
    · exact failed u hu
    · exact h.received _ _ _ hu
  have arrived : ∀ got, P (frameBytes got s) := by
    intro got
    unfold frameBytes
    repeat' split
    · exact h.port _ _ (failed s hs)
    · exact whole _ _ _ _ (h.port _ s hs)
    · exact h.port _ s hs
    · exact h.port _ s hs
  unfold receiveByte
  split
  · exact arrived _
  · exact arrived _
  · exact hs

theorem whileRunning {f : State → State} (hf : P (f s)) (hs : P s) (he : whileRunning f s = .next t) : P t := by
  unfold Machine.whileRunning at he
  split at he <;> cases he
  · exact hf
  all_goals exact hs

/-- An event of the line. -/
theorem line (h : Conserved P) {i : Instr} (hi : ofLine i = true) (hs : P s) (he : exec i s = .next t) : P t := by
  cases i <;> simp only [ofLine, Bool.false_eq_true] at hi
  case answerSent => exact whileRunning (f := fun t => t.setPort t.port.answerSent) (h.port _ s hs) hs he
  all_goals refine whileRunning ?_ hs he
  case stationFrame bytes => exact takeInTurn_invariant P bytes receiveByte (fun b u hu => h.byte b hu) s hs
  case checkFail => exact h.fault _ _ _ (h.port _ _ (h.port _ s hs))
  case frameSilence => unfold frameSilence; split <;> first | exact hs | exact h.port _ s hs
  case huntingQuiet => unfold huntingQuiet; split <;> first | exact hs | exact h.port _ s hs
  case lineBreak => exact h.port _ s hs
  case assemblyTimeout =>
    unfold assemblyTimeout
    split
    · exact h.fault _ _ _ (h.port _ s hs)
    · exact hs

/-- A request, whether the part runs or is held in a reset. -/
theorem request (h : Conserved P) {i : Instr} {op : Owner} (ho : ownerRule i = some op) (hs : P s)
    (he : exec i s = .next t) : P t := by
  have hrow : exec i s = requestRow i op s := by
    cases i <;> simp only [ownerRule, Option.some.injEq, reduceCtorEq] at ho <;> subst ho <;> rfl
  rw [hrow] at he
  exact whileRunning (h.port _ _ (h.owner ho _ (h.port _ s hs))) hs he

end Conserved

end Sys2Proof.Machine
end

