-- ==== Sys2Proof/Proofs/SittingSecond.lean ====
section
/-! SUPPORT. The sitting records through a hall second (R27 to R31, R38): each sitting takes the second by itself, and a
sitting that is CLOSING may close as a record of it finishes (R31). -/

namespace Sys2Proof.Machine

variable {s t u : State} {g g' g'' : Sitting} {k : Fin 8}

/-! ### A sitting record that is written -/

theorem sitting_set (v : Vector Sitting 8) (k i : Fin 8) (g : Sitting) :
    (v.set k g)[i] = if i = k then g else v[i] := by
  by_cases h : i = k
  · subst h
    simp
  · have : k.val ≠ i.val := fun e => h (Fin.ext e.symm)
    simp [h, this]

theorem setSitting_same (s : State) (k : Fin 8) : s.setSitting k s.sittings[k] = s := by simp [State.setSitting]

theorem setSitting_setSitting (s : State) (k : Fin 8) (g g' : Sitting) :
    (s.setSitting k g).setSitting k g' = s.setSitting k g' := by
  unfold State.setSitting
  congr 1
  exact Vector.ext fun i hi => by by_cases h : k.val = i <;> simp [h]

/-! ### A sitting that closes (R31) -/

/-- A sitting record as the sitting closes (R31). -/
def Sitting.closed (g : Sitting) : Sitting := { g with state := .closed, hold := ⟨false, false⟩ }

/-- A sitting record is as before, or it was CLOSING and the sitting has closed (R31). -/
def Sitting.MayClose (g h : Sitting) : Prop := h = g ∨ (g.state = .closing ∧ h = g.closed)

theorem Sitting.MayClose.refl (g : Sitting) : g.MayClose g := .inl rfl

theorem Sitting.MayClose.trans (h : g.MayClose g') (h' : g'.MayClose g'') : g.MayClose g'' := by
  rcases h with rfl | ⟨hg, rfl⟩
  · exact h'
  · rcases h' with rfl | ⟨hg', -⟩
    · exact .inr ⟨hg, rfl⟩
    · cases hg'

theorem Sitting.MayClose.timetable (h : g.MayClose g') : g'.timetable = g.timetable := by
  rcases h with rfl | ⟨-, rfl⟩ <;> rfl

/-- The clock is as before, but that CLOSING sittings may have closed. -/
structure State.Closes (s t : State) : Prop where
  hallTime : t.hallTime = s.hallTime
  sitting : ∀ k : Fin 8, s.sittings[k].MayClose t.sittings[k]

theorem State.Closes.of_clock (h : t.clock = s.clock) : s.Closes t := by
  obtain ⟨hh, hs⟩ := clock_eq_iff.1 h
  exact ⟨hh, fun k => by rw [hs]; exact .refl _⟩

theorem State.Closes.refl (s : State) : s.Closes s := .of_clock rfl

theorem State.Closes.trans (h : s.Closes t) (h' : t.Closes u) : s.Closes u :=
  ⟨h'.hallTime.trans h.hallTime, fun k => (h.sitting k).trans (h'.sitting k)⟩

theorem takeInTurn_closes {ι : Type} (is : List ι) (f : ι → State → State) (h : ∀ (i : ι) (s : State), s.Closes (f i s))
    (s : State) : s.Closes (takeInTurn is f s) :=
  takeInTurn_invariant (fun t => s.Closes t) is f (fun i t ht => ht.trans (h i t)) s (.refl s)

theorem releaseKey_clock (k : Fin 8) (s : State) : (releaseKey k s).clock = s.clock := by
  unfold releaseKey
  split <;> rfl

theorem closeSitting_clock (k : Fin 8) (s : State) :
    (closeSitting k s).clock = (s.setSitting k s.sittings[k].closed).clock := by
  unfold closeSitting
  rw [raise_clock, releaseKey_clock]
  rfl

/-- What the test for a close does to the clock: nothing, or the CLOSING sitting closes (R31). -/
theorem closingTest_cases (k : Fin 8) (s : State) :
    closingTest k s = s ∨
      (s.sittings[k].state = .closing ∧ (closingTest k s).clock = (s.setSitting k s.sittings[k].closed).clock) := by
  unfold closingTest
  split
  · next h => exact .inr ⟨h.1, closeSitting_clock k s⟩
  · exact .inl rfl

theorem closingTest_closes (k : Fin 8) (s : State) : s.Closes (closingTest k s) := by
  rcases closingTest_cases k s with h | ⟨hg, h⟩
  · rw [h]
    exact .refl s
  · obtain ⟨hh, hs⟩ := clock_eq_iff.1 h
    refine ⟨hh, fun i => ?_⟩
    rw [hs, State.setSitting_sittings, sitting_set]
    split
    · next hi =>
      subst hi
      exact .inr ⟨hg, rfl⟩
    · exact .refl _

/-- The test for a close leaves every other sitting. -/
theorem closingTest_other {i : Fin 8} (h : i ≠ k) (s : State) : (closingTest k s).sittings[i] = s.sittings[i] := by
  rcases closingTest_cases k s with hc | ⟨-, hc⟩
  · rw [hc]
  · rw [(clock_eq_iff.1 hc).2, State.setSitting_sittings, sitting_set, if_neg h]

theorem closingTest_of_not_closing (h : s.sittings[k].state ≠ .closing) : closingTest k s = s := by
  unfold closingTest
  exact if_neg fun e => h e.1

theorem finish_closes (why : FinishCause) (j : Nat) (s : State) : s.Closes (finish why j s) := by
  unfold finish
  split
  · exact .refl s
  · exact State.Closes.trans (.of_clock (by simp)) (closingTest_closes ..)

theorem closeAdmission_closes (k : Fin 8) (s : State) : s.Closes (closeAdmission k s) := by
  unfold closeAdmission
  split
  · exact .refl s
  · exact .trans (.of_clock (takeInTurn_clock _ _ (endExpected_clock _) s))
      (.trans (closingTest_closes k _) (.of_clock (raise_clock ..)))

/-- The admission close leaves every other sitting. -/
theorem closeAdmission_other {i : Fin 8} (h : i ≠ k) (s : State) : (closeAdmission k s).sittings[i] = s.sittings[i] := by
  have hended := (clock_eq_iff.1 (takeInTurn_clock (s.expectedOf k) _ (endExpected_clock .absent) s)).2
  unfold closeAdmission
  split
  · rfl
  · exact (closingTest_other h _).trans (by rw [hended])

/-- An admission that closes in a sitting that is not CLOSING leaves the clock. -/
theorem closeAdmission_clock (h : s.sittings[k].state ≠ .closing) : (closeAdmission k s).clock = s.clock := by
  have hclock := takeInTurn_clock (s.expectedOf k) _ (endExpected_clock .absent) s
  unfold closeAdmission
  split
  · rfl
  · rw [raise_clock, closingTest_of_not_closing (by rw [(clock_eq_iff.1 hclock).2]; exact h), hclock]

theorem recordSecond_closes (before : Vector Sitting 8) (j : Nat) (s : State) : s.Closes (recordSecond before j s) := by
  have reached : ∀ u : State, u.Closes (reachEnd j u) := by
    intro u
    unfold reachEnd
    split
    · exact .refl u
    · split
      · exact finish_closes ..
      · exact .of_clock (by simp)
  exact .trans (.of_clock (by simp)) (reached _)

theorem recordDayEnd_closes (before : Vector Sitting 8) (j : Nat) (s : State) : s.Closes (recordDayEnd before j s) :=
  .trans (.of_clock (by simp)) (finish_closes .dayEnd j (restOver j (accrueRest before j s)))

/-! ### A sitting that takes a hall second (R27 to R30) -/

/-- A sitting whose admission opens at a hall time (R28). -/
def Sitting.opened (now : Nat) (g : Sitting) : Sitting :=
  if g.state = .scheduled ∧ now + g.aw = g.t0 then { g with state := .admitting, hold := ⟨false, false⟩, h := 0, e := 0 }
  else g

/-- A sitting that starts its clock at a hall time (R29). -/
def Sitting.begun (now : Nat) (hallHold : Bool) (g : Sitting) : Sitting :=
  if g.state = .admitting ∧ now = g.t0 then g.started hallHold else g

/-- A READING sitting whose e has reached R is WRITING (R30). -/
def Sitting.reached (g : Sitting) : Sitting := if g.state = .reading ∧ g.r ≤ g.e then { g with state := .writing } else g

/-- A WRITING sitting whose e has reached R + W is CLOSING (R30). -/
def Sitting.ended (g : Sitting) : Sitting :=
  if g.state = .writing ∧ g.r + g.w ≤ g.e then { g with state := .closing } else g

/-- A sitting after a hall second, but for its close (R27 to R30). -/
def Sitting.taken (moved : Bool) (now : Nat) (hallHold : Bool) (g : Sitting) : Sitting :=
  if g.running then g.accrue.reached.ended else if moved then (g.opened now).begun now hallHold else g

theorem accrual_none_iff (g : Sitting) : g.accrual = .none ↔ g.running = false := by
  unfold Sitting.accrual
  cases g.running <;> cases g.held <;> simp

theorem openAdmission_eq (k : Fin 8) (s : State) : openAdmission k s = s.setSitting k (s.sittings[k].opened s.hallTime) := by
  unfold openAdmission Sitting.opened
  split
  · rfl
  · exact (setSitting_same s k).symm

theorem moveToWriting_eq (k : Fin 8) (s : State) : moveToWriting k s = s.setSitting k s.sittings[k].reached := by
  unfold moveToWriting Sitting.reached
  split
  · rfl
  · exact (setSitting_same s k).symm

/-- The start of a sitting: its SEATED records become ACTIVE, and its admission may close at once (R29). -/
theorem beginSitting_clock (k : Fin 8) (s : State) :
    (beginSitting k s).clock = (s.setSitting k (s.sittings[k].started s.holdFilter.filtered)).clock := by
  have hclock := takeInTurn_clock (s.seatedOf k) activate activate_clock
    (s.setSitting k (s.sittings[k].started s.holdFilter.filtered))
  unfold beginSitting
  dsimp only
  split
  · rw [closeAdmission_clock, hclock]
    rw [(clock_eq_iff.1 hclock).2, setSitting_self]
    unfold Sitting.started
    dsimp only
    split <;> simp
  · exact hclock

theorem startSitting_clock (k : Fin 8) (s : State) : (startSitting k s).clock =
    (s.setSitting k (s.sittings[k].begun s.hallTime s.holdFilter.filtered)).clock := by
  unfold startSitting Sitting.begun
  split
  · exact beginSitting_clock k s
  · rw [setSitting_same]

theorem accrue_state (g : Sitting) : g.accrue.state = g.state := by
  unfold Sitting.accrue
  split <;> rfl

theorem reached_state_ne_closing (h : g.state ≠ .closing) : g.reached.state ≠ .closing := by
  unfold Sitting.reached
  split
  · simp
  · exact h

/-- The admission close of a hall second leaves the clock (R30). -/
theorem reachAdmissionClose_clock {before : Sitting} (h : before.state ≠ .closing → s.sittings[k].state ≠ .closing) :
    (reachAdmissionClose k before s).clock = s.clock := by
  unfold reachAdmissionClose
  split
  · next hb => exact closeAdmission_clock (h hb.2.1)
  · rfl

/-- A running sitting after its second, before it is tested for its close: its admission may have closed. -/
def agedSitting (k : Fin 8) (s : State) : State :=
  reachAdmissionClose k s.sittings[k] (s.setSitting k s.sittings[k].accrue.reached)

theorem agedSitting_clock (k : Fin 8) (s : State) :
    (agedSitting k s).clock = (s.setSitting k s.sittings[k].accrue.reached).clock :=
  reachAdmissionClose_clock fun h => by
    rw [setSitting_self]
    exact reached_state_ne_closing (by rwa [accrue_state])

theorem sittingSecond_running (hr : s.sittings[k].running = true) (moved : Bool) :
    sittingSecond moved k s = moveToClosing k (agedSitting k s) := by
  have hne : s.sittings[k].accrual ≠ .none := fun h => Bool.false_ne_true (((accrual_none_iff _).1 h).symm.trans hr)
  unfold sittingSecond agedSitting
  rw [moveToWriting_eq, setSitting_self, setSitting_setSitting]
  cases h : s.sittings[k].accrual
  · exact absurd h hne
  all_goals rfl

theorem sittingSecond_idle (hr : s.sittings[k].running = false) (moved : Bool) :
    sittingSecond moved k s =
      if moved then startSitting k (s.setSitting k (s.sittings[k].opened s.hallTime)) else s := by
  unfold sittingSecond
  rw [(accrual_none_iff _).2 hr, openAdmission_eq]

/-- A sitting that takes a second leaves the hall time and every other sitting, and it may close where it is then
CLOSING. -/
theorem sittingSecond_clock (moved : Bool) (k : Fin 8) (s : State) :
    (sittingSecond moved k s).hallTime = s.hallTime ∧
    ∃ g, (s.sittings[k].taken moved s.hallTime s.holdFilter.filtered).MayClose g ∧
      (sittingSecond moved k s).sittings = s.sittings.set k g := by
  unfold Sitting.taken
  cases hr : s.sittings[k].running with
  | false =>
    rw [sittingSecond_idle hr]
    cases moved with
    | false => exact ⟨rfl, s.sittings[k], .refl _, by simp⟩
    | true =>
      obtain ⟨hh, hg⟩ := clock_eq_iff.1 (startSitting_clock k (s.setSitting k (s.sittings[k].opened s.hallTime)))
      rw [setSitting_setSitting] at hh hg
      exact ⟨hh, _, .refl _, by simpa using hg⟩
  | true =>
    rw [sittingSecond_running hr]
    obtain ⟨hh, hg⟩ := clock_eq_iff.1 (agedSitting_clock k s)
    have hk : (agedSitting k s).sittings[k] = s.sittings[k].accrue.reached := by rw [hg, setSitting_self]
    unfold moveToClosing Sitting.ended
    rw [hk]
    split
    · next hend =>
      rw [if_pos rfl]
      rcases closingTest_cases k ((agedSitting k s).setSitting k { s.sittings[k].accrue.reached with state := .closing })
        with hc | ⟨-, hc⟩
      · rw [hc]
        exact ⟨hh, _, .refl _, by simp [hg]⟩
      · obtain ⟨hh', hg'⟩ := clock_eq_iff.1 hc
        rw [setSitting_setSitting, setSitting_self] at hg'
        exact ⟨hh'.trans hh, _, .inr ⟨rfl, rfl⟩, by simpa [hg] using hg'⟩
    · rw [if_pos rfl]
      exact ⟨hh, _, .refl _, hg⟩

/-! ### The day end of a sitting (R38) -/

/-- A sitting after its day end, but for its close (R38). -/
def Sitting.stopped (g : Sitting) : Sitting :=
  if g.running then { g with state := .closing, hold := ⟨false, false⟩ } else g

theorem dayEndSitting_clock (k : Fin 8) (s : State) : (dayEndSitting k s).hallTime = s.hallTime ∧
    s.sittings[k].stopped.MayClose (dayEndSitting k s).sittings[k] ∧
    ∀ i, i ≠ k → (dayEndSitting k s).sittings[i] = s.sittings[i] := by
  unfold dayEndSitting Sitting.stopped
  split
  · have hset : ∀ i : Fin 8, i ≠ k →
        (s.setSitting k { s.sittings[k] with state := .closing, hold := ⟨false, false⟩ }).sittings[i] = s.sittings[i] :=
      fun i hi => by rw [State.setSitting_sittings, sitting_set, if_neg hi]
    split
    · have hc := (closeAdmission_closes k
        (s.setSitting k { s.sittings[k] with state := .closing, hold := ⟨false, false⟩ })).trans (closingTest_closes k _)
      have hk := hc.sitting k
      rw [setSitting_self] at hk
      exact ⟨hc.hallTime, hk, fun i hi => by rw [closingTest_other hi, closeAdmission_other hi, hset i hi]⟩
    · have hc := closingTest_closes k
        (s.setSitting k { s.sittings[k] with state := .closing, hold := ⟨false, false⟩ })
      have hk := hc.sitting k
      rw [setSitting_self] at hk
      exact ⟨hc.hallTime, hk, fun i hi => by rw [closingTest_other hi, hset i hi]⟩
  · exact ⟨rfl, .refl _, fun _ _ => rfl⟩

/-! ### One of many that are taken in turn -/

/-- Where numbers are taken in turn, one of them is taken once, between changes that those of the others are. -/
theorem takeInTurn_visit {ι : Type} (R : State → State → Prop) (refl : ∀ s, R s s)
    (trans : ∀ {s t u}, R s t → R t u → R s u) {is : List ι} (hn : is.Nodup) {k : ι} (hk : k ∈ is) (f : ι → State → State)
    (h : ∀ i ∈ is, i ≠ k → ∀ s, R s (f i s)) (s : State) : ∃ u, R s u ∧ R (f k u) (takeInTurn is f s) := by
  have others : ∀ l : List ι, (∀ i ∈ l, i ∈ is ∧ i ≠ k) → ∀ s, R s (takeInTurn l f s) := by
    intro l hl
    induction l with
    | nil => exact refl
    | cons i l ih =>
      intro s
      obtain ⟨hi, hik⟩ := hl i List.mem_cons_self
      exact trans (h i hi hik s) (ih (fun a ha => hl a (List.mem_cons_of_mem _ ha)) (f i s))
  obtain ⟨a, b, rfl⟩ := List.append_of_mem hk
  obtain ⟨-, hkb, hab⟩ := List.nodup_append.1 hn
  have hb := (List.nodup_cons.1 hkb).1
  refine ⟨takeInTurn a f s, others a (fun i hi => ⟨by simp [hi], hab i hi k List.mem_cons_self⟩) s, ?_⟩
  have hsplit : takeInTurn (a ++ k :: b) f s = takeInTurn b f (f k (takeInTurn a f s)) := by simp [takeInTurn]
  rw [hsplit]
  exact others b (fun i hi => ⟨by simp [hi], fun e => hb (e ▸ hi)⟩) _

theorem eight_nodup : eight.Nodup := by decide

/-- The hall time, the hold filter and one sitting record are as before. -/
def State.SameSitting (k : Fin 8) (s t : State) : Prop :=
  t.hallTime = s.hallTime ∧ t.holdFilter = s.holdFilter ∧ t.sittings[k] = s.sittings[k]

theorem State.SameSitting.refl (k : Fin 8) (s : State) : s.SameSitting k s := ⟨rfl, rfl, rfl⟩

theorem State.SameSitting.trans (h : s.SameSitting k t) (h' : t.SameSitting k u) : s.SameSitting k u :=
  ⟨h'.1.trans h.1, h'.2.1.trans h.2.1, h'.2.2.trans h.2.2⟩

theorem setSitting_records (k : Fin 8) (g : Sitting) (s : State) : s.OnlyRecords (s.setSitting k g) := rfl

theorem beginSitting_records (k : Fin 8) (s : State) : s.OnlyRecords (beginSitting k s) := by
  have started := (setSitting_records k (s.sittings[k].started s.holdFilter.filtered) s).trans
    (takeInTurn_records (s.seatedOf k) activate activate_records _)
  unfold beginSitting
  dsimp only
  split
  · exact started.trans (closeAdmission_records ..)
  · exact started

theorem sittingSecond_records (moved : Bool) (k : Fin 8) (s : State) : s.OnlyRecords (sittingSecond moved k s) := by
  have aged : s.OnlyRecords (moveToClosing k (agedSitting k s)) := by
    have admitted : s.OnlyRecords (agedSitting k s) := by
      unfold agedSitting reachAdmissionClose
      split
      · exact (setSitting_records k _ s).trans (closeAdmission_records ..)
      · rfl
    unfold moveToClosing
    split
    · exact (admitted.trans (setSitting_records ..)).trans (closingTest_records ..)
    · exact admitted
  cases hr : s.sittings[k].running with
  | true =>
    rw [sittingSecond_running hr]
    exact aged
  | false =>
    rw [sittingSecond_idle hr]
    split
    · unfold startSitting
      split
      · exact (setSitting_records k _ s).trans (beginSitting_records ..)
      · rfl
    · rfl

theorem dayEndSitting_records (k : Fin 8) (s : State) : s.OnlyRecords (dayEndSitting k s) := by
  unfold dayEndSitting
  split
  · refine State.OnlyRecords.trans ?_ (closingTest_records ..)
    split
    · exact (setSitting_records k _ s).trans (closeAdmission_records ..)
    · rfl
  · rfl

theorem sittingSecond_other {i : Fin 8} (h : i ≠ k) (moved : Bool) (s : State) :
    s.SameSitting i (sittingSecond moved k s) := by
  obtain ⟨hh, g, -, hg⟩ := sittingSecond_clock moved k s
  exact ⟨hh, (sittingSecond_records ..).holdFilter, by rw [hg, sitting_set, if_neg h]⟩

theorem dayEndSitting_other {i : Fin 8} (h : i ≠ k) (s : State) : s.SameSitting i (dayEndSitting k s) :=
  ⟨(dayEndSitting_records ..).hallTime, (dayEndSitting_records ..).holdFilter, (dayEndSitting_clock k s).2.2 i h⟩

theorem Sitting.MayClose.stopped (h : g.MayClose g') : g.stopped.MayClose g'.stopped := by
  rcases h with rfl | ⟨hg, rfl⟩
  · exact .refl _
  · refine .inr ⟨?_, ?_⟩ <;> simp [Sitting.stopped, Sitting.running, Sitting.closed, hg]

/-- The sittings through a hall second, but for their closes (R21, R27 to R30, R38). -/
def Sitting.afterSecond (hallTime : Nat) (hallHold : Bool) (g : Sitting) : Sitting :=
  if hallTime + 1 = Config.lastSecond then
    (g.taken (decide (hallTime < Config.lastSecond)) (nextHallTime hallTime) hallHold).stopped
  else g.taken (decide (hallTime < Config.lastSecond)) (nextHallTime hallTime) hallHold

theorem broadcastTime_clock (m : Fin 4) (s : State) : (broadcastTime m s).clock = s.clock := by simp [broadcastTime]

/-- The sittings have taken the second. -/
theorem sittingsSecond_clock (moved : Bool) (s : State) : (sittingsSecond moved s).hallTime = s.hallTime ∧
    ∀ k : Fin 8, (s.sittings[k].taken moved s.hallTime s.holdFilter.filtered).MayClose
      (sittingsSecond moved s).sittings[k] := by
  have visit : ∀ k : Fin 8, (sittingsSecond moved s).hallTime = s.hallTime ∧
      (s.sittings[k].taken moved s.hallTime s.holdFilter.filtered).MayClose (sittingsSecond moved s).sittings[k] := by
    intro k
    obtain ⟨u, hu, hv⟩ := takeInTurn_visit (State.SameSitting k) (State.SameSitting.refl k)
      State.SameSitting.trans
      eight_nodup (mem_eight k) (sittingSecond moved) (fun i _ hi u => sittingSecond_other (Ne.symm hi) moved u) s
    obtain ⟨hh, g, hclose, hg⟩ := sittingSecond_clock moved k u
    obtain ⟨ht, hf, hk⟩ := hu
    rw [hk, ht, hf] at hclose
    refine ⟨hv.1.trans (hh.trans ht), ?_⟩
    unfold sittingsSecond
    rw [hv.2.2, hg, sitting_set, if_pos rfl]
    exact hclose
  exact ⟨(visit 0).1, fun k => (visit k).2⟩

/-- The sittings have had their day end. -/
theorem dayEndSittings_clock (s : State) : (takeInTurn eight dayEndSitting s).hallTime = s.hallTime ∧
    ∀ k : Fin 8, s.sittings[k].stopped.MayClose (takeInTurn eight dayEndSitting s).sittings[k] := by
  have visit : ∀ k : Fin 8, (takeInTurn eight dayEndSitting s).hallTime = s.hallTime ∧
      s.sittings[k].stopped.MayClose (takeInTurn eight dayEndSitting s).sittings[k] := by
    intro k
    obtain ⟨u, ⟨ht, -, hk⟩, hv⟩ := takeInTurn_visit (State.SameSitting k) (State.SameSitting.refl k)
      State.SameSitting.trans eight_nodup (mem_eight k) dayEndSitting
      (fun i _ hi u => dayEndSitting_other (Ne.symm hi) u) s
    obtain ⟨hh, hclose, -⟩ := dayEndSitting_clock k u
    rw [hk] at hclose
    exact ⟨hv.1.trans (hh.trans ht), by rw [hv.2.2]; exact hclose⟩
  exact ⟨(visit 0).1, fun k => (visit k).2⟩

theorem hallSecond_clock (s : State) : (hallSecond s).hallTime = nextHallTime s.hallTime ∧
    ∀ k : Fin 8, (s.sittings[k].afterSecond s.hallTime s.holdFilter.filtered).MayClose (hallSecond s).sittings[k] := by
  obtain ⟨hh, hsec⟩ := sittingsSecond_clock (decide (s.hallTime < Config.lastSecond)) (advanceClock s)
  unfold hallSecond Sitting.afterSecond
  dsimp only
  obtain ⟨hbh, hbs⟩ := clock_eq_iff.1 (takeInTurn_clock four broadcastTime broadcastTime_clock
    (if s.hallTime + 1 = Config.lastSecond then
      dayEnd s.sittings (sittingsSecond (decide (s.hallTime < Config.lastSecond)) (advanceClock s))
    else personalSecond s.sittings (sittingsSecond (decide (s.hallTime < Config.lastSecond)) (advanceClock s))))
  rw [hbh, hbs]
  split
  · obtain ⟨hdh, hds⟩ := dayEndSittings_clock (sittingsSecond (decide (s.hallTime < Config.lastSecond)) (advanceClock s))
    have hrec := takeInTurn_closes
      ((takeInTurn eight dayEndSitting (sittingsSecond (decide (s.hallTime < Config.lastSecond)) (advanceClock s))).takersOf
        s.sittings) _ (recordDayEnd_closes s.sittings)
      (takeInTurn eight dayEndSitting (sittingsSecond (decide (s.hallTime < Config.lastSecond)) (advanceClock s)))
    exact ⟨hrec.hallTime.trans (hdh.trans hh), fun k => ((hsec k).stopped.trans (hds k)).trans (hrec.sitting k)⟩
  · have hrec := takeInTurn_closes
      ((sittingsSecond (decide (s.hallTime < Config.lastSecond)) (advanceClock s)).takersOf s.sittings) _
      (recordSecond_closes s.sittings) (sittingsSecond (decide (s.hallTime < Config.lastSecond)) (advanceClock s))
    exact ⟨hrec.hallTime.trans hh, fun k => (hsec k).trans (hrec.sitting k)⟩

end Sys2Proof.Machine
end

