-- ==== Sys2Proof/Proofs/ClockLaw.lean ====
section
/-! SUPPORT. Every step keeps the law of the hall clock and the sittings (R21, R23, R24, R27, R36). -/

namespace Sys2Proof.Machine

variable {s t : State} {g g' : Sitting} {now : Nat} {k : Fin 8}

/-! ### A lawful sitting record -/

theorem running_iff (g : Sitting) : g.running = true ↔ g.state ∈ [SittingState.reading, .writing, .closing] := by
  unfold Sitting.running
  cases g.state <;> simp

theorem not_running_iff (g : Sitting) : g.running = false ↔ g.state ∉ [SittingState.reading, .writing, .closing] := by
  rw [← running_iff, Bool.not_eq_true]

theorem lawful_iff (now : Nat) (g : Sitting) : g.lawful now = true ↔ g.l ≤ g.w ∧ g.w ≤ 21600 ∧
    (g.running = true → now < 86399 → g.t0 + g.e + g.h = now) ∧ (g.running = false → g.hold = ⟨false, false⟩) := by
  have hmoved : (decide (now < Config.lastSecond → g.t0 + g.e + g.h = now) = true) ↔
      (now < 86399 → g.t0 + g.e + g.h = now) := decide_eq_true_iff
  unfold Sitting.lawful
  cases g.running <;> simp only [hmoved, Bool.and_eq_true, decide_eq_true_eq, beq_iff_eq, if_true, if_false,
    Bool.false_eq_true, Bool.true_eq_false, forall_true_left, false_imp_iff, true_and, and_true, and_assoc]

theorem clockLaw_iff (s : State) : s.clockLaw = true ↔
    s.hallTime ≤ 86399 ∧ ∀ k : Fin 8, s.sittings[k].lawful s.hallTime = true := by
  have htime : (decide (s.hallTime ≤ Config.lastSecond) = true) ↔ s.hallTime ≤ 86399 := decide_eq_true_iff
  rw [State.clockLaw, Bool.and_eq_true, htime, Vector.all_eq_true]
  exact and_congr_right fun _ => ⟨fun h k => h k.1 k.2, fun h i hi => h ⟨i, hi⟩⟩

theorem clockLaw_of_clock (h : t.clock = s.clock) (hs : s.clockLaw = true) : t.clockLaw = true := by
  obtain ⟨hh, hg⟩ := clock_eq_iff.1 h
  unfold State.clockLaw at *
  rwa [hh, hg]

/-- A sitting that does not run is lawful at one hall time as at another. -/
theorem lawful_of_not_running (hr : g.running = false) (h : g.lawful now = true) (time : Nat) : g.lawful time = true := by
  obtain ⟨hl, hw, -, hhold⟩ := (lawful_iff ..).1 h
  exact (lawful_iff ..).2 ⟨hl, hw, fun e => (Bool.false_ne_true (hr.symm.trans e)).elim, hhold⟩

theorem MayClose_lawful (hc : g.MayClose g') (h : g.lawful now = true) : g'.lawful now = true := by
  obtain ⟨hl, hw, -, -⟩ := (lawful_iff ..).1 h
  rcases hc with rfl | ⟨-, rfl⟩
  · exact h
  · exact (lawful_iff ..).2 ⟨hl, hw, fun e => (Bool.false_ne_true e).elim, fun _ => rfl⟩

theorem clockLaw_of_closes (h : s.Closes t) (hs : s.clockLaw = true) : t.clockLaw = true := by
  obtain ⟨htime, hlaw⟩ := (clockLaw_iff s).1 hs
  exact (clockLaw_iff t).2 ⟨h.hallTime ▸ htime, fun k => h.hallTime ▸ MayClose_lawful (h.sitting k) (hlaw k)⟩

/-- A lawful record written to a sitting. -/
theorem setSitting_clockLaw (hs : s.clockLaw = true) (hg : g.lawful s.hallTime = true) :
    (s.setSitting k g).clockLaw = true := by
  obtain ⟨htime, hlaw⟩ := (clockLaw_iff s).1 hs
  refine (clockLaw_iff _).2 ⟨htime, fun i => ?_⟩
  rw [State.setSitting_sittings, sitting_set]
  split
  · exact hg
  · exact hlaw i

theorem sitting_lawful (hs : s.clockLaw = true) (k : Fin 8) : s.sittings[k].lawful s.hallTime = true :=
  ((clockLaw_iff s).1 hs).2 k

/-! ### A hall second (R21, R27 to R30, R38) -/

/-- A lawful running sitting is at T0 + e + H, and the second goes into one of the two (R27). -/
theorem accrue_lawful (hr : g.running = true) (h : g.lawful now = true) {next : Nat} (hn : next < 86399 → next = now + 1) :
    g.accrue.lawful next = true ∧ g.accrue.running = true := by
  obtain ⟨hl, hw, hat, -⟩ := (lawful_iff ..).1 h
  have hat' : next < 86399 → g.t0 + g.e + g.h + 1 = next := fun hlt => by
    have := hn hlt
    rw [hat hr (by omega)]
    exact this.symm
  have hrun : ∀ v : Sitting, v.state = g.state → v.running = true := fun v hv => by
    rw [Sitting.running, hv]
    exact hr
  unfold Sitting.accrue
  split
  · next hnone => exact absurd ((accrual_none_iff g).1 hnone) (by simp [hr])
  · refine ⟨(lawful_iff ..).2 ⟨hl, hw, fun _ hlt => ?_, fun e => ?_⟩, hrun _ rfl⟩
    · have := hat' hlt
      dsimp only
      omega
    · exact absurd ((hrun { g with e := g.e + 1 } rfl).symm.trans e) (by simp)
  · refine ⟨(lawful_iff ..).2 ⟨hl, hw, fun _ hlt => ?_, fun e => ?_⟩, hrun _ rfl⟩
    · have := hat' hlt
      dsimp only
      omega
    · exact absurd ((hrun { g with h := g.h + 1 } rfl).symm.trans e) (by simp)

/-- A running sitting may pass to another running phase. -/
theorem lawful_of_phase (hr : g.running = true) (hr' : g'.running = true) (htable : g'.timetable = g.timetable)
    (he : g'.e = g.e) (hh : g'.h = g.h) (h : g.lawful now = true) : g'.lawful now = true := by
  obtain ⟨hl, hw, hat, -⟩ := (lawful_iff ..).1 h
  have ht0 : g'.t0 = g.t0 := (Sitting.mk.inj htable).2.1
  have hw' : g'.w = g.w := (Sitting.mk.inj htable).2.2.2.1
  have hl' : g'.l = g.l := (Sitting.mk.inj htable).2.2.2.2.1
  refine (lawful_iff ..).2 ⟨by omega, by omega, fun _ hlt => ?_, fun e => absurd (hr'.symm.trans e) (by simp)⟩
  rw [ht0, he, hh]
  exact hat hr hlt

theorem reached_ended_lawful (hr : g.running = true) (h : g.lawful now = true) : g.reached.ended.lawful now = true := by
  have hreached : g.reached.lawful now = true ∧ g.reached.running = true := by
    unfold Sitting.reached
    split
    · exact ⟨lawful_of_phase hr rfl rfl rfl rfl h, rfl⟩
    · exact ⟨h, hr⟩
  unfold Sitting.ended
  split
  · exact lawful_of_phase hreached.2 rfl rfl rfl rfl hreached.1
  · exact hreached.1

/-- A sitting that does not run may open its admission, and start its clock at T0 (R28, R29). -/
theorem opened_begun_lawful (hr : g.running = false) (h : g.lawful now = true) (next : Nat) (hallHold : Bool) :
    ((g.opened next).begun next hallHold).lawful next = true := by
  obtain ⟨hl, hw, -, -⟩ := (lawful_iff ..).1 h
  have hopened : (g.opened next).lawful next = true := by
    unfold Sitting.opened
    split
    · exact (lawful_iff ..).2 ⟨hl, hw, fun e => (Bool.false_ne_true e).elim, fun _ => rfl⟩
    · exact lawful_of_not_running hr h next
  unfold Sitting.begun
  split
  · next hb =>
    obtain ⟨hl', hw', -, -⟩ := (lawful_iff ..).1 hopened
    have hrun : ((g.opened next).started hallHold).running = true := by
      rw [running_iff, Sitting.started]
      split <;> simp
    exact (lawful_iff ..).2 ⟨hl', hw', fun _ _ => hb.2.symm, fun e => absurd (hrun.symm.trans e) (by simp)⟩
  · exact hopened

theorem stopped_lawful (h : g.lawful now = true) (hnow : ¬ now < 86399) : g.stopped.lawful now = true := by
  obtain ⟨hl, hw, -, hhold⟩ := (lawful_iff ..).1 h
  unfold Sitting.stopped
  split
  · exact (lawful_iff ..).2 ⟨hl, hw, fun _ hlt => absurd hlt hnow, fun e => (Bool.false_ne_true e.symm).elim⟩
  · exact h

theorem nextHallTime_eq (time : Nat) : nextHallTime time = if time < 86399 then time + 1 else time := rfl

theorem taken_lawful (h : g.lawful now = true) (hallHold : Bool) :
    (g.taken (decide (now < 86399)) (nextHallTime now) hallHold).lawful (nextHallTime now) = true := by
  unfold Sitting.taken
  cases hr : g.running with
  | true =>
    obtain ⟨hlaw, hrun⟩ := accrue_lawful hr h (next := nextHallTime now) fun hlt => by
      rw [nextHallTime_eq] at hlt ⊢
      split
      · rfl
      · next hnow => exact absurd (by rwa [if_neg hnow] at hlt) hnow
    rw [if_pos rfl]
    exact reached_ended_lawful hrun hlaw
  | false =>
    rw [if_neg Bool.false_ne_true]
    split
    · exact opened_begun_lawful hr h ..
    · exact lawful_of_not_running hr h _

theorem hallSecond_clockLaw (hs : s.clockLaw = true) : (hallSecond s).clockLaw = true := by
  obtain ⟨htime, hlaw⟩ := (clockLaw_iff s).1 hs
  obtain ⟨hh, hclose⟩ := hallSecond_clock s
  have htime' : nextHallTime s.hallTime ≤ 86399 := by
    rw [nextHallTime_eq]
    split <;> omega
  refine (clockLaw_iff _).2 ⟨?_, fun k => ?_⟩
  · rw [hh]
    exact htime'
  · rw [hh]
    refine MayClose_lawful (hclose k) ?_
    have htaken := taken_lawful (hlaw k) s.holdFilter.filtered
    unfold Sitting.afterSecond
    split
    · next hlast =>
      refine stopped_lawful htaken ?_
      have hlast' : s.hallTime + 1 = 86399 := hlast
      rw [nextHallTime_eq, if_pos (by omega)]
      omega
    · exact htaken

/-! ### Requests and events that write a sitting (R22, R25, R26, R34 to R37) -/

/-- The hold sources of a running sitting do not count. -/
theorem changeHold_clockLaw (hs : s.clockLaw = true) (hr : s.sittings[k].running = true) (h : HoldSources) :
    (changeHold k h s).clockLaw = true := by
  have hset : (s.setSitting k { s.sittings[k] with hold := h }).clockLaw = true :=
    setSitting_clockLaw hs (lawful_of_phase hr hr rfl rfl rfl (sitting_lawful hs k))
  unfold changeHold
  split
  · exact clockLaw_of_clock (takeInTurn_clock _ _ showEndOf_clock _) hset
  · exact hset

theorem holdFilterChange_clockLaw (hs : s.clockLaw = true) : (holdFilterChange s).clockLaw = true := by
  have followed : ∀ on (k : Fin 8) (u : State), u.clockLaw = true → (followHallHold on k u).clockLaw = true := by
    intro on k u hu
    unfold followHallHold
    split
    · next hr => exact changeHold_clockLaw hu hr _
    · exact hu
  unfold holdFilterChange
  split
  · unfold changeFiltered
    exact clockLaw_of_clock (raise_clock ..) (takeInTurn_invariant _ eight _ (followed _) _ hs)
  · exact hs

theorem not_running_of_stopsClock (h : ¬ g.stopsClock = true) : g.running = false := by
  unfold Sitting.stopsClock at h
  unfold Sitting.running
  split at h <;> simp_all

/-- Without a running sitting every hall time will do. -/
theorem setClock_clockLaw (time : Nat) (hs : s.clockLaw = true) : (setClock time s).1.clockLaw = true := by
  obtain ⟨-, hlaw⟩ := (clockLaw_iff s).1 hs
  unfold setClock
  split
  · exact hs
  next htime =>
  split
  · exact hs
  next hstops =>
  split
  · exact hs
  have htime' : time ≤ 86399 := Nat.not_lt.1 htime
  have hidle : ∀ k : Fin 8, s.sittings[k].running = false := fun k => by
    rw [Vector.any_eq_true] at hstops
    exact not_running_of_stopsClock fun e => hstops ⟨k.1, k.2, e⟩
  rw [okWith_fst]
  exact (clockLaw_iff _).2 ⟨htime', fun k => lawful_of_not_running (hidle k) (hlaw k) time⟩

theorem markClashes_clock (j : Nat) (s : State) : (markClashes j s).clock = s.clock := by
  unfold markClashes
  split
  · rfl
  · refine takeInTurn_clock _ _ (fun j s => ?_) s
    unfold setClash
    split <;> rfl

theorem rescheduleRecords_clock (s : State) (k : Fin 8) (old : Sitting) : (s.rescheduleRecords k old).clock = s.clock := by
  have htested : ((s.reordered k old).clashTested k old s.sittings[k]).clock = s.clock := by
    refine Eq.trans ?_ (show (s.reordered k old).clock = s.clock by rw [(reordered_relinked s k old).frame]; rfl)
    unfold State.clashTested
    split
    · rfl
    · exact takeInTurn_clock _ _ markClashes_clock _
  rw [rescheduleRecords_eq]
  split
  · exact htested
  · exact htested

theorem schedule_clockLaw (n : Nat) (arg : TimetableArg) (list : RoomListArg) (hs : s.clockLaw = true) :
    (schedule n arg list s).1.clockLaw = true := by
  unfold schedule
  repeat' split
  all_goals first
    | exact hs
    | skip
  all_goals
    next htime _ _ =>
    obtain ⟨-, -, -, hw, hl, -⟩ := (timetableInRange_iff arg).1 (by simpa using htime)
    refine clockLaw_of_clock (rescheduleRecords_clock ..)
      (setSitting_clockLaw hs ((lawful_iff ..).2 ⟨hl, hw, fun e => ?_, fun _ => rfl⟩))
    rw [running_iff, scheduled] at e
    split at e <;> simp at e

theorem extend_clockLaw (n delta : Nat) (hs : s.clockLaw = true) : (extend n delta s).1.clockLaw = true := by
  unfold extend
  split
  · exact hs
  next k _ =>
  split
  · exact hs
  split
  · exact hs
  next hr =>
  have hr : s.sittings[k].running = true := by simpa using hr
  have hset : (s.setSitting k (s.sittings[k].extended delta)).clockLaw = true := by
    obtain ⟨hl, hw, hat, -⟩ := (lawful_iff ..).1 (sitting_lawful hs k)
    have hrun : (s.sittings[k].extended delta).running = true := by
      rw [running_iff] at hr ⊢
      unfold Sitting.extended
      dsimp only
      split
      · simp
      · exact hr
    refine setSitting_clockLaw hs ((lawful_iff ..).2 ⟨?_, ?_, fun _ => hat hr, fun e => absurd (hrun.symm.trans e) (by simp)⟩)
    · simp only [Sitting.extended, clampTo_eq]
      omega
    · simp only [Sitting.extended, clampTo_eq]
      omega
  rw [okOrClamped_fst]
  split
  · exact hset
  · exact clockLaw_of_clock (takeInTurn_clock _ _ (extendRecord_clock k) _) hset

/-- The requests that write the hall time or a sitting record, or finish a record. -/
theorem timing_clockLaw {i : Instr} {op : Owner} (ho : ownerRule i = some op) (hs : s.clockLaw = true)
    (hi : (∃ time, i = .setClock time) ∨ (∃ n arg list, i = .schedule n arg list) ∨ (∃ n, i = .retireSitting n) ∨
      (∃ n, i = .hold n ∨ i = .resume n) ∨ ∃ n delta, i = .extend n delta) : (op s).1.clockLaw = true := by
  have held : ∀ on n, (setSittingHold on n s).1.clockLaw = true := by
    intro on n
    unfold setSittingHold
    repeat' split
    · exact hs
    · exact hs
    · next hr => exact changeHold_clockLaw hs (by simpa using hr) _
  rcases hi with ⟨time, rfl⟩ | ⟨n, arg, list, rfl⟩ | ⟨n, rfl⟩ | ⟨n, rfl | rfl⟩ | ⟨n, delta, rfl⟩ <;> cases ho
  · exact setClock_clockLaw time hs
  · exact schedule_clockLaw n arg list hs
  · unfold retireSitting
    repeat' split
    all_goals first
      | exact hs
      | exact setSitting_clockLaw (s := s.emptyKey _) hs ((lawful_iff ..).2 ⟨Nat.le_refl _, Nat.zero_le _, nofun, fun _ => rfl⟩)
  · exact held true n
  · exact held false n
  · exact extend_clockLaw n delta hs

/-! ### Requests that leave the clock, but for a sitting that closes (R31) -/

theorem withdraw_closes (n m : Nat) (s : State) : s.Closes (withdraw n m s).1 := by
  unfold withdraw
  repeat' split
  all_goals first
    | exact .refl s
    | exact finish_closes ..
    | exact .of_clock (endExpected_clock ..)
    | exact .trans (.of_clock (endExpected_clock ..)) (closingTest_closes ..)

theorem submitFor_closes (n m : Nat) (s : State) : s.Closes (submitFor n m s).1 := by
  unfold submitFor
  repeat' split
  all_goals first
    | exact .refl s
    | exact finish_closes ..

theorem unplace_closes (n m : Nat) (s : State) : s.Closes (unplace n m s).1 := by
  unfold unplace unplaceSeat
  repeat' split
  all_goals first
    | exact .refl s
    | exact .trans (.of_clock (by simp)) (closingTest_closes ..)

theorem enrolAt_clock (s : State) (j : Nat) (c : Candidate) : (s.enrolAt j c).clock = s.clock := by
  have hjoin : ((s.setCand j c).joinChain c.number j).clock = s.clock := by
    rw [(joinChain_relinked (s.setCand j c) c.number j).frame]
    rfl
  rw [enrolAt_frame]
  exact (markClashes_clock ..).trans hjoin

theorem retireRecord_clock (s : State) (j : Nat) (c : Candidate) : (s.retireRecord j c).clock = s.clock := by
  rw [retireRecord_frame]
  rfl

/-- The requests that may write the hall time or a sitting record, or finish a record. -/
def setsClock : Instr → Bool
  | .setClock _ | .schedule .. | .retireSitting _ | .hold _ | .resume _ | .extend .. | .withdraw .. | .submitFor ..
  | .unplace .. => true
  | _ => false

/-- Every other request leaves the hall time and the sitting records. -/
theorem ownerRule_clock {i : Instr} (hi : setsClock i = false) {op : Owner} (ho : ownerRule i = some op) (s : State) :
    (op s).1.clock = s.clock := by
  by_cases hr : onlyReads i = true
  · rw [reads_same hr ho s]
  cases i <;> simp only [onlyReads, setsClock, not_true, Bool.true_eq_false] at hr hi <;>
    simp only [ownerRule, Option.some.injEq, reduceCtorEq] at ho <;> subst ho
  case clearTraffic => exact clearTraffic_clock s
  all_goals
    simp only [enrol, amend, retire, defineSeat, setSeatState, State.bringBack, setRoomSettings, admitFor, place, move,
      restFor, ackHand, resetRoom, issue, voidScript, handOver, handOverSitting, keyOpen, keyEntries, keySeal, keyDiscard,
      remark, clearAttention, setAttention, clearFault]
    repeat' split
    all_goals first
      | rfl
      | simp [enrolAt_clock, retireRecord_clock]

theorem ownerRule_clockLaw {i : Instr} {op : Owner} (ho : ownerRule i = some op) (s : State) (hs : s.clockLaw = true) :
    (op s).1.clockLaw = true := by
  cases hi : setsClock i with
  | false => exact clockLaw_of_clock (ownerRule_clock hi ho s) hs
  | true =>
    cases i <;> simp only [setsClock, Bool.false_eq_true] at hi
    case withdraw => cases ho; exact clockLaw_of_closes (withdraw_closes ..) hs
    case submitFor => cases ho; exact clockLaw_of_closes (submitFor_closes ..) hs
    case unplace => cases ho; exact clockLaw_of_closes (unplace_closes ..) hs
    all_goals exact timing_clockLaw ho hs (by simp)

/-! ### The events of the desks (R75, R92) -/

/-- A desk's SUBMIT may finish a record, and its sitting may close; no other answer changes the clock. -/
theorem deskAnswer_closes (m : Fin 4) (door : Bool) (frame : List Byte) (s : State) :
    s.Closes (deskAnswer m door frame s) := by
  have submitted : ∀ i u, State.Closes u (deskSubmit i u) := by
    intro i u
    unfold deskSubmit
    repeat' split
    all_goals first
      | exact .refl u
      | exact .of_clock (by simp)
      | exact finish_closes ..
  have delivered : ∀ i e u, State.Closes u (deliverDesk i e u) := by
    intro i e u
    cases e with
    | submit => exact submitted i u
    | _ => exact .of_clock (by simp [deliverDesk])
  have handled : ∀ a u, State.Closes u (handleAnswer m a frame u) := by
    intro a u
    unfold handleAnswer goodAnswer
    repeat' split
    all_goals first
      | exact .of_clock (by simp)
      | exact .trans (.of_clock (deskAnswered_clock ..)) (delivered ..)
  unfold deskAnswer
  split
  · exact .trans (.of_clock (endWindow_clock m (setDoorWire m door s))) (.trans (handled ..) (.of_clock (kickSegment_clock ..)))
  all_goals exact .refl s

theorem sentEvent_clock (m : Fin 4) (door : Bool) (s : State) : (timeSent m door s).clock = s.clock ∧
    (showSent m door s).clock = s.clock ∧ (pollSent m door s).clock = s.clock ∧
    (answerWindowTimeout m door s).clock = s.clock := by
  refine ⟨?_, ?_, ?_, ?_⟩
  · unfold timeSent
    split <;> simp
  · unfold showSent
    split <;> simp
  · unfold pollSent
    repeat' split
    all_goals simp
  · unfold answerWindowTimeout
    split <;> simp

/-! ### Every step -/

theorem clockLaw_conserved : Conserved (fun s => s.clockLaw = true) where
  port _ _ hs := hs
  fault cls d s hs := clockLaw_of_clock (reportFault_clock s cls d) hs
  owner ho s hs := ownerRule_clockLaw ho s hs

theorem blocksReset_clockLaw (s : State) : (blocksReset s).clockLaw = true := by
  refine (clockLaw_iff _).2 ⟨Nat.zero_le _, fun k => (lawful_iff ..).2 ?_⟩
  have hk : (blocksReset s).sittings[k] = Sitting.unscheduledRecord := by simp [blocksReset]
  rw [hk]
  exact ⟨Nat.le_refl _, Nat.zero_le _, nofun, fun _ => rfl⟩

theorem exec_clockLaw (i : Instr) (hs : s.clockLaw = true) (he : exec i s = .next t) : t.clockLaw = true := by
  cases ho : ownerRule i with
  | some op => exact clockLaw_conserved.request ho hs he
  | none =>
    cases hl : ofLine i with
    | true => exact clockLaw_conserved.line hl hs he
    | false =>
      have event : ∀ {f : State → State}, (f s).clock = s.clock → whileRunning f s = .next t → t.clockLaw = true :=
        fun hf he => Conserved.whileRunning (P := fun u => u.clockLaw = true) (clockLaw_of_clock hf hs) hs he
      have kept : ∀ {f : State → State}, (f s).clockLaw = true → whileRunning f s = .next t → t.clockLaw = true :=
        fun hf he => Conserved.whileRunning (P := fun u => u.clockLaw = true) hf hs he
      have reset := blocksReset_clockLaw s
      cases i <;> simp only [ownerRule, ofLine, reduceCtorEq, Bool.true_eq_false] at ho hl
      case hallSecond => exact kept (hallSecond_clockLaw hs) he
      case holdFilterChange => exact kept (holdFilterChange_clockLaw hs) he
      case deskAnswer m d f => exact kept (clockLaw_of_closes (deskAnswer_closes m d f s) hs) he
      case timeSent m d => exact event (sentEvent_clock m d s).1 he
      case showSent m d => exact event (sentEvent_clock m d s).2.1 he
      case pollSent m d => exact event (sentEvent_clock m d s).2.2.1 he
      case answerWindowTimeout m d => exact event (sentEvent_clock m d s).2.2.2 he
      case sheetBegin d p c1 c2 c3 c4 => exact event (sheetBegin_clock d p c1 c2 c3 c4 s) he
      case row n a b c d e => exact event (sheetRow_clock n ⟨a, b, c, d, e⟩ s) he
      case sheetEnd n => exact event (sheetEnd_clock n s) he
      case scannerBadFrame => exact event (scannerFrame_clock badScannerFrame_clock s) he
      case sheetGapTimeout => exact event (sheetGapTimeout_clock s) he
      case beginAnswerSent => exact event (beginAnswerSent_clock s) he
      case verdictSent => exact event (verdictSent_clock s) he
      case portResetSent => exact event (portResetSent_clock s) he
      case markingComplete => exact event (markingComplete_clock s) he
      case hallHoldEdge high =>
        simp only [exec, execHallHoldEdge] at he
        split at he <;> cases he <;> exact hs
      case powerUp =>
        cases he
        exact reset
      case hallReset =>
        simp only [exec, execHallReset] at he
        split at he <;> cases he
        · exact reset
        all_goals exact hs
      case powerUpEnd pol =>
        simp only [exec, execPowerUpEnd] at he
        split at he <;> cases he <;> exact hs
      case hallResetEnd pol =>
        simp only [exec, execHallResetEnd] at he
        split at he <;> cases he <;> exact hs

/-- Settles O5: the sittings that run accrue each second that moves the clock into e or H, whatever else writes a sitting
record leaves it lawful, and nothing but a reset, SET_CLOCK and a hall second writes the hall time. -/
theorem stepKeepsTheClockLaw : Obligations.StepKeepsTheClockLaw := by
  intro s t hs he
  unfold step at he
  split at he
  · cases he
    exact hs
  · next i rest _ =>
    have hs' : State.clockLaw { s with pending := rest } = true := hs
    exact exec_clockLaw i hs' he

end Sys2Proof.Machine
end

