-- ==== Sys2Proof/Proofs/SittingRequests.lean ====
section
/-! SUPPORT. The requests on the hall clock and the sittings: SET_CLOCK, RETIRE_SITTING, HOLD and RESUME (R22, R26, R35),
the test for a sitting's close (R31), and the personal times with REST_FOR (R64, R65, R73, R74). -/

namespace Sys2Proof.Machine

variable {s t : State} {n j time : Nat} {k : Fin 8} {c : Candidate} {g : Sitting}

/-! ### SET_CLOCK and RETIRE_SITTING (R22, R26) -/

theorem stopsClock_iff (g : Sitting) :
    g.stopsClock = true ↔ g.state ∈ [SittingState.admitting, .reading, .writing, .closing] := by
  unfold Sitting.stopsClock
  cases g.state <;> simp

theorem passedBy_iff (g : Sitting) (time : Nat) : g.passedBy time = true ↔ g.state = .scheduled ∧ g.t0 ≤ time + g.aw := by
  simp [Sitting.passedBy]

theorem any_sitting_iff (s : State) (f : Sitting → Bool) : s.sittings.any f = true ↔ ∃ k : Fin 8, f s.sittings[k] = true := by
  rw [Vector.any_eq_true]
  exact ⟨fun ⟨i, hi, h⟩ => ⟨⟨i, hi⟩, h⟩, fun ⟨k, h⟩ => ⟨k.1, k.2, h⟩⟩

/-- A sitting keeps SET_CLOCK from a hall time by its phase, or by its admission opening time (R22). -/
def Sitting.bars (time : Nat) (g : Sitting) : Prop :=
  g.state ∈ [SittingState.admitting, .reading, .writing, .closing] ∨ (g.state = .scheduled ∧ g.t0 ≤ time + g.aw)

theorem not_bars (h : g.state ∈ [SittingState.unscheduled, .closed] ∨ (g.state = .scheduled ∧ time + g.aw < g.t0)) :
    ¬ g.bars time := by
  unfold Sitting.bars
  cases hstate : g.state <;> simp [hstate] at h ⊢
  exact h

theorem setClock_eq (ht : time ≤ 86399) (s : State) : setClock time s =
    if s.sittings.any Sitting.stopsClock || s.sittings.any (fun g => g.passedBy time) then refuse .state s
    else okWith (be3 time) { s with hallTime := time } := by
  unfold setClock
  rw [if_neg (show ¬ Config.lastSecond < time from Nat.not_lt.2 ht)]
  cases s.sittings.any Sitting.stopsClock <;> rfl

theorem barred_iff (s : State) (time : Nat) :
    (s.sittings.any Sitting.stopsClock || s.sittings.any (fun g => g.passedBy time)) = true ↔
      ∃ k : Fin 8, s.sittings[k].bars time := by
  simp only [Bool.or_eq_true, any_sitting_iff, stopsClock_iff, passedBy_iff, ← exists_or]
  rfl

theorem retireSitting_refused (hk : s.sittings[k].state ∈ [SittingState.unscheduled, .reading, .writing, .closing]) :
    retireSitting k s = refuse .state s := by
  unfold retireSitting
  rw [sittingOf_val]
  cases hstate : s.sittings[k].state <;> simp_all

theorem retireSitting_eq (hk : s.sittings[k].state ∈ [SittingState.scheduled, .admitting, .closed]) : retireSitting k s =
    if 0 < s.liveOf k then refuse .liveRecords s
    else okWith [] ((s.emptyKey k).setSitting k Sitting.unscheduledRecord) := by
  unfold retireSitting
  rw [sittingOf_val]
  cases hstate : s.sittings[k].state <;> simp_all

theorem liveOf_pos_iff (s : State) (k : Fin 8) : 0 < s.liveOf k ↔ ∃ y ∈ s.roll, y.2.sitting = k := by
  rw [liveOf_eq, List.length_pos_iff_exists_mem]
  simp only [List.mem_filter, beq_iff_eq]

/-- Settles O27: SET_CLOCK by whether some sitting bars the hall time, RETIRE_SITTING by phase and live records. -/
theorem setClockAndRetireSitting : Obligations.SetClockAndRetireSitting := by
  refine fun s h => ⟨fun time ht hfree => ?_, fun time k ht hbar => ?_, fun k hk => ?_, fun k => ⟨fun hk => ?_, fun hk =>
    ⟨fun hlive => ?_, fun hlive => ?_⟩⟩⟩
  · refine exec_ok rfl h ?_
    rw [setClock_eq ht, if_neg]
    rw [barred_iff]
    rintro ⟨k, hbar⟩
    exact not_bars (hfree k) hbar
  · refine exec_refused rfl h ?_
    rw [setClock_eq ht, if_pos ((barred_iff s time).2 ⟨k, hbar⟩)]
  · refine exec_refused rfl h ?_
    rw [retireSitting, sittingOf_of_ge hk]
  · exact exec_refused rfl h (retireSitting_refused hk)
  · refine exec_refused rfl h ?_
    rw [retireSitting_eq hk, if_pos ((liveOf_pos_iff s k).2 hlive)]
  · refine exec_ok rfl h ?_
    rw [retireSitting_eq hk, if_neg fun e => ?_]
    · rfl
    · obtain ⟨y, hy, hyk⟩ := (liveOf_pos_iff s k).1 e
      exact hlive y hy hyk

/-! ### HOLD and RESUME (R35, R79) -/

/-- HOLD and RESUME of a sitting that does not run are refused. -/
theorem setSittingHold_refused (hr : s.sittings[k].running = false) (on : Bool) :
    setSittingHold on k s = refuse .state s := by
  unfold setSittingHold
  rw [sittingOf_val]
  simp only [hr, Bool.not_false, if_true]

theorem setSittingHold_running (hr : s.sittings[k].running = true) (on : Bool) : setSittingHold on k s =
    okWith (HoldSources.bytes { s.sittings[k].hold with sitting := on })
      (changeHold k { s.sittings[k].hold with sitting := on } s) := by
  unfold setSittingHold
  rw [sittingOf_val]
  simp only [hr, Bool.not_true, Bool.false_eq_true, if_false]

theorem extend_refused {delta : Nat} (hr : s.sittings[k].running = false) (h1 : 1 ≤ delta) (h2 : delta ≤ 3600) :
    extend k delta s = refuse .state s := by
  unfold extend
  rw [sittingOf_val]
  simp only [hr, Bool.not_false, if_true]
  exact if_neg (by omega)

/-- The hold of a sitting ends where its sources become empty. -/
theorem changeHold_ends (hheld : s.sittings[k].held = true) {h : HoldSources} (hany : h.any = false) : changeHold k h s =
    takeInTurn (s.timedOf k) showEndOf (s.setSitting k { s.sittings[k] with hold := h }) := by
  unfold changeHold
  rw [hheld, hany]
  rfl

theorem changeHold_keeps {h : HoldSources} (hany : s.sittings[k].held = false ∨ h.any = true) :
    changeHold k h s = s.setSitting k { s.sittings[k] with hold := h } := by
  unfold changeHold
  refine if_neg fun e => ?_
  obtain ⟨hheld, hempty⟩ := Bool.and_eq_true_iff.1 e
  rcases hany with hany | hany
  · exact Bool.false_ne_true (hany.symm.trans hheld)
  · simp [hany] at hempty

/-- Only where SITTING is the one source does its end empty the sources. -/
theorem resume_keeps (h : g.hold ≠ ⟨false, true⟩) : g.held = false ∨ HoldSources.any { g.hold with sitting := false } = true := by
  unfold Sitting.held HoldSources.any
  rcases hg : g.hold with ⟨hall, sitting⟩
  rw [hg] at h
  cases hall <;> cases sitting <;> simp at h ⊢

/-- Settles O29: a RESUME that empties the sources ends the hold, and nothing else that the two requests do does. -/
theorem holdAndResumeChangeTheSource : Obligations.HoldAndResumeChangeTheSource := by
  refine ⟨fun ι f j js s => ⟨rfl, rfl⟩, fun s k j => ⟨rfl, fun c hc => ?_, fun hc => ?_⟩,
    fun s k h => ⟨fun hk => ⟨?_, fun hhold => ?_, fun hhold => ?_⟩, fun hk i hi => ?_⟩⟩
  · rw [showEndOf, hc]
  · rw [showEndOf, hc]
  · refine exec_ok rfl h ?_
    rw [setSittingHold_running ((running_iff _).2 hk), changeHold_keeps (.inr (by simp [HoldSources.any]))]
    rfl
  · refine exec_ok rfl h ?_
    rw [setSittingHold_running ((running_iff _).2 hk), changeHold_ends, hhold]
    · rfl
    · rw [Sitting.held, hhold]
      rfl
    · rw [hhold]
      rfl
  · refine exec_ok rfl h ?_
    rw [setSittingHold_running ((running_iff _).2 hk), changeHold_keeps]
    · rfl
    · exact resume_keeps hhold
  · have hr := (not_running_iff _).2 hk
    simp only [List.mem_cons, List.not_mem_nil, or_false] at hi
    rcases hi with rfl | rfl | rfl
    · exact exec_refused rfl h (setSittingHold_refused hr true)
    · exact exec_refused rfl h (setSittingHold_refused hr false)
    · exact exec_refused rfl h (extend_refused hr (by omega) (by omega))

/-! ### The test for a sitting's close (R31, R127) -/

theorem keepsOpen_iff (k : Fin 8) (c : Candidate) : c.keepsOpen k = true ↔ c.sitting = k ∧
    (c.state ∈ [CandState.seated, .active, .resting] ∨ (c.state = .expected ∧ c.currentSeat ≠ none)) := by
  simp [Candidate.keepsOpen, writingStates, Option.isSome_iff_ne_none]

/-- Some record keeps a sitting from its close (R31). -/
def State.keptOpen (s : State) (k : Fin 8) : Bool := s.roll.any (fun y => y.2.keepsOpen k)

theorem keptOpen_iff (s : State) (k : Fin 8) : s.keptOpen k = true ↔ ∃ y ∈ s.roll, y.2.sitting = k ∧
    (y.2.state ∈ [CandState.seated, .active, .resting] ∨ (y.2.state = .expected ∧ y.2.currentSeat ≠ none)) := by
  simp only [State.keptOpen, List.any_eq_true, keepsOpen_iff]

theorem keepers_isEmpty (s : State) (k : Fin 8) : (s.slotsWhere (Candidate.keepsOpen k)).isEmpty = !s.keptOpen k := by
  rw [Bool.eq_iff_iff, Bool.not_eq_true', ← Bool.not_eq_true]
  simp [State.slotsWhere, State.keptOpen]

theorem closingTest_eq (k : Fin 8) (s : State) :
    closingTest k s = if s.sittings[k].state = .closing ∧ s.keptOpen k = false then closeSitting k s else s := by
  unfold closingTest
  rw [keepers_isEmpty]
  simp only [Bool.not_eq_true']

theorem releaseKey_eq (k : Fin 8) (s : State) : releaseKey k s = { s with
    keys := if s.keys[k].state = .sealed_ then s.keys.set k { s.keys[k] with state := .released } else s.keys } := by
  unfold releaseKey
  cases h : s.keys[k].state <;> simp [State.setKey]

theorem closeSitting_eq (k : Fin 8) (s : State) : closeSitting k s = { s with
    sittings := s.sittings.set k { s.sittings[k] with state := .closed, hold := ⟨false, false⟩ },
    keys := if s.keys[k].state = .sealed_ then s.keys.set k { s.keys[k] with state := .released } else s.keys,
    attention := (s.raise .time).attention } := by
  unfold closeSitting
  rw [releaseKey_eq]
  rfl

/-- Settles O31: the sitting closes where it is CLOSING and no record keeps it open. -/
theorem sittingClosesWhenNoRecordIsLeft : Obligations.SittingClosesWhenNoRecordIsLeft := by
  refine fun s k => ⟨fun hstate hfree => ?_, fun hkept => ?_⟩
  · have hopen : s.keptOpen k = false := by
      rw [← Bool.not_eq_true, keptOpen_iff]
      rintro ⟨y, hy, hyk, hst | ⟨hst, hseat⟩⟩
      · exact (hfree y hy hyk).1 hst
      · exact hseat ((hfree y hy hyk).2 hst)
    rw [closingTest_eq, if_pos ⟨hstate, hopen⟩, closeSitting_eq]
  · rw [closingTest_eq, if_neg]
    rintro ⟨hstate, hopen⟩
    rcases hkept with hkept | hkept
    · exact hkept hstate
    · exact Bool.false_ne_true (hopen.symm.trans ((keptOpen_iff s k).2 hkept))

/-! ### Personal times and REST_FOR (R56, R64, R65, R73, R74) -/

theorem showEnd_seated {x pe : Nat} (hx : c.currentSeat = some x) (hpe : c.personalEnd = some pe) (s : State) :
    showEnd c s = offerDesk x (.ending pe c.state (c.restBudget.getD 0 - c.restUsed)) s := by
  rw [showEnd, hx]
  dsimp only
  rw [endAt, hpe]
  rfl

theorem showEnd_silent (h : c.currentSeat = none ∨ c.personalEnd = none) (s : State) : showEnd c s = s := by
  unfold showEnd endAt
  rcases h with h | h
  · rw [h]
  · rw [h]
    cases c.currentSeat <;> rfl

/-- The extension is whole minutes, the least that cover W × a / 100 (R64). -/
theorem extensionOf_least (w a : Nat) :
    ∃ m, extensionOf w a = 60 * m ∧ w * a ≤ 6000 * m ∧ ∀ m', w * a ≤ 6000 * m' → m ≤ m' := by
  unfold extensionOf
  generalize w * a = p
  exact ⟨(p + 5999) / 6000, by omega, by omega, fun m' h => by omega⟩

theorem restBudgetOf_least (w r : Nat) :
    w * r ≤ 60 * restBudgetOf w r ∧ ∀ b, w * r ≤ 60 * b → restBudgetOf w r ≤ b := by
  unfold restBudgetOf
  generalize w * r = p
  exact ⟨by omega, fun b h => by omega⟩

theorem restFor_refused {m : Nat} {st : Status} (hres : s.resolve n m = .ok (j, c)) (hc : c.state ≠ .resting)
    (hr : restRefusal c s.sittings[c.sitting] = some st) : restFor n m true s = refuse st s := by
  unfold restFor
  rw [hres]
  dsimp only
  rw [hr]
  cases hstate : c.state <;> first | exact absurd hstate hc | rfl

theorem restFor_begins {m : Nat} (hres : s.resolve n m = .ok (j, c)) (hc : c.state ≠ .resting)
    (hr : restRefusal c s.sittings[c.sitting] = none) : restFor n m true s = okWith [] (setResting .resting j c s) := by
  unfold restFor
  rw [hres]
  dsimp only
  rw [hr]
  cases hstate : c.state <;> first | exact absurd hstate hc | rfl

theorem restFor_resting {m : Nat} (hres : s.resolve n m = .ok (j, c)) (hc : c.state = .resting) :
    restFor n m true s = okWith [] s ∧ restFor n m false s = okWith [] (setResting .active j c s) := by
  simp [restFor, hres, hc]

theorem restFor_end {m : Nat} (hres : s.resolve n m = .ok (j, c)) (hc : c.state ≠ .resting) :
    restFor n m false s = okWith [] s := by
  unfold restFor
  rw [hres]
  dsimp only
  cases hstate : c.state <;> first | exact absurd hstate hc | rfl

/-- The checks of a rest that begins, for an ACTIVE record in a sitting that is WRITING or CLOSING. -/
theorem restRefusal_active (hc : c.state = .active) (hg : g.state ∈ [SittingState.writing, .closing]) :
    restRefusal c g = if g.held then some .held else if c.restBudget.getD 0 ≤ c.restUsed then some .budget else none := by
  have hpass : ¬ (c.state ≠ .active ∨ g.state ≠ .writing ∧ g.state ≠ .closing) := by
    simp only [List.mem_cons, List.not_mem_nil, or_false] at hg
    tauto
  rw [restRefusal, if_neg hpass]

theorem restRefusal_state (h : c.state ≠ .active ∨ g.state ∉ [SittingState.writing, .closing]) :
    restRefusal c g = some .state := by
  have hstop : c.state ≠ .active ∨ g.state ≠ .writing ∧ g.state ≠ .closing := by
    simp only [List.mem_cons, List.not_mem_nil, or_false, not_or] at h
    exact h
  rw [restRefusal, if_pos hstop]

/-- Settles O42. -/
theorem personalTimesAndRest : Obligations.PersonalTimesAndRest := by
  refine ⟨fun s c => ⟨fun x pe hx hpe => showEnd_seated hx hpe s, fun h => showEnd_silent h s⟩,
    ⟨extensionOf_least, restBudgetOf_least, fun t c => rfl, fun t => rfl, fun t c ha hu => ?_⟩,
    fun s n k j c g h hres hg => ⟨fun hc => ?_, fun hc => ⟨?_, fun hstop => ?_⟩, fun hc hphase => ?_, fun hc => ?_⟩⟩
  · simp [Candidate.withTimes, Candidate.withPersonalEnd, personalEndOf, extensionOf, Sitting.baseEnd, ha, hu]
  · exact exec_ok rfl h (restFor_resting hres hc).1
  · exact exec_ok rfl h (restFor_end hres hc)
  · exact exec_refused rfl h (restFor_refused hres hc (restRefusal_state (hg ▸ hstop)))
  · have hne : c.state ≠ .resting := fun e => by simp [hc] at e
    have hrefusal := restRefusal_active hc hphase
    refine ⟨fun hheld => exec_refused rfl h (restFor_refused hres hne ?_),
      fun hheld hspent => exec_refused rfl h (restFor_refused hres hne ?_),
      fun hheld hleft => exec_ok rfl h (restFor_begins hres hne ?_)⟩ <;> rw [← hg, hrefusal, hheld]
    · rfl
    · rw [if_neg Bool.false_ne_true, if_pos hspent]
    · rw [if_neg Bool.false_ne_true, if_neg (Nat.not_le.2 hleft)]
  · exact exec_ok rfl h (restFor_resting hres hc).2

end Sys2Proof.Machine
end

