-- ==== Sys2Proof/Proofs/Extending.lean ====
section
/-! SUPPORT. What is said to the desks alone (R85, R89), and EXTEND: the sitting's records first, then the ENDs for their
desks (R36, R37, R80). -/

namespace Sys2Proof.Machine

variable {s t u : State} {i j : Nat} {k : Fin 8} {c d : Candidate}

/-! ### The desks are told (R85, R89) -/

/-- What SHOWs offered to desks can change: the queues, and the seats' stale flags. -/
structure State.Spoken (s t : State) : Prop where
  desks : s.OnlyDesks t
  queues : s.sameButQueues t
  seats : ∀ x, (t.seat x).butStale = (s.seat x).butStale

namespace State.Spoken

theorem refl (s : State) : s.Spoken s := ⟨rfl, fun _ => rfl, fun _ => rfl⟩

theorem trans (h : s.Spoken t) (g : t.Spoken u) : s.Spoken u :=
  ⟨h.desks.trans g.desks, fun m => (g.queues m).trans (h.queues m), fun x => (g.seats x).trans (h.seats x)⟩

end State.Spoken

theorem State.Told.spoken {x : Nat} (h : s.Told t x) : s.Spoken t := by
  refine ⟨h.frame, h.queues, fun y => ?_⟩
  by_cases hy : y = x
  · rw [hy]
    exact h.seat
  · rw [h.others y hy]

theorem offerDesk_spoken (x : Nat) (w : ShowContent) (s : State) : s.Spoken (offerDesk x w s) := (offerDesk_told x w s).spoken

theorem showEnd_spoken (c : Candidate) (s : State) : s.Spoken (showEnd c s) := by
  unfold showEnd endAt
  repeat' split
  · exact offerDesk_spoken ..
  · exact .refl s
  · exact .refl s

theorem showNotice_spoken (c : Candidate) (n : Notice) (s : State) : s.Spoken (showNotice c n s) := by
  unfold showNotice
  split
  · exact offerDesk_spoken ..
  · exact .refl s

theorem showEndOf_spoken (j : Nat) (s : State) : s.Spoken (showEndOf j s) := by
  unfold showEndOf
  split
  · exact .refl s
  · exact showEnd_spoken ..

theorem takeInTurn_spoken {ι : Type} (is : List ι) (f : ι → State → State) (h : ∀ (i : ι) (s : State), s.Spoken (f i s))
    (s : State) : s.Spoken (takeInTurn is f s) :=
  takeInTurn_invariant (fun t => s.Spoken t) is f (fun i t ht => ht.trans (h i t)) s (.refl s)

/-- The desks are told the same whatever the candidate records are. -/
theorem offerDesk_roll (x : Nat) (w : ShowContent) (s : State) (r : Table Candidate) :
    offerDesk x w { s with roll := r } = { offerDesk x w s with roll := r } := by
  refine (offerDesk_withRecords x w s r s.scripts).trans ?_
  unfold State.withRecords
  rw [(offerDesk_desks x w s)]

theorem showEnd_roll (c : Candidate) (s : State) (r : Table Candidate) :
    showEnd c { s with roll := r } = { showEnd c s with roll := r } := by
  unfold showEnd endAt
  cases c.currentSeat with
  | none => rfl
  | some x =>
    cases c.personalEnd with
    | none => rfl
    | some pe => exact offerDesk_roll ..

theorem State.Spoken.roll (h : s.Spoken t) : t.roll = s.roll := by rw [h.desks]

theorem State.Spoken.cand (h : s.Spoken t) (j : Nat) : t.cand j = s.cand j := by
  unfold State.cand
  rw [h.roll]

/-! ### The records of a sitting in their order -/

/-- A store lists each number once. -/
theorem slotsWhere_nodup (hs : s.Stores) (p : Candidate → Bool) : (s.slotsWhere p).Nodup := by
  have hsorted : (s.roll.map Prod.fst).Pairwise (· < ·) := by simpa [tableSorted] using hs.roll.1
  exact (hsorted.imp fun h => Nat.ne_of_lt h).sublist (List.filter_sublist.map _)

theorem mem_timedOf (hs : s.Stores) : i ∈ s.timedOf k ↔
    ∃ d, s.cand i = some d ∧ d.sitting = k ∧ d.state ∈ [CandState.active, .resting] := by
  unfold State.timedOf
  simp [mem_slotsWhere hs]

/-! ### EXTEND (R36, R37, R80) -/

theorem extendRecord_none (k : Fin 8) (hc : s.cand j = none) : extendRecord k j s = s := by
  unfold extendRecord
  rw [hc]

theorem extendRecord_eq (k : Fin 8) (hc : s.cand j = some c) : extendRecord k j s =
    { showEnd (c.withTimes s.sittings[k]) s with roll := tableInsert s.roll j (c.withTimes s.sittings[k]) } := by
  unfold extendRecord
  rw [hc]
  exact showEnd_roll ..

theorem cand_extendRecord (k : Fin 8) (j i : Nat) (s : State) : (extendRecord k j s).cand i =
    if i = j then (s.cand j).map (Candidate.withTimes s.sittings[k]) else s.cand i := by
  cases hc : s.cand j with
  | none =>
    rw [extendRecord_none k hc]
    split
    · next h => rw [h, hc]; rfl
    · rfl
  | some c =>
    rw [extendRecord_eq k hc]
    exact State.cand_setCand s j i _

/-- Each record of the list has its times recomputed, and the others are as before. -/
theorem cand_extendRecords (k : Fin 8) {l : List Nat} (hl : l.Nodup) (s : State) (i : Nat) :
    (takeInTurn l (extendRecord k) s).cand i =
      if i ∈ l then (s.cand i).map (Candidate.withTimes s.sittings[k]) else s.cand i := by
  induction l generalizing s with
  | nil => rfl
  | cons j l ih =>
    obtain ⟨hj, hl⟩ := List.nodup_cons.1 hl
    have hsit := (clock_eq_iff.1 (extendRecord_clock k j s)).2
    show (takeInTurn l (extendRecord k) (extendRecord k j s)).cand i = _
    rw [ih hl, hsit, cand_extendRecord]
    by_cases hij : i = j
    · subst hij
      simp [hj]
    · simp [hij]

/-- The desks are told as if all the records had been rewritten before. -/
theorem extendRecords_shown (k : Fin 8) {l : List Nat} (hl : l.Nodup) (hlive : ∀ j ∈ l, (s.cand j).isSome = true) :
    takeInTurn l (extendRecord k) s =
      takeInTurn l showEndOf { s with roll := (takeInTurn l (extendRecord k) s).roll } := by
  induction l generalizing s with
  | nil => rfl
  | cons j l ih =>
    obtain ⟨c, hc⟩ := Option.isSome_iff_exists.1 (hlive j List.mem_cons_self)
    obtain ⟨hj, hl'⟩ := List.nodup_cons.1 hl
    have hlive' : ∀ i ∈ l, ((extendRecord k j s).cand i).isSome = true := fun i hi => by
      rw [cand_extendRecord, if_neg fun e : i = j => hj (e ▸ hi)]
      exact hlive i (List.mem_cons_of_mem _ hi)
    have hcand : (takeInTurn l (extendRecord k) (extendRecord k j s)).cand j = some (c.withTimes s.sittings[k]) := by
      rw [cand_extendRecords k hl', if_neg hj, cand_extendRecord, if_pos rfl, hc]
      rfl
    show takeInTurn l (extendRecord k) (extendRecord k j s) = takeInTurn l showEndOf (showEndOf j
      { s with roll := (takeInTurn l (extendRecord k) (extendRecord k j s)).roll })
    generalize hr : (takeInTurn l (extendRecord k) (extendRecord k j s)).roll = r at *
    have hfirst : showEndOf j { s with roll := r } = { extendRecord k j s with roll := r } := by
      have hcand' : State.cand { s with roll := r } j = some (c.withTimes s.sittings[k]) := by
        rw [← hcand, State.cand, ← hr]
        rfl
      rw [extendRecord_eq k hc, showEndOf, hcand']
      exact showEnd_roll ..
    rw [hfirst, ih hl' hlive', hr]

/-- EXTEND's record, in the words of the rule (R36, R37). -/
theorem extended_eq (g : Sitting) (delta : Nat) : g.extended delta = { g with
    w := min (g.w + delta) 21600,
    state := if g.state = .closing ∧ g.e < g.r + min (g.w + delta) 21600 then .writing else g.state } := by
  unfold Sitting.extended
  rw [clampTo_eq]

theorem extend_running {delta : Nat} (hr : s.sittings[k].running = true) (h1 : 1 ≤ delta) (h2 : delta ≤ 3600) :
    extend k delta s = okOrClamped (decide (21600 < s.sittings[k].w + delta))
      (be2 (s.sittings[k].extended delta).w ++ be3 (s.sittings[k].extended delta).baseEnd ++
        be1 (s.sittings[k].extended delta).state.code)
      (if (s.sittings[k].extended delta).w = s.sittings[k].w then s.setSitting k (s.sittings[k].extended delta)
        else takeInTurn (s.timedOf k) (extendRecord k) (s.setSitting k (s.sittings[k].extended delta))) := by
  unfold extend
  rw [sittingOf_val]
  dsimp only
  rw [if_neg (by omega), hr]
  rfl

/-- The records of a sitting whose W has changed, and what their desks are told (R80). -/
theorem extendRecords_effect (hs : s.Stores) (k : Fin 8) (new : Sitting) :
    have t := takeInTurn (s.timedOf k) (extendRecord k) (s.setSitting k new)
    t = takeInTurn (s.timedOf k) showEndOf { s.setSitting k new with roll := t.roll } ∧
      State.Spoken { s.setSitting k new with roll := t.roll } t ∧
      ∀ i, t.cand i = if i ∈ s.timedOf k then (s.cand i).map (Candidate.withTimes new) else s.cand i := by
  intro t
  have hlist : (s.timedOf k).Nodup := slotsWhere_nodup hs _
  have hlive : ∀ j ∈ s.timedOf k, ((s.setSitting k new).cand j).isSome = true := fun j hj => by
    obtain ⟨c, hc, -⟩ := (mem_timedOf hs).1 hj
    exact Option.isSome_iff_exists.2 ⟨c, hc⟩
  have hshown : t = takeInTurn (s.timedOf k) showEndOf { s.setSitting k new with roll := t.roll } :=
    extendRecords_shown k hlist hlive
  refine ⟨hshown, ?_, fun i => ?_⟩
  · conv => rhs; rw [hshown]
    exact takeInTurn_spoken (s.timedOf k) showEndOf showEndOf_spoken _
  · have hcand := cand_extendRecords k hlist (s.setSitting k new) i
    rw [setSitting_self] at hcand
    exact hcand

/-- Settles O30. -/
theorem extendLengthensTheSitting : Obligations.ExtendLengthensTheSitting := by
  intro s k delta new h hstore h1 h2 hk hnew
  have hs := (storeLaw_iff s).1 hstore
  have hext : s.sittings[k].extended delta = new := by rw [extended_eq, hnew]
  have hexec := extend_running ((running_iff _).2 hk) h1 h2
  rw [hext] at hexec
  by_cases hw : new.w = s.sittings[k].w
  · rw [if_pos hw] at hexec
    exact ⟨_, exec_okOrClamped rfl h hexec decide_eq_true_iff, rfl, fun _ => rfl, fun hne => absurd hw hne, fun _ => rfl,
      fun _ => rfl, fun _ hi => hi, fun i d hd => ⟨fun hyes => absurd hw hyes.2.2, fun _ => hd⟩⟩
  · rw [if_neg hw] at hexec
    obtain ⟨hshown, hspoken, hcand⟩ := extendRecords_effect hs k new
    refine ⟨_, exec_okOrClamped rfl h hexec decide_eq_true_iff, hspoken.desks, fun e => absurd e hw, fun _ => hshown,
      hspoken.queues, hspoken.seats, fun i hi => ?_, fun i d hd => ⟨fun hyes => ?_, fun hno => ?_⟩⟩
    · rw [hcand, hi]
      split <;> rfl
    · rw [hcand, if_pos ((mem_timedOf hs).2 ⟨d, hd, hyes.1, hyes.2.1⟩), hd]
      rfl
    · rw [hcand, if_neg]
      · exact hd
      · intro hi
        obtain ⟨d', hd', hsitting, hstate⟩ := (mem_timedOf hs).1 hi
        obtain rfl := Option.some.inj (hd.symm.trans hd')
        exact hno ⟨hsitting, hstate, hw⟩

end Sys2Proof.Machine
end

