-- ==== Sys2Proof/Proofs/RecordVisits.lean ====
section
/-! SUPPORT. What a hall second's operations on candidate records can change (R29, R30, R59, R66 to R69, R77, R81): the
records that they take, the seats that these have, the queues of the desks, causes, keys and sittings that close. -/

namespace Sys2Proof.Machine

variable {s t u : State} {I : Nat → Prop} {i j x : Nat} {k : Fin 8} {c d : Candidate}

/-! ### The footprint of the records that are taken -/

/-- The records of some roll slots may have been taken: nothing but the records of the hall has changed; the other slots'
records are as before, and so is a seat that none of those taken had; a record keeps its sitting, and its seat or none; a
pending group stays pending. -/
structure State.Visit (I : Nat → Prop) (s t : State) : Prop where
  frame : t = { s with
    sittings := t.sittings, roll := t.roll, seats := t.seats, segments := t.segments, scripts := t.scripts,
    keys := t.keys, attention := t.attention }
  queues : s.sameButQueues t
  others : ∀ i, ¬ I i → t.cand i = s.cand i
  kept : ∀ i d, t.cand i = some d → ∃ c, s.cand i = some c ∧ d.sitting = c.sitting ∧
    (d.currentSeat = c.currentSeat ∨ d.currentSeat = none)
  seats : ∀ x, (∀ i c, I i → s.cand i = some c → c.currentSeat ≠ some x) → (t.seat x).butStale = (s.seat x).butStale
  pending : ∀ g : Fin 6, s.attention[g].pending = true → t.attention[g].pending = true

namespace State.Visit

/-- A change that leaves records, seats and causes. -/
theorem of_same (frame : t = { s with
    sittings := t.sittings, segments := t.segments, scripts := t.scripts, keys := t.keys }) (queues : s.sameButQueues t) :
    s.Visit I t := by
  have hroll : t.roll = s.roll := by rw [frame]
  have hseats : t.seats = s.seats := by rw [frame]
  have hcand : ∀ i, t.cand i = s.cand i := fun i => by rw [State.cand, hroll]; rfl
  refine ⟨by rw [frame], queues, fun i _ => hcand i, fun i d hd => ⟨d, (hcand i).symm.trans hd, rfl, .inl rfl⟩,
    fun x _ => by rw [State.seat, hseats]; rfl, fun g hg => ?_⟩
  rw [frame]
  exact hg

theorem refl (s : State) : s.Visit I s := .of_same rfl fun _ => rfl

theorem trans (h : s.Visit I t) (g : t.Visit I u) : s.Visit I u := by
  refine ⟨?_, fun m => (g.queues m).trans (h.queues m), fun i hi => (g.others i hi).trans (h.others i hi),
    fun i e he => ?_, fun x hx => (g.seats x fun i e hi he => ?_).trans (h.seats x hx), fun m hm => g.pending m (h.pending m hm)⟩
  · have hu := g.frame
    rw [h.frame] at hu
    exact hu
  · obtain ⟨d, hd, hsit, hseat⟩ := g.kept i e he
    obtain ⟨c, hc, hsit', hseat'⟩ := h.kept i d hd
    refine ⟨c, hc, hsit.trans hsit', ?_⟩
    rcases hseat with hseat | hseat
    · rw [hseat]
      exact hseat'
    · exact .inr hseat
  · obtain ⟨c, hc, -, hseat⟩ := h.kept i e he
    rcases hseat with hseat | hseat <;> rw [hseat]
    · exact hx i c hi hc
    · exact nofun

theorem after (g : t.Visit I u) (h : s.Visit I t) : s.Visit I u := h.trans g

theorem mono {J : Nat → Prop} (h : s.Visit I t) (hIJ : ∀ i, I i → J i) : s.Visit J t :=
  { h with others := fun i hi => h.others i fun e => hi (hIJ i e)
           seats := fun x hx => h.seats x fun i c hi => hx i c (hIJ i hi) }

theorem hallTime (h : s.Visit I t) : t.hallTime = s.hallTime := by rw [h.frame]

end State.Visit

/-! ### The shared operations -/

theorem State.Spoken.visit (h : s.Spoken t) : s.Visit I t := by
  refine ⟨?_, h.queues, fun i _ => h.cand i, fun i d hd => ⟨d, (h.cand i).symm.trans hd, rfl, .inl rfl⟩,
    fun x _ => h.seats x, fun g hg => ?_⟩
  · rw [h.desks]
  · rw [h.desks]
    exact hg

theorem raise_visit (g : CauseGroup) (s : State) : s.Visit I (s.raise g) := by
  refine ⟨rfl, fun _ => rfl, fun _ _ => rfl, fun i d hd => ⟨d, hd, rfl, .inl rfl⟩, fun _ _ => rfl, fun m hm => ?_⟩
  by_cases h : g.index = m
  · subst h
    simp [Group.withCause]
  · have : g.index.val ≠ m.val := fun e => h (Fin.ext e)
    simpa [this] using hm

/-- A live record rewritten, with its sitting and its seat. -/
theorem setCand_visit (hj : I j) (hc : s.cand j = some c) (hsit : d.sitting = c.sitting)
    (hseat : d.currentSeat = c.currentSeat ∨ d.currentSeat = none) : s.Visit I (s.setCand j d) := by
  refine ⟨rfl, fun _ => rfl, fun i hi => ?_, fun i e he => ?_, fun _ _ => rfl, fun _ h => h⟩
  · rw [State.cand_setCand, if_neg fun e : i = j => hi (e ▸ hj)]
  · rw [State.cand_setCand] at he
    split at he
    · next h =>
      obtain rfl := Option.some.inj he
      exact ⟨c, h ▸ hc, hsit, hseat⟩
    · exact ⟨e, he, rfl, .inl rfl⟩

/-- The seat of a record that is taken, rewritten. -/
theorem setSeat_visit (hj : I j) (hc : s.cand j = some c) (hx : c.currentSeat = some x) {v : Seat}
    (hv : v ≠ Seat.undefinedRecord) : s.Visit I (s.setSeat x v) := by
  refine ⟨rfl, fun _ => rfl, fun _ _ => rfl, fun i d hd => ⟨d, hd, rfl, .inl rfl⟩, fun y hy => ?_, fun _ h => h⟩
  rw [seat_setSeat hv, if_neg fun e : y = x => hy j c hj hc (e ▸ hx)]

theorem closingTest_visit (k : Fin 8) (s : State) : s.Visit I (closingTest k s) := by
  rw [closingTest_eq]
  split
  · unfold closeSitting
    refine .trans ?_ (raise_visit ..)
    rw [releaseKey_eq]
    exact .of_same rfl fun _ => rfl
  · exact .refl s

/-- A record gives its seat up: the order in which record and seat are written does not count. -/
theorem setCand_freeSeat (j x : Nat) (d : Candidate) (s : State) :
    freeSeat x (s.setCand j d) = (freeSeat x s).setCand j d := rfl

theorem seatGivenUp_visit (hj : I j) (hc : s.cand j = some c) (hx : c.currentSeat = some x) (hsit : d.sitting = c.sitting)
    (hd : d.currentSeat = none) : s.Visit I (offerDesk x .blank (freeSeat x (s.setCand j d))) := by
  refine .trans ?_ (offerDesk_spoken ..).visit
  rw [setCand_freeSeat]
  exact .trans (setSeat_visit hj hc hx (freed_ne_undefined (s.seat x))) (setCand_visit hj hc hsit (.inr hd))

theorem clearRecord_visit (hj : I j) (hc : s.cand j = some c) (b : Bool) : s.Visit I (clearRecord j c b s) := by
  unfold clearRecord
  split
  · exact setCand_visit hj hc rfl (.inl rfl)
  · next x hx => exact seatGivenUp_visit hj hc hx rfl rfl

theorem clearanceTest_visit (hj : I j) (s : State) : s.Visit I (clearanceTest j s) := by
  unfold clearanceTest
  split
  · exact .refl s
  · next c hc =>
    split
    · exact clearRecord_visit hj hc _
    · exact .refl s

theorem submitOnFinish_visit (hj : I j) (s : State) : s.Visit I (submitOnFinish j s) := by
  have submitted : s.Visit I (s.mapScripts (Script.submittedBy j s.hallTime)) := .of_same rfl fun _ => rfl
  unfold submitOnFinish
  split
  · exact .refl s
  next c hc =>
  split
  · exact .trans (clearRecord_visit hj hc true) (raise_visit ..)
  · refine .trans ?_ (clearanceTest_visit hj _)
    split
    · exact submitted
    · next x hx =>
      exact State.Visit.after (setSeat_visit (s := s.mapScripts _) hj hc hx (vacatedBy_ne_undefined j (s.seat x))) submitted

theorem endExpected_visit (hj : I j) (st : CandState) (s : State) : s.Visit I (endExpected st j s) := by
  unfold endExpected
  split
  · exact .refl s
  next c hc =>
  split
  · exact setCand_visit hj hc rfl (.inl rfl)
  · next x hx => exact seatGivenUp_visit hj hc hx rfl rfl

theorem finish_visit (hj : I j) (why : FinishCause) (s : State) : s.Visit I (finish why j s) := by
  unfold finish
  split
  · exact .refl s
  · next c hc =>
    exact (closingTest_visit ..).after ((submitOnFinish_visit hj _).after ((showNotice_spoken ..).visit.after
      (setCand_visit hj hc rfl (.inl rfl))))

theorem warningTest_visit (hj : I j) (s : State) : s.Visit I (warningTest j s) := by
  unfold warningTest
  split
  · exact .refl s
  next c hc =>
  split
  · exact (raise_visit ..).after ((showNotice_spoken ..).visit.after (setCand_visit hj hc rfl (.inl rfl)))
  · exact .refl s

theorem activate_visit (hj : I j) (s : State) : s.Visit I (activate j s) := by
  unfold activate
  split
  · exact .refl s
  · next c hc =>
    exact (warningTest_visit hj _).after ((showEnd_spoken ..).visit.after (setCand_visit hj hc rfl (.inl rfl)))

/-! ### A record's second and its day end (R66 to R69, R81) -/

theorem accrueRest_visit (hj : I j) (before : Vector Sitting 8) (s : State) : s.Visit I (accrueRest before j s) := by
  unfold accrueRest
  split
  · exact .refl s
  · next c hc => exact setCand_visit hj hc rfl (.inl rfl)

theorem restOver_visit (hj : I j) (s : State) : s.Visit I (restOver j s) := by
  unfold restOver
  split
  · exact .refl s
  next c hc =>
  split
  · exact (showEnd_spoken ..).visit.after ((showNotice_spoken ..).visit.after (setCand_visit hj hc rfl (.inl rfl)))
  · exact .refl s

theorem recordSecond_visit (hj : I j) (before : Vector Sitting 8) (s : State) : s.Visit I (recordSecond before j s) := by
  have reached : ∀ u : State, u.Visit I (reachEnd j u) := by
    intro u
    unfold reachEnd
    repeat' split
    · exact .refl u
    · exact finish_visit hj ..
    · exact warningTest_visit hj u
  exact ((accrueRest_visit hj before s).trans (restOver_visit hj _)).trans (reached _)

theorem recordDayEnd_visit (hj : I j) (before : Vector Sitting 8) (s : State) : s.Visit I (recordDayEnd before j s) :=
  ((accrueRest_visit hj before s).trans (restOver_visit hj _)).trans (finish_visit hj ..)

theorem takeInTurn_records_visit {l : List Nat} (hl : ∀ j ∈ l, I j) {f : Nat → State → State}
    (hf : ∀ {j}, I j → ∀ s : State, s.Visit I (f j s)) (s : State) : s.Visit I (takeInTurn l f s) := by
  induction l generalizing s with
  | nil => exact .refl s
  | cons j l ih =>
    exact .trans (hf (hl j List.mem_cons_self) s) (ih (fun i hi => hl i (List.mem_cons_of_mem _ hi)) (f j s))

/-! ### A sitting's second and its day end (R29, R30, R38, R59) -/

/-- Some roll slots are all, or in a lawful store those of the sitting's records that are SEATED or EXPECTED. -/
def State.Covered (I : Nat → Prop) (k : Fin 8) (s : State) : Prop :=
  (∀ i, I i) ∨ (s.Stores ∧
    ∀ i c, s.cand i = some c → c.sitting = k → c.state ∈ [CandState.seated, .expected] → I i)

theorem State.Covered.visit (h : s.Covered I k) (hv : s.Visit I t) (hq : s.Quiet t) : t.Covered I k := by
  rcases h with h | ⟨hs, h⟩
  · exact .inl h
  · refine .inr ⟨hq.stores hs, fun i d hd hsit hst => ?_⟩
    by_contra hi
    exact hi (h i d ((hv.others i hi).symm.trans hd) hsit hst)

theorem State.Covered.slots (h : s.Covered I k) {p : Candidate → Bool}
    (hp : ∀ c, p c = true → c.sitting = k ∧ c.state ∈ [CandState.seated, .expected]) : ∀ j ∈ s.slotsWhere p, I j := by
  intro j hj
  rcases h with h | ⟨hs, h⟩
  · exact h j
  · obtain ⟨c, hc, hpc⟩ := (mem_slotsWhere hs).1 hj
    exact h j c hc (hp c hpc).1 (hp c hpc).2

theorem State.Covered.seatedOf (h : s.Covered I k) : ∀ j ∈ s.seatedOf k, I j :=
  h.slots fun c hc => by simp_all

theorem State.Covered.expectedOf (h : s.Covered I k) : ∀ j ∈ s.expectedOf k, I j :=
  h.slots fun c hc => by simp_all

theorem setSitting_visit (k : Fin 8) (g : Sitting) (s : State) : s.Visit I (s.setSitting k g) := .of_same rfl fun _ => rfl

/-- A sitting record that is rewritten keeps what covers its records. -/
theorem State.Covered.setSitting (h : s.Covered I k) {g : Sitting} (hg : g.t0 = s.sittings[k].t0) :
    (s.setSitting k g).Covered I k := h.visit (setSitting_visit ..) (setSitting_quiet hg)

theorem closeAdmission_visit (h : s.Covered I k) : s.Visit I (closeAdmission k s) := by
  unfold closeAdmission
  split
  · exact .refl s
  · exact ((takeInTurn_records_visit h.expectedOf (fun hj => endExpected_visit hj .absent) s).trans
      (closingTest_visit ..)).trans (raise_visit ..)

theorem beginSitting_visit (h : s.Covered I k) : s.Visit I (beginSitting k s) := by
  have started := (setSitting_visit (I := I) k (s.sittings[k].started s.holdFilter.filtered) s).trans
    (takeInTurn_records_visit h.seatedOf activate_visit _)
  have quiet := (setSitting_quiet (s := s) (k := k) (v := s.sittings[k].started s.holdFilter.filtered) rfl).trans
    (takeInTurn_quiet (s.seatedOf k) activate activate_quiet _)
  unfold beginSitting
  dsimp only
  split
  · exact started.trans (closeAdmission_visit (h.visit started quiet))
  · exact started

theorem opened_t0 (now : Nat) (g : Sitting) : (g.opened now).t0 = g.t0 := by
  unfold Sitting.opened
  split <;> rfl

theorem reached_t0 (g : Sitting) : g.reached.t0 = g.t0 := by
  unfold Sitting.reached
  split <;> rfl

theorem agedSitting_visit (h : s.Covered I k) : s.Visit I (agedSitting k s) := by
  unfold agedSitting reachAdmissionClose
  split
  · exact .trans (setSitting_visit ..) (closeAdmission_visit
      (h.setSitting ((reached_t0 _).trans (accrue_t0 _))))
  · exact setSitting_visit ..

theorem sittingSecond_visit (h : s.Covered I k) (moved : Bool) : s.Visit I (sittingSecond moved k s) := by
  cases hr : s.sittings[k].running with
  | true =>
    rw [sittingSecond_running hr]
    unfold moveToClosing
    split
    · exact ((agedSitting_visit h).trans (setSitting_visit ..)).trans (closingTest_visit ..)
    · exact agedSitting_visit h
  | false =>
    rw [sittingSecond_idle hr]
    split
    · unfold startSitting
      split
      · exact .trans (setSitting_visit ..) (beginSitting_visit (h.setSitting (opened_t0 ..)))
      · exact setSitting_visit ..
    · exact .refl s

theorem dayEndSitting_visit (h : s.Covered I k) : s.Visit I (dayEndSitting k s) := by
  unfold dayEndSitting
  split
  · refine .trans ?_ (closingTest_visit ..)
    split
    · exact .trans (setSitting_visit ..) (closeAdmission_visit (h.setSitting rfl))
    · exact setSitting_visit ..
  · exact .refl s

end Sys2Proof.Machine
end

