-- ==== Sys2Proof/Proofs/HallSecondWhole.lean ====
section
/-! SUPPORT. The hall second as a whole (R21): the sittings, then the records, then a TIME for every segment that is not
DISABLED (R85, R87). -/

namespace Sys2Proof.Machine

variable {s t u : State} {I : Nat → Prop} {k : Fin 8} {m : Fin 4} {g g' : Sitting}

/-! ### The records of a hall second (R21, R66, R81) -/

/-- The hall second but for the segments: the clock, the sittings and the records have taken it. -/
def State.secondTaken (s : State) : State :=
  if s.hallTime + 1 = Config.lastSecond then
    dayEnd s.sittings (sittingsSecond (decide (s.hallTime < Config.lastSecond)) (advanceClock s))
  else personalSecond s.sittings (sittingsSecond (decide (s.hallTime < Config.lastSecond)) (advanceClock s))

theorem hallSecond_eq (s : State) : hallSecond s = takeInTurn four broadcastTime s.secondTaken := rfl

theorem takeInTurn_all_visit {ι : Type} (is : List ι) {f : ι → State → State} (hf : ∀ i (s : State), s.Visit I (f i s))
    (s : State) : s.Visit I (takeInTurn is f s) :=
  takeInTurn_invariant (fun t => s.Visit I t) is f (fun i t ht => ht.trans (hf i t)) s (.refl s)

theorem sameButQueues_line (h : s.sameButQueues t) (m : Fin 4) : t.segments[m].line = s.segments[m].line :=
  (Segment.mk.inj (h m)).1

theorem secondTaken_visit (s : State) : (advanceClock s).Visit (fun _ => True) s.secondTaken := by
  have sittings : (advanceClock s).Visit (fun _ => True)
      (sittingsSecond (decide (s.hallTime < Config.lastSecond)) (advanceClock s)) :=
    takeInTurn_all_visit eight (fun k u => sittingSecond_visit (k := k) (.inl fun _ => trivial) _) _
  unfold State.secondTaken
  split
  · exact (sittings.trans (takeInTurn_all_visit eight (fun k u => dayEndSitting_visit (k := k) (.inl fun _ => trivial)) _)).trans
      (takeInTurn_all_visit _ (fun j u => recordDayEnd_visit trivial s.sittings u) _)
  · exact sittings.trans (takeInTurn_all_visit _ (fun j u => recordSecond_visit trivial s.sittings u) _)

/-! ### A TIME for every segment (R85, R87) -/

theorem setSegment_segment (s : State) (m i : Fin 4) (v : Segment) :
    (s.setSegment m v).segments[i] = if i = m then v else s.segments[i] := by
  by_cases h : i = m
  · subst h
    simp
  · have : m.val ≠ i.val := fun e => h (Fin.ext e.symm)
    simp [h, this]

theorem kickSegment_frame (m : Fin 4) (s : State) : kickSegment m s = { s with segments := (kickSegment m s).segments } := by
  unfold kickSegment
  split <;> rfl

theorem kickSegment_other {i : Fin 4} (h : i ≠ m) (s : State) : (kickSegment m s).segments[i] = s.segments[i] := by
  unfold kickSegment
  split
  · rw [setSegment_segment, if_neg h]
  · rfl

theorem broadcastTime_disabled (h : s.segments[m].line = .disabled) : broadcastTime m s = s := by
  have howes : s.segments[m].owesTime = s.segments[m] := by rw [Segment.owesTime, h]
  have hset : s.setSegment m s.segments[m] = s := by simp [State.setSegment]
  rw [broadcastTime, howes, hset, kickSegment, h]

theorem broadcastTime_running (h : s.segments[m].line ≠ .disabled) :
    broadcastTime m s = kickSegment m (s.setSegment m { s.segments[m] with timeDue := true }) := by
  unfold broadcastTime Segment.owesTime
  split
  · next hd => exact absurd hd h
  all_goals rfl

theorem broadcastTime_frame (m : Fin 4) (s : State) :
    broadcastTime m s = { s with segments := (broadcastTime m s).segments } := by
  rw [broadcastTime, kickSegment_frame]
  rfl

theorem broadcastTimes_frame (is : List (Fin 4)) (s : State) :
    takeInTurn is broadcastTime s = { s with segments := (takeInTurn is broadcastTime s).segments } :=
  takeInTurn_invariant (fun t => t = { s with segments := t.segments }) is broadcastTime (fun m t ht => by
    have hm := broadcastTime_frame m t
    generalize broadcastTime m t = w at hm
    rw [hm, ht]) s rfl

/-- A segment with a TIME due and no exchange in progress sends it; the line's state stays. -/
theorem kickSegment_time (hdue : s.segments[m].timeDue = true) :
    (kickSegment m s).segments[m].line = s.segments[m].line ∧ ((kickSegment m s).segments[m].timeDue = true ∨
      ∃ held, (kickSegment m s).segments[m].sending = some (.time s.hallTime held)) := by
  unfold kickSegment
  split
  · rw [setSegment_segment, if_pos rfl, State.chosen, if_pos hdue]
    exact ⟨rfl, .inr ⟨_, rfl⟩⟩
  · exact ⟨rfl, .inl hdue⟩

/-- Every segment that is not DISABLED owes a TIME or is sending it. -/
theorem broadcastTime_owed (m : Fin 4) (s : State) : (broadcastTime m s).segments[m].line = s.segments[m].line ∧
    (s.segments[m].line ≠ .disabled → (broadcastTime m s).segments[m].timeDue = true ∨
      ∃ held, (broadcastTime m s).segments[m].sending = some (.time s.hallTime held)) := by
  by_cases h : s.segments[m].line = .disabled
  · rw [broadcastTime_disabled h]
    exact ⟨rfl, fun e => absurd h e⟩
  · have hm : (s.setSegment m { s.segments[m] with timeDue := true }).segments[m] = { s.segments[m] with timeDue := true } := by
      rw [setSegment_segment, if_pos rfl]
    obtain ⟨hline, howed⟩ := kickSegment_time (m := m) (s := s.setSegment m { s.segments[m] with timeDue := true })
      (by rw [hm])
    rw [hm] at hline
    rw [broadcastTime_running h]
    exact ⟨hline, fun _ => howed⟩

theorem broadcastTime_other {i : Fin 4} (h : i ≠ m) (s : State) : (broadcastTime m s).segments[i] = s.segments[i] := by
  by_cases hd : s.segments[m].line = .disabled
  · rw [broadcastTime_disabled hd]
  · rw [broadcastTime_running hd, kickSegment_other h, setSegment_segment, if_neg h]

/-- The hall time and one segment are as before. -/
def State.SameSegment (m : Fin 4) (s t : State) : Prop := t.hallTime = s.hallTime ∧ t.segments[m] = s.segments[m]

theorem four_nodup : four.Nodup := by decide

theorem mem_four (m : Fin 4) : m ∈ four := by revert m; decide

theorem broadcastTimes_owed (m : Fin 4) (s : State) :
    (takeInTurn four broadcastTime s).segments[m].line = s.segments[m].line ∧
    (s.segments[m].line ≠ .disabled → (takeInTurn four broadcastTime s).segments[m].timeDue = true ∨
      ∃ held, (takeInTurn four broadcastTime s).segments[m].sending = some (.time s.hallTime held)) := by
  obtain ⟨u, ⟨hh, hm⟩, -, hm'⟩ := takeInTurn_visit (State.SameSegment m) (fun _ => ⟨rfl, rfl⟩)
    (fun h h' => ⟨h'.1.trans h.1, h'.2.trans h.2⟩) four_nodup (mem_four m) broadcastTime
    (fun i _ hi u => ⟨(clock_eq_iff.1 (broadcastTime_clock i u)).1, broadcastTime_other (Ne.symm hi) u⟩) s
  have howed := broadcastTime_owed m u
  rw [hm, hh] at howed
  rw [hm']
  exact howed

/-! ### A sitting's totals and timetable through a hall second (R27) -/

theorem accrue_totals (g : Sitting) : g.accrue.timetable = g.timetable ∧ (g.running = true →
    g.accrue.h = g.h + g.held.toNat ∧ g.accrue.e = g.e + (!g.held).toNat) := by
  unfold Sitting.accrue Sitting.accrual
  cases g.running <;> cases g.held <;> simp [Sitting.timetable]

/-- Timetable and totals are the same in two sitting records: they differ in phase and hold alone. -/
def Sitting.SameTotals (g g' : Sitting) : Prop := g'.timetable = g.timetable ∧ g'.h = g.h ∧ g'.e = g.e

theorem Sitting.SameTotals.trans {g'' : Sitting} (h : g.SameTotals g') (h' : g'.SameTotals g'') : g.SameTotals g'' :=
  ⟨h'.1.trans h.1, h'.2.1.trans h.2.1, h'.2.2.trans h.2.2⟩

theorem reached_totals (g : Sitting) : g.SameTotals g.reached := by
  unfold Sitting.reached
  split <;> exact ⟨rfl, rfl, rfl⟩

theorem ended_totals (g : Sitting) : g.SameTotals g.ended := by
  unfold Sitting.ended
  split <;> exact ⟨rfl, rfl, rfl⟩

theorem stopped_totals (g : Sitting) : g.SameTotals g.stopped := by
  unfold Sitting.stopped
  split <;> exact ⟨rfl, rfl, rfl⟩

theorem Sitting.MayClose.totals (h : g.MayClose g') : g.SameTotals g' := by
  rcases h with rfl | ⟨-, rfl⟩ <;> exact ⟨rfl, rfl, rfl⟩

theorem opened_begun_timetable (now : Nat) (hallHold : Bool) (g : Sitting) :
    ((g.opened now).begun now hallHold).timetable = g.timetable := by
  have hopened : (g.opened now).timetable = g.timetable := by
    unfold Sitting.opened
    split <;> rfl
  unfold Sitting.begun
  split
  · exact hopened
  · exact hopened

theorem taken_totals (moved : Bool) (now : Nat) (hallHold : Bool) (g : Sitting) :
    (g.taken moved now hallHold).timetable = g.timetable ∧ (g.running = true →
      (g.taken moved now hallHold).h = g.h + g.held.toNat ∧ (g.taken moved now hallHold).e = g.e + (!g.held).toNat) := by
  obtain ⟨htable, htotals⟩ := accrue_totals g
  obtain ⟨htable', hh, he⟩ := (reached_totals g.accrue).trans (ended_totals g.accrue.reached)
  unfold Sitting.taken
  cases hr : g.running with
  | true => exact ⟨htable'.trans htable, fun _ => ⟨hh.trans (htotals hr).1, he.trans (htotals hr).2⟩⟩
  | false =>
    rw [if_neg Bool.false_ne_true]
    refine ⟨?_, nofun⟩
    split
    · exact opened_begun_timetable ..
    · rfl

theorem afterSecond_totals (hallTime : Nat) (hallHold : Bool) (g : Sitting) :
    (g.afterSecond hallTime hallHold).timetable = g.timetable ∧ (g.running = true →
      (g.afterSecond hallTime hallHold).h = g.h + g.held.toNat ∧
      (g.afterSecond hallTime hallHold).e = g.e + (!g.held).toNat) := by
  obtain ⟨htable, htotals⟩ := taken_totals (decide (hallTime < Config.lastSecond)) (nextHallTime hallTime) hallHold g
  unfold Sitting.afterSecond
  split
  · obtain ⟨htable', hh, he⟩ :=
      stopped_totals (g.taken (decide (hallTime < Config.lastSecond)) (nextHallTime hallTime) hallHold)
    exact ⟨htable'.trans htable, fun hr => ⟨hh.trans (htotals hr).1, he.trans (htotals hr).2⟩⟩
  · exact ⟨htable, htotals⟩

/-! ### The whole second -/

theorem dayEnd_iff (time : Nat) : time + 1 = Config.lastSecond ↔ time = 86398 := by
  have : Config.lastSecond = 86399 := rfl
  omega

theorem exec_hallSecond (h : s.resetHold = .running) : exec .hallSecond s = .next (hallSecond s) :=
  whileRunning_running hallSecond s h

/-- Settles O32. -/
theorem hallSecondMovesTheClock : Obligations.HallSecondMovesTheClock := by
  refine ⟨fun s u z all h hall hu hz => ?_, fun u before m => ⟨rfl, broadcastTime_disabled, broadcastTime_running⟩,
    fun s h => ⟨hallSecond s, exec_hallSecond h, ?_, fun k => ?_, fun k hr => ?_, fun m => ?_⟩⟩
  · have hsec : sittingsSecond (decide (s.hallTime < Config.lastSecond)) (advanceClock s) = u := by
      rw [hu, hall]
      rfl
    rw [exec_hallSecond h, hallSecond_eq, State.secondTaken, hsec]
    by_cases hlast : s.hallTime = 86398
    · rw [if_pos ((dayEnd_iff _).2 hlast), if_pos hlast, hz, if_pos hlast, hall]
      rfl
    · rw [if_neg fun e => hlast ((dayEnd_iff _).1 e), if_neg hlast, hz, if_neg hlast]
      rfl
  · have hv := (secondTaken_visit s).frame
    rw [hallSecond_eq, broadcastTimes_frame]
    generalize s.secondTaken = v at hv
    rw [hv]
    rfl
  · exact ((hallSecond_clock s).2 k).timetable.trans (afterSecond_totals ..).1
  · obtain ⟨-, hh, he⟩ := ((hallSecond_clock s).2 k).totals
    obtain ⟨-, htotals⟩ := afterSecond_totals s.hallTime s.holdFilter.filtered s.sittings[k]
    exact ⟨hh.trans (htotals hr).1, he.trans (htotals hr).2⟩
  · have hline : s.secondTaken.segments[m].line = s.segments[m].line := sameButQueues_line (secondTaken_visit s).queues m
    have htime : (hallSecond s).hallTime = s.secondTaken.hallTime :=
      (hallSecond_clock s).1.trans (secondTaken_visit s).hallTime.symm
    obtain ⟨howed, howed'⟩ := broadcastTimes_owed m s.secondTaken
    rw [hline] at howed howed'
    rw [htime]
    exact ⟨howed, howed'⟩

end Sys2Proof.Machine
end

