-- ==== Sys2Proof/Proofs/SittingPhases.lean ====
section
/-! SUPPORT. The phases of a sitting at a hall second (R28 to R31), and what its start and its admission close do to its
records (R29, R30, R58, R59). -/

namespace Sys2Proof.Machine

variable {s t u : State} {I : Nat → Prop} {i j x now : Nat} {k : Fin 8} {c d : Candidate} {g g' : Sitting} {moved : Bool}

/-! ### The start and the admission close of a sitting (R29, R30) -/

/-- A sitting starts its clock at this second (R28, R29). -/
def Sitting.starts (moved : Bool) (now : Nat) (g : Sitting) : Prop :=
  moved = true ∧ now = g.t0 ∧ (g.state = .admitting ∨ (g.state = .scheduled ∧ g.aw = 0))

/-- A running sitting closes its admission at this second (R30). -/
def Sitting.closesAdmission (g : Sitting) : Prop :=
  g.state ∈ [SittingState.reading, .writing] ∧ g.held = false ∧ g.e + 1 = g.r + g.l

theorem closesAdmission_iff (g : Sitting) : g.closesAdmission ↔
    g.accrual = .unheld ∧ g.state ≠ .closing ∧ g.e + 1 = g.r + g.l := by
  unfold Sitting.closesAdmission Sitting.accrual Sitting.running
  cases g.state <;> cases g.held <;> simp

/-- The record of a sitting that starts does not depend on whether its admission opened before or opens now. -/
theorem started_opened (h : now = g.t0) (hg : g.state = .admitting ∨ (g.state = .scheduled ∧ g.aw = 0)) (hallHold : Bool) :
    (g.opened now).state = .admitting ∧ (g.opened now).started hallHold = g.started hallHold ∧
      (g.opened now).t0 = g.t0 ∧ (g.opened now).r = g.r ∧ (g.opened now).l = g.l := by
  unfold Sitting.opened
  rcases hg with hg | ⟨hg, haw⟩
  · rw [if_neg (by simp [hg])]
    exact ⟨hg, rfl, rfl, rfl, rfl⟩
  · rw [if_pos ⟨hg, by omega⟩]
    exact ⟨rfl, rfl, rfl, rfl, rfl⟩

/-- A sitting that starts does not run before. -/
theorem idle_of_starting (h : g.state = .admitting ∨ (g.state = .scheduled ∧ g.aw = 0)) : g.running = false := by
  rw [not_running_iff]
  rcases h with h | ⟨h, -⟩ <;> simp [h]

/-- A sitting that starts: its SEATED records become ACTIVE, and then its admission may close (R29). -/
theorem sittingSecond_starts (h : s.sittings[k].starts moved s.hallTime) : sittingSecond moved k s =
    if s.sittings[k].r + s.sittings[k].l = 0 then
      closeAdmission k (takeInTurn (s.seatedOf k) activate (s.setSitting k (s.sittings[k].started s.holdFilter.filtered)))
    else takeInTurn (s.seatedOf k) activate (s.setSitting k (s.sittings[k].started s.holdFilter.filtered)) := by
  obtain ⟨rfl, htime, hstate⟩ := h
  obtain ⟨hadmit, hstart, ht0, hr, hl⟩ := started_opened htime hstate s.holdFilter.filtered
  have hidle := idle_of_starting hstate
  have hk : (s.setSitting k (s.sittings[k].opened s.hallTime)).sittings[k] = s.sittings[k].opened s.hallTime :=
    setSitting_self ..
  rw [sittingSecond_idle hidle, if_pos rfl, startSitting, if_pos ⟨by rw [hk]; exact hadmit, by rw [hk, ht0]; exact htime⟩]
  unfold beginSitting
  rw [hk, setSitting_setSitting, hr, hl]
  dsimp only
  rw [State.setSitting_holdFilter, hstart]
  rfl

/-- A running sitting that closes its admission does so after its accrual, and may then be CLOSING. -/
theorem sittingSecond_closes (h : s.sittings[k].closesAdmission) : sittingSecond moved k s =
    moveToClosing k (closeAdmission k (s.setSitting k s.sittings[k].accrue.reached)) := by
  have hrun : s.sittings[k].running = true := by
    rw [running_iff]
    have := h.1
    simp only [List.mem_cons, List.not_mem_nil, or_false] at this ⊢
    tauto
  rw [sittingSecond_running hrun, agedSitting, reachAdmissionClose, if_pos ((closesAdmission_iff _).1 h)]

/-- In any other second of a sitting its record alone is written, or it is tested for its close. -/
theorem sittingSecond_plain (hstarts : ¬ s.sittings[k].starts moved s.hallTime) (hcloses : ¬ s.sittings[k].closesAdmission) :
    sittingSecond moved k s = moveToClosing k (s.setSitting k s.sittings[k].accrue.reached) ∨
      ∃ g, sittingSecond moved k s = s.setSitting k g := by
  cases hrun : s.sittings[k].running with
  | true =>
    rw [sittingSecond_running hrun, agedSitting, reachAdmissionClose, if_neg fun e => hcloses ((closesAdmission_iff _).2 e)]
    exact .inl rfl
  | false =>
    rw [sittingSecond_idle hrun]
    refine .inr ?_
    split
    · next hmoved =>
      refine ⟨s.sittings[k].opened s.hallTime, ?_⟩
      unfold startSitting
      refine if_neg fun e => hstarts ⟨hmoved, ?_⟩
      rw [setSitting_self, State.setSitting_hallTime] at e
      obtain ⟨hstate, htime⟩ := e
      rw [opened_t0] at htime
      refine ⟨htime, ?_⟩
      unfold Sitting.opened at hstate
      split at hstate
      · next ho => exact .inr ⟨ho.1, by omega⟩
      · exact .inl hstate
    · exact ⟨_, (setSitting_same s k).symm⟩

/-! ### What the sitting records do not reach -/

/-- Seats, segments and candidate records are as before. -/
def State.SameHall (s t : State) : Prop := t.seats = s.seats ∧ t.segments = s.segments ∧ t.roll = s.roll

theorem State.SameHall.trans (h : s.SameHall t) (g : t.SameHall u) : s.SameHall u :=
  ⟨g.1.trans h.1, g.2.1.trans h.2.1, g.2.2.trans h.2.2⟩

theorem closingTest_sameHall (k : Fin 8) (s : State) : s.SameHall (closingTest k s) := by
  rw [closingTest_eq, closeSitting_eq]
  split <;> exact ⟨rfl, rfl, rfl⟩

theorem moveToClosing_sameHall (k : Fin 8) (s : State) : s.SameHall (moveToClosing k s) := by
  unfold moveToClosing
  split
  · exact .trans (t := s.setSitting k _) ⟨rfl, rfl, rfl⟩ (closingTest_sameHall ..)
  · exact ⟨rfl, rfl, rfl⟩

/-- The desks are told the same whatever the sitting records are. -/
theorem offerDesk_setSitting (x : Nat) (w : ShowContent) (s : State) (k : Fin 8) (g : Sitting) :
    offerDesk x w (s.setSitting k g) = (offerDesk x w s).setSitting k g := by
  unfold offerDesk
  rw [show (s.setSitting k g).seat x = s.seat x from rfl, State.setSitting_segments]
  cases (s.seat x).binds with
  | none => rfl
  | some y =>
    obtain ⟨m, a⟩ := y
    dsimp only
    cases s.segments[m].line with
    | disabled => rfl
    | master | awaiting b =>
      cases (s.seat x).deskStatus <;> cases (offerQueue ⟨a, w⟩ s.segments[m].queue).2 <;> rfl

theorem endExpected_setSitting (st : CandState) (j : Nat) (s : State) (k : Fin 8) (g : Sitting) :
    endExpected st j (s.setSitting k g) = (endExpected st j s).setSitting k g := by
  unfold endExpected
  rw [show (s.setSitting k g).cand j = s.cand j from rfl]
  cases s.cand j with
  | none => rfl
  | some c =>
    cases hx : c.currentSeat with
    | none => simp only [hx]; rfl
    | some x => simp only [hx]; exact offerDesk_setSitting x .blank (freeSeat x (s.setCand j _)) k g

theorem endExpecteds_setSitting (st : CandState) (l : List Nat) (s : State) (k : Fin 8) (g : Sitting) :
    takeInTurn l (endExpected st) (s.setSitting k g) = (takeInTurn l (endExpected st) s).setSitting k g := by
  induction l generalizing s with
  | nil => rfl
  | cons j l ih =>
    show takeInTurn l _ (endExpected st j (s.setSitting k g)) = (takeInTurn l _ (endExpected st j s)).setSitting k g
    rw [endExpected_setSitting, ih]

/-- An admission close is the same to seats, segments and records whatever the sitting's record is. -/
theorem closeAdmission_setSitting (k : Fin 8) (g : Sitting) (s : State) :
    (closeAdmission k s).SameHall (closeAdmission k (s.setSitting k g)) := by
  have taken : ∀ u v : State, u.SameHall v →
      ((closingTest k u).raise .admission).SameHall ((closingTest k v).raise .admission) := by
    rintro u v ⟨h1, h2, h3⟩
    obtain ⟨u1, u2, u3⟩ := closingTest_sameHall k u
    obtain ⟨v1, v2, v3⟩ := closingTest_sameHall k v
    exact ⟨v1.trans (h1.trans u1.symm), v2.trans (h2.trans u2.symm), v3.trans (h3.trans u3.symm)⟩
  unfold closeAdmission
  rw [show (s.setSitting k g).expectedOf k = s.expectedOf k from rfl, endExpecteds_setSitting]
  split
  · exact ⟨rfl, rfl, rfl⟩
  · exact taken _ _ ⟨rfl, rfl, rfl⟩

/-! ### The phases (R27 to R31) -/

/-- A sitting that does not run, at a hall second that moves the clock (R28, R29). -/
theorem taken_idle (hr : g.running = false) (now : Nat) (hallHold : Bool) :
    g.taken true now hallHold = (g.opened now).begun now hallHold := by
  rw [Sitting.taken, hr]
  rfl

theorem taken_running (hr : g.running = true) (now : Nat) (hallHold : Bool) :
    g.taken moved now hallHold = g.accrue.reached.ended := by
  rw [Sitting.taken, hr]
  rfl

/-- No phase change is due for a sitting that does not run. -/
theorem taken_same (hr : g.running = false) (ho : g.state = .scheduled → now + g.aw ≠ g.t0)
    (hb : g.state = .admitting → now ≠ g.t0) (hallHold : Bool) : g.taken true now hallHold = g := by
  have hopened : g.opened now = g := if_neg fun e => ho e.1 e.2
  rw [taken_idle hr, hopened]
  exact if_neg fun e => hb e.1 e.2

theorem taken_opens (hstate : g.state = .scheduled) (ho : now + g.aw = g.t0) (haw : 0 < g.aw) (hallHold : Bool) :
    g.taken true now hallHold = { g with state := .admitting, hold := ⟨false, false⟩, h := 0, e := 0 } := by
  have hopened : g.opened now = { g with state := .admitting, hold := ⟨false, false⟩, h := 0, e := 0 } :=
    if_pos ⟨hstate, ho⟩
  rw [taken_idle ((not_running_iff g).2 (by simp [hstate])), hopened]
  exact if_neg fun e : _ ∧ now = g.t0 => by omega

theorem taken_starts (h : g.state = .admitting ∨ (g.state = .scheduled ∧ g.aw = 0)) (htime : now = g.t0) (hallHold : Bool) :
    g.taken true now hallHold = g.started hallHold := by
  obtain ⟨hadmit, hstart, ht0, -, -⟩ := started_opened htime h hallHold
  rw [taken_idle (idle_of_starting h), ← hstart]
  exact if_pos ⟨hadmit, htime.trans ht0.symm⟩

/-- What the accrual leaves of a running sitting. -/
theorem accrue_frame (g : Sitting) : g.accrue.state = g.state ∧ g.accrue.r = g.r ∧ g.accrue.w = g.w ∧ g.accrue.hold = g.hold := by
  unfold Sitting.accrue
  split <;> exact ⟨rfl, rfl, rfl, rfl⟩

theorem reached_ended_state (g : Sitting) : g.reached.ended.state =
    if (g.state = .writing ∨ (g.state = .reading ∧ g.r ≤ g.e)) ∧ g.r + g.w ≤ g.e then .closing
    else if g.state = .reading ∧ g.r ≤ g.e then .writing else g.state := by
  by_cases hread : g.state = .reading ∧ g.r ≤ g.e
  · have hreached : g.reached = { g with state := .writing } := if_pos hread
    unfold Sitting.ended
    rw [hreached, if_pos hread]
    simp only [hread, and_self, or_true, true_and]
    split <;> rfl
  · have hreached : g.reached = g := if_neg hread
    unfold Sitting.ended
    rw [hreached, if_neg hread]
    simp only [hread, or_false]
    split <;> rfl

/-- The phase of a running sitting after the second. -/
theorem taken_state (hr : g.running = true) (now : Nat) (hallHold : Bool) : (g.taken moved now hallHold).state =
    if (g.state = .writing ∨ (g.state = .reading ∧ g.r ≤ g.e + (!g.held).toNat)) ∧ g.r + g.w ≤ g.e + (!g.held).toNat
    then .closing
    else if g.state = .reading ∧ g.r ≤ g.e + (!g.held).toNat then .writing else g.state := by
  obtain ⟨hstate, hr', hw, -⟩ := accrue_frame g
  rw [taken_running hr, reached_ended_state, hstate, hr', hw, ((accrue_totals g).2 hr).2]

theorem taken_hold (hr : g.running = true) (now : Nat) (hallHold : Bool) : (g.taken moved now hallHold).hold = g.hold := by
  have hreached : ∀ g : Sitting, g.reached.hold = g.hold := fun g => by unfold Sitting.reached; split <;> rfl
  have hended : ∀ g : Sitting, g.ended.hold = g.hold := fun g => by unfold Sitting.ended; split <;> rfl
  rw [taken_running hr, hended, hreached, (accrue_frame g).2.2.2]

/-! ### A sitting that is settled (R31) -/

/-- A sitting is CLOSING where some record keeps it open, and CLOSED otherwise (R31). -/
def State.Settled (k : Fin 8) (s : State) : Prop := s.sittings[k].state = if s.keptOpen k then .closing else .closed

theorem keptOpen_of_roll (h : t.roll = s.roll) (k : Fin 8) : t.keptOpen k = s.keptOpen k := by
  rw [State.keptOpen, h]
  rfl

theorem State.Settled.of_same (h : s.Settled k) (hk : t.sittings[k].state = s.sittings[k].state) (hr : t.keptOpen k = s.keptOpen k) :
    t.Settled k := by
  unfold State.Settled at *
  rw [hk, hr, h]

/-- A CLOSING sitting is settled by its test, and a settled one stays so. -/
theorem closingTest_settled (h : s.sittings[k].state = .closing ∨ s.Settled k) : (closingTest k s).Settled k := by
  rw [closingTest_eq]
  split
  · next hclose =>
    have hopen : (closeSitting k s).keptOpen k = false :=
      (keptOpen_of_roll (by rw [closeSitting_eq]) k).trans hclose.2
    have hstate : (closeSitting k s).sittings[k].state = .closed := by
      rw [(clock_eq_iff.1 (closeSitting_clock k s)).2, setSitting_self]
      rfl
    rw [State.Settled, hopen, hstate]
    rfl
  · next hno =>
    rcases h with h | h
    · have hopen : s.keptOpen k = true := by
        rw [← Bool.not_eq_false]
        exact fun e => hno ⟨h, e⟩
      rw [State.Settled, hopen, h]
      rfl
    · exact h

/-- The test of any sitting leaves a settled one so. -/
theorem State.Settled.closingTest (h : s.Settled k) (i : Fin 8) : (closingTest i s).Settled k := by
  by_cases hi : k = i
  · subst hi
    exact closingTest_settled (.inr h)
  · exact h.of_same (by rw [closingTest_other hi]) (keptOpen_of_roll (closingTest_sameHall i s).2.2 k)

theorem keptOpen_iff_cand (hs : s.Stores) : s.keptOpen k = true ↔ ∃ j c, s.cand j = some c ∧ c.keepsOpen k = true := by
  simp only [State.keptOpen, List.any_eq_true, hs.cand_iff, Prod.exists]

/-- A record rewritten keeps its sitting open as before. -/
theorem setCand_keptOpen (hs : s.Stores) (hc : s.cand j = some c) (h : d.keepsOpen k = c.keepsOpen k) :
    (s.setCand j d).keptOpen k = s.keptOpen k := by
  have hmap := map_insert_of_find (fun y : Nat × Candidate => y.2.keepsOpen k) hs.roll.1 (v := d) hc h
  unfold State.keptOpen
  have hany : ∀ r : Table Candidate, r.any (fun y => y.2.keepsOpen k) = (r.map fun y => y.2.keepsOpen k).any id := fun r => by
    rw [List.any_map]
    rfl
  rw [hany, hany, State.setCand_roll, hmap]

theorem State.Spoken.settled (h : s.Spoken t) (hs : s.Settled k) : t.Settled k :=
  hs.of_same (by rw [(clock_eq_iff.1 h.desks.clock).2]) (keptOpen_of_roll h.roll k)

/-! ### The finish of a record (R77, R111, R112) -/

/-- A record at its finish: its state, its seat and NO_SCRIPT alone may have changed. -/
def Candidate.FinishedAs (d e : Candidate) : Prop :=
  e.state ∈ [CandState.done, .cleared] ∧
    e = { d with state := e.state, currentSeat := e.currentSeat, flags := { d.flags with noScript := e.flags.noScript } }

theorem clearRecord_cand (j : Nat) (c : Candidate) (b : Bool) (s : State) :
    ∃ e, (clearRecord j c b s).cand j = some e ∧ c.FinishedAs e := by
  have hcleared : c.FinishedAs (c.clearedBy b) := ⟨by simp [Candidate.clearedBy], rfl⟩
  unfold clearRecord
  cases hx : c.currentSeat with
  | none =>
    refine ⟨c.clearedBy b, ?_, hcleared⟩
    rw [State.cand_setCand, if_pos rfl, Candidate.clearedBy, ← hx]
  | some x =>
    refine ⟨c.clearedBy b, ?_, hcleared⟩
    rw [(offerDesk_spoken ..).cand]
    exact (State.cand_setCand s j j _).trans (if_pos rfl)

theorem clearanceTest_cand (hc : s.cand j = some c) (hdone : c.state = .done) :
    ∃ e, (clearanceTest j s).cand j = some e ∧ c.FinishedAs e := by
  unfold clearanceTest
  rw [hc]
  dsimp only
  split
  · exact clearRecord_cand j c false s
  · exact ⟨c, hc, by simp [hdone], rfl⟩

theorem submitOnFinish_cand (hc : s.cand j = some c) (hdone : c.state = .done) :
    ∃ e, (submitOnFinish j s).cand j = some e ∧ c.FinishedAs e := by
  unfold submitOnFinish
  rw [hc]
  dsimp only
  split
  · exact clearRecord_cand j c true s
  · refine clearanceTest_cand ?_ hdone
    split <;> exact hc

theorem closingTest_cand (k : Fin 8) (s : State) (j : Nat) : (closingTest k s).cand j = s.cand j := by
  unfold State.cand
  rw [(closingTest_sameHall k s).2.2]

/-- A record that finishes is DONE or CLEARED (R77, R111, R112). -/
theorem finish_cand (hc : s.cand j = some c) (why : FinishCause) :
    ∃ e, (finish why j s).cand j = some e ∧ (c.finished why).FinishedAs e := by
  unfold finish
  rw [hc]
  dsimp only
  rw [closingTest_cand]
  refine submitOnFinish_cand ?_ rfl
  rw [(showNotice_spoken ..).cand, State.cand_setCand, if_pos rfl]

theorem FinishedAs_keepsOpen {e : Candidate} (h : d.FinishedAs e) (k : Fin 8) : e.keepsOpen k = false := by
  rw [← Bool.not_eq_true, keepsOpen_iff]
  have := h.1
  simp only [List.mem_cons, List.not_mem_nil, or_false] at this
  rcases this with hst | hst <;> simp [hst]

/-- A finish settles the record's sitting where the record kept it open, and keeps a settled sitting so (R31). -/
theorem State.Settled.finish (h : s.Settled k) (hs : s.Stores) (why : FinishCause) (j : Nat) :
    (finish why j s).Settled k := by
  cases hc : s.cand j with
  | none =>
    unfold Machine.finish
    rw [hc]
    exact h
  | some c =>
    have hwritten : s.Quiet (s.setCand j (c.finished why)) := setCand_sameSeat_quiet hc rfl rfl
    have hvisit := (((setCand_visit (I := (· = j)) (d := c.finished why) rfl hc rfl (.inl rfl)).trans
      (showNotice_spoken c .done _).visit).trans (submitOnFinish_visit (I := (· = j)) rfl _))
    have hstores := ((hwritten.trans (showNotice_quiet c .done _)).trans (submitOnFinish_quiet j _)).stores hs
    have hclock : (submitOnFinish j (showNotice c .done (s.setCand j (c.finished why)))).clock = s.clock := by simp
    obtain ⟨e, he, hfin⟩ := submitOnFinish_cand (s := showNotice c .done (s.setCand j (c.finished why)))
      (c := c.finished why) (by rw [(showNotice_spoken ..).cand, State.cand_setCand, if_pos rfl]) rfl
    unfold Machine.finish
    rw [hc]
    dsimp only
    generalize submitOnFinish j (showNotice c .done (s.setCand j (c.finished why))) = v at *
    have hsit : v.sittings[k] = s.sittings[k] := by rw [(clock_eq_iff.1 hclock).2]
    cases hkeeps : c.keepsOpen k with
    | true =>
      obtain ⟨rfl, -⟩ := (keepsOpen_iff k c).1 hkeeps
      refine closingTest_settled (.inl ?_)
      have hopen : s.keptOpen c.sitting = true := (keptOpen_iff_cand hs).2 ⟨j, c, hc, hkeeps⟩
      rw [hsit, h, hopen]
      rfl
    | false =>
      refine State.Settled.closingTest (h.of_same (by rw [hsit]) ?_) c.sitting
      rw [Bool.eq_iff_iff, keptOpen_iff_cand hstores, keptOpen_iff_cand hs]
      refine exists_congr fun i => ?_
      by_cases hi : i = j
      · subst hi
        simp [he, hc, hkeeps, FinishedAs_keepsOpen hfin]
      · rw [hvisit.others i hi]

/-! ### Records through their second (R66 to R69, R81) -/

theorem setCand_settled (h : s.Settled k) (hs : s.Stores) (hc : s.cand j = some c) (hd : d.keepsOpen k = c.keepsOpen k) :
    (s.setCand j d).Settled k := h.of_same rfl (setCand_keptOpen hs hc hd)

theorem accrueRest_settled (h : s.Settled k) (hs : s.Stores) (before : Vector Sitting 8) (j : Nat) :
    (accrueRest before j s).Settled k := by
  unfold accrueRest
  split
  · exact h
  · next c hc => exact setCand_settled h hs hc rfl

theorem restOver_settled (h : s.Settled k) (hs : s.Stores) (j : Nat) : (restOver j s).Settled k := by
  unfold restOver
  split
  · exact h
  next c hc =>
  split
  · next hrest =>
    refine (showEnd_spoken ..).settled ((showNotice_spoken ..).settled (setCand_settled h hs hc ?_))
    simp [Candidate.keepsOpen, writingStates, hrest.1]
  · exact h

theorem warningTest_settled (h : s.Settled k) (hs : s.Stores) (j : Nat) : (warningTest j s).Settled k := by
  unfold warningTest
  split
  · exact h
  next c hc =>
  split
  · exact (showNotice_spoken c .warn _).settled (setCand_settled h hs hc rfl)
  · exact h

theorem recordSecond_settled (h : s.Settled k) (hs : s.Stores) (before : Vector Sitting 8) (j : Nat) :
    (recordSecond before j s).Settled k := by
  have hs' := (accrueRest_quiet before j s).stores hs
  have haged := restOver_settled (accrueRest_settled h hs before j) hs' j
  have hs'' := (restOver_quiet j _).stores hs'
  unfold recordSecond reachEnd
  repeat' split
  · exact haged
  · exact haged.finish hs'' ..
  · exact warningTest_settled haged hs'' j

theorem recordDayEnd_settled (h : s.Settled k) (hs : s.Stores) (before : Vector Sitting 8) (j : Nat) :
    (recordDayEnd before j s).Settled k := by
  have hs' := (accrueRest_quiet before j s).stores hs
  exact (restOver_settled (accrueRest_settled h hs before j) hs' j).finish ((restOver_quiet j _).stores hs') ..

/-- The records of a list keep a settled sitting so. -/
theorem records_settled (l : List Nat) {f : Nat → State → State} (hq : ∀ j (s : State), s.Quiet (f j s))
    (hf : ∀ j (s : State), s.Settled k → s.Stores → (f j s).Settled k) (hs : s.Stores) (h : s.Settled k) :
    (takeInTurn l f s).Settled k :=
  (takeInTurn_invariant (fun u => u.Stores ∧ u.Settled k) l f
    (fun j u hu => ⟨(hq j u).stores hu.1, hf j u hu.2 hu.1⟩) s ⟨hs, h⟩).2

/-! ### A sitting apart from the others -/

/-- The other sittings' records alone may have been taken, and the sitting itself, the hall time and the hold filter are as
before. -/
structure State.Apart (k : Fin 8) (s t : State) : Prop where
  stores : t.Stores
  visit : s.Visit (fun i => ∃ c, s.cand i = some c ∧ c.sitting ≠ k) t
  same : s.SameSitting k t

theorem State.Apart.trans (h : s.Apart k t) (g : t.Apart k u) : s.Apart k u :=
  ⟨g.stores, h.visit.trans (g.visit.mono fun i ⟨d, hd, hsit⟩ =>
    let ⟨c, hc, hcd, _⟩ := h.visit.kept i d hd
    ⟨c, hc, fun e => hsit (hcd.trans e)⟩), h.same.trans g.same⟩

theorem State.Apart.refl (hs : s.Stores) (k : Fin 8) : s.Apart k s := ⟨hs, .refl s, .refl k s⟩

/-- The records of the sitting are as before. -/
theorem State.Apart.cand_iff (h : s.Apart k t) (hc : c.sitting = k) : t.cand j = some c ↔ s.cand j = some c := by
  refine ⟨fun htc => ?_, fun hsc => ?_⟩
  · obtain ⟨d, hd, hsit, -⟩ := h.visit.kept j c htc
    rw [← h.visit.others j fun ⟨d', hd', hne⟩ => hne ?_]
    · exact htc
    · rw [hd] at hd'
      rw [← Option.some.inj hd', ← hsit, hc]
  · rw [h.visit.others j fun ⟨d', hd', hne⟩ => hne ?_]
    · exact hsc
    · rw [hsc] at hd'
      rw [← Option.some.inj hd', hc]

theorem State.Apart.settled (h : s.Apart k t) (hs : s.Stores) (hk : s.Settled k) : t.Settled k := by
  refine hk.of_same (by rw [h.same.2.2]) ?_
  rw [Bool.eq_iff_iff, keptOpen_iff_cand h.stores, keptOpen_iff_cand hs]
  refine exists_congr fun j => exists_congr fun c => and_congr_left fun hkeeps => h.cand_iff ((keepsOpen_iff k c).1 hkeeps).1

theorem sittingSecond_apart {i : Fin 8} (h : i ≠ k) (hs : s.Stores) (moved : Bool) : s.Apart k (sittingSecond moved i s) :=
  ⟨(sittingSecond_quiet ..).stores hs,
    sittingSecond_visit (.inr ⟨hs, fun _ c hc hsit _ => ⟨c, hc, fun e => h (hsit.symm.trans e)⟩⟩) moved,
    sittingSecond_other (Ne.symm h) moved s⟩

theorem dayEndSitting_apart {i : Fin 8} (h : i ≠ k) (hs : s.Stores) : s.Apart k (dayEndSitting i s) :=
  ⟨(dayEndSitting_quiet ..).stores hs,
    dayEndSitting_visit (.inr ⟨hs, fun _ c hc hsit _ => ⟨c, hc, fun e => h (hsit.symm.trans e)⟩⟩),
    dayEndSitting_other (Ne.symm h) s⟩

/-- Where the sittings are taken in turn, each is taken once, apart from the others. -/
theorem sittings_apart {f : Fin 8 → State → State} (hf : ∀ i, i ≠ k → ∀ s : State, s.Stores → s.Apart k (f i s))
    (hq : ∀ s : State, s.Quiet (f k s)) (hs : s.Stores) :
    ∃ u, s.Apart k u ∧ (f k u).Apart k (takeInTurn eight f s) := by
  obtain ⟨u, hu, hv⟩ := takeInTurn_visit (fun s t => s.Stores → s.Apart k t) (fun s hs => .refl hs k)
    (fun h h' hs => (h hs).trans (h' (h hs).stores)) eight_nodup (mem_eight k) f (fun i _ hi s => hf i hi s) s
  exact ⟨u, hu hs, hv ((hq u).stores (hu hs).stores)⟩

theorem sittingsSecond_apart (hs : s.Stores) (moved : Bool) (k : Fin 8) :
    ∃ u, s.Apart k u ∧ (sittingSecond moved k u).Apart k (sittingsSecond moved s) :=
  sittings_apart (fun _ hi _ hs => sittingSecond_apart hi hs moved) (sittingSecond_quiet moved k) hs

theorem dayEndSittings_apart (hs : s.Stores) (k : Fin 8) :
    ∃ u, s.Apart k u ∧ (dayEndSitting k u).Apart k (takeInTurn eight dayEndSitting s) :=
  sittings_apart (fun _ hi _ hs => dayEndSitting_apart hi hs) (dayEndSitting_quiet k) hs

/-- A sitting that comes to CLOSING at its second is settled (R30, R31). -/
theorem sittingSecond_settled (hr : s.sittings[k].running = true) (hne : s.sittings[k].state ≠ .closing)
    (hc : (s.sittings[k].taken moved s.hallTime s.holdFilter.filtered).state = .closing) :
    (sittingSecond moved k s).Settled k := by
  have hk : (agedSitting k s).sittings[k] = s.sittings[k].accrue.reached := by
    rw [(clock_eq_iff.1 (agedSitting_clock k s)).2]
    exact setSitting_self ..
  rw [sittingSecond_running hr, moveToClosing, hk]
  split
  · exact closingTest_settled (.inl (by rw [setSitting_self]))
  · next hno =>
    have hended : s.sittings[k].accrue.reached.ended = s.sittings[k].accrue.reached := if_neg hno
    rw [taken_running hr, hended] at hc
    exact absurd hc (reached_state_ne_closing (by rwa [accrue_state]))

end Sys2Proof.Machine
end

