-- ==== Sys2Proof/Proofs/HallSecondPhases.lean ====
section
/-! SUPPORT. What a hall second leaves of one sitting: its record, the phase it comes to, and its records (R27 to R31). -/

namespace Sys2Proof.Machine

variable {s t u : State} {i j x now : Nat} {k : Fin 8} {c d : Candidate} {g g' : Sitting} {moved : Bool}

/-! ### A second that is not day end (R21) -/

theorem secondTaken_plain (h : s.hallTime + 1 < 86399) :
    s.secondTaken = personalSecond s.sittings (sittingsSecond true (advanceClock s)) := by
  have hmoves : s.hallTime < Config.lastSecond := show s.hallTime < 86399 by omega
  rw [State.secondTaken, if_neg fun e => by have := (dayEnd_iff _).1 e; omega, decide_eq_true hmoves]

theorem advanceClock_plain (h : s.hallTime + 1 < 86399) : advanceClock s = { s with hallTime := s.hallTime + 1 } := by
  rw [advanceClock, nextHallTime_eq, if_pos (by omega)]

theorem advanceClock_stores (hs : s.Stores) : (advanceClock s).Stores :=
  ⟨hs.roll, hs.root, hs.pages, hs.seats, hs.scripts, hs.keys⟩

theorem hallSecond_spares (s : State) : (hallSecond s).sittings = s.secondTaken.sittings ∧
    (hallSecond s).roll = s.secondTaken.roll ∧ (hallSecond s).seats = s.secondTaken.seats ∧
    (hallSecond s).attention = s.secondTaken.attention := by
  rw [hallSecond_eq, broadcastTimes_frame]
  exact ⟨rfl, rfl, rfl, rfl⟩

theorem hallSecond_settled (h : s.secondTaken.Settled k) : (hallSecond s).Settled k := by
  obtain ⟨hsittings, hroll, -, -⟩ := hallSecond_spares s
  exact h.of_same (by rw [hsittings]) (keptOpen_of_roll hroll k)

theorem hallSecond_sitting (h : s.hallTime + 1 < 86399) (k : Fin 8) :
    (s.sittings[k].taken true (s.hallTime + 1) s.holdFilter.filtered).MayClose (hallSecond s).sittings[k] := by
  have hmoves : s.hallTime < Config.lastSecond := show s.hallTime < 86399 by omega
  have hclock := (hallSecond_clock s).2 k
  rw [Sitting.afterSecond, if_neg fun e => by have := (dayEnd_iff _).1 e; omega, decide_eq_true hmoves, nextHallTime_eq,
    if_pos (by omega)] at hclock
  exact hclock

/-- A sitting that does not come to CLOSING is as its second left it. -/
theorem Sitting.MayClose.eq_of_ne (h : g.MayClose g') (hne : g.state ≠ .closing) : g' = g := by
  rcases h with h | ⟨h, -⟩
  · exact h
  · exact absurd h hne

theorem Sitting.MayClose.state (h : g.MayClose g') (hg : g.state = .closing) :
    g'.state ∈ [SittingState.closing, .closed] := by
  rcases h with rfl | ⟨-, rfl⟩
  · simp [hg]
  · simp [Sitting.closed]

theorem Sitting.MayClose.hold (h : g.MayClose g') (hr : g'.running = true) : g'.hold = g.hold := by
  rcases h with rfl | ⟨-, rfl⟩
  · rfl
  · cases hr

/-- The sitting takes its second in a state where the others alone have taken theirs. -/
theorem sittingsSecond_settled (hs : s.Stores) (hr : s.sittings[k].running = true) (hne : s.sittings[k].state ≠ .closing)
    (hc : (s.sittings[k].taken moved s.hallTime s.holdFilter.filtered).state = .closing) :
    (sittingsSecond moved s).Settled k := by
  obtain ⟨u, hu, hafter⟩ := sittingsSecond_apart hs moved k
  obtain ⟨htime, hfilter, hk⟩ := hu.same
  refine hafter.settled ((sittingSecond_quiet moved k u).stores hu.stores)
    (sittingSecond_settled (by rw [hk, hr]) (by rwa [hk]) ?_)
  rwa [hk, htime, hfilter]

theorem sittingsSecond_stores (hs : s.Stores) (moved : Bool) : (sittingsSecond moved s).Stores :=
  (takeInTurn_quiet eight (sittingSecond moved) (fun k u => sittingSecond_quiet moved k u) s).stores hs

/-- A sitting whose writing ends at the second is CLOSING while a record keeps it open, and CLOSED otherwise (R30, R31). -/
theorem secondTaken_settled (h : s.hallTime + 1 < 86399) (hs : s.Stores) (hr : s.sittings[k].running = true)
    (hne : s.sittings[k].state ≠ .closing)
    (hc : (s.sittings[k].taken true (s.hallTime + 1) s.holdFilter.filtered).state = .closing) :
    s.secondTaken.Settled k := by
  have hs' := advanceClock_stores hs
  have hadv := advanceClock_plain h
  rw [secondTaken_plain h]
  refine records_settled _ (recordSecond_quiet s.sittings) (fun j u hu hus => recordSecond_settled hu hus _ j)
    (sittingsSecond_stores hs' true) (sittingsSecond_settled hs' ?_ ?_ ?_) <;> rw [hadv]
  · exact hr
  · exact hne
  · exact hc

/-! ### The phases (R28 to R31) -/

theorem running_of_phase (h : g.state ∈ [SittingState.reading, .writing]) : g.running = true ∧ g.state ≠ .closing := by
  simp only [List.mem_cons, List.not_mem_nil, or_false] at h
  rcases h with h | h <;> simp [Sitting.running, h]

theorem closeAdmission_none (h : s.expectedOf k = []) : closeAdmission k s = s := by
  unfold closeAdmission
  rw [h]
  rfl

theorem closeAdmission_some (h : s.expectedOf k ≠ []) :
    closeAdmission k s = (closingTest k (takeInTurn (s.expectedOf k) (endExpected .absent) s)).raise .admission := by
  unfold closeAdmission
  rw [if_neg fun e => h (List.isEmpty_iff.1 e)]

theorem endExpected_unseated (hc : s.cand j = some c) (hx : c.currentSeat = none) (st : CandState) :
    endExpected st j s = s.setCand j { c with state := st } := by
  unfold endExpected
  rw [hc]
  dsimp only
  rw [hx]

/-- An EXPECTED record gives its seat up as its admission closes (R59). -/
theorem endExpected_absent (hc : s.cand j = some c) (hx : c.currentSeat = some x) : endExpected .absent j s =
    { freedDesk x s with roll := tableInsert s.roll j { c with state := .absent, currentSeat := none } } := by
  rw [endExpected_seated hc hx, (freedDesk_givenUp (.refl s x)).frame]
  rfl

/-- The phases of a running sitting, in the words of the rule (R30). -/
theorem taken_phase (hr : g.running = true) (now : Nat) (hallHold : Bool) {e : Nat} (he : e = g.e + (!g.held).toNat) :
    (g.state = .reading → e < g.r → (g.taken moved now hallHold).state = .reading) ∧
    (g.state ∈ [SittingState.reading, .writing] → e < g.r + g.w → (g.state = .reading → g.r ≤ e) →
      (g.taken moved now hallHold).state = .writing) ∧
    (g.state ∈ [SittingState.reading, .writing] → g.r + g.w ≤ e → (g.taken moved now hallHold).state = .closing) ∧
    (g.state = .closing → (g.taken moved now hallHold).state = .closing) := by
  rw [taken_state hr, ← he]
  refine ⟨fun hst hlt => ?_, fun hst hlt hreach => ?_, fun hst hle => ?_, fun hst => ?_⟩
  · rw [if_neg fun h => by omega, if_neg fun h => by omega, hst]
  · rw [if_neg fun h => by omega]
    simp only [List.mem_cons, List.not_mem_nil, or_false] at hst
    rcases hst with hst | hst
    · rw [if_pos ⟨hst, hreach hst⟩]
    · rw [if_neg fun h => by simp [hst] at h, hst]
  · simp only [List.mem_cons, List.not_mem_nil, or_false] at hst
    refine if_pos ⟨?_, hle⟩
    rcases hst with hst | hst
    · exact .inr ⟨hst, by omega⟩
    · exact .inl hst
  · simp [hst]

/-- A sitting that does not run, through a second that moves the clock (R28, R29). -/
theorem Sitting.MayClose.idle {hallHold : Bool} (h : (g.taken true now hallHold).MayClose g') :
    (g.state ∈ [SittingState.unscheduled, .closed] → g' = g) ∧
    (g.state = .scheduled → now + g.aw ≠ g.t0 → g' = g) ∧
    (g.state = .scheduled → now + g.aw = g.t0 → 0 < g.aw →
      g' = { g with state := .admitting, hold := ⟨false, false⟩, h := 0, e := 0 }) ∧
    (g.state = .admitting → now ≠ g.t0 → g' = g) ∧
    ((g.state = .admitting ∨ (g.state = .scheduled ∧ g.aw = 0)) → now = g.t0 → g' = g.started hallHold) := by
  have same : g.running = false → (g.state = .scheduled → now + g.aw ≠ g.t0) → (g.state = .admitting → now ≠ g.t0) →
      g' = g := by
    intro hr ho hb
    rw [taken_same hr ho hb] at h
    refine h.eq_of_ne fun e => ?_
    simp [Sitting.running, e] at hr
  refine ⟨fun hst => ?_, fun hst hne => ?_, fun hst heq haw => ?_, fun hst hne => ?_, fun hst heq => ?_⟩
  · simp only [List.mem_cons, List.not_mem_nil, or_false] at hst
    rcases hst with hst | hst <;> exact same (by simp [Sitting.running, hst]) (by simp [hst]) (by simp [hst])
  · exact same (by simp [Sitting.running, hst]) (fun _ => hne) (by simp [hst])
  · rw [taken_opens hst heq haw] at h
    exact h.eq_of_ne (by simp)
  · exact same (by simp [Sitting.running, hst]) (by simp [hst]) (fun _ => hne)
  · rw [taken_starts hst heq] at h
    refine h.eq_of_ne ?_
    unfold Sitting.started
    dsimp only
    split <;> simp

/-- A running sitting, through a second (R30, R31). -/
theorem Sitting.MayClose.running {hallHold : Bool} (h : (g.taken moved now hallHold).MayClose g') {e : Nat}
    (he : e = g.e + (!g.held).toNat) :
    (g.state = .reading → e < g.r → g'.state = .reading) ∧
    (g.state ∈ [SittingState.reading, .writing] → e < g.r + g.w → (g.state = .reading → g.r ≤ e) → g'.state = .writing) ∧
    (g.state = .closing → g'.state ∈ [SittingState.closing, .closed]) ∧
    (g'.running = true → g.running = true → g'.hold = g.hold) := by
  refine ⟨fun hst hlt => ?_, fun hst hlt hreach => ?_, fun hst => ?_, fun hr' hr => ?_⟩
  · have hphase := (taken_phase (moved := moved) (by simp [Sitting.running, hst]) now hallHold he).1 hst hlt
    rw [h.eq_of_ne (by simp [hphase]), hphase]
  · have hphase := (taken_phase (moved := moved) (running_of_phase hst).1 now hallHold he).2.1 hst hlt hreach
    rw [h.eq_of_ne (by simp [hphase]), hphase]
  · exact h.state ((taken_phase (by simp [Sitting.running, hst]) now hallHold he).2.2.2 hst)
  · rw [h.hold hr', taken_hold hr]

/-- Settles O33. -/
theorem hallSecondChangesThePhase : Obligations.HallSecondChangesThePhase := by
  refine ⟨fun u z k moved g closes starts hg hcloses hstarts hz => ?_, fun u k j c => ⟨rfl, rfl, closeAdmission_none,
    closeAdmission_some, fun hc => ⟨fun hx => endExpected_unseated hc hx _, fun x hx => endExpected_absent hc hx⟩⟩,
    fun s k now e h hstore htime hnow he => ⟨hallSecond s, exec_hallSecond h, ?_⟩⟩
  · subst hg
    have hcloses' : closes ↔ u.sittings[k].closesAdmission := hcloses
    have hstarts' : starts ↔ u.sittings[k].starts moved u.hallTime := hstarts
    refine ⟨fun hyes => ?_, fun hyes => ?_, fun hno hno' => ?_⟩
    · rw [sittingSecond_starts (hstarts'.1 hyes), hz]
      rfl
    · rw [sittingSecond_closes (hcloses'.1 hyes)]
      exact (closeAdmission_setSitting ..).trans (moveToClosing_sameHall ..)
    · rcases sittingSecond_plain (mt hstarts'.2 hno) (mt hcloses'.2 hno') with heq | ⟨g, heq⟩ <;> rw [heq]
      · exact moveToClosing_sameHall k (u.setSitting k _)
      · exact ⟨rfl, rfl, rfl⟩
  · have hclose := hallSecond_sitting htime k
    rw [← hnow] at hclose
    obtain ⟨hover, hwait, hopens, hadmit, hstart⟩ := hclose.idle
    obtain ⟨hread, hwrite, hclosing, hhold⟩ := hclose.running he
    refine ⟨hover, hwait, hopens, hadmit, hstart, hread, hwrite, fun hst hle => ?_, hclosing, hhold⟩
    obtain ⟨hr, hne⟩ := running_of_phase hst
    have hphase := (taken_phase (moved := true) hr now s.holdFilter.filtered he).2.2.1 hst hle
    exact hallSecond_settled (secondTaken_settled htime ((storeLaw_iff s).1 hstore) hr hne (hnow ▸ hphase))

end Sys2Proof.Machine
end

