-- ==== Sys2Proof/Proofs/RecordSecond.lean ====
section
/-! SUPPORT. The second of one record as a whole: rest, personal end, and what its desk is told (R65 to R70, R77, R81). -/

namespace Sys2Proof.Machine

variable {s t u w : State} {i j x used pe : Nat} {k : Fin 8} {c d : Candidate} {g : Sitting}

/-! ### A record written under what its desk is told (R85) -/

theorem setCand_setCand (s : State) (j : Nat) (c d : Candidate) : (s.setCand j c).setCand j d = s.setCand j d := by
  unfold State.setCand
  dsimp only
  rw [insert_insert]

theorem cand_setCand_self (s : State) (j : Nat) (d : Candidate) : (s.setCand j d).cand j = some d := by
  rw [State.cand_setCand, if_pos rfl]

/-- The desks are told the same whatever a candidate record is. -/
theorem offerDesk_setCand (x : Nat) (w : ShowContent) (s : State) (j : Nat) (d : Candidate) :
    offerDesk x w (s.setCand j d) = (offerDesk x w s).setCand j d := by
  refine (offerDesk_roll x w s _).trans ?_
  unfold State.setCand
  rw [(offerDesk_spoken x w s).roll]

/-- A record with its rest used and its personal end. -/
def Candidate.timed (used pe : Nat) (c : Candidate) : Candidate := { c with restUsed := used, personalEnd := some pe }

theorem accrual_unheld_iff (g : Sitting) : g.accrual = .unheld ↔ g.running = true ∧ g.held = false := by
  unfold Sitting.accrual
  cases g.running <;> cases g.held <;> simp

/-- Rest grows in an unheld rest, and the personal end follows the formula (R65, R66). -/
theorem secondPassed_eq {before after : Sitting}
    (hused : used = if c.state = .resting ∧ before.running = true ∧ before.held = false then c.restUsed + 1 else c.restUsed)
    (hpe : pe = min 86399 (after.t0 + after.h + after.r + after.w + c.ext.getD 0 + used)) :
    c.secondPassed before after = c.timed used pe := by
  have haccrual : (c.state = .resting ∧ before.accrual = .unheld) ↔
      (c.state = .resting ∧ before.running = true ∧ before.held = false) := by rw [accrual_unheld_iff]
  subst hpe
  subst hused
  simp only [Candidate.secondPassed, Candidate.withPersonalEnd, haccrual]
  rfl

theorem accrueRest_eq (before : Vector Sitting 8) (hc : s.cand j = some c) :
    accrueRest before j s = s.setCand j (c.secondPassed before[c.sitting] s.sittings[c.sitting]) := by
  rw [accrueRest, hc]

/-- A used-up rest ends: the desk is told REST_OVER, and then END with nothing left (R67). -/
theorem restOver_spent (hx : c.currentSeat = some x) (hst : c.state = .resting) (hspent : c.restBudget.getD 0 ≤ used) :
    restOver j (s.setCand j (c.timed used pe)) =
      (offerDesk x (.ending pe .active 0) (offerDesk x (.notice .restOver) s)).setCand j
        { c.timed used pe with state := .active } := by
  have hleft : c.restBudget.getD 0 - used = 0 := by omega
  have hnotice : ∀ v : State, showNotice (c.timed used pe) .restOver v = offerDesk x (.notice .restOver) v := fun v => by
    rw [showNotice, Candidate.timed, hx]
  have hend : ∀ v : State, showEnd { c.timed used pe with state := .active } v = offerDesk x (.ending pe .active 0) v :=
    fun v => by
      exact (showEnd_seated (c := { c.timed used pe with state := .active }) hx rfl v).trans 
        (congrArg (fun r => offerDesk x (.ending pe .active r) v) hleft)
  unfold restOver
  rw [cand_setCand_self]
  dsimp only
  rw [if_pos ⟨hst, hspent⟩, setCand_setCand, hnotice, hend, offerDesk_setCand, offerDesk_setCand]

theorem restOver_unspent (h : ¬ (c.state = .resting ∧ c.restBudget.getD 0 ≤ used)) :
    restOver j (s.setCand j (c.timed used pe)) = s.setCand j (c.timed used pe) := by
  unfold restOver
  rw [cand_setCand_self]
  exact if_neg h

/-- A record after its rest and its personal end have been brought up to date (R66, R67). -/
theorem restTaken_eq {before : Vector Sitting 8} (hc : s.cand j = some c) (hx : c.currentSeat = some x)
    (hused : used = if c.state = .resting ∧ before[c.sitting].running = true ∧ before[c.sitting].held = false then
      c.restUsed + 1 else c.restUsed)
    (hpe : pe = min 86399 (s.sittings[c.sitting].t0 + s.sittings[c.sitting].h + s.sittings[c.sitting].r +
      s.sittings[c.sitting].w + c.ext.getD 0 + used)) :
    restOver j (accrueRest before j s) =
      if c.state = .resting ∧ c.restBudget.getD 0 ≤ used then
        (offerDesk x (.ending pe .active 0) (offerDesk x (.notice .restOver) s)).setCand j
          { c.timed used pe with state := .active }
      else s.setCand j (c.timed used pe) := by
  rw [accrueRest_eq before hc, secondPassed_eq hused hpe]
  split
  · next h => exact restOver_spent hx h.1 h.2
  · next h => exact restOver_unspent h

/-! ### The finish and the warning (R68, R69, R77) -/

/-- The finish of a record that is DONE is the state of the claim. -/
theorem submitOnFinish_finishedAt (hd : d.state = .done) (hx : d.currentSeat = some x) (s : State) :
    submitOnFinish j ((offerDesk x (.notice .done) s).setCand j d) = finishedAt x j d s := by
  obtain ⟨e, att, heq, hout, hfree⟩ := submitOnFinish_finished (j := j) hd hx s
  rw [heq]
  unfold finishedAt
  cases h : s.scriptOut j with
  | true =>
    obtain ⟨rfl, rfl⟩ := hout h
    have hbound : (s.boundScripts j).isEmpty = false := by
      rw [← Bool.not_eq_true]
      intro hempty
      rw [scriptOut_of_empty hempty] at h
      cases h
    have hdone : { e with state := .done } = e := by rw [← hd]
    rw [if_pos rfl, hbound, hdone]
    rfl
  | false =>
    obtain ⟨rfl, rfl⟩ := hfree h
    rw [if_neg Bool.false_ne_true]
    rfl

theorem finish_setCand (why : FinishCause) (hx : d.currentSeat = some x) (s : State) :
    finish why j (s.setCand j d) = closingTest d.sitting (finishedAt x j { d with flags := d.flags.finished why } s) := by
  rw [finish_eq (cand_setCand_self s j d) hx, offerDesk_setCand, setCand_setCand,
    submitOnFinish_finishedAt (d := d.finished why) rfl hx]
  rfl

/-- The test for the warning of a record that has been written. -/
theorem warningTest_setCand (hx : d.currentSeat = some x) (hpe : d.personalEnd = some pe)
    (hst : d.state ∈ [CandState.active, .resting]) (s : State) :
    warningTest j (s.setCand j d) = warnedAt x j d s.sittings[d.sitting].v pe s := by
  have hdue : (d.dueWarning s.sittings[d.sitting] s.hallTime = true) ↔
      (d.flags.warned = false ∧ 0 < s.sittings[d.sitting].v ∧ pe - s.hallTime ≤ s.sittings[d.sitting].v) := by
    have hstate : (d.state == .active || d.state == .resting) = true := by simpa using hst
    simp only [Candidate.dueWarning, Candidate.remaining, hpe, hstate, Option.getD_some, Bool.true_and, Bool.and_eq_true,
      Bool.not_eq_true', decide_eq_true_eq, and_assoc]
  unfold warningTest warnedAt
  rw [cand_setCand_self]
  dsimp only
  rw [State.setCand_sittings, State.setCand_hallTime, setCand_setCand]
  by_cases h : d.dueWarning s.sittings[d.sitting] s.hallTime = true
  · have hnotice : ∀ v : State, showNotice d .warn v = offerDesk x (.notice .warn) v := fun v => by rw [showNotice, hx]
    have hspoken := offerDesk_spoken x (.notice .warn) s
    have hatt : (offerDesk x (.notice .warn) s).attention = s.attention := by rw [hspoken.desks]
    rw [if_pos h, if_pos (hdue.1 h), hnotice, offerDesk_setCand, State.setCand, hspoken.roll, State.raise, State.raise]
    dsimp only
    rw [hatt]
  · rw [if_neg h, if_neg (mt hdue.2 h)]
    rfl

/-- A record that has been written comes to its personal end, or is tested for its warning (R68, R69). -/
theorem reachEnd_setCand (hx : d.currentSeat = some x) (hpe : d.personalEnd = some pe)
    (hst : d.state ∈ [CandState.active, .resting]) (s : State) : reachEnd j (s.setCand j d) =
      if d.state = .active ∧ pe ≤ s.hallTime then closingTest d.sitting (finishedAt x j d s)
      else warnedAt x j d s.sittings[d.sitting].v pe s := by
  unfold reachEnd
  rw [cand_setCand_self]
  dsimp only
  rw [hpe, State.setCand_hallTime, Option.getD_some, finish_setCand .personalEnd hx, warningTest_setCand hx hpe hst]
  rfl

/-- The activation of a record at a seat, up to its warning (R70, R71). -/
theorem activate_seated (hc : s.cand j = some c) (hx : c.currentSeat = some x) : activate j s =
    warnedAt x j (c.activated s.sittings[c.sitting]) s.sittings[c.sitting].v
      (personalEndOf s.sittings[c.sitting] (extensionOf s.sittings[c.sitting].w c.allowance) 0)
      (offerDesk x (.ending (personalEndOf s.sittings[c.sitting] (extensionOf s.sittings[c.sitting].w c.allowance) 0) .active
        (restBudgetOf s.sittings[c.sitting].w c.restRate)) s) := by
  have hsittings : ∀ w : ShowContent, (offerDesk x w s).sittings = s.sittings := fun w => by
    rw [(offerDesk_spoken x w s).desks]
  unfold activate
  rw [hc]
  dsimp only
  rw [showEnd_seated (c := c.activated s.sittings[c.sitting]) hx rfl, offerDesk_setCand,
    warningTest_setCand (d := c.activated s.sittings[c.sitting]) hx rfl (by simp [Candidate.activated, Candidate.withTimes,
      Candidate.withPersonalEnd]), hsittings]
  rfl

end Sys2Proof.Machine
end

