-- ==== Sys2Proof/Proofs/RecordJourney.lean ====
section
/-! SUPPORT. One record through a hall second: its sitting's second and its own (R29, R30, R59, R66 to R70). -/

namespace Sys2Proof.Machine

variable {s t u v : State} {I : Nat → Prop} {i j x used pe now : Nat} {k : Fin 8} {c d e : Candidate} {g : Sitting}
  {moved : Bool} {before : Vector Sitting 8}

/-! ### A record's own second (R66 to R69, R81) -/

/-- The state of a record once its rest has been brought up to date (R67). -/
def Candidate.restState (used : Nat) (c : Candidate) : CandState :=
  if c.state = .resting ∧ c.restBudget.getD 0 ≤ used then .active else c.state

/-- A record once its rest and its personal end have been brought up to date (R65 to R67). -/
def Candidate.aged (used pe : Nat) (c : Candidate) : Candidate := { c.timed used pe with state := c.restState used }

/-- What the second adds to the rest used (R66). -/
def Candidate.restAfter (before : Sitting) (c : Candidate) : Nat :=
  if c.state = .resting ∧ before.running = true ∧ before.held = false then c.restUsed + 1 else c.restUsed

/-- A record that is tested for the end of its rest: its state alone may change (R67). -/
theorem restOver_cand (hc : s.cand j = some d) :
    (restOver j s).cand j = some { d with state := d.restState d.restUsed } := by
  unfold restOver Candidate.restState
  rw [hc]
  dsimp only
  split
  · rw [(showEnd_spoken ..).cand, (showNotice_spoken ..).cand, cand_setCand_self]
  · exact hc

theorem restTaken_cand (hc : s.cand j = some c) (hused : used = c.restAfter before[c.sitting])
    (hpe : pe = personalEndOf s.sittings[c.sitting] (c.ext.getD 0) used) :
    (restOver j (accrueRest before j s)).cand j = some (c.aged used pe) := by
  rw [accrueRest_eq before hc, secondPassed_eq hused hpe, restOver_cand (cand_setCand_self ..)]
  rfl

/-- A record that is tested for its warning: WARNED alone may be set (R69). -/
theorem warningTest_cand (hc : s.cand j = some d) : (warningTest j s).cand j =
    some { d with flags := { d.flags with warned := d.flags.warned || d.dueWarning s.sittings[d.sitting] s.hallTime } } := by
  unfold warningTest
  rw [hc]
  dsimp only
  split
  · next h =>
    rw [h, Bool.or_true]
    exact ((showNotice_spoken d .warn _).cand j).trans (cand_setCand_self ..)
  · next h =>
    rw [Bool.not_eq_true] at h
    rw [h, Bool.or_false, hc]

/-- WARNED after the test of a record that is ACTIVE or RESTING (R69). -/
theorem warned_after (hst : d.state ∈ [CandState.active, .resting]) (hpe : d.personalEnd = some pe) (g : Sitting)
    (now : Nat) :
    (d.flags.warned || d.dueWarning g now) = (d.flags.warned || (decide (0 < g.v) && decide (pe - now ≤ g.v))) := by
  have hstate : (d.state == .active || d.state == .resting) = true := by simpa using hst
  simp only [Candidate.dueWarning, Candidate.remaining, hpe, hstate, Option.getD_some, Bool.true_and]
  cases d.flags.warned <;> rfl

theorem restTaken_clock (before : Vector Sitting 8) (j : Nat) (s : State) :
    (restOver j (accrueRest before j s)).clock = s.clock := by simp

theorem aged_state (hc : c.state ∈ [CandState.active, .resting]) (used pe : Nat) :
    (c.aged used pe).state ∈ [CandState.active, .resting] := by
  show c.restState used ∈ _
  unfold Candidate.restState
  split
  · simp
  · exact hc

/-- A record whose personal end is reached finishes (R68). -/
theorem recordSecond_finishes (hc : s.cand j = some c) (hused : used = c.restAfter before[c.sitting])
    (hpe : pe = personalEndOf s.sittings[c.sitting] (c.ext.getD 0) used) (hst : c.restState used = .active)
    (hend : pe ≤ s.hallTime) :
    ∃ e, (recordSecond before j s).cand j = some e ∧ ((c.aged used pe).finished .personalEnd).FinishedAs e := by
  have hcand := restTaken_cand hc hused hpe
  unfold recordSecond reachEnd
  rw [hcand]
  dsimp only
  rw [(clock_eq_iff.1 (restTaken_clock before j s)).1, if_pos ⟨hst, hend⟩]
  exact finish_cand hcand _

/-- A record whose personal end is not reached is warned where that is due (R69). -/
theorem recordSecond_goes_on (hc : s.cand j = some c) (hused : used = c.restAfter before[c.sitting])
    (hpe : pe = personalEndOf s.sittings[c.sitting] (c.ext.getD 0) used) (hc' : c.state ∈ [CandState.active, .resting])
    (hgoes : ¬ (c.restState used = .active ∧ pe ≤ s.hallTime)) :
    (recordSecond before j s).cand j = some { c.aged used pe with flags := { c.flags with
      warned := c.flags.warned || (decide (0 < s.sittings[c.sitting].v) &&
        decide (pe - s.hallTime ≤ s.sittings[c.sitting].v)) } } := by
  have hcand := restTaken_cand hc hused hpe
  obtain ⟨hh, hs⟩ := clock_eq_iff.1 (restTaken_clock before j s)
  have hgoes' : ¬ ((c.aged used pe).state = .active ∧ (c.aged used pe).personalEnd.getD 0 ≤ s.hallTime) := hgoes
  have hwarned := warned_after (aged_state hc' used pe) rfl s.sittings[c.sitting] s.hallTime
  unfold recordSecond reachEnd
  rw [hcand]
  dsimp only
  rw [hh, if_neg hgoes', warningTest_cand hcand, hh, hs]
  exact congrArg some (congrArg (fun b => { c.aged used pe with flags := { c.flags with warned := b } }) hwarned)

/-- A record at day end finishes, with CAPPED (R81). -/
theorem recordDayEnd_finishes (hc : s.cand j = some c) : ∃ used pe e, (recordDayEnd before j s).cand j = some e ∧
    ((c.aged used pe).finished .dayEnd).FinishedAs e := by
  obtain ⟨e, he, hfin⟩ := finish_cand (restTaken_cand (before := before) hc rfl rfl) .dayEnd
  exact ⟨_, _, e, he, hfin⟩

/-- A record that becomes ACTIVE: its times are set, and WARNED may be (R70, R71). -/
theorem activate_cand (hc : s.cand j = some c) : ∃ b, (activate j s).cand j =
    some { c.activated s.sittings[c.sitting] with flags := { c.flags with warned := b } } := by
  unfold activate
  rw [hc]
  dsimp only
  rw [warningTest_cand (d := c.activated s.sittings[c.sitting]) (by rw [(showEnd_spoken ..).cand, cand_setCand_self])]
  exact ⟨_, rfl⟩

/-! ### The records that take the second, one after the other (R66, R81) -/

/-- One record of a list is taken once, between changes of the others' alone. -/
theorem records_around {l : List Nat} (hl : l.Nodup) (hj : j ∈ l) {f : Nat → State → State}
    (hv : ∀ {I : Nat → Prop} {i}, I i → ∀ s : State, s.Visit I (f i s)) (hc : ∀ i (s : State), s.Closes (f i s)) (s : State) :
    ∃ u, s.Visit (· ≠ j) u ∧ s.Closes u ∧ (f j u).Visit (· ≠ j) (takeInTurn l f s) := by
  obtain ⟨u, ⟨hu, hcl⟩, hu', -⟩ := takeInTurn_visit (fun s t => s.Visit (· ≠ j) t ∧ s.Closes t)
    (fun s => ⟨.refl s, .refl s⟩) (fun h h' => ⟨h.1.trans h'.1, h.2.trans h'.2⟩) hl hj f
    (fun i _ (hi : i ≠ j) s => ⟨hv (I := (· ≠ j)) hi s, hc i s⟩) s
  exact ⟨u, hu, hcl, hu'⟩

/-- A record that does not take the second is none of those that do. -/
theorem takers_others (hs : s.Stores) (hc : s.cand j = some c) (hno : c.takesSecond before = false) {f : Nat → State → State}
    (hv : ∀ {I : Nat → Prop} {i}, I i → ∀ s : State, s.Visit I (f i s)) :
    s.Visit (· ≠ j) (takeInTurn (s.takersOf before) f s) := by
  refine takeInTurn_records_visit (fun i hi e => ?_) hv s
  obtain ⟨d, hd, htakes⟩ := (mem_slotsWhere hs).1 hi
  subst e
  rw [hc] at hd
  obtain rfl := Option.some.inj hd
  exact Bool.false_ne_true (hno.symm.trans htakes)

theorem mem_takersOf (hs : s.Stores) (hc : s.cand j = some c) (hst : c.state ∈ [CandState.active, .resting])
    (hr : before[c.sitting].running = true) : j ∈ s.takersOf before := by
  refine (mem_slotsWhere hs).2 ⟨c, hc, ?_⟩
  unfold Candidate.takesSecond
  rw [hr, Bool.and_true]
  simpa using hst

theorem takesSecond_of_state (h : c.state ∉ [CandState.active, .resting]) : c.takesSecond before = false := by
  unfold Candidate.takesSecond
  simp only [List.mem_cons, List.not_mem_nil, or_false, not_or] at h
  simp [h.1, h.2]

theorem takesSecond_of_idle (h : before[c.sitting].running = false) : c.takesSecond before = false := by
  rw [Candidate.takesSecond, h, Bool.and_false]

/-! ### A record that its sitting's second does not take (R29, R30) -/

theorem covered_others (hs : s.Stores) (hc : s.cand j = some c)
    (hst : c.sitting = k → c.state ∉ [CandState.seated, .expected]) : s.Covered (· ≠ j) k := by
  refine .inr ⟨hs, fun i d hd hsit hst' e => ?_⟩
  subst e
  rw [hc] at hd
  obtain rfl := Option.some.inj hd
  exact hst hsit hst'

/-- The sittings' seconds leave a record that is neither SEATED nor EXPECTED. -/
theorem sittings_others {f : Fin 8 → State → State} (hq : ∀ k (s : State), s.Quiet (f k s))
    (hv : ∀ {I : Nat → Prop} {k} {s : State}, s.Covered I k → s.Visit I (f k s)) (hs : s.Stores) (hc : s.cand j = some c)
    (hst : c.state ∉ [CandState.seated, .expected]) : s.Visit (· ≠ j) (takeInTurn eight f s) := by
  refine (takeInTurn_invariant (fun t => t.Stores ∧ s.Visit (· ≠ j) t) eight f (fun k t ⟨hs', ht⟩ => ?_) s
    ⟨hs, .refl s⟩).2
  have hcand : t.cand j = some c := (ht.others j (fun h => h rfl)).trans hc
  exact ⟨(hq k t).stores hs', ht.trans (hv (covered_others hs' hcand fun _ => hst))⟩

theorem State.Visit.cand_self (h : s.Visit (· ≠ j) t) : t.cand j = s.cand j := h.others j (fun h => h rfl)

/-- Apart from the other sittings' records, a record is as before. -/
theorem State.Apart.others (h : s.Apart k t) (hc : s.cand j = some c) (hsit : c.sitting = k) : s.Visit (· ≠ j) t := by
  refine h.visit.mono fun i ⟨d, hd, hne⟩ e => ?_
  subst e
  rw [hc] at hd
  obtain rfl := Option.some.inj hd
  exact hne hsit

/-! ### An admission that closes (R30, R59) -/

/-- A record at its admission close. -/
def Candidate.missed (c : Candidate) : Candidate := { c with state := .absent, currentSeat := none }

/-- No other record has the seat. -/
def State.OwnSeat (s : State) (j x : Nat) : Prop := ∀ i c, s.cand i = some c → c.currentSeat = some x → i = j

theorem State.Visit.ownSeat (h : s.Visit I t) (hown : s.OwnSeat j x) : t.OwnSeat j x := by
  intro i d hd hx
  obtain ⟨c, hc, -, hseat | hseat⟩ := h.kept i d hd
  · exact hown i c hc (hseat ▸ hx)
  · rw [hseat] at hx
    cases hx

theorem State.Visit.own_seat (h : s.Visit (· ≠ j) t) (hown : s.OwnSeat j x) : (t.seat x).butStale = (s.seat x).butStale :=
  h.seats x fun i c hi hc hx => hi (hown i c hc hx)

/-- A record has become ABSENT, with a cause, and a seat that it alone had has been freed (R59). -/
structure State.Missed (j : Nat) (c : Candidate) (s t : State) : Prop where
  visit : s.Visit (fun _ => True) t
  cand : t.cand j = some c.missed
  pending : t.attention[0].pending = true
  seat : ∀ x, c.currentSeat = some x → s.OwnSeat j x → (t.seat x).butStale = (s.seat x).freed.butStale

theorem State.Visit.missed (h : s.Visit (· ≠ j) t) (hm : t.Missed j c u) : s.Missed j c u :=
  ⟨(h.mono fun _ _ => trivial).trans hm.visit, hm.cand, hm.pending, fun x hx hown =>
    (hm.seat x hx (h.ownSeat hown)).trans (butStale_freed (h.own_seat hown))⟩

theorem State.Missed.trans (hm : s.Missed j c t) (h : t.Visit (· ≠ j) u) : s.Missed j c u :=
  ⟨hm.visit.trans (h.mono fun _ _ => trivial), h.cand_self.trans hm.cand, h.pending 0 hm.pending, fun x hx hown =>
    (h.own_seat (hm.visit.ownSeat hown)).trans (hm.seat x hx hown)⟩

theorem raise_pending (s : State) : (s.raise .admission).attention[0].pending = true := by
  simp [Group.withCause, CauseGroup.index]

/-- An EXPECTED record is ABSENT after its own admission close; the cause is raised at the end. -/
theorem endExpected_missed (hc : s.cand j = some c) : (endExpected .absent j s).cand j = some c.missed ∧
    ∀ x, c.currentSeat = some x → ((endExpected .absent j s).seat x).butStale = (s.seat x).freed.butStale := by
  cases hx : c.currentSeat with
  | none =>
    refine ⟨?_, nofun⟩
    rw [endExpected_unseated hc hx, cand_setCand_self, Candidate.missed, ← hx]
  | some y =>
    have hdesk := freedDesk_givenUp (.refl s y)
    rw [endExpected_absent hc hx]
    refine ⟨cand_setCand_self s j _, fun x hxy => ?_⟩
    obtain rfl := Option.some.inj hxy
    exact hdesk.seat

theorem closeAdmission_missed (hs : s.Stores) (hc : s.cand j = some c) (hsit : c.sitting = k) (hst : c.state = .expected) :
    s.Missed j c (closeAdmission k s) := by
  have hj : j ∈ s.expectedOf k := (mem_slotsWhere hs).2 ⟨c, hc, by simp [hsit, hst]⟩
  obtain ⟨u, hu, hafter⟩ := takeInTurn_visit (State.Visit (· ≠ j)) .refl State.Visit.trans
    (slotsWhere_nodup hs _) hj (endExpected .absent) (fun i _ (hi : i ≠ j) s => endExpected_visit (I := (· ≠ j)) hi .absent s) s
  obtain ⟨hcand, hseat⟩ := endExpected_missed (hu.cand_self.trans hc)
  have hlater := hafter.trans ((closingTest_visit k _).trans (raise_visit .admission _))
  rw [closeAdmission_some (List.ne_nil_of_mem hj)]
  refine ⟨?_, hlater.cand_self.trans hcand, raise_pending _, fun x hx hown => ?_⟩
  · exact ((hu.mono fun _ _ => trivial).trans (endExpected_visit trivial .absent u)).trans (hlater.mono fun _ _ => trivial)
  · have hown' : (endExpected .absent j u).OwnSeat j x :=
      (endExpected_visit (I := fun _ => True) trivial .absent u).ownSeat (hu.ownSeat hown)
    exact (hlater.own_seat hown').trans ((hseat x hx).trans (butStale_freed (hu.own_seat hown)))

end Sys2Proof.Machine
end

