-- ==== Sys2Proof/Proofs/WaitingRecords.lean ====
section
/-! SUPPORT. The candidate records through a hall second that is not day end (R29, R30, R59, R66 to R70). -/

namespace Sys2Proof.Machine

variable {s t u v w : State} {i j x used pe now : Nat} {k : Fin 8} {c d e : Candidate} {g g' : Sitting}
  {moved : Bool} {before : Vector Sitting 8}

/-! ### An EXPECTED or SEATED record in its sitting's second (R29, R30, R59, R70) -/

theorem moveToClosing_visit {I : Nat → Prop} (k : Fin 8) (s : State) : s.Visit I (moveToClosing k s) := by
  unfold moveToClosing
  split
  · exact (setSitting_visit ..).trans (closingTest_visit ..)
  · exact .refl s

/-- The activation of a sitting's SEATED records leaves a record that is not one of them. -/
theorem activates_others (hs : s.Stores) (hc : s.cand j = some c) (hst : c.state ≠ .seated) (k : Fin 8) (g : Sitting) :
    s.Visit (· ≠ j) (takeInTurn (s.seatedOf k) activate (s.setSitting k g)) := by
  refine (setSitting_visit k g s).trans (takeInTurn_records_visit (fun i hi e => ?_) activate_visit _)
  obtain ⟨d, hd, hseated⟩ := (mem_slotsWhere hs).1 hi
  subst e
  rw [hc] at hd
  obtain rfl := Option.some.inj hd
  simp [hst] at hseated

theorem activates_stores (hs : s.Stores) (k : Fin 8) (hallHold : Bool) :
    (takeInTurn (s.seatedOf k) activate (s.setSitting k (s.sittings[k].started hallHold))).Stores :=
  ((setSitting_quiet (v := s.sittings[k].started hallHold) rfl).trans (takeInTurn_quiet _ _ activate_quiet _)).stores hs

/-- An EXPECTED record whose sitting's admission closes at the second is ABSENT (R29, R30, R59). -/
theorem sittingSecond_missed (hs : s.Stores) (hc : s.cand j = some c) (hsit : c.sitting = k) (hst : c.state = .expected)
    (h : s.sittings[k].closesAdmission ∨ (s.sittings[k].starts moved s.hallTime ∧ s.sittings[k].r + s.sittings[k].l = 0)) :
    s.Missed j c (sittingSecond moved k s) := by
  rcases h with h | ⟨h, hzero⟩
  · have hset := setSitting_visit (I := (· ≠ j)) k s.sittings[k].accrue.reached s
    have hstores := (setSitting_quiet (s := s) (k := k) ((reached_t0 _).trans (accrue_t0 s.sittings[k]))).stores hs
    rw [sittingSecond_closes h]
    exact (hset.missed (closeAdmission_missed hstores (hset.cand_self.trans hc) hsit hst)).trans (moveToClosing_visit ..)
  · have hstarted := activates_others hs hc (by simp [hst]) k (s.sittings[k].started s.holdFilter.filtered)
    rw [sittingSecond_starts h, if_pos hzero]
    exact hstarted.missed (closeAdmission_missed (activates_stores hs ..) (hstarted.cand_self.trans hc) hsit hst)

/-- In any other second of its sitting an EXPECTED record is as before. -/
theorem sittingSecond_awaits (hs : s.Stores) (hc : s.cand j = some c) (hst : c.state = .expected)
    (hcloses : ¬ s.sittings[k].closesAdmission)
    (hstarts : ¬ (s.sittings[k].starts moved s.hallTime ∧ s.sittings[k].r + s.sittings[k].l = 0)) :
    s.Visit (· ≠ j) (sittingSecond moved k s) := by
  by_cases hstart : s.sittings[k].starts moved s.hallTime
  · rw [sittingSecond_starts hstart, if_neg fun hzero => hstarts ⟨hstart, hzero⟩]
    exact activates_others hs hc (by simp [hst]) ..
  · rcases sittingSecond_plain hstart hcloses with heq | ⟨g, heq⟩ <;> rw [heq]
    · exact (setSitting_visit ..).trans (moveToClosing_visit ..)
    · exact setSitting_visit ..

/-- The clock is as before, and one record. -/
theorem activates_around (hs : s.Stores) (hc : s.cand j = some c) (hsit : c.sitting = k) (hst : c.state = .seated)
    (g : Sitting) : ∃ b, (takeInTurn (s.seatedOf k) activate (s.setSitting k g)).cand j =
      some { c.activated g with flags := { c.flags with warned := b } } := by
  subst hsit
  have hj : j ∈ s.seatedOf c.sitting := (mem_slotsWhere hs).2 ⟨c, hc, by simp [hst]⟩
  obtain ⟨u, ⟨hu, hclock⟩, hafter, -⟩ := takeInTurn_visit (fun s t => s.Visit (· ≠ j) t ∧ t.clock = s.clock)
    (fun s => ⟨.refl s, rfl⟩) (fun h h' => ⟨h.1.trans h'.1, h'.2.trans h.2⟩) (slotsWhere_nodup hs _) hj activate
    (fun i _ (hi : i ≠ j) s => ⟨activate_visit (I := (· ≠ j)) hi s, activate_clock i s⟩) (s.setSitting c.sitting g)
  have hg : u.sittings[c.sitting] = g := by
    rw [(clock_eq_iff.1 hclock).2]
    exact setSitting_self ..
  obtain ⟨b, hb⟩ := activate_cand (hu.cand_self.trans hc)
  rw [hg] at hb
  exact ⟨b, hafter.cand_self.trans hb⟩

/-- A SEATED record of a sitting that starts is ACTIVE; its sitting's admission may close at once (R29, R70). -/
theorem sittingSecond_activates (hs : s.Stores) (hc : s.cand j = some c) (hsit : c.sitting = k) (hst : c.state = .seated)
    (h : s.sittings[k].starts moved s.hallTime) : ∃ b, (sittingSecond moved k s).cand j =
      some { c.activated (s.sittings[k].started s.holdFilter.filtered) with flags := { c.flags with warned := b } } := by
  obtain ⟨b, hb⟩ := activates_around hs hc hsit hst (s.sittings[k].started s.holdFilter.filtered)
  refine ⟨b, ?_⟩
  rw [sittingSecond_starts h]
  split
  · refine (closeAdmission_visit (covered_others (activates_stores hs ..) hb fun _ => ?_)).cand_self.trans hb
    show CandState.active ∉ _
    decide
  · exact hb

/-! ### The whole second -/

theorem personal_others (hs : s.Stores) (hc : s.cand j = some c) (hno : c.takesSecond before = false) :
    s.Visit (· ≠ j) (personalSecond before s) :=
  takers_others hs hc hno fun hi s => recordSecond_visit hi before s

theorem advanceClock_hallTime (h : s.hallTime + 1 < 86399) : (advanceClock s).hallTime = s.hallTime + 1 := by
  rw [advanceClock_plain h]

/-- A record that takes the second: the sitting's second comes before its own, and nothing else reaches it. -/
theorem secondTaken_taker (htime : s.hallTime + 1 < 86399) (hs : s.Stores) (hc : s.cand j = some c)
    (hst : c.state ∈ [CandState.active, .resting]) (hr : s.sittings[c.sitting].running = true) :
    ∃ u, u.cand j = some c ∧ u.hallTime = s.hallTime + 1 ∧
      (s.sittings[c.sitting].taken true (s.hallTime + 1) s.holdFilter.filtered).MayClose u.sittings[c.sitting] ∧
      s.secondTaken.cand j = (recordSecond s.sittings j u).cand j := by
  have hs' := advanceClock_stores hs
  have hsittings := sittings_others (f := sittingSecond true) (sittingSecond_quiet true)
    (fun h => sittingSecond_visit h true) hs' hc (fun h => by simp at h hst; rcases hst with hst | hst <;> simp [hst] at h)
  have hcand := hsittings.cand_self.trans hc
  obtain ⟨hh, hsit⟩ := sittingsSecond_clock true (advanceClock s)
  rw [advanceClock_hallTime htime] at hh hsit
  rw [secondTaken_plain htime]
  obtain ⟨u, hu, hcl, hafter⟩ := records_around (slotsWhere_nodup (sittingsSecond_stores hs' true) _)
    (mem_takersOf (sittingsSecond_stores hs' true) hcand hst hr)
    (fun hi s' => recordSecond_visit hi s.sittings s') (recordSecond_closes s.sittings) _
  exact ⟨u, hu.cand_self.trans hcand, hcl.hallTime.trans hh, (hsit c.sitting).trans (hcl.sitting c.sitting),
    hafter.cand_self⟩

/-- A record that does not take the second is as its sitting's second leaves it. -/
theorem secondTaken_waiter (htime : s.hallTime + 1 < 86399) (hs : s.Stores) (hc : s.cand j = some c) :
    ∃ u, (advanceClock s).Visit (· ≠ j) u ∧ u.Stores ∧ u.cand j = some c ∧ u.hallTime = s.hallTime + 1 ∧
      u.holdFilter = s.holdFilter ∧ u.sittings[c.sitting] = s.sittings[c.sitting] ∧
      ∀ d, (sittingSecond true c.sitting u).cand j = some d → d.sitting = c.sitting → d.takesSecond s.sittings = false →
        (sittingSecond true c.sitting u).Visit (· ≠ j) s.secondTaken := by
  obtain ⟨u, hu, hafter⟩ := sittingsSecond_apart (advanceClock_stores hs) true c.sitting
  obtain ⟨hh, hf, hk⟩ := hu.same
  refine ⟨u, hu.others hc rfl, hu.stores, (hu.cand_iff rfl).2 hc, ?_, hf, hk, fun d hd hsit hno => ?_⟩
  · rw [hh, advanceClock_hallTime htime]
  · rw [secondTaken_plain htime]
    exact (hafter.others hd hsit).trans (personal_others hafter.stores ((hafter.cand_iff hsit).2 hd) hno)

theorem State.Missed.after_advance (h : (advanceClock s).Missed j c t) : t.cand j = some c.missed ∧
    t.attention[0].pending = true ∧
    ∀ x, c.currentSeat = some x → s.OwnSeat j x → (t.seat x).butStale = (s.seat x).freed.butStale :=
  ⟨h.cand, h.pending, fun x hx hown => h.seat x hx hown⟩

/-- Seats and records agree: a seat is one record's alone (R43). -/
theorem ownSeat_of_seatLaw (hs : s.Stores) (hlaw : s.seatLaw = true) (hc : s.cand j = some c)
    (hx : c.currentSeat = some x) : s.OwnSeat j x := by
  have holder : ∀ i d, s.cand i = some d → d.currentSeat = some x → (s.seat x).candidate = some i := by
    intro i d hd hdx
    have hagrees := (Bool.and_eq_true_iff.1 hlaw).2
    have := List.all_eq_true.1 hagrees (i, d) ((hs.cand_iff i d).1 hd)
    rw [State.recordAgrees, hdx] at this
    exact beq_iff_eq.1 (Bool.and_eq_true_iff.1 this).1
  intro i d hd hdx
  exact Option.some.inj ((holder i d hd hdx).symm.trans (holder j c hc hx))

end Sys2Proof.Machine
end

