-- ==== Sys2Proof/Proofs/HallSecondRecords.lean ====
section
/-! The candidate records at a hall second (R29, R30, R59, R66 to R70, R77, R81). -/

namespace Sys2Proof.Machine

variable {s t u w : State} {j x used pe now h ext budget : Nat} {k : Fin 8} {c d : Candidate} {g : Sitting}
  {before : Vector Sitting 8} {spent : Prop}

/-! ### The record's own second as a whole (R65 to R69, R81) -/

/-- What a record's desk is told of its rest, and the record that is written then (R65 to R67). -/
theorem restTaken_of_claim (hc : u.cand j = some c) (hx : c.currentSeat = some x)
    (hused : used = if c.state = .resting ∧ before[c.sitting].running = true ∧ before[c.sitting].held = false then
      c.restUsed + 1 else c.restUsed)
    (hpe : pe = min 86399 (u.sittings[c.sitting].t0 + u.sittings[c.sitting].h + u.sittings[c.sitting].r +
      u.sittings[c.sitting].w + c.ext.getD 0 + used))
    (hspent : spent ↔ c.state = .resting ∧ c.restBudget.getD 0 ≤ used)
    (hd : (spent ∧ d = { c with restUsed := used, personalEnd := some pe, state := .active } ∧
        w = offerDesk x (.ending pe .active 0) (offerDesk x (.notice .restOver) u)) ∨
      (¬ spent ∧ d = { c with restUsed := used, personalEnd := some pe } ∧ w = u)) :
    restOver j (accrueRest before j u) = w.setCand j d ∧ w.clock = u.clock := by
  rw [restTaken_eq hc hx hused hpe]
  rcases hd with ⟨hyes, rfl, rfl⟩ | ⟨hno, rfl, rfl⟩
  · rw [if_pos (hspent.1 hyes)]
    exact ⟨rfl, by simp⟩
  · rw [if_neg (mt hspent.2 hno)]
    exact ⟨rfl, rfl⟩

/-- The record that is written keeps sitting and seat, and is ACTIVE or RESTING. -/
theorem writtenRecord (hc : c.state ∈ [CandState.active, .resting])
    (hd : (spent ∧ d = { c with restUsed := used, personalEnd := some pe, state := .active } ∧
        w = offerDesk x (.ending pe .active 0) (offerDesk x (.notice .restOver) u)) ∨
      (¬ spent ∧ d = { c with restUsed := used, personalEnd := some pe } ∧ w = u)) :
    d.sitting = c.sitting ∧ d.currentSeat = c.currentSeat ∧ d.personalEnd = some pe ∧
      d.state ∈ [CandState.active, .resting] := by
  rcases hd with ⟨-, rfl, -⟩ | ⟨-, rfl, -⟩
  · exact ⟨rfl, rfl, rfl, by simp⟩
  · exact ⟨rfl, rfl, rfl, hc⟩

/-! ### The records that the second takes (R66 to R68) -/

/-- What the second leaves of the timetable and of H in a record's sitting. -/
theorem taken_personalEnd {b : Bool} (hr : g.running = true) {g' : Sitting} (hclose : (g.taken true now b).MayClose g')
    (hh : h = g.h + g.held.toNat) (ext used : Nat) :
    personalEndOf g' ext used = min 86399 (g.t0 + h + g.r + g.w + ext + used) ∧ g'.v = g.v := by
  obtain ⟨htable, htotals⟩ := taken_totals true now b g
  obtain ⟨htable', hh', -⟩ := hclose.totals
  have hsame : g'.timetable = g.timetable := htable'.trans htable
  have ht0 : g'.t0 = g.t0 := (congrArg Sitting.t0 hsame :)
  have hr' : g'.r = g.r := (congrArg Sitting.r hsame :)
  have hw : g'.w = g.w := (congrArg Sitting.w hsame :)
  have hv : g'.v = g.v := (congrArg Sitting.v hsame :)
  refine ⟨?_, hv⟩
  rw [personalEndOf, ht0, hr', hw, hh', (htotals hr).1, hh]
  rfl

theorem hallSecond_cand (s : State) (j : Nat) : (hallSecond s).cand j = s.secondTaken.cand j := by
  unfold State.cand
  rw [(hallSecond_spares s).2.1]

theorem hallSecond_seat (s : State) (x : Nat) : (hallSecond s).seat x = s.secondTaken.seat x := by
  unfold State.seat
  rw [(hallSecond_spares s).2.2.1]

/-- A record that takes the second (R66 to R69). -/
theorem hallSecond_taker (htime : s.hallTime + 1 < 86399) (hs : s.Stores) (hc : s.cand j = some c)
    (hst : c.state ∈ [CandState.active, .resting]) (hr : s.sittings[c.sitting].running = true)
    (hused : used = c.restAfter s.sittings[c.sitting])
    (hh : h = s.sittings[c.sitting].h + s.sittings[c.sitting].held.toNat)
    (hpe : pe = min 86399 (s.sittings[c.sitting].t0 + h + s.sittings[c.sitting].r + s.sittings[c.sitting].w +
      c.ext.getD 0 + used)) :
    (c.restState used = .active → pe ≤ s.hallTime + 1 → ∃ e, (hallSecond s).cand j = some e ∧
      ((c.aged used pe).finished .personalEnd).FinishedAs e) ∧
    (¬ (c.restState used = .active ∧ pe ≤ s.hallTime + 1) → (hallSecond s).cand j =
      some { c.aged used pe with flags := { c.flags with
        warned := c.flags.warned || (decide (0 < s.sittings[c.sitting].v) &&
          decide (pe - (s.hallTime + 1) ≤ s.sittings[c.sitting].v)) } }) := by
  obtain ⟨u, hu, huh, hclose, hafter⟩ := secondTaken_taker htime hs hc hst hr
  obtain ⟨hpe', hv⟩ := taken_personalEnd hr hclose hh (c.ext.getD 0) used
  rw [hallSecond_cand, hafter, ← huh, ← hv]
  exact ⟨fun hactive hend => recordSecond_finishes hu hused (hpe.trans hpe'.symm) hactive hend,
    fun hgoes => recordSecond_goes_on hu hused (hpe.trans hpe'.symm) hst hgoes⟩

/-! ### The records that wait (R29, R30, R59, R70) -/

/-- A SEATED record of a sitting that starts (R29, R70). -/
theorem hallSecond_activates (htime : s.hallTime + 1 < 86399) (hs : s.Stores) (hc : s.cand j = some c)
    (hst : c.state = .seated) (hstarts : s.sittings[c.sitting].starts true (s.hallTime + 1)) :
    ∃ b, (hallSecond s).cand j = some { c.activated (s.sittings[c.sitting].started s.holdFilter.filtered) with
      flags := { c.flags with warned := b } } := by
  obtain ⟨u, -, hus, hu, hh, hf, hk, hafter⟩ := secondTaken_waiter htime hs hc
  obtain ⟨b, hb⟩ := sittingSecond_activates (moved := true) hus hu rfl hst (by rw [hk, hh]; exact hstarts)
  rw [hk, hf] at hb
  refine ⟨b, ?_⟩
  rw [hallSecond_cand, (hafter _ hb rfl (takesSecond_of_idle (idle_of_starting hstarts.2.2))).cand_self, hb]

/-- The admission of a record's sitting closes at the second (R29, R30). -/
def Sitting.admissionCloses (now : Nat) (g : Sitting) : Prop :=
  g.closesAdmission ∨ (g.starts true now ∧ g.r + g.l = 0)

theorem admissionCloses_iff (now : Nat) (g : Sitting) : g.admissionCloses now ↔
    (g.state ∈ [SittingState.reading, .writing] ∧ g.held = false ∧ g.e + 1 = g.r + g.l) ∨
      ((g.state = .admitting ∨ (g.state = .scheduled ∧ g.aw = 0)) ∧ g.t0 = now ∧ g.r + g.l = 0) :=
  or_congr Iff.rfl ⟨fun ⟨⟨_, htime, hstate⟩, hzero⟩ => ⟨hstate, htime.symm, hzero⟩,
    fun ⟨hstate, htime, hzero⟩ => ⟨⟨rfl, htime.symm, hstate⟩, hzero⟩⟩

/-- An EXPECTED record whose admission closes (R59). -/
theorem hallSecond_missed (htime : s.hallTime + 1 < 86399) (hs : s.Stores) (hc : s.cand j = some c)
    (hst : c.state = .expected) (hcloses : s.sittings[c.sitting].admissionCloses (s.hallTime + 1)) :
    (advanceClock s).Missed j c s.secondTaken := by
  obtain ⟨u, hvisit, hus, hu, hh, hf, hk, hafter⟩ := secondTaken_waiter htime hs hc
  have hmissed := sittingSecond_missed (moved := true) hus hu rfl hst (by rw [hk, hh]; exact hcloses)
  exact (hvisit.missed hmissed).trans (hafter _ hmissed.cand rfl (takesSecond_of_state (by simp [Candidate.missed])))

/-- An EXPECTED record whose admission does not close is as before. -/
theorem hallSecond_awaits (htime : s.hallTime + 1 < 86399) (hs : s.Stores) (hc : s.cand j = some c)
    (hst : c.state = .expected) (hcloses : ¬ s.sittings[c.sitting].admissionCloses (s.hallTime + 1)) :
    (hallSecond s).cand j = some c := by
  obtain ⟨u, -, hus, hu, hh, hf, hk, hafter⟩ := secondTaken_waiter htime hs hc
  have hawaits := sittingSecond_awaits (moved := true) hus hu hst (by rw [hk]; exact fun e => hcloses (.inl e))
    (by rw [hk, hh]; exact fun e => hcloses (.inr e))
  have hcand := hawaits.cand_self.trans hu
  rw [hallSecond_cand, (hafter _ hcand rfl (takesSecond_of_state (by simp [hst]))).cand_self, hcand]

/-- A record in a final state is as before. -/
theorem hallSecond_final (htime : s.hallTime + 1 < 86399) (hs : s.Stores) (hc : s.cand j = some c)
    (hst : c.state ∈ [CandState.done, .cleared, .absent, .withdrawn]) : (hallSecond s).cand j = some c := by
  have hseated : c.state ∉ [CandState.seated, .expected] := fun e => by revert hst e; cases c.state <;> decide
  have htimed : c.state ∉ [CandState.active, .resting] := fun e => by revert hst e; cases c.state <;> decide
  obtain ⟨u, -, hus, hu, -, -, -, hafter⟩ := secondTaken_waiter htime hs hc
  have hcand := (sittingSecond_visit (k := c.sitting) (covered_others hus hu fun _ => hseated) true).cand_self.trans hu
  rw [hallSecond_cand, (hafter _ hcand rfl (takesSecond_of_state htimed)).cand_self, hcand]

/-- Settles O34. -/
theorem hallSecondAgesTheRecords : Obligations.HallSecondAgesTheRecords := by
  refine ⟨fun before u w j x used pe c d g spent hc hst hx hg hused hpe hspent hd => ?_,
    fun u j x ext budget pe c g hc hx hg hext hbudget hpe => ?_,
    fun s j c g now h used pe st closes hrun hstore htime hnow hc hg hh hused hpe hst hcloses =>
      ⟨hallSecond s, exec_hallSecond hrun, ?_⟩⟩
  · subst hg
    obtain ⟨htaken, hclock⟩ := restTaken_of_claim hc hx hused hpe hspent hd
    obtain ⟨hsit, hseat, hend, hstate⟩ := writtenRecord hst hd
    obtain ⟨hh, hs⟩ := clock_eq_iff.1 hclock
    have hreach := reachEnd_setCand (j := j) (hseat.trans hx) hend hstate w
    have hg : u.sittings[d.sitting] = u.sittings[c.sitting] := by simp only [hsit]
    rw [hh, hs, hg, hsit] at hreach
    unfold recordSecond recordDayEnd
    rw [htaken, hreach, finish_setCand .dayEnd (hseat.trans hx), hsit]
    exact ⟨fun h1 h2 => if_pos ⟨h1, h2⟩, fun hno => if_neg hno, rfl⟩
  · subst hg hext hbudget hpe
    exact activate_seated hc hx
  · subst hg hnow hst
    have hs := (storeLaw_iff s).1 hstore
    have hcloses' : closes ↔ s.sittings[c.sitting].admissionCloses (s.hallTime + 1) :=
      hcloses.trans (admissionCloses_iff ..).symm
    have hrest : s.sittings[c.sitting].running = true → used = c.restAfter s.sittings[c.sitting] := fun hr => by
      rw [hused, Candidate.restAfter, hr]
      simp
    refine ⟨fun hr hst hactive hend => ?_, fun hr hst hgoes => ?_, fun hst hadmit ht0 => ?_, fun hst hyes => ?_,
      fun hst hno => hallSecond_awaits htime hs hc hst (mt hcloses'.2 hno), fun hst => hallSecond_final htime hs hc hst⟩
    · obtain ⟨e, he, hstate, hfin⟩ := (hallSecond_taker htime hs hc hst hr (hrest hr) hh hpe).1 hactive hend
      exact ⟨e, he, hstate, hfin⟩
    · exact (hallSecond_taker htime hs hc hst hr (hrest hr) hh hpe).2 hgoes
    · obtain ⟨b, hb⟩ := hallSecond_activates htime hs hc hst ⟨rfl, ht0.symm, .inl hadmit⟩
      exact ⟨_, hb, rfl⟩
    · obtain ⟨hcand, hpending, hseat⟩ := (hallSecond_missed htime hs hc hst (hcloses'.1 hyes)).after_advance
      rw [hallSecond_cand, (hallSecond_spares s).2.2.2]
      refine ⟨hcand, hpending, fun hlaw x hx => ?_⟩
      rw [hallSecond_seat]
      exact hseat x hx (ownSeat_of_seatLaw hs hlaw hc hx)

end Sys2Proof.Machine
end

