-- ==== Sys2Proof/Proofs/DayEnd.lean ====
section
/-! The day end (R31, R38, R59, R81): the second that brings the clock to 86 399. -/

namespace Sys2Proof.Machine

variable {s t u v : State} {j x now : Nat} {k : Fin 8} {c d e : Candidate} {g g' : Sitting} {moved : Bool}
  {before : Vector Sitting 8}

/-! ### The day end of one sitting (R38) -/

/-- A running sitting record at its day end (R38). -/
def Sitting.halted (g : Sitting) : Sitting := { g with state := .closing, hold := ⟨false, false⟩ }

theorem dayEndSitting_idle (h : s.sittings[k].running = false) : dayEndSitting k s = s := by
  unfold dayEndSitting
  rw [if_neg (by simpa using h)]

theorem dayEndSitting_open (hr : s.sittings[k].running = true) (h : s.sittings[k].admissionOpen = true) :
    dayEndSitting k s = closingTest k (closeAdmission k (s.setSitting k s.sittings[k].halted)) := by
  unfold dayEndSitting
  rw [if_pos hr, if_pos h]
  rfl

theorem dayEndSitting_shut (hr : s.sittings[k].running = true) (h : s.sittings[k].admissionOpen = false) :
    dayEndSitting k s = closingTest k (s.setSitting k s.sittings[k].halted) := by
  unfold dayEndSitting
  rw [if_pos hr, if_neg (by simpa using h)]
  rfl

theorem admissionOpen_iff (h : g.state ∈ [SittingState.reading, .writing]) :
    g.admissionOpen = decide (g.e < g.r + g.l) := by
  simp only [List.mem_cons, List.not_mem_nil, or_false] at h
  rcases h with h | h <;> simp [Sitting.admissionOpen, h]

/-- The day end of a sitting by its phase (R38). -/
theorem dayEndSitting_cases (k : Fin 8) (s : State) :
    (s.sittings[k].state ∉ [SittingState.reading, .writing, .closing] → dayEndSitting k s = s) ∧
    (s.sittings[k].state ∈ [SittingState.reading, .writing] → s.sittings[k].e < s.sittings[k].r + s.sittings[k].l →
      dayEndSitting k s = closingTest k (closeAdmission k (s.setSitting k s.sittings[k].halted))) ∧
    ((s.sittings[k].state = .closing ∨ (s.sittings[k].state ∈ [SittingState.reading, .writing] ∧
        s.sittings[k].r + s.sittings[k].l ≤ s.sittings[k].e)) →
      dayEndSitting k s = closingTest k (s.setSitting k s.sittings[k].halted)) := by
  refine ⟨fun h => dayEndSitting_idle ((not_running_iff _).2 h), fun h hlt => ?_, fun h => ?_⟩
  · exact dayEndSitting_open (running_of_phase h).1 (by rw [admissionOpen_iff h, decide_eq_true hlt])
  · rcases h with h | ⟨h, hle⟩
    · refine dayEndSitting_shut ((running_iff _).2 (by rw [h]; decide)) ?_
      rw [Sitting.admissionOpen, h]
    · exact dayEndSitting_shut (running_of_phase h).1 (by rw [admissionOpen_iff h, decide_eq_false (by omega)])

/-- An admission that closes in a CLOSING sitting tests it for its close (R31, R59). -/
theorem closeAdmission_settled (h : s.sittings[k].state = .closing) :
    (closeAdmission k s).sittings[k].state = .closing ∨ (closeAdmission k s).Settled k := by
  by_cases hempty : s.expectedOf k = []
  · rw [closeAdmission_none hempty]
    exact .inl h
  · have hclock := takeInTurn_clock (s.expectedOf k) _ (endExpected_clock .absent) s
    rw [closeAdmission_some hempty]
    refine .inr (State.Settled.of_same (closingTest_settled (.inl ?_)) rfl rfl)
    rw [(clock_eq_iff.1 hclock).2, h]

/-- A sitting is settled by its day end, if it was not before (R31, R38). -/
theorem dayEndSitting_settled (h : s.sittings[k].running = true ∨ s.Settled k) : (dayEndSitting k s).Settled k := by
  have hset : (s.setSitting k s.sittings[k].halted).sittings[k].state = .closing := by
    rw [setSitting_self]
    rfl
  cases hr : s.sittings[k].running with
  | false =>
    rw [dayEndSitting_idle hr]
    exact h.resolve_left fun e => Bool.false_ne_true (hr.symm.trans e)
  | true =>
    cases ho : s.sittings[k].admissionOpen with
    | true =>
      rw [dayEndSitting_open hr ho]
      exact closingTest_settled (closeAdmission_settled hset)
    | false =>
      rw [dayEndSitting_shut hr ho]
      exact closingTest_settled (.inl hset)

/-- A running sitting still runs after its second, or it is settled (R30, R31). -/
theorem sittingSecond_running_or_settled (hr : s.sittings[k].running = true) :
    (sittingSecond moved k s).sittings[k].running = true ∨ (sittingSecond moved k s).Settled k := by
  have hk : (agedSitting k s).sittings[k] = s.sittings[k].accrue.reached := by
    rw [(clock_eq_iff.1 (agedSitting_clock k s)).2]
    exact setSitting_self ..
  rw [sittingSecond_running hr, moveToClosing]
  split
  · exact .inr (closingTest_settled (.inl (by rw [setSitting_self])))
  · refine .inl ?_
    rw [hk, Sitting.reached]
    split
    · rfl
    · rw [Sitting.running, accrue_state]
      exact hr

/-! ### The second that is day end (R21, R38) -/

theorem secondTaken_last (h : s.hallTime = 86398) :
    s.secondTaken = dayEnd s.sittings (sittingsSecond true (advanceClock s)) := by
  have hmoves : s.hallTime < Config.lastSecond := show s.hallTime < 86399 by omega
  rw [State.secondTaken, if_pos ((dayEnd_iff _).2 h), decide_eq_true hmoves]

theorem dayEndSittings_stores (hs : s.Stores) : (takeInTurn eight dayEndSitting s).Stores :=
  (takeInTurn_quiet eight dayEndSitting dayEndSitting_quiet s).stores hs

/-- Every sitting that was running is settled at day end. -/
theorem dayEnd_settled (hs : s.Stores) (hr : s.sittings[k].running = true) (before : Vector Sitting 8) :
    (dayEnd before (sittingsSecond true s)).Settled k := by
  obtain ⟨u, hu, hafter⟩ := sittingsSecond_apart hs true k
  have hus := (sittingSecond_quiet true k u).stores hu.stores
  have hsecond : (sittingSecond true k u).sittings[k].running = true ∨ (sittingSecond true k u).Settled k :=
    sittingSecond_running_or_settled (by rw [hu.same.2.2, hr])
  obtain ⟨v, hv, hend⟩ := dayEndSittings_apart hafter.stores k
  have huv := hafter.trans hv
  have hday : (dayEndSitting k v).Settled k :=
    dayEndSitting_settled (hsecond.imp (fun h => by rw [huv.same.2.2, h]) (huv.settled hus))
  exact records_settled _ (recordDayEnd_quiet before) (fun j u hu hus => recordDayEnd_settled hu hus before j) hend.stores
    (hend.settled ((dayEndSitting_quiet k v).stores hv.stores) hday)

/-- Every sitting that was running is without a hold source after day end (R38). -/
theorem hallSecond_hold (h : s.hallTime = 86398) (hr : s.sittings[k].running = true) :
    (hallSecond s).sittings[k].hold = ⟨false, false⟩ := by
  have hclose := (hallSecond_clock s).2 k
  have hruns : ∀ moved now hallHold, (s.sittings[k].taken moved now hallHold).running = true := by
    intro moved now hallHold
    rw [running_iff, taken_state hr]
    have := (running_iff _).1 hr
    repeat' split
    · simp
    · simp
    · exact this
  rw [Sitting.afterSecond, if_pos ((dayEnd_iff _).2 h), Sitting.stopped, if_pos (hruns ..)] at hclose
  rcases hclose with hclose | ⟨-, hclose⟩ <;> rw [hclose]
  rfl

/-! ### The records at day end (R59, R81) -/

theorem dayEndRecords_others (hs : s.Stores) (hc : s.cand j = some c) (hno : c.takesSecond before = false) :
    s.Visit (· ≠ j) (takeInTurn (s.takersOf before) (recordDayEnd before) s) :=
  takers_others hs hc hno fun hi s => recordDayEnd_visit hi before s

theorem dayEndSittings_others (hs : s.Stores) (hc : s.cand j = some c) (hst : c.state ∉ [CandState.seated, .expected]) :
    s.Visit (· ≠ j) (takeInTurn eight dayEndSitting s) :=
  sittings_others dayEndSitting_quiet (fun h => dayEndSitting_visit h) hs hc hst

/-- An ACTIVE or RESTING record of a sitting that was running finishes with CAPPED (R81). -/
theorem dayEnd_finishes (hs : s.Stores) (hc : s.cand j = some c) (hst : c.state ∈ [CandState.active, .resting])
    (hr : before[c.sitting].running = true) : ∃ used pe e,
      (dayEnd before (sittingsSecond true s)).cand j = some e ∧ ((c.aged used pe).finished .dayEnd).FinishedAs e := by
  have hwaits : c.state ∉ [CandState.seated, .expected] := fun e => by revert hst e; cases c.state <;> decide
  have hsecond := sittings_others (f := sittingSecond true) (sittingSecond_quiet true)
    (fun h => sittingSecond_visit h true) hs hc hwaits
  have hs1 := sittingsSecond_stores hs true
  have hs2 := dayEndSittings_stores hs1
  have hcand := (hsecond.trans (dayEndSittings_others hs1 (hsecond.cand_self.trans hc) hwaits)).cand_self.trans hc
  obtain ⟨u, hu, -, hafter⟩ := records_around (slotsWhere_nodup hs2 _) (mem_takersOf hs2 hcand hst hr)
    (fun hi s' => recordDayEnd_visit hi before s') (recordDayEnd_closes before) _
  obtain ⟨used, pe, e, he, hfin⟩ := recordDayEnd_finishes (before := before) (hu.cand_self.trans hcand)
  exact ⟨used, pe, e, hafter.cand_self.trans he, hfin⟩

/-- A sitting whose admission is open through its second is READING or WRITING after it (R24, R30). -/
theorem taken_admits (hst : g.state ∈ [SittingState.reading, .writing]) (hl : g.l ≤ g.w) (he : g.e < g.r + g.l)
    (hno : ¬ g.closesAdmission) (now : Nat) (hallHold : Bool) :
    (g.taken moved now hallHold).state ∈ [SittingState.reading, .writing] ∧
    (g.taken moved now hallHold).e < (g.taken moved now hallHold).r + (g.taken moved now hallHold).l := by
  have hr := (running_of_phase hst).1
  obtain ⟨htable, htotals⟩ := taken_totals moved now hallHold g
  have hrr : (g.taken moved now hallHold).r = g.r := (congrArg Sitting.r htable :)
  have hll : (g.taken moved now hallHold).l = g.l := (congrArg Sitting.l htable :)
  have hlt : g.e + (!g.held).toNat < g.r + g.l := by
    cases hheld : g.held with
    | true => simpa using he
    | false =>
      have hne : g.e + 1 ≠ g.r + g.l := fun e => hno ⟨hst, hheld, e⟩
      simp only [Bool.not_false, Bool.toNat_true]
      omega
  refine ⟨?_, by rw [(htotals hr).2, hrr, hll]; exact hlt⟩
  rw [taken_state hr, if_neg fun h => by omega]
  split
  · simp
  · exact hst

/-- A running sitting with an admission still open closes it at day end (R38, R59). -/
theorem dayEndSitting_missed (hs : s.Stores) (hc : s.cand j = some c) (hsit : c.sitting = k) (hst : c.state = .expected)
    (hr : s.sittings[k].running = true) (ho : s.sittings[k].admissionOpen = true) :
    s.Missed j c (dayEndSitting k s) := by
  have hset := setSitting_visit (I := (· ≠ j)) k s.sittings[k].halted s
  have hstores : (s.setSitting k s.sittings[k].halted).Stores := (setSitting_quiet (v := s.sittings[k].halted) rfl).stores hs
  rw [dayEndSitting_open hr ho]
  exact (hset.missed (closeAdmission_missed hstores (hset.cand_self.trans hc) hsit hst)).trans (closingTest_visit ..)

/-- An EXPECTED record of a sitting with an open admission is ABSENT once the sittings have had their day end. -/
theorem dayEndSittings_missed (hs : s.Stores) (hc : s.cand j = some c) (hst : c.state = .expected)
    (hphase : s.sittings[c.sitting].state ∈ [SittingState.reading, .writing])
    (hl : s.sittings[c.sitting].l ≤ s.sittings[c.sitting].w)
    (he : s.sittings[c.sitting].e < s.sittings[c.sitting].r + s.sittings[c.sitting].l) :
    s.Missed j c (takeInTurn eight dayEndSitting (sittingsSecond true s)) := by
  obtain ⟨u, hu, hafter⟩ := sittingsSecond_apart hs true c.sitting
  have hk := hu.same.2.2
  have hcu := (hu.cand_iff rfl).2 hc
  have hsu := (sittingSecond_quiet true c.sitting u).stores hu.stores
  by_cases hcloses : s.sittings[c.sitting].closesAdmission
  · have hmissed := sittingSecond_missed (moved := true) hu.stores hcu rfl hst (.inl (by rw [hk]; exact hcloses))
    have hcm := (hafter.cand_iff (c := c.missed) rfl).2 hmissed.cand
    exact (((hu.others hc rfl).missed hmissed).trans (hafter.others hmissed.cand rfl)).trans
      (dayEndSittings_others hafter.stores hcm (by simp [Candidate.missed]))
  · have hstarts : ¬ (u.sittings[c.sitting].starts true u.hallTime ∧
        u.sittings[c.sitting].r + u.sittings[c.sitting].l = 0) := fun h => by
      have hidle := idle_of_starting h.1.2.2
      rw [hk, (running_of_phase hphase).1] at hidle
      cases hidle
    have hawaits := sittingSecond_awaits (moved := true) hu.stores hcu hst (by rw [hk]; exact hcloses) hstarts
    have hcs := hawaits.cand_self.trans hcu
    obtain ⟨v, hv, hend⟩ := dayEndSittings_apart hafter.stores c.sitting
    have huv := hafter.trans hv
    obtain ⟨-, g', hclose, hset⟩ := sittingSecond_clock true c.sitting u
    obtain ⟨hstate, hopen⟩ := taken_admits (moved := true) hphase hl he hcloses u.hallTime u.holdFilter.filtered
    rw [hk] at hclose
    have hkv : v.sittings[c.sitting] = s.sittings[c.sitting].taken true u.hallTime u.holdFilter.filtered := by
      rw [huv.same.2.2, hset, sitting_set, if_pos rfl, hclose.eq_of_ne (running_of_phase hstate).2]
    have hmissed := dayEndSitting_missed hv.stores ((huv.cand_iff rfl).2 hcs) rfl hst
      (by rw [hkv]; exact (running_of_phase hstate).1)
      (by rw [hkv, admissionOpen_iff hstate, decide_eq_true hopen])
    exact (((hu.others hc rfl).trans (hawaits.trans (huv.others hcs rfl))).missed hmissed).trans
      (hend.others hmissed.cand rfl)

theorem dayEnd_missed (hs : s.Stores) (hc : s.cand j = some c) (hst : c.state = .expected)
    (hphase : s.sittings[c.sitting].state ∈ [SittingState.reading, .writing])
    (hl : s.sittings[c.sitting].l ≤ s.sittings[c.sitting].w)
    (he : s.sittings[c.sitting].e < s.sittings[c.sitting].r + s.sittings[c.sitting].l) (before : Vector Sitting 8) :
    s.Missed j c (dayEnd before (sittingsSecond true s)) := by
  have hmissed := dayEndSittings_missed hs hc hst hphase hl he
  exact hmissed.trans (dayEndRecords_others (dayEndSittings_stores (sittingsSecond_stores hs true)) hmissed.cand
    (takesSecond_of_state (by simp [Candidate.missed])))

/-- Settles O35. -/
theorem dayEndStopsTheWriting : Obligations.DayEndStopsTheWriting := by
  refine ⟨fun u z k g hg hz => ?_, fun s hrun hstore htime => ⟨hallSecond s, exec_hallSecond hrun, ?_, fun k hr => ?_,
    fun j c hc hst hr => ?_, fun j c g hc hst hg hphase hl he => ?_⟩⟩
  · subst hg hz
    exact dayEndSitting_cases k u
  · rw [(hallSecond_clock s).1, nextHallTime_eq, if_pos (by omega), htime]
  · have hs' := advanceClock_stores ((storeLaw_iff s).1 hstore)
    have hsettled := hallSecond_settled (s := s) (k := k) (by
      rw [secondTaken_last htime]
      exact dayEnd_settled hs' hr s.sittings)
    exact ⟨hallSecond_hold htime hr, hsettled⟩
  · have hs' := advanceClock_stores ((storeLaw_iff s).1 hstore)
    obtain ⟨used, pe, e, he, hstate, hfin⟩ := dayEnd_finishes (before := s.sittings) hs' hc hst hr
    rw [hallSecond_cand, secondTaken_last htime]
    refine ⟨e, he, hstate, ?_⟩
    rw [hfin]
    exact ⟨rfl, rfl, rfl, rfl⟩
  · subst hg
    have hs := (storeLaw_iff s).1 hstore
    have hmissed := dayEnd_missed (advanceClock_stores hs) hc hst hphase hl he s.sittings
    rw [← secondTaken_last htime] at hmissed
    obtain ⟨hcand, hpending, hseat⟩ := hmissed.after_advance
    rw [hallSecond_cand, (hallSecond_spares s).2.2.2]
    refine ⟨hcand, hpending, fun hlaw x hx => ?_⟩
    rw [hallSecond_seat]
    exact hseat x hx (ownSeat_of_seatLaw hs hlaw hc hx)

end Sys2Proof.Machine
end

