-- ==== Sys2Proof/Proofs/Allocation.lean ====
section
/-! SUPPORT. The seat map's computations (R48 to R51): neighbouring places, blocked and admissible seats, and the seat
that allocation takes. -/

namespace Sys2Proof.Machine

variable {s : State} {c : Candidate} {m : Fin 4} {k : Fin 8}

/-! ### Neighbours (R48) -/

theorem orthogonalPlaces_eq (p q : SeatPlace) : orthogonalPlaces p q =
    decide ((p.row - q.row) + (q.row - p.row) + ((p.column - q.column) + (q.column - p.column)) = 1) := by
  rw [Bool.eq_iff_iff]
  simp only [orthogonalPlaces, Bool.or_eq_true, Bool.and_eq_true, beq_iff_eq, decide_eq_true_eq]
  omega

theorem diagonalPlaces_eq (p q : SeatPlace) : diagonalPlaces p q =
    decide ((p.row - q.row) + (q.row - p.row) = 1 ∧ (p.column - q.column) + (q.column - p.column) = 1) := by
  rw [Bool.eq_iff_iff]
  simp only [diagonalPlaces, Bool.or_eq_true, Bool.and_eq_true, beq_iff_eq, decide_eq_true_eq]
  omega

theorem neighbourPlaces_eq (mode : Separation) (p q : SeatPlace) {dr dc : Nat}
    (hr : dr = (p.row - q.row) + (q.row - p.row)) (hc : dc = (p.column - q.column) + (q.column - p.column)) :
    neighbourPlaces mode p q =
      (p.room == q.room && decide (dr + dc = 1 ∨ (mode = .full ∧ dr = 1 ∧ dc = 1))) := by
  subst hr hc
  cases mode with
  | orthogonal => simp [neighbourPlaces, orthogonalPlaces_eq]
  | full => simp [neighbourPlaces, orthogonalPlaces_eq, diagonalPlaces_eq]

theorem neighbourPlaces_comm (mode : Separation) (p q : SeatPlace) :
    neighbourPlaces mode p q = neighbourPlaces mode q p := by
  rw [neighbourPlaces_eq mode p q rfl rfl, neighbourPlaces_eq mode q p rfl rfl, Bool.beq_comm, Nat.add_comm (p.row - _),
    Nat.add_comm (p.column - _)]

/-! ### Blocked and admissible seats (R48, R50) -/

theorem inUse_iff (v : Seat) : v.inUse = true ↔ v.state ∈ [SeatState.held, .occupied, .vacated] := by
  cases hst : v.state <;> simp [Seat.inUse, hst]

theorem inSitting_iff {j : Nat} : s.inSitting k j = true ↔ ∃ d, s.cand j = some d ∧ d.sitting = k := by
  unfold State.inSitting
  cases s.cand j <;> simp

theorem blocks_iff {p : SeatPlace} {v : Seat} : s.blocks p k v = true ↔ ∃ q j d,
    v.state ∈ [SeatState.held, .occupied, .vacated] ∧ v.candidate = some j ∧ s.cand j = some d ∧ d.sitting = k ∧
      v.place = some q ∧ neighbourPlaces s.rooms[p.room].separation p q = true := by
  rw [State.blocks, State.seatsSitting, Bool.and_eq_true, Bool.and_eq_true, inUse_iff]
  cases hcand : v.candidate with
  | none => simp
  | some j =>
    cases hplace : v.place with
    | none => simp
    | some q =>
      simp only [inSitting_iff, Option.some.injEq]
      exact ⟨fun ⟨⟨hu, d, hd, hk⟩, hn⟩ => ⟨q, j, d, hu, rfl, hd, hk, rfl, hn⟩,
        fun ⟨_, _, d, hu, hj, hd, hk, hq, hn⟩ => by subst hj hq; exact ⟨⟨hu, d, hd, hk⟩, hn⟩⟩

theorem blocked_iff (s : State) (exempt : Option Nat) (p : SeatPlace) (k : Fin 8) :
    s.blocked exempt p k = true ↔ ∃ y q j d, y ∈ s.seats ∧ exempt ≠ some y.1 ∧
      y.2.state ∈ [SeatState.held, .occupied, .vacated] ∧ y.2.candidate = some j ∧ s.cand j = some d ∧ d.sitting = k ∧
      y.2.place = some q ∧ neighbourPlaces s.rooms[p.room].separation p q = true := by
  simp only [State.blocked, List.any_eq_true, Bool.and_eq_true, bne_iff_ne, blocks_iff]
  exact ⟨fun ⟨y, hy, hne, q, j, d, hrest⟩ => ⟨y, q, j, d, hy, hne.symm, hrest⟩,
    fun ⟨y, q, j, d, hy, hne, hrest⟩ => ⟨y, hy, hne.symm, q, j, d, hrest⟩⟩

theorem includesAll_iff (has need : FeatureSet) :
    includesAll has need = true ↔ ∀ b, b < 6 → need.getLsbD b = true → has.getLsbD b = true := by
  rw [includesAll, beq_iff_eq]
  constructor
  · intro h b hb hn
    have hbit := congrArg (fun f : FeatureSet => f.getLsbD b) h
    simpa [hn, hb] using hbit
  · intro h
    refine BitVec.eq_of_getLsbD_eq fun b hb => ?_
    have hbit := h b hb
    cases hn : need.getLsbD b <;> simp_all

theorem admissible_eq {v : Seat} {p : SeatPlace} (hp : v.place = some p) : s.admissible c v =
    (s.rooms[p.room].enabled && v.state == .free && v.deskStatus != .lost &&
      includesAll p.features c.required && !s.blocked none p c.sitting) := by
  rw [State.admissible, hp]

theorem admissible_iff {v : Seat} {p : SeatPlace} (hp : v.place = some p) :
    s.admissible c v = true ↔ s.rooms[p.room].enabled = true ∧ v.state = .free ∧ v.deskStatus ≠ .lost ∧
      (∀ b, b < 6 → c.required.getLsbD b = true → p.features.getLsbD b = true) ∧
      ∀ y q j d, y ∈ s.seats → y.2.state ∈ [SeatState.held, .occupied, .vacated] → y.2.candidate = some j →
        s.cand j = some d → d.sitting = c.sitting → y.2.place = some q →
        neighbourPlaces s.rooms[p.room].separation p q = false := by
  have hfree : s.blocked none p c.sitting = false ↔
      ∀ y q j d, y ∈ s.seats → y.2.state ∈ [SeatState.held, .occupied, .vacated] → y.2.candidate = some j →
        s.cand j = some d → d.sitting = c.sitting → y.2.place = some q →
        neighbourPlaces s.rooms[p.room].separation p q = false := by
    rw [← Bool.not_eq_true, blocked_iff]
    constructor
    · intro h y q j d hy hu hj hd hk hq
      exact Bool.not_eq_true _ ▸ fun hn => h ⟨y, q, j, d, hy, by simp, hu, hj, hd, hk, hq, hn⟩
    · rintro h ⟨y, q, j, d, hy, -, hu, hj, hd, hk, hq, hn⟩
      rw [h y q j d hy hu hj hd hk hq] at hn
      cases hn
  rw [admissible_eq hp, ← hfree, ← includesAll_iff]
  simp only [Bool.and_eq_true, beq_iff_eq, bne_iff_ne, Bool.not_eq_true', and_assoc]

/-! ### Allocation (R51) -/

theorem mem_candidatesIn {x : Nat × Nat} : x ∈ s.candidatesIn m c ↔ ∃ v p, (x.2, v) ∈ s.seats ∧ v.place = some p ∧
    p.room = m ∧ s.admissible c v = true ∧ x.1 = seatRank s.rooms[m].fill c p := by
  rw [State.candidatesIn, List.mem_filterMap]
  constructor
  · rintro ⟨⟨i, v⟩, hy, hx⟩
    split at hx
    · next p hp =>
      split at hx
      · next h => cases hx; exact ⟨v, p, hy, hp, h.1, h.2, rfl⟩
      · cases hx
    · cases hx
  · rintro ⟨v, p, hy, hp, hm, ha, hx⟩
    refine ⟨(x.2, v), hy, ?_⟩
    simp only [hp, hm, ha, and_self, if_true]
    rw [← hx]

theorem candidatesIn_eq_nil : s.candidatesIn m c = [] ↔
    ∀ y p, y ∈ s.seats → y.2.place = some p → p.room = m → s.admissible c y.2 = false := by
  rw [List.eq_nil_iff_forall_not_mem]
  constructor
  · intro h y p hy hp hm
    exact Bool.not_eq_true _ ▸ fun ha => h (seatRank s.rooms[m].fill c p, y.1)
      (mem_candidatesIn.2 ⟨y.2, p, hy, hp, hm, ha, rfl⟩)
  · rintro h x hx
    obtain ⟨v, p, hy, hp, hm, ha, -⟩ := mem_candidatesIn.1 hx
    rw [h _ p hy hp hm] at ha
    cases ha

theorem leastRank_eq_none {l : List (Nat × Nat)} : leastRank l = none ↔ l = [] := by
  cases l with
  | nil => simp [leastRank]
  | cons x rest =>
    simp only [leastRank]
    split
    · simp
    · split <;> simp

theorem leastRank_least : ∀ {l : List (Nat × Nat)} {x : Nat × Nat}, leastRank l = some x → ∀ y ∈ l, x.1 ≤ y.1
  | [], _, h => by simp [leastRank] at h
  | z :: rest, x, h => by
    intro y hy
    simp only [leastRank] at h
    split at h
    · next hnone =>
      obtain rfl := leastRank_eq_none.1 hnone
      cases h
      rw [List.mem_singleton.1 hy]
    · next w hw =>
      have hrest := leastRank_least hw
      split at h
      · next hlt =>
        cases h
        rcases List.mem_cons.1 hy with rfl | hy
        · exact hlt.le
        · exact hrest y hy
      · next hle =>
        cases h
        rcases List.mem_cons.1 hy with rfl | hy
        · exact le_rfl
        · exact (not_lt.1 hle).trans (hrest y hy)

theorem allocate_eq_none {rooms : List (Fin 4)} :
    s.allocate c rooms = none ↔ ∀ m ∈ rooms, s.candidatesIn m c = [] := by
  induction rooms with
  | nil => simp [State.allocate]
  | cons m rest ih =>
    rw [State.allocate, List.forall_mem_cons, ← leastRank_eq_none]
    cases leastRank (s.candidatesIn m c) with
    | none => simpa using ih
    | some x => simp

theorem allocate_eq_some {i : Nat} : ∀ {rooms : List (Fin 4)}, s.allocate c rooms = some i →
    ∃ before m after x, rooms = before ++ m :: after ∧ (∀ m' ∈ before, s.candidatesIn m' c = []) ∧
      leastRank (s.candidatesIn m c) = some x ∧ x.2 = i
  | [], h => by simp [State.allocate] at h
  | m :: rest, h => by
    rw [State.allocate] at h
    split at h
    · next x hx => exact ⟨[], m, rest, x, rfl, by simp, hx, Option.some.inj h⟩
    · next hnone =>
      obtain ⟨before, m', after, x, hrooms, hbefore, hx, hi⟩ := allocate_eq_some h
      exact ⟨m :: before, m', after, x, by rw [hrooms, List.cons_append],
        List.forall_mem_cons.2 ⟨leastRank_eq_none.1 hnone, hbefore⟩, hx, hi⟩

theorem allocate_takes_least {rooms : List (Fin 4)} {i : Nat} (h : s.allocate c rooms = some i) :
    ∃ before m after v p, rooms = before ++ m :: after ∧ (∀ m' ∈ before, s.candidatesIn m' c = []) ∧
      (i, v) ∈ s.seats ∧ v.place = some p ∧ p.room = m ∧ s.admissible c v = true ∧
      ∀ y q, y ∈ s.seats → y.2.place = some q → q.room = m → s.admissible c y.2 = true →
        seatRank s.rooms[m].fill c p ≤ seatRank s.rooms[m].fill c q := by
  obtain ⟨before, m, after, x, hrooms, hbefore, hx, rfl⟩ := allocate_eq_some h
  obtain ⟨v, p, hv, hp, hm, ha, hrank⟩ := mem_candidatesIn.1 (mem_of_leastRank hx)
  refine ⟨before, m, after, v, p, hrooms, hbefore, hv, hp, hm, ha, fun y q hy hq hqm hay => ?_⟩
  rw [← hrank]
  exact leastRank_least hx (_, y.1) (mem_candidatesIn.2 ⟨y.2, q, hy, hq, hqm, hay, rfl⟩)

/-! ### Surplus and fill order (R49, R50) -/

theorem featureCount_eq (f : FeatureSet) :
    featureCount f = (([0, 1, 2, 3, 4, 5] : List Nat).filter f.getLsbD).length := by
  have hbit : ∀ b : Bool, b.toNat = if b = true then 1 else 0 := by decide
  have hget : ∀ b : Fin 6, f.getLsb b = f.getLsbD b := fun _ => rfl
  simp only [featureCount, hget, ← List.countP_eq_length_filter, List.countP_cons, List.countP_nil,
    hbit, Nat.add_eq]
  simp only [Fin.isValue, Fin.coe_ofNat_eq_mod, Nat.reduceMod]
  omega

theorem surplus_eq (p : SeatPlace) (c : Candidate) : surplus p c = (([0, 1, 2, 3, 4, 5] : List Nat).filter (fun b =>
    p.features.getLsbD b && !c.required.getLsbD b)).length := by
  rw [surplus, featureCount_eq]
  congr 1
  refine List.filter_congr fun b hb => ?_
  have hlt : b < 6 := by simp only [List.mem_cons, List.not_mem_nil, or_false] at hb; omega
  simp [hlt]

theorem surplus_le (p : SeatPlace) (c : Candidate) : surplus p c ≤ 6 := by
  rw [surplus_eq]
  exact List.length_filter_le _ _

theorem fillRank_lt (fill : FillPattern) {p : SeatPlace} (hr : p.row ≤ 31) (hc : p.column ≤ 31) :
    fillRank fill p < 1024 := by
  cases fill with
  | rowMajor => simp only [fillRank]; omega
  | serpentine => simp only [fillRank]; split <;> omega
  | columnMajor => simp only [fillRank]; omega

theorem fillRank_lt_iff (fill : FillPattern) {p q : SeatPlace} (hpr : p.row ≤ 31) (hpc : p.column ≤ 31)
    (hqr : q.row ≤ 31) (hqc : q.column ≤ 31) : fillRank fill p < fillRank fill q ↔
      (fill = .rowMajor ∧ (p.row < q.row ∨ (p.row = q.row ∧ p.column < q.column))) ∨
      (fill = .serpentine ∧ (p.row < q.row ∨ (p.row = q.row ∧
        (if p.row % 2 = 0 then p.column < q.column else q.column < p.column)))) ∨
      (fill = .columnMajor ∧ (p.column < q.column ∨ (p.column = q.column ∧ p.row < q.row))) := by
  cases fill with
  | rowMajor => simp [fillRank]; omega
  | columnMajor => simp [fillRank]; omega
  | serpentine =>
    simp only [fillRank, reduceCtorEq, false_and, true_and, false_or, or_false]
    by_cases heq : p.row = q.row
    · rw [heq]
      split <;> omega
    · split <;> split <;> omega

/-- Settles O39. -/
theorem allocationTakesTheFirstRoom : Obligations.AllocationTakesTheFirstRoom :=
  ⟨fun mode p q _ _ hr hc => neighbourPlaces_eq mode p q hr hc, fun _ _ _ _ hp => admissible_iff hp, blocked_iff,
    includesAll_iff, fun _ _ _ => candidatesIn_eq_nil,
    fun _ _ _ => ⟨allocate_eq_none, fun _ => allocate_takes_least, fun m y hy ha hm hnil => by
      cases hp : y.2.place with
      | none => rw [State.admissible, hp] at ha; cases ha
      | some p =>
        have hroom : p.room = m := by simpa [Seat.inRoom, hp] using hm
        rw [candidatesIn_eq_nil.1 hnil y p hy hp hroom] at ha
        cases ha⟩,
    fun p c => ⟨surplus_eq p c, surplus_le p c⟩,
    fun fill _ _ hpr hpc hqr hqc => ⟨fillRank_lt fill hpr hpc, fillRank_lt_iff fill hpr hpc hqr hqc⟩⟩

end Sys2Proof.Machine
end

