-- ==== Sys2Proof/Proofs/SeatRequests.lean ====
section
/-! SUPPORT. DEFINE_SEAT and SEAT_STATE (R45, R46). -/

namespace Sys2Proof.Machine

variable {s : State} {x m row column st : Nat} {p : SeatPlace} {desk : Option Nat} {f : Byte}

/-! ### The seats of the store -/

/-- A seat stands in the store exactly where it differs from the record of power-up (R63). -/
theorem mem_seats_iff (hs : s.Stores) {v : Seat} : (x, v) ∈ s.seats ↔ s.seat x = v ∧ v ≠ Seat.undefinedRecord := by
  rw [← tableFind_iff_mem hs.seats.1, State.seat]
  constructor
  · intro h
    refine ⟨by rw [h, Option.getD_some], (hs.seats.2 (x, v) (mem_of_tableFind _ _ _ h)).2⟩
  · rintro ⟨rfl, hne⟩
    cases h : tableFind s.seats x with
    | none => simp [h] at hne
    | some v => rfl

theorem seat_of_mem (hs : s.Stores) {y : Nat × Seat} (h : y ∈ s.seats) : s.seat y.1 = y.2 := ((mem_seats_iff hs).1 h).1

theorem mem_seats_of_state (hs : s.Stores) (h : (s.seat x).state ≠ .outOfUse) : (x, s.seat x) ∈ s.seats :=
  (mem_seats_iff hs).2 ⟨rfl, ne_undefined_of_state h⟩

/-! ### The checks (R45) -/

theorem positionTaken_iff (hs : s.Stores) : s.positionTaken x p = true ↔
    ∃ y q, y ≠ x ∧ (s.seat y).state ≠ .outOfUse ∧ (s.seat y).place = some q ∧ q.room = p.room ∧ q.row = p.row ∧
      q.column = p.column := by
  simp only [State.positionTaken, List.any_eq_true, Bool.and_eq_true, bne_iff_ne]
  constructor
  · rintro ⟨y, hy, ⟨hne, hst⟩, hq⟩
    rw [← seat_of_mem hs hy] at hst hq
    split at hq
    · next q hplace => exact ⟨y.1, q, hne, hst, hplace, by simpa [and_assoc] using hq⟩
    · cases hq
  · rintro ⟨y, q, hne, hst, hplace, hq⟩
    exact ⟨(y, s.seat y), mem_seats_of_state hs hst, ⟨hne, hst⟩, by simpa [hplace, and_assoc] using hq⟩

theorem addressTaken_iff (hs : s.Stores) : s.addressTaken x p = true ↔
    ∃ y q a, p.desk = some a ∧ y ≠ x ∧ (s.seat y).state ≠ .outOfUse ∧ (s.seat y).place = some q ∧ q.room = p.room ∧
      q.desk = some a := by
  simp only [State.addressTaken, List.any_eq_true, Bool.and_eq_true, bne_iff_ne, Option.isSome_iff_exists]
  constructor
  · rintro ⟨⟨a, ha⟩, y, hy, ⟨hne, hst⟩, hq⟩
    rw [← seat_of_mem hs hy] at hst hq
    split at hq
    · next q hplace => exact ⟨y.1, q, a, ha, hne, hst, hplace, by simpa [ha] using hq⟩
    · cases hq
  · rintro ⟨y, q, a, ha, hne, hst, hplace, hq⟩
    exact ⟨⟨a, ha⟩, (y, s.seat y), mem_seats_of_state hs hst, ⟨hne, hst⟩, by simpa [hplace, ha] using hq⟩

theorem positionTaken_eq_false (hs : s.Stores) (h : ∀ y q, y ≠ x → (s.seat y).state ≠ .outOfUse →
    (s.seat y).place = some q → q.room = p.room → ¬ (q.row = p.row ∧ q.column = p.column)) :
    s.positionTaken x p = false := by
  rw [← Bool.not_eq_true, positionTaken_iff hs]
  rintro ⟨y, q, hne, hst, hplace, hroom, hat⟩
  exact h y q hne hst hplace hroom hat

theorem addressTaken_eq_false (hs : s.Stores) (h : ∀ y q a, p.desk = some a → y ≠ x → (s.seat y).state ≠ .outOfUse →
    (s.seat y).place = some q → q.room = p.room → q.desk ≠ some a) : s.addressTaken x p = false := by
  rw [← Bool.not_eq_true, addressTaken_iff hs]
  rintro ⟨y, q, a, ha, hne, hst, hplace, hroom, hdesk⟩
  exact h y q a ha hne hst hplace hroom hdesk

theorem deskInRange_iff : deskInRange desk = true ↔ ∀ a, desk = some a → 1 ≤ a ∧ a ≤ 128 := by
  cases desk <;> simp [deskInRange]

theorem freshSeat_eq (p : SeatPlace) : freshSeat p =
    { place := some p, state := .free, candidate := none, handRaised := false,
      deskStatus := if p.desk = none then .unbound else .unknown, missCount := 0, stale := false } := by
  cases h : p.desk <;> simp [freshSeat, h]

/-! ### DEFINE_SEAT (R45) -/

theorem defineSeat_range
    (h : 512 ≤ x ∨ 4 ≤ m ∨ 31 < row ∨ 31 < column ∨ desk = some 0 ∨ (∃ a, desk = some a ∧ 128 < a)) :
    defineSeat x m row column desk f s = refuse .range s := by
  by_cases hm : 4 ≤ m
  · rw [defineSeat, roomOf_of_ge hm]
  · obtain ⟨m, rfl⟩ : ∃ m' : Fin 4, m'.val = m := ⟨⟨m, by omega⟩, rfl⟩
    simp only [defineSeat, roomOf_val]
    refine if_pos ?_
    rcases h with hx | h | hr | hc | rfl | ⟨a, rfl, ha⟩
    · exact .inl hx
    · exact absurd h hm
    · exact .inr (.inl hr)
    · exact .inr (.inr (.inl hc))
    · simp [deskInRange]
    · simp [deskInRange, Nat.not_le.2 ha]

/-- DEFINE_SEAT with operands in range, by its checks in order (R45). -/
theorem defineSeat_eq (hx : x < 512) (hr : p.row ≤ 31) (hc : p.column ≤ 31)
    (hd : ∀ a, p.desk = some a → 1 ≤ a ∧ a ≤ 128) (hf : p.features = f.setWidth 6) :
    defineSeat x p.room p.row p.column p.desk f s =
      if (s.seat x).state ≠ .outOfUse then refuse .state s
      else if s.positionTaken x p then refuse .positionTaken s
      else if s.addressTaken x p then refuse .addressTaken s
      else okOrClamped (extraFeatures f) [] (s.setSeat x (freshSeat p)) := by
  have hp : (⟨p.room, p.row, p.column, p.desk, featuresOf f⟩ : SeatPlace) = p := by rw [featuresOf, ← hf]
  simp only [defineSeat, roomOf_val, hp, deskInRange_iff.2 hd]
  exact if_neg (by simp [Config.seatRecords, hx, hr, hc])

/-! ### SEAT_STATE (R46) -/

theorem setSeatState_free (hx : x < 512) : setSeatState x 1 s =
    if (s.seat x).state = .outOfUse then s.bringBack x
    else if (s.seat x).state = .free then okWith [] s else refuse .state s := by
  cases hst : (s.seat x).state <;>
    simp [setSeatState, Config.seatRecords, SeatState.code, Nat.not_le.2 hx, hst]

theorem setSeatState_outOfUse (hx : x < 512) : setSeatState x 0 s =
    if (s.seat x).state = .outOfUse then okWith [] s
    else if (s.seat x).state = .free then okWith [] (s.setSeat x (s.seat x).outOfUse) else refuse .state s := by
  cases hst : (s.seat x).state <;>
    simp [setSeatState, Config.seatRecords, SeatState.code, Nat.not_le.2 hx, hst]

theorem setSeatState_range (hst : 2 ≤ st) : setSeatState x st s = refuse .range s := by
  have hfree : st ≠ SeatState.free.code := by simp only [SeatState.code]; omega
  have hout : st ≠ SeatState.outOfUse.code := by simp only [SeatState.code]; omega
  rw [setSeatState, if_neg hfree, if_neg hout, ite_self]

theorem setSeatState_inUse (hx : x < 512) (hu : (s.seat x).state ∈ [SeatState.held, .occupied, .vacated])
    (hst : st ≤ 1) : setSeatState x st s = refuse .state s := by
  have hout : (s.seat x).state ≠ .outOfUse := fun e => by simp [e] at hu
  have hfree : (s.seat x).state ≠ .free := fun e => by simp [e] at hu
  obtain rfl | rfl : st = 0 ∨ st = 1 := by omega
  · rw [setSeatState_outOfUse hx, if_neg hout, if_neg hfree]
  · rw [setSeatState_free hx, if_neg hout, if_neg hfree]

/-- Bringing a defined seat back, by its checks in order (R46). -/
theorem bringBack_eq (hp : (s.seat x).place = some p) : s.bringBack x =
    if s.positionTaken x p then refuse .positionTaken s
    else if s.addressTaken x p then refuse .addressTaken s
    else okWith [] (s.setSeat x (freshSeat p)) := by
  rw [State.bringBack, hp]

/-- Settles O37. -/
theorem seatsAreDefinedAndTakenOut : Obligations.SeatsAreDefinedAndTakenOut := by
  refine ⟨fun s x m row column desk f h hrange => exec_refused rfl h (defineSeat_range hrange),
    fun s x h hx hout hplace => ⟨exec_refused rfl h ?_, exec_ok rfl h ?_⟩,
    fun s x p f fresh h hlaw hx hr hc hd hfresh => ?_⟩
  · rw [setSeatState_free hx, if_pos hout, State.bringBack, hplace]
  · rw [setSeatState_outOfUse hx, if_pos hout]
  have hs := (storeLaw_iff s).1 hlaw
  rw [← freshSeat_eq] at hfresh
  subst hfresh
  refine ⟨fun hf i hi => ?_, fun hplace => ⟨fun hu st hst => exec_refused rfl h (setSeatState_inUse hx hu hst),
    fun hfree => ⟨exec_ok rfl h ?_, exec_ok rfl h ?_⟩, fun hout => ⟨exec_ok rfl h ?_, fun hpos => exec_refused rfl h ?_,
      fun hpos haddr => exec_refused rfl h ?_, fun hno => exec_ok rfl h ?_⟩⟩,
    fun st hst => exec_refused rfl h (setSeatState_range hst)⟩
  · subst hi
    have hop := defineSeat_eq (s := s) hx hr hc hd hf
    refine ⟨fun hst => exec_refused rfl h ?_, fun hout hpos => exec_refused rfl h ?_, fun hout hpos =>
      ⟨fun haddr => exec_refused rfl h ?_, fun haddr => exec_okOrClamped rfl h (b := extraFeatures f) ?_ (by
        simp [extraFeatures])⟩⟩
    · rw [hop, if_pos hst]
    · rw [hop, if_neg (not_not.2 hout), if_pos ((positionTaken_iff hs).2 hpos)]
    · rw [hop, if_neg (not_not.2 hout), positionTaken_eq_false hs hpos, if_neg Bool.false_ne_true,
        if_pos ((addressTaken_iff hs).2 haddr)]
    · rw [hop, if_neg (not_not.2 hout), positionTaken_eq_false hs hpos, addressTaken_eq_false hs haddr]
      rfl
  · rw [setSeatState_free hx, if_neg (by simp [hfree]), if_pos hfree]
  · rw [setSeatState_outOfUse hx, if_neg (by simp [hfree]), if_pos hfree]
    rfl
  · rw [setSeatState_outOfUse hx, if_pos hout]
  · rw [setSeatState_free hx, if_pos hout, bringBack_eq hplace, if_pos ((positionTaken_iff hs).2 hpos)]
  · rw [setSeatState_free hx, if_pos hout, bringBack_eq hplace, positionTaken_eq_false hs hpos,
      if_neg Bool.false_ne_true, if_pos ((addressTaken_iff hs).2 haddr)]
  · have hpos := positionTaken_eq_false hs fun y q hne hst hq hroom => (hno y q hne hst hq hroom).1
    have haddr := addressTaken_eq_false hs fun y q a ha hne hst hq hroom =>
      ha ▸ (hno y q hne hst hq hroom).2 (by simp [ha])
    rw [setSeatState_free hx, if_pos hout, bringBack_eq hplace, hpos, haddr, if_neg Bool.false_ne_true,
      if_neg Bool.false_ne_true]

end Sys2Proof.Machine
end

