-- ==== Sys2Proof/Proofs/RoomSettings.lean ====
section
/-! SUPPORT. SET_ROOM, and the segment's part in it (R47, R84, R87). -/

namespace Sys2Proof.Machine

variable {s : State} {m : Fin 4} {on : Bool} {sep : Separation} {fill : FillPattern}

theorem separationOf_code (sep : Separation) : separationOf sep.code = some sep := by cases sep <;> rfl

theorem fillOf_code (fill : FillPattern) : fillOf fill.code = some fill := by cases fill <;> rfl

theorem separationOf_of_ge {a : Nat} (h : 2 ≤ a) : separationOf a = none := by
  match a, h with
  | _ + 2, _ => rfl

theorem fillOf_of_ge {b : Nat} (h : 3 ≤ b) : fillOf b = none := by
  match b, h with
  | _ + 3, _ => rfl

theorem inRoom_iff {v : Seat} : v.inRoom m = true ↔ ∃ p, v.place = some p ∧ p.room = m := by
  cases h : v.place <;> simp [Seat.inRoom, h]

theorem roomInUse_iff (s : State) (m : Fin 4) : s.roomInUse m = true ↔ ∃ y p, y ∈ s.seats ∧ y.2.place = some p ∧
    p.room = m ∧ y.2.state ∈ [SeatState.held, .occupied, .vacated] := by
  simp only [State.roomInUse, List.any_eq_true, Bool.and_eq_true, inRoom_iff, inUse_iff]
  exact ⟨fun ⟨y, hy, ⟨p, hp, hm⟩, hu⟩ => ⟨y, p, hy, hp, hm, hu⟩, fun ⟨y, p, hy, hp, hm, hu⟩ => ⟨y, hy, ⟨p, hp, hm⟩, hu⟩⟩

theorem setRoomSettings_range {m a b : Nat} (h : 4 ≤ m ∨ 2 ≤ a ∨ 3 ≤ b) :
    setRoomSettings m on a b s = refuse .range s := by
  unfold setRoomSettings
  split
  · next hm ha hb =>
    rcases h with h | h | h
    · rw [roomOf_of_ge h] at hm; cases hm
    · rw [separationOf_of_ge h] at ha; cases ha
    · rw [fillOf_of_ge h] at hb; cases hb
  · rfl

/-- SET_ROOM with a room, a separation mode and a fill pattern (R47). -/
theorem setRoomSettings_eq : setRoomSettings m on sep.code fill.code s =
    if (s.rooms[m].separation ≠ sep ∨ (s.rooms[m].enabled ∧ !on)) ∧ s.roomInUse m then refuse .state s
    else okWith [] (followEnabled m s.rooms[m].enabled on
      (s.setRoom m { s.rooms[m] with enabled := on, separation := sep, fill := fill })) := by
  simp only [setRoomSettings, roomOf_val, separationOf_code, fillOf_code]

/-- A segment that is enabled starts with a TIME (R84, R87). -/
theorem startSegment_eq (m : Fin 4) (s : State) : startSegment m s = { s with
    seats := s.seats.map (fun y => (y.1, y.2.contactLost m)),
    segments := s.segments.set m
      { line := .master, timeDue := false, rotation := 128, queue := [], postStatus := .unknown, postMiss := 0,
        sending := some (.time s.hallTime s.heldSet), pollVoided := false,
        doorWire := s.segments[m].doorWire, doorSampled := s.segments[m].doorWire } } := by
  simp [startSegment, kickSegment, State.setSegment, unknownDesks, State.chosen, Segment.initial]
  rfl

/-- Settles O38. -/
theorem setRoomSetsTheRoom : Obligations.SetRoomSetsTheRoom := by
  refine ⟨fun s m on a b h hrange => exec_refused rfl h (setRoomSettings_range hrange),
    fun s m on sep fill i room h hi hroom => ?_⟩
  subst hi hroom
  refine ⟨fun hchange hused => exec_refused rfl h ?_, fun hallowed => ?_⟩
  · rw [setRoomSettings_eq, if_pos ⟨hchange.imp Ne.symm fun ⟨he, ho⟩ => ⟨he, by rw [ho]; rfl⟩,
      (roomInUse_iff s m).2 hused⟩]
  · have hop : setRoomSettings m on sep.code fill.code s = okWith [] (followEnabled m s.rooms[m].enabled on
        (s.setRoom m { s.rooms[m] with enabled := on, separation := sep, fill := fill })) := by
      rw [setRoomSettings_eq]
      refine if_neg ?_
      rintro ⟨hchange, hused⟩
      obtain ⟨y, p, hy, hp, hm, hu⟩ := (roomInUse_iff s m).1 hused
      rcases hallowed with ⟨hsep, hon⟩ | hfree
      · rcases hchange with hne | ⟨he, ho⟩
        · exact hne hsep.symm
        · rw [hon he] at ho; cases ho
      · exact hfree y p hy hp hm hu
    refine ⟨fun hsame => exec_ok rfl h ?_, fun hwas hnow => exec_ok rfl h ?_, fun hwas hnow => exec_ok rfl h ?_⟩
    · rw [hop, hsame]
      cases on <;> rfl
    · subst hnow
      rw [hop, hwas, followEnabled, startSegment_eq]
      rfl
    · subst hnow
      rw [hop, hwas]
      rfl

end Sys2Proof.Machine
end

