-- ==== Sys2Proof/Proofs/Admission.lean ====
section
/-! SUPPORT. A candidate takes a seat by an admission (R54, R56, R71), and ADMIT_FOR (R53). -/

namespace Sys2Proof.Machine

variable {s t u : State} {c d : Candidate} {g : Sitting} {p : SeatPlace} {v : Seat} {door : Option (Fin 4)}
  {n k j x i : Nat} {w : ShowContent} {m : Fin 4}

/-! ### Messages for the post (R89) -/

theorem offerPost_told (m : Fin 4) (w : ShowContent) (s : State) (x : Nat) : s.Told (offerPost m w s) x := by
  unfold offerPost
  cases s.segments[m].line with
  | disabled => exact .refl s x
  | master | awaiting b =>
    cases s.segments[m].postStatus with
    | unknown | lost => exact .refl s x
    | present => exact setQueue_told ..

theorem segments_setCand (s : State) (j : Nat) (d : Candidate) : (s.setCand j d).segments = s.segments := rfl

/-- The post is told the same whatever a candidate record is. -/
theorem offerPost_setCand (m : Fin 4) (w : ShowContent) (s : State) (j : Nat) (d : Candidate) :
    offerPost m w (s.setCand j d) = (offerPost m w s).setCand j d := by
  unfold offerPost
  rw [segments_setCand]
  cases s.segments[m].line with
  | disabled => rfl
  | master | awaiting b => cases s.segments[m].postStatus <;> rfl

/-! ### A seat that takes a candidate (R43) -/

/-- A seat record with a state and a candidate. -/
def Seat.takenAs (st : SeatState) (j : Nat) (v : Seat) : Seat := { v with state := st, candidate := some j }

theorem takenAs_ne_undefined (st : SeatState) (j : Nat) (v : Seat) : v.takenAs st j ≠ Seat.undefinedRecord := fun e => by
  have hcand := congrArg Seat.candidate e
  simp [Seat.takenAs, Seat.undefinedRecord] at hcand

theorem takeSeat_givenUp (x j : Nat) (st : SeatState) (s : State) :
    s.GivenUp (takeSeat x st j s) x ((s.seat x).takenAs st j) :=
  (State.Told.refl s x).setSeat (takenAs_ne_undefined st j _) rfl

theorem State.GivenUp.place (h : s.GivenUp t x v) : (t.seat x).place = v.place :=
  (congrArg Seat.place h.seat :)

theorem State.GivenUp.roll (h : s.GivenUp t x v) : t.roll = s.roll := by rw [h.frame]

theorem showSeat_eq (hp : (s.seat x).place = some p) :
    showSeat x c s = offerDesk x (.seat p.room p.row p.column c.number c.sitting) s := by
  rw [showSeat, hp]
  rfl

/-- A seat taken by a record, as the post of a door and then the seat's desk are told of it (R56). -/
def State.takenAt (s : State) (door : Option (Fin 4)) (x j : Nat) (st : SeatState) (w : ShowContent) : State :=
  offerDesk x w (match door with
    | some m => offerPost m w (takeSeat x st j s)
    | none => takeSeat x st j s)

theorem takenAt_givenUp (s : State) (door : Option (Fin 4)) (x j : Nat) (st : SeatState) (w : ShowContent) :
    s.GivenUp (s.takenAt door x j st w) x ((s.seat x).takenAs st j) := by
  refine State.GivenUp.told ?_ (offerDesk_told ..)
  cases door with
  | none => exact takeSeat_givenUp ..
  | some m => exact (takeSeat_givenUp ..).told (offerPost_told ..)

/-- The displays of a seat that has been taken, with the record that took it already written. -/
theorem show_takenSeat (st : SeatState) (d : Candidate) (hp : (s.seat x).place = some p) (hn : d.number = c.number)
    (hk : d.sitting = c.sitting) : showSeat x d (announce door x d ((takeSeat x st j s).setCand j d)) =
      (s.takenAt door x j st (.seat p.room p.row p.column c.number c.sitting)).setCand j d := by
  have htaken := takeSeat_givenUp x j st s
  unfold State.takenAt
  rw [← hn, ← hk, ← offerDesk_setCand]
  cases door with
  | none => exact showSeat_eq (htaken.place.trans hp)
  | some m =>
    have hpost : announce (some m) x d ((takeSeat x st j s).setCand j d) =
        (offerPost m (.seat p.room p.row p.column d.number d.sitting) (takeSeat x st j s)).setCand j d := by
      rw [← offerPost_setCand]
      unfold announce postSeat
      dsimp only
      rw [show ((takeSeat x st j s).setCand j d).seat x = (takeSeat x st j s).seat x from rfl, htaken.place.trans hp]
      rfl
    rw [hpost]
    exact showSeat_eq ((htaken.told (offerPost_told m _ _ x)).place.trans hp)

/-! ### The warning of a record that has been written (R69) -/

theorem warnedAt_setCand (x j : Nat) (c d : Candidate) (v pe : Nat) (s : State) :
    warnedAt x j d v pe (s.setCand j c) = warnedAt x j d v pe s := by
  unfold warnedAt
  rw [State.setCand_hallTime, offerDesk_setCand]
  simp only [State.setCand, insert_insert]
  rfl

/-- A record tested for its warning is written with its flag set or as it is, and its seat is as it was (R69). -/
theorem warnedAt_cases (x j : Nat) (d : Candidate) (n pe : Nat) (s : State) : ∃ b att t,
    warnedAt x j d n pe s = { t with
      roll := tableInsert s.roll j { d with flags := { d.flags with warned := b } }, attention := att } ∧
    s.Told t x := by
  unfold warnedAt
  split
  · exact ⟨true, _, _, rfl, offerDesk_told ..⟩
  · exact ⟨d.flags.warned, s.attention, s, rfl, .refl s x⟩

/-! ### An admission (R54, R71) -/

/-- The record as it is SEATED at a place (R54). -/
def Candidate.seatedFor (x : Nat) (p : SeatPlace) (c : Candidate) : Candidate :=
  { c with state := .seated, currentSeat := some x, seatOfRecord := some ⟨x, p.room, p.row, p.column⟩ }

/-- The record as it is set up at a place after its sitting has begun (R71). -/
def Candidate.lateFor (g : Sitting) (x : Nat) (p : SeatPlace) (c : Candidate) : Candidate :=
  Candidate.activated g { c with
    state := .active, currentSeat := some x, seatOfRecord := some ⟨x, p.room, p.row, p.column⟩,
    flags := { c.flags with lateArrival := true } }

theorem seatedAt_eq (hp : (s.seat x).place = some p) :
    s.seatedAt x c = { c with currentSeat := some x, seatOfRecord := some ⟨x, p.room, p.row, p.column⟩ } := by
  simp [State.seatedAt, State.seatCopy, hp]

theorem admissionOpen_eq (g : Sitting) : g.admissionOpen = true ↔
    g.state = .admitting ∨ (g.state ∈ [SittingState.reading, .writing] ∧ g.e < g.r + g.l) := by
  cases h : g.state <;> simp [Sitting.admissionOpen, h]

theorem seatRecord_admitting (hp : (s.seat x).place = some p) (hg : s.sittings[c.sitting].state = .admitting) :
    seatRecord door j c x s = { s.takenAt door x j .occupied (.seat p.room p.row p.column c.number c.sitting) with
      roll := tableInsert s.roll j (c.seatedFor x p) } := by
  unfold seatRecord
  rw [hg]
  dsimp only
  rw [show (showSeat x (s.seatedAt x c)) = showSeat x { s.seatedAt x c with state := .seated } from rfl,
    show announce door x (s.seatedAt x c) = announce door x { s.seatedAt x c with state := .seated } from rfl,
    show_takenSeat (c := c) .occupied { s.seatedAt x c with state := .seated } hp rfl rfl, seatedAt_eq hp, State.setCand,
    (takenAt_givenUp ..).roll]
  rfl

theorem seatRecord_late (hp : (s.seat x).place = some p)
    (hg : s.sittings[c.sitting].state ∈ [SittingState.reading, .writing]) :
    seatRecord door j c x s = warnedAt x j (c.lateFor s.sittings[c.sitting] x p) s.sittings[c.sitting].v
      (personalEndOf s.sittings[c.sitting] (extensionOf s.sittings[c.sitting].w c.allowance) 0)
      (offerDesk x (.ending (personalEndOf s.sittings[c.sitting] (extensionOf s.sittings[c.sitting].w c.allowance) 0)
          .active (restBudgetOf s.sittings[c.sitting].w c.restRate))
        (s.takenAt door x j .occupied (.seat p.room p.row p.column c.number c.sitting))) := by
  have hlate : seatRecord door j c x s = activate j ((s.takenAt door x j .occupied
      (.seat p.room p.row p.column c.number c.sitting)).setCand j
        { s.seatedAt x c with state := .active, flags := { c.flags with lateArrival := true } }) := by
    rw [← show_takenSeat (c := c) .occupied
      { s.seatedAt x c with state := .active, flags := { c.flags with lateArrival := true } } hp rfl rfl]
    unfold seatRecord
    simp only [List.mem_cons, List.not_mem_nil, or_false] at hg
    rcases hg with hg | hg <;> rw [hg] <;> rfl
  have hsittings : (s.takenAt door x j .occupied (.seat p.room p.row p.column c.number c.sitting)).sittings =
      s.sittings := by rw [(takenAt_givenUp ..).frame]
  rw [hlate, activate_seated (cand_setCand_self ..) rfl, offerDesk_setCand, warnedAt_setCand, State.setCand_sittings,
    hsittings, seatedAt_eq hp]
  rfl

/-- What an admission to a seat leaves (R54, R56, R69, R71): the record `d` in slot `j`, the seat OCCUPIED, and the
messages for the post of a door and for the desk. -/
structure State.Admits (s t : State) (door : Option (Fin 4)) (j x : Nat) (p : SeatPlace) (c d : Candidate) : Prop where
  frame : t = { s with
    roll := tableInsert s.roll j d, seats := t.seats, segments := t.segments, attention := t.attention }
  queues : s.sameButQueues t
  others : ∀ y, y ≠ x → t.seat y = s.seat y
  seat : (t.seat x).butStale = Seat.butStale { s.seat x with state := .occupied, candidate := some j }
  early : s.sittings[c.sitting].state = .admitting →
    t = { s.takenAt door x j .occupied (.seat p.room p.row p.column c.number c.sitting) with
      roll := tableInsert s.roll j d } ∧ t.attention = s.attention ∧ d = c.seatedFor x p
  late : s.sittings[c.sitting].state ≠ .admitting → ∃ b,
    d = { c.lateFor s.sittings[c.sitting] x p with
      flags := { (c.lateFor s.sittings[c.sitting] x p).flags with warned := b } } ∧
    t = warnedAt x j (c.lateFor s.sittings[c.sitting] x p) s.sittings[c.sitting].v
      (personalEndOf s.sittings[c.sitting] (extensionOf s.sittings[c.sitting].w c.allowance) 0)
      (offerDesk x (.ending (personalEndOf s.sittings[c.sitting] (extensionOf s.sittings[c.sitting].w c.allowance) 0)
          .active (restBudgetOf s.sittings[c.sitting].w c.restRate))
        (s.takenAt door x j .occupied (.seat p.room p.row p.column c.number c.sitting)))

theorem State.Admits.cand (h : s.Admits t door j x p c d) : t.cand j = some d := by
  rw [h.frame]
  exact cand_setCand_self s j d

/-- What a state holds that differs in its desks, one record and the attention unit. -/
theorem frame_of_givenUp (h : s.GivenUp u x v) (r : Table Candidate) (att : Vector Group 6)
    (ht : t = { u with roll := r, attention := att }) : t = { s with
      roll := r, seats := t.seats, segments := t.segments, attention := t.attention } := by
  subst ht
  conv_lhs => rw [h.frame]

theorem seatRecord_admits (door : Option (Fin 4)) (hp : (s.seat x).place = some p)
    (ho : s.sittings[c.sitting].admissionOpen = true) : ∃ d, s.Admits (seatRecord door j c x s) door j x p c d := by
  have htaken := takenAt_givenUp s door x j .occupied (.seat p.room p.row p.column c.number c.sitting)
  rcases (admissionOpen_eq _).1 ho with hg | ⟨hg, -⟩
  · have heq := seatRecord_admitting (door := door) (j := j) hp hg
    refine ⟨c.seatedFor x p, frame_of_givenUp htaken _ _ heq, ?_, ?_, ?_, fun _ => ⟨heq, ?_, rfl⟩,
      fun hne => absurd hg hne⟩
    · rw [heq]; exact htaken.queues
    · rw [heq]; exact htaken.others
    · rw [heq]; exact htaken.seat
    · rw [heq]
      exact (congrArg State.attention htaken.frame :)
  · have heq := seatRecord_late (door := door) (j := j) hp hg
    obtain ⟨b, att, t, hwarned, htold⟩ := warnedAt_cases x j (c.lateFor s.sittings[c.sitting] x p) s.sittings[c.sitting].v
      (personalEndOf s.sittings[c.sitting] (extensionOf s.sittings[c.sitting].w c.allowance) 0)
      (offerDesk x (.ending (personalEndOf s.sittings[c.sitting] (extensionOf s.sittings[c.sitting].w c.allowance) 0)
          .active (restBudgetOf s.sittings[c.sitting].w c.restRate))
        (s.takenAt door x j .occupied (.seat p.room p.row p.column c.number c.sitting)))
    have hended := htaken.told (offerDesk_told x (.ending (personalEndOf s.sittings[c.sitting]
      (extensionOf s.sittings[c.sitting].w c.allowance) 0) .active (restBudgetOf s.sittings[c.sitting].w c.restRate)) _)
    have hall := hended.told htold
    have hfull := heq.trans hwarned
    rw [hended.roll] at hfull
    refine ⟨_, frame_of_givenUp hall _ att hfull, ?_, ?_, ?_, fun e => ?_, fun _ => ⟨b, rfl, heq⟩⟩
    · rw [hfull]; exact hall.queues
    · rw [hfull]; exact hall.others
    · rw [hfull]; exact hall.seat
    · rw [e] at hg; simp at hg

/-! ### ADMIT_FOR (R53) -/

theorem inStates_iff {sts : List CandState} : s.inStates sts j = true ↔ ∃ d, s.cand j = some d ∧ d.state ∈ sts := by
  unfold State.inStates
  cases s.cand j <;> simp

theorem any_inStates_iff {sts : List CandState} {l : List Nat} : l.any (s.inStates sts) = true ↔
    ∃ i d, i ∈ l ∧ s.cand i = some d ∧ d.state ∈ sts := by
  simp only [List.any_eq_true, inStates_iff]
  exact ⟨fun ⟨i, hi, d, hd, hst⟩ => ⟨i, d, hi, hd, hst⟩, fun ⟨i, d, hi, hd, hst⟩ => ⟨i, hi, d, hd, hst⟩⟩

theorem seatBytes_eq (hp : (s.seat x).place = some p) :
    s.seatBytes x = be2 x ++ be1 p.room.val ++ be1 p.row ++ be1 p.column := by
  simp [State.seatBytes, State.seatCopy, hp, SeatCopy.bytes]

theorem candState_eq (hc : s.cand j = some c) : s.candState j = be1 c.state.code := by rw [State.candState, hc]

/-- ADMIT_FOR, by its checks in order (R53). -/
theorem admitFor_eq (hres : s.resolve n k = .ok (j, c)) : admitFor n k s =
    if c.state ∈ [CandState.seated, .active, .resting, .done] then refuse .alreadySeated s
    else if (s.chain n).any (s.inStates admittedStates) then refuse .inOtherSitting s
    else if c.state = .absent then refuse .late s
    else if c.state ≠ .expected ∨ !s.sittings[c.sitting].admissionOpen then refuse .notNow s
    else (s.seatFor c).elim (refuse .noSeat s) fun i =>
      okWith (s.seatBytes i ++ (seatRecord none j c i s).candState j) (seatRecord none j c i s) := by
  have hown : s.inStates admittedStates j = true ↔ c.state ∈ [CandState.seated, .active, .resting, .done] := by
    rw [inStates_iff, State.cand_of_resolve hres]
    simp [admittedStates]
  simp only [admitFor, hres, hown]
  cases s.seatFor c <;> rfl

theorem admitFor_seats (hres : s.resolve n k = .ok (j, c)) (hst : c.state = .expected)
    (hothers : ¬ (s.chain n).any (s.inStates admittedStates) = true)
    (ho : s.sittings[c.sitting].admissionOpen = true) (hx : s.seatFor c = some x) : admitFor n k s =
      okWith (s.seatBytes x ++ (seatRecord none j c x s).candState j) (seatRecord none j c x s) := by
  rw [admitFor_eq hres, if_neg (by simp [hst]), if_neg hothers, if_neg (by simp [hst]),
    if_neg (by rw [ho]; simp [hst]), hx]
  rfl

/-- Settles O40. -/
theorem admitForSeatsTheCandidate : Obligations.AdmitForSeatsTheCandidate := by
  refine ⟨admissionOpen_eq, fun s c => ⟨fun x hx => by rw [State.seatFor, hx], fun hx => by rw [State.seatFor, hx]⟩,
    fun s n k j c i g h _ hres hi hg => ?_⟩
  subst hi hg
  have hop := admitFor_eq hres
  refine ⟨fun hst => exec_refused rfl h (hop.trans (if_pos hst)), fun hst => ?_⟩
  rw [if_neg hst] at hop
  refine ⟨fun hothers => exec_refused rfl h (hop.trans (if_pos (any_inStates_iff.2 hothers))), fun hothers => ?_⟩
  have hnone : ¬ (s.chain n).any (s.inStates admittedStates) = true := fun e => by
    obtain ⟨j', d, hj', hd, hin⟩ := any_inStates_iff.1 e
    exact hothers j' d hj' hd hin
  rw [if_neg hnone] at hop
  refine ⟨fun habsent => exec_refused rfl h (hop.trans (if_pos habsent)), fun hlate => exec_refused rfl h ?_,
    fun hexp hshut => exec_refused rfl h ?_, fun hexp ho hseat => exec_refused rfl h ?_, fun x p hexp ho hseat hp => ?_⟩
  · simp only [List.mem_cons, List.not_mem_nil, or_false] at hlate
    rw [hop, if_neg (by rcases hlate with e | e <;> simp [e]),
      if_pos (.inl (by rcases hlate with e | e <;> simp [e]))]
  · rw [hop, if_neg (by simp [hexp]), if_pos (.inr (by rw [hshut]; rfl))]
  · rw [hop, if_neg (by simp [hexp]), if_neg (by rw [ho]; simp [hexp]), hseat]
    rfl
  · obtain ⟨d, ha⟩ := seatRecord_admits (j := j) none hp ho
    refine ⟨_, d, ?_, ha.frame, ha.queues, ha.others, ha.seat, fun w hw => ⟨fun hg => ?_, fun pe budget hg hpe hb => ?_⟩,
      fun hg => (ha.early hg).2, fun hg => ?_⟩
    · rw [exec_ok rfl h (admitFor_seats hres hexp hnone ho hseat), seatBytes_eq hp, candState_eq ha.cand]
    · subst hw
      exact (ha.early hg).1
    · subst hw
      obtain ⟨b, rfl, ht⟩ := ha.late hg
      cases hpe
      cases hb
      exact ht
    · obtain ⟨b, rfl, -⟩ := ha.late hg
      rfl

end Sys2Proof.Machine
end

