-- ==== Sys2Proof/Proofs/Placing.lean ====
section
/-! SUPPORT. PLACE, UNPLACE and MOVE (R57, R58, R60). -/

namespace Sys2Proof.Machine

variable {s t u : State} {c d : Candidate} {p : SeatPlace} {n k j x y : Nat} {exempt : Option Nat}

/-! ### The checks on a seat that is to be taken (R57, R60) -/

theorem seatRefusal_eq (s : State) (c : Candidate) (exempt : Option Nat) (p : SeatPlace) : s.seatRefusal c exempt p =
    if p.room ∉ s.sittings[c.sitting].rooms then some .notInRooms
    else if includesAll p.features c.required = false then some .features
    else if s.blocked exempt p c.sitting = true then some .adjacent else none := by
  simp only [State.seatRefusal, Bool.not_eq_true']

/-- A free seat in an enabled room (R57, R60). -/
structure State.Takeable (s : State) (x : Nat) (p : SeatPlace) : Prop where
  free : (s.seat x).state = .free
  place : (s.seat x).place = some p
  enabled : s.rooms[p.room].enabled = true

theorem untakeable_iff : (¬ ∃ p, s.Takeable x p) ↔ ((s.seat x).state ≠ .free ∨ (s.seat x).place = none ∨
    ∃ p, (s.seat x).place = some p ∧ s.rooms[p.room].enabled = false) := by
  constructor
  · intro h
    by_contra hno
    simp only [not_or, not_exists, not_and, not_not, Bool.not_eq_false] at hno
    obtain ⟨hfree, hplace, hen⟩ := hno
    obtain ⟨p, hp⟩ := Option.ne_none_iff_exists'.1 hplace
    exact h ⟨p, hfree, hp, hen p hp⟩
  · rintro (hst | hplace | ⟨p, hp, hen⟩) ⟨q, hfree, hq, hon⟩
    · exact hst hfree
    · rw [hplace] at hq; cases hq
    · rw [hp] at hq; cases hq; rw [hen] at hon; cases hon

/-! ### PLACE (R57) -/

theorem place_range (hres : s.resolve n k = .ok (j, c)) (hx : 512 ≤ x) : place n k x s = refuse .range s := by
  simp only [place, hres]
  exact if_pos hx

theorem place_notWaiting (hres : s.resolve n k = .ok (j, c)) (hx : x < 512)
    (h : c.state ≠ .expected ∨ c.currentSeat ≠ none) : place n k x s = refuse .state s := by
  simp only [place, hres, Option.isSome_iff_ne_none]
  exact (if_neg (Nat.not_le.2 hx)).trans (if_pos h)

theorem place_untakeable (hres : s.resolve n k = .ok (j, c)) (hx : x < 512) (h : ¬ ∃ p, s.Takeable x p) :
    place n k x s = refuse .state s := by
  simp only [place, hres]
  refine (if_neg (Nat.not_le.2 hx)).trans (ite_eq_left_iff.2 fun _ => ?_)
  split
  · rfl
  · next p hp =>
    refine if_pos ?_
    by_contra hno
    simp only [not_or, not_not, Bool.not_eq_true, Bool.not_eq_false'] at hno
    exact h ⟨p, hno.1, hp, hno.2⟩

/-- PLACE of a waiting record at a takeable seat is refused by the checks on the seat, or takes it (R57). -/
theorem place_eq (hres : s.resolve n k = .ok (j, c)) (hx : x < 512) (hst : c.state = .expected)
    (hseat : c.currentSeat = none) (ht : s.Takeable x p) : place n k x s =
      (s.seatRefusal c none p).elim
        (okWith [] ((s.takenAt none x j .held (.seat p.room p.row p.column c.number c.sitting)).setCand j
          { c with currentSeat := some x }))
        (refuse · s) := by
  have hwaits : ¬ (c.state ≠ .expected ∨ c.currentSeat.isSome = true) := by simp [hst, hseat]
  have hfree : ¬ ((s.seat x).state ≠ .free ∨ (!s.rooms[p.room].enabled) = true) := by
    rw [ht.free, ht.enabled]
    simp
  simp only [place, hres, ht.place]
  refine (if_neg (Nat.not_le.2 hx)).trans ((if_neg hwaits).trans ((if_neg hfree).trans ?_))
  cases s.seatRefusal c none p with
  | none =>
    refine congrArg (okWith []) ?_
    exact show_takenSeat (door := none) .held { c with currentSeat := some x } ht.place rfl rfl
  | some st => rfl

/-! ### UNPLACE (R58) -/

theorem unplaceSeat_eq (j : Nat) (c : Candidate) (y : Nat) (s : State) : unplaceSeat j c y s =
    closingTest c.sitting ((freedDesk y s).setCand j { c with currentSeat := none }) := by
  unfold unplaceSeat freedDesk
  rw [← offerDesk_setCand]
  rfl

theorem unplace_expected (hres : s.resolve n k = .ok (j, c)) (hst : c.state = .expected) : unplace n k s =
    okWith [] (c.currentSeat.elim s fun y => unplaceSeat j c y s) := by
  simp only [unplace, hres, hst]
  cases c.currentSeat <;> rfl

theorem unplace_state (hres : s.resolve n k = .ok (j, c)) (hst : c.state ≠ .expected) :
    unplace n k s = refuse .state s := by
  simp only [unplace, hres]
  cases h : c.state with
  | expected => exact absurd h hst
  | seated | active | resting | done | cleared | absent | withdrawn => rfl

/-! ### MOVE (R60) -/

theorem writingStates_eq : writingStates = [CandState.seated, .active, .resting] := rfl

theorem move_range (hres : s.resolve n k = .ok (j, c)) (hx : 512 ≤ x) : move n k x s = refuse .range s := by
  simp only [move, hres]
  exact if_pos hx

theorem move_state (hres : s.resolve n k = .ok (j, c)) (hx : x < 512)
    (hst : c.state ∉ [CandState.seated, .active, .resting]) : move n k x s = refuse .state s := by
  simp only [move, hres]
  exact (if_neg (Nat.not_le.2 hx)).trans (if_pos hst)

theorem move_untakeable (hres : s.resolve n k = .ok (j, c)) (hx : x < 512)
    (h : (¬ ∃ p, s.Takeable x p) ∨ (s.seat x).deskStatus = .lost) : move n k x s = refuse .state s := by
  simp only [move, hres]
  refine (if_neg (Nat.not_le.2 hx)).trans (ite_eq_left_iff.2 fun _ => ?_)
  split
  · next p old hp _ =>
    refine if_pos ?_
    by_contra hno
    simp only [not_or, not_not, Bool.not_eq_true, Bool.not_eq_false'] at hno
    exact h.elim (fun hn => hn ⟨p, hno.1, hp, hno.2.1⟩) hno.2.2
  · rfl

/-- MOVE of a seated record to a takeable seat is refused by the checks on the seat, or made (R60). -/
theorem move_eq (hres : s.resolve n k = .ok (j, c)) (hx : x < 512)
    (hst : c.state ∈ [CandState.seated, .active, .resting]) (hy : c.currentSeat = some y) (ht : s.Takeable x p)
    (hlost : (s.seat x).deskStatus ≠ .lost) : move n k x s =
      (s.seatRefusal c (some y) p).elim (okWith (s.seatBytes x) (moveRecord j c y x s)) (refuse · s) := by
  have hfree : ¬ ((s.seat x).state ≠ .free ∨ (!s.rooms[p.room].enabled) = true ∨ (s.seat x).deskStatus = .lost) := by
    rw [ht.free, ht.enabled]
    simp [hlost]
  simp only [move, hres, ht.place, hy]
  refine (if_neg (Nat.not_le.2 hx)).trans ((if_neg (not_not.2 hst)).trans ((if_neg hfree).trans ?_))
  cases s.seatRefusal c (some y) p <;> rfl

/-- The desks of a move: the old seat is freed and told BLANK, the new one taken and told SEAT (R56, R60). -/
def State.movedDesks (s : State) (j y x : Nat) (w : ShowContent) : State :=
  offerDesk x w (offerDesk y .blank (takeSeat x .occupied j (freeSeat y s)))

theorem showEnd_setCand (c d : Candidate) (j : Nat) (s : State) :
    showEnd c (s.setCand j d) = (showEnd c s).setCand j d := by
  refine (showEnd_roll c s _).trans ?_
  unfold State.setCand
  rw [(showEnd_spoken c s).roll]

theorem showMovedEnd_setCand (c d : Candidate) (j : Nat) (s : State) :
    showMovedEnd c (s.setCand j d) = (showMovedEnd c s).setCand j d := by
  unfold showMovedEnd
  cases c.state with
  | active | resting => exact showEnd_setCand ..
  | expected | seated | done | cleared | absent | withdrawn => rfl

theorem showEnd_told (hx : c.currentSeat = some x) (s : State) : s.Told (showEnd c s) x := by
  unfold showEnd endAt
  rw [hx]
  dsimp only
  split
  · exact offerDesk_told ..
  · exact .refl s x

theorem showMovedEnd_told (hx : c.currentSeat = some x) (s : State) : s.Told (showMovedEnd c s) x := by
  unfold showMovedEnd
  cases c.state with
  | active | resting => exact showEnd_told hx s
  | expected | seated | done | cleared | absent | withdrawn => exact .refl s x

theorem showMovedEnd_timed (hst : c.state ∈ [CandState.active, .resting]) (s : State) :
    showMovedEnd c s = showEnd c s := by
  unfold showMovedEnd
  simp only [List.mem_cons, List.not_mem_nil, or_false] at hst
  rcases hst with e | e <;> rw [e]

theorem showMovedEnd_seated (hst : c.state = .seated) (s : State) : showMovedEnd c s = s := by
  unfold showMovedEnd
  rw [hst]

theorem freeSeat_givenUp (y : Nat) (s : State) : s.GivenUp (freeSeat y s) y (s.seat y).freed :=
  (State.Told.refl s y).setSeat (freed_ne_undefined _) rfl

theorem seat_freeSeat_of_ne (hne : x ≠ y) (s : State) : (freeSeat y s).seat x = s.seat x :=
  (freeSeat_givenUp y s).others x hne

theorem moveRecord_eq (hne : y ≠ x) (hp : (s.seat x).place = some p) : moveRecord j c y x s =
    (showMovedEnd (s.movedTo x c) (s.movedDesks j y x (.seat p.room p.row p.column c.number c.sitting))).setCand j
      (s.movedTo x c) := by
  have hplace : ((offerDesk y .blank (takeSeat x .occupied j (freeSeat y s))).seat x).place = some p := by
    rw [(offerDesk_told ..).others x hne.symm, (takeSeat_givenUp ..).place]
    exact (congrArg Seat.place (seat_freeSeat_of_ne hne.symm s)).trans hp
  unfold moveRecord
  rw [← showMovedEnd_setCand]
  refine congrArg (showMovedEnd _) ?_
  rw [offerDesk_setCand]
  exact (showSeat_eq (s := (offerDesk y .blank (takeSeat x .occupied j (freeSeat y s))).setCand j (s.movedTo x c))
    hplace).trans (offerDesk_setCand ..)

/-- What a move changes of the desks: the two seats' own records as given, and the queues (R60). -/
structure State.TwoGivenUp (s t : State) (j y x : Nat) : Prop where
  frame : t = { s with seats := t.seats, segments := t.segments }
  queues : s.sameButQueues t
  old : (t.seat y).butStale = (s.seat y).freed.butStale
  new : (t.seat x).butStale = ((s.seat x).takenAs .occupied j).butStale
  others : ∀ z, z ≠ x → z ≠ y → t.seat z = s.seat z

theorem State.TwoGivenUp.told (h : s.TwoGivenUp t j y x) {z : Nat} (hz : z = x ∨ z = y) (g : t.Told u z) :
    s.TwoGivenUp u j y x := by
  have hseat := g.spoken.seats
  refine ⟨?_, fun m => (g.queues m).trans (h.queues m), (hseat y).trans h.old, (hseat x).trans h.new,
    fun i hx hy => (g.others i ?_).trans (h.others i hx hy)⟩
  · have hu := g.frame
    rw [h.frame] at hu
    exact hu
  · rcases hz with rfl | rfl
    · exact hx
    · exact hy

theorem freeTake_givenUp (hne : y ≠ x) (j : Nat) (s : State) :
    s.TwoGivenUp (takeSeat x .occupied j (freeSeat y s)) j y x := by
  have hfree := freeSeat_givenUp y s
  have htake := takeSeat_givenUp x j .occupied (freeSeat y s)
  rw [seat_freeSeat_of_ne hne.symm] at htake
  refine ⟨?_, fun m => (htake.queues m).trans (hfree.queues m), ?_, htake.seat,
    fun z hzx hzy => (htake.others z hzx).trans (hfree.others z hzy)⟩
  · have ht := htake.frame
    rw [hfree.frame] at ht
    exact ht
  · rw [htake.others y hne]
    exact hfree.seat

theorem movedDesks_givenUp (hne : y ≠ x) (j : Nat) (w : ShowContent) (s : State) :
    s.TwoGivenUp (s.movedDesks j y x w) j y x :=
  ((freeTake_givenUp hne j s).told (.inr rfl) (offerDesk_told ..)).told (.inl rfl) (offerDesk_told ..)

theorem movedTo_eq (hp : (s.seat x).place = some p) : s.movedTo x c = { c with
    currentSeat := some x, seatOfRecord := some ⟨x, p.room, p.row, p.column⟩,
    flags := { c.flags with confirmed := false } } := by
  rw [State.movedTo, seatedAt_eq hp]

/-- Settles O41. -/
theorem placeUnplaceAndMove : Obligations.PlaceUnplaceAndMove := by
  refine ⟨fun s n k j x c p h _ hres hx => ⟨fun hst hseat => exec_ok rfl h ?_, fun y hst hy => ?_,
      fun hst hseat hfree hp hen i hi => ?_, fun y hst hy hne hfree hp hen hlost hroom hfeat hblock => ?_⟩,
    fun s n k j x c h hres => ⟨fun hx i hi => ?_, fun hst => exec_refused rfl h (unplace_state hres hst),
      fun hx i hi => ⟨fun hst => ?_, fun hst hseat hbad => ?_⟩, fun hx i hi => ⟨fun hst => ?_, fun y hst hy =>
        ⟨fun hbad => ?_, fun p hfree hp hlost hen => ?_⟩⟩⟩⟩
  · rw [unplace_expected hres hst, hseat]
    rfl
  · have hfreed := freedDesk_givenUp (State.Told.refl s y)
    refine ⟨(freedDesk y s).setCand j { c with currentSeat := none }, exec_ok rfl h ?_, ?_, rfl, rfl, hfreed.queues,
      hfreed.others, hfreed.seat⟩
    · rw [unplace_expected hres hst, hy]
      exact congrArg (okWith []) (unplaceSeat_eq j c y s)
    · rw [State.setCand, hfreed.roll]
      conv_lhs => rw [hfreed.frame]
  · subst hi
    have hop := place_eq (j := j) hres hx hst hseat ⟨hfree, hp, hen⟩
    rw [seatRefusal_eq] at hop
    refine ⟨fun hroom => exec_refused rfl h ?_, fun hroom => ⟨fun hfeat => exec_refused rfl h ?_, fun hfeat =>
      ⟨fun hblock => exec_refused rfl h ?_, fun hblock => ?_⟩⟩⟩
    · rw [hop, if_pos hroom]
      rfl
    · rw [hop, if_neg (not_not.2 hroom), if_pos hfeat]
      rfl
    · rw [hop, if_neg (not_not.2 hroom), if_neg (by simp [hfeat]), if_pos hblock]
      rfl
    · have htaken := takenAt_givenUp s none x j .held (.seat p.room p.row p.column c.number c.sitting)
      refine ⟨_, exec_ok rfl h (t := (s.takenAt none x j .held (.seat p.room p.row p.column c.number c.sitting)).setCand j
        { c with currentSeat := some x }) ?_, ?_, fun w hw => ?_, htaken.queues, htaken.others, htaken.seat⟩
      · rw [hop, if_neg (not_not.2 hroom), if_neg (by simp [hfeat]), if_neg (by simp [hblock])]
        rfl
      · rw [State.setCand, htaken.roll]
        conv_lhs => rw [htaken.frame]
      · subst hw
        exact ⟨rfl, rfl⟩
  · have hmoved := (movedDesks_givenUp hne j (.seat p.room p.row p.column c.number c.sitting) s).told (.inl rfl)
      (showMovedEnd_told (c := s.movedTo x c) rfl _)
    refine ⟨_, exec_ok rfl h (payload := be2 x ++ be1 p.room.val ++ be1 p.row ++ be1 p.column)
      (t := moveRecord j c y x s) ?_, ?_⟩
    · rw [move_eq hres hx hst hy ⟨hfree, hp, hen⟩ hlost, seatRefusal_eq, if_neg (not_not.2 hroom),
        if_neg (by simp [hfeat]), if_neg (by simp [hblock]), seatBytes_eq hp]
      rfl
    rw [moveRecord_eq hne hp]
    refine ⟨?_, fun w hw => ?_, hmoved.queues, hmoved.others, hmoved.old, hmoved.new⟩
    · rw [← movedTo_eq hp, State.setCand, show (showMovedEnd (s.movedTo x c) (s.movedDesks j y x
        (.seat p.room p.row p.column c.number c.sitting))).roll = s.roll by rw [hmoved.frame]]
      conv_lhs => rw [hmoved.frame]
    · have hdesks : w = s.movedDesks j y x (.seat p.room p.row p.column c.number c.sitting) := by
        rw [hw, State.movedDesks, takeSeat, seat_freeSeat_of_ne hne.symm]
        rfl
      subst hdesks
      refine ⟨fun hseated => ?_, fun hends => ?_⟩
      · rw [showMovedEnd_seated (c := s.movedTo x c) hseated]
        exact ⟨rfl, rfl⟩
      · rw [showMovedEnd_timed (c := s.movedTo x c) hends]
        exact ⟨rfl, rfl⟩
  · simp only [List.mem_cons, List.not_mem_nil, or_false] at hi
    rcases hi with rfl | rfl
    · exact exec_refused rfl h (place_range hres hx)
    · exact exec_refused rfl h (move_range hres hx)
  · subst hi
    exact exec_refused rfl h (place_notWaiting hres hx hst)
  · subst hi
    exact exec_refused rfl h (place_untakeable hres hx (untakeable_iff.2 hbad))
  · subst hi
    exact exec_refused rfl h (move_state hres hx hst)
  · subst hi
    refine exec_refused rfl h (move_untakeable hres hx ?_)
    rcases hbad with hfree | hplace | hlost | hen
    · exact .inl (untakeable_iff.2 (.inl hfree))
    · exact .inl (untakeable_iff.2 (.inr (.inl hplace)))
    · exact .inr hlost
    · exact .inl (untakeable_iff.2 (.inr (.inr hen)))
  · subst hi
    have hop := move_eq hres hx hst hy ⟨hfree, hp, hen⟩ hlost
    rw [seatRefusal_eq] at hop
    refine ⟨fun hroom => exec_refused rfl h ?_, fun hroom => ⟨fun hfeat => exec_refused rfl h ?_, fun hfeat hblock =>
      exec_refused rfl h ?_⟩⟩
    · rw [hop, if_pos hroom]
      rfl
    · rw [hop, if_neg (not_not.2 hroom), if_pos hfeat]
      rfl
    · rw [hop, if_neg (not_not.2 hroom), if_neg (by simp [hfeat]), if_pos hblock]
      rfl

end Sys2Proof.Machine
end

