-- ==== Sys2Proof/Proofs/PostEvents.lean ====
section
/-! SUPPORT. The post's good answer (R93, R96, R97), the badge at a door (R52, R55) and the COLLECT (R113, R114). -/

namespace Sys2Proof.Machine

variable {s t u : State} {c d : Candidate} {p : SeatPlace} {n k j x i : Nat} {m : Fin 4} {w : ShowContent}
  {e f : ShowEntry} {q : List ShowEntry}

/-! ### The window's end and the post's contact (R92, R96) -/

theorem segment_setSegment_self (s : State) (m : Fin 4) (g : Segment) : (s.setSegment m g).segments[m] = g := by
  simp [State.setSegment]

theorem setSegment_setSegment (s : State) (m : Fin 4) (g g' : Segment) :
    (s.setSegment m g).setSegment m g' = s.setSegment m g' := by
  simp [State.setSegment]

theorem endWindow_setDoorWire (m : Fin 4) (door : Bool) (s : State) : endWindow m (setDoorWire m door s) =
    s.setSegment m { s.segments[m] with line := .master, doorWire := door } := by
  rw [endWindow, setDoorWire, setSegment_setSegment, segment_setSegment_self]

theorem postAnswered_eq (m : Fin 4) (s : State) : postAnswered m s =
    if s.segments[m].postStatus = .present then
      s.setSegment m { s.segments[m] with postStatus := .present, postMiss := 0 }
    else offerPost m .blank (s.setSegment m { s.segments[m] with postStatus := .present, postMiss := 0 }) := by
  unfold postAnswered
  cases h : s.segments[m].postStatus with
  | present =>
    have hkept : ({ s.segments[m] with postMiss := 0 } : Segment) =
        { s.segments[m] with postStatus := .present, postMiss := 0 } := by rw [← h]
    rw [if_pos rfl]
    exact congrArg (s.setSegment m) hkept
  | unknown | lost => rw [if_neg (by simp)]

theorem discardEvent_eq (ev : DeskEvent) (s : State) : discardEvent ev s = if ev = .null then s else s.raise .desk := by
  cases ev <;> rfl

theorem exec_deskAnswer {door : Bool} {frame : List Byte} {a : Nat} {ev : DeskEvent} (h : s.resetHold = .running)
    (hline : s.segments[m].line = .awaiting a) (hparse : parseAnswer frame = some (a, ev)) :
    exec (.deskAnswer m door frame) s = .next (kickSegment m (goodAnswer m a ev
      (s.setSegment m { s.segments[m] with line := .master, doorWire := door }))) := by
  refine (whileRunning_running (deskAnswer m door frame) s h).trans (congrArg Host.Outcome.next ?_)
  rw [deskAnswer, hline]
  dsimp only
  rw [endWindow_setDoorWire, handleAnswer, hparse]
  dsimp only
  rw [if_pos rfl]

/-! ### The badge at a door (R52, R55) -/

theorem admittable_iff : s.admittable j = true ↔
    ∃ c, s.cand j = some c ∧ c.state = .expected ∧ s.sittings[c.sitting].admissionOpen = true := by
  unfold State.admittable
  cases s.cand j <;> simp

theorem doorTarget_isSome_iff : (s.doorTarget n).isSome = true ↔ ∃ j c, j ∈ s.chain n ∧ s.cand j = some c ∧
    c.state = .expected ∧ s.sittings[c.sitting].admissionOpen = true := by
  simp only [State.doorTarget, List.find?_isSome, admittable_iff]
  exact ⟨fun ⟨j, hj, c, hc, ht⟩ => ⟨j, c, hj, hc, ht⟩, fun ⟨j, c, hj, hc, ht⟩ => ⟨j, hj, c, hc, ht⟩⟩

/-- The decision on the badge of an enrolled number (R52, steps 2 to 6). -/
theorem doorDecision_eq (hn : n ≤ 99999999) (hl : s.lookup n ≠ none) : s.doorDecision n =
    if (s.chain n).any (s.inStates admittedStates) = true then
      if (s.doorTarget n).isSome = true then .refused .inOtherSitting else .refused .alreadySeated
    else (s.doorTarget n).elim
      (if (s.chain n).any (s.inStates [.absent]) = true then .refused .late else .refused .notNow) s.doorSeat := by
  have henrolled : ¬ (Config.maxNumber < n ∨ (s.lookup n).isNone = true) := by
    simp only [Config.maxNumber, not_or, not_lt, Option.isNone_iff_eq_none]
    exact ⟨hn, hl⟩
  rw [State.doorDecision, if_neg henrolled]
  cases s.doorTarget n <;> rfl

theorem doorDecision_notEnrolled (h : 99999999 < n ∨ s.lookup n = none) : s.doorDecision n = .refused .notEnrolled := by
  rw [State.doorDecision]
  exact if_pos (h.imp id fun e => by rw [e]; rfl)

theorem doorTap_refused {why : Notice} (h : s.doorDecision n = .refused why) (m : Fin 4) :
    doorTap m n s = { offerPost m (.notice why) s with
      rooms := s.rooms.set m { s.rooms[m] with lastRefusal := some ⟨n, why, s.hallTime⟩ },
      attention := (s.raise .admission).attention } := by
  have hframe := (offerPost_desks m (.notice why) s)
  have hrooms : (offerPost m (.notice why) s).rooms = s.rooms := by rw [hframe]
  have hatt : (offerPost m (.notice why) s).attention = s.attention := by rw [hframe]
  rw [doorTap, h]
  simp only [doorRefused, State.setRoom, State.raise, hrooms, hatt]

theorem doorTap_admitted (h : s.doorDecision n = .admitted j x) (hc : s.cand j = some c) (m : Fin 4) :
    doorTap m n s = seatRecord (some m) j c x s := by
  rw [doorTap, h]
  dsimp only
  rw [hc]

theorem doorSeat_filtered (h : s.holdFilter.filtered = true) (j : Nat) : s.doorSeat j = .refused .hallHold := by
  rw [State.doorSeat, if_pos h]

theorem doorSeat_eq (h : s.holdFilter.filtered = false) (hc : s.cand j = some c) : s.doorSeat j =
    (s.seatFor c).elim (.refused .noSeat) (.admitted j) := by
  rw [State.doorSeat, if_neg (by simp [h]), hc]
  show (match s.seatFor c with | some i => _ | none => _) = _
  cases s.seatFor c <;> rfl

/-- The first record of the chain that can be admitted is the target (R52, step 2). -/
theorem doorTarget_first {before after : List Nat} (hchain : s.chain n = before ++ j :: after)
    (hbefore : ∀ i ∈ before, s.admittable i = false) (hj : s.admittable j = true) : s.doorTarget n = some j := by
  rw [State.doorTarget, hchain, List.find?_append, List.find?_eq_none.2 fun i hi => by simp [hbefore i hi],
    List.find?_cons_of_pos hj]
  rfl

/-! ### A SEAT at the head of a queue (R89) -/

/-- A message that is no BLANK leaves a SEAT at the head of the queue there. -/
theorem offerQueue_head (hq : q.head? = some e) (he : e.content.kind = .seat) (hf : f.content.kind ≠ .blank)
    (hsame : f.address = e.address → f.content.kind = .seat → f = e) : (offerQueue f q).1.head? = some e := by
  have hkept : (withdrawnBy f q).head? = some e := by
    unfold withdrawnBy
    cases hk : f.content.kind with
    | blank => exact absurd hk hf
    | ending | notice => exact hq
    | seat =>
      cases q with
      | nil => simp at hq
      | cons e' q =>
        cases hq
        simp [he]
  unfold offerQueue
  split
  · rw [List.head?_map, hkept]
    simp only [Option.map_some, ShowEntry.matches_, Bool.and_eq_true, beq_iff_eq]
    split
    · next hm => rw [hsame hm.1.symm (hm.2.symm.trans he)]
    · rfl
  · split
    · rw [List.head?_append, hkept]
      rfl
    · exact hkept

theorem segment_setQueue (m m' : Fin 4) (q : List ShowEntry) (s : State) : (s.setQueue m' q).segments[m] =
    if m = m' then { s.segments[m'] with queue := q } else s.segments[m] := by
  by_cases h : m = m'
  · subst h
    rw [if_pos rfl]
    exact segment_setSegment_self ..
  · have hne : m'.val ≠ m.val := fun e => h (Fin.ext e.symm)
    simp [State.setQueue, State.setSegment, h, hne]

theorem offerDesk_head (hq : s.segments[m].queue.head? = some e) (he : e.content.kind = .seat) (hw : w.kind ≠ .blank)
    (hsame : w.kind = .seat → w = e.content) (x : Nat) : (offerDesk x w s).segments[m].queue.head? = some e := by
  have hqueue : ∀ m' a, ((s.setQueue m' (offerQueue ⟨a, w⟩ s.segments[m'].queue).1).segments[m]).queue.head? = some e := by
    intro m' a
    rw [segment_setQueue]
    split
    · next h =>
      subst h
      refine offerQueue_head hq he hw fun haddr hkind => ?_
      cases e
      simp_all
    · exact hq
  unfold offerDesk
  repeat' split
  all_goals first
    | exact hq
    | exact hqueue ..

/-- An admission at a door puts its SEAT at the head of the post's empty queue (R56). -/
theorem takenAt_head (hline : s.segments[m].line ≠ .disabled) (hpost : s.segments[m].postStatus = .present)
    (hempty : s.segments[m].queue = []) (hw : w.kind = .seat) (x j : Nat) (st : SeatState) :
    (s.takenAt (some m) x j st w).segments[m].queue.head? = some ⟨0, w⟩ := by
  refine offerDesk_head (e := ⟨0, w⟩) ?_ hw (by simp [hw]) (fun _ => rfl) x
  have hsegment : (takeSeat x st j s).segments[m] = s.segments[m] := rfl
  have hoffer : offerPost m w (takeSeat x st j s) = (takeSeat x st j s).setQueue m (offerQueue ⟨0, w⟩ []).1 := by
    unfold offerPost
    rw [hsegment, hpost, hempty]
    cases h : s.segments[m].line with
    | disabled => exact absurd h hline
    | master | awaiting a => rfl
  show (offerPost m w (takeSeat x st j s)).segments[m].queue.head? = _
  rw [hoffer, segment_setQueue, if_pos rfl]
  simp [offerQueue, withdrawnBy, hw, Config.queuePlaces]

theorem warnedAt_head (hq : s.segments[m].queue.head? = some e) (he : e.content.kind = .seat) (x j : Nat) (d : Candidate)
    (v pe : Nat) : (warnedAt x j d v pe s).segments[m].queue.head? = some e := by
  unfold warnedAt
  split
  · exact offerDesk_head hq he (by simp [ShowContent.kind]) (by simp [ShowContent.kind]) x
  · exact hq

theorem State.Admits.postHead (h : s.Admits t (some m) j x p c d) (hline : s.segments[m].line ≠ .disabled)
    (hpost : s.segments[m].postStatus = .present) (hempty : s.segments[m].queue = []) :
    t.segments[m].queue.head? = some ⟨0, .seat p.room p.row p.column c.number c.sitting⟩ := by
  have htaken := takenAt_head (w := .seat p.room p.row p.column c.number c.sitting) hline hpost hempty rfl x j .occupied
  by_cases hg : s.sittings[c.sitting].state = .admitting
  · rw [(h.early hg).1]
    exact htaken
  · obtain ⟨b, -, ht⟩ := h.late hg
    rw [ht]
    exact warnedAt_head (offerDesk_head htaken rfl (by simp [ShowContent.kind]) (by simp [ShowContent.kind]) x) rfl ..

/-! ### COLLECT (R113, R114) -/

theorem refuseCollect_eq (m : Fin 4) (n : Nat) (why : CustodyReason) (s : State) : refuseCollect m n why s =
    { offerPost m (.notice why.notice) s with
      lastCustodyRefusal := some ⟨n, why, m, 0, s.hallTime⟩, attention := (s.raise .custody).attention } := by
  have hframe := (offerPost_desks m (.notice why.notice) s)
  have htime : (offerPost m (.notice why.notice) s).hallTime = s.hallTime := by rw [hframe]
  have hatt : (offerPost m (.notice why.notice) s).attention = s.attention := by rw [hframe]
  simp only [refuseCollect, State.custodyRefused, State.raise, htime, hatt]

theorem postSeat_eq (hp : (s.seat x).place = some p) :
    postSeat m x c s = offerPost m (.seat p.room p.row p.column c.number c.sitting) s := by
  rw [postSeat, hp]
  rfl

theorem collectSeat_seated (hc : s.cand j = some c) (hx : c.currentSeat = some x) (hp : (s.seat x).place = some p) :
    collectSeat m j s = offerPost m (.seat p.room p.row p.column c.number c.sitting) s := by
  rw [collectSeat, hc]
  dsimp only
  rw [hx]
  exact postSeat_eq hp

theorem collectSeat_unseated {r : SeatCopy} (hc : s.cand j = some c) (hx : c.currentSeat = none)
    (hr : c.seatOfRecord = some r) :
    collectSeat m j s = offerPost m (.seat r.room r.row r.column c.number c.sitting) s := by
  rw [collectSeat, hc]
  dsimp only
  rw [hx, hr]
  rfl

theorem roomOfCand_eq_some : s.roomOfCand j = some m ↔
    ∃ c x p, s.cand j = some c ∧ c.currentSeat = some x ∧ (s.seat x).place = some p ∧ p.room = m := by
  simp only [State.roomOfCand, Option.bind_eq_some_iff, Option.map_eq_some_iff]
  exact ⟨fun ⟨x, ⟨c, hc, hx⟩, p, hp, hm⟩ => ⟨c, x, p, hc, hx, hp, hm⟩,
    fun ⟨c, x, p, hc, hx, hp, hm⟩ => ⟨x, ⟨c, hc, hx⟩, p, hp, hm⟩⟩

theorem collect_badSerial (h : validSerial n = false) : collect m n s = refuseCollect m n .badSerial s := by
  rw [collect, h]
  rfl

theorem collect_unknown (hv : validSerial n = true) (h : s.script n = none) :
    collect m n s = refuseCollect m n .unknownScript s := by
  rw [collect, hv, h]
  rfl

/-- A COLLECT of a script, by the script's state (R113). -/
theorem collect_script {y : Script} (hv : validSerial n = true) (h : s.script n = some y) :
    (y.state = .issued → collect m n s = refuseCollect m n .notSubmitted s) ∧
    (y.state = .voided → collect m n s = refuseCollect m n .voided s) ∧
    (y.state ∈ [ScriptState.collected, .marking, .marked, .handed] → collect m n s = collectSeat m y.slot s) ∧
    (y.state = .submitted → collect m n s = if s.roomOfCand y.slot ≠ some m then refuseCollect m n .wrongRoom s
      else collectSeat m y.slot (clearanceTest y.slot (s.setScript n { y with state := .collected }))) := by
  unfold collect
  rw [hv, h]
  refine ⟨fun e => ?_, fun e => ?_, fun e => ?_, fun e => ?_⟩
  · simp only [e]
    rfl
  · simp only [e]
    rfl
  · simp only [List.mem_cons, List.not_mem_nil, or_false] at e
    rcases e with e | e | e | e <;> simp only [e] <;> rfl
  · simp only [e]
    rfl

/-- No script of a record is ISSUED or SUBMITTED (R112). -/
theorem noneHolds_iff : (s.boundScripts j).all (fun y => !y.2.holds) = true ↔
    ∀ y ∈ s.scripts, y.2.slot = j → y.2.state ∉ [ScriptState.issued, .submitted] := by
  simp only [List.all_eq_true, mem_boundScripts, and_imp, Script.holds, Bool.not_eq_true', Bool.or_eq_false_iff,
    beq_eq_false_iff_ne, List.mem_cons, List.not_mem_nil, or_false, not_or]

theorem clearanceTest_clears (hc : s.cand j = some c) (hst : c.state = .done) (hx : c.currentSeat = some x)
    (hfree : ∀ y ∈ s.scripts, y.2.slot = j → y.2.state ∉ [ScriptState.issued, .submitted]) :
    clearanceTest j s = { freedDesk x s with
      roll := tableInsert s.roll j { c with state := .cleared, currentSeat := none } } := by
  have hflags : c.clearedBy false = { c with state := .cleared, currentSeat := none } := by
    simp [Candidate.clearedBy]
  have hclear := clearRecord_eq (j := j) hx false s s.roll s.scripts
  rw [hflags] at hclear
  have hscripts : (freedDesk x s).scripts = s.scripts := by rw [(freedDesk_givenUp (.refl s x)).frame]
  unfold clearanceTest
  rw [hc]
  dsimp only
  rw [if_pos ⟨hst, noneHolds_iff.2 hfree⟩]
  refine hclear.trans ?_
  rw [State.withRecords, ← hscripts]

theorem clearanceTest_keeps (hc : s.cand j = some c)
    (hout : ∃ y ∈ s.scripts, y.2.slot = j ∧ y.2.state ∈ [ScriptState.issued, .submitted]) : clearanceTest j s = s := by
  unfold clearanceTest
  rw [hc]
  refine if_neg ?_
  rintro ⟨-, hall⟩
  obtain ⟨y, hy, hj, hst⟩ := hout
  exact noneHolds_iff.1 hall y hy hj hst

theorem freedDesk_scripts (x : Nat) (s : State) (sc : Table Script) :
    freedDesk x { s with scripts := sc } = { freedDesk x s with scripts := sc } := by
  have h := offerDesk_withRecords x .blank (s.setSeat x (s.seat x).freed) s.roll sc
  have hroll : (freedDesk x s).roll = s.roll := by rw [(freedDesk_givenUp (.refl s x)).frame]
  refine Eq.trans h ?_
  show (freedDesk x s).withRecords s.roll sc = _
  rw [State.withRecords, ← hroll]

/-- A door refuses a badge (R52, R55). -/
theorem deliverTap_refused {why : Notice} (h : s.doorDecision n = .refused why) (m : Fin 4) :
    deliverPost m (.tap n) s = { offerPost m (.notice why) s with
      rooms := s.rooms.set m { s.rooms[m] with lastRefusal := some ⟨n, why, s.hallTime⟩ },
      attention := (s.raise .admission).attention } := doorTap_refused h m

/-- Settles O47. -/
theorem postEventsAreTaken : Obligations.PostEventsAreTaken := by
  refine ⟨fun s m door frame a ev z w h hline hparse hz hw => ?_, fun u m up d => ⟨rfl, rfl, fun ev hev => ?_⟩,
    fun u m n target found admitted absent htarget hfound hadmitted habsent => ?_, fun u m n => ?_⟩
  · rw [exec_deskAnswer h hline hparse, ← hz]
    refine ⟨fun ha => ?_, fun ha hb => ?_⟩
    · have hpost : z.segments[m].postStatus = s.segments[m].postStatus := by rw [hz, segment_setSegment_self]
      rw [goodAnswer, if_pos ha, postAnswered_eq, hpost, ← hw]
    · have hseats : z.boundSeat m a = s.boundSeat m a := by rw [hz]; rfl
      rw [goodAnswer, if_neg (by omega), hseats, hb, discardEvent_eq]
  · simp only [List.mem_cons, List.not_mem_nil, or_false] at hev
    rcases hev with rfl | rfl | rfl | rfl <;> rfl
  · have hsome : (u.doorTarget n).isSome = true ↔ found := by
      rw [doorTarget_isSome_iff, hfound]
      simp only [htarget]
    have hin : (u.chain n).any (u.inStates admittedStates) = true ↔ admitted := by
      rw [any_inStates_iff, hadmitted]
      rfl
    have habs : (u.chain n).any (u.inStates [.absent]) = true ↔ absent := by
      rw [any_inStates_iff, habsent]
      simp only [List.mem_singleton]
    refine ⟨fun why hwhy => deliverTap_refused ?_ m, fun j c before after hn hl hno hfilter hchain hbefore hc ht => ?_⟩
    · rcases hwhy with ⟨rfl, hnone⟩ | ⟨hn, hl, hwhy⟩
      · exact doorDecision_notEnrolled hnone
      rw [doorDecision_eq hn hl]
      rcases hwhy with ⟨rfl, ha, hf⟩ | ⟨rfl, ha, hf⟩ | ⟨rfl, ha, hf, hb⟩ | ⟨rfl, ha, hf, hb⟩ | ⟨rfl, ha, hf, hfilter⟩
      · rw [if_pos (hin.2 ha), if_pos (hsome.2 hf)]
      · rw [if_pos (hin.2 ha), if_neg (mt hsome.1 hf)]
      · rw [if_neg (mt hin.1 ha), Option.not_isSome_iff_eq_none.1 (mt hsome.1 hf), Option.elim_none, if_pos (habs.2 hb)]
      · rw [if_neg (mt hin.1 ha), Option.not_isSome_iff_eq_none.1 (mt hsome.1 hf), Option.elim_none,
          if_neg (mt habs.1 hb)]
      · obtain ⟨j, hj⟩ := Option.isSome_iff_exists.1 (hsome.2 hf)
        rw [if_neg (mt hin.1 ha), hj]
        exact doorSeat_filtered hfilter j
    · have hjt := (htarget c).1 ht
      have htake : u.doorTarget n = some j := doorTarget_first hchain (fun i hi => by
          rw [← Bool.not_eq_true, admittable_iff]
          rintro ⟨d, hd, hstate, hopen⟩
          exact hbefore i d hi hd ((htarget d).2 ⟨hstate, hopen⟩)) (admittable_iff.2 ⟨c, hc, hjt⟩)
      have hdec : u.doorDecision n = (u.seatFor c).elim (.refused .noSeat) (.admitted j) := by
        rw [doorDecision_eq hn hl, if_neg (mt hin.1 hno), htake]
        exact doorSeat_eq hfilter hc
      refine ⟨fun hnone => deliverTap_refused (by rw [hdec, hnone]; rfl) m, fun x p g _ hx hp hg => ?_⟩
      subst hg
      obtain ⟨d, ha⟩ := seatRecord_admits (j := j) (some m) hp hjt.2
      refine ⟨_, d, doorTap_admitted (by rw [hdec, hx]; rfl) hc m, ha.frame, ha.queues, ha.others, ha.seat, fun w hw =>
        ⟨fun hg => ?_, fun pe budget hg hpe hb => ?_⟩, ha.postHead, fun hg => (ha.early hg).2, fun hg => ?_⟩
      · subst hw
        exact (ha.early hg).1
      · subst hw
        obtain ⟨b, rfl, hlate⟩ := ha.late hg
        cases hpe
        cases hb
        exact hlate
      · obtain ⟨b, rfl, -⟩ := ha.late hg
        rfl
  · refine ⟨fun why notice hwhy => ?_, fun y c hv hy hc => ⟨fun hst => ?_, fun x p new hst hdone hx hp hm hnew => ?_⟩⟩
    · rcases hwhy with ⟨rfl, rfl, hv⟩ | ⟨rfl, rfl, hv, hnone⟩ | ⟨hv, y, hy, hwhy⟩
      · exact (collect_badSerial hv).trans (refuseCollect_eq ..)
      · exact (collect_unknown hv hnone).trans (refuseCollect_eq ..)
      obtain ⟨hissued, hvoided, -, hsubmitted⟩ := collect_script (m := m) hv hy
      rcases hwhy with ⟨rfl, rfl, hst⟩ | ⟨rfl, rfl, hst⟩ | ⟨rfl, rfl, hst, hroom⟩
      · exact (hissued hst).trans (refuseCollect_eq ..)
      · exact (hvoided hst).trans (refuseCollect_eq ..)
      · refine (hsubmitted hst).trans ((if_pos ?_).trans (refuseCollect_eq ..))
        rw [Ne, roomOfCand_eq_some]
        rintro ⟨c, x, p, hc, hx, hp, hm⟩
        exact hroom c x p hc hx hp hm
    · have hseat : deliverPost m (.collect n) u = collectSeat m y.slot u := (collect_script hv hy).2.2.1 hst
      rw [hseat]
      exact ⟨fun x p hx hp => collectSeat_seated hc hx hp, fun r hx hr => collectSeat_unseated hc hx hr⟩
    · subst hnew
      have htaken : deliverPost m (.collect n) u = collectSeat m y.slot (clearanceTest y.slot
          { u with scripts := tableInsert u.scripts n { y with state := .collected } }) :=
        ((collect_script hv hy).2.2.2 hst).trans (if_neg (not_not.2 (roomOfCand_eq_some.2 ⟨c, x, p, hc, hx, hp, hm⟩)))
      refine ⟨fun hout => ?_, fun r _ hr hfree => ?_⟩
      · rw [htaken, clearanceTest_keeps
          (s := { u with scripts := tableInsert u.scripts n { y with state := .collected } }) hc hout]
        exact collectSeat_seated hc hx hp
      · have hgiven := freedDesk_givenUp (State.Told.refl u x)
        rw [htaken, clearanceTest_clears (s := { u with scripts := tableInsert u.scripts n { y with state := .collected } }) hc
          hdone hx hfree, freedDesk_scripts]
        refine ⟨{ freedDesk x u with
          scripts := tableInsert u.scripts n { y with state := .collected },
          roll := tableInsert u.roll y.slot { c with state := .cleared, currentSeat := none } },
          collectSeat_unseated (c := { c with state := .cleared, currentSeat := none }) (cand_setCand_self u y.slot _)
            rfl hr, ?_, rfl, rfl, hgiven.queues, hgiven.others,
          hgiven.seat⟩
        conv_lhs => rw [hgiven.frame]

end Sys2Proof.Machine
end

