-- ==== Sys2Proof/Proofs/Seats.lean ====
section
/-! SUPPORT. The laws of seats and records (R43, R48), over what they read of a state: where each record stands, what each
seat holds, and the rooms' separation modes. One change is looked at: a record leaves one seat for another or for none,
as its state changes. -/

namespace Sys2Proof.Machine

variable {s t : State} {i j x y : Nat} {k : Fin 8} {p q : SeatPlace} {st : SeatState}

/-! ### What the laws read -/

/-- Where a candidate record stands: what the laws of seats and custody read of it. -/
structure Stand where
  number : Nat
  sitting : Fin 8
  state : CandState
  seat : Option Nat

def Candidate.stand (c : Candidate) : Stand := ⟨c.number, c.sitting, c.state, c.currentSeat⟩

/-- What the laws read of a seat record. -/
structure Chair where
  place : Option SeatPlace
  state : SeatState
  candidate : Option Nat

def Seat.chair (v : Seat) : Chair := ⟨v.place, v.state, v.candidate⟩

/-- The records, the seats and the separation modes, as the laws read them. -/
structure Hall where
  records : Nat → Option Stand
  chairs : Nat → Chair
  separations : Fin 4 → Separation

def State.hall (s : State) : Hall :=
  { records := fun j => (s.cand j).map Candidate.stand, chairs := fun x => (s.seat x).chair,
    separations := fun m => s.rooms[m].separation }

/-- A chair that is taken or freed keeps its place. -/
def Chair.taken (st : SeatState) (j : Nat) (v : Chair) : Chair := { v with state := st, candidate := some j }

def Chair.freed (v : Chair) : Chair := { v with state := .free, candidate := none }

theorem records_eq_some {c : Stand} : s.hall.records j = some c ↔ ∃ d, s.cand j = some d ∧ d.stand = c := by
  simp [State.hall]

theorem records_of_cand {c : Candidate} (h : s.cand j = some c) : s.hall.records j = some c.stand :=
  records_eq_some.2 ⟨c, h, rfl⟩

namespace Hall

variable {h : Hall} {c d : Stand}

/-! ### Seats and records agree (R43) -/

/-- Seats and records agree (R43). -/
structure Seated (h : Hall) : Prop where
  named : ∀ {x j}, (h.chairs x).candidate = some j → ∃ c, h.records j = some c ∧ c.seat = some x
  filled : ∀ {x}, (h.chairs x).state ∈ [SeatState.held, .occupied, .vacated] → (h.chairs x).candidate ≠ none
  placed : ∀ {x}, (h.chairs x).state ≠ .outOfUse → (h.chairs x).place ≠ none
  held : ∀ {j c x}, h.records j = some c → c.seat = some x →
    (h.chairs x).candidate = some j ∧ c.state.seatState = some (h.chairs x).state
  waiting : ∀ {j c}, h.records j = some c → c.seat = none → c.state ∉ admittedStates

/-- A record of a sitting has the seat as its current seat. -/
def Sits (h : Hall) (x : Nat) (k : Fin 8) : Prop := ∃ j c, h.records j = some c ∧ c.seat = some x ∧ c.sitting = k

/-- A place has no neighbour, but for an exempt seat, that a record of the sitting has (R48). -/
def Clear (h : Hall) (exempt : Option Nat) (p : SeatPlace) (k : Fin 8) : Prop :=
  ∀ y q, exempt ≠ some y → h.Sits y k → (h.chairs y).place = some q → neighbourPlaces (h.separations p.room) p q = false

/-- No two records of one sitting have neighbouring seats (R48). -/
def Spaced (h : Hall) : Prop :=
  ∀ x p k, h.Sits x k → (h.chairs x).place = some p → h.Clear (some x) p k

theorem seatState_used {c : CandState} (hst : c.seatState = some st) : st ∈ [SeatState.held, .occupied, .vacated] := by
  cases c <;> cases hst <;> decide

theorem Seated.used (hs : h.Seated) (hx : (h.chairs x).candidate = some j) :
    (h.chairs x).state ∈ [SeatState.held, .occupied, .vacated] := by
  obtain ⟨c, hc, hcx⟩ := hs.named hx
  exact seatState_used (hs.held hc hcx).2

/-- A seat that no record has is OUT_OF_USE or FREE, without a candidate. -/
theorem Seated.unused (hs : h.Seated) (hx : (h.chairs x).state ∉ [SeatState.held, .occupied, .vacated]) :
    (h.chairs x).candidate = none := by
  cases hc : (h.chairs x).candidate with
  | none => rfl
  | some j => exact absurd (hs.used hc) hx

/-! ### A record moves -/

/-- Record `j` stands as `d`: it leaves the seat it had, and the seat that `d` names, if any, takes it. -/
def moved (h : Hall) (j : Nat) (old : Option Nat) (d : Stand) (st : SeatState) : Hall :=
  { h with
    records := fun i => if i = j then some d else h.records i
    chairs := fun x =>
      if d.seat = some x then (h.chairs x).taken st j else if old = some x then (h.chairs x).freed else h.chairs x }

/-- Record `j` stands as `d`, and every seat is as before. -/
def restated (h : Hall) (j : Nat) (d : Stand) : Hall :=
  { h with records := fun i => if i = j then some d else h.records i }

/-- What R43 and R48 ask of a record that moves. -/
structure Moves (h : Hall) (j : Nat) (c d : Stand) (st : SeatState) : Prop where
  was : h.records j = some c
  sitting : d.sitting = c.sitting
  takes : ∀ {x}, d.seat = some x → d.state.seatState = some st
  leaves : d.seat = none → d.state ∉ admittedStates
  free : ∀ {x}, d.seat = some x → c.seat ≠ some x →
    (h.chairs x).state = .free ∧ ∃ p, (h.chairs x).place = some p ∧ h.Clear c.seat p c.sitting

theorem moved_place (h : Hall) (j : Nat) (old : Option Nat) (d : Stand) (st : SeatState) (x : Nat) :
    ((h.moved j old d st).chairs x).place = (h.chairs x).place := by
  unfold moved
  dsimp only
  split
  · rfl
  · split <;> rfl

theorem moved_record_self (h : Hall) (j : Nat) (old : Option Nat) (d : Stand) (st : SeatState) :
    (h.moved j old d st).records j = some d := if_pos rfl

theorem moved_record_of_ne (h : Hall) {j : Nat} (old : Option Nat) (d : Stand) (st : SeatState) (hi : i ≠ j) :
    (h.moved j old d st).records i = h.records i := if_neg hi

/-- A record other than the one that moves, and that one's seat, new or old, are apart. -/
theorem Seated.seat_apart (hs : h.Seated) (m : h.Moves j c d st) {e : Stand} (hi : i ≠ j) (he : h.records i = some e)
    (hx : e.seat = some x) : d.seat ≠ some x ∧ c.seat ≠ some x := by
  have hheld := (hs.held he hx).1
  have hold : c.seat ≠ some x := fun hc => hi (Option.some.inj (hheld.symm.trans (hs.held m.was hc).1))
  refine ⟨fun hd => ?_, hold⟩
  have hused := hs.used hheld
  rw [(m.free hd hold).1] at hused
  simp at hused

theorem moved_chair_of_apart (hd : d.seat ≠ some x) {old : Option Nat} (ho : old ≠ some x) :
    (h.moved j old d st).chairs x = h.chairs x := (if_neg hd).trans (if_neg ho)

theorem moved_chair_taken (hd : d.seat = some x) (old : Option Nat) :
    (h.moved j old d st).chairs x = (h.chairs x).taken st j := if_pos hd

theorem moved_chair_freed (hd : d.seat ≠ some x) {old : Option Nat} (ho : old = some x) :
    (h.moved j old d st).chairs x = (h.chairs x).freed := (if_neg hd).trans (if_pos ho)

theorem Seated.moved (hs : h.Seated) (m : h.Moves j c d st) : (h.moved j c.seat d st).Seated where
  named := by
    intro x i hx
    by_cases hd : d.seat = some x
    · rw [moved_chair_taken hd] at hx
      cases hx
      exact ⟨d, moved_record_self .., hd⟩
    by_cases hc : c.seat = some x
    · rw [moved_chair_freed hd hc] at hx
      cases hx
    rw [moved_chair_of_apart hd hc] at hx
    obtain ⟨e, he, hex⟩ := hs.named hx
    have hi : i ≠ j := fun hij => hc (by rw [← hex, Option.some.inj (m.was.symm.trans (hij ▸ he))])
    exact ⟨e, (moved_record_of_ne h _ _ _ hi).trans he, hex⟩
  filled := by
    intro x hx
    by_cases hd : d.seat = some x
    · rw [moved_chair_taken hd]
      exact Option.some_ne_none j
    by_cases hc : c.seat = some x
    · rw [moved_chair_freed hd hc] at hx
      simp [Chair.freed] at hx
    · rw [moved_chair_of_apart hd hc] at hx ⊢
      exact hs.filled hx
  placed := by
    intro x hx
    rw [moved_place]
    by_cases hc : c.seat = some x
    · refine hs.placed fun e => ?_
      have hused := seatState_used (hs.held m.was hc).2
      rw [e] at hused
      simp at hused
    by_cases hd : d.seat = some x
    · obtain ⟨-, p, hp, -⟩ := m.free hd hc
      rw [hp]
      exact Option.some_ne_none p
    · rw [moved_chair_of_apart hd hc] at hx
      exact hs.placed hx
  held := by
    intro i e x he hx
    by_cases hi : i = j
    · subst hi
      cases (moved_record_self ..).symm.trans he
      rw [moved_chair_taken hx]
      exact ⟨rfl, m.takes hx⟩
    · have he' := (moved_record_of_ne h _ _ _ hi).symm.trans he
      obtain ⟨hd, hc⟩ := hs.seat_apart m hi he' hx
      rw [moved_chair_of_apart hd hc]
      exact hs.held he' hx
  waiting := by
    intro i e he hx
    by_cases hi : i = j
    · subst hi
      cases (moved_record_self ..).symm.trans he
      exact m.leaves hx
    · exact hs.waiting ((moved_record_of_ne h _ _ _ hi).symm.trans he) hx

/-- A record that moves to another seat finds it clear of the others of its sitting. -/
theorem Spaced.clear_of_moves (hs : h.Seated) (hp : h.Spaced) (m : h.Moves j c d st) (hx : d.seat = some x)
    (hplace : (h.chairs x).place = some p) {e : Stand} (hi : i ≠ j) (he : h.records i = some e) (hy : e.seat = some y)
    (hk : e.sitting = c.sitting) (hq : (h.chairs y).place = some q) :
    neighbourPlaces (h.separations p.room) p q = false := by
  have hsits : h.Sits y c.sitting := ⟨i, e, he, hy, hk⟩
  obtain ⟨hdy, hcy⟩ := hs.seat_apart m hi he hy
  by_cases hc : c.seat = some x
  · exact hp x p c.sitting ⟨j, c, m.was, hc, rfl⟩ hplace y q (fun hxy => hdy (by rw [hx, hxy])) hsits hq
  · obtain ⟨-, p', hp', hclear⟩ := m.free hx hc
    cases hplace.symm.trans hp'
    exact hclear y q hcy hsits hq

theorem neighbourPlaces_room {mode : Separation} (hn : neighbourPlaces mode p q = true) : p.room = q.room := by
  simp only [neighbourPlaces, Bool.and_eq_true, beq_iff_eq] at hn
  exact hn.1

theorem Spaced.moved (hs : h.Seated) (hp : h.Spaced) (m : h.Moves j c d st) : (h.moved j c.seat d st).Spaced := by
  rintro x p k ⟨i, e, he, hx, hk⟩ hplace y q hxy ⟨i', e', he', hy, hk'⟩ hq
  rw [moved_place] at hplace hq
  show neighbourPlaces (h.separations p.room) p q = false
  by_cases hi : i = j
  · by_cases hi' : i' = j
    · subst hi hi'
      rw [he] at he'
      cases he'
      exact absurd (by rw [← hx, hy]) hxy
    · subst hi
      cases (moved_record_self ..).symm.trans he
      exact Spaced.clear_of_moves hs hp m hx hplace hi' ((moved_record_of_ne h _ _ _ hi').symm.trans he') hy
        (by rw [hk', ← hk, m.sitting]) hq
  · have he1 := (moved_record_of_ne h _ _ _ hi).symm.trans he
    by_cases hi' : i' = j
    · subst hi'
      cases (moved_record_self ..).symm.trans he'
      have hback := Spaced.clear_of_moves hs hp m hy hq hi he1 hx (by rw [hk, ← hk', m.sitting]) hplace
      by_contra hn
      rw [Bool.not_eq_false] at hn
      rw [neighbourPlaces_comm, ← neighbourPlaces_room hn, hn] at hback
      cases hback
    · exact hp x p k ⟨i, e, he1, hx, hk⟩ hplace y q hxy
        ⟨i', e', (moved_record_of_ne h _ _ _ hi').symm.trans he', hy, hk'⟩ hq

/-- A record that stays at its seat, with a state of the same seat state, takes nothing that it has not. -/
theorem Seated.restated_eq_moved (hs : h.Seated) (hc : h.records j = some c) (hd : d.seat = c.seat)
    (hst : c.seat = some x → d.state.seatState = c.state.seatState ∧ c.state.seatState = some st)
    (hx : ∀ y, c.seat = some y → y = x) : h.restated j d = h.moved j c.seat d st := by
  unfold Hall.restated Hall.moved
  congr 1
  funext y
  rw [hd]
  by_cases hy : c.seat = some y
  · obtain rfl := hx y hy
    obtain ⟨hcand, hstate⟩ := hs.held hc hy
    rw [if_pos hy, Chair.taken, ← hcand]
    rw [(hst hy).2] at hstate
    cases hstate
    rfl
  · rw [if_neg hy, if_neg hy]

theorem Seated.restates (hs : h.Seated) (hc : h.records j = some c) (hd : d.seat = c.seat) (hk : d.sitting = c.sitting)
    (hst : d.state.seatState = c.state.seatState) (hin : c.state ∈ admittedStates) :
    ∃ st, h.restated j d = h.moved j c.seat d st ∧ h.Moves j c d st := by
  cases hx : c.seat with
  | none => exact absurd hin (hs.waiting hc hx)
  | some x =>
    obtain ⟨-, hstate⟩ := hs.held hc hx
    refine ⟨(h.chairs x).state, ?_, hc, hk, fun _ => hst.trans hstate, fun hnone => ?_, fun hdx hcx => ?_⟩
    · rw [← hx]
      exact hs.restated_eq_moved hc hd (x := x) (fun _ => ⟨hst, hstate⟩) fun y hy => Option.some.inj (hy.symm.trans hx)
    · rw [hd, hx] at hnone
      cases hnone
    · exact absurd (hd.symm.trans hdx) hcx

/-- A record that is admitted and stays at its seat (R67, R70, R73). -/
theorem Seated.restated (hs : h.Seated) (hc : h.records j = some c) (hd : d.seat = c.seat) (hk : d.sitting = c.sitting)
    (hst : d.state.seatState = c.state.seatState) (hin : c.state ∈ admittedStates) :
    (h.restated j d).Seated ∧ (h.Spaced → (h.restated j d).Spaced) := by
  obtain ⟨st, heq, m⟩ := hs.restates hc hd hk hst hin
  rw [heq]
  exact ⟨hs.moved m, fun hp => hp.moved hs m⟩

/-- The last of two moves of a record counts, where the first left it at its seat or at none. -/
theorem moved_moved (h : Hall) (j : Nat) {old : Option Nat} {d : Stand} (e : Stand) (st st' : SeatState)
    (hd : d.seat = old) (he : e.seat = none) :
    (h.moved j old d st).moved j d.seat e st' = h.moved j old e st' := by
  have hno : ∀ x, e.seat ≠ some x := fun x hx => by rw [he] at hx; cases hx
  unfold moved
  congr 1
  · funext i
    dsimp only
    split <;> rfl
  · funext x
    dsimp only
    rw [if_neg (hno x), if_neg (hno x)]
    by_cases hx : old = some x
    · rw [if_pos (hd.trans hx), if_pos (hd.trans hx), if_pos hx]
      rfl
    · rw [if_neg (fun e => hx (hd.symm.trans e)), if_neg (fun e => hx (hd.symm.trans e)), if_neg hx]

end Hall

/-! ### The laws of the state -/

theorem seatAgrees_iff (x : Nat) (v : Seat) : s.seatAgrees x v = true ↔
    (v.state ∉ [SeatState.held, .occupied, .vacated] → v.candidate = none) ∧
    (v.state ≠ .outOfUse → v.place ≠ none) ∧
    (v.state ∈ [SeatState.held, .occupied, .vacated] → ∃ j c, v.candidate = some j ∧ s.cand j = some c ∧
      c.currentSeat = some x ∧ c.state.seatState = some v.state) := by
  unfold State.seatAgrees
  cases hst : v.state with
  | outOfUse => simp
  | free => simp [Option.isSome_iff_ne_none, and_comm]
  | held | occupied | vacated =>
    cases hv : v.candidate with
    | none => simp
    | some j => cases hc : s.cand j <;> simp [hc, Option.isSome_iff_ne_none]

theorem recordAgrees_iff (j : Nat) (c : Candidate) : s.recordAgrees j c = true ↔
    (∀ x, c.currentSeat = some x → (s.seat x).candidate = some j ∧ c.state.seatState = some (s.seat x).state) ∧
    (c.currentSeat = none → c.state ∉ admittedStates) := by
  unfold State.recordAgrees
  cases c.currentSeat <;> simp

theorem undefined_agrees (s : State) (x : Nat) : s.seatAgrees x Seat.undefinedRecord = true := rfl

/-- The law of seats and records, read seat by seat and record by record (R43). -/
theorem seatLaw_iff (hs : s.Stores) : s.seatLaw = true ↔ s.hall.Seated := by
  have hseats : s.seats.all (fun y => s.seatAgrees y.1 y.2) = true ↔ ∀ x, s.seatAgrees x (s.seat x) = true := by
    rw [List.all_eq_true]
    constructor
    · intro hall x
      by_cases hx : s.seat x = Seat.undefinedRecord
      · rw [hx]; exact undefined_agrees s x
      · exact hall (x, s.seat x) ((mem_seats_iff hs).2 ⟨rfl, hx⟩)
    · intro hall y hy
      rw [← seat_of_mem hs hy]
      exact hall y.1
  have hroll : s.roll.all (fun y => s.recordAgrees y.1 y.2) = true ↔
      ∀ j c, s.cand j = some c → s.recordAgrees j c = true := by
    rw [List.all_eq_true]
    exact ⟨fun hall j c hc => hall (j, c) ((hs.cand_iff j c).1 hc), fun hall y hy => hall y.1 y.2 ((hs.cand_iff ..).2 hy)⟩
  rw [State.seatLaw, Bool.and_eq_true, hseats, hroll]
  simp only [seatAgrees_iff, recordAgrees_iff]
  constructor
  · rintro ⟨hx, hj⟩
    refine ⟨fun {x j} hc => ?_, fun {x} hu => ?_, fun {x} => (hx x).2.1, fun {j c x} hc hcx => ?_, fun {j c} hc hcx => ?_⟩
    · have hu : (s.seat x).state ∈ [SeatState.held, .occupied, .vacated] := by
        by_contra hu
        exact Option.some_ne_none j (hc.symm.trans ((hx x).1 hu))
      obtain ⟨j', c, hj', hc', hcx, -⟩ := (hx x).2.2 hu
      cases hj'.symm.trans hc
      exact ⟨c.stand, records_of_cand hc', hcx⟩
    · obtain ⟨j, c, hj', -⟩ := (hx x).2.2 hu
      exact fun e => Option.some_ne_none j (hj'.symm.trans e)
    · obtain ⟨d, hd, rfl⟩ := records_eq_some.1 hc
      exact (hj j d hd).1 x hcx
    · obtain ⟨d, hd, rfl⟩ := records_eq_some.1 hc
      exact (hj j d hd).2 hcx
  · intro hl
    refine ⟨fun x => ⟨fun hu => hl.unused hu, hl.placed, fun hu => ?_⟩, fun j c hc =>
      ⟨fun x hx => hl.held (records_of_cand hc) hx, fun hx => hl.waiting (records_of_cand hc) hx⟩⟩
    obtain ⟨j, hj⟩ := Option.ne_none_iff_exists'.1 (hl.filled hu)
    obtain ⟨c, hc, hcx⟩ := hl.named hj
    have hheld := hl.held hc hcx
    obtain ⟨d, hd, rfl⟩ := records_eq_some.1 hc
    exact ⟨j, d, hj, hd, hcx, hheld.2⟩

/-- A place that is not blocked is clear of the others of the sitting (R48). -/
theorem blocked_eq_false (hs : s.Stores) (hl : s.hall.Seated) {exempt : Option Nat} :
    s.blocked exempt p k = false ↔ s.hall.Clear exempt p k := by
  rw [← Bool.not_eq_true, blocked_iff]
  constructor
  · rintro hno y q hne ⟨j, c, hc, hcy, hk⟩ hq
    by_contra hn
    rw [Bool.not_eq_false] at hn
    have hheld := hl.held hc hcy
    obtain ⟨d, hd, rfl⟩ := records_eq_some.1 hc
    have hused : (s.seat y).state ∈ [SeatState.held, .occupied, .vacated] := Hall.seatState_used hheld.2
    exact hno ⟨(y, s.seat y), q, j, d, mem_seats_of_state hs (fun e => by simp [e] at hused), hne, hused, hheld.1, hd, hk,
      hq, hn⟩
  · rintro hclear ⟨y, q, j, d, hy, hne, hused, hj, hd, hk, hq, hn⟩
    rw [← seat_of_mem hs hy] at hused hj hq
    obtain ⟨c, hc, hcx⟩ := hl.named hj
    cases (records_of_cand hd).symm.trans hc
    have hfar := hclear y.1 q hne ⟨j, d.stand, hc, hcx, hk⟩ hq
    exact Bool.false_ne_true (hfar.symm.trans hn)

theorem sittingAt_iff (hl : s.hall.Seated) :
    s.sittingAt (s.seat x) = some k ↔ s.hall.Sits x k := by
  unfold State.sittingAt
  constructor
  · intro h
    split at h
    · simp only [Option.map_eq_some_iff, Option.bind_eq_some_iff] at h
      obtain ⟨c, ⟨j, hj, hc⟩, hk⟩ := h
      obtain ⟨d, hd, hdx⟩ := hl.named hj
      cases (records_of_cand hc).symm.trans hd
      exact ⟨j, c.stand, hd, hdx, hk⟩
    · cases h
  · rintro ⟨j, c, hc, hcx, hk⟩
    obtain ⟨hj, hst⟩ := hl.held hc hcx
    obtain ⟨d, hd, rfl⟩ := records_eq_some.1 hc
    have hj : (s.seat x).candidate = some j := hj
    rw [if_pos ((inUse_iff _).2 (Hall.seatState_used hst)), hj, Option.bind_some, hd, Option.map_some]
    exact congrArg some hk

/-- The law of separation, read of the records (R48). -/
theorem separationLaw_iff (hs : s.Stores) (hl : s.hall.Seated) : s.separationLaw = true ↔ s.hall.Spaced := by
  have hone : ∀ x, (match (s.seat x).place, s.sittingAt (s.seat x) with
      | some p, some k => !s.blocked (some x) p k
      | _, _ => true) = true ↔ ∀ p k, s.hall.Sits x k → (s.seat x).place = some p → s.hall.Clear (some x) p k := by
    intro x
    simp only [← sittingAt_iff hl, ← blocked_eq_false hs hl]
    cases (s.seat x).place <;> cases s.sittingAt (s.seat x) <;> simp
  rw [State.separationLaw, List.all_eq_true]
  constructor
  · intro hall x p k hsits hp
    have hx := (sittingAt_iff hl).2 hsits
    have hmem : (x, s.seat x) ∈ s.seats := (mem_seats_iff hs).2 ⟨rfl, fun e => by rw [e] at hx; cases hx⟩
    exact (hone x).1 (hall _ hmem) p k hsits hp
  · intro hall y hy
    have hy' := (hone y.1).2 fun p k hsits hp => hall y.1 p k hsits hp
    rw [seat_of_mem hs hy] at hy'
    exact hy'

end Sys2Proof.Machine
end

