-- ==== Sys2Proof/Proofs/Accounts.lean ====
section
/-! SUPPORT. The law of records and scripts (R52, R107, R112), over the census of a state: the hall, the scripts and the
sheet in hand. Scripts change their state in place; a DONE record is settled by the clearance test. -/

namespace Sys2Proof.Machine

variable {s t : State} {i j k' : Nat} {x y : Script} {g : Nat → Script → Script}

/-! ### The census -/

/-- What the laws of seats and custody read of a state. -/
structure Census where
  hall : Hall
  scripts : Table Script
  hand : Option SheetInHand

def State.census (s : State) : Census := ⟨s.hall, s.scripts, s.hand⟩

/-! ### Scripts changed in place -/

/-- Every script is rewritten in place, by its serial. -/
def recast (g : Nat → Script → Script) (t : Table Script) : Table Script := t.map fun y => (y.1, g y.1 y.2)

/-- The script of one serial is rewritten. -/
def only (d : Nat) (f : Script → Script) (e : Nat) (y : Script) : Script := if e = d then f y else y

theorem tableFind_recast (g : Nat → Script → Script) (t : Table Script) (d : Nat) :
    tableFind (recast g t) d = (tableFind t d).map (g d) := by
  induction t with
  | nil => rfl
  | cons y t ih =>
    obtain ⟨e, y⟩ := y
    simp only [recast, List.map_cons, tableFind] at ih ⊢
    split
    · next h => rw [h]; rfl
    · exact ih

theorem recast_congr {g g' : Nat → Script → Script} {t : Table Script} (h : ∀ y ∈ t, g y.1 y.2 = g' y.1 y.2) :
    recast g t = recast g' t := List.map_congr_left fun y hy => by rw [h y hy]

theorem recast_id (t : Table Script) : recast (fun _ y => y) t = t := List.map_id _

theorem insert_eq_recast {t : Table Script} (h : tableSorted t = true) {d : Nat} (hx : tableFind t d = some x)
    (f : Script → Script) : tableInsert t d (f x) = recast (only d f) t := by
  induction t with
  | nil => cases hx
  | cons y t ih =>
    obtain ⟨e, y⟩ := y
    obtain ⟨hlt, ht⟩ := (tableSorted_cons _ _).1 h
    simp only [tableFind] at hx
    by_cases hed : e = d
    · subst hed
      rw [if_pos rfl] at hx
      cases hx
      have hrest : recast (only e f) t = t := (recast_congr fun z hz =>
        if_neg (Nat.ne_of_gt (hlt z hz))).trans (recast_id t)
      simp only [tableInsert, lt_irrefl, if_false, if_true]
      exact congrArg₂ List.cons (by simp [only]) hrest.symm
    · rw [if_neg hed] at hx
      have hlt' : e < d := hlt (d, x) (mem_of_tableFind _ _ _ hx)
      simp only [tableInsert, Nat.lt_asymm hlt', Ne.symm hed, if_false]
      rw [ih ht hx]
      exact congrArg₂ List.cons (by simp [only, hed]) rfl

theorem mem_recast {t : Table Script} {z : Nat × Script} : z ∈ recast g t ↔ ∃ y ∈ t, z = (y.1, g y.1 y.2) := by
  simp [recast, eq_comm]

theorem filter_recast {t : Table Script} (hslot : ∀ y ∈ t, (g y.1 y.2).slot = y.2.slot) (j : Nat) :
    (recast g t).filter (fun y => y.2.slot == j) = recast g (t.filter fun y => y.2.slot == j) := by
  rw [recast, List.filter_map, recast]
  refine congrArg (List.map _) (List.filter_congr fun y hy => ?_)
  simp only [Function.comp, hslot y hy]

theorem length_recast (t : Table Script) : (recast g t).length = t.length := List.length_map ..

/-- A serial that is not listed is inserted among the others. -/
theorem insert_perm {t : Table Script} {d : Nat} (h : tableFind t d = none) (x : Script) :
    (tableInsert t d x).Perm ((d, x) :: t) := by
  induction t with
  | nil => exact .refl _
  | cons y t ih =>
    obtain ⟨e, y⟩ := y
    simp only [tableFind] at h
    split at h
    · cases h
    next hed =>
    simp only [tableInsert]
    split
    · exact .refl _
    · rw [if_neg (Ne.symm hed)]
      exact ((ih h).cons _).trans (.swap ..)

/-! ### Which scripts fit a record (R111 to R113) -/

/-- The states of a script that has been handed in and not voided (R113). -/
def returnedStates : List ScriptState := [.collected, .marking, .marked, .handed]

/-- Two states of a script that mean the same for its record (R112). -/
def ScriptState.SameRole (a b : ScriptState) : Prop := a = b ∨ (a ∈ returnedStates ∧ b ∈ returnedStates)

theorem fits_returned {a : ScriptState} (h : a ∈ returnedStates) (c : CandState) :
    a.fits c = (c == .done || c == .cleared) := by
  simp only [returnedStates, List.mem_cons, List.not_mem_nil, or_false] at h
  rcases h with rfl | rfl | rfl | rfl <;> rfl

theorem ScriptState.SameRole.fits {a b : ScriptState} (h : a.SameRole b) (c : CandState) : a.fits c = b.fits c := by
  rcases h with rfl | ⟨ha, hb⟩
  · rfl
  · rw [fits_returned ha, fits_returned hb]

theorem ScriptState.SameRole.submitted {a b : ScriptState} (h : a.SameRole b) (ha : a = .submitted) : b = .submitted := by
  rcases h with rfl | ⟨h', -⟩
  · exact ha
  · rw [ha] at h'
    exact absurd h' (by decide)

theorem fits_expected (a : ScriptState) : a.fits .expected = false := by cases a <;> rfl

theorem fits_writing {a : ScriptState} {c : CandState} (hc : c ∈ writingStates) :
    a.fits c = true ↔ a = .issued ∨ a = .voided := by
  simp only [writingStates, List.mem_cons, List.not_mem_nil, or_false] at hc
  rcases hc with rfl | rfl | rfl <;> cases a <;> decide

theorem fits_done {a : ScriptState} : a.fits .done = true ↔ a ≠ .issued := by cases a <;> decide

theorem fits_cleared {a : ScriptState} : a.fits .cleared = true ↔ a ≠ .issued ∧ a ≠ .submitted := by cases a <;> decide

theorem done_of_fits {c : CandState} (h : ScriptState.fits .submitted c = true) : c = .done := beq_iff_eq.1 h

theorem holds_iff (y : Script) : y.holds = true ↔ y.state = .issued ∨ y.state = .submitted := by
  simp [Script.holds]

theorem cleared_not_admitted : CandState.cleared ∉ admittedStates := by decide

/-- The record as it is CLEARED (R112). -/
def Stand.cleared (c : Stand) : Stand := { c with state := .cleared, seat := none }

namespace Census

variable {a b : Census} {c d : Stand}

/-! ### Records and their scripts agree (R52, R107, R112) -/

/-- What the law asks of records and scripts but for DONE: one admitted record a number (R52), each script bound to a live
record of its sitting that it fits, at most four to a record (R107, R112), and the sheet in hand being marked (R143). -/
structure Bound (a : Census) : Prop where
  single : ∀ {i j c d}, i ≠ j → a.hall.records i = some c → a.hall.records j = some d → c.number = d.number →
    c.state ∈ admittedStates → d.state ∉ admittedStates
  bound : ∀ y ∈ a.scripts, ∃ c, a.hall.records y.2.slot = some c ∧ c.sitting = y.2.sitting ∧ y.2.state.fits c.state = true
  few : ∀ j, (a.scripts.filter fun y => y.2.slot == j).length ≤ 4
  hand : ∀ h, a.hand = some h → ∃ y, tableFind a.scripts h.serial = some y ∧ y.state = .marking

/-- The record in a slot has a SUBMITTED script where it is DONE (R112). -/
def Finished (a : Census) (j : Nat) : Prop :=
  ∀ c, a.hall.records j = some c → c.state = .done → ∃ y ∈ a.scripts, y.2.slot = j ∧ y.2.state = .submitted

/-- Records and scripts agree. -/
structure Accounted (a : Census) : Prop extends Bound a where
  done : ∀ j, a.Finished j

theorem Bound.fits (h : a.Bound) {y : Nat × Script} (hy : y ∈ a.scripts) (hc : a.hall.records y.2.slot = some c) :
    y.2.state.fits c.state = true := by
  obtain ⟨c', hc', -, hf⟩ := h.bound y hy
  cases hc.symm.trans hc'
  exact hf

/-! ### Records and scripts that change in place -/

/-- A change of scripts in place, and of records that keep their number and sitting, under which every script still fits
its record and no second record of a number is admitted. -/
structure Carried (a b : Census) (g : Nat → Script → Script) : Prop where
  scripts : b.scripts = recast g a.scripts
  slot : ∀ y ∈ a.scripts, (g y.1 y.2).slot = y.2.slot
  sitting : ∀ y ∈ a.scripts, (g y.1 y.2).sitting = y.2.sitting
  back : ∀ {i d}, b.hall.records i = some d →
    ∃ c, a.hall.records i = some c ∧ d.number = c.number ∧ d.sitting = c.sitting
  live : ∀ {i c}, a.hall.records i = some c → ∃ d, b.hall.records i = some d
  alone : ∀ {i d}, b.hall.records i = some d → d.state ∈ admittedStates →
    (∃ c, a.hall.records i = some c ∧ c.state ∈ admittedStates) ∨
    ∀ i' d', i' ≠ i → b.hall.records i' = some d' → d'.number = d.number → d'.state ∉ admittedStates
  fits : ∀ y ∈ a.scripts, ∀ {c d}, a.hall.records y.2.slot = some c → b.hall.records y.2.slot = some d →
    y.2.state.fits c.state = true → (g y.1 y.2).state.fits d.state = true
  hand : ∀ h, b.hand = some h → ∃ y, tableFind b.scripts h.serial = some y ∧ y.state = .marking

theorem Bound.carried (hb : a.Bound) (m : a.Carried b g) : b.Bound where
  single := by
    intro i i' c d hi hc hd hn hcs hds
    obtain ⟨c₀, hc₀, hcn, -⟩ := m.back hc
    obtain ⟨d₀, hd₀, hdn, -⟩ := m.back hd
    rcases m.alone hc hcs with ⟨c', hc', hcs'⟩ | hno
    · rcases m.alone hd hds with ⟨d', hd', hds'⟩ | hno
      · cases hc₀.symm.trans hc'
        cases hd₀.symm.trans hd'
        exact hb.single hi hc₀ hd₀ (hcn.symm.trans (hn.trans hdn)) hcs' hds'
      · exact hno i c hi hc hn hcs
    · exact hno i' d (Ne.symm hi) hd hn.symm hds
  bound := by
    intro z hz
    rw [m.scripts] at hz
    obtain ⟨y, hy, rfl⟩ := mem_recast.1 hz
    obtain ⟨c, hc, hk, hf⟩ := hb.bound y hy
    obtain ⟨d, hd⟩ := m.live hc
    obtain ⟨c', hc', -, hdk⟩ := m.back hd
    cases hc.symm.trans hc'
    dsimp only
    rw [m.slot y hy, m.sitting y hy]
    exact ⟨d, hd, hdk.trans hk, m.fits y hy hc hd hf⟩
  few := by
    intro j
    rw [m.scripts, filter_recast m.slot, length_recast]
    exact hb.few j
  hand := m.hand

theorem Finished.carried (hf : a.Finished i) (m : a.Carried b g)
    (hrec : ∀ d, b.hall.records i = some d → d.state = .done → ∃ c, a.hall.records i = some c ∧ c.state = .done)
    (hsub : ∀ y ∈ a.scripts, y.2.slot = i → y.2.state = .submitted → (g y.1 y.2).state = .submitted) : b.Finished i := by
  intro d hd hdone
  obtain ⟨c, hc, hcdone⟩ := hrec d hd hdone
  obtain ⟨y, hy, hslot, hst⟩ := hf c hc hcdone
  have hmem : (y.1, g y.1 y.2) ∈ b.scripts := by
    rw [m.scripts]
    exact mem_recast.2 ⟨y, hy, rfl⟩
  exact ⟨_, hmem, (m.slot y hy).trans hslot, hsub y hy hslot hst⟩

/-- The sheet in hand is still being marked. -/
theorem Bound.hand_kept (hb : a.Bound) (hscripts : b.scripts = recast g a.scripts) (hhand : b.hand = a.hand)
    (hmark : ∀ y ∈ a.scripts, y.2.state = .marking → (g y.1 y.2).state = .marking) :
    ∀ h, b.hand = some h → ∃ y, tableFind b.scripts h.serial = some y ∧ y.state = .marking := by
  intro h hh
  obtain ⟨y, hy, hst⟩ := hb.hand h (hhand ▸ hh)
  exact ⟨g h.serial y, by rw [hscripts, tableFind_recast, hy]; rfl, hmark (h.serial, y) (mem_of_tableFind _ _ _ hy) hst⟩

/-- One record changes, and scripts in place. -/
theorem Carried.of_record (hc : a.hall.records j = some c)
    (hrec : ∀ i, b.hall.records i = if i = j then some d else a.hall.records i)
    (hn : d.number = c.number) (hk : d.sitting = c.sitting)
    (halone : d.state ∈ admittedStates → c.state ∈ admittedStates ∨
      ∀ i e, i ≠ j → a.hall.records i = some e → e.number = c.number → e.state ∉ admittedStates)
    (hscripts : b.scripts = recast g a.scripts) (hslot : ∀ y ∈ a.scripts, (g y.1 y.2).slot = y.2.slot)
    (hsitting : ∀ y ∈ a.scripts, (g y.1 y.2).sitting = y.2.sitting)
    (hrole : ∀ y ∈ a.scripts, y.2.slot ≠ j → y.2.state.SameRole (g y.1 y.2).state)
    (hfits : ∀ y ∈ a.scripts, y.2.slot = j → y.2.state.fits c.state = true → (g y.1 y.2).state.fits d.state = true)
    (hhand : ∀ h, b.hand = some h → ∃ y, tableFind b.scripts h.serial = some y ∧ y.state = .marking) :
    a.Carried b g where
  scripts := hscripts
  slot := hslot
  sitting := hsitting
  back := by
    intro i e he
    rw [hrec] at he
    split at he
    · next hi => cases he; exact ⟨c, hi ▸ hc, hn, hk⟩
    · exact ⟨e, he, rfl, rfl⟩
  live := by
    intro i e he
    rw [hrec]
    split
    · exact ⟨d, rfl⟩
    · exact ⟨e, he⟩
  alone := by
    intro i e he hst
    rw [hrec] at he
    split at he
    · next hi =>
      cases he
      rcases halone hst with hcs | hno
      · exact .inl ⟨c, hi ▸ hc, hcs⟩
      · refine .inr fun i' d' hi' hd' hn' => hno i' d' (fun e => hi' (e.trans hi.symm)) ?_ (hn'.trans hn)
        rwa [hrec, if_neg (fun e => hi' (e.trans hi.symm))] at hd'
    · exact .inl ⟨e, he, hst⟩
  fits := by
    intro y hy c' d' hc' hd' hf
    by_cases hj : y.2.slot = j
    · rw [hrec, if_pos hj] at hd'
      cases hd'
      cases hc.symm.trans (hj ▸ hc')
      exact hfits y hy hj hf
    · rw [hrec, if_neg hj] at hd'
      cases hc'.symm.trans hd'
      rwa [← (hrole y hy hj).fits]
  hand := hhand

/-- One record changes, and the scripts are as they were (R53, R57, R58, R60, R67, R70, R73). -/
theorem Accounted.restated (ha : a.Accounted) (hc : a.hall.records j = some c)
    (hrec : ∀ i, b.hall.records i = if i = j then some d else a.hall.records i) (hn : d.number = c.number)
    (hk : d.sitting = c.sitting) (hscripts : b.scripts = a.scripts) (hhand : b.hand = a.hand)
    (halone : d.state ∈ admittedStates → c.state ∈ admittedStates ∨
      ∀ i e, i ≠ j → a.hall.records i = some e → e.number = c.number → e.state ∉ admittedStates)
    (hfits : ∀ st : ScriptState, st.fits c.state = true → st.fits d.state = true)
    (hdone : d.state = .done → c.state = .done) : b.Accounted := by
  have hcast : b.scripts = recast (fun _ y => y) a.scripts := hscripts.trans (recast_id _).symm
  have m : a.Carried b (fun _ y => y) := .of_record hc hrec hn hk halone hcast (fun _ _ => rfl) (fun _ _ => rfl)
    (fun _ _ _ => .inl rfl) (fun _ _ _ => hfits _) (ha.toBound.hand_kept hcast hhand fun _ _ h => h)
  refine ⟨ha.toBound.carried m, fun i => (ha.done i).carried m (fun e he hst => ?_) fun _ _ _ h => h⟩
  rw [hrec] at he
  split at he
  · next hi => cases he; exact ⟨c, hi ▸ hc, hdone hst⟩
  · exact ⟨e, he, hst⟩

/-- Scripts change their states within their roles, and every record stands as it did (R116, R117, R143, R145, R154,
R160). -/
theorem Accounted.recast (ha : a.Accounted) (hrec : b.hall.records = a.hall.records)
    (hscripts : b.scripts = Machine.recast g a.scripts) (hslot : ∀ y ∈ a.scripts, (g y.1 y.2).slot = y.2.slot)
    (hsitting : ∀ y ∈ a.scripts, (g y.1 y.2).sitting = y.2.sitting)
    (hrole : ∀ y ∈ a.scripts, y.2.state.SameRole (g y.1 y.2).state)
    (hhand : ∀ h, b.hand = some h → ∃ y, tableFind b.scripts h.serial = some y ∧ y.state = .marking) : b.Accounted := by
  have m : a.Carried b g := ⟨hscripts, hslot, hsitting, fun {i d} hd => ⟨d, hrec ▸ hd, rfl, rfl⟩,
    fun {i c} hc => ⟨c, hrec ▸ hc⟩, fun {i d} hd hst => .inl ⟨d, hrec ▸ hd, hst⟩, fun y hy c d hc hd hf => by
      rw [hrec] at hd
      cases hc.symm.trans hd
      rwa [← (hrole y hy).fits], hhand⟩
  exact ⟨ha.toBound.carried m, fun i => (ha.done i).carried m (fun d hd hst => ⟨d, hrec ▸ hd, hst⟩)
    fun y hy _ hst => (hrole y hy).submitted hst⟩

/-- Records, scripts and the sheet in hand are as they were. -/
theorem Accounted.congr (ha : a.Accounted) (hrec : b.hall.records = a.hall.records) (hscripts : b.scripts = a.scripts)
    (hhand : b.hand = a.hand) : b.Accounted :=
  ha.recast (g := fun _ y => y) hrec (hscripts.trans (recast_id _).symm) (fun _ _ => rfl) (fun _ _ => rfl)
    (fun _ _ => .inl rfl) (by rw [hhand, hscripts]; exact ha.hand)

/-! ### The clearance test (R112) -/

/-- No script of the record in a slot is ISSUED or SUBMITTED (R112). -/
def NoneHolds (a : Census) (j : Nat) : Prop := ∀ y ∈ a.scripts, y.2.slot = j → y.2.holds = false

/-- The record in a slot is CLEARED and gives its seat up (R112). -/
def cleared (a : Census) (j : Nat) (c : Stand) : Census :=
  { a with hall := a.hall.moved j c.seat c.cleared .free }

/-- A census after the clearance test of a record: a DONE one that no script holds is CLEARED (R112). -/
def Settles (a : Census) (j : Nat) (b : Census) : Prop :=
  (∃ c, a.hall.records j = some c ∧ c.state = .done ∧ a.NoneHolds j ∧ b = a.cleared j c) ∨
  (b = a ∧ ∀ c, a.hall.records j = some c → c.state = .done → ¬ a.NoneHolds j)

theorem Settles.seated (h : a.Settles j b) (hs : a.hall.Seated) :
    b.hall.Seated ∧ (a.hall.Spaced → b.hall.Spaced) := by
  rcases h with ⟨c, hc, -, -, rfl⟩ | ⟨rfl, -⟩
  · have m : a.hall.Moves j c c.cleared .free := ⟨hc, rfl, nofun, fun _ => cleared_not_admitted, nofun⟩
    exact ⟨hs.moved m, fun hp => hp.moved hs m⟩
  · exact ⟨hs, id⟩

/-- The clearance test brings a record into agreement with its scripts, whatever they have become. -/
theorem Settles.accounted (h : a.Settles j b) (hb : a.Bound) (hothers : ∀ i, i ≠ j → a.Finished i) : b.Accounted := by
  rcases h with ⟨c, hc, hst, hnone, rfl⟩ | ⟨rfl, hkept⟩
  · have hcast : (a.cleared j c).scripts = Machine.recast (fun _ y => y) a.scripts := (recast_id _).symm
    have m : a.Carried (a.cleared j c) (fun _ y => y) := by
      refine .of_record hc (fun _ => rfl) rfl rfl (fun h => absurd h cleared_not_admitted) hcast (fun _ _ => rfl)
        (fun _ _ => rfl) (fun _ _ _ => .inl rfl) (fun y hy hj hf => ?_) (hb.hand_kept hcast rfl fun _ _ h => h)
      have hno : ¬ y.2.holds = true := by rw [hnone y hy hj]; exact Bool.false_ne_true
      rw [holds_iff, not_or] at hno
      exact fits_cleared.2 hno
    refine ⟨hb.carried m, fun i e he hdone => ?_⟩
    by_cases hi : i = j
    · subst hi
      cases (Hall.moved_record_self ..).symm.trans he
      cases hdone
    · exact (hothers i hi).carried m (fun d hd hdone => ⟨d, (Hall.moved_record_of_ne _ _ _ _ hi).symm.trans hd, hdone⟩)
        (fun _ _ _ h => h) e he hdone
  · refine ⟨hb, fun i c hc hdone => ?_⟩
    by_cases hi : i = j
    · subst hi
      have hsome := hkept c hc hdone
      simp only [NoneHolds, not_forall, Bool.not_eq_false] at hsome
      obtain ⟨y, hy, hslot, hholds⟩ := hsome
      have hf := hb.fits hy (hslot ▸ hc)
      rw [hdone, fits_done] at hf
      exact ⟨y, hy, hslot, ((holds_iff _).1 hholds).resolve_left hf⟩
    · exact hothers i hi c hc hdone

/-! ### Records and scripts that come and go -/

/-- A new EXPECTED record stands in a free slot (R5). -/
theorem Accounted.enrolled (ha : a.Accounted) (hj : a.hall.records j = none)
    (hrec : ∀ i, b.hall.records i = if i = j then some d else a.hall.records i) (hst : d.state = .expected)
    (hscripts : b.scripts = a.scripts) (hhand : b.hand = a.hand) : b.Accounted where
  single := by
    intro i i' c e hi hc he hn hcs
    rw [hrec] at hc he
    split at hc
    · cases hc; rw [hst] at hcs; exact absurd hcs (by decide)
    · split at he
      · cases he; rw [hst]; decide
      · exact ha.single hi hc he hn hcs
  bound := by
    intro y hy
    rw [hscripts] at hy
    obtain ⟨c, hc, hk, hf⟩ := ha.bound y hy
    refine ⟨c, ?_, hk, hf⟩
    rw [hrec, if_neg fun e => by rw [e, hj] at hc; cases hc]
    exact hc
  few := hscripts ▸ ha.few
  hand := by
    rw [hscripts, hhand]
    exact ha.hand
  done := by
    intro i c hc hdone
    rw [hrec] at hc
    rw [hscripts]
    split at hc
    · cases hc; rw [hst] at hdone; cases hdone
    · exact ha.done i c hc hdone

/-- A record is removed with its scripts, none of them being marked (R10, R11). -/
theorem Accounted.retired (ha : a.Accounted)
    (hrec : ∀ i, b.hall.records i = if i = j then none else a.hall.records i)
    (hscripts : b.scripts = a.scripts.filter (fun y => y.2.slot != j)) (hhand : b.hand = a.hand)
    (hsorted : tableSorted a.scripts = true) (hsorted' : tableSorted b.scripts = true)
    (hmark : ∀ y ∈ a.scripts, y.2.slot = j → y.2.state ≠ .marking) : b.Accounted where
  single := by
    intro i i' c e hi hc he hn hcs
    rw [hrec] at hc he
    split at hc
    · cases hc
    · split at he
      · cases he
      · exact ha.single hi hc he hn hcs
  bound := by
    intro y hy
    rw [hscripts, List.mem_filter, bne_iff_ne] at hy
    obtain ⟨c, hc, hk, hf⟩ := ha.bound y hy.1
    exact ⟨c, by rw [hrec, if_neg hy.2]; exact hc, hk, hf⟩
  few := by
    intro i
    refine le_trans (List.Sublist.length_le ?_) (ha.few i)
    rw [hscripts]
    exact (List.filter_sublist).filter _
  hand := by
    intro h hh
    obtain ⟨y, hy, hst⟩ := ha.hand h (hhand ▸ hh)
    refine ⟨y, ?_, hst⟩
    have hmem := (tableFind_iff_mem hsorted _ _).1 hy
    rw [tableFind_iff_mem hsorted', hscripts, List.mem_filter, bne_iff_ne]
    exact ⟨hmem, fun e => hmark _ hmem e hst⟩
  done := by
    intro i c hc hdone
    rw [hrec] at hc
    split at hc
    · cases hc
    next hi =>
    obtain ⟨y, hy, hslot, hst⟩ := ha.done i c hc hdone
    refine ⟨y, ?_, hslot, hst⟩
    rw [hscripts, List.mem_filter, bne_iff_ne]
    exact ⟨hy, fun e => hi (hslot.symm.trans e)⟩

/-- A script is issued to a record that writes and has fewer than four (R109). -/
theorem Accounted.issued (ha : a.Accounted) {e : Nat} (he : tableFind a.scripts e = none)
    (hc : a.hall.records x.slot = some c) (hk : c.sitting = x.sitting) (hst : c.state ∈ writingStates)
    (hx : x.state = .issued) (hfew : (a.scripts.filter fun y => y.2.slot == x.slot).length < 4)
    (hrec : b.hall.records = a.hall.records) (hscripts : b.scripts = tableInsert a.scripts e x)
    (hhand : b.hand = a.hand) : b.Accounted := by
  have hperm := insert_perm he x
  have hmem : ∀ y, y ∈ b.scripts ↔ y = (e, x) ∨ y ∈ a.scripts := fun y => by
    rw [hscripts, hperm.mem_iff, List.mem_cons]
  refine ⟨⟨?_, fun y hy => ?_, fun j => ?_, fun h hh => ?_⟩, fun j d hd hdone => ?_⟩
  · rw [hrec]
    exact ha.single
  · rw [hrec]
    rcases (hmem y).1 hy with rfl | hy
    · exact ⟨c, hc, hk, (fits_writing hst).2 (.inl hx)⟩
    · exact ha.bound y hy
  · rw [hscripts, (hperm.filter _).length_eq, List.filter_cons]
    split
    · next hj =>
      have hslot : x.slot = j := by simpa using hj
      subst hslot
      exact hfew
    · exact ha.few j
  · obtain ⟨y, hy, hmark⟩ := ha.hand h (hhand ▸ hh)
    refine ⟨y, ?_, hmark⟩
    rw [hscripts, tableFind_insert_ne _ _ fun e' => by rw [e', he] at hy; cases hy]
    exact hy
  · obtain ⟨y, hy, hslot, hsub⟩ := ha.done j d (hrec ▸ hd) hdone
    exact ⟨y, (hmem y).2 (.inr hy), hslot, hsub⟩

end Census

/-! ### The law of the state -/

theorem oneAdmitted_iff (x y : Nat × Candidate) : oneAdmitted x y = true ↔
    (x.2.number = y.2.number → x.2.state ∈ admittedStates → y.2.state ∉ admittedStates) := by
  simp [oneAdmitted, imp_iff_not_or, or_assoc]

/-- One admitted record a number, slot by slot (R52). -/
theorem oneAdmitted_pairwise (hs : s.Stores) : s.roll.Pairwise (fun x y => oneAdmitted x y = true) ↔
    ∀ i j c d, i ≠ j → s.cand i = some c → s.cand j = some d → c.number = d.number → c.state ∈ admittedStates →
      d.state ∉ admittedStates := by
  have hne : s.roll.Pairwise (fun x y => x.1 ≠ y.1) :=
    (List.pairwise_map.1 (of_decide_eq_true hs.roll.1)).imp fun h => Nat.ne_of_lt h
  have hsymm : ∀ x y : Nat × Candidate, oneAdmitted x y = true → oneAdmitted y x = true := fun x y h => by
    rw [oneAdmitted_iff] at h ⊢
    exact fun hn hy hx => h hn.symm hx hy
  constructor
  · intro h i j c d hij hc hd
    have hne' : (i, c) ≠ (j, d) := fun e => hij (congrArg Prod.fst e)
    have : Std.Symm fun x y : Nat × Candidate => oneAdmitted x y = true := ⟨hsymm⟩
    exact (oneAdmitted_iff _ _).1 (h.forall ((hs.cand_iff i c).1 hc) ((hs.cand_iff j d).1 hd) hne')
  · intro h
    exact hne.imp_of_mem fun {x y} hx hy hxy => (oneAdmitted_iff x y).2
      (h x.1 y.1 x.2 y.2 hxy ((hs.cand_iff ..).2 hx) ((hs.cand_iff ..).2 hy))

/-- The scripts of each record, as the law looks at them (R107, R112). -/
theorem all_roll_scripts (hs : s.Stores) : s.roll.all (fun x =>
      decide ((s.boundScripts x.1).length ≤ Config.scriptsPerRecord) &&
      (x.2.state != .done || (s.boundScripts x.1).any (fun y => y.2.state == .submitted))) = true ↔
    ∀ j c, s.cand j = some c → (s.boundScripts j).length ≤ 4 ∧
      (c.state = .done → ∃ y ∈ s.scripts, y.2.slot = j ∧ y.2.state = .submitted) := by
  have hone : ∀ j (c : Candidate), (decide ((s.boundScripts j).length ≤ Config.scriptsPerRecord) &&
      (c.state != .done || (s.boundScripts j).any (fun y => y.2.state == .submitted))) = true ↔
      ((s.boundScripts j).length ≤ 4 ∧
        (c.state = .done → ∃ y ∈ s.scripts, y.2.slot = j ∧ y.2.state = .submitted)) := fun j c => by
    rw [Bool.and_eq_true, decide_eq_true_eq, Bool.or_eq_true, bne_iff_ne, any_boundScripts, ← imp_iff_not_or]
    simp only [beq_iff_eq, Config.scriptsPerRecord]
  rw [List.all_eq_true]
  exact ⟨fun h j c hc => (hone j c).1 (h (j, c) ((hs.cand_iff j c).1 hc)),
    fun h x hx => (hone x.1 x.2).2 (h x.1 x.2 ((hs.cand_iff ..).2 hx))⟩

/-- The law of the candidates, with the sheet in hand, is that of the census (R52, R107, R112). -/
theorem candidateLaw_iff (hs : s.Stores) : (s.candidateLaw = true ∧
      ∀ h, s.hand = some h → ∃ y, s.script h.serial = some y ∧ y.state = .marking) ↔ s.census.Accounted := by
  rw [State.candidateLaw, Bool.and_eq_true, Bool.and_eq_true, decide_eq_true_eq, oneAdmitted_pairwise hs,
    all_roll_scripts hs, List.all_eq_true]
  constructor
  · rintro ⟨⟨⟨hsingle, hbound⟩, hfew⟩, hhand⟩
    have hbound' : ∀ y ∈ s.scripts, ∃ c, s.cand y.2.slot = some c ∧ c.sitting = y.2.sitting ∧
        y.2.state.fits c.state = true := fun y hy => by
      have h := hbound y hy
      cases hc : s.cand y.2.slot with
      | none => simp [hc] at h
      | some c => exact ⟨c, rfl, by simpa [hc] using h⟩
    refine ⟨⟨fun {i j c d} hij hc hd => ?_, fun y hy => ?_, fun j => ?_, hhand⟩, fun j c hc => ?_⟩
    · obtain ⟨c', hc', rfl⟩ := records_eq_some.1 hc
      obtain ⟨d', hd', rfl⟩ := records_eq_some.1 hd
      exact hsingle i j c' d' hij hc' hd'
    · obtain ⟨c, hc, hk, hf⟩ := hbound' y hy
      exact ⟨c.stand, records_of_cand hc, hk, hf⟩
    · cases hc : s.cand j with
      | some c => exact (hfew j c hc).1
      | none =>
        have hnil : s.boundScripts j = [] := List.eq_nil_iff_forall_not_mem.2 fun y hy => by
          obtain ⟨hy, hj⟩ := mem_boundScripts.1 hy
          obtain ⟨c, hc', -⟩ := hbound' y hy
          rw [hj, hc] at hc'
          cases hc'
        exact (congrArg List.length hnil).trans_le (Nat.zero_le 4)
    · obtain ⟨c', hc', rfl⟩ := records_eq_some.1 hc
      exact (hfew j c' hc').2
  · intro ha
    refine ⟨⟨⟨fun i j c d hij hc hd => ha.single hij (records_of_cand hc) (records_of_cand hd), fun y hy => ?_⟩,
      fun j c hc => ⟨ha.few j, ha.done j c.stand (records_of_cand hc)⟩⟩, ha.hand⟩
    obtain ⟨c, hc, hk, hf⟩ := ha.bound y hy
    obtain ⟨c', hc', rfl⟩ := records_eq_some.1 hc
    rw [hc']
    exact Bool.and_eq_true_iff.2 ⟨beq_iff_eq.2 hk, hf⟩

end Sys2Proof.Machine
end

