-- ==== Sys2Proof/Proofs/CensusFrames.lean ====
section
/-! SUPPORT. What the operations on the state do to the census: a record or a seat that is written, scripts that change in
place, and the many that leave it. -/

namespace Sys2Proof.Machine

variable {s t : State} {i j x : Nat} {c d : Candidate} {v : Seat} {k : Fin 8} {m : Fin 4}

/-! ### Two censuses agree -/

theorem census_congr (hcand : ∀ j, (t.cand j).map Candidate.stand = (s.cand j).map Candidate.stand)
    (hseat : ∀ x, (t.seat x).chair = (s.seat x).chair)
    (hroom : ∀ m : Fin 4, t.rooms[m].separation = s.rooms[m].separation) (hscripts : t.scripts = s.scripts) (hhand : t.hand = s.hand) : t.census = s.census := by
  unfold State.census State.hall
  rw [funext hcand, funext hseat, funext hroom, hscripts, hhand]

theorem chair_of_butStale {v w : Seat} (h : v.butStale = w.butStale) : v.chair = w.chair :=
  (congrArg Seat.chair h :)

theorem State.Spoken.census (h : s.Spoken t) : t.census = s.census :=
  census_congr (fun j => congrArg _ (h.cand j)) (fun x => chair_of_butStale (h.seats x)) (fun m => by rw [h.desks])
    (by rw [h.desks]) (by rw [h.desks])

theorem takeInTurn_census {ι : Type} (is : List ι) (f : ι → State → State)
    (h : ∀ (i : ι) (s : State), (f i s).census = s.census) (s : State) : (takeInTurn is f s).census = s.census :=
  takeInTurn_invariant (fun t => t.census = s.census) is f (fun i t ht => (h i t).trans ht) s rfl

/-! ### The updates that the census does not see -/

@[simp] theorem setSegment_census (s : State) (m : Fin 4) (g : Segment) : (s.setSegment m g).census = s.census := rfl
@[simp] theorem setSitting_census (s : State) (k : Fin 8) (g : Sitting) : (s.setSitting k g).census = s.census := rfl
@[simp] theorem setIntake_census (s : State) (k : Intake) : (s.setIntake k).census = s.census := rfl
@[simp] theorem raise_census (s : State) (g : CauseGroup) : (s.raise g).census = s.census := rfl
@[simp] theorem custodyRefused_census (d : Nat) (why : CustodyReason) (m : Fin 4) (a : Nat) (s : State) :
    (s.custodyRefused d why m a).census = s.census := rfl

@[simp] theorem reportFault_census (s : State) (cls : FaultClass) (d : FaultDetail) :
    (s.reportFault cls d).census = s.census := by
  unfold State.reportFault
  split <;> rfl

/-- A room that keeps its separation mode. -/
theorem setRoom_census {r : RoomRecord} (h : r.separation = s.rooms[m].separation) :
    (s.setRoom m r).census = s.census := by
  refine census_congr (fun _ => rfl) (fun _ => rfl) (fun i => ?_) rfl rfl
  by_cases hi : m = i
  · subst hi
    simpa using h
  · have : m.val ≠ i.val := fun e => hi (Fin.ext e)
    simp [this]

/-! ### Records and seats that are written -/

/-- A seat's record is written. -/
def Hall.reseated (h : Hall) (x : Nat) (v : Chair) : Hall := { h with chairs := fun y => if y = x then v else h.chairs y }

theorem Hall.reseated_self (h : Hall) (x : Nat) : h.reseated x (h.chairs x) = h := by
  unfold Hall.reseated
  congr 1
  funext y
  split
  · next hy => rw [hy]
  · rfl

theorem Hall.restated_self {h : Hall} {e : Stand} (he : h.records j = some e) : h.restated j e = h := by
  unfold Hall.restated
  congr 1
  funext i
  split
  · next hi => rw [hi, he]
  · rfl

@[simp] theorem setCand_census (s : State) (j : Nat) (d : Candidate) :
    (s.setCand j d).census = { s.census with hall := s.census.hall.restated j d.stand } := by
  have hrecords : ∀ i, ((s.setCand j d).cand i).map Candidate.stand =
      if i = j then some d.stand else (s.cand i).map Candidate.stand := fun i => by
    rw [State.cand_setCand]
    split <;> rfl
  exact congrArg (fun r => (⟨⟨r, s.hall.chairs, s.hall.separations⟩, s.scripts, s.hand⟩ : Census)) (funext hrecords)

/-- A record that is written with its number, sitting, state and seat. -/
theorem setCand_sameStand_census (hc : s.cand j = some c) (hd : d.stand = c.stand) :
    (s.setCand j d).census = s.census := by
  rw [setCand_census, hd]
  exact congrArg (fun h => ({ s.census with hall := h } : Census)) (Hall.restated_self (records_of_cand hc))

/-- A seat record that is written is read, though it be that of a seat never defined. -/
theorem State.Stores.seat_setSeat (hs : s.Stores) (i : Nat) (v : Seat) (x : Nat) :
    (s.setSeat i v).seat x = if x = i then v else s.seat x := by
  by_cases hv : v = Seat.undefinedRecord
  · unfold State.setSeat State.seat
    rw [if_pos hv]
    dsimp only
    rw [find_erase hs.seats.1]
    split
    · exact hv.symm
    · rfl
  · exact Machine.seat_setSeat hv s i x

theorem setSeat_census_of (h : ∀ x, (s.setSeat i v).seat x = if x = i then v else s.seat x) :
    (s.setSeat i v).census = { s.census with hall := s.census.hall.reseated i v.chair } := by
  have hchairs : ∀ x, ((s.setSeat i v).seat x).chair = if x = i then v.chair else (s.seat x).chair := fun x => by
    rw [h]
    split <;> rfl
  unfold State.setSeat at hchairs ⊢
  exact congrArg (fun r => (⟨⟨s.hall.records, r, s.hall.separations⟩, s.scripts, s.hand⟩ : Census)) (funext hchairs)

theorem State.Stores.setSeat_census (hs : s.Stores) (i : Nat) (v : Seat) :
    (s.setSeat i v).census = { s.census with hall := s.census.hall.reseated i v.chair } := by
  refine setSeat_census_of fun x => ?_
  rw [hs.seat_setSeat]

/-- A seat that is written with its place, state and candidate. -/
theorem State.Stores.setSeat_sameChair_census (hs : s.Stores) (h : v.chair = (s.seat i).chair) :
    (s.setSeat i v).census = s.census := by
  rw [hs.setSeat_census, h]
  exact congrArg (fun h => ({ s.census with hall := h } : Census)) (s.hall.reseated_self i)

/-- Seats changed in place, each with its place, state and candidate. -/
theorem mapSeats_census {f : Seat → Seat} (hf : ∀ v, (f v).chair = v.chair) (s : State) :
    State.census { s with seats := s.seats.map (fun x => (x.1, f x.2)) } = s.census := by
  refine census_congr (fun _ => rfl) (fun x => ?_) (fun _ => rfl) rfl rfl
  unfold State.seat
  dsimp only
  rw [tableFind_map]
  cases tableFind s.seats x with
  | none => rfl
  | some v => exact hf v

theorem seat_written {w : Seat} (hw : w ≠ Seat.undefinedRecord) (s : State) (i : Nat) :
    (s.setSeat i w).census = { s.census with hall := s.census.hall.reseated i w.chair } := by
  refine setSeat_census_of fun x => ?_
  rw [Machine.seat_setSeat hw]

@[simp] theorem freeSeat_census (i : Nat) (s : State) :
    (freeSeat i s).census = { s.census with hall := s.census.hall.reseated i (s.census.hall.chairs i).freed } :=
  seat_written (freed_ne_undefined (s.seat i)) s i

@[simp] theorem takeSeat_census (i : Nat) (st : SeatState) (j : Nat) (s : State) :
    (takeSeat i st j s).census = { s.census with
      hall := s.census.hall.reseated i ((s.census.hall.chairs i).taken st j) } :=
  seat_written (takenAs_ne_undefined st j (s.seat i)) s i

/-! ### What the desks and posts are told -/

@[simp] theorem offerDesk_census (i : Nat) (w : ShowContent) (s : State) : (offerDesk i w s).census = s.census :=
  (offerDesk_spoken i w s).census

@[simp] theorem offerPost_census (m : Fin 4) (w : ShowContent) (s : State) : (offerPost m w s).census = s.census :=
  (offerPost_told m w s 0).spoken.census

@[simp] theorem showSeat_census (i : Nat) (c : Candidate) (s : State) : (showSeat i c s).census = s.census := by
  unfold showSeat
  split
  · exact offerDesk_census ..
  · rfl

@[simp] theorem postSeat_census (m : Fin 4) (i : Nat) (c : Candidate) (s : State) :
    (postSeat m i c s).census = s.census := by
  unfold postSeat
  split
  · exact offerPost_census ..
  · rfl

@[simp] theorem endAt_census (i : Nat) (c : Candidate) (s : State) : (endAt i c s).census = s.census := by
  unfold endAt
  split
  · exact offerDesk_census ..
  · rfl

@[simp] theorem showEnd_census (c : Candidate) (s : State) : (showEnd c s).census = s.census :=
  (showEnd_spoken c s).census

@[simp] theorem showEndOf_census (j : Nat) (s : State) : (showEndOf j s).census = s.census :=
  (showEndOf_spoken j s).census

@[simp] theorem showNotice_census (c : Candidate) (n : Notice) (s : State) : (showNotice c n s).census = s.census :=
  (showNotice_spoken c n s).census

@[simp] theorem showMovedEnd_census (c : Candidate) (s : State) : (showMovedEnd c s).census = s.census := by
  unfold showMovedEnd
  split <;> simp

@[simp] theorem announce_census (door : Option (Fin 4)) (i : Nat) (c : Candidate) (s : State) :
    (announce door i c s).census = s.census := by
  unfold announce
  split <;> simp

@[simp] theorem resyncDesk_census (i : Nat) (s : State) : (resyncDesk i s).census = s.census := by
  unfold resyncDesk
  repeat' split
  all_goals simp

@[simp] theorem kickSegment_census (m : Fin 4) (s : State) : (kickSegment m s).census = s.census := by
  unfold kickSegment
  split <;> rfl

@[simp] theorem unknownDesks_census (m : Fin 4) (s : State) : (unknownDesks m s).census = s.census := by
  refine mapSeats_census (fun v => ?_) s
  unfold Seat.contactLost
  repeat' split
  all_goals rfl

@[simp] theorem followEnabled_census (m : Fin 4) (was now : Bool) (s : State) :
    (followEnabled m was now s).census = s.census := by
  unfold followEnabled
  split <;> simp [startSegment, stopSegment]

@[simp] theorem clearSegment_census (m : Fin 4) (s : State) : (clearSegment m s).census = s.census := by
  have hmap := mapSeats_census (f := Seat.clearedQueue m s.segments[m].queue) (fun v => by
    unfold Seat.clearedQueue
    split <;> rfl) s
  simpa [clearSegment] using hmap

/-! ### The closing of a sitting, holds and personal times -/

@[simp] theorem releaseKey_census (k : Fin 8) (s : State) : (releaseKey k s).census = s.census := by
  unfold releaseKey
  split <;> rfl

@[simp] theorem closingTest_census (k : Fin 8) (s : State) : (closingTest k s).census = s.census := by
  unfold closingTest closeSitting
  split <;> simp

@[simp] theorem changeHold_census (k : Fin 8) (h : HoldSources) (s : State) : (changeHold k h s).census = s.census := by
  unfold changeHold
  split
  · exact takeInTurn_census _ _ showEndOf_census _
  · rfl

@[simp] theorem followHallHold_census (on : Bool) (k : Fin 8) (s : State) :
    (followHallHold on k s).census = s.census := by
  unfold followHallHold
  split <;> simp

@[simp] theorem holdFilterChange_census (s : State) : (holdFilterChange s).census = s.census := by
  unfold holdFilterChange changeFiltered
  split
  · rw [raise_census, takeInTurn_census eight _ (followHallHold_census _)]
    rfl
  · rfl

@[simp] theorem warningTest_census (j : Nat) (s : State) : (warningTest j s).census = s.census := by
  unfold warningTest
  split
  · rfl
  next hc =>
  split
  · exact ((raise_census ..).trans (showNotice_census ..)).trans (setCand_sameStand_census hc rfl)
  · rfl

@[simp] theorem extendRecord_census (k : Fin 8) (j : Nat) (s : State) : (extendRecord k j s).census = s.census := by
  unfold extendRecord
  split
  · rfl
  · next hc => exact (showEnd_census ..).trans (setCand_sameStand_census hc rfl)

theorem secondPassed_stand (g h : Sitting) (c : Candidate) : (c.secondPassed g h).stand = c.stand := rfl

@[simp] theorem accrueRest_census (before : Vector Sitting 8) (j : Nat) (s : State) :
    (accrueRest before j s).census = s.census := by
  unfold accrueRest
  split
  · rfl
  · next hc => exact setCand_sameStand_census hc (secondPassed_stand ..)

/-! ### The desks, the posts and the doors -/

@[simp] theorem deskIssueRefused_census (i d : Nat) (why : CustodyReason) (s : State) :
    (s.deskIssueRefused i d why).census = s.census := by
  unfold State.deskIssueRefused
  split <;> rfl

@[simp] theorem refuseCollect_census (m : Fin 4) (d : Nat) (why : CustodyReason) (s : State) :
    (refuseCollect m d why s).census = s.census := by simp [refuseCollect]

@[simp] theorem collectSeat_census (m : Fin 4) (j : Nat) (s : State) : (collectSeat m j s).census = s.census := by
  unfold collectSeat
  repeat' split
  all_goals simp

@[simp] theorem doorRefused_census (m : Fin 4) (n : Nat) (why : Notice) (s : State) :
    (doorRefused m n why s).census = s.census := by
  have hrooms : (offerPost m (.notice why) s).rooms = s.rooms := by rw [offerPost_desks]
  unfold doorRefused
  rw [raise_census, setRoom_census (by rw [hrooms]), offerPost_census]

@[simp] theorem wrongSeat_census (i n : Nat) (s : State) : (wrongSeat i n s).census = s.census := by
  unfold wrongSeat
  split
  · rfl
  next p _ =>
  have hrooms : (offerDesk i (.notice .wrongSeat) s).rooms = s.rooms := by rw [offerDesk_desks]
  rw [raise_census, setRoom_census (by rw [hrooms]), offerDesk_census]

@[simp] theorem confirmSeat_census (i : Nat) (s : State) : (confirmSeat i s).census = s.census := by
  unfold confirmSeat
  split
  · rfl
  · split
    · rfl
    · next hc => exact (showSeat_census ..).trans (setCand_sameStand_census hc rfl)

@[simp] theorem deskTap_census (i n : Nat) (s : State) : (deskTap i n s).census = s.census := by
  unfold deskTap
  split <;> simp

theorem deskHand_census (hs : s.Stores) (i : Nat) (up : Bool) : (deskHand i up s).census = s.census := by
  unfold deskHand
  split
  · rfl
  · exact hs.setSeat_sameChair_census (v := { s.seat i with handRaised := true }) rfl
  · exact hs.setSeat_sameChair_census rfl

theorem countMiss_census (hs : s.Stores) (m : Fin 4) (a : Nat) : (countMiss m a s).census = s.census := by
  unfold countMiss postMiss deskMiss
  dsimp only
  repeat' split
  all_goals first
    | rfl
    | exact hs.setSeat_sameChair_census rfl

theorem missed_census (hs : s.Stores) (m : Fin 4) (a : Nat) (failed : Bool) :
    (missed m a failed s).census = s.census := by
  have hreport : ∀ lost u, (reportMiss m a lost failed u).census = u.census := by
    intro lost u
    unfold reportMiss reportLost
    repeat' split
    all_goals simp
  unfold missed
  exact (hreport _ _).trans (countMiss_census hs m a)

theorem deskAnswered_census (hs : s.Stores) (i : Nat) : (deskAnswered i s).census = s.census := by
  unfold deskAnswered
  split
  · exact (resyncDesk_census ..).trans (hs.setSeat_sameChair_census rfl)
  · exact hs.setSeat_sameChair_census rfl

@[simp] theorem postAnswered_census (m : Fin 4) (s : State) : (postAnswered m s).census = s.census := by
  unfold postAnswered
  split <;> simp

@[simp] theorem discardEvent_census (e : DeskEvent) (s : State) : (discardEvent e s).census = s.census := by
  cases e <;> rfl

end Sys2Proof.Machine
end

