-- ==== Sys2Proof/Proofs/Turns.lean ====
section
/-! SUPPORT. Turns: changes that keep the laws of seats, of separation and of candidates, each with what it rests on
(R43, R48, R52, R107, R112). Most leave the census; a record changes its state where it sits, gives its seat up or takes
one; scripts change in place, and the clearance test settles a DONE record. -/

namespace Sys2Proof.Machine

variable {s t u : State} {i j x y : Nat} {c : Candidate} {d e : Stand} {st : SeatState} {k : Fin 8}
  {g : Nat → Script → Script}

/-! ### Changes of one record -/

namespace Hall

variable {h : Hall}

/-- A record that takes no seat gives up the one it had, if any. -/
theorem restated_reseated (h : Hall) (x : Nat) (hd : d.seat = none) (st : SeatState) :
    (h.restated j d).reseated x (h.chairs x).freed = h.moved j (some x) d st := by
  unfold restated reseated moved
  congr 1
  funext y
  dsimp only
  rw [if_neg fun e : d.seat = some y => by rw [hd] at e; cases e]
  by_cases hy : y = x
  · rw [if_pos hy, if_pos (congrArg some hy.symm), hy]
  · rw [if_neg hy, if_neg fun e => hy (Option.some.inj e).symm]

theorem restated_eq_moved (h : Hall) (j : Nat) (hd : d.seat = none) (st : SeatState) :
    h.restated j d = h.moved j none d st := by
  unfold restated moved
  congr 1
  funext y
  rw [if_neg fun e : d.seat = some y => by rw [hd] at e; cases e]
  exact (if_neg nofun).symm

/-- A record that had no seat, or that one, takes a seat. -/
theorem reseated_restated (h : Hall) (hd : d.seat = some x) {old : Option Nat} (hold : old = none ∨ old = some x) :
    (h.reseated x ((h.chairs x).taken st j)).restated j d = h.moved j old d st := by
  unfold restated reseated moved
  congr 1
  funext y
  dsimp only
  by_cases hy : y = x
  · rw [if_pos hy, if_pos (hd.trans (congrArg some hy.symm)), hy]
  · rw [if_neg hy, if_neg fun e => hy (Option.some.inj (hd.symm.trans e)).symm, if_neg]
    rintro e
    rcases hold with ho | ho
    · rw [ho] at e; cases e
    · exact hy (Option.some.inj (ho.symm.trans e)).symm

/-- A record leaves one seat for another. -/
theorem reseated_reseated_restated (h : Hall) (hd : d.seat = some x) :
    have u := h.reseated y (h.chairs y).freed
    (u.reseated x ((u.chairs x).taken st j)).restated j d = h.moved j (some y) d st := by
  intro u
  unfold u restated reseated moved
  congr 1
  funext z
  dsimp only
  by_cases hz : z = x
  · subst hz
    rw [if_pos rfl, if_pos hd]
    split
    · next hzy => rw [hzy]; rfl
    · rfl
  · rw [if_neg hz, if_neg fun e => hz (Option.some.inj (hd.symm.trans e)).symm]
    by_cases hy : z = y
    · rw [if_pos hy, if_pos (congrArg some hy.symm), hy]
    · rw [if_neg hy, if_neg fun e => hy (Option.some.inj e).symm]

/-- A record that gives its seat up and is not among those admitted. -/
theorem moves_leaving (hc : h.records j = some e) (hk : d.sitting = e.sitting) (hd : d.seat = none)
    (hst : d.state ∉ admittedStates) : h.Moves j e d st where
  was := hc
  sitting := hk
  takes hx := absurd (hd.symm.trans hx) nofun
  leaves _ := hst
  free hx := absurd (hd.symm.trans hx) nofun

end Hall

/-- How a record may come to stand, for the law of candidates: its state stays, or one who writes goes on writing, or one
who is EXPECTED takes another state, as the only one admitted of the number if it is admitted (R52). -/
inductive Census.MayStand (a : Census) (j : Nat) (c d : Stand) : Prop
  | stays (h : d.state = c.state)
  | writes (hc : c.state ∈ writingStates) (hd : d.state ∈ writingStates)
  | leaves (hc : c.state = .expected) (hd : d.state ≠ .done)
      (h : d.state ∈ admittedStates →
        ∀ i e, i ≠ j → a.hall.records i = some e → e.number = c.number → e.state ∉ admittedStates)

theorem admitted_of_writing {st : CandState} (h : st ∈ writingStates) : st ∈ admittedStates := by
  simp only [writingStates, List.mem_cons, List.not_mem_nil, or_false] at h
  rcases h with rfl | rfl | rfl <;> decide

theorem seatState_of_writing {st : CandState} (h : st ∈ writingStates) : st.seatState = some .occupied := by
  simp only [writingStates, List.mem_cons, List.not_mem_nil, or_false] at h
  rcases h with rfl | rfl | rfl <;> rfl

theorem done_not_writing : CandState.done ∉ writingStates := by decide

theorem Census.Accounted.mayStand {a b : Census} {c : Stand} (ha : a.Accounted) (hc : a.hall.records j = some c)
    (hm : a.MayStand j c d) (hrec : ∀ i, b.hall.records i = if i = j then some d else a.hall.records i)
    (hn : d.number = c.number) (hk : d.sitting = c.sitting) (hscripts : b.scripts = a.scripts) (hhand : b.hand = a.hand) :
    b.Accounted := by
  refine ha.restated hc hrec hn hk hscripts hhand ?_ ?_ ?_
  · intro hd
    cases hm with
    | stays h => exact .inl (h ▸ hd)
    | writes hc _ => exact .inl (admitted_of_writing hc)
    | leaves _ _ h => exact .inr (h hd)
  · intro y hf
    cases hm with
    | stays h => exact h ▸ hf
    | writes hc hd => exact (fits_writing hd).2 ((fits_writing hc).1 hf)
    | leaves hc => rw [hc, fits_expected] at hf; cases hf
  · intro hdone
    cases hm with
    | stays h => exact h ▸ hdone
    | writes _ hd => exact absurd (hdone ▸ hd) done_not_writing
    | leaves _ hd => exact absurd hdone hd

/-! ### Turns -/

/-- A change that keeps the law of the stores, that of the directory, and those of seats, separation and candidates. -/
structure State.Turn (s t : State) : Prop where
  stores : s.Stores → t.Stores
  ordered : s.Stores → s.Ordered → t.Ordered
  seats : s.Stores → s.hall.Seated → t.hall.Seated ∧ (s.hall.Spaced → t.hall.Spaced)
  custody : s.Stores → s.Ordered → s.census.Accounted → t.census.Accounted

namespace State.Turn

theorem refl (s : State) : s.Turn s := ⟨id, fun _ => id, fun _ h => ⟨h, id⟩, fun _ _ => id⟩

theorem trans (h : s.Turn t) (g : t.Turn u) : s.Turn u where
  stores hs := g.stores (h.stores hs)
  ordered hs ho := g.ordered (h.stores hs) (h.ordered hs ho)
  seats hs hl :=
    have ht := h.seats hs hl
    have hu := g.seats (h.stores hs) ht.1
    ⟨hu.1, hu.2 ∘ ht.2⟩
  custody hs ho ha := g.custody (h.stores hs) (h.ordered hs ho) (h.custody hs ho ha)

theorem after (g : t.Turn u) (h : s.Turn t) : s.Turn u := h.trans g

/-- Only a state that meets the law of the stores need be looked at. -/
theorem of (h : s.Stores → s.Turn t) : s.Turn t :=
  ⟨fun hs => (h hs).stores hs, fun hs => (h hs).ordered hs, fun hs => (h hs).seats hs, fun hs => (h hs).custody hs⟩

theorem of_quiet (hq : s.Quiet t) (seats : s.Stores → s.hall.Seated → t.hall.Seated ∧ (s.hall.Spaced → t.hall.Spaced))
    (custody : s.Stores → s.Ordered → s.census.Accounted → t.census.Accounted) : s.Turn t :=
  ⟨hq.stores, fun hs => (hq.links hs).ordered, seats, custody⟩

/-- A change that the census does not see. -/
theorem idle (hq : s.Quiet t) (h : s.Stores → t.census = s.census) : s.Turn t := by
  refine of_quiet hq (fun hs hl => ?_) fun hs _ ha => (h hs).symm ▸ ha
  rw [show t.hall = s.hall from congrArg Census.hall (h hs)]
  exact ⟨hl, id⟩

/-- A record that writes goes on writing where it sits (R67, R70, R73). -/
theorem writes (hq : s.Quiet t) (hc : s.cand j = some c) (hcs : c.state ∈ writingStates) {st : CandState}
    (hst : st ∈ writingStates)
    (ht : t.census = { s.census with hall := s.census.hall.restated j { c.stand with state := st } }) : s.Turn t := by
  refine of_quiet hq (fun _ hl => ?_) fun _ _ ha => ?_
  · rw [show t.hall = s.hall.restated j { c.stand with state := st } from congrArg Census.hall ht]
    exact hl.restated (records_of_cand hc) rfl rfl ((seatState_of_writing hst).trans (seatState_of_writing hcs).symm)
      (admitted_of_writing hcs)
  · rw [ht]
    exact ha.mayStand (records_of_cand hc) (.writes hcs hst) (fun _ => rfl) rfl rfl rfl rfl

/-- A record gives its seat up or takes one (R54, R57 to R60). -/
theorem moved (hq : s.Quiet t) (hc : s.cand j = some c)
    (ht : t.census = { s.census with hall := s.census.hall.moved j c.currentSeat d st })
    (hm : s.Stores → s.hall.Seated → s.hall.Moves j c.stand d st) (hn : d.number = c.number) (hk : d.sitting = c.sitting)
    (hst : s.Ordered → s.census.MayStand j c.stand d) : s.Turn t := by
  refine of_quiet hq (fun hs hl => ?_) fun _ ho ha => ?_
  · rw [show t.hall = s.hall.moved j c.currentSeat d st from congrArg Census.hall ht]
    exact ⟨hl.moved (hm hs hl), fun hp => hp.moved hl (hm hs hl)⟩
  · rw [ht]
    exact ha.mayStand (records_of_cand hc) (hst ho) (fun _ => rfl) hn hk rfl rfl

/-- What comes before a clearance test keeps every law but that of the record that is tested (R112). -/
theorem settles (hq : s.Quiet t) {b : Census} (hb : s.Stores → b.Settles j t.census)
    (seats : s.Stores → s.hall.Seated → b.hall.Seated ∧ (s.hall.Spaced → b.hall.Spaced))
    (custody : s.Stores → s.census.Accounted → b.Bound ∧ ∀ i, i ≠ j → b.Finished i) : s.Turn t := by
  refine of_quiet hq (fun hs hl => ?_) fun hs _ ha => ?_
  · obtain ⟨hseated, hspaced⟩ := seats hs hl
    obtain ⟨hseated', hspaced'⟩ := (hb hs).seated hseated
    exact ⟨hseated', hspaced' ∘ hspaced⟩
  · obtain ⟨hbound, hothers⟩ := custody hs ha
    exact (hb hs).accounted hbound hothers

/-- Numbers are taken in turn, each of them once and in a state that the others leave it in. -/
theorem inTurn {G : Nat → State → Prop} {f : Nat → State → State} (hf : ∀ j (s : State), G j s → s.Turn (f j s))
    (hkeep : ∀ i j (s : State), i ≠ j → G i s → G i (f j s)) {l : List Nat} (hl : l.Nodup) (s : State)
    (hG : ∀ j ∈ l, G j s) : s.Turn (takeInTurn l f s) := by
  induction l generalizing s with
  | nil => exact .refl s
  | cons j l ih =>
    obtain ⟨hj, hl⟩ := List.nodup_cons.1 hl
    refine (hf j s (hG j List.mem_cons_self)).trans (ih hl (f j s) fun i hi => ?_)
    exact hkeep i j s (fun e => hj (e ▸ hi)) (hG i (List.mem_cons_of_mem _ hi))

end State.Turn

theorem takeInTurn_turn {ι : Type} (is : List ι) (f : ι → State → State) (h : ∀ (i : ι) (s : State), s.Turn (f i s))
    (s : State) : s.Turn (takeInTurn is f s) :=
  takeInTurn_invariant (fun t => s.Turn t) is f (fun i t ht => ht.trans (h i t)) s (.refl s)

theorem raise_turn (g : CauseGroup) (s : State) : s.Turn (s.raise g) := .idle (raise_quiet ..) fun _ => rfl

theorem closingTest_turn (k : Fin 8) (s : State) : s.Turn (closingTest k s) :=
  .idle (closingTest_quiet ..) fun _ => closingTest_census ..

/-! ### The clearance test (R112) -/

theorem clearRecord_census (j : Nat) (c : Candidate) (b : Bool) (s : State) :
    (clearRecord j c b s).census = s.census.cleared j c.stand := by
  unfold clearRecord Census.cleared
  have hseat : c.stand.seat = c.currentSeat := rfl
  rw [hseat]
  split
  · next hx =>
    rw [setCand_census, hx, ← Hall.restated_eq_moved _ j (d := c.stand.cleared) rfl]
    rfl
  · next x hx =>
    rw [offerDesk_census, freeSeat_census, setCand_census, hx]
    exact congrArg (fun h => ({ s.census with hall := h } : Census))
      (s.census.hall.restated_reseated (d := c.stand.cleared) x rfl .free)

theorem noneHolds_census : s.census.NoneHolds j ↔ (s.boundScripts j).all (fun y => !y.2.holds) = true := by
  simp only [Census.NoneHolds, State.census, List.all_eq_true, mem_boundScripts, and_imp, Bool.not_eq_true']

theorem clearanceTest_settles (j : Nat) (s : State) : s.census.Settles j (clearanceTest j s).census := by
  unfold clearanceTest
  cases hc : s.cand j with
  | none =>
    refine .inr ⟨rfl, fun d hd => ?_⟩
    obtain ⟨e, he, -⟩ := records_eq_some.1 hd
    cases hc.symm.trans he
  | some c =>
    dsimp only
    split
    · next h => exact .inl ⟨c.stand, records_of_cand hc, h.1, noneHolds_census.2 h.2, clearRecord_census ..⟩
    · next h =>
      refine .inr ⟨rfl, fun d hd hdone hnone => ?_⟩
      cases (records_of_cand hc).symm.trans hd
      exact h ⟨hdone, noneHolds_census.1 hnone⟩

/-! ### Scripts that change in place -/

theorem State.Stores.setScript_census (hs : s.Stores) {n : Nat} {y : Script} (hy : s.script n = some y)
    (f : Script → Script) : (s.setScript n (f y)).census = { s.census with scripts := recast (only n f) s.scripts } :=
  congrArg (fun t => ({ s.census with scripts := t } : Census)) (insert_eq_recast hs.scripts.1.1 hy f)

theorem only_slot {f : Script → Script} (hf : ∀ y, (f y).slot = y.slot) (n e : Nat) (y : Script) :
    (only n f e y).slot = y.slot := by
  unfold only
  split
  · exact hf y
  · rfl

theorem only_sitting {f : Script → Script} (hf : ∀ y, (f y).sitting = y.sitting) (n e : Nat) (y : Script) :
    (only n f e y).sitting = y.sitting := by
  unfold only
  split
  · exact hf y
  · rfl

/-- The script in a state. -/
def Script.restated (st : ScriptState) (z : Script) : Script := { z with state := st }

/-- One script changes its state, to one that fits every record that the old one fits. -/
theorem Census.Accounted.rescripted {a : Census} (ha : a.Accounted) (hsorted : tableSorted a.scripts = true) {n : Nat}
    {y : Script} (hy : tableFind a.scripts n = some y) {st : ScriptState} (hmark : y.state ≠ .marking)
    (hfits : ∀ c, y.state.fits c = true → st.fits c = true) :
    have b : Census := { a with scripts := Machine.recast (only n (Script.restated st)) a.scripts }
    b.Bound ∧ ∀ i, i ≠ y.slot → b.Finished i := by
  intro b
  have hsame : ∀ z ∈ a.scripts, z.1 = n → z.2 = y := fun z hz hn =>
    Option.some.inj (((tableFind_iff_mem hsorted ..).2 hz).symm.trans (hn ▸ hy))
  have hmem := mem_of_tableFind _ _ _ hy
  obtain ⟨c, hc, -⟩ := ha.bound _ hmem
  have hone : ∀ z ∈ a.scripts, z.2.slot ≠ y.slot → only n (Script.restated st) z.1 z.2 = z.2 :=
    fun z hz hslot => if_neg fun hn => hslot (congrArg Script.slot (hsame z hz hn))
  have m : a.Carried b (only n (Script.restated st)) := by
    refine .of_record (d := c) hc (fun i => ?_) rfl rfl .inl rfl
      (fun z _ => only_slot (f := Script.restated st) (fun _ => rfl) ..)
      (fun z _ => only_sitting (f := Script.restated st) (fun _ => rfl) ..)
      (fun z hz hslot => .inl (by rw [hone z hz hslot])) (fun z hz _ hf => ?_) (ha.toBound.hand_kept rfl rfl fun z hz hst => ?_)
    · split
      · next hi => rw [hi]; exact hc
      · rfl
    · unfold only
      split
      · next hn => exact hfits _ (hsame z hz hn ▸ hf)
      · exact hf
    · unfold only
      split
      · next hn => exact absurd (hsame z hz hn ▸ hst) hmark
      · exact hst
  refine ⟨ha.toBound.carried m, fun i hi => ?_⟩
  refine (ha.done i).carried m (fun d hd hdone => ⟨d, hd, hdone⟩) fun z hz hslot hst => ?_
  rw [hone z hz (hslot.trans_ne hi)]
  exact hst

/-- A script that changes its state, and the clearance test of its record (R112, R113, R116). -/
theorem clearScript_turn {n : Nat} {y : Script} (hy : s.script n = some y) {st : ScriptState} (hmark : y.state ≠ .marking)
    (hfits : ∀ c, y.state.fits c = true → st.fits c = true) :
    s.Turn (clearanceTest y.slot (s.setScript n { y with state := st })) := by
  refine .settles ((clearanceTest_quiet ..).after (setScript_quiet hy _))
    (fun hs => hs.setScript_census hy (Script.restated st) ▸ clearanceTest_settles ..)
    (fun _ hl => ⟨hl, id⟩) fun hs ha => ?_
  exact ha.rescripted hs.scripts.1.1 hy hmark hfits

end Sys2Proof.Machine
end

