-- ==== Sys2Proof/Proofs/RecordTurns.lean ====
section
/-! SUPPORT. The turns of candidate records: the finish, the end of an EXPECTED record, personal times, and the seats
that are taken and given up (R54, R57 to R60, R67, R70 to R77, R111). -/

namespace Sys2Proof.Machine

variable {s t u : State} {i j x y n : Nat} {c : Candidate} {d e : Stand} {st : SeatState} {k : Fin 8} {p : SeatPlace}

/-- A live record in a slot has one of the states listed. -/
def State.Within (s : State) (sts : List CandState) (j : Nat) : Prop := ∀ c, s.cand j = some c → c.state ∈ sts

theorem State.Within.of_cand {sts : List CandState} (hc : s.cand j = some c) (h : c.state ∈ sts) : s.Within sts j :=
  fun _ hd => Option.some.inj (hc.symm.trans hd) ▸ h

theorem within_congr {sts : List CandState} (h : t.cand j = s.cand j) (hw : s.Within sts j) : t.Within sts j :=
  fun c hc => hw c (h.symm.trans hc)

theorem State.Within.records {sts : List CandState} (h : s.Within sts j) (hd : s.hall.records j = some d) :
    d.state ∈ sts := by
  obtain ⟨c, hc, rfl⟩ := records_eq_some.1 hd
  exact h c hc

/-- The census tells the states that a record may have. -/
theorem State.Within.of_census {sts : List CandState} (hw : s.Within sts j) (h : t.census = s.census) : t.Within sts j :=
  fun c hc => hw.records (d := c.stand) (by
    rw [← show t.hall = s.hall from congrArg Census.hall h]
    exact records_of_cand hc)

theorem active_writing : CandState.active ∈ writingStates := by decide

theorem resting_writing : CandState.resting ∈ writingStates := by decide

/-- What is done for another record leaves the states that a record may have. -/
theorem State.Visit.within {sts : List CandState} (h : s.Visit (· = j) t) (hne : i ≠ j) (hw : s.Within sts i) :
    t.Within sts i := within_congr (h.others i hne) hw

theorem within_slotsWhere (hs : s.Stores) {q : Candidate → Bool} {sts : List CandState}
    (hq : ∀ c, q c = true → c.state ∈ sts) : ∀ j ∈ s.slotsWhere q, s.Within sts j := fun j hj => by
  obtain ⟨c, hc, h⟩ := (mem_slotsWhere hs).1 hj
  exact .of_cand hc (hq c h)

/-! ### The finish (R77, R111, R112) -/

theorem submittedBy_slot (j time : Nat) (z : Script) : (Script.submittedBy j time z).slot = z.slot :=
  (submittedBy_holds j time z).1

theorem submittedBy_sitting (j time : Nat) (z : Script) : (Script.submittedBy j time z).sitting = z.sitting := by
  unfold Script.submittedBy
  split <;> rfl

theorem submittedBy_of_slot_ne {z : Script} (h : z.slot ≠ j) (time : Nat) : Script.submittedBy j time z = z :=
  if_neg fun e => h e.1

theorem submittedBy_fits {z : Script} (hz : z.slot = j) {a : CandState} (ha : a ∈ writingStates)
    (hf : z.state.fits a = true) (time : Nat) : (Script.submittedBy j time z).state.fits .done = true := by
  rw [fits_done]
  unfold Script.submittedBy
  rcases (fits_writing ha).1 hf with h | h <;> simp [hz, h]

theorem submittedBy_marking {z : Script} (h : z.state = .marking) (j time : Nat) :
    (Script.submittedBy j time z).state = .marking := by
  unfold Script.submittedBy
  simp [h]

theorem Hall.restated_moved (h : Hall) (j : Nat) (d' : Stand) (old : Option Nat) (d : Stand) (st : SeatState) :
    (h.restated j d').moved j old d st = h.moved j old d st := by
  unfold restated moved
  congr 1
  funext i
  dsimp only
  split <;> rfl

/-- A census as a record finishes, before the clearance test: its ISSUED scripts are SUBMITTED, and its seat is VACATED
(R77, R111). -/
def Census.submitted (a : Census) (j time : Nat) (d : Stand) : Census :=
  ⟨a.hall.moved j d.seat d .vacated, recast (fun _ => Script.submittedBy j time) a.scripts, a.hand⟩

theorem submittedSeat_census {c : Candidate} (hc : s.cand j = some c) (time : Nat) :
    State.census (match c.currentSeat with
      | none => s.mapScripts (Script.submittedBy j time)
      | some i => takeSeat i .vacated j (s.mapScripts (Script.submittedBy j time))) =
        s.census.submitted j time c.stand := by
  have hrec := records_of_cand hc
  have hseat : c.stand.seat = c.currentSeat := rfl
  unfold Census.submitted
  rw [hseat]
  cases hx : c.currentSeat with
  | none =>
    have hkept := (Hall.restated_eq_moved s.hall j (hseat.trans hx) .vacated).symm.trans (Hall.restated_self hrec)
    exact congrArg (fun h => (⟨h, recast (fun _ => Script.submittedBy j time) s.scripts, s.hand⟩ : Census)) hkept.symm
  | some x =>
    have htaken := Hall.reseated_restated (j := j) (st := .vacated) s.hall (hseat.trans hx) (.inr rfl)
    rw [Hall.restated_self (h := s.hall.reseated x _) hrec] at htaken
    dsimp only
    rw [takeSeat_census]
    exact congrArg (fun h => (⟨h, recast (fun _ => Script.submittedBy j time) s.scripts, s.hand⟩ : Census)) htaken

theorem submitOnFinish_settles {c : Candidate} (hc : s.cand j = some c) (hdone : c.state = .done) :
    (s.census.submitted j s.hallTime c.stand).Settles j (submitOnFinish j s).census := by
  unfold submitOnFinish
  rw [hc]
  dsimp only
  split
  · next hempty =>
    have hnone : ∀ z ∈ s.scripts, z.2.slot ≠ j := fun z hz hj =>
      List.not_mem_nil (List.isEmpty_iff.1 hempty ▸ mem_boundScripts.2 ⟨hz, hj⟩)
    have hsame : recast (fun _ => Script.submittedBy j s.hallTime) s.scripts = s.scripts :=
      (recast_congr fun z hz => submittedBy_of_slot_ne (hnone z hz) _).trans (recast_id _)
    refine .inl ⟨c.stand, Hall.moved_record_self .., hdone, fun z hz hj => ?_, ?_⟩
    · have hz' : z ∈ s.scripts := hsame ▸ hz
      exact absurd hj (hnone z hz')
    · rw [raise_census, clearRecord_census]
      unfold Census.submitted Census.cleared
      rw [Hall.moved_moved _ j c.stand.cleared .vacated .free rfl rfl, show s.census.scripts = s.scripts from rfl, hsame]
  · exact submittedSeat_census hc s.hallTime ▸ clearanceTest_settles ..

/-- The record as it is DONE. -/
def Stand.done (d : Stand) : Stand := { d with state := .done }

theorem submitted_seated (hl : s.hall.Seated) (hc : s.cand j = some c) (hw : c.state ∈ writingStates) (time : Nat) :
    (s.census.submitted j time c.stand.done).hall.Seated ∧
      (s.hall.Spaced → (s.census.submitted j time c.stand.done).hall.Spaced) := by
  have m : s.hall.Moves j c.stand c.stand.done .vacated := ⟨records_of_cand hc, rfl, fun _ => rfl, fun hnone =>
    absurd (admitted_of_writing hw) (hl.waiting (records_of_cand hc) hnone), fun hd hno => absurd hd hno⟩
  exact ⟨hl.moved (c := c.stand) m, fun hp => Hall.Spaced.moved (c := c.stand) hl hp m⟩

theorem submitted_bound {a : Census} (ha : a.Accounted) (hc : a.hall.records j = some e) (hw : e.state ∈ writingStates)
    (time : Nat) : (a.submitted j time e.done).Bound ∧ ∀ i, i ≠ j → (a.submitted j time e.done).Finished i := by
  have m : a.Carried (a.submitted j time e.done) (fun _ => Script.submittedBy j time) :=
    .of_record (d := e.done) hc (fun _ => rfl) rfl rfl (fun _ => .inl (admitted_of_writing hw)) rfl
      (fun z _ => submittedBy_slot ..) (fun z _ => submittedBy_sitting ..)
      (fun z _ hslot => .inl (by rw [submittedBy_of_slot_ne hslot]))
      (fun z _ hslot hf => submittedBy_fits hslot hw hf time)
      (ha.toBound.hand_kept (g := fun _ => Script.submittedBy j time) rfl rfl fun z _ hst => submittedBy_marking hst ..)
  refine ⟨ha.toBound.carried m, fun i hi => (ha.done i).carried m (fun d hd hdone => ?_) fun z _ hslot hst => ?_⟩
  · exact ⟨d, (Hall.moved_record_of_ne _ _ _ _ hi).symm.trans hd, hdone⟩
  · rw [submittedBy_of_slot_ne (hslot.trans_ne hi)]
    exact hst

theorem finish_turn (why : FinishCause) (hw : s.Within writingStates j) : s.Turn (finish why j s) := by
  cases hc : s.cand j with
  | none =>
    have hsame : finish why j s = s := by rw [finish, hc]
    exact hsame.symm ▸ .refl s
  | some c =>
    have heq : finish why j s =
        closingTest c.sitting (submitOnFinish j (showNotice c .done (s.setCand j (c.finished why)))) := by rw [finish, hc]
    have hspoken := showNotice_spoken c .done (s.setCand j (c.finished why))
    have hcand := (hspoken.cand j).trans (cand_setCand_self ..)
    have hset := submitOnFinish_settles hcand rfl
    have hb : State.Stores s → (s.census.submitted j s.hallTime c.stand.done).Settles j (finish why j s).census := by
      intro _
      rw [heq, closingTest_census]
      have hbefore : (showNotice c .done (s.setCand j (c.finished why))).census.submitted j
          (showNotice c .done (s.setCand j (c.finished why))).hallTime (c.finished why).stand =
            s.census.submitted j s.hallTime c.stand.done := by
        rw [hspoken.census, setCand_census, hspoken.desks]
        exact congrArg (fun h => (⟨h, recast (fun _ => Script.submittedBy j s.hallTime) s.scripts, s.hand⟩ : Census))
          (Hall.restated_moved ..)
      exact hbefore ▸ hset
    exact .settles (finish_quiet ..) hb (fun _ hl => submitted_seated hl hc (hw c hc) _)
      fun _ ha => submitted_bound ha (records_of_cand hc) (hw c hc) _

/-! ### A record that gives its seat up (R9, R58, R59) -/

/-- The record without a seat, in a state. -/
def Stand.unseated (st : CandState) (d : Stand) : Stand := { d with state := st, seat := none }

theorem endExpected_census (st : CandState) {c : Candidate} (hc : s.cand j = some c) : (endExpected st j s).census =
    { s.census with hall := s.census.hall.moved j c.currentSeat (c.stand.unseated st) .free } := by
  unfold endExpected
  rw [hc]
  dsimp only
  split
  · next hx =>
    rw [setCand_census, hx, ← Hall.restated_eq_moved _ j (d := c.stand.unseated st) rfl]
    have hstand : Candidate.stand { c with state := st } = c.stand.unseated st :=
      congrArg (Stand.mk c.number c.sitting st) hx
    rw [← hstand, ← hx]
  · next x hx =>
    rw [offerDesk_census, freeSeat_census, setCand_census, hx]
    exact congrArg (fun h => ({ s.census with hall := h } : Census))
      (s.census.hall.restated_reseated (d := c.stand.unseated st) x rfl .free)

theorem endExpected_turn {st : CandState} (hst : st ∈ [CandState.absent, .withdrawn]) (hw : s.Within [.expected] j) :
    s.Turn (endExpected st j s) := by
  have hnot : st ∉ admittedStates := by
    simp only [List.mem_cons, List.not_mem_nil, or_false] at hst
    rcases hst with rfl | rfl <;> decide
  cases hc : s.cand j with
  | none =>
    have hsame : endExpected st j s = s := by rw [endExpected, hc]
    exact hsame.symm ▸ .refl s
  | some c =>
    refine .moved (endExpected_quiet ..) hc (endExpected_census st hc)
      (fun _ _ => Hall.moves_leaving (records_of_cand hc) rfl rfl hnot) rfl rfl
      fun _ => .leaves (List.mem_singleton.1 (hw c hc)) (fun hdone => hnot ?_) fun h => absurd h hnot
    have hst : st = .done := hdone
    rw [hst]
    decide

theorem closeAdmission_turn (k : Fin 8) (s : State) : s.Turn (closeAdmission k s) := by
  refine .of fun hs => ?_
  unfold closeAdmission
  split
  · exact .refl s
  · refine (raise_turn ..).after ((closingTest_turn ..).after ?_)
    exact .inTurn (G := fun j s => s.Within [.expected] j) (fun j s => endExpected_turn (by simp))
      (fun i j s hne => (endExpected_visit (I := (· = j)) rfl .absent s).within hne) (slotsWhere_nodup hs _) s
      (within_slotsWhere hs fun c hc => by simp_all)

theorem unplaceSeat_turn (hc : s.cand j = some c) (hst : c.state = .expected) (hx : c.currentSeat = some x) :
    s.Turn (unplaceSeat j c x s) := by
  refine .of fun hs => ?_
  refine .moved (d := { c.stand with seat := none }) (st := .free) (unplaceSeat_quiet (hs.seat_lt hc hx) hc) hc ?_
    (fun _ _ => Hall.moves_leaving (records_of_cand hc) rfl rfl fun h => ?_) rfl rfl fun _ => .stays rfl
  · unfold unplaceSeat
    rw [closingTest_census, offerDesk_census, freeSeat_census, setCand_census, hx]
    exact congrArg (fun h => ({ s.census with hall := h } : Census))
      (s.census.hall.restated_reseated (d := { c.stand with seat := none }) x rfl .free)
  · have h' : c.state ∈ admittedStates := h
    rw [hst] at h'
    exact absurd h' (by decide)

/-! ### Records that write (R67, R70, R71, R73, R74) -/

theorem activate_turn (hw : s.Within writingStates j) : s.Turn (activate j s) := by
  cases hc : s.cand j with
  | none =>
    have hsame : activate j s = s := by rw [activate, hc]
    exact hsame.symm ▸ .refl s
  | some c =>
    refine .writes (st := .active) (activate_quiet ..) hc (hw c hc) active_writing ?_
    rw [activate, hc]
    dsimp only
    rw [warningTest_census, showEnd_census, setCand_census]
    rfl

theorem setResting_turn (hc : s.cand j = some c) (hw : c.state ∈ writingStates) {st : CandState}
    (hst : st ∈ writingStates) : s.Turn (setResting st j c s) := by
  refine .writes (setResting_quiet hc st) hc hw hst ?_
  rw [setResting, showEnd_census, setCand_census]
  rfl

theorem restOver_turn (j : Nat) (s : State) : s.Turn (restOver j s) := by
  cases hc : s.cand j with
  | none =>
    have hsame : restOver j s = s := by rw [restOver, hc]
    exact hsame.symm ▸ .refl s
  | some c =>
    by_cases h : c.state = .resting ∧ c.restBudget.getD 0 ≤ c.restUsed
    · refine .writes (st := .active) (restOver_quiet ..) hc (h.1 ▸ resting_writing) active_writing ?_
      rw [restOver, hc]
      dsimp only
      rw [if_pos h, showEnd_census, showNotice_census, setCand_census]
      rfl
    · have hsame : restOver j s = s := by
        rw [restOver, hc]
        exact if_neg h
      exact hsame.symm ▸ .refl s

/-- A record that writes goes on writing as its rest is over (R67). -/
theorem restOver_within (h : s.Within writingStates j) : (restOver j s).Within writingStates j := by
  cases hc : s.cand j with
  | none =>
    rw [restOver, hc]
    exact h
  | some c =>
    rw [restOver, hc]
    dsimp only
    split
    · have hset : (s.setCand j { c with state := .active }).Within writingStates j :=
        .of_cand (cand_setCand_self ..) active_writing
      exact hset.of_census ((showEnd_census ..).trans (showNotice_census ..))
    · exact h

theorem accrueRest_turn (before : Vector Sitting 8) (j : Nat) (s : State) : s.Turn (accrueRest before j s) :=
  .idle (accrueRest_quiet ..) fun _ => accrueRest_census ..

theorem accrueRest_within (before : Vector Sitting 8) (h : s.Within writingStates j) :
    (accrueRest before j s).Within writingStates j := h.of_census (accrueRest_census ..)

theorem reachEnd_turn (j : Nat) (s : State) : s.Turn (reachEnd j s) := by
  unfold reachEnd
  split
  · exact .refl s
  next hc =>
  split
  · next h => exact finish_turn _ (.of_cand hc (h.1 ▸ active_writing))
  · exact .idle (warningTest_quiet ..) fun _ => warningTest_census ..

theorem recordSecond_turn (before : Vector Sitting 8) (j : Nat) (s : State) : s.Turn (recordSecond before j s) :=
  ((accrueRest_turn before j s).trans (restOver_turn j _)).trans (reachEnd_turn j _)

theorem recordDayEnd_turn (before : Vector Sitting 8) (h : s.Within writingStates j) :
    s.Turn (recordDayEnd before j s) :=
  ((accrueRest_turn before j s).trans (restOver_turn j _)).trans
    (finish_turn .dayEnd (restOver_within (accrueRest_within before h)))

/-! ### Seats that are taken (R54, R57, R60) -/

/-- A FREE seat that is not blocked may be taken. -/
theorem free_of_unblocked (hs : s.Stores) (hl : s.hall.Seated) {exempt : Option Nat} (hfree : (s.seat x).state = .free)
    (hp : (s.seat x).place = some p) (hb : s.blocked exempt p k = false) :
    (s.hall.chairs x).state = .free ∧ ∃ p, (s.hall.chairs x).place = some p ∧ s.hall.Clear exempt p k :=
  ⟨hfree, p, hp, (blocked_eq_false hs hl).1 hb⟩

theorem seatRefusal_none {exempt : Option Nat} (h : s.seatRefusal c exempt p = none) :
    s.blocked exempt p c.sitting = false := by
  unfold State.seatRefusal at h
  split at h
  · cases h
  split at h
  · cases h
  split at h
  · cases h
  · next hb => exact Bool.eq_false_iff.2 hb

/-- The seat that an admission gives a record is its own, or a FREE one that is not blocked (R48, R54). -/
theorem seatFor_free (hs : s.Stores) (hx : s.seatFor c = some x) : c.currentSeat = some x ∨
    (c.currentSeat = none ∧ (s.seat x).state = .free ∧ ∃ p, (s.seat x).place = some p ∧
      s.blocked none p c.sitting = false) := by
  unfold State.seatFor at hx
  split at hx
  · next hseat => exact .inl (hseat.trans hx)
  · next hseat =>
    obtain ⟨-, -, -, v, p, -, -, hv, hp, -, ha, -⟩ := allocate_takes_least hx
    obtain ⟨hen, hfree, hlost, hfeat, hclear⟩ := (admissible_iff hp).1 ha
    have hseat' := seat_of_mem hs hv
    refine .inr ⟨hseat, hseat' ▸ hfree, p, hseat' ▸ hp, ?_⟩
    rw [← Bool.not_eq_true, blocked_iff]
    rintro ⟨y, q, j, d, hy, -, hused, hj, hd, hk, hq, hn⟩
    exact Bool.false_ne_true ((hclear y q j d hy hused hj hd hk hq).symm.trans hn)

/-- The only record of its number that may be admitted (R52). -/
theorem alone_of_chain (ho : s.Ordered) (hc : s.cand j = some c) (hj : j ∈ s.chain n)
    (h : (s.chain n).any (s.inStates admittedStates) = false) :
    ∀ i e, i ≠ j → s.hall.records i = some e → e.number = c.number → e.state ∉ admittedStates := by
  intro i e _ he hn hst
  obtain ⟨hchain, -⟩ := ho.chain n
  obtain ⟨c', hc', hnum⟩ := (hchain.exact j).1 hj
  cases hc.symm.trans hc'
  obtain ⟨d, hd, rfl⟩ := records_eq_some.1 he
  have hmem : i ∈ s.chain n := (hchain.exact i).2 ⟨d, hd, hn.trans hnum⟩
  exact Bool.false_ne_true (h.symm.trans (any_inStates_iff.2 ⟨i, d, hmem, hd, hst⟩))

/-- A record that takes a seat where it has none or that one. -/
theorem takeSeat_setCand_census (st : SeatState) {c' : Candidate} {old : Option Nat} (hx : c'.currentSeat = some x)
    (hold : old = none ∨ old = some x) : ((takeSeat x st j s).setCand j c').census =
      { s.census with hall := s.census.hall.moved j old c'.stand st } := by
  rw [setCand_census, takeSeat_census]
  exact congrArg (fun h => ({ s.census with hall := h } : Census)) (Hall.reseated_restated s.census.hall hx hold)

theorem seatRecord_turn (door : Option (Fin 4)) (hc : s.cand j = some c) (hst : c.state = .expected)
    (hx : s.seatFor c = some x) (hj : j ∈ s.chain n) (halone : (s.chain n).any (s.inStates admittedStates) = false) :
    s.Turn (seatRecord door j c x s) := by
  refine .of fun hs => ?_
  have hseat := seatFor_free hs hx
  have hold : c.currentSeat = none ∨ c.currentSeat = some x := hseat.elim .inr fun h => .inl h.1
  have moved : ∀ c' : Candidate, c'.links = c.links → c'.currentSeat = some x → c'.state ∈ [CandState.seated, .active] →
      s.Turn (showSeat x (s.seatedAt x c) (announce door x (s.seatedAt x c)
        ((takeSeat x .occupied j s).setCand j c'))) := by
    intro c' hlinks hx' hst'
    have hquiet := takeSeat_setCand_quiet (d := c') (hs.seatFor_lt hc hx) .occupied hc hlinks hx'
    obtain ⟨hn, hk, -⟩ : c'.number = c.number ∧ c'.sitting = c.sitting ∧ c'.nextRecord = c.nextRecord := by
      simpa [Candidate.links] using hlinks
    have hocc : c'.state.seatState = some .occupied ∧ c'.state ≠ .done := by
      simp only [List.mem_cons, List.not_mem_nil, or_false] at hst'
      rcases hst' with h | h <;> rw [h] <;> exact ⟨rfl, nofun⟩
    refine .moved (d := c'.stand) (st := .occupied)
      ((showSeat_quiet ..).after ((announce_quiet ..).after hquiet)) hc ?_ (fun _ hl => ?_) hn hk
      fun ho => .leaves hst hocc.2 fun _ => alone_of_chain ho hc hj halone
    · rw [showSeat_census, announce_census, takeSeat_setCand_census .occupied hx' hold]
    · refine ⟨records_of_cand hc, hk, fun _ => hocc.1, fun hnone => absurd (hx'.symm.trans hnone) nofun, fun hd hne => ?_⟩
      obtain rfl := Option.some.inj (hx'.symm.trans hd)
      obtain ⟨hnone, hfree, p, hp, hb⟩ := hseat.resolve_left hne
      rw [show c.stand.seat = none from hnone]
      exact free_of_unblocked hs hl hfree hp hb
  have late : ∀ c' : Candidate, c'.links = c.links → c'.currentSeat = some x → c'.state = .active →
      s.Turn (activate j (showSeat x (s.seatedAt x c) (announce door x (s.seatedAt x c)
        ((takeSeat x .occupied j s).setCand j c')))) := fun c' hlinks hx' hst' =>
    have hset : ((takeSeat x .occupied j s).setCand j c').Within writingStates j :=
      .of_cand (cand_setCand_self ..) (hst' ▸ active_writing)
    (moved c' hlinks hx' (by simp [hst'])).trans
      (activate_turn (hset.of_census ((showSeat_census ..).trans (announce_census ..))))
  unfold seatRecord
  split
  · exact late _ rfl rfl rfl
  · exact late _ rfl rfl rfl
  all_goals exact moved _ rfl rfl (.head _)

theorem place_turn (n k i : Nat) (s : State) : s.Turn (place n k i s).1 := by
  refine .of fun hs => ?_
  unfold place
  split
  · exact .refl s
  next j c hres =>
  have hc := State.cand_of_resolve hres
  split
  · exact .refl s
  next hi =>
  split
  · exact .refl s
  next hfree =>
  obtain ⟨hst, hseat⟩ : c.state = .expected ∧ c.currentSeat = none := by simpa using hfree
  split
  · exact .refl s
  next p hp =>
  split
  · exact .refl s
  next htake =>
  obtain ⟨hfree, -⟩ : (s.seat i).state = .free ∧ s.rooms[p.room].enabled = true := by simpa using htake
  split
  · exact .refl s
  next hrefusal =>
  have hset := takeSeat_setCand_quiet (d := { c with currentSeat := some i }) (Nat.not_le.1 hi) .held hc rfl rfl
  refine .moved (d := Candidate.stand { c with currentSeat := some i }) (st := .held)
    ((showSeat_quiet ..).after hset) hc ?_ (fun _ hl => ?_) rfl rfl fun _ => .stays rfl
  · rw [okWith_fst, showSeat_census, takeSeat_setCand_census .held rfl (.inl hseat)]
  · refine ⟨records_of_cand hc, rfl, fun _ => ?_, nofun, fun hd _ => ?_⟩
    · exact congrArg CandState.seatState hst
    · obtain rfl := Option.some.inj hd
      rw [show c.stand.seat = none from hseat]
      exact free_of_unblocked hs hl hfree hp (seatRefusal_none hrefusal)

theorem moveRecord_turn (hs : s.Stores) (hc : s.cand j = some c) (hw : c.state ∈ writingStates)
    (hy : c.currentSeat = some y) (hx : x < 512) (hfree : (s.seat x).state = .free) (hp : (s.seat x).place = some p)
    (hb : s.blocked (some y) p c.sitting = false) : s.Turn (moveRecord j c y x s) := by
  refine .moved (d := (s.movedTo x c).stand) (st := .occupied) (moveRecord_quiet (hs.seat_lt hc hy) hx hc) hc ?_
    (fun _ hl => ?_) rfl rfl fun _ => .stays rfl
  · unfold moveRecord
    rw [showMovedEnd_census, showSeat_census, offerDesk_census, setCand_census, takeSeat_census, freeSeat_census, hy]
    exact congrArg (fun h => ({ s.census with hall := h } : Census))
      (s.census.hall.reseated_reseated_restated (d := (s.movedTo x c).stand) rfl)
  · refine ⟨records_of_cand hc, rfl, fun _ => seatState_of_writing hw, nofun, fun hd _ => ?_⟩
    obtain rfl := Option.some.inj hd
    rw [show c.stand.seat = some y from hy]
    exact free_of_unblocked hs hl hfree hp hb

theorem move_turn (n k i : Nat) (s : State) : s.Turn (move n k i s).1 := by
  refine .of fun hs => ?_
  unfold move
  split
  · exact .refl s
  next hres =>
  have hc := State.cand_of_resolve hres
  split
  · exact .refl s
  next hi =>
  split
  · exact .refl s
  next hw =>
  split
  · next p old hp hold =>
    split
    · exact .refl s
    next hfree =>
    split
    · exact .refl s
    next hrefusal =>
    exact moveRecord_turn hs hc (not_not.1 hw) hold (Nat.not_le.1 hi) (not_not.1 fun e => hfree (.inl e)) hp
      (seatRefusal_none hrefusal)
  · exact .refl s

end Sys2Proof.Machine
end

