-- ==== Sys2Proof/Proofs/EventTurns.lean ====
section
/-! SUPPORT. The events of the part are turns: the hall second, what desks and posts report, the sheet intake and the mark
engine, and the line of the station. -/

namespace Sys2Proof.Machine

variable {s t u : State} {i j x n : Nat} {c : Candidate} {k : Fin 8} {m : Fin 4} {g : Nat → Script → Script}

/-! ### A hall second in the sittings (R27 to R31, R38) -/

theorem setSitting_turn {v : Sitting} (h : v.t0 = s.sittings[k].t0) : s.Turn (s.setSitting k v) :=
  .idle (setSitting_quiet h) fun _ => rfl

theorem seated_within (hs : s.Stores) (k : Fin 8) : ∀ j ∈ s.seatedOf k, s.Within writingStates j :=
  within_slotsWhere hs fun c hc => by
    have hst : c.state = .seated := by
      simp only [Bool.and_eq_true, beq_iff_eq] at hc
      exact hc.2
    exact hst ▸ .head _

theorem beginSitting_turn (k : Fin 8) (s : State) : s.Turn (beginSitting k s) := by
  refine .of fun hs => ?_
  have hset := setSitting_turn (s := s) (k := k) (v := s.sittings[k].started s.holdFilter.filtered) rfl
  have started := hset.trans (.inTurn (f := activate) (G := fun j s => s.Within writingStates j)
    (fun j s hj => activate_turn hj) (fun i j s hne hi => (activate_visit (I := (· = j)) rfl s).within hne hi)
    (slotsWhere_nodup hs _) _ fun j hj => seated_within hs k j hj)
  unfold beginSitting
  dsimp only
  split
  · exact started.trans (closeAdmission_turn ..)
  · exact started

theorem openAdmission_turn (k : Fin 8) (s : State) : s.Turn (openAdmission k s) := by
  unfold openAdmission
  split
  · exact setSitting_turn rfl
  · exact .refl s

theorem startSitting_turn (k : Fin 8) (s : State) : s.Turn (startSitting k s) := by
  unfold startSitting
  split
  · exact beginSitting_turn ..
  · exact .refl s

theorem moveToWriting_turn (k : Fin 8) (s : State) : s.Turn (moveToWriting k s) := by
  unfold moveToWriting
  split
  · exact setSitting_turn rfl
  · exact .refl s

theorem reachAdmissionClose_turn (k : Fin 8) (before : Sitting) (s : State) :
    s.Turn (reachAdmissionClose k before s) := by
  unfold reachAdmissionClose
  split
  · exact closeAdmission_turn ..
  · exact .refl s

theorem moveToClosing_turn (k : Fin 8) (s : State) : s.Turn (moveToClosing k s) := by
  unfold moveToClosing
  split
  · exact (closingTest_turn ..).after (setSitting_turn rfl)
  · exact .refl s

theorem sittingSecond_turn (moved : Bool) (k : Fin 8) (s : State) : s.Turn (sittingSecond moved k s) := by
  have aged := (moveToClosing_turn k _).after ((reachAdmissionClose_turn k s.sittings[k] _).after
    ((moveToWriting_turn k _).after (setSitting_turn (accrue_t0 s.sittings[k]))))
  unfold sittingSecond
  split
  · split
    · exact (openAdmission_turn k s).trans (startSitting_turn ..)
    · exact .refl s
  · exact aged
  · exact aged

theorem dayEndSitting_turn (k : Fin 8) (s : State) : s.Turn (dayEndSitting k s) := by
  have closing : s.Turn (s.setSitting k { s.sittings[k] with state := .closing, hold := ⟨false, false⟩ }) :=
    setSitting_turn rfl
  unfold dayEndSitting
  split
  · refine (closingTest_turn ..).after ?_
    split
    · exact closing.trans (closeAdmission_turn ..)
    · exact closing
  · exact .refl s

theorem takers_within (hs : s.Stores) (before : Vector Sitting 8) : ∀ j ∈ s.takersOf before, s.Within writingStates j :=
  within_slotsWhere hs fun c hc => by
    have hst : c.state = .active ∨ c.state = .resting := by
      simp only [Candidate.takesSecond, Bool.and_eq_true, Bool.or_eq_true, beq_iff_eq] at hc
      exact hc.1
    rcases hst with h | h
    · exact h ▸ active_writing
    · exact h ▸ resting_writing

theorem dayEnd_turn (before : Vector Sitting 8) (s : State) : s.Turn (dayEnd before s) := by
  have sittings := takeInTurn_turn eight _ dayEndSitting_turn s
  refine sittings.trans (.of fun hs => ?_)
  exact .inTurn (G := fun j s => s.Within writingStates j) (fun j s hj => recordDayEnd_turn before hj)
    (fun i j s hne hi => (recordDayEnd_visit (I := (· = j)) rfl before s).within hne hi) (slotsWhere_nodup hs _) _
    (takers_within hs before)

theorem hallSecond_turn (s : State) : s.Turn (hallSecond s) := by
  have sittings : s.Turn (sittingsSecond (decide (s.hallTime < Config.lastSecond)) (advanceClock s)) :=
    (State.Turn.idle (s := s) (t := advanceClock s) (.of_same rfl rfl rfl rfl rfl rfl fun _ => rfl) fun _ => rfl).trans
      (takeInTurn_turn eight _ (sittingSecond_turn (decide (s.hallTime < Config.lastSecond))) _)
  have broadcast : ∀ m (u : State), u.Turn (broadcastTime m u) := fun m u =>
    .idle ((kickSegment_quiet m _).after (setSegment_quiet ..)) fun _ => kickSegment_census ..
  unfold hallSecond
  refine (takeInTurn_turn four _ broadcast _).after ?_
  split
  · exact sittings.trans (dayEnd_turn ..)
  · exact sittings.trans (takeInTurn_turn _ _ (recordSecond_turn _) _)

/-! ### The desks and the posts (R52, R72 to R75, R108, R109, R113) -/

theorem deskRest_turn (i : Nat) (b : Bool) (s : State) : s.Turn (deskRest i b s) := by
  have offered : ∀ w, s.Turn (offerDesk i w s) := fun w => .idle (offerDesk_quiet ..) fun _ => offerDesk_census ..
  have began : ∀ {j c}, s.cand j = some c → s.Turn (deskRestBegin j c s) := by
    intro j c hc
    unfold deskRestBegin
    split
    · exact .refl s
    all_goals
      split
      · exact .idle (showNotice_quiet ..) fun _ => showNotice_census ..
      next hnone =>
      refine setResting_turn hc ?_ resting_writing
      unfold restRefusal at hnone
      split at hnone
      · cases hnone
      · next h => exact (not_not.1 fun e => h (.inl e)) ▸ active_writing
  have ended : ∀ {j c}, s.cand j = some c → s.Turn (deskRestEnd j c s) := by
    intro j c hc
    unfold deskRestEnd
    split
    · next h => exact setResting_turn hc (h ▸ resting_writing) active_writing
    all_goals exact .refl s
  unfold deskRest
  repeat' split
  all_goals first
    | exact .refl s
    | exact offered _
    | exact began ‹_›
    | exact ended ‹_›

theorem submitRefusal_none {v : Sitting} {time : Nat} (h : submitRefusal c v time = none) : c.state ∈ writingStates := by
  unfold submitRefusal at h
  split at h
  · cases h
  · next hst =>
    rw [not_and_or, not_not, not_not] at hst
    rcases hst with e | e
    · exact e ▸ active_writing
    · exact e ▸ resting_writing

theorem deskSubmit_turn (i : Nat) (s : State) : s.Turn (deskSubmit i s) := by
  have offered : ∀ w, s.Turn (offerDesk i w s) := fun w => .idle (offerDesk_quiet ..) fun _ => offerDesk_census ..
  unfold deskSubmit
  split
  · exact .refl s
  · exact offered _
  · exact offered _
  · exact offered _
  split
  · exact .refl s
  split
  · exact .refl s
  next hc =>
  split
  · exact .idle (showNotice_quiet ..) fun _ => showNotice_census ..
  · next hnone => exact finish_turn _ (.of_cand hc (submitRefusal_none hnone))

/-- A record may take a script where the checks pass (R109). -/
theorem issueCheck_passes {desk : Bool} {d : Nat} (h : s.issueCheck desk d j c = .passes) :
    s.script d = none ∧ c.state ∈ writingStates ∧ (s.boundScripts j).length < 4 ∧ s.scripts.length < 2048 := by
  have hlen := length_lt_of_issueCheck h
  unfold State.issueCheck at h
  split at h
  · split at h <;> cases h
  next hnone =>
  split at h
  · cases h
  next hst =>
  split at h
  · cases h
  split at h
  · cases h
  next hfew => exact ⟨hnone, not_not.1 hst, Nat.not_le.1 hfew, hlen⟩

theorem issued_turn {desk : Bool} {d : Nat} (hd : validSerial d = true) (hc : s.cand j = some c)
    (h : s.issueCheck desk d j c = .passes) (seat : SeatCopy) : s.Turn (s.setScript d (newScript d j c seat)) := by
  obtain ⟨hnone, hst, hfew, hlen⟩ := issueCheck_passes h
  exact .of_quiet (insertScript_quiet hd hlen _) (fun _ hl => ⟨hl, id⟩) fun _ _ ha =>
    ha.issued (x := newScript d j c seat) hnone (records_of_cand hc) rfl hst rfl hfew rfl rfl rfl

theorem deskSlot_turn (i d : Nat) (s : State) : s.Turn (deskSlot i d s) := by
  have offered : ∀ w (u : State), u.Turn (offerDesk i w u) := fun w u =>
    .idle (offerDesk_quiet ..) fun _ => offerDesk_census ..
  have shown : ∀ c (u : State), u.Turn (showSeat i c u) := fun c u =>
    .idle (showSeat_quiet ..) fun _ => showSeat_census ..
  have refused : ∀ w why, s.Turn (offerDesk i w (s.deskIssueRefused i d why)) := fun w why =>
    (State.Turn.idle (deskIssueRefused_quiet i d why s) fun _ => deskIssueRefused_census i d why s).trans (offered ..)
  have issued : ∀ {j c}, s.cand j = some c → s.Turn (deskIssue i d j c s) := by
    intro j c hc
    unfold deskIssue
    split
    · exact offered ..
    next hd =>
    split
    · exact shown ..
    · exact refused ..
    · exact refused ..
    · exact offered ..
    · exact offered ..
    · exact offered ..
    next hp =>
    split
    · exact (issued_turn (by simpa using hd) hc hp _).trans (shown ..)
    · exact .refl s
  unfold deskSlot
  repeat' split
  all_goals first
    | exact .refl s
    | exact offered ..
    | exact issued ‹_›

theorem collect_turn (m : Fin 4) (d : Nat) (s : State) : s.Turn (collect m d s) := by
  have refused : ∀ why, s.Turn (refuseCollect m d why s) := fun why =>
    .idle (refuseCollect_quiet ..) fun _ => refuseCollect_census ..
  have seated : ∀ j (u : State), u.Turn (collectSeat m j u) := fun j u =>
    .idle (collectSeat_quiet ..) fun _ => collectSeat_census ..
  unfold collect
  split
  · exact refused _
  split
  · exact refused _
  next y hy =>
  split
  · exact refused _
  · exact refused _
  · exact seated ..
  · exact seated ..
  · exact seated ..
  · exact seated ..
  next hst =>
  split
  · exact refused _
  · refine (clearScript_turn hy (by simp [hst]) fun a hf => ?_).trans (seated ..)
    rw [hst] at hf
    rw [done_of_fits hf]
    rfl

theorem doorTap_turn (m : Fin 4) (n : Nat) (s : State) : s.Turn (doorTap m n s) := by
  unfold doorTap
  split
  · exact .idle (doorRefused_quiet ..) fun _ => doorRefused_census ..
  next j i hd =>
  split
  · next c hc =>
    have hx : s.seatFor c = some i := by simpa [hc] using seatFor_of_doorDecision hd
    unfold State.doorDecision at hd
    split at hd
    · cases hd
    split at hd
    · next j' htarget =>
      split at hd
      · cases hd
      next halone =>
      have hj : j' = j := by
        unfold State.doorSeat at hd
        split at hd
        · cases hd
        · split at hd <;> cases hd
          rfl
      subst hj
      obtain ⟨c', hc', hst, -⟩ := admittable_iff.1 (List.find?_some htarget)
      cases hc.symm.trans hc'
      exact seatRecord_turn _ hc hst hx (List.mem_of_find?_eq_some htarget) (Bool.eq_false_iff.2 halone)
    · repeat' split at hd
      all_goals cases hd
  · exact .refl s

theorem deliverDesk_turn (hi : i < 512) (e : DeskEvent) (s : State) : s.Turn (deliverDesk i e s) := by
  cases e with
  | null => exact .refl s
  | tap n => exact .idle (deskTap_quiet i n s) fun _ => deskTap_census i n s
  | hand up => exact .idle (deskHand_quiet hi up s) fun hs => deskHand_census hs i up
  | rest b => exact deskRest_turn i b s
  | submit => exact deskSubmit_turn i s
  | slot d => exact deskSlot_turn i d s
  | collect d => exact raise_turn .desk s
  | restart => exact .idle (resyncDesk_quiet i s) fun _ => resyncDesk_census i s

theorem deliverPost_turn (m : Fin 4) (e : DeskEvent) (s : State) : s.Turn (deliverPost m e s) := by
  cases e with
  | null => exact .refl s
  | tap n => exact doorTap_turn m n s
  | collect d => exact collect_turn m d s
  | restart => exact .idle (offerPost_quiet m .blank s) fun _ => offerPost_census m .blank s
  | _ => exact raise_turn .desk s

theorem goodAnswer_turn (m : Fin 4) (a : Nat) (e : DeskEvent) (s : State) : s.Turn (goodAnswer m a e s) := by
  refine .of fun hs => ?_
  unfold goodAnswer
  split
  · exact (State.Turn.idle (postAnswered_quiet m s) fun _ => postAnswered_census m s).trans (deliverPost_turn ..)
  · split
    · next i hi =>
      have hlt := hs.boundSeat_lt hi
      have answered : s.Turn (deskAnswered i s) := .idle (deskAnswered_quiet hlt s) fun hs => deskAnswered_census hs i
      exact answered.trans (deliverDesk_turn hlt ..)
    · exact .idle (discardEvent_quiet ..) fun _ => discardEvent_census ..

theorem missed_turn (m : Fin 4) (a : Nat) (failed : Bool) (s : State) : s.Turn (missed m a failed s) :=
  .idle (missed_quiet ..) fun hs => missed_census hs ..

/-! ### The events of a segment's line (R85, R90, R92, R94) -/

theorem kickSegment_turn (m : Fin 4) (s : State) : s.Turn (kickSegment m s) :=
  .idle (kickSegment_quiet ..) fun _ => kickSegment_census ..

theorem nextExchange_turn (m : Fin 4) (door : Bool) (s : State) :
    s.Turn (kickSegment m (endExchange m (setDoorWire m door s))) :=
  .idle (nextExchange_quiet ..) fun _ => kickSegment_census ..

theorem endWindow_turn (m : Fin 4) (door : Bool) (s : State) : s.Turn (endWindow m (setDoorWire m door s)) :=
  .idle (endWindow_quiet ..) fun _ => rfl

theorem timeSent_turn (m : Fin 4) (door : Bool) (s : State) : s.Turn (timeSent m door s) := by
  unfold timeSent
  split
  · exact nextExchange_turn ..
  all_goals exact .refl s

theorem showSent_turn (m : Fin 4) (door : Bool) (s : State) : s.Turn (showSent m door s) := by
  unfold showSent
  split
  · exact nextExchange_turn ..
  all_goals exact .refl s

theorem pollSent_turn (m : Fin 4) (door : Bool) (s : State) : s.Turn (pollSent m door s) := by
  unfold pollSent
  split
  · split
    · exact nextExchange_turn ..
    · exact .idle (setSegment_quiet ..) fun _ => rfl
  all_goals exact .refl s

theorem deskAnswer_turn (m : Fin 4) (door : Bool) (frame : List Byte) (s : State) :
    s.Turn (deskAnswer m door frame s) := by
  have handled : ∀ a (u : State), u.Turn (handleAnswer m a frame u) := by
    intro a u
    unfold handleAnswer
    split
    · split
      · exact goodAnswer_turn ..
      · exact missed_turn ..
    · exact missed_turn ..
  unfold deskAnswer
  split
  · exact ((endWindow_turn m door s).trans (handled ..)).trans (kickSegment_turn ..)
  all_goals exact .refl s

theorem answerWindowTimeout_turn (m : Fin 4) (door : Bool) (s : State) : s.Turn (answerWindowTimeout m door s) := by
  unfold answerWindowTimeout
  split
  · exact ((endWindow_turn m door s).trans (missed_turn ..)).trans (kickSegment_turn ..)
  all_goals exact .refl s

end Sys2Proof.Machine
end

