-- ==== Sys2Proof/Proofs/IntakeTurns.lean ====
section
/-! SUPPORT. Turns that change scripts alone: the sheet intake, the mark engine and its abandonment, REMARK and the
hand-over (R116, R117, R142, R143, R145, R154, R160). -/

namespace Sys2Proof.Machine

variable {s t u : State} {i j n : Nat} {y : Script} {g : Nat → Script → Script}

theorem collected_returned : ScriptState.collected ∈ returnedStates := by decide

theorem marking_returned : ScriptState.marking ∈ returnedStates := by decide

theorem marked_returned : ScriptState.marked ∈ returnedStates := by decide

theorem handed_returned : ScriptState.handed ∈ returnedStates := by decide

/-- Scripts change within their roles; the sheet in hand, if any, is being marked. -/
theorem State.Turn.recast (hq : s.Quiet t) (ht : s.Stores → t.census = ⟨s.hall, Machine.recast g s.scripts, t.hand⟩)
    (hslot : ∀ d z, (g d z).slot = z.slot) (hsitting : ∀ d z, (g d z).sitting = z.sitting)
    (hrole : s.Stores → s.census.Accounted → ∀ z ∈ s.scripts, z.2.state.SameRole (g z.1 z.2).state)
    (hhand : s.Stores → s.census.Accounted →
      ∀ h, t.hand = some h → ∃ z, tableFind (Machine.recast g s.scripts) h.serial = some z ∧ z.state = .marking) :
    s.Turn t := by
  refine .of_quiet hq (fun hs hl => ?_) fun hs _ ha => ?_
  · rw [show t.hall = s.hall from congrArg Census.hall (ht hs)]
    exact ⟨hl, id⟩
  · rw [ht hs]
    exact ha.recast rfl rfl (fun z _ => hslot ..) (fun z _ => hsitting ..) (hrole hs ha) (hhand hs ha)

/-- One listed script changes its state within its role. -/
theorem State.Turn.rescript (hq : s.Quiet t) {f : Script → Script} (hy : s.script n = some y)
    (ht : s.Stores → t.census = ⟨s.hall, Machine.recast (only n f) s.scripts, t.hand⟩) (hslot : ∀ z, (f z).slot = z.slot)
    (hsitting : ∀ z, (f z).sitting = z.sitting) (hrole : s.census.Accounted → y.state.SameRole (f y).state)
    (hhand : s.Stores → s.census.Accounted → ∀ h, t.hand = some h →
      ∃ z, tableFind (Machine.recast (only n f) s.scripts) h.serial = some z ∧ z.state = .marking) : s.Turn t := by
  refine .recast hq ht (only_slot hslot n) (only_sitting hsitting n) (fun hs ha z hz => ?_) hhand
  unfold only
  split
  · next hn =>
    have hzy : z.2 = y := Option.some.inj (((tableFind_iff_mem hs.scripts.1.1 ..).2 hz).symm.trans (hn ▸ hy))
    rw [hzy]
    exact hrole ha
  · exact .inl rfl

/-! ### The sheet intake (R141 to R143) -/

theorem setIntake_turn (k : Intake) (s : State) : s.Turn (s.setIntake k) := .idle (setIntake_quiet ..) fun _ => rfl

theorem collected_of_eligible {d page : Nat} (h : s.eligible d page = .ok y) : y.state = .collected := by
  unfold State.eligible at h
  split at h
  · cases h
  split at h
  · cases h
  split at h
  · cases h
  next hnone =>
  cases h
  unfold State.scriptEligible at hnone
  split at hnone
  · cases hnone
  split at hnone
  · cases hnone
  next hst => cases hy : y.state <;> simp_all [ScriptState.rejectReason]

/-- The next sheet is taken: its script, which is COLLECTED, is being marked (R143). -/
theorem takeSheet_turn {b : Fin 4} {page : Nat} (h : s.eligible s.intake.buffers[b].serial page = .ok y) :
    s.Turn (takeSheet b y s) := by
  have hy := script_of_eligible h
  refine .rescript (f := Script.restated .marking) (takeSheet_quiet hy) hy (fun hs => ?_) (fun _ => rfl)
    (fun _ => rfl) (fun _ => .inr ⟨collected_of_eligible h ▸ collected_returned, marking_returned⟩) fun _ _ h' hh => ?_
  · exact congrArg (fun a : Census => (⟨a.hall, a.scripts, (takeSheet b y s).hand⟩ : Census))
      (hs.setScript_census hy (Script.restated .marking))
  · cases hh
    refine ⟨_, (tableFind_recast ..).trans (congrArg _ hy), ?_⟩
    simp [only, Script.restated]

theorem settleFrom_turn (order : List (Fin 4)) (s : State) : s.Turn (settleFrom order s) := by
  have rejected : ∀ b why (u : State), u.Turn (rejectSheet b why u) := fun b why u =>
    .idle (rejectSheet_quiet ..) fun _ => rfl
  induction order generalizing s with
  | nil => exact .refl s
  | cons b rest ih =>
    unfold settleFrom
    split
    · exact ih s
    · exact (rejected ..).trans (ih _)
    · split
      · exact .refl s
      · split
        · exact (rejected ..).trans (ih _)
        · next he => exact takeSheet_turn he
    all_goals exact .refl s

theorem intakeChanged_turn (s : State) : s.Turn (intakeChanged s) := by
  unfold intakeChanged
  exact (settleFrom_turn ..).trans (setIntake_turn ..)

theorem closeMalformed_turn (next : ReceiveState) (s : State) : s.Turn (closeMalformed next s) := by
  refine .idle (closeMalformed_quiet ..) fun _ => ?_
  unfold closeMalformed
  split <;> simp

theorem closingFrame_turn (next : ReceiveState) (s : State) : s.Turn (closingFrame next s) :=
  (closeMalformed_turn ..).trans (intakeChanged_turn ..)

theorem badScannerFrame_turn (s : State) : s.Turn (badScannerFrame s) := by
  unfold badScannerFrame
  split
  · exact closingFrame_turn ..
  all_goals exact .refl s

theorem scannerFrame_turn {f : State → State} (h : ∀ s : State, s.Turn (f s)) (s : State) :
    s.Turn (scannerFrame f s) := by
  unfold scannerFrame
  split
  · exact .refl s
  · exact h s

/-- The intake is written, and then looks at its next sheet. -/
theorem intakeWritten_turn (k : Intake) (s : State) : s.Turn (intakeChanged (s.setIntake k)) :=
  (setIntake_turn k s).trans (intakeChanged_turn _)

theorem sheetBegin_turn (serial page c1 c2 c3 c4 : Nat) (s : State) : s.Turn (sheetBegin serial page c1 c2 c3 c4 s) := by
  refine scannerFrame_turn (fun s => ?_) s
  split
  · exact badScannerFrame_turn ..
  unfold beginSheet
  split
  · exact (closeMalformed_turn ..).trans (intakeWritten_turn ..)
  all_goals
    split
    · exact intakeWritten_turn ..
    · exact intakeWritten_turn ..

theorem sheetRow_turn (n : Nat) (r : RowReading) (s : State) : s.Turn (sheetRow n r s) := by
  refine scannerFrame_turn (fun s => ?_) s
  split
  · unfold fillRow
    split
    · exact closingFrame_turn ..
    · split
      · exact setIntake_turn ..
      · exact closingFrame_turn ..
  all_goals exact .refl s

theorem sheetEnd_turn (count : Nat) (s : State) : s.Turn (sheetEnd count s) := by
  refine scannerFrame_turn (fun s => ?_) s
  split
  · unfold endSheet
    split
    · exact closingFrame_turn ..
    · split
      · exact intakeWritten_turn ..
      · exact closingFrame_turn ..
  · exact setIntake_turn ..
  · exact .refl s

theorem sheetGapTimeout_turn (s : State) : s.Turn (sheetGapTimeout s) := by
  unfold sheetGapTimeout
  split
  · exact closingFrame_turn ..
  · exact .refl s

theorem transmitterEvent_turn (s : State) :
    s.Turn (beginAnswerSent s) ∧ s.Turn (verdictSent s) ∧ s.Turn (portResetSent s) := by
  refine ⟨?_, ?_, ?_⟩
  · unfold beginAnswerSent
    split
    · exact setIntake_turn ..
    all_goals exact .refl s
  · unfold verdictSent
    split
    · exact intakeWritten_turn ..
    all_goals exact .refl s
  · unfold portResetSent
    split
    · exact setIntake_turn ..
    all_goals exact .refl s

/-! ### The mark engine (R145, R154) -/

theorem decideMarked_census (h : SheetInHand) (p : PageTally) (s : State) : (decideMarked h p s).census = s.census := by
  unfold decideMarked
  split <;> rfl

theorem markCandidate_census (h : SheetInHand) (p : PageTally) (s : State) : (markCandidate h p s).census = s.census := by
  unfold markCandidate
  split
  · rfl
  next hc =>
  dsimp only
  split
  · exact setCand_sameStand_census hc rfl
  · exact setCand_sameStand_census hc rfl

/-- The sheet in hand is done with: its script, which was being marked, is COLLECTED or MARKED (R145, R154). -/
theorem handEmptied_turn {h : SheetInHand} (hh : s.hand = some h) (hq : s.Quiet t) {f : Script → Script}
    (hnone : t.hand = none) (hlost : s.script h.serial = none → t.census = ⟨s.hall, s.scripts, none⟩)
    (ht : ∀ y, s.script h.serial = some y → s.Stores →
      t.census = ⟨s.hall, Machine.recast (only h.serial f) s.scripts, none⟩)
    (hslot : ∀ z, (f z).slot = z.slot) (hsitting : ∀ z, (f z).sitting = z.sitting)
    (hst : ∀ z, (f z).state ∈ returnedStates) : s.Turn t := by
  have hempty : ∀ {sc : Table Script} (h' : SheetInHand), t.hand = some h' →
      ∃ z, tableFind sc h'.serial = some z ∧ z.state = .marking := fun h' e => by
    rw [hnone] at e
    cases e
  cases hy : s.script h.serial with
  | none =>
    refine .recast (g := fun _ z => z) hq (fun _ => ?_) (fun _ _ => rfl) (fun _ _ => rfl) (fun _ _ _ _ => .inl rfl)
      fun _ _ => hempty
    rw [recast_id, hnone]
    exact hlost hy
  | some y =>
    refine .rescript (f := f) hq hy (fun hs => by rw [hnone]; exact ht y hy hs) hslot hsitting (fun ha => ?_)
      fun _ _ => hempty
    obtain ⟨z, hz, hmark⟩ := ha.hand h hh
    cases hy.symm.trans hz
    exact .inr ⟨hmark ▸ marking_returned, hst y⟩

theorem markingComplete_turn (s : State) : s.Turn (markingComplete s) := by
  unfold markingComplete
  split
  · exact .refl s
  next h hh =>
  unfold completeMarking
  dsimp only
  generalize tallyPage s.keys[h.sitting] s.intake.buffers[h.buffer] h.page = p
  refine (intakeChanged_turn _).after (handEmptied_turn hh (t := { decideMarked h p (markCandidate h p (markScript h p s))
    with hand := none }) (f := fun z => { z with state := .marked, page := some h.page, result := some p.sheetResult })
    ((setHand_quiet ..).after ((decideMarked_quiet ..).after ((markCandidate_quiet ..).after (markScript_quiet ..)))) rfl
    (fun hy => ?_) (fun y hy hs => ?_) (fun _ => rfl) (fun _ => rfl) fun _ => marked_returned)
  all_goals
    have hkept : (decideMarked h p (markCandidate h p (markScript h p s))).census = (markScript h p s).census :=
      (decideMarked_census ..).trans (markCandidate_census ..)
    refine (congrArg (fun a : Census => (⟨a.hall, a.scripts, none⟩ : Census)) hkept).trans ?_
    unfold markScript
    rw [hy]
  · rfl
  · exact congrArg (fun a : Census => (⟨a.hall, a.scripts, none⟩ : Census)) (hs.setScript_census hy
      (fun z => { z with state := .marked, page := some h.page, result := some p.sheetResult }))

theorem abandonMarking_turn (s : State) : s.Turn (abandonMarking s) := by
  cases hh : s.hand with
  | none =>
    have hsame : abandonMarking s = s := by rw [abandonMarking, hh]
    exact hsame.symm ▸ .refl s
  | some h =>
    refine handEmptied_turn hh (f := Script.restated .collected) (abandonMarking_quiet ..) ?_ (fun hy => ?_)
      (fun y hy hs => ?_) (fun _ => rfl) (fun _ => rfl) fun _ => collected_returned
    all_goals
      unfold abandonMarking
      rw [hh]
      dsimp only
    · split <;> rfl
    · rw [hy]
      rfl
    · rw [hy]
      exact congrArg (fun a : Census => (⟨a.hall, a.scripts, none⟩ : Census))
        (hs.setScript_census hy (Script.restated .collected))

theorem clearTraffic_turn (s : State) : s.Turn (clearTraffic s).1 := by
  have segments : s.Turn (takeInTurn four clearSegment s) :=
    takeInTurn_turn four clearSegment (fun m s => .idle (clearSegment_quiet m s) fun _ => clearSegment_census m s) s
  exact (segments.trans (abandonMarking_turn _)).trans (setIntake_turn ..)

/-! ### REMARK and the hand-over (R116, R117, R160) -/

/-- Scripts that have been handed in, and not voided, change among the states that they may have then. -/
theorem mapScripts_turn {f : Script → Script} (hslot : ∀ z, (f z).slot = z.slot)
    (hsitting : ∀ z, (f z).sitting = z.sitting) (hrole : ∀ z, (f z).state = z.state ∨
      (z.state ∈ returnedStates ∧ z.state ≠ .marking ∧ (f z).state ∈ returnedStates)) (s : State) :
    s.Turn (s.mapScripts f) := by
  refine .recast (g := fun _ => f) (mapScripts_quiet ..) (fun _ => rfl) (fun _ => hslot) (fun _ => hsitting)
    (fun _ _ z _ => ?_) fun _ ha =>
      ha.toBound.hand_kept (b := (s.mapScripts f).census) (g := fun _ => f) rfl rfl fun z _ hst => ?_
  · rcases hrole z.2 with h | ⟨h, -, h'⟩
    · exact .inl h.symm
    · exact .inr ⟨h, h'⟩
  · rcases hrole z.2 with h | ⟨-, h, -⟩
    · exact h.trans hst
    · exact absurd hst h

theorem handOverSitting_turn (k : Nat) (s : State) : s.Turn (handOverSitting k s).1 := by
  unfold handOverSitting
  split
  · exact .refl s
  next k' _ =>
  refine mapScripts_turn (fun z => ?_) (fun z => ?_) (fun z => ?_) s
  all_goals unfold Script.handedOver
  · split <;> rfl
  · split <;> rfl
  · split
    · next h =>
      have hst : z.state = .collected := by
        simp only [Script.toHandOver, Bool.and_eq_true, beq_iff_eq] at h
        exact h.2
      rw [hst]
      exact .inr ⟨collected_returned, nofun, handed_returned⟩
    · exact .inl rfl

theorem handOver_turn (d : Nat) (s : State) : s.Turn (handOver d s).1 := by
  unfold handOver
  split
  · exact .refl s
  next y hy =>
  have hy := State.script_of_namedScript hy
  split
  · exact .refl s
  · next hst =>
    refine .rescript (f := Script.restated .handed) (setScript_quiet hy _) hy
      (fun hs => hs.setScript_census hy (Script.restated .handed)) (fun _ => rfl) (fun _ => rfl)
      (fun _ => .inr ⟨hst ▸ collected_returned, handed_returned⟩) fun hs ha => ?_
    refine ha.toBound.hand_kept (b := ⟨s.hall, _, s.hand⟩) rfl rfl fun z hz hmark => ?_
    unfold only
    split
    · next hn =>
      have hzy : z.2 = y := Option.some.inj (((tableFind_iff_mem hs.scripts.1.1 ..).2 hz).symm.trans (hn ▸ hy))
      rw [hzy, hst] at hmark
      cases hmark
    · exact hmark
  · exact .refl s
  · exact .refl s

theorem remark_turn (n k : Nat) (s : State) : s.Turn (remark n k s).1 := by
  unfold remark
  split
  · exact .refl s
  next j c hres =>
  have hc := State.cand_of_resolve hres
  split
  · exact .refl s
  refine State.Turn.trans (t := s.mapScripts (Script.remarked j))
    (mapScripts_turn (fun z => ?_) (fun z => ?_) (fun z => ?_) s)
    (.idle (setCand_sameSeat_quiet (s := s.mapScripts _) hc rfl rfl) fun _ =>
      setCand_sameStand_census (s := s.mapScripts _) hc rfl)
  all_goals unfold Script.remarked
  · split <;> rfl
  · split <;> rfl
  · split
    · next h =>
      rw [h.2]
      exact .inr ⟨marked_returned, nofun, collected_returned⟩
    · exact .inl rfl

end Sys2Proof.Machine
end

