-- ==== Sys2Proof/Proofs/OwnerTurns.lean ====
section
/-! SUPPORT. The owners' rules are turns: most leave the census; a seat that no record has is defined or taken out of use,
a record without a seat is enrolled or retired, and the requests on a record, its seat and its scripts do what their
rules say. -/

namespace Sys2Proof.Machine

variable {s t u : State} {i j x n : Nat} {c : Candidate} {d : Stand} {v : Chair} {k : Fin 8} {m : Fin 4}

/-! ### Halls with a seat, a room or a record rewritten that is not in use -/

namespace Hall

variable {h : Hall}

/-- A seat that no record has is rewritten, to one that is not in use. -/
theorem Seated.reseated (hs : h.Seated) (hx : (h.chairs x).candidate = none) (hcand : v.candidate = none)
    (hv : v.state ∉ [SeatState.held, .occupied, .vacated]) (hplace : v.state ≠ .outOfUse → v.place ≠ none) :
    (h.reseated x v).Seated ∧ (h.Spaced → (h.reseated x v).Spaced) := by
  have hself : (h.reseated x v).chairs x = v := if_pos rfl
  have hother : ∀ {y}, y ≠ x → (h.reseated x v).chairs y = h.chairs y := fun hy => if_neg hy
  have hne : ∀ {j c y}, h.records j = some c → c.seat = some y → y ≠ x := fun hc hy e => by
    have hheld := (hs.held hc hy).1
    rw [e, hx] at hheld
    cases hheld
  refine ⟨⟨fun {y j} hy => ?_, fun {y} hy => ?_, fun {y} hy => ?_, fun {j c y} hc hy => ?_, hs.waiting⟩,
    fun hp y p k ⟨j, c, hc, hcy, hk⟩ hplace z q hyz ⟨j', c', hc', hcz, hk'⟩ hq => ?_⟩
  · by_cases he : y = x
    · rw [he, hself, hcand] at hy
      cases hy
    · rw [hother he] at hy
      exact hs.named hy
  · by_cases he : y = x
    · rw [he, hself] at hy
      exact absurd hy hv
    · rw [hother he] at hy ⊢
      exact hs.filled hy
  · by_cases he : y = x
    · rw [he, hself] at hy ⊢
      exact hplace hy
    · rw [hother he] at hy ⊢
      exact hs.placed hy
  · rw [hother (hne hc hy)]
    exact hs.held hc hy
  · rw [hother (hne hc hcy)] at hplace
    rw [hother (hne hc' hcz)] at hq
    exact hp y p k ⟨j, c, hc, hcy, hk⟩ hplace z q hyz ⟨j', c', hc', hcz, hk'⟩ hq

/-- The separation mode of a room is rewritten. -/
def separated (h : Hall) (m : Fin 4) (sep : Separation) : Hall :=
  { h with separations := fun i => if i = m then sep else h.separations i }

theorem Seated.separated (hs : h.Seated) (m : Fin 4) (sep : Separation) : (h.separated m sep).Seated :=
  ⟨hs.named, hs.filled, hs.placed, hs.held, hs.waiting⟩

/-- The separation mode of a room changes only where no record sits there (R47). -/
theorem Spaced.separated (hp : h.Spaced) {sep : Separation}
    (hroom : sep ≠ h.separations m → ∀ x k p, h.Sits x k → (h.chairs x).place = some p → p.room ≠ m) :
    (h.separated m sep).Spaced := by
  intro x p k hx hplace y q hxy hy hq
  have hfar := hp x p k hx hplace y q hxy hy hq
  show neighbourPlaces (if p.room = m then sep else h.separations p.room) p q = false
  split
  · next hm =>
    by_cases hsep : sep = h.separations m
    · rw [hsep, ← hm]
      exact hfar
    · exact absurd hm (hroom hsep x k p hx hplace)
  · exact hfar

/-- The record of a slot is rewritten, or comes or goes. -/
def rewritten (h : Hall) (j : Nat) (o : Option Stand) : Hall :=
  { h with records := fun i => if i = j then o else h.records i }

/-- A record without a seat, which is not admitted, comes or goes. -/
theorem Seated.rewritten (hs : h.Seated) {o : Option Stand} (hj : ∀ c, h.records j = some c → c.seat = none)
    (ho : ∀ c, o = some c → c.seat = none ∧ c.state ∉ admittedStates) :
    (h.rewritten j o).Seated ∧ (h.Spaced → (h.rewritten j o).Spaced) := by
  have hother : ∀ {i}, i ≠ j → (h.rewritten j o).records i = h.records i := fun hi => if_neg hi
  have hself : (h.rewritten j o).records j = o := if_pos rfl
  have hseated : ∀ {i c y}, (h.rewritten j o).records i = some c → c.seat = some y → h.records i = some c := by
    intro i c y hc hy
    by_cases hi : i = j
    · rw [hi, hself] at hc
      rw [(ho c hc).1] at hy
      cases hy
    · rwa [hother hi] at hc
  refine ⟨⟨fun {y i} hy => ?_, hs.filled, hs.placed, fun hc hy => hs.held (hseated hc hy) hy, fun {i c} hc hy => ?_⟩,
    fun hp y p k ⟨i, c, hc, hcy, hk⟩ hplace z q hyz ⟨i', c', hc', hcz, hk'⟩ hq =>
      hp y p k ⟨i, c, hseated hc hcy, hcy, hk⟩ hplace z q hyz ⟨i', c', hseated hc' hcz, hcz, hk'⟩ hq⟩
  · obtain ⟨c, hc, hcy⟩ := hs.named hy
    have hi : i ≠ j := fun e => by
      rw [hj c (e ▸ hc)] at hcy
      cases hcy
    exact ⟨c, (hother hi).trans hc, hcy⟩
  · by_cases hi : i = j
    · rw [hi, hself] at hc
      exact (ho c hc).2
    · rw [hother hi] at hc
      exact hs.waiting hc hy

end Hall

/-! ### Requests that leave the census -/

theorem State.Relinked.census (h : s.Relinked t) : t.census = s.census := by
  have hstand : ∀ o : Option Candidate, o.map Candidate.stand = (o.map Candidate.unchained).map Candidate.stand := by
    rintro (_ | c) <;> rfl
  refine census_congr (fun i => ?_) (fun x => ?_) (fun m => ?_) h.scripts ?_
  · rw [hstand, h.cands i, ← hstand]
  · rw [h.frame]
    rfl
  · rw [h.frame]
  · rw [h.frame]

theorem markClashes_census (j : Nat) (s : State) : (markClashes j s).census = s.census := by
  have hone : ∀ i (s : State), (setClash i s).census = s.census := fun i s => by
    unfold setClash
    split
    · next hc => exact setCand_sameStand_census hc rfl
    · rfl
  unfold markClashes
  split
  · rfl
  · exact takeInTurn_census _ _ hone s

theorem rescheduleRecords_census (s : State) (k : Fin 8) (old : Sitting) :
    (s.rescheduleRecords k old).census = s.census := by
  have htested : ((s.reordered k old).clashTested k old s.sittings[k]).census = s.census := by
    refine Eq.trans ?_ (reordered_relinked s k old).census
    unfold State.clashTested
    split
    · rfl
    · exact takeInTurn_census _ _ markClashes_census _
  rw [rescheduleRecords_eq]
  split
  · exact htested
  · exact htested

/-- The requests that the census does not see. -/
def leavesCensus : Instr → Bool
  | .amend .. | .schedule .. | .retireSitting _ | .setClock _ | .hold _ | .resume _ | .extend .. | .ackHand _
  | .resetRoom _ | .keyOpen .. | .keyEntries .. | .keySeal _ | .keyDiscard _ | .clearAttention _ | .setAttention .. | .clearFault => true
  | i => onlyReads i

theorem leavesCensus_census {i : Instr} (hi : leavesCensus i = true) {op : Owner} (ho : ownerRule i = some op)
    (hs : s.Stores) : (op s).1.census = s.census := by
  by_cases hr : onlyReads i = true
  · rw [reads_same hr ho]
  have held : ∀ on k, (setSittingHold on k s).1.census = s.census := fun on k => by
    unfold setSittingHold
    repeat' split
    all_goals simp
  cases i <;> simp only [leavesCensus, onlyReads, not_true, Bool.false_eq_true] at hr hi <;>
    simp only [ownerRule, Option.some.injEq] at ho <;> subst ho
  case amend =>
    unfold amend
    split
    · rfl
    next hres =>
    split
    · exact setCand_sameStand_census (State.cand_of_resolve hres) rfl
    · exact setCand_sameStand_census (State.cand_of_resolve hres) rfl
    all_goals rfl
  case hold => exact held true _
  case resume => exact held false _
  case extend =>
    unfold extend
    repeat' split
    all_goals first
      | rfl
      | skip
    rw [okOrClamped_fst]
    split
    · rfl
    · exact takeInTurn_census _ _ (extendRecord_census _) _
  case ackHand =>
    unfold ackHand
    split
    · rfl
    · exact hs.setSeat_sameChair_census rfl
  all_goals
    simp only [schedule, retireSitting, setClock, resetRoom, keyOpen, keyEntries, keySeal, keyDiscard, clearAttention,
      setAttention, clearFault]
    repeat' split
    all_goals first
      | rfl
      | simp [rescheduleRecords_census]

/-! ### Seats and rooms that are not in use (R45 to R47) -/

/-- A seat that no record has is rewritten, to one that is not in use. -/
theorem setSeat_turn (hx : x < 512) {v : Seat} (hfree : (s.seat x).state ∉ [SeatState.held, .occupied, .vacated])
    (hcand : (s.seat x).candidate = none → v.candidate = none)
    (hv : v.state ∉ [SeatState.held, .occupied, .vacated]) (hplace : v.state ≠ .outOfUse → v.place ≠ none) :
    s.Turn (s.setSeat x v) := by
  refine .of_quiet (setSeat_quiet hx v) (fun hs hl => ?_) fun hs _ ha => ?_
  · have hnone : (s.hall.chairs x).candidate = none := hl.unused hfree
    rw [show (s.setSeat x v).hall = s.hall.reseated x v.chair from congrArg Census.hall (hs.setSeat_census x v)]
    exact hl.reseated hnone (hcand hnone) hv hplace
  · rw [hs.setSeat_census]
    exact ha.congr rfl rfl rfl

theorem defineSeat_turn (i m r c : Nat) (desk : Option Nat) (f : Byte) (s : State) :
    s.Turn (defineSeat i m r c desk f s).1 := by
  unfold defineSeat
  split
  · exact .refl s
  split
  · exact .refl s
  next hr =>
  split
  · exact .refl s
  next hst =>
  split
  · exact .refl s
  split
  · exact .refl s
  · refine setSeat_turn (Nat.not_le.1 fun g => hr (.inl g)) ?_ (fun _ => rfl) (by simp [freshSeat]) fun _ => nofun
    simp [not_not.1 hst]

theorem setSeatState_turn (i st : Nat) (s : State) : s.Turn (setSeatState i st s).1 := by
  unfold setSeatState
  split
  · exact .refl s
  next hi =>
  have hlt : i < 512 := Nat.not_le.1 hi
  split
  · split
    · next hst =>
      unfold State.bringBack
      split
      · exact .refl s
      split
      · exact .refl s
      split
      · exact .refl s
      · exact setSeat_turn hlt (by simp [hst]) (fun _ => rfl) (by simp [freshSeat]) fun _ => nofun
    all_goals exact .refl s
  split
  · split
    · exact .refl s
    · next hst => exact setSeat_turn hlt (by simp [hst]) id (by simp [Seat.outOfUse]) fun h => absurd rfl h
    all_goals exact .refl s
  · exact .refl s

theorem setRoom_hall (m : Fin 4) (r : RoomRecord) (s : State) :
    (s.setRoom m r).hall = s.hall.separated m r.separation := by
  unfold State.hall Hall.separated
  refine congrArg (Hall.mk _ _) (funext fun i => ?_)
  dsimp only
  by_cases hi : i = m
  · subst hi
    simp
  · have : m.val ≠ i.val := fun e => hi (Fin.ext e.symm)
    simp [hi, this]

theorem setRoomSettings_turn (m : Nat) (on : Bool) (sep fill : Nat) (s : State) :
    s.Turn (setRoomSettings m on sep fill s).1 := by
  unfold setRoomSettings
  split
  · next m' sep' fill' _ _ _ =>
    split
    · exact .refl s
    next hnot =>
    have hcensus := followEnabled_census m' s.rooms[m'].enabled on
      (s.setRoom m' { s.rooms[m'] with enabled := on, separation := sep', fill := fill' })
    refine .of_quiet ((followEnabled_quiet ..).after (setRoom_quiet ..)) (fun hs hl => ?_) fun _ _ ha => ?_
    · rw [okWith_fst, show (followEnabled m' s.rooms[m'].enabled on (s.setRoom m'
        { s.rooms[m'] with enabled := on, separation := sep', fill := fill' })).hall =
          s.hall.separated m' sep' from (congrArg Census.hall hcensus).trans (setRoom_hall ..)]
      refine ⟨hl.separated m' sep', fun hp => hp.separated fun hne x k p hx hplace hm => ?_⟩
      obtain ⟨j, e, he, hex, -⟩ := hx
      have hused : (s.seat x).state ∈ [SeatState.held, .occupied, .vacated] := hl.used (hl.held he hex).1
      have hmem := mem_seats_of_state (x := x) hs fun e => by simp [e] at hused
      exact hnot ⟨.inl fun e => hne e.symm, (roomInUse_iff s m').2 ⟨_, p, hmem, hplace, hm, hused⟩⟩
    · rw [okWith_fst, hcensus]
      exact ha.congr rfl rfl rfl
  · exact .refl s

/-! ### Requests on a record (R9, R53, R58, R73, R76) -/

theorem withdraw_turn (n k : Nat) (s : State) : s.Turn (withdraw n k s).1 := by
  unfold withdraw
  split
  · exact .refl s
  next hres =>
  have hc := State.cand_of_resolve hres
  split
  · next hst =>
    have hended := endExpected_turn (st := .withdrawn) (by simp) (.of_cand hc (hst ▸ .head _))
    split
    · exact hended
    · exact hended.trans (closingTest_turn ..)
  iterate 3
    next hst => exact finish_turn _ (.of_cand hc (by simp [hst, writingStates]))
  all_goals exact .refl s

theorem submitFor_turn (n k : Nat) (s : State) : s.Turn (submitFor n k s).1 := by
  unfold submitFor
  split
  · exact .refl s
  next hres =>
  have hc := State.cand_of_resolve hres
  split
  iterate 3
    next hst => exact finish_turn _ (.of_cand hc (by simp [hst, writingStates]))
  all_goals exact .refl s

theorem unplace_turn (n k : Nat) (s : State) : s.Turn (unplace n k s).1 := by
  unfold unplace
  split
  · exact .refl s
  next hres =>
  split
  · next hst =>
    split
    · exact .refl s
    · next hx => exact unplaceSeat_turn (State.cand_of_resolve hres) hst hx
  all_goals exact .refl s

theorem restFor_turn (n k : Nat) (b : Bool) (s : State) : s.Turn (restFor n k b s).1 := by
  unfold restFor
  split
  · exact .refl s
  next hres =>
  have hc := State.cand_of_resolve hres
  split
  · exact .refl s
  · split
    · exact .refl s
    next hnone =>
    refine setResting_turn hc ?_ resting_writing
    unfold restRefusal at hnone
    split at hnone
    · cases hnone
    · next h => exact (not_not.1 fun e => h (.inl e)) ▸ active_writing
  · next hst => exact setResting_turn hc (hst ▸ resting_writing) active_writing
  · exact .refl s

theorem admitFor_turn (n k : Nat) (s : State) : s.Turn (admitFor n k s).1 := by
  cases hres : s.resolve n k with
  | error st =>
    have hsame : (admitFor n k s).1 = s := by simp [admitFor, hres]
    exact hsame.symm ▸ .refl s
  | ok y =>
    obtain ⟨j, c⟩ := y
    rw [admitFor_eq hres]
    split
    · exact .refl s
    split
    · exact .refl s
    next halone =>
    split
    · exact .refl s
    split
    · exact .refl s
    next hopen =>
    cases hx : s.seatFor c with
    | none => exact .refl s
    | some x =>
      exact seatRecord_turn none (State.cand_of_resolve hres) (not_not.1 fun e => hopen (.inl e)) hx
        (State.resolve_ok hres).2.2.1 (Bool.eq_false_iff.2 halone)

theorem issue_turn (n k d : Nat) (s : State) : s.Turn (issue n k d s).1 := by
  unfold issue
  split
  · exact .refl s
  split
  · exact .refl s
  next hres =>
  split
  · exact .refl s
  next hd =>
  split
  case h_7 hp =>
    split
    · exact issued_turn (by simpa using hd) (State.cand_of_resolve hres) hp _
    · exact .refl s
  all_goals exact .refl s

/-- A VOIDED script fits every record that another one fits. -/
theorem fits_voided {a : ScriptState} (c : CandState) (h : a.fits c = true) : ScriptState.fits .voided c = true := by
  cases a <;> simp_all [ScriptState.fits, or_assoc]

/-- A script that is not yet being marked is VOIDED (R116). -/
theorem voidScript_turn (d : Nat) (s : State) : s.Turn (voidScript d s).1 := by
  unfold voidScript
  split
  · exact .refl s
  next hy =>
  have hy := State.script_of_namedScript hy
  split
  iterate 3
    next hst => exact clearScript_turn hy (by simp [hst]) fits_voided
  all_goals exact .refl s

/-! ### ENROL and RETIRE (R5, R11) -/

theorem enrolAt_census (s : State) (j : Nat) (c : Candidate) :
    (s.enrolAt j c).census = { s.census with hall := s.hall.rewritten j (some c.stand) } := by
  have hmarked : (markClashes j ((s.setCand j c).joinChain c.number j)).census = (s.setCand j c).census :=
    (markClashes_census ..).trans (joinChain_relinked ..).census
  unfold State.enrolAt
  dsimp only
  split
  · exact hmarked.trans (setCand_census ..)
  · exact hmarked.trans (setCand_census ..)

theorem expected_not_admitted : CandState.expected ∉ admittedStates := by decide

theorem relinks_turn {i : Instr} (hi : relinks i = true) {op : Owner} (ho : ownerRule i = some op)
    (seats : s.Stores → s.hall.Seated → (op s).1.hall.Seated ∧ (s.hall.Spaced → (op s).1.hall.Spaced))
    (custody : s.Stores → s.census.Accounted → (op s).1.census.Accounted) : s.Turn (op s).1 where
  stores hs := stores_kept.relink s hi ho hs
  ordered hs hord := (ordered_kept.relink s hi ho ⟨hs, hord⟩).2
  seats := seats
  custody hs _ := custody hs

theorem enrol_cases (n k a r : Nat) (f : Byte) (s : State) : (enrol n k a r f s).1 = s ∨ ∃ j k', s.cand j = none ∧
    (enrol n k a r f s).1 = s.enrolAt j (newCandidate n k' a r f) := by
  unfold enrol
  split
  · exact .inl rfl
  split
  · exact .inl rfl
  next k' _ =>
  split
  · exact .inl rfl
  split
  · exact .inl rfl
  split
  · exact .inl rfl
  next j hj =>
  split
  · exact .inl rfl
  · exact .inr ⟨j, k', (freeRollSlot_eq_some.1 hj).2.1, rfl⟩

theorem enrol_turn (n k a r : Nat) (f : Byte) (s : State) : s.Turn (enrol n k a r f s).1 := by
  rcases enrol_cases n k a r f s with hsame | ⟨j, k', hfree, heq⟩
  · rw [hsame]
    exact .refl s
  have hcensus := (congrArg State.census heq).trans (enrolAt_census ..)
  have hnone : s.hall.records j = none := congrArg (Option.map Candidate.stand) hfree
  refine relinks_turn (i := .enrol n k a r f) rfl rfl (fun _ hl => ?_) fun _ ha => ?_
  · rw [show (enrol n k a r f s).1.hall = s.hall.rewritten j (some (newCandidate n k' a r f).stand)
      from congrArg Census.hall hcensus]
    refine hl.rewritten (fun c hc => by rw [hnone] at hc; cases hc) fun c hc => ?_
    cases hc
    exact ⟨rfl, expected_not_admitted⟩
  · rw [hcensus]
    exact ha.enrolled (d := (newCandidate n k' a r f).stand) hnone (fun _ => rfl) rfl rfl rfl

theorem retire_cases (n k : Nat) (s : State) : (retire n k s).1 = s ∨ ∃ j c, s.cand j = some c ∧
    c.state ∈ [CandState.cleared, .absent, .withdrawn] ∧ (∀ y ∈ s.scripts, y.2.slot = j → y.2.state ≠ .marking) ∧
    (retire n k s).1 = s.retireRecord j c := by
  unfold retire
  split
  · exact .inl rfl
  next j c hres =>
  split
  · exact .inl rfl
  next hfinal =>
  split
  · exact .inl rfl
  next hbusy =>
  split
  · exact .inl rfl
  · refine .inr ⟨j, c, State.cand_of_resolve hres, (final_iff _).1 (by simpa using hfinal), fun y hy hj hst => ?_, rfl⟩
    refine hbusy ?_
    exact List.any_eq_true.2 ⟨y, mem_boundScripts.2 ⟨hy, hj⟩, beq_iff_eq.2 hst⟩

theorem retireRecord_census (hs : s.Stores) (j : Nat) (c : Candidate) : (s.retireRecord j c).census =
    ⟨s.hall.rewritten j none, s.scripts.filter (fun y => y.2.slot != j), s.hand⟩ := by
  have hrel := leaveChain_relinked (s.withoutScripts j) c.number j
  have hs' := hrel.stores (hs.filterScripts _)
  have hrecords : ∀ i, (((s.withoutScripts j).leaveChain c.number j).eraseCand j).hall.records i =
      if i = j then none else s.hall.records i := fun i => by
    have hi := congrArg (fun a : Census => a.hall.records i) hrel.census
    show ((((s.withoutScripts j).leaveChain c.number j).eraseCand j).cand i).map Candidate.stand = _
    rw [cand_eraseCand hs']
    split
    · rfl
    · exact hi
  rw [retireRecord_eq]
  refine (congrArg (fun r => (⟨⟨r, _, _⟩, _, _⟩ : Census)) (funext hrecords)).trans ?_
  exact congrArg (fun a : Census => (⟨⟨fun i => if i = j then none else s.hall.records i, a.hall.chairs,
    a.hall.separations⟩, a.scripts, a.hand⟩ : Census)) hrel.census

theorem retire_turn (n k : Nat) (s : State) : s.Turn (retire n k s).1 := by
  rcases retire_cases n k s with hsame | ⟨j, c, hc, hfinal, hmark, heq⟩
  · rw [hsame]
    exact .refl s
  have hcensus := fun hs : s.Stores => (congrArg State.census heq).trans (retireRecord_census hs j c)
  refine relinks_turn (i := .retire n k) rfl rfl (fun hs hl => ?_) fun hs ha => ?_
  · rw [show (retire n k s).1.hall = s.hall.rewritten j none from congrArg Census.hall (hcensus hs)]
    refine hl.rewritten (fun d hd => ?_) nofun
    cases (records_of_cand hc).symm.trans hd
    cases hx : c.currentSeat with
    | none => exact hx
    | some x =>
      have hheld := (hl.held hd hx).2
      have hst : c.state.seatState = none := by
        simp only [List.mem_cons, List.not_mem_nil, or_false] at hfinal
        rcases hfinal with h | h | h <;> rw [h] <;> rfl
      cases hst.symm.trans hheld
  · rw [hcensus hs]
    exact ha.retired (fun _ => rfl) rfl rfl hs.scripts.1.1 (tableSorted_filter _ _ hs.scripts.1.1) hmark

/-! ### Every owner's rule -/

theorem ownerRule_turn {i : Instr} {op : Owner} (ho : ownerRule i = some op) (s : State) : s.Turn (op s).1 := by
  cases hl : leavesCensus i with
  | true =>
    cases hr : relinks i with
    | false => exact .idle (ownerRule_quiet hr ho s) fun hs => leavesCensus_census hl ho hs
    | true =>
      refine relinks_turn hr ho (fun hs hseated => ?_) fun hs ha => (leavesCensus_census hl ho hs).symm ▸ ha
      rw [show (op s).1.hall = s.hall from congrArg Census.hall (leavesCensus_census hl ho hs)]
      exact ⟨hseated, id⟩
  | false =>
    cases i <;> simp only [leavesCensus, onlyReads, Bool.true_eq_false] at hl <;>
      simp only [ownerRule, Option.some.injEq, reduceCtorEq] at ho <;> subst ho
    case enrol => exact enrol_turn ..
    case retire => exact retire_turn ..
    case withdraw => exact withdraw_turn ..
    case defineSeat => exact defineSeat_turn ..
    case seatState => exact setSeatState_turn ..
    case setRoom => exact setRoomSettings_turn ..
    case admitFor => exact admitFor_turn ..
    case place => exact place_turn ..
    case unplace => exact unplace_turn ..
    case move => exact move_turn ..
    case restFor => exact restFor_turn ..
    case submitFor => exact submitFor_turn ..
    case issue => exact issue_turn ..
    case void => exact voidScript_turn ..
    case handOver => exact handOver_turn ..
    case handOverSitting => exact handOverSitting_turn ..
    case remark => exact remark_turn ..
    case clearTraffic => exact clearTraffic_turn s

end Sys2Proof.Machine
end

