-- ==== Sys2Proof/Proofs/RecordLaws.lean ====
section
/-! SUPPORT. Every step is a turn, and so keeps the laws of seats, of separation and of candidates (R43, R48, R52, R107,
R112). -/

namespace Sys2Proof.Machine

variable {s t : State}

/-! ### The resets -/

theorem records_of_empty (hroll : s.roll = []) (j : Nat) : s.hall.records j = none := by
  simp [State.hall, State.cand, hroll, tableFind]

/-- Without records and seats, seats and records agree. -/
theorem seated_of_empty (hroll : s.roll = []) (hseats : s.seats = []) : s.hall.Seated := by
  have hrec := records_of_empty hroll
  have hchair : ∀ x, s.hall.chairs x = Seat.undefinedRecord.chair := fun x => by
    simp [State.hall, State.seat, hseats, tableFind]
  refine ⟨fun {x j} h => ?_, fun {x} h => ?_, fun {x} h => ?_, fun h => ?_, fun h => ?_⟩
  · rw [hchair] at h
    cases h
  · rw [hchair] at h
    exact absurd h (by decide)
  · rw [hchair] at h
    exact absurd rfl h
  · rw [hrec] at h
    cases h
  · rw [hrec] at h
    cases h

theorem spaced_of_empty (hroll : s.roll = []) : s.hall.Spaced := by
  rintro x p k ⟨j, c, hc, -⟩
  rw [records_of_empty hroll] at hc
  cases hc

theorem accounted_of_empty (hroll : s.roll = []) (hscripts : s.scripts = []) (hhand : s.hand = none) :
    s.census.Accounted := by
  have hrec := records_of_empty hroll
  have hnone : s.census.scripts = [] := hscripts
  refine ⟨⟨fun {i j c d} _ h => ?_, fun y hy => ?_, fun j => ?_, fun h hh => ?_⟩, fun j c h => ?_⟩
  · cases (hrec i).symm.trans h
  · rw [hnone] at hy
    cases hy
  · rw [hnone]
    exact Nat.zero_le 4
  · cases hhand.symm.trans hh
  · cases (hrec j).symm.trans h

/-- A reset leaves no records. -/
theorem empty_turn {i : Instr} (he : exec i s = .next t) (hroll : t.roll = []) (hseats : t.seats = [])
    (hscripts : t.scripts = []) (hhand : t.hand = none) : s.Turn t where
  stores hs := stores_kept.exec i hs he
  ordered hs ho := (ordered_kept.exec i ⟨hs, ho⟩ he).2
  seats _ _ := ⟨seated_of_empty hroll hseats, fun _ => spaced_of_empty hroll⟩
  custody _ _ _ := accounted_of_empty hroll hscripts hhand

/-! ### Every step -/

theorem turn_conserved (s : State) : Conserved (fun u => s.Turn u) where
  port p u h := h.trans (.idle (setPort_quiet p u) fun _ => rfl)
  fault cls d u h := h.trans (.idle (reportFault_quiet cls d u) fun _ => reportFault_census u cls d)
  owner ho u h := h.trans (ownerRule_turn ho u)

theorem exec_turn (i : Instr) (he : exec i s = .next t) : s.Turn t := by
  cases ho : ownerRule i with
  | some op => exact (turn_conserved s).request ho (.refl s) he
  | none =>
    cases hl : ofLine i with
    | true => exact (turn_conserved s).line hl (.refl s) he
    | false =>
      have event : ∀ {f : State → State}, s.Turn (f s) → whileRunning f s = .next t → s.Turn t :=
        fun hf he => Conserved.whileRunning (P := fun u => s.Turn u) hf (.refl s) he
      have he' := he
      cases i <;> simp only [ownerRule, ofLine, reduceCtorEq, Bool.true_eq_false] at ho hl
      case hallSecond => exact event (hallSecond_turn s) he
      case holdFilterChange =>
        exact event (.idle (holdFilterChange_quiet s) fun _ => holdFilterChange_census s) he
      case deskAnswer m d f => exact event (deskAnswer_turn m d f s) he
      case timeSent m d => exact event (timeSent_turn m d s) he
      case showSent m d => exact event (showSent_turn m d s) he
      case pollSent m d => exact event (pollSent_turn m d s) he
      case answerWindowTimeout m d => exact event (answerWindowTimeout_turn m d s) he
      case sheetBegin d p c1 c2 c3 c4 => exact event (sheetBegin_turn d p c1 c2 c3 c4 s) he
      case row n a b c d e => exact event (sheetRow_turn n ⟨a, b, c, d, e⟩ s) he
      case sheetEnd n => exact event (sheetEnd_turn n s) he
      case scannerBadFrame => exact event (scannerFrame_turn badScannerFrame_turn s) he
      case sheetGapTimeout => exact event (sheetGapTimeout_turn s) he
      case beginAnswerSent => exact event (transmitterEvent_turn s).1 he
      case verdictSent => exact event (transmitterEvent_turn s).2.1 he
      case portResetSent => exact event (transmitterEvent_turn s).2.2 he
      case markingComplete => exact event (markingComplete_turn s) he
      case hallHoldEdge high =>
        simp only [exec, execHallHoldEdge] at he
        split at he <;> cases he <;> exact .idle (setHoldFilter_quiet ..) fun _ => rfl
      case powerUp =>
        cases he
        exact empty_turn he' rfl rfl rfl rfl
      case hallReset =>
        simp only [exec, execHallReset] at he
        split at he <;> cases he
        · exact empty_turn he' rfl rfl rfl rfl
        all_goals exact .refl s
      case powerUpEnd pol =>
        simp only [exec, execPowerUpEnd] at he
        split at he <;> cases he
        · exact .idle (endReset_quiet ..) fun _ => rfl
        all_goals exact .refl s
      case hallResetEnd pol =>
        simp only [exec, execHallResetEnd] at he
        split at he <;> cases he
        · exact .idle (endReset_quiet ..) fun _ => rfl
        all_goals exact .refl s

theorem step_turn (he : step s = .next t) : s.Turn t := by
  unfold step at he
  split at he
  · cases he
    exact .refl s
  · next i rest _ =>
    have taken : s.Turn { s with pending := rest } := .idle (setPending_quiet ..) fun _ => rfl
    exact taken.trans (exec_turn i he)

/-! ### The laws -/

/-- While a sheet is in hand its script is being marked (R143). -/
theorem hand_marking (h : s.intakeLaw = true) :
    ∀ h, s.hand = some h → ∃ y, s.script h.serial = some y ∧ y.state = .marking := by
  intro w hw
  unfold State.intakeLaw at h
  split at h
  · have hmark : s.markingLaw = true := (Bool.and_eq_true_iff.1 h).2
    unfold State.markingLaw at hmark
    simp only [hw, Bool.and_eq_true, List.all_eq_true, beq_iff_eq] at hmark
    obtain ⟨hall, hscript⟩ := hmark
    cases hy : s.script w.serial with
    | none => simp [hy] at hscript
    | some y =>
      have hone := hall _ (mem_of_tableFind _ _ _ hy)
      exact ⟨y, rfl, by simpa using hone⟩
  all_goals
    simp only [Bool.and_eq_true, beq_iff_eq] at h
    cases h.1.2.symm.trans hw

/-- Settles O11: every step is a turn, which keeps the agreement of seats and records. -/
theorem stepKeepsTheSeatLaw : Obligations.StepKeepsTheSeatLaw := by
  intro s t hstore hlaw he
  have hs := (storeLaw_iff s).1 hstore
  have h := step_turn he
  exact (seatLaw_iff (h.stores hs)).2 (h.seats hs ((seatLaw_iff hs).1 hlaw)).1

/-- Settles O12: a seat is taken only where it is clear of the others of the sitting. -/
theorem stepKeepsTheSeparationLaw : Obligations.StepKeepsTheSeparationLaw := by
  intro s t hstore hlaw hsep he
  have hs := (storeLaw_iff s).1 hstore
  have hl := (seatLaw_iff hs).1 hlaw
  have h := step_turn he
  obtain ⟨hl', hsep'⟩ := h.seats hs hl
  exact (separationLaw_iff (h.stores hs) hl').2 (hsep' ((separationLaw_iff hs hl).1 hsep))

/-- Settles O14: the chain of a number, which the law of the directory makes complete, tells whether another of its
records is admitted, and a DONE record is cleared with its last script. -/
theorem stepKeepsTheCandidateLaw : Obligations.StepKeepsTheCandidateLaw := by
  intro s t hstore hdir hintake hlaw he
  have hs := (storeLaw_iff s).1 hstore
  have h := step_turn he
  have ha := (candidateLaw_iff hs).1 ⟨hlaw, hand_marking hintake⟩
  exact ((candidateLaw_iff (h.stores hs)).2 (h.custody hs ((directoryLaw_iff hs).1 hdir) ha)).1

end Sys2Proof.Machine
end

