-- ==== Sys2Proof/Proofs/HoldInput.lean ====
section
/-! SUPPORT. The hall hold input (R33, R34): the filtered level reaches the sittings one after another, and the ENDs that
follow a released hold do not look at the sittings (R79). -/

namespace Sys2Proof.Machine

variable {s u : State} {g : Sitting} {k : Fin 8} {f : HoldFilter} {v : Vector Sitting 8} {on : Bool}

/-! ### The desks do not look at the holds (R85, R89) -/

/-- A state with another hold filter and other sitting records. -/
def State.withHolds (s : State) (f : HoldFilter) (v : Vector Sitting 8) : State := { s with holdFilter := f, sittings := v }

theorem withHolds_setSitting (s : State) (f : HoldFilter) (v : Vector Sitting 8) (k : Fin 8) (g : Sitting) :
    (s.withHolds f v).setSitting k g = s.withHolds f (v.set k g) := rfl

theorem offerDesk_withHolds (x : Nat) (w : ShowContent) (s : State) (f : HoldFilter) (v : Vector Sitting 8) :
    offerDesk x w (s.withHolds f v) = (offerDesk x w s).withHolds f v := by
  unfold offerDesk
  rw [show (s.withHolds f v).seat x = s.seat x from rfl, show (s.withHolds f v).segments = s.segments from rfl]
  cases (s.seat x).binds with
  | none => rfl
  | some y =>
    obtain ⟨m, a⟩ := y
    dsimp only
    cases s.segments[m].line with
    | disabled => rfl
    | master | awaiting b =>
      cases (s.seat x).deskStatus <;> cases (offerQueue ⟨a, w⟩ s.segments[m].queue).2 <;> rfl

theorem showEndOf_withHolds (j : Nat) (s : State) (f : HoldFilter) (v : Vector Sitting 8) :
    showEndOf j (s.withHolds f v) = (showEndOf j s).withHolds f v := by
  unfold showEndOf showEnd endAt
  rw [show (s.withHolds f v).cand j = s.cand j from rfl]
  cases s.cand j with
  | none => rfl
  | some c =>
    dsimp only
    cases c.currentSeat with
    | none => rfl
    | some x =>
      cases c.personalEnd with
      | none => rfl
      | some pe => exact offerDesk_withHolds ..

theorem showEnds_withHolds (l : List Nat) (s : State) (f : HoldFilter) (v : Vector Sitting 8) :
    takeInTurn l showEndOf (s.withHolds f v) = (takeInTurn l showEndOf s).withHolds f v := by
  induction l generalizing s with
  | nil => rfl
  | cons j l ih =>
    show takeInTurn l showEndOf (showEndOf j (s.withHolds f v)) = (takeInTurn l showEndOf (showEndOf j s)).withHolds f v
    rw [showEndOf_withHolds, ih]

/-! ### One sitting follows the filtered level (R34, R79) -/

/-- A sitting record as the filtered level has reached it (R34). -/
def Sitting.following (on : Bool) (g : Sitting) : Sitting :=
  if g.running then { g with hold := ⟨on, g.hold.sitting⟩ } else g

/-- The filtered level leaves a sitting no hold source: the level is not the hold's, and HALL is the one source (R79). -/
def Sitting.releasedBy (on : Bool) (g : Sitting) : Bool := !on && (g.running && g.hold == ⟨true, false⟩)

theorem following_following (on : Bool) (g : Sitting) : (g.following on).following on = g.following on := by
  unfold Sitting.following
  cases h : g.running with
  | false => simp [h]
  | true =>
    have hr : Sitting.running { g with hold := ⟨on, g.hold.sitting⟩ } = true := h
    simp [hr]

theorem releasedBy_iff (hr : g.running = true) :
    g.releasedBy on = (g.held && !HoldSources.any { g.hold with hall := on }) := by
  unfold Sitting.releasedBy Sitting.held HoldSources.any
  rw [hr]
  rcases g.hold with ⟨hall, sitting⟩
  cases on <;> cases hall <;> cases sitting <;> rfl

theorem followHallHold_withHolds (on : Bool) (k : Fin 8) (s : State) (f : HoldFilter) (v : Vector Sitting 8) :
    followHallHold on k (s.withHolds f v) =
      (if v[k].releasedBy on then takeInTurn (s.timedOf k) showEndOf s else s).withHolds f
        (v.set k (v[k].following on)) := by
  unfold followHallHold
  rw [show (s.withHolds f v).sittings = v from rfl]
  cases hr : v[k].running with
  | false =>
    have hkept : v[k].following on = v[k] := if_neg (Bool.eq_false_iff.1 hr)
    have hnone : v[k].releasedBy on = false := by rw [Sitting.releasedBy, hr, Bool.false_and, Bool.and_false]
    rw [hkept, hnone]
    exact (setSitting_same (s.withHolds f v) k).symm
  | true =>
    unfold changeHold
    rw [show (s.withHolds f v).sittings = v from rfl, ← releasedBy_iff hr, withHolds_setSitting, Sitting.following, hr]
    cases v[k].releasedBy on with
    | false => rfl
    | true => exact showEnds_withHolds ..

/-! ### All sittings, one after another -/

/-- The sitting records as the filtered level has reached those of a list. -/
def followed (on : Bool) (l : List (Fin 8)) (v : Vector Sitting 8) : Vector Sitting 8 :=
  l.foldl (fun v (k : Fin 8) => v.set k (v[k].following on)) v

theorem followed_get (on : Bool) (l : List (Fin 8)) (v : Vector Sitting 8) (i : Fin 8) :
    (followed on l v)[i] = if i ∈ l then v[i].following on else v[i] := by
  induction l generalizing v with
  | nil => rfl
  | cons k l ih =>
    show (followed on l (v.set k (v[k].following on)))[i] = _
    rw [ih, sitting_set]
    by_cases hik : i = k
    · subst hik
      simp [following_following]
    · simp [hik]

/-- The filtered level leaves a sitting no hold source (R79). -/
def State.releases (s : State) (on : Bool) (k : Fin 8) : Bool := s.sittings[k].releasedBy on

theorem State.Spoken.timedOf (h : s.Spoken u) (k : Fin 8) : u.timedOf k = s.timedOf k := by
  unfold State.timedOf State.slotsWhere
  rw [h.roll]

/-- The sittings follow one after another; the ENDs of each that is released are those of its records in `s`. -/
theorem followHallHolds_eq {l : List (Fin 8)} (hl : l.Nodup) (hu : s.Spoken u) (hv : ∀ k ∈ l, v[k] = s.sittings[k]) :
    takeInTurn l (followHallHold on) (u.withHolds f v) =
      (takeInTurn (l.filter (s.releases on)) (fun k => takeInTurn (s.timedOf k) showEndOf) u).withHolds f
        (followed on l v) := by
  induction l generalizing u v with
  | nil => rfl
  | cons k l ih =>
    obtain ⟨hk, hl⟩ := List.nodup_cons.1 hl
    have hrest : ∀ g, ∀ i ∈ l, (v.set k g)[i] = s.sittings[i] := fun g i hi => by
      rw [sitting_set, if_neg fun e : i = k => hk (e ▸ hi)]
      exact hv i (List.mem_cons_of_mem _ hi)
    show takeInTurn l _ (followHallHold on k (u.withHolds f v)) =
      State.withHolds _ f (followed on l (v.set k (v[k].following on)))
    rw [followHallHold_withHolds, hv k List.mem_cons_self, hu.timedOf]
    cases hreleased : s.sittings[k].releasedBy on with
    | false =>
      rw [List.filter_cons_of_neg (p := s.releases on) (Bool.eq_false_iff.1 hreleased)]
      exact ih hl hu (hrest _)
    | true =>
      rw [List.filter_cons_of_pos (p := s.releases on) hreleased]
      exact ih hl (hu.trans (takeInTurn_spoken _ _ showEndOf_spoken u)) (hrest _)

/-! ### The filter (R33, R34) -/

/-- The filter as its settling time ends: it has taken the raw level, and no change is in waiting. -/
def HoldFilter.settled (f : HoldFilter) : HoldFilter := { f with filtered := f.raw, waiting := false }

/-- The ENDs as the filtered level changes, for the sittings that it leaves no hold source (R79). -/
def State.releaseEnds (s : State) (on : Bool) : State :=
  takeInTurn (eight.filter (s.releases on)) (fun k => takeInTurn (s.timedOf k) showEndOf) s

theorem releaseEnds_spoken (s : State) (on : Bool) : s.Spoken (s.releaseEnds on) :=
  takeInTurn_spoken _ _ (fun _ => takeInTurn_spoken _ _ showEndOf_spoken) s

theorem releaseEnds_held (s : State) : s.releaseEnds true = s := by
  have hnone : s.releases true = fun _ => false := rfl
  rw [State.releaseEnds, hnone, List.filter_false]
  rfl

theorem changeFiltered_eq (s : State) : changeFiltered s =
    ((s.releaseEnds s.holdFilter.raw).withHolds s.holdFilter.settled
      (followed s.holdFilter.raw eight s.sittings)).raise .time :=
  congrArg (State.raise · .time) (followHallHolds_eq eight_nodup (.refl s) fun _ _ => rfl)

theorem exec_holdFilterChange (h : s.resetHold = .running) :
    exec .holdFilterChange s = .next (holdFilterChange s) := whileRunning_running holdFilterChange s h

/-- Settles O36: the sittings follow one after another, and the ENDs that one is told are the same whether the others have
followed or not. -/
theorem hallHoldInputIsFiltered : Obligations.HallHoldInputIsFiltered := by
  refine fun s => ⟨fun high h => ?_, fun high h => ?_, fun h hw => ?_, fun h hw => ?_⟩
  · show execHallHoldEdge high s = _
    rw [execHallHoldEdge, h]
    rfl
  · show execHallHoldEdge high s = _
    unfold execHallHoldEdge
    cases hr : s.resetHold with
    | running => exact absurd hr h
    | powerUp | hallReset => rfl
  · rw [exec_holdFilterChange h, holdFilterChange, hw]
    rfl
  · have hspoken := releaseEnds_spoken s s.holdFilter.raw
    have hchange : holdFilterChange s = changeFiltered s := by rw [holdFilterChange, hw]; rfl
    refine ⟨_, exec_holdFilterChange h, ?_⟩
    rw [hchange, changeFiltered_eq]
    refine ⟨?_, hspoken.queues, fun hon => ?_, fun z hz hon => ?_, fun k => ?_⟩
    · conv_lhs => rw [hspoken.desks]
      rfl
    · have hraw : s.holdFilter.raw = true := hon
      rw [hraw, releaseEnds_held]
      exact ⟨rfl, rfl⟩
    · have hraw : s.holdFilter.raw = false := hon
      rw [hraw, hz]
      exact ⟨rfl, rfl⟩
    · exact (followed_get ..).trans (if_pos (mem_eight k))

end Sys2Proof.Machine
end

