-- ==== Sys2Proof/Proofs/DeskEvents.lean ====
section
/-! SUPPORT. The desk buttons, the badge and the slot reader (R61, R72 to R75, R108, R109), by the state of the seat whose
desk reports. -/

namespace Sys2Proof.Machine

variable {s : State} {x j n d a pe : Nat} {c : Candidate} {p : SeatPlace} {v : Seat} {y : Script} {e : DeskEvent}

/-! ### Seats without a candidate at work (R72, R108) -/

theorem deliverDesk_notAllocated (he : e ∈ [DeskEvent.rest true, .submit, .slot d])
    (hx : (s.seat x).state ∈ [SeatState.free, .held]) : deliverDesk x e s = offerDesk x (.notice .notAllocated) s := by
  simp only [List.mem_cons, List.not_mem_nil, or_false] at he hx
  rcases he with rfl | rfl | rfl
  · rcases hx with hx | hx <;> simp only [deliverDesk, deskRest, hx]
  · rcases hx with hx | hx <;> simp only [deliverDesk, deskSubmit, hx]
  · rcases hx with hx | hx <;> simp only [deliverDesk, deskSlot, hx]

theorem deliverDesk_vacated (he : e ∈ [DeskEvent.rest true, .submit, .slot d]) (hx : (s.seat x).state = .vacated) :
    deliverDesk x e s = offerDesk x (.notice .done) s := by
  simp only [List.mem_cons, List.not_mem_nil, or_false] at he
  rcases he with rfl | rfl | rfl
  · simp only [deliverDesk, deskRest, hx]
  · simp only [deliverDesk, deskSubmit, hx]
  · simp only [deliverDesk, deskSlot, hx]

theorem deskRest_ignored (hx : (s.seat x).state ∈ [SeatState.free, .held, .vacated]) : deskRest x false s = s := by
  simp only [List.mem_cons, List.not_mem_nil, or_false] at hx
  rcases hx with hx | hx | hx <;> simp only [deskRest, hx]

/-! ### The badge (R61) -/

theorem badgeMatches_iff : s.badgeMatches v n = true ↔ n ≤ 99999999 ∧ ∃ j, v.candidate = some j ∧ j ∈ s.chain n := by
  unfold State.badgeMatches
  rw [Bool.and_eq_true, decide_eq_true_iff]
  refine and_congr Iff.rfl ?_
  cases v.candidate <;> simp

theorem deskTap_free (hx : (s.seat x).state = .free) : deskTap x n s = offerDesk x (.notice .notAllocated) s := by
  simp only [deskTap, hx]

theorem deskTap_matching (h : s.badgeMatches (s.seat x) n = true) :
    ((s.seat x).state = .held → deskTap x n s = offerDesk x (.notice .notAllocated) s) ∧
    ((s.seat x).state = .vacated → deskTap x n s = offerDesk x (.notice .done) s) ∧
    ((s.seat x).state = .occupied → deskTap x n s = confirmSeat x s) := by
  unfold deskTap
  rw [h]
  exact ⟨fun hx => by rw [hx], fun hx => by rw [hx], fun hx => by rw [hx]⟩

theorem deskTap_stray (h : s.badgeMatches (s.seat x) n = false)
    (hx : (s.seat x).state ∈ [SeatState.held, .occupied, .vacated]) : deskTap x n s = wrongSeat x n s := by
  simp only [List.mem_cons, List.not_mem_nil, or_false] at hx
  unfold deskTap
  rcases hx with hx | hx | hx <;> rw [hx, h]

theorem confirmSeat_eq (hj : (s.seat x).candidate = some j) (hc : s.cand j = some c) (hp : (s.seat x).place = some p) :
    confirmSeat x s = offerDesk x (.seat p.room p.row p.column c.number c.sitting)
      (s.setCand j { c with flags := { c.flags with confirmed := true } }) := by
  unfold confirmSeat
  rw [hj]
  dsimp only
  rw [hc]
  exact showSeat_eq (s := s.setCand j { c with flags := { c.flags with confirmed := true } }) hp

theorem wrongSeat_eq (hp : (s.seat x).place = some p) (n : Nat) : wrongSeat x n s =
    { offerDesk x (.notice .wrongSeat) s with
      rooms := s.rooms.set p.room { s.rooms[p.room] with lastWrongSeat := some ⟨x, n, s.hallTime⟩ },
      attention := (s.raise .desk).attention } := by
  have hframe := offerDesk_desks x (.notice .wrongSeat) s
  have hrooms : (offerDesk x (.notice .wrongSeat) s).rooms = s.rooms := by rw [hframe]
  have hatt : (offerDesk x (.notice .wrongSeat) s).attention = s.attention := by rw [hframe]
  rw [wrongSeat, hp]
  simp only [State.setRoom, State.raise, hrooms, hatt]

/-! ### Rest (R73, R74) -/

theorem deskRest_occupied (hx : (s.seat x).state = .occupied) (hj : (s.seat x).candidate = some j)
    (hc : s.cand j = some c) (b : Bool) :
    deskRest x b s = if b then deskRestBegin j c s else deskRestEnd j c s := by
  unfold deskRest
  rw [hx, hj]
  dsimp only
  rw [hc]

theorem deskRest_resting (hst : c.state = .resting) (s : State) (j : Nat) :
    deskRestBegin j c s = s ∧ deskRestEnd j c s = setResting .active j c s := by
  simp only [deskRestBegin, deskRestEnd, hst, and_self]

theorem deskRestEnd_ignored (hst : c.state ≠ .resting) (s : State) (j : Nat) : deskRestEnd j c s = s := by
  unfold deskRestEnd
  cases h : c.state with
  | resting => exact absurd h hst
  | expected | seated | active | done | cleared | absent | withdrawn => rfl

theorem showNotice_seated (hseat : c.currentSeat = some x) (w : Notice) (s : State) :
    showNotice c w s = offerDesk x (.notice w) s := by rw [showNotice, hseat]

/-- A REST begin is refused with the notice of its reason, or taken (R72, R73). -/
theorem deskRestBegin_eq (hst : c.state ≠ .resting) (hseat : c.currentSeat = some x) (s : State) (j : Nat) :
    deskRestBegin j c s = (restRefusal c s.sittings[c.sitting]).elim (setResting .resting j c s)
      (fun st => offerDesk x (.notice (buttonNotice st)) s) := by
  have hshown : ∀ st, showNotice c (buttonNotice st) s = offerDesk x (.notice (buttonNotice st)) s := fun st =>
    showNotice_seated hseat ..
  unfold deskRestBegin
  cases h : c.state with
  | resting => exact absurd h hst
  | expected | seated | active | done | cleared | absent | withdrawn =>
    cases restRefusal c s.sittings[c.sitting] with
    | none => rfl
    | some st => exact hshown st

/-! ### Finishing early (R75, R77, R111) -/

theorem deskSubmit_eq (hx : (s.seat x).state = .occupied) (hj : (s.seat x).candidate = some j) (hc : s.cand j = some c)
    (hseat : c.currentSeat = some x) : deskSubmit x s =
      (submitRefusal c s.sittings[c.sitting] s.hallTime).elim (finish .submitted j s)
        (fun w => offerDesk x (.notice w) s) := by
  unfold deskSubmit
  rw [hx, hj]
  dsimp only
  rw [hc]
  dsimp only
  cases submitRefusal c s.sittings[c.sitting] s.hallTime with
  | none => rfl
  | some w => exact showNotice_seated hseat ..

theorem submitRefusal_stay (hst : c.state ∉ [CandState.active, .resting]) (g : Sitting) (now : Nat) :
    submitRefusal c g now = some .stay := if_pos (by simpa using hst)

/-- The checks of a SUBMIT of a candidate who writes or rests (R75). -/
theorem submitRefusal_writing (hst : c.state ∈ [CandState.active, .resting]) (hpe : c.personalEnd = some pe) (g : Sitting)
    (now : Nat) : submitRefusal c g now = if g.held then some .held
      else if g.e < g.r + g.e1 ∨ pe - now ≤ g.e2 then some .earlyBar else none := by
  have hpass : ¬ (c.state ≠ .active ∧ c.state ≠ .resting) := by
    simp only [List.mem_cons, List.not_mem_nil, or_false] at hst
    tauto
  rw [submitRefusal, if_neg hpass, Candidate.remaining, hpe, Option.getD_some]
  by_cases hbar : g.e < g.r + g.e1 <;> simp [hbar]

theorem finish_submitted (hc : s.cand j = some c) (hseat : c.currentSeat = some x) :
    finish .submitted j s = closingTest c.sitting (finishedAt x j { c with state := .done } s) := by
  rw [finish_eq hc hseat]
  exact congrArg _ (submitOnFinish_finishedAt (d := { c with state := .done }) rfl hseat s)

theorem finishedAt_frame (x j : Nat) (c : Candidate) (s : State) : finishedAt x j c s = { s with
    roll := (finishedAt x j c s).roll, seats := (finishedAt x j c s).seats, segments := (finishedAt x j c s).segments,
    attention := (finishedAt x j c s).attention, scripts := s.submittedScripts j } := by
  unfold finishedAt
  conv_lhs => rw [(finishedDesk_givenUp x j s).frame]
  rfl

/-- A candidate with a script out is DONE at a VACATED seat (R111). -/
theorem finishedAt_out (h : s.scriptOut j = true) (x : Nat) (c : Candidate) :
    (finishedAt x j c s).roll = tableInsert s.roll j { c with state := .done } ∧
    ((finishedAt x j c s).seat x).butStale = ((s.seat x).vacatedBy j).butStale ∧
    (finishedAt x j c s).attention = s.attention := by
  have hseat := (finishedDesk_givenUp x j s).seat
  have hbound : ¬ (s.boundScripts j).isEmpty = true := fun hempty => by
    rw [scriptOut_of_empty hempty] at h
    cases h
  rw [h, if_pos rfl] at hseat
  exact ⟨by rw [finishedAt, h, if_pos rfl], hseat, if_neg hbound⟩

/-- A candidate without a script out is CLEARED, and the seat FREE (R111, R112). -/
theorem finishedAt_returned (h : s.scriptOut j = false) (x : Nat) (c : Candidate) :
    (finishedAt x j c s).roll = tableInsert s.roll j (c.clearedBy (s.boundScripts j).isEmpty) ∧
    ((finishedAt x j c s).seat x).butStale = (s.seat x).freed.butStale ∧
    (finishedAt x j c s).attention =
      if (s.boundScripts j).isEmpty then (s.raise .custody).attention else s.attention := by
  have hseat := (finishedDesk_givenUp x j s).seat
  rw [h, if_neg Bool.false_ne_true] at hseat
  exact ⟨by rw [finishedAt, h, if_neg Bool.false_ne_true]; rfl, hseat, rfl⟩

/-! ### The slot reader (R108, R109) -/

theorem deskSlot_occupied (hx : (s.seat x).state = .occupied) (hj : (s.seat x).candidate = some j)
    (hc : s.cand j = some c) (d : Nat) : deskSlot x d s = deskIssue x d j c s := by
  unfold deskSlot
  rw [hx, hj]
  dsimp only
  rw [hc]

theorem deskIssue_badSerial (hv : validSerial d = false) : deskIssue x d j c s = offerDesk x (.notice .badSerial) s := by
  rw [deskIssue, hv]
  rfl

theorem issueCheck_bound (hy : s.script d = some y) (desk : Bool) (j : Nat) (c : Candidate) :
    s.issueCheck desk d j c = if y.slot = j then .already else .wrongOwner := by rw [State.issueCheck, hy]

/-- Checks 4 to 7 of R109 at a desk. -/
theorem issueCheck_unbound (hnone : s.script d = none) (hst : c.state ∈ [CandState.seated, .active, .resting]) (j : Nat) :
    (c.flags.confirmed = false → s.issueCheck true d j c = .notConfirmed) ∧
    (c.flags.confirmed = true → s.issueCheck true d j c = if 4 ≤ (s.boundScripts j).length then .limit
      else if 2048 ≤ s.scripts.length then .full else .passes) := by
  rw [State.issueCheck, hnone]
  dsimp only
  rw [if_neg (not_not.2 (show c.state ∈ writingStates from hst))]
  exact ⟨fun hconf => by rw [hconf]; rfl, fun hconf => by rw [hconf]; rfl⟩

theorem deskIssueRefused_eq {m : Fin 4} (hb : (s.seat x).binds = some (m, a)) (d : Nat) (why : CustodyReason) :
    s.deskIssueRefused x d why =
      { s with lastCustodyRefusal := some ⟨d, why, m, a, s.hallTime⟩ }.raise .custody := by
  rw [State.deskIssueRefused, hb]
  rfl

/-- The first digit of a serial is what is left of its other six (R106). -/
theorem serialKind_of_valid (hv : validSerial d = true) :
    serialKind d = if d / 1000000 ≤ 4 then .booklet else .sheet := by
  have hle := validSerial_le hv
  have hdigit : digit 6 d = d / 1000000 := Nat.mod_eq_of_lt (by omega)
  rw [serialKind, hdigit]

/-- An issue that the checks pass inserts the script, and the desk is told SEAT (R109). -/
theorem deskIssue_passes (hv : validSerial d = true) (hpass : s.issueCheck true d j c = .passes)
    (hseat : c.currentSeat = some x) (hp : (s.seat x).place = some p) : deskIssue x d j c s =
      offerDesk x (.seat p.room p.row p.column c.number c.sitting)
        (s.setScript d (newScript d j c ⟨x, p.room, p.row, p.column⟩)) := by
  have hcopy : s.currentSeatCopy c = some ⟨x, p.room, p.row, p.column⟩ := by
    rw [State.currentSeatCopy, hseat, Option.bind_some, State.seatCopy, hp]
    rfl
  rw [deskIssue, hv, hpass, hcopy]
  exact showSeat_eq (s := s.setScript d (newScript d j c ⟨x, p.room, p.row, p.column⟩)) hp

/-- Settles O46: each event by the state of the seat, and at an OCCUPIED one by the checks of its rule. -/
theorem deskEventsReachTheirOwners : Obligations.DeskEventsReachTheirOwners := by
  refine ⟨fun s x d => ⟨fun e he => ⟨deliverDesk_notAllocated he, deliverDesk_vacated he⟩, deskRest_ignored, rfl, rfl⟩,
    fun s x n matching hm => ?_, fun s x j c g hx hj hc hseat hg => ?_⟩
  · have hbadge : s.badgeMatches (s.seat x) n = true ↔ matching := badgeMatches_iff.trans hm.symm
    refine ⟨deskTap_free, fun h => ?_, fun p h hst hp => ?_⟩
    · obtain ⟨hheld, hvacated, hoccupied⟩ := deskTap_matching (hbadge.2 h)
      exact ⟨hheld, hvacated, fun j c p hst hj hc hp => (hoccupied hst).trans (confirmSeat_eq hj hc hp)⟩
    · exact (deskTap_stray (Bool.eq_false_iff.2 (mt hbadge.1 h)) hst).trans (wrongSeat_eq hp n)
  · subst hg
    have hrest : ∀ b, deliverDesk x (.rest b) s = if b then deskRestBegin j c s else deskRestEnd j c s :=
      deskRest_occupied hx hj hc
    have hbegin := fun hst => (hrest true).trans (deskRestBegin_eq (c := c) hst hseat s j)
    have hsubmit : deliverDesk x .submit s = _ := deskSubmit_eq hx hj hc hseat
    have hslot : ∀ d, deliverDesk x (.slot d) s = deskIssue x d j c s := deskSlot_occupied hx hj hc
    refine ⟨fun hst => ?_, fun hst => ⟨?_, fun hstop => ?_⟩, fun hst hphase => ?_, fun hst => ?_, fun pe hst hpe => ?_,
      fun d hv => ?_, fun d y p hv hy hp => ?_, fun d p hv hnone hst hp => ?_⟩
    · obtain ⟨hb, he⟩ := deskRest_resting hst s j
      exact ⟨(hrest true).trans hb, (hrest false).trans he⟩
    · exact (hrest false).trans (deskRestEnd_ignored hst s j)
    · rw [hbegin hst, restRefusal_state hstop]
      rfl
    · rw [hbegin (by simp [hst]), restRefusal_active hst hphase]
      refine ⟨fun hheld => ?_, fun hheld hspent => ?_, fun hheld hleft => ?_⟩ <;> rw [hheld]
      · rfl
      · rw [if_neg Bool.false_ne_true, if_pos hspent]
        rfl
      · rw [if_neg Bool.false_ne_true, if_neg (Nat.not_le.2 hleft)]
        rfl
    · rw [hsubmit, submitRefusal_stay hst]
      rfl
    · rw [hsubmit, submitRefusal_writing hst hpe]
      refine ⟨fun hheld => ?_, fun hheld hbar => ?_, fun _ hheld he1 he2 => ?_⟩ <;> rw [hheld]
      · rfl
      · rw [if_neg Bool.false_ne_true, if_pos hbar]
        rfl
      · have hdesk := finishedDesk_givenUp x j s
        rw [if_neg Bool.false_ne_true, if_neg (by omega)]
        refine ⟨_, finish_submitted hc hseat, finishedAt_frame .., rfl, rfl, hdesk.queues, hdesk.others, fun hout => ?_,
          fun hfree => finishedAt_returned (scriptOut_eq_false hfree) x _⟩
        have hkept : (s.seat x).vacatedBy j = { s.seat x with state := .vacated } := by rw [Seat.vacatedBy, ← hj]
        rw [← hkept]
        exact finishedAt_out (scriptOut_iff.2 hout) x _
    · exact (hslot d).trans (deskIssue_badSerial hv)
    · rw [hslot, deskIssue, hv, issueCheck_bound hy]
      refine ⟨fun hown => ?_, fun m a hother hb => ?_⟩
      · rw [if_pos hown]
        exact showSeat_eq hp
      · rw [if_neg hother]
        exact congrArg (offerDesk x (.notice .wrongOwner)) (deskIssueRefused_eq hb d .wrongOwner)
    · obtain ⟨hunconfirmed, hconfirmed⟩ := issueCheck_unbound hnone hst j
      refine ⟨fun hconf => ?_, fun hconf hlim => ?_, fun m a hconf hfew hfull hb => ?_, fun hconf hfew hroom => ?_⟩ <;>
        rw [hslot]
      · rw [deskIssue, hv, hunconfirmed hconf]
        rfl
      · rw [deskIssue, hv, hconfirmed hconf, if_pos hlim]
        rfl
      · rw [deskIssue, hv, hconfirmed hconf, if_neg (Nat.not_le.2 hfew), if_pos hfull]
        exact congrArg (offerDesk x (.notice .stay)) (deskIssueRefused_eq hb d .full)
      · have hpass : s.issueCheck true d j c = .passes := by
          rw [hconfirmed hconf, if_neg (Nat.not_le.2 hfew), if_neg (Nat.not_le.2 hroom)]
        rw [deskIssue_passes hv hpass hseat hp, newScript, serialKind_of_valid hv]

end Sys2Proof.Machine
end

