-- ==== Sys2Proof/Proofs/Queues.lean ====
section
/-! SUPPORT. The directed queue as it takes a message (R89): which messages are withdrawn, what is replaced, appended or
dropped, and that each address and kind stays once among at most 8 messages. -/

namespace Sys2Proof.Machine

variable {s : State} {v : Seat} {m : Fin 4} {a x : Nat} {c : ShowContent} {e f : ShowEntry} {q : List ShowEntry}

/-! ### The address of a seat (R42) -/

theorem binds_eq_some : v.binds = some (m, a) ↔
    v.state ≠ .outOfUse ∧ ∃ p, v.place = some p ∧ p.room = m ∧ p.desk = some a := by
  unfold Seat.binds
  cases v.state with
  | outOfUse => simp
  | free | held | occupied | vacated =>
    cases v.place with
    | none => simp
    | some p => simp [and_comm]

/-! ### Which messages are withdrawn and replaced (R89, steps 3 and 4) -/

theorem matches_iff : e.matches_ f = true ↔ f.address = e.address ∧ f.content.kind = e.content.kind := by
  simp [ShowEntry.matches_]

theorem withdrawnBy_eq (e : ShowEntry) (q : List ShowEntry) : withdrawnBy e q =
    q.filter (fun f => !(f.address == e.address &&
      ((e.content.kind == .blank && f.content.kind != .blank) ||
        (e.content.kind == .seat && f.content.kind == .blank)))) := by
  unfold withdrawnBy
  cases e.content.kind with
  | ending | notice | seat | blank => simp [beq_eq_decide, bne]

theorem withdrawnBy_sublist (e : ShowEntry) (q : List ShowEntry) : (withdrawnBy e q).Sublist q := by
  rw [withdrawnBy_eq]
  exact List.filter_sublist

/-- A message of the same address and kind is replaced in its place (R89, step 4). -/
theorem offerQueue_replaces (h : ∃ f ∈ withdrawnBy e q, f.address = e.address ∧ f.content.kind = e.content.kind) :
    offerQueue e q = ((withdrawnBy e q).map (fun f =>
      if f.address = e.address ∧ f.content.kind = e.content.kind then e else f), true) := by
  have hany : (withdrawnBy e q).any e.matches_ = true := by simpa [List.any_eq_true, matches_iff] using h
  simp only [offerQueue, hany, if_true, matches_iff]

/-- A message of no such address and kind is appended while fewer than 8 are queued (R89, step 5). -/
theorem offerQueue_appends (h : ∀ f ∈ withdrawnBy e q, ¬ (f.address = e.address ∧ f.content.kind = e.content.kind))
    (hlen : (withdrawnBy e q).length < 8) : offerQueue e q = (withdrawnBy e q ++ [e], true) := by
  have hany : ¬ (withdrawnBy e q).any e.matches_ = true := by simpa [List.any_eq_true, matches_iff] using h
  rw [offerQueue, if_neg hany]
  exact if_pos hlen

/-- Where 8 are queued it is dropped (R89, step 6). -/
theorem offerQueue_drops (h : ∀ f ∈ withdrawnBy e q, ¬ (f.address = e.address ∧ f.content.kind = e.content.kind))
    (hlen : 8 ≤ (withdrawnBy e q).length) : offerQueue e q = (withdrawnBy e q, false) := by
  have hany : ¬ (withdrawnBy e q).any e.matches_ = true := by simpa [List.any_eq_true, matches_iff] using h
  rw [offerQueue, if_neg hany]
  exact if_neg (Nat.not_lt.2 hlen)

/-! ### The law of a directed queue -/

/-- At most 8 messages, each address and kind once (R83, R89). -/
def QueueLaw (q : List ShowEntry) : Prop := q.length ≤ 8 ∧ distinctEntries q = true

/-- The address and kind of a message. -/
def ShowEntry.key (e : ShowEntry) : Nat × ShowKind := (e.address, e.content.kind)

theorem distinctEntries_iff (q : List ShowEntry) : distinctEntries q = true ↔ (q.map ShowEntry.key).Nodup := by
  simp only [distinctEntries, decide_eq_true_iff, List.Nodup, List.pairwise_map, ShowEntry.key, ne_eq, Prod.mk.injEq]

theorem queueLaw_nil : QueueLaw [] := ⟨Nat.zero_le 8, rfl⟩

theorem QueueLaw.sublist {r : List ShowEntry} (h : QueueLaw q) (hr : r.Sublist q) : QueueLaw r := by
  obtain ⟨hlen, hdist⟩ := h
  exact ⟨hr.length_le.trans hlen, (distinctEntries_iff r).2 (((distinctEntries_iff q).1 hdist).sublist (hr.map _))⟩

theorem QueueLaw.tail {r : List ShowEntry} (h : QueueLaw (e :: r)) : QueueLaw r := h.sublist (List.sublist_cons_self ..)

/-- The queue is as lawful as before once it has taken a message or dropped it. -/
theorem offerQueue_lawful (e : ShowEntry) (h : QueueLaw q) : QueueLaw (offerQueue e q).1 := by
  have hleft := h.sublist (withdrawnBy_sublist e q)
  obtain ⟨hlen, hdist⟩ := hleft
  by_cases hsame : ∃ f ∈ withdrawnBy e q, f.address = e.address ∧ f.content.kind = e.content.kind
  · have hkey : ∀ f : ShowEntry,
        (if f.address = e.address ∧ f.content.kind = e.content.kind then e else f).key = f.key := by
      intro f
      split
      · next hf => exact Prod.ext hf.1.symm hf.2.symm
      · rfl
    rw [offerQueue_replaces hsame]
    refine ⟨(List.length_map ..).trans_le hlen, (distinctEntries_iff _).2 ?_⟩
    rw [List.map_map, show ShowEntry.key ∘ _ = ShowEntry.key from funext hkey]
    exact (distinctEntries_iff _).1 hdist
  · have hnone : ∀ f ∈ withdrawnBy e q, ¬ (f.address = e.address ∧ f.content.kind = e.content.kind) :=
      fun f hf hk => hsame ⟨f, hf, hk⟩
    rcases Nat.lt_or_ge (withdrawnBy e q).length 8 with hfew | hfull
    · rw [offerQueue_appends hnone hfew]
      refine ⟨by simpa using hfew, (distinctEntries_iff _).2 ?_⟩
      rw [List.map_append, List.map_singleton, List.nodup_append]
      refine ⟨(distinctEntries_iff _).1 hdist, List.nodup_singleton _, ?_⟩
      intro k hk l hl hkl
      obtain ⟨f, hf, rfl⟩ := List.mem_map.1 hk
      obtain rfl := List.mem_singleton.1 hl
      obtain ⟨haddr, hkind⟩ := Prod.mk.inj hkl
      exact hnone f hf ⟨haddr, hkind⟩
    · rw [offerQueue_drops hnone hfull]
      exact ⟨hlen, hdist⟩

/-! ### A message offered to a desk or a post (R89, steps 1, 2 and 7) -/

theorem offerDesk_unbound (h : (s.seat x).binds = none) (c : ShowContent) : offerDesk x c s = s := by
  rw [offerDesk, h]

theorem offerDesk_disabled (hb : (s.seat x).binds = some (m, a)) (hl : s.segments[m].line = .disabled)
    (c : ShowContent) : offerDesk x c s = s := by
  rw [offerDesk, hb]
  dsimp only
  rw [hl]

/-- A desk out of contact misses every message (R89). -/
theorem offerDesk_outOfContact (hb : (s.seat x).binds = some (m, a)) (hl : s.segments[m].line ≠ .disabled)
    (hd : (s.seat x).deskStatus ∈ [DeskStatus.lost, .unknown]) (c : ShowContent) :
    offerDesk x c s = s.markStale x := by
  rw [offerDesk, hb]
  dsimp only
  cases hline : s.segments[m].line with
  | disabled => exact absurd hline hl
  | master | awaiting b =>
    simp only [List.mem_cons, List.not_mem_nil, or_false] at hd
    rcases hd with hd | hd <;> rw [hd]

theorem setQueue_seat (s : State) (m : Fin 4) (q : List ShowEntry) (x : Nat) : (s.setQueue m q).seat x = s.seat x := rfl

theorem offerDesk_present (hb : (s.seat x).binds = some (m, a)) (hl : s.segments[m].line ≠ .disabled)
    (hd : (s.seat x).deskStatus = .present) (c : ShowContent) :
    offerDesk x c s = (if (offerQueue ⟨a, c⟩ s.segments[m].queue).2 then
        s.setQueue m (offerQueue ⟨a, c⟩ s.segments[m].queue).1
      else (s.setQueue m (offerQueue ⟨a, c⟩ s.segments[m].queue).1).markStale x) := by
  rw [offerDesk, hb]
  dsimp only
  cases hline : s.segments[m].line with
  | disabled => exact absurd hline hl
  | master | awaiting b => rw [hd]

theorem offerPost_untaken
    (h : s.segments[m].line = .disabled ∨ s.segments[m].postStatus ∈ [PostStatus.lost, .unknown]) (c : ShowContent) :
    offerPost m c s = s := by
  unfold offerPost
  cases hline : s.segments[m].line with
  | disabled => rfl
  | master | awaiting b =>
    have hpost := h.resolve_left fun e => nomatch hline.symm.trans e
    simp only [List.mem_cons, List.not_mem_nil, or_false] at hpost
    rcases hpost with hp | hp <;> rw [hp]

theorem offerPost_present (hl : s.segments[m].line ≠ .disabled) (hp : s.segments[m].postStatus = .present)
    (c : ShowContent) : offerPost m c s = s.setQueue m (offerQueue ⟨0, c⟩ s.segments[m].queue).1 := by
  unfold offerPost
  cases hline : s.segments[m].line with
  | disabled => exact absurd hline hl
  | master | awaiting b => rw [hp]

/-- Settles O43. -/
theorem directedQueueTakesAMessage : Obligations.DirectedQueueTakesAMessage := by
  refine ⟨fun v m a => binds_eq_some, fun e q left hleft => ?_, fun s x a m c hb => ?_,
    fun s x c hb => offerDesk_unbound hb c, fun s m c => ?_⟩
  · rw [← withdrawnBy_eq] at hleft
    subst hleft
    exact ⟨offerQueue_replaces, fun h => ⟨offerQueue_appends h, offerQueue_drops h⟩,
      fun hlen hdist => offerQueue_lawful e ⟨hlen, hdist⟩⟩
  · exact ⟨fun hl => offerDesk_disabled hb hl c, fun hl hd => offerDesk_outOfContact hb hl hd c,
      fun hl hd => offerDesk_present hb hl hd c⟩
  · exact ⟨fun h => offerPost_untaken h c, fun hl hp => offerPost_present hl hp c⟩

end Sys2Proof.Machine
end

