-- ==== Sys2Proof/Proofs/Lines.lean ====
section
/-! SUPPORT. The lines of the desk segments go on: no exchange begins or ends, and the directed queues stay as lawful as
they were. So it is through everything but the events of the lines themselves, the requests on rooms, the traffic clear
and the resets (R83, R84, R87, R89). -/

namespace Sys2Proof.Machine

variable {s t u : State} {i j x n d a : Nat} {k : Fin 8} {m : Fin 4} {c : Candidate} {w : ShowContent}

/-! ### Segments that go on -/

/-- A segment's exchange goes on, and its queue is as lawful as before; that of a DISABLED one is not touched. -/
structure Segment.GoesOn (g g' : Segment) : Prop where
  line : g'.line = g.line
  sending : g'.sending = g.sending
  timeDue : g'.timeDue = g.timeDue
  disabled : g.line = .disabled → g'.queue = g.queue
  queue : QueueLaw g.queue → QueueLaw g'.queue

theorem Segment.GoesOn.refl (g : Segment) : g.GoesOn g := ⟨rfl, rfl, rfl, fun _ => rfl, id⟩

theorem Segment.GoesOn.trans {g g' g'' : Segment} (h : g.GoesOn g') (h' : g'.GoesOn g'') : g.GoesOn g'' :=
  ⟨h'.line.trans h.line, h'.sending.trans h.sending, h'.timeDue.trans h.timeDue,
    fun e => (h'.disabled (h.line.trans e)).trans (h.disabled e), h'.queue ∘ h.queue⟩

/-- The four segments go on. -/
def State.LinesGoOn (s t : State) : Prop := ∀ m : Fin 4, s.segments[m].GoesOn t.segments[m]

namespace State.LinesGoOn

@[simp] theorem refl (s : State) : s.LinesGoOn s := fun _ => .refl _

theorem trans (h : s.LinesGoOn t) (g : t.LinesGoOn u) : s.LinesGoOn u := fun m => (h m).trans (g m)

theorem of_segments (hu : u.segments = t.segments) (h : s.LinesGoOn t) : s.LinesGoOn u := by
  unfold State.LinesGoOn
  rwa [hu]

end State.LinesGoOn

/-- A segment is rewritten, and goes on. -/
theorem setSegment_goesOn {g : Segment} (hg : t.segments[m].GoesOn g) (h : s.LinesGoOn t) :
    s.LinesGoOn (t.setSegment m g) := by
  refine h.trans fun i => ?_
  rw [setSegment_segment]
  split
  · next hi => exact hi ▸ hg
  · exact .refl _

theorem takeInTurn_goesOn {ι : Type} {f : ι → State → State} (hf : ∀ i (u : State), u.LinesGoOn (f i u)) (is : List ι)
    (h : s.LinesGoOn t) : s.LinesGoOn (takeInTurn is f t) :=
  takeInTurn_invariant (fun u => s.LinesGoOn u) is f (fun i u hu => hu.trans (hf i u)) t h

/-! ### The updates of the state -/

@[simp] theorem setCand_goesOn (c : Candidate) : s.LinesGoOn (t.setCand j c) ↔ s.LinesGoOn t := .rfl
@[simp] theorem setSeat_goesOn (v : Seat) : s.LinesGoOn (t.setSeat i v) ↔ s.LinesGoOn t := .rfl
@[simp] theorem setSitting_goesOn (v : Sitting) : s.LinesGoOn (t.setSitting k v) ↔ s.LinesGoOn t := .rfl
@[simp] theorem setRoom_goesOn (v : RoomRecord) : s.LinesGoOn (t.setRoom m v) ↔ s.LinesGoOn t := .rfl
@[simp] theorem setScript_goesOn (y : Script) : s.LinesGoOn (t.setScript d y) ↔ s.LinesGoOn t := .rfl
@[simp] theorem setKey_goesOn (v : KeySlot) : s.LinesGoOn (t.setKey k v) ↔ s.LinesGoOn t := .rfl
@[simp] theorem setIntake_goesOn (v : Intake) : s.LinesGoOn (t.setIntake v) ↔ s.LinesGoOn t := .rfl
@[simp] theorem setBuffer_goesOn (b : Fin 4) (v : SheetBuffer) : s.LinesGoOn (t.setBuffer b v) ↔ s.LinesGoOn t := .rfl
@[simp] theorem setPort_goesOn (p : Port) : s.LinesGoOn (t.setPort p) ↔ s.LinesGoOn t := .rfl
@[simp] theorem mapScripts_goesOn (f : Script → Script) : s.LinesGoOn (t.mapScripts f) ↔ s.LinesGoOn t := .rfl
@[simp] theorem raise_goesOn (g : CauseGroup) : s.LinesGoOn (t.raise g) ↔ s.LinesGoOn t := .rfl
@[simp] theorem freeSeat_goesOn : s.LinesGoOn (freeSeat i t) ↔ s.LinesGoOn t := .rfl
@[simp] theorem takeSeat_goesOn (st : SeatState) : s.LinesGoOn (takeSeat i st j t) ↔ s.LinesGoOn t := .rfl
@[simp] theorem markStale_goesOn : s.LinesGoOn (t.markStale i) ↔ s.LinesGoOn t := .rfl
@[simp] theorem custodyRefused_goesOn (why : CustodyReason) :
    s.LinesGoOn (t.custodyRefused d why m a) ↔ s.LinesGoOn t := .rfl

@[simp] theorem reportFault_goesOn (cls : FaultClass) (detail : FaultDetail) :
    s.LinesGoOn (t.reportFault cls detail) ↔ s.LinesGoOn t := by
  unfold State.reportFault
  split <;> exact .rfl

/-! ### What the desks and posts are told -/

/-- A message taken into the queue of a segment that is not DISABLED. -/
theorem setQueue_goesOn (hl : t.segments[m].line ≠ .disabled) (e : ShowEntry) (h : s.LinesGoOn t) :
    s.LinesGoOn (t.setQueue m (offerQueue e t.segments[m].queue).1) :=
  setSegment_goesOn ⟨rfl, rfl, rfl, fun hd => absurd hd hl, offerQueue_lawful e⟩ h

@[simp] theorem offerDesk_goesOn (h : s.LinesGoOn t) : s.LinesGoOn (offerDesk i w t) := by
  unfold offerDesk
  split
  · exact h
  split
  · exact h
  all_goals
    next hl =>
    have hl : t.segments[‹Fin 4›].line ≠ .disabled := fun e => nomatch hl.symm.trans e
    split
    · exact h
    · exact h
    all_goals
      split
      · exact setQueue_goesOn hl _ h
      · exact (markStale_goesOn ..).2 (setQueue_goesOn hl _ h)

@[simp] theorem offerPost_goesOn (h : s.LinesGoOn t) : s.LinesGoOn (offerPost m w t) := by
  unfold offerPost
  split
  · exact h
  all_goals
    next hl =>
    have hl : t.segments[m].line ≠ .disabled := fun e => nomatch hl.symm.trans e
    split
    · exact h
    · exact h
    · exact setQueue_goesOn hl _ h

@[simp] theorem showSeat_goesOn (h : s.LinesGoOn t) : s.LinesGoOn (showSeat i c t) := by
  unfold showSeat
  split <;> simp [h]

@[simp] theorem postSeat_goesOn (h : s.LinesGoOn t) : s.LinesGoOn (postSeat m i c t) := by
  unfold postSeat
  split <;> simp [h]

@[simp] theorem showEnd_goesOn (h : s.LinesGoOn t) : s.LinesGoOn (showEnd c t) := by
  unfold showEnd endAt
  repeat' split
  all_goals simp [h]

@[simp] theorem showNotice_goesOn (notice : Notice) (h : s.LinesGoOn t) : s.LinesGoOn (showNotice c notice t) := by
  unfold showNotice
  split <;> simp [h]

@[simp] theorem resyncDesk_goesOn (h : s.LinesGoOn t) : s.LinesGoOn (resyncDesk i t) := by
  unfold resyncDesk endAt
  repeat' split
  all_goals simp [h]

@[simp] theorem showEndOf_goesOn (h : s.LinesGoOn t) : s.LinesGoOn (showEndOf j t) := by
  unfold showEndOf
  split <;> simp [h]

/-! ### Clearance, closing and finishing -/

@[simp] theorem clearRecord_goesOn (b : Bool) (h : s.LinesGoOn t) : s.LinesGoOn (clearRecord j c b t) := by
  unfold clearRecord
  split <;> simp [h]

@[simp] theorem clearanceTest_goesOn (h : s.LinesGoOn t) : s.LinesGoOn (clearanceTest j t) := by
  unfold clearanceTest
  repeat' split
  all_goals simp [h]

@[simp] theorem submitOnFinish_goesOn (h : s.LinesGoOn t) : s.LinesGoOn (submitOnFinish j t) := by
  unfold submitOnFinish
  split
  · exact h
  split
  · simp [h]
  · refine clearanceTest_goesOn ?_
    split <;> simp [h]

@[simp] theorem closingTest_goesOn (h : s.LinesGoOn t) : s.LinesGoOn (closingTest k t) := by
  unfold closingTest closeSitting releaseKey
  repeat' split
  all_goals simp [h]

@[simp] theorem endExpected_goesOn (st : CandState) (h : s.LinesGoOn t) : s.LinesGoOn (endExpected st j t) := by
  unfold endExpected
  repeat' split
  all_goals simp [h]

@[simp] theorem closeAdmission_goesOn (h : s.LinesGoOn t) : s.LinesGoOn (closeAdmission k t) := by
  have ended := takeInTurn_goesOn (f := endExpected .absent) (fun _ u => endExpected_goesOn _ (.refl u)) (t.expectedOf k) h
  unfold closeAdmission
  split
  · exact h
  · exact (raise_goesOn ..).2 (closingTest_goesOn ended)

@[simp] theorem finish_goesOn (why : FinishCause) (h : s.LinesGoOn t) : s.LinesGoOn (finish why j t) := by
  unfold finish
  split
  · exact h
  · exact closingTest_goesOn (submitOnFinish_goesOn (showNotice_goesOn _ ((setCand_goesOn ..).2 h)))

/-! ### Personal time, holds and seating -/

@[simp] theorem warningTest_goesOn (h : s.LinesGoOn t) : s.LinesGoOn (warningTest j t) := by
  unfold warningTest
  repeat' split
  all_goals simp [h]

@[simp] theorem activate_goesOn (h : s.LinesGoOn t) : s.LinesGoOn (activate j t) := by
  unfold activate
  split <;> simp [h]

@[simp] theorem changeHold_goesOn (sources : HoldSources) (h : s.LinesGoOn t) : s.LinesGoOn (changeHold k sources t) := by
  unfold changeHold
  split
  · exact takeInTurn_goesOn (fun j u => showEndOf_goesOn (j := j) (.refl u)) _ h
  · exact h

@[simp] theorem extendRecord_goesOn (h : s.LinesGoOn t) : s.LinesGoOn (extendRecord k j t) := by
  unfold extendRecord
  split <;> simp [h]

@[simp] theorem setResting_goesOn (st : CandState) (h : s.LinesGoOn t) : s.LinesGoOn (setResting st j c t) := by
  simp [setResting, h]

@[simp] theorem announce_goesOn (door : Option (Fin 4)) (h : s.LinesGoOn t) : s.LinesGoOn (announce door i c t) := by
  unfold announce
  split <;> simp [h]

@[simp] theorem seatRecord_goesOn (door : Option (Fin 4)) (h : s.LinesGoOn t) :
    s.LinesGoOn (seatRecord door j c i t) := by
  have shown : ∀ d, s.LinesGoOn (showSeat i (t.seatedAt i c) (announce door i (t.seatedAt i c)
      ((takeSeat i .occupied j t).setCand j d))) := fun d => showSeat_goesOn (announce_goesOn door h)
  unfold seatRecord
  split
  · exact activate_goesOn (shown _)
  · exact activate_goesOn (shown _)
  all_goals exact shown _

@[simp] theorem unplaceSeat_goesOn (h : s.LinesGoOn t) : s.LinesGoOn (unplaceSeat j c i t) := by
  simp [unplaceSeat, h]

@[simp] theorem moveRecord_goesOn (h : s.LinesGoOn t) : s.LinesGoOn (moveRecord j c i x t) := by
  have htold : ∀ c {u : State}, s.LinesGoOn u → s.LinesGoOn (showMovedEnd c u) := by
    intro c u hu
    unfold showMovedEnd
    split <;> simp [hu]
  exact htold _ (by simp [h])

/-! ### A hall second, but for the TIME of the segments (R27 to R31, R38, R66 to R69, R81) -/

@[simp] theorem accrueRest_goesOn (before : Vector Sitting 8) (h : s.LinesGoOn t) : s.LinesGoOn (accrueRest before j t) := by
  unfold accrueRest
  split <;> simp [h]

@[simp] theorem restOver_goesOn (h : s.LinesGoOn t) : s.LinesGoOn (restOver j t) := by
  unfold restOver
  repeat' split
  all_goals simp [h]

theorem recordSecond_goesOn (before : Vector Sitting 8) (h : s.LinesGoOn t) : s.LinesGoOn (recordSecond before j t) := by
  have rested := restOver_goesOn (j := j) (accrueRest_goesOn (j := j) before h)
  unfold recordSecond reachEnd
  repeat' split
  · exact rested
  · exact finish_goesOn _ rested
  · exact warningTest_goesOn rested

theorem recordDayEnd_goesOn (before : Vector Sitting 8) (h : s.LinesGoOn t) : s.LinesGoOn (recordDayEnd before j t) :=
  finish_goesOn .dayEnd (restOver_goesOn (accrueRest_goesOn before h))

theorem startSitting_goesOn (h : s.LinesGoOn t) : s.LinesGoOn (startSitting k t) := by
  have started := takeInTurn_goesOn (f := activate) (fun _ u => activate_goesOn (.refl u)) (t.seatedOf k)
    ((setSitting_goesOn (k := k) (t.sittings[k].started t.holdFilter.filtered)).2 h)
  unfold startSitting beginSitting
  dsimp only
  repeat' split
  · exact closeAdmission_goesOn started
  · exact started
  · exact h

theorem sittingSecond_goesOn (moved : Bool) (h : s.LinesGoOn t) : s.LinesGoOn (sittingSecond moved k t) := by
  have aged : s.LinesGoOn
      (moveToClosing k (reachAdmissionClose k t.sittings[k] (moveToWriting k (t.setSitting k t.sittings[k].accrue)))) := by
    unfold moveToClosing reachAdmissionClose moveToWriting
    repeat' split
    all_goals simp [h]
  unfold sittingSecond
  split
  · split
    · refine startSitting_goesOn ?_
      unfold openAdmission
      split <;> simp [h]
    · exact h
  · exact aged
  · exact aged

theorem dayEndSitting_goesOn (h : s.LinesGoOn t) : s.LinesGoOn (dayEndSitting k t) := by
  unfold dayEndSitting
  repeat' split
  all_goals simp [h]

theorem secondTaken_goesOn (s : State) : s.LinesGoOn s.secondTaken := by
  have advanced : s.LinesGoOn (advanceClock s) := .of_segments rfl (.refl s)
  have sittings : s.LinesGoOn (sittingsSecond (decide (s.hallTime < Config.lastSecond)) (advanceClock s)) :=
    takeInTurn_goesOn (fun _ u => sittingSecond_goesOn _ (.refl u)) eight advanced
  unfold State.secondTaken
  split
  · exact takeInTurn_goesOn (fun _ u => recordDayEnd_goesOn _ (.refl u)) _
      (takeInTurn_goesOn (fun _ u => dayEndSitting_goesOn (.refl u)) eight sittings)
  · exact takeInTurn_goesOn (fun _ u => recordSecond_goesOn _ (.refl u)) _ sittings

theorem holdFilterChange_goesOn (s : State) : s.LinesGoOn (holdFilterChange s) := by
  have followed : ∀ on (k : Fin 8) (u : State), u.LinesGoOn (followHallHold on k u) := by
    intro on k u
    unfold followHallHold
    split <;> simp
  unfold holdFilterChange
  split
  · unfold changeFiltered
    exact (raise_goesOn ..).2 (takeInTurn_goesOn (followed _) eight (.of_segments rfl (.refl s)))
  · exact .refl s

/-! ### The desks, the posts and the doors -/

theorem deskRest_goesOn (b : Bool) (h : s.LinesGoOn t) : s.LinesGoOn (deskRest i b t) := by
  unfold deskRest deskRestBegin deskRestEnd
  repeat' split
  all_goals simp [h]

theorem deskSubmit_goesOn (h : s.LinesGoOn t) : s.LinesGoOn (deskSubmit i t) := by
  unfold deskSubmit
  repeat' split
  all_goals simp [h]

theorem deskSlot_goesOn (h : s.LinesGoOn t) : s.LinesGoOn (deskSlot i d t) := by
  unfold deskSlot deskIssue State.deskIssueRefused
  repeat' split
  all_goals simp [h]

theorem collect_goesOn (h : s.LinesGoOn t) : s.LinesGoOn (collect m d t) := by
  unfold collect collectSeat refuseCollect
  repeat' split
  all_goals simp [h]

theorem doorTap_goesOn (h : s.LinesGoOn t) : s.LinesGoOn (doorTap m n t) := by
  unfold doorTap doorRefused
  repeat' split
  all_goals simp [h]

theorem deskTap_goesOn (h : s.LinesGoOn t) : s.LinesGoOn (deskTap i n t) := by
  unfold deskTap confirmSeat wrongSeat
  repeat' split
  all_goals simp [h]

theorem deskHand_goesOn (up : Bool) (h : s.LinesGoOn t) : s.LinesGoOn (deskHand i up t) := by
  unfold deskHand
  split <;> simp [h]

theorem deliverDesk_goesOn (e : DeskEvent) (h : s.LinesGoOn t) : s.LinesGoOn (deliverDesk i e t) := by
  cases e with
  | null => exact h
  | tap n => exact deskTap_goesOn h
  | hand up => exact deskHand_goesOn up h
  | rest b => exact deskRest_goesOn b h
  | submit => exact deskSubmit_goesOn h
  | slot d => exact deskSlot_goesOn h
  | collect d => exact h
  | restart => exact resyncDesk_goesOn h

theorem deliverPost_goesOn (e : DeskEvent) (h : s.LinesGoOn t) : s.LinesGoOn (deliverPost m e t) := by
  cases e with
  | tap n => exact doorTap_goesOn h
  | collect d => exact collect_goesOn h
  | restart => exact offerPost_goesOn h
  | null | hand up | rest b | submit | slot d => exact h

/-! ### Contact: misses and good answers (R92 to R96) -/

theorem missed_goesOn (failed : Bool) (h : s.LinesGoOn t) : s.LinesGoOn (missed m a failed t) := by
  have counted : s.LinesGoOn (countMiss m a t) := by
    unfold countMiss postMiss deskMiss
    dsimp only
    repeat' split
    any_goals exact h
    all_goals exact setSegment_goesOn ⟨rfl, rfl, rfl, fun _ => rfl, id⟩ h
  unfold missed reportMiss reportLost
  repeat' split
  all_goals simp [counted]

theorem deskAnswered_goesOn (h : s.LinesGoOn t) : s.LinesGoOn (deskAnswered i t) := by
  unfold deskAnswered
  split <;> simp [h]

theorem postAnswered_goesOn (h : s.LinesGoOn t) : s.LinesGoOn (postAnswered m t) := by
  have reached : ∀ g : Segment, g = { t.segments[m] with postStatus := g.postStatus, postMiss := g.postMiss } →
      s.LinesGoOn (t.setSegment m g) := fun g hg => by
    rw [hg]
    exact setSegment_goesOn ⟨rfl, rfl, rfl, fun _ => rfl, id⟩ h
  unfold postAnswered
  split
  · exact reached _ rfl
  all_goals exact offerPost_goesOn (reached _ rfl)

theorem handleAnswer_goesOn (frame : List Byte) (h : s.LinesGoOn t) : s.LinesGoOn (handleAnswer m a frame t) := by
  have good : ∀ e, s.LinesGoOn (goodAnswer m a e t) := by
    intro e
    unfold goodAnswer
    repeat' split
    · exact deliverPost_goesOn e (postAnswered_goesOn h)
    · exact deliverDesk_goesOn e (deskAnswered_goesOn h)
    · cases e <;> exact h
  unfold handleAnswer
  repeat' split
  · exact good _
  · exact missed_goesOn true h
  · exact missed_goesOn true h

end Sys2Proof.Machine
end

