-- ==== Sys2Proof/Proofs/SegmentLaw.lean ====
section
/-! SUPPORT. Every step keeps the law of the desk segments (R83, R84, R87, R89): an exchange that ends, a room that is
enabled or reset and a traffic clear leave the segment ready, and the next exchange is chosen at once. -/

namespace Sys2Proof.Machine

variable {s t u : State} {g g' : Segment} {m i : Fin 4} {a : Nat}

/-! ### A lawful segment -/

/-- A segment that is lawful once its controller has chosen where it is in MASTER without an exchange in progress. -/
structure Segment.Ready (g : Segment) : Prop where
  queue : QueueLaw g.queue
  waits : g.line ≠ .master → g.sending = none
  disabled : g.line = .disabled → g.timeDue = false ∧ g.queue = []

theorem segment_lawful_iff (g : Segment) : g.lawful = true ↔ g.Ready ∧ (g.line = .master → g.sending ≠ none) := by
  have hqueue : (decide (g.queue.length ≤ Config.queuePlaces) && distinctEntries g.queue) = true ↔ QueueLaw g.queue := by
    rw [Bool.and_eq_true, decide_eq_true_iff]
    exact .rfl
  rw [Segment.lawful, Bool.and_eq_true, hqueue, Segment.exchangeLaw]
  constructor
  · rintro ⟨hq, he⟩
    cases hl : g.line with
    | disabled =>
      simp only [hl, Bool.and_eq_true, Option.isNone_iff_eq_none, Bool.not_eq_true', List.isEmpty_iff] at he
      exact ⟨⟨hq, fun _ => he.1.1, fun _ => ⟨he.1.2, he.2⟩⟩, nofun⟩
    | master =>
      simp only [hl] at he
      exact ⟨⟨hq, fun h => absurd hl h, fun h => nomatch hl.symm.trans h⟩, fun _ => Option.isSome_iff_ne_none.1 he⟩
    | awaiting a =>
      simp only [hl, Option.isNone_iff_eq_none] at he
      exact ⟨⟨hq, fun _ => he, fun h => nomatch hl.symm.trans h⟩, nofun⟩
  · rintro ⟨hr, hm⟩
    refine ⟨hr.queue, ?_⟩
    cases hl : g.line with
    | disabled => simp [hr.waits (by simp [hl]), hr.disabled hl]
    | master => simpa [Option.isSome_iff_ne_none] using hm hl
    | awaiting a => simp [hr.waits (by simp [hl])]

theorem segmentLaw_iff (s : State) : s.segmentLaw = true ↔ ∀ m : Fin 4, s.segments[m].lawful = true := by
  rw [State.segmentLaw, Vector.all_eq_true]
  exact ⟨fun h m => h m.1 m.2, fun h i hi => h ⟨i, hi⟩⟩

/-- A segment that sends in a lawful state is in MASTER. -/
theorem master_of_sending (h : g.lawful = true) {msg : SegMessage} (hm : g.sending = some msg) : g.line = .master := by
  by_contra hl
  exact nomatch hm.symm.trans (((segment_lawful_iff g).1 h).1.waits hl)

theorem Segment.GoesOn.ready (h : g.GoesOn g') (hg : g.Ready) : g'.Ready := by
  refine ⟨h.queue hg.queue, fun hl => h.sending.trans (hg.waits (h.line ▸ hl)), fun hl => ?_⟩
  have hd := h.line ▸ hl
  obtain ⟨htime, hempty⟩ := hg.disabled hd
  exact ⟨h.timeDue.trans htime, (h.disabled hd).trans hempty⟩

theorem Segment.GoesOn.lawful (h : g.GoesOn g') (hg : g.lawful = true) : g'.lawful = true := by
  obtain ⟨hr, hm⟩ := (segment_lawful_iff g).1 hg
  exact (segment_lawful_iff g').2 ⟨h.ready hr, fun hl => h.sending ▸ hm (h.line ▸ hl)⟩

theorem State.LinesGoOn.segmentLaw (h : s.LinesGoOn t) (hs : s.segmentLaw = true) : t.segmentLaw = true :=
  (segmentLaw_iff t).2 fun m => (h m).lawful ((segmentLaw_iff s).1 hs m)

theorem segmentLaw_of_segments (h : t.segments = s.segments) (hs : s.segmentLaw = true) : t.segmentLaw = true :=
  State.LinesGoOn.segmentLaw (.of_segments h (.refl s)) hs

/-! ### The choice of the next exchange (R87) -/

/-- One segment is ready and the others are lawful. -/
structure State.ReadyAt (s : State) (m : Fin 4) : Prop where
  here : s.segments[m].Ready
  others : ∀ i : Fin 4, i ≠ m → s.segments[i].lawful = true

theorem State.LinesGoOn.readyAt (h : s.LinesGoOn t) (hs : s.ReadyAt m) : t.ReadyAt m :=
  ⟨(h m).ready hs.here, fun i hi => (h i).lawful (hs.others i hi)⟩

theorem setSegment_readyAt (hg : g.Ready) (hs : s.segmentLaw = true) : (s.setSegment m g).ReadyAt m := by
  refine ⟨?_, fun i hi => ?_⟩
  · rwa [segment_setSegment_self]
  · rw [setSegment_segment, if_neg hi]
    exact (segmentLaw_iff s).1 hs i

/-- A lawful segment is written among others that are lawful. -/
theorem setSegment_segmentLaw (hg : g.lawful = true) (hs : ∀ i : Fin 4, i ≠ m → s.segments[i].lawful = true) :
    (s.setSegment m g).segmentLaw = true := by
  refine (segmentLaw_iff _).2 fun i => ?_
  rw [setSegment_segment]
  split
  · exact hg
  · next hi => exact hs i hi

theorem chosen_lawful (h : s.segments[m].Ready) (hl : s.segments[m].line = .master) : (s.chosen m).lawful = true := by
  have lawful : ∀ g : Segment, g.line = s.segments[m].line → QueueLaw g.queue → g.sending ≠ none → g.lawful = true :=
    fun g hline hq hsend => (segment_lawful_iff g).2 ⟨⟨hq, fun hne => absurd (hline.trans hl) hne,
      fun hd => nomatch (hline.trans hl).symm.trans hd⟩, fun _ => hsend⟩
  unfold State.chosen
  split
  · exact lawful _ rfl h.queue nofun
  split
  · exact lawful _ rfl h.queue nofun
  split
  · next hq => exact lawful _ rfl (hq ▸ h.queue).tail nofun
  · exact lawful _ rfl h.queue nofun

/-- A ready segment is lawful once the next exchange has been chosen. -/
theorem kickSegment_segmentLaw (h : s.ReadyAt m) : (kickSegment m s).segmentLaw = true := by
  unfold kickSegment
  split
  · next hl _ => exact setSegment_segmentLaw (chosen_lawful h.here hl) h.others
  · next hno =>
    refine (segmentLaw_iff s).2 fun i => ?_
    by_cases hi : i = m
    · subst hi
      exact (segment_lawful_iff _).2 ⟨h.here, fun hl hnone => hno hl hnone⟩
    · exact h.others i hi

/-! ### The events of a segment's line (R85, R87, R90, R92) -/

theorem endExchange_setDoorWire (m : Fin 4) (door : Bool) (s : State) : endExchange m (setDoorWire m door s) =
    s.setSegment m { s.segments[m] with doorWire := door, sending := none, pollVoided := false } := by
  rw [endExchange, setDoorWire, setSegment_setSegment, segment_setSegment_self]

/-- An exchange ends in MASTER, and the next one is chosen. -/
theorem nextExchange_segmentLaw (door : Bool) (hs : s.segmentLaw = true) {msg : SegMessage}
    (hm : s.segments[m].sending = some msg) :
    (kickSegment m (endExchange m (setDoorWire m door s))).segmentLaw = true := by
  have hg := (segmentLaw_iff s).1 hs m
  have hl := master_of_sending hg hm
  rw [endExchange_setDoorWire]
  exact kickSegment_segmentLaw (setSegment_readyAt ⟨((segment_lawful_iff _).1 hg).1.queue, fun _ => rfl,
    fun hd => nomatch hl.symm.trans hd⟩ hs)

theorem timeSent_segmentLaw (door : Bool) (hs : s.segmentLaw = true) : (timeSent m door s).segmentLaw = true := by
  unfold timeSent
  split
  · next hm => exact nextExchange_segmentLaw door hs hm
  all_goals exact hs

theorem showSent_segmentLaw (door : Bool) (hs : s.segmentLaw = true) : (showSent m door s).segmentLaw = true := by
  unfold showSent
  split
  · next hm => exact nextExchange_segmentLaw door hs hm
  all_goals exact hs

theorem pollSent_segmentLaw (door : Bool) (hs : s.segmentLaw = true) : (pollSent m door s).segmentLaw = true := by
  have hg := (segmentLaw_iff s).1 hs
  unfold pollSent
  split
  · next hm =>
    split
    · exact nextExchange_segmentLaw door hs hm
    · exact setSegment_segmentLaw ((segment_lawful_iff _).2
        ⟨⟨((segment_lawful_iff _).1 (hg m)).1.queue, fun _ => rfl, nofun⟩, nofun⟩) fun i _ => hg i
  all_goals exact hs

/-- The end of a window leaves its segment ready, and what follows leaves it so until the next exchange is chosen. -/
theorem windowEnds_segmentLaw (door : Bool) (hs : s.segmentLaw = true)
    (h : (endWindow m (setDoorWire m door s)).LinesGoOn t) : (kickSegment m t).segmentLaw = true := by
  refine kickSegment_segmentLaw (h.readyAt ?_)
  rw [endWindow_setDoorWire]
  exact setSegment_readyAt ⟨((segment_lawful_iff _).1 ((segmentLaw_iff s).1 hs m)).1.queue, fun hne => absurd rfl hne, nofun⟩ hs

theorem deskAnswer_segmentLaw (door : Bool) (frame : List Byte) (hs : s.segmentLaw = true) :
    (deskAnswer m door frame s).segmentLaw = true := by
  unfold deskAnswer
  split
  · exact windowEnds_segmentLaw door hs (handleAnswer_goesOn frame (.refl _))
  all_goals exact hs

theorem answerWindowTimeout_segmentLaw (door : Bool) (hs : s.segmentLaw = true) :
    (answerWindowTimeout m door s).segmentLaw = true := by
  unfold answerWindowTimeout
  split
  · exact windowEnds_segmentLaw door hs (missed_goesOn false (.refl _))
  all_goals exact hs

/-! ### A hall second (R85, R87) -/

theorem broadcastTime_segmentLaw (hs : s.segmentLaw = true) : (broadcastTime m s).segmentLaw = true := by
  by_cases hd : s.segments[m].line = .disabled
  · rwa [broadcastTime_disabled hd]
  · have hr := ((segment_lawful_iff _).1 ((segmentLaw_iff s).1 hs m)).1
    rw [broadcastTime_running hd]
    exact kickSegment_segmentLaw (setSegment_readyAt ⟨hr.queue, hr.waits, fun e => absurd e hd⟩ hs)

theorem hallSecond_segmentLaw (hs : s.segmentLaw = true) : (hallSecond s).segmentLaw = true := by
  rw [hallSecond_eq]
  exact takeInTurn_invariant (fun u => u.segmentLaw = true) four broadcastTime (fun _ _ hu => broadcastTime_segmentLaw hu)
    _ ((secondTaken_goesOn s).segmentLaw hs)

/-! ### Rooms that are enabled, disabled and reset, and the traffic clear (R84, R100, R101) -/

/-- A segment whose queue is emptied and whose window is abandoned is ready. -/
theorem abandoned_ready (h : g.lawful = true) (hg : g' = { g.abandoned with
    queue := [], rotation := g'.rotation, postStatus := g'.postStatus, postMiss := g'.postMiss }) : g'.Ready := by
  obtain ⟨hr, -⟩ := (segment_lawful_iff g).1 h
  rw [hg]
  refine ⟨queueLaw_nil, fun hl => hr.waits fun hm => hl ?_, fun hd => ⟨(hr.disabled ?_).1, rfl⟩⟩
  · simp only [Segment.abandoned, hm]
  · cases hline : g.line with
    | disabled => rfl
    | master | awaiting a => simp [Segment.abandoned, hline] at hd

theorem startSegment_segmentLaw (hs : s.segmentLaw = true) : (startSegment m s).segmentLaw = true := by
  have hs' : (unknownDesks m s).segmentLaw = true := hs
  exact kickSegment_segmentLaw (setSegment_readyAt ⟨queueLaw_nil, fun hne => absurd rfl hne, nofun⟩ hs')

theorem stopSegment_segmentLaw (hs : s.segmentLaw = true) : (stopSegment m s).segmentLaw = true :=
  setSegment_segmentLaw ((segment_lawful_iff _).2 ⟨⟨queueLaw_nil, fun _ => rfl, fun _ => ⟨rfl, rfl⟩⟩, nofun⟩)
    fun i _ => (segmentLaw_iff s).1 hs i

theorem setRoomSettings_segmentLaw (n : Nat) (on : Bool) (sep fill : Nat) (hs : s.segmentLaw = true) :
    (setRoomSettings n on sep fill s).1.segmentLaw = true := by
  unfold setRoomSettings followEnabled
  repeat' split
  any_goals exact hs
  · exact startSegment_segmentLaw (s := s.setRoom _ _) hs
  · exact stopSegment_segmentLaw (s := s.setRoom _ _) hs

theorem resetRoom_segmentLaw (n : Nat) (hs : s.segmentLaw = true) : (resetRoom n s).1.segmentLaw = true := by
  unfold resetRoom
  split
  · exact hs
  · next m _ =>
    have hs' : (unknownDesks m s).segmentLaw = true := hs
    exact kickSegment_segmentLaw (setSegment_readyAt (abandoned_ready ((segmentLaw_iff s).1 hs m) rfl) hs')

theorem clearSegment_segmentLaw (hs : s.segmentLaw = true) : (clearSegment m s).segmentLaw = true :=
  kickSegment_segmentLaw (setSegment_readyAt (abandoned_ready ((segmentLaw_iff s).1 hs m) rfl) hs)

theorem abandonMarking_segments (s : State) : (abandonMarking s).segments = s.segments := by
  unfold abandonMarking
  repeat' split
  all_goals rfl

theorem clearIntake_segments (s : State) : (clearIntake s).segments = s.segments := abandonMarking_segments s

theorem clearTraffic_segmentLaw (hs : s.segmentLaw = true) : (clearTraffic s).1.segmentLaw = true :=
  segmentLaw_of_segments (clearIntake_segments _) (takeInTurn_invariant (fun u => u.segmentLaw = true) four clearSegment
    (fun _ _ hu => clearSegment_segmentLaw hu) s hs)

/-! ### The sheet intake and the mark engine do not touch the segments -/

@[simp] theorem settleFrom_segments (order : List (Fin 4)) (s : State) :
    (settleFrom order s).segments = s.segments := by rw [settleFrom_eq]

@[simp] theorem intakeChanged_segments (s : State) : (intakeChanged s).segments = s.segments := by
  simp [intakeChanged, settle]

@[simp] theorem reportFault_segments (s : State) (cls : FaultClass) (d : FaultDetail) :
    (s.reportFault cls d).segments = s.segments := by
  unfold State.reportFault
  split <;> rfl

@[simp] theorem closeMalformed_segments (next : ReceiveState) (s : State) :
    (closeMalformed next s).segments = s.segments := by
  unfold closeMalformed
  split <;> simp

theorem scannerFrame_segments {f : State → State} (h : ∀ s : State, (f s).segments = s.segments) (s : State) :
    (scannerFrame f s).segments = s.segments := by
  unfold scannerFrame
  split
  · rfl
  · exact h s

@[simp] theorem badScannerFrame_segments (s : State) : (badScannerFrame s).segments = s.segments := by
  unfold badScannerFrame closingFrame
  split <;> simp

theorem sheetBegin_segments (serial page c1 c2 c3 c4 : Nat) (s : State) :
    (sheetBegin serial page c1 c2 c3 c4 s).segments = s.segments := by
  refine scannerFrame_segments (fun s => ?_) s
  unfold beginSheet
  repeat' split
  all_goals simp

theorem sheetRow_segments (n : Nat) (r : RowReading) (s : State) : (sheetRow n r s).segments = s.segments := by
  refine scannerFrame_segments (fun s => ?_) s
  unfold fillRow fillBuffer closingFrame
  repeat' split
  all_goals simp

theorem sheetEnd_segments (count : Nat) (s : State) : (sheetEnd count s).segments = s.segments := by
  refine scannerFrame_segments (fun s => ?_) s
  unfold endSheet closeWellFormed closingFrame
  repeat' split
  all_goals simp

theorem sheetGapTimeout_segments (s : State) : (sheetGapTimeout s).segments = s.segments := by
  unfold sheetGapTimeout closingFrame
  split <;> simp

theorem transmitterEvent_segments (s : State) : (beginAnswerSent s).segments = s.segments ∧
    (verdictSent s).segments = s.segments ∧ (portResetSent s).segments = s.segments := by
  refine ⟨?_, ?_, ?_⟩
  · unfold beginAnswerSent
    split <;> simp
  · unfold verdictSent
    split <;> simp
  · unfold portResetSent
    split <;> simp

theorem markingComplete_segments (s : State) : (markingComplete s).segments = s.segments := by
  have hscript : ∀ h y s, (markScript h y s).segments = s.segments := by
    intro h y s
    unfold markScript
    split <;> simp
  have hcandidate : ∀ h y s, (markCandidate h y s).segments = s.segments := by
    intro h y s
    unfold markCandidate
    dsimp only
    repeat' split
    all_goals simp
  have hdecide : ∀ h y s, (decideMarked h y s).segments = s.segments := by
    intro h y s
    unfold decideMarked
    split <;> simp
  unfold markingComplete completeMarking
  split <;> simp [hscript, hcandidate, hdecide]

/-! ### The requests -/

theorem markClashes_segments (j : Nat) (s : State) : (markClashes j s).segments = s.segments := by
  unfold markClashes
  split
  · rfl
  · refine takeInTurn_invariant (fun t => t.segments = s.segments) _ _ (fun j t ht => ?_) s rfl
    unfold setClash
    split <;> exact ht

theorem enrolAt_segments (s : State) (j : Nat) (c : Candidate) : (s.enrolAt j c).segments = s.segments := by
  have hjoin : ((s.setCand j c).joinChain c.number j).segments = s.segments := by
    rw [(joinChain_relinked (s.setCand j c) c.number j).frame]
    rfl
  rw [enrolAt_frame]
  exact (markClashes_segments ..).trans hjoin

theorem retireRecord_segments (s : State) (j : Nat) (c : Candidate) : (s.retireRecord j c).segments = s.segments := by
  rw [retireRecord_frame]

theorem rescheduleRecords_segments (s : State) (k : Fin 8) (old : Sitting) :
    (s.rescheduleRecords k old).segments = s.segments := by
  have htested : ((s.reordered k old).clashTested k old s.sittings[k]).segments = s.segments := by
    refine Eq.trans ?_ (show (s.reordered k old).segments = s.segments by rw [(reordered_relinked s k old).frame])
    unfold State.clashTested
    split
    · rfl
    · exact takeInTurn_invariant (fun t => t.segments = (s.reordered k old).segments) _ _
        (fun j t ht => (markClashes_segments j t).trans ht) _ rfl
  rw [rescheduleRecords_eq]
  split
  · exact htested
  · exact htested

/-- The requests that begin or end the exchanges of a segment (R84, R100, R101). -/
def movesLines : Instr → Bool
  | .setRoom .. | .resetRoom .. | .clearTraffic => true
  | _ => false

/-- The requests that do not tell a desk or a post anything. -/
def leavesSegments : Instr → Bool
  | .enrol .. | .amend .. | .retire .. | .setClock .. | .schedule .. | .retireSitting .. | .defineSeat .. | .seatState ..
  | .ackHand .. | .issue .. | .keyOpen .. | .keyEntries .. | .keySeal .. | .keyDiscard .. | .remark .. | .clearAttention ..
  | .setAttention .. | .clearFault => true
  | i => onlyReads i

theorem ownerRule_segments {i : Instr} (hi : leavesSegments i = true) {op : Owner} (ho : ownerRule i = some op)
    (s : State) : (op s).1.segments = s.segments := by
  by_cases hr : onlyReads i = true
  · rw [reads_same hr ho s]
  cases i <;> simp only [leavesSegments, onlyReads, not_true, Bool.false_eq_true] at hr hi <;>
    simp only [ownerRule, Option.some.injEq] at ho <;> subst ho
  all_goals
    simp only [enrol, amend, retire, setClock, schedule, retireSitting, defineSeat, setSeatState, State.bringBack, ackHand,
      issue, keyOpen, keyEntries, keySeal, keyDiscard, remark, clearAttention, setAttention, clearFault]
    repeat' split
    all_goals simp [enrolAt_segments, retireRecord_segments, rescheduleRecords_segments, State.emptyKey]

/-- Every request but those on rooms and the traffic clear lets the lines go on. -/
theorem ownerRule_goesOn {i : Instr} (hi : movesLines i = false) {op : Owner} (ho : ownerRule i = some op) (s : State) :
    s.LinesGoOn (op s).1 := by
  by_cases hl : leavesSegments i = true
  · exact .of_segments (ownerRule_segments hl ho s) (.refl s)
  cases i <;> simp only [leavesSegments, onlyReads, movesLines, not_true, Bool.true_eq_false] at hl hi <;>
    simp only [ownerRule, Option.some.injEq, reduceCtorEq] at ho <;> subst ho
  case extend =>
    unfold extend
    repeat' split
    any_goals exact .refl s
    rw [okOrClamped_fst]
    split
    · exact fun _ => .refl _
    · exact takeInTurn_goesOn (fun _ u => extendRecord_goesOn (.refl u)) _ fun _ => .refl _
  case handOverSitting =>
    unfold handOverSitting
    repeat' split
    all_goals simp
  all_goals
    simp only [withdraw, setSittingHold, admitFor, place, unplace, move, restFor, submitFor, voidScript, handOver]
    repeat' split
    all_goals simp

theorem ownerRule_segmentLaw {i : Instr} {op : Owner} (ho : ownerRule i = some op) (s : State)
    (hs : s.segmentLaw = true) : (op s).1.segmentLaw = true := by
  cases hi : movesLines i with
  | false => exact (ownerRule_goesOn hi ho s).segmentLaw hs
  | true =>
    cases i <;> simp only [movesLines, Bool.false_eq_true] at hi
    case setRoom => cases ho; exact setRoomSettings_segmentLaw _ _ _ _ hs
    case resetRoom => cases ho; exact resetRoom_segmentLaw _ hs
    case clearTraffic => cases ho; exact clearTraffic_segmentLaw hs

/-! ### Every step -/

theorem segmentLaw_conserved : Conserved (fun s => s.segmentLaw = true) where
  port _ _ hs := hs
  fault cls d s hs := segmentLaw_of_segments (reportFault_segments s cls d) hs
  owner ho s hs := ownerRule_segmentLaw ho s hs

theorem blocksReset_segmentLaw (s : State) : (blocksReset s).segmentLaw = true := by
  refine (segmentLaw_iff _).2 fun m => ?_
  have hm : (blocksReset s).segments[m] = s.segments[m].afterReset := by simp [blocksReset]
  rw [hm]
  exact (segment_lawful_iff _).2 ⟨⟨queueLaw_nil, fun _ => rfl, fun _ => ⟨rfl, rfl⟩⟩, nofun⟩

theorem exec_segmentLaw (i : Instr) (hs : s.segmentLaw = true) (he : exec i s = .next t) : t.segmentLaw = true := by
  cases ho : ownerRule i with
  | some op => exact segmentLaw_conserved.request ho hs he
  | none =>
    cases hl : ofLine i with
    | true => exact segmentLaw_conserved.line hl hs he
    | false =>
      have kept : ∀ {f : State → State}, (f s).segmentLaw = true → whileRunning f s = .next t → t.segmentLaw = true :=
        fun hf he => Conserved.whileRunning (P := fun u => u.segmentLaw = true) hf hs he
      have event : ∀ {f : State → State}, (f s).segments = s.segments → whileRunning f s = .next t →
          t.segmentLaw = true := fun hf he => kept (segmentLaw_of_segments hf hs) he
      have reset := blocksReset_segmentLaw s
      cases i <;> simp only [ownerRule, ofLine, reduceCtorEq, Bool.true_eq_false] at ho hl
      case hallSecond => exact kept (hallSecond_segmentLaw hs) he
      case holdFilterChange => exact kept ((holdFilterChange_goesOn s).segmentLaw hs) he
      case timeSent m d => exact kept (timeSent_segmentLaw d hs) he
      case showSent m d => exact kept (showSent_segmentLaw d hs) he
      case pollSent m d => exact kept (pollSent_segmentLaw d hs) he
      case deskAnswer m d f => exact kept (deskAnswer_segmentLaw d f hs) he
      case answerWindowTimeout m d => exact kept (answerWindowTimeout_segmentLaw d hs) he
      case sheetBegin d p c1 c2 c3 c4 => exact event (sheetBegin_segments d p c1 c2 c3 c4 s) he
      case row n a b c d e => exact event (sheetRow_segments n ⟨a, b, c, d, e⟩ s) he
      case sheetEnd n => exact event (sheetEnd_segments n s) he
      case scannerBadFrame => exact event (scannerFrame_segments badScannerFrame_segments s) he
      case sheetGapTimeout => exact event (sheetGapTimeout_segments s) he
      case beginAnswerSent => exact event (transmitterEvent_segments s).1 he
      case verdictSent => exact event (transmitterEvent_segments s).2.1 he
      case portResetSent => exact event (transmitterEvent_segments s).2.2 he
      case markingComplete => exact event (markingComplete_segments s) he
      case hallHoldEdge high =>
        simp only [exec, execHallHoldEdge] at he
        split at he <;> cases he <;> exact hs
      case powerUp =>
        cases he
        exact reset
      case hallReset =>
        simp only [exec, execHallReset] at he
        split at he <;> cases he
        · exact reset
        all_goals exact hs
      case powerUpEnd pol =>
        simp only [exec, execPowerUpEnd] at he
        split at he <;> cases he <;> exact hs
      case hallResetEnd pol =>
        simp only [exec, execHallResetEnd] at he
        split at he <;> cases he <;> exact hs

/-- Settles O7: wherever an exchange ends the segment is left ready and the next one is chosen at once, and whatever else
happens only queues messages, which keeps the law of the queues. -/
theorem stepKeepsTheSegmentLaw : Obligations.StepKeepsTheSegmentLaw := by
  intro s t hs he
  unfold step at he
  split at he
  · cases he
    exact hs
  · next i rest _ =>
    have hs' : State.segmentLaw { s with pending := rest } = true := hs
    exact exec_segmentLaw i hs' he

end Sys2Proof.Machine
end

