-- ==== Sys2Proof/Proofs/Exchanges.lean ====
section
/-! SUPPORT. The next exchange of a segment as its controller chooses it (R85, R87, R88, R90), and the messages that have
left the line (R92, R100). -/

namespace Sys2Proof.Machine

variable {s : State} {g : Segment} {m : Fin 4} {a r : Nat}

/-! ### The rotation and the held sittings (R85, R88) -/

theorem mem_boundAddresses : a ∈ s.boundAddresses m ↔ ∃ y ∈ s.seats, y.2.binds = some (m, a) := by
  rw [State.boundAddresses, List.mem_filterMap]
  refine exists_congr fun y => and_congr_right fun _ => ?_
  cases y.2.binds with
  | none => simp
  | some b =>
    obtain ⟨room, b⟩ := b
    by_cases h : room = m <;> simp [h]

/-- The next address of the rotation: the least bound address above the position, or 0 (R88). -/
theorem rotationAddress_eq
    (h : (r ∈ s.boundAddresses m ∧ s.segments[m].rotation < r ∧
        ∀ b ∈ s.boundAddresses m, s.segments[m].rotation < b → r ≤ b) ∨
      (r = 0 ∧ ∀ b ∈ s.boundAddresses m, b ≤ s.segments[m].rotation)) : s.rotationAddress m = r := by
  unfold State.rotationAddress
  rcases h with ⟨hr, hlt, hleast⟩ | ⟨rfl, hnone⟩
  · have hmin : ((s.boundAddresses m).filter (fun a => decide (s.segments[m].rotation < a))).min? = some r := by
      rw [List.min?_eq_some_iff]
      simp only [List.mem_filter, decide_eq_true_eq]
      exact ⟨⟨hr, hlt⟩, fun b hb => hleast b hb.1 hb.2⟩
    rw [hmin]
    rfl
  · have hempty : (s.boundAddresses m).filter (fun a => decide (s.segments[m].rotation < a)) = [] :=
      List.filter_eq_nil_iff.2 fun b hb => by simpa using hnone b hb
    rw [hempty]
    rfl

/-- A set of one sitting, or of none. -/
theorem getLsbD_ite_twoPow (b : Bool) (i k : Fin 8) :
    (if b then BitVec.twoPow 8 i.val else 0).getLsbD k.val = (b && decide (k = i)) := by
  cases b with
  | false => simp
  | true => simp [Fin.ext_iff, eq_comm, k.isLt]

theorem heldSet_getLsbD (s : State) (k : Fin 8) :
    s.heldSet.getLsbD k.val = (s.sittings[k].hold.hall || s.sittings[k].hold.sitting) := by
  have hset : s.heldSet = eight.foldl (fun set i => set ||| if s.sittings[i].held then BitVec.twoPow 8 i.val else 0) 0 := by
    simp [State.heldSet, eight]
    rfl
  have hbit : ∀ (l : List (Fin 8)) (set : BitVec 8),
      (l.foldl (fun set i => set ||| if s.sittings[i].held then BitVec.twoPow 8 i.val else 0) set).getLsbD k.val =
        (set.getLsbD k.val || (decide (k ∈ l) && s.sittings[k].held)) := by
    intro l
    induction l with
    | nil => simp
    | cons i l ih =>
      intro set
      rw [List.foldl_cons, ih, BitVec.getLsbD_or, getLsbD_ite_twoPow]
      by_cases hk : k = i
      · subst hk
        cases s.sittings[k].held <;> simp
      · simp [hk]
  rw [hset, hbit, decide_eq_true (mem_eight k)]
  simp [Sitting.held, HoldSources.any]

/-! ### The choice of the next exchange (R87) -/

theorem kickSegment_idle (h : s.segments[m].line ≠ .master ∨ s.segments[m].sending ≠ none) : kickSegment m s = s := by
  unfold kickSegment
  split
  · next hl hs => exact absurd hs (h.resolve_left (· hl))
  · rfl

theorem kickSegment_chooses (hl : s.segments[m].line = .master) (hs : s.segments[m].sending = none) :
    kickSegment m s = s.setSegment m (s.chosen m) := by
  rw [kickSegment, hl, hs]

section
variable (hg : s.segments[m] = g) (hl : g.line = .master) (hs : g.sending = none)
include hg hl hs

/-- A TIME that is due goes first (R85, R87). -/
theorem kickSegment_sendsTime (ht : g.timeDue = true) : kickSegment m s = s.setSegment m { g with
    doorSampled := g.doorWire, timeDue := false, sending := some (.time s.hallTime s.heldSet) } := by
  subst hg
  rw [kickSegment_chooses hl hs, State.chosen, if_pos ht]

/-- A door that calls is polled next (R87). -/
theorem kickSegment_pollsDoor (ht : g.timeDue = false) (hd : g.doorWire = true) : kickSegment m s = s.setSegment m { g with
    doorSampled := true, sending := some (.poll 0) } := by
  rw [kickSegment_chooses (hg ▸ hl) (hg ▸ hs), State.chosen, hg, if_neg (Bool.eq_false_iff.1 ht), if_pos hd]
  exact congrArg (fun b => s.setSegment m { g with doorSampled := b, sending := some (.poll 0) }) hd

/-- Then the head of the directed queue goes out (R90). -/
theorem kickSegment_sendsShow (ht : g.timeDue = false) (hd : g.doorWire = false) {e : ShowEntry} {rest : List ShowEntry}
    (hq : g.queue = e :: rest) : kickSegment m s = s.setSegment m { g with
      doorSampled := false, queue := rest, sending := some (.show_ e) } := by
  rw [kickSegment_chooses (hg ▸ hl) (hg ▸ hs), State.chosen, hg, if_neg (Bool.eq_false_iff.1 ht),
    if_neg (Bool.eq_false_iff.1 hd), hq]
  exact congrArg (fun b => s.setSegment m { g with doorSampled := b, queue := rest, sending := some (.show_ e) }) hd

/-- With nothing else to send the rotation goes on (R88). -/
theorem kickSegment_polls (ht : g.timeDue = false) (hd : g.doorWire = false) (hq : g.queue = [])
    (hr : (r ∈ s.boundAddresses m ∧ g.rotation < r ∧ ∀ b ∈ s.boundAddresses m, g.rotation < b → r ≤ b) ∨
      (r = 0 ∧ ∀ b ∈ s.boundAddresses m, b ≤ g.rotation)) : kickSegment m s = s.setSegment m { g with
      doorSampled := false, rotation := r, sending := some (.poll r) } := by
  rw [kickSegment_chooses (hg ▸ hl) (hg ▸ hs), State.chosen, hg, if_neg (Bool.eq_false_iff.1 ht),
    if_neg (Bool.eq_false_iff.1 hd), rotationAddress_eq (hg ▸ hr)]
  split
  · next hq' => exact nomatch hq'.symm.trans hq
  · exact congrArg (fun b => s.setSegment m { g with doorSampled := b, rotation := r, sending := some (.poll r) }) hd

end

/-! ### A message that has left the line (R87, R92, R100) -/

/-- The segment as its exchange ends. -/
def Segment.exchangeEnded (door : Bool) (g : Segment) : Segment :=
  { g with doorWire := door, sending := none, pollVoided := false }

/-- A TIME, a SHOW or a voided POLL has left the line: the exchange ends, and the next one is chosen. -/
theorem exec_exchangeEnded {i : Instr} {door : Bool} (h : s.resetHold = .running)
    (hi : (i = .timeSent m door ∧ ∃ time held, s.segments[m].sending = some (.time time held)) ∨
      (i = .showSent m door ∧ ∃ e, s.segments[m].sending = some (.show_ e)) ∨
      (i = .pollSent m door ∧ (∃ a, s.segments[m].sending = some (.poll a)) ∧ s.segments[m].pollVoided = true)) :
    exec i s = .next (kickSegment m (s.setSegment m (s.segments[m].exchangeEnded door))) := by
  have hend := endExchange_setDoorWire m door s
  rcases hi with ⟨rfl, time, held, hm⟩ | ⟨rfl, e, hm⟩ | ⟨rfl, ⟨a, hm⟩, hv⟩
  · refine (whileRunning_running (timeSent m door) s h).trans (congrArg Host.Outcome.next ?_)
    rw [timeSent, hm]
    exact congrArg (kickSegment m) hend
  · refine (whileRunning_running (showSent m door) s h).trans (congrArg Host.Outcome.next ?_)
    rw [showSent, hm]
    exact congrArg (kickSegment m) hend
  · refine (whileRunning_running (pollSent m door) s h).trans (congrArg Host.Outcome.next ?_)
    rw [pollSent, hm]
    exact (if_pos hv).trans (congrArg (kickSegment m) hend)

/-- Any other POLL opens the window of its address (R83, R92). -/
theorem exec_pollSent {door : Bool} (h : s.resetHold = .running) (hm : s.segments[m].sending = some (.poll a))
    (hv : s.segments[m].pollVoided = false) : exec (.pollSent m door) s = .next (s.setSegment m { s.segments[m] with
      line := .awaiting a, sending := none, doorWire := door }) := by
  refine (whileRunning_running (pollSent m door) s h).trans (congrArg Host.Outcome.next ?_)
  rw [pollSent, hm]
  exact if_neg (Bool.eq_false_iff.1 hv)

/-- Settles O44: the choice is made by the rules of R87 in their order, on the segment that the message leaves. -/
theorem sentMessagesLeadToTheNext : Obligations.SentMessagesLeadToTheNext := by
  refine ⟨fun s m g hg => ?_, fun h a held c => ⟨rfl, rfl, rfl⟩, fun room k row column n pe left => ?_, rfl,
    fun s m door i g h hg => ?_⟩
  · exact ⟨fun a => mem_boundAddresses, heldSet_getLsbD s, fun hidle => kickSegment_idle (hg ▸ hidle),
      fun hl hs => ⟨kickSegment_sendsTime hg.symm hl hs, kickSegment_pollsDoor hg.symm hl hs,
        fun _ _ ht hd => kickSegment_sendsShow hg.symm hl hs ht hd, fun _ => kickSegment_polls hg.symm hl hs⟩⟩
  · refine ⟨?_, ?_, fun _ => ⟨rfl, rfl⟩, rfl, rfl⟩
    · rintro c rfl
      exact ⟨rfl, rfl⟩
    · rintro c st code rfl hst
      simp only [List.mem_cons, List.not_mem_nil, or_false, Prod.mk.injEq] at hst
      rcases hst with ⟨rfl, rfl⟩ | ⟨rfl, rfl⟩ | ⟨rfl, rfl⟩ <;> exact ⟨rfl, rfl⟩
  · subst hg
    refine ⟨fun a hm hv => exec_pollSent h hm hv, fun hl hi => ?_⟩
    have hexec := exec_exchangeEnded h hi
    have hg := segment_setSegment_self s m (s.segments[m].exchangeEnded door)
    have written := setSegment_setSegment s m (s.segments[m].exchangeEnded door)
    refine ⟨fun ht => ?_, fun ht hd => ?_, fun e rest ht hd hq => ?_, fun r ht hd hq hr => ?_⟩
    · rw [hexec, kickSegment_sendsTime hg hl rfl ht, written]
      rfl
    · subst hd
      rw [hexec, kickSegment_pollsDoor hg hl rfl ht rfl, written]
      rfl
    · subst hd
      rw [hexec, kickSegment_sendsShow hg hl rfl ht rfl hq, written]
      rfl
    · subst hd
      rw [hexec, kickSegment_polls hg hl rfl ht rfl hq hr, written]
      rfl

end Sys2Proof.Machine
end

