-- ==== Sys2Proof/Proofs/Misses.lean ====
section
/-! SUPPORT. A window that ends without a good answer (R92, R94): the miss is counted against the awaited unit, the third
in a row is the loss of it (R95, R96), and the reports follow (R176). -/

namespace Sys2Proof.Machine

variable {s w u : State} {m : Fin 4} {a x : Nat} {door failed : Bool} {frame : List Byte}

/-! ### The count (R94 to R96) -/

theorem countMiss_desk (ha : 0 < a) (hx : w.boundSeat m a = some x) : countMiss m a w = deskMiss x w := by
  rw [countMiss, if_neg (Nat.ne_of_gt ha), hx]

theorem thirdMiss_desk (ha : 0 < a) (hx : w.boundSeat m a = some x) :
    w.thirdMiss m a = ((w.seat x).missCount == 2) := by
  rw [State.thirdMiss, if_neg (Nat.ne_of_gt ha), hx]

/-- A miss of an address no longer bound is not counted (R94). -/
theorem countMiss_unbound (ha : 0 < a) (hx : w.boundSeat m a = none) :
    countMiss m a w = w ∧ w.thirdMiss m a = false := by
  rw [countMiss, State.thirdMiss, if_neg (Nat.ne_of_gt ha), if_neg (Nat.ne_of_gt ha), hx]
  exact ⟨rfl, rfl⟩

theorem deskMiss_eq (x : Nat) (w : State) : deskMiss x w =
    if 3 ≤ (w.seat x).missCount then w
    else if (w.seat x).missCount = 2 then w.setSeat x { w.seat x with missCount := 3, deskStatus := .lost }
    else w.setSeat x { w.seat x with missCount := (w.seat x).missCount + 1 } := rfl

theorem postMiss_eq (m : Fin 4) (w : State) : postMiss m w =
    if 3 ≤ w.segments[m].postMiss then w
    else if w.segments[m].postMiss = 2 then w.setSegment m { w.segments[m] with postMiss := 3, postStatus := .lost }
    else w.setSegment m { w.segments[m] with postMiss := w.segments[m].postMiss + 1 } := rfl

/-! ### The window's end (R92, R94) -/

theorem exec_windowTimeout (h : s.resetHold = .running) (hline : s.segments[m].line = .awaiting a) :
    exec (.answerWindowTimeout m door) s = .next (kickSegment m (missed m a false
      (s.setSegment m { s.segments[m] with line := .master, doorWire := door }))) := by
  refine (whileRunning_running (answerWindowTimeout m door) s h).trans (congrArg Host.Outcome.next ?_)
  rw [answerWindowTimeout, hline]
  exact congrArg (fun t => kickSegment m (missed m a false t)) (endWindow_setDoorWire m door s)

/-- A frame that is no good answer from the awaited address is a failed answer (R86, R94). -/
theorem exec_failedAnswer (h : s.resetHold = .running) (hline : s.segments[m].line = .awaiting a)
    (hframe : ∀ e, parseAnswer frame ≠ some (a, e)) :
    exec (.deskAnswer m door frame) s = .next (kickSegment m (missed m a true
      (s.setSegment m { s.segments[m] with line := .master, doorWire := door }))) := by
  have handled : ∀ t, handleAnswer m a frame t = missed m a true t := by
    intro t
    unfold handleAnswer
    split
    · next a' e hparse => exact if_neg fun (ha : a' = a) => hframe e (ha ▸ hparse)
    · rfl
  refine (whileRunning_running (deskAnswer m door frame) s h).trans (congrArg Host.Outcome.next ?_)
  rw [deskAnswer, hline]
  dsimp only
  rw [handled, endWindow_setDoorWire]

/-! ### The reports (R94 to R96, R176) -/

/-- A window's two bad ends, as commands on a state whose window has ended. -/
structure WindowFails (m : Fin 4) (a : Nat) (w : State) (timeout answer : Host.Outcome State Fault Refusal) : Prop where
  timeout : timeout = .next (kickSegment m (missed m a false w))
  answer : answer = .next (kickSegment m (missed m a true w))

variable {timeout answer : Host.Outcome State Fault Refusal}

/-- A miss that is not the third: a failed answer alone is reported. -/
theorem WindowFails.first (h : WindowFails m a w timeout answer) (hc : countMiss m a w = u)
    (hl : w.thirdMiss m a = false) : timeout = .next (kickSegment m u) ∧
      answer = .next (kickSegment m (u.reportFault .deskCorrupt (.unit m a))) := by
  rw [h.timeout, h.answer, missed, missed, hc, hl]
  exact ⟨rfl, rfl⟩

/-- The third miss: the loss is reported too, before the failed answer or after it (log entry 16). -/
theorem WindowFails.third (h : WindowFails m a w timeout answer) (hc : countMiss m a w = u)
    (hl : w.thirdMiss m a = true) :
    timeout = .next (kickSegment m ((u.raise .desk).reportFault .deskLost (.unit m a))) ∧
    (answer = .next (kickSegment m
        (((u.raise .desk).reportFault .deskLost (.unit m a)).reportFault .deskCorrupt (.unit m a))) ∨
      answer = .next (kickSegment m
        (((u.reportFault .deskCorrupt (.unit m a)).raise .desk).reportFault .deskLost (.unit m a)))) := by
  rw [h.timeout, h.answer, missed, missed, hc, hl]
  refine ⟨rfl, ?_⟩
  unfold reportMiss reportLost
  dsimp only
  split
  · exact .inl rfl
  · exact .inr rfl

/-- The ends of a window by the misses that the unit already had: a LOST one counts no further (R94 to R96). -/
theorem WindowFails.counted (h : WindowFails m a w timeout answer) {misses : Nat} {once lost : State}
    (hc : countMiss m a w = if 3 ≤ misses then w else if misses = 2 then lost else once)
    (hl : w.thirdMiss m a = (misses == 2)) :
    (misses < 2 → timeout = .next (kickSegment m once) ∧
      answer = .next (kickSegment m (once.reportFault .deskCorrupt (.unit m a)))) ∧
    (misses = 2 →
      timeout = .next (kickSegment m ((lost.raise .desk).reportFault .deskLost (.unit m a))) ∧
      (answer = .next (kickSegment m
          (((lost.raise .desk).reportFault .deskLost (.unit m a)).reportFault .deskCorrupt (.unit m a))) ∨
        answer = .next (kickSegment m
          (((lost.reportFault .deskCorrupt (.unit m a)).raise .desk).reportFault .deskLost (.unit m a))))) ∧
    (3 ≤ misses → timeout = .next (kickSegment m w) ∧
      answer = .next (kickSegment m (w.reportFault .deskCorrupt (.unit m a)))) := by
  refine ⟨fun hfew => ?_, fun htwo => ?_, fun hmany => ?_⟩
  · rw [if_neg (by omega), if_neg (by omega)] at hc
    exact h.first hc (hl.trans (beq_eq_false_iff_ne.2 (by omega)))
  · rw [if_neg (by omega), if_pos htwo] at hc
    exact h.third hc (hl.trans (beq_iff_eq.2 htwo))
  · rw [if_pos hmany] at hc
    exact h.first hc (hl.trans (beq_eq_false_iff_ne.2 (by omega)))

/-- Settles O48: the misses that the awaited unit already had decide how the window ends. -/
theorem missedAnswersCountToLost : Obligations.MissedAnswersCountToLost := by
  intro s m door a w frame h _ hline hw hframe
  have hends : WindowFails m a w (exec (.answerWindowTimeout m door) s) (exec (.deskAnswer m door frame) s) := by
    subst hw
    exact ⟨exec_windowTimeout h hline, exec_failedAnswer h hline hframe⟩
  refine ⟨fun x v lost ha hx hv hlost => ?_, fun ha hx => ?_, fun g lost ha hg hlost => ?_⟩
  · have hx' : w.boundSeat m a = some x := hw ▸ hx
    have hv' : v = w.seat x := hv.trans (hw ▸ rfl)
    subst hlost hv'
    exact hends.counted ((countMiss_desk ha hx').trans (deskMiss_eq x w)) (thirdMiss_desk ha hx')
  · obtain ⟨hc, hl⟩ := countMiss_unbound ha (show w.boundSeat m a = none from hw ▸ hx)
    exact hends.first hc hl
  · subst ha hlost hg
    exact hends.counted (postMiss_eq m w) rfl

end Sys2Proof.Machine
end

