-- ==== Sys2Proof/Proofs/RoomResets.lean ====
section
/-! SUPPORT. ACK_HAND and RESET_ROOM (R99, R100), and what the choice of the next exchange leaves of a segment (R87). -/

namespace Sys2Proof.Machine

variable {s t : State} {g g' : Segment} {m : Fin 4} {v : Seat} {a x : Nat}

/-! ### What the choice leaves of a segment (R87) -/

/-- A segment whose controller may have chosen an exchange: in MASTER there is one, one in progress goes on, and the
queue may have given its head. -/
structure Segment.Chosen (g g' : Segment) : Prop where
  line : g'.line = g.line
  postStatus : g'.postStatus = g.postStatus
  postMiss : g'.postMiss = g.postMiss
  queue : g'.queue <:+ g.queue
  sends : g.line = .master → g'.sending.isSome = true
  busy : g.sending.isSome = true → g'.sending = g.sending

theorem Segment.Chosen.empty (h : g.Chosen g') (hq : g.queue = []) : g'.queue = [] :=
  List.suffix_nil.1 (hq ▸ h.queue)

theorem kickSegment_chosen (m : Fin 4) (s : State) : s.segments[m].Chosen (kickSegment m s).segments[m] := by
  unfold kickSegment
  split
  · next hl hs =>
    have hbusy : ∀ g' : Segment, s.segments[m].sending.isSome = true → g'.sending = s.segments[m].sending :=
      fun _ hsome => absurd hs (Option.isSome_iff_ne_none.1 hsome)
    rw [segment_setSegment_self, State.chosen]
    split
    · exact ⟨rfl, rfl, rfl, List.suffix_refl _, fun _ => rfl, hbusy _⟩
    split
    · exact ⟨rfl, rfl, rfl, List.suffix_refl _, fun _ => rfl, hbusy _⟩
    split
    · next e rest hq => exact ⟨rfl, rfl, rfl, hq ▸ List.suffix_cons e rest, fun _ => rfl, hbusy _⟩
    · exact ⟨rfl, rfl, rfl, List.suffix_refl _, fun _ => rfl, hbusy _⟩
  · next hno =>
    exact ⟨rfl, rfl, rfl, List.suffix_refl _, fun hl => Option.isSome_iff_ne_none.2 fun hs => hno hl hs, fun _ => rfl⟩

/-- The choice writes its own segment alone. -/
theorem kickSegment_writes (m : Fin 4) (s : State) :
    kickSegment m s = s.setSegment m (kickSegment m s).segments[m] := by
  unfold kickSegment
  split
  · rw [segment_setSegment_self]
  · simp [State.setSegment]

/-! ### A window that is abandoned (R100, R101) -/

/-- A POLL that is going out will open no window. -/
def voidsPoll : Option SegMessage → Bool
  | some (.poll _) => true
  | _ => false

/-- The state of the line once a window is abandoned. -/
def LineState.abandoned : LineState → LineState
  | .disabled => .disabled
  | .master => .master
  | .awaiting _ => .master

theorem abandoned_eq (g : Segment) :
    g.abandoned = { g with line := g.line.abandoned, pollVoided := voidsPoll g.sending } := by
  unfold Segment.abandoned
  congr 1
  · cases g.line <;> rfl
  · cases g.sending with
    | none => rfl
    | some msg => cases msg <;> rfl

/-! ### ACK_HAND and RESET_ROOM (R99, R100) -/

theorem contactLost_bound (h : v.binds = some (m, a)) :
    v.contactLost m = { v with deskStatus := .unknown, missCount := 0, stale := false } := by
  rw [Seat.contactLost, h]
  exact if_pos rfl

theorem contactLost_unbound (h : ∀ a, v.binds ≠ some (m, a)) : v.contactLost m = v := by
  unfold Seat.contactLost
  split
  · next room a hb => exact if_neg fun hm : room = m => h a (hm ▸ hb)
  · rfl

theorem ackHand_eq (hx : x < 512) (s : State) :
    ackHand x s = okWith [] (s.setSeat x { s.seat x with handRaised := false }) :=
  if_neg (Nat.not_le.2 hx)

/-- The state as a room reset has taken its segment and its desks, before the next exchange is chosen (R100). -/
def State.roomReset (s : State) (m : Fin 4) : State := { s with
  seats := s.seats.map (fun y => (y.1, y.2.contactLost m)),
  segments := s.segments.set m s.segments[m].roomReset }

theorem resetRoom_eq (m : Fin 4) (s : State) : resetRoom m s = okWith [] (kickSegment m (s.roomReset m)) := by
  rw [resetRoom, roomOf_val]
  rfl

theorem roomReset_eq (m : Fin 4) (s : State) : s.roomReset m = { s with
    seats := s.seats.map (fun y => (y.1, y.2.contactLost m)),
    segments := s.segments.set m { s.segments[m] with
      line := s.segments[m].line.abandoned, queue := [], rotation := 128, postStatus := .unknown, postMiss := 0,
      pollVoided := voidsPoll s.segments[m].sending } } := by
  rw [State.roomReset, Segment.roomReset, abandoned_eq]

theorem roomReset_segment (m : Fin 4) (s : State) : (s.roomReset m).segments[m] = { s.segments[m] with
    line := s.segments[m].line.abandoned, queue := [], rotation := 128, postStatus := .unknown, postMiss := 0,
    pollVoided := voidsPoll s.segments[m].sending } := by
  rw [roomReset_eq]
  exact segment_setSegment_self s m _

/-- Settles O49. -/
theorem handsAndRoomResets : Obligations.HandsAndRoomResets := by
  refine ⟨fun v m => ⟨fun ⟨a, h⟩ => contactLost_bound h, contactLost_unbound⟩, fun s h =>
    ⟨fun x hx => exec_ok rfl h (ackHand_eq hx s), fun m g hg => ?_⟩⟩
  subst hg
  have hexec : exec (.resetRoom m) s = answered (.resetRoom m) .ok [] s (kickSegment m (s.roomReset m)) :=
    exec_ok rfl h (resetRoom_eq m s)
  refine ⟨fun hidle => ?_, fun a hl hs => ⟨_, hexec, ?_, ?_, ?_⟩⟩
  · have hline : s.segments[m].line.abandoned = s.segments[m].line := by
      rcases hidle with hl | ⟨hl, -⟩ <;> rw [hl] <;> rfl
    have hkick : kickSegment m (s.roomReset m) = s.roomReset m := by
      refine kickSegment_idle ?_
      rw [roomReset_segment]
      rcases hidle with hl | ⟨-, hs⟩
      · exact .inl fun hm => nomatch (hline.trans hl).symm.trans hm
      · exact .inr (Option.isSome_iff_ne_none.1 hs)
    rw [hexec, hkick, roomReset_eq, hline]
    rfl
  · have hvoid : voidsPoll s.segments[m].sending = false := by rw [hs]; rfl
    rw [roomReset_eq, hl, hvoid]
    rfl
  · refine (kickSegment_writes ..).trans ?_
    simp only [State.setSegment, State.roomReset, Vector.set_set]
  · have hreset := roomReset_segment m s
    have hmaster : (s.roomReset m).segments[m].line = .master := by rw [hreset, hl]; rfl
    have hchosen := kickSegment_chosen m (s.roomReset m)
    refine ⟨hchosen.line.trans hmaster, hchosen.sends hmaster, hchosen.empty ?_, hchosen.postStatus.trans ?_,
      hchosen.postMiss.trans ?_⟩ <;> rw [hreset]

end Sys2Proof.Machine
end

