-- ==== Sys2Proof/Proofs/TrafficClear.lean ====
section
/-! SUPPORT. CLEAR_TRAFFIC (R101, R145, R180): each segment is cleared by itself, so that the desks' seats lose what their
own room's queue held; then the sheet intake decides its sheets. -/

namespace Sys2Proof.Machine

variable {s t u : State} {m i : Fin 4} {v : Seat} {x : Nat} {q : List ShowEntry}

/-! ### The seats (R101) -/

theorem awaitsShow_eq (m : Fin 4) (q : List ShowEntry) (v : Seat) : v.awaitsShow m q =
    (match v.binds with
      | some (room, a) => room == m && q.any (fun e => e.address == a)
      | none => false) := rfl

theorem clearedQueue_eq (m : Fin 4) (q : List ShowEntry) (v : Seat) :
    v.clearedQueue m q = { v with stale := v.stale || v.awaitsShow m q } := by
  unfold Seat.clearedQueue
  cases v.awaitsShow m q with
  | true => simp
  | false => simp

/-- A seat's address does not depend on its stale flag. -/
theorem clearedQueue_binds (m : Fin 4) (q : List ShowEntry) (v : Seat) : (v.clearedQueue m q).binds = v.binds := by
  rw [clearedQueue_eq]
  rfl

/-- A seat after the queues of some rooms are emptied, each of them as it was. -/
def Seat.clearedQueues (g : Vector Segment 4) (is : List (Fin 4)) (v : Seat) : Seat :=
  is.foldl (fun v i => v.clearedQueue i g[i].queue) v

theorem clearedQueues_eq (g : Vector Segment 4) (is : List (Fin 4)) (v : Seat) :
    v.clearedQueues g is = { v with stale := v.stale || is.any (fun i => v.awaitsShow i g[i].queue) } := by
  unfold Seat.clearedQueues
  induction is generalizing v with
  | nil => simp
  | cons i is ih =>
    rw [List.foldl_cons, ih, clearedQueue_eq, List.any_cons, ← Bool.or_assoc]
    rfl

/-- A seat awaits a SHOW of its own room's queue alone. -/
theorem any_awaitsShow (g : Vector Segment 4) (v : Seat) : four.any (fun i => v.awaitsShow i g[i].queue) =
    (match v.binds with
      | some (m, a) => g[m].queue.any (fun e => e.address == a)
      | none => false) := by
  simp only [awaitsShow_eq]
  cases v.binds with
  | none => simp
  | some b =>
    obtain ⟨m, a⟩ := b
    rw [Bool.eq_iff_iff, List.any_eq_true]
    constructor
    · rintro ⟨i, -, hi⟩
      obtain ⟨him, hany⟩ := Bool.and_eq_true_iff.1 hi
      exact (beq_iff_eq.1 him) ▸ hany
    · exact fun hany => ⟨m, mem_four m, by simpa using hany⟩

/-! ### One segment (R87, R101) -/

/-- A segment as a traffic clear takes it, before the next exchange is chosen. -/
def Segment.cleared (g : Segment) : Segment := { g.abandoned with queue := [] }

theorem cleared_eq (g : Segment) : g.cleared =
    { g with queue := [], line := g.line.abandoned, pollVoided := voidsPoll g.sending } := by
  rw [Segment.cleared, abandoned_eq]

/-- All that the choice of a segment's next exchange looks at. -/
structure State.SameLine (m : Fin 4) (s t : State) : Prop where
  hallTime : t.hallTime = s.hallTime
  held : t.heldSet = s.heldSet
  bound : t.boundAddresses m = s.boundAddresses m
  segment : t.segments[m] = s.segments[m]

theorem State.SameLine.refl (m : Fin 4) (s : State) : s.SameLine m s := ⟨rfl, rfl, rfl, rfl⟩

theorem State.SameLine.trans (h : s.SameLine m t) (g : t.SameLine m u) : s.SameLine m u :=
  ⟨g.hallTime.trans h.hallTime, g.held.trans h.held, g.bound.trans h.bound, g.segment.trans h.segment⟩

theorem State.SameLine.kicked (h : s.SameLine m t) : (kickSegment m t).segments[m] = (kickSegment m s).segments[m] := by
  have hchosen : t.chosen m = s.chosen m := by
    simp only [State.chosen, State.rotationAddress, h.hallTime, h.held, h.bound, h.segment]
  by_cases hm : s.segments[m].line = .master ∧ s.segments[m].sending = none
  · rw [kickSegment_chooses (h.segment ▸ hm.1) (h.segment ▸ hm.2), kickSegment_chooses hm.1 hm.2,
      segment_setSegment_self, segment_setSegment_self, hchosen]
  · have hidle := (not_and_or.1 hm)
    rw [kickSegment_idle (h.segment ▸ hidle), kickSegment_idle hidle, h.segment]

/-- Seats changed in place, with their addresses. -/
theorem mapSeats_boundAddresses {f : Seat → Seat} (hf : ∀ v, (f v).binds = v.binds) (m : Fin 4) (s : State) :
    State.boundAddresses { s with seats := s.seats.map (fun y => (y.1, f y.2)) } m = s.boundAddresses m := by
  simp only [State.boundAddresses, List.filterMap_map, Function.comp_def, hf]

theorem clearSegment_frame (m : Fin 4) (s : State) : clearSegment m s = { s with
    seats := s.seats.map (fun y => (y.1, y.2.clearedQueue m s.segments[m].queue)),
    segments := (clearSegment m s).segments } := by
  unfold clearSegment
  rw [kickSegment_frame]
  rfl

theorem clearSegment_other (h : i ≠ m) (s : State) : s.SameLine i (clearSegment m s) := by
  refine ⟨?_, ?_, ?_, ?_⟩
  · rw [clearSegment_frame]
  · rw [clearSegment_frame]
    rfl
  · rw [clearSegment_frame]
    exact mapSeats_boundAddresses (clearedQueue_binds m _) i s
  · unfold clearSegment
    rw [kickSegment_other h, setSegment_segment, if_neg h]

theorem clearSegment_segment (m : Fin 4) (s : State) : (clearSegment m s).segments[m] =
    (kickSegment m (s.setSegment m s.segments[m].cleared)).segments[m] := by
  have hline : (s.setSegment m s.segments[m].cleared).SameLine m
      (State.setSegment { s with seats := s.seats.map (fun y => (y.1, y.2.clearedQueue m s.segments[m].queue)) } m
        s.segments[m].cleared) :=
    ⟨rfl, rfl, mapSeats_boundAddresses (clearedQueue_binds m _) m s,
      (segment_setSegment_self ..).trans (segment_setSegment_self ..).symm⟩
  exact hline.kicked

/-! ### The four segments -/

theorem clearSegments_segment (m : Fin 4) (s : State) : (takeInTurn four clearSegment s).segments[m] =
    (kickSegment m (s.setSegment m s.segments[m].cleared)).segments[m] := by
  obtain ⟨u, hu, hv⟩ := takeInTurn_visit (State.SameLine m) (.refl m) .trans four_nodup (mem_four m) clearSegment
    (fun i _ hi u => clearSegment_other (Ne.symm hi) u) s
  have hline : (s.setSegment m s.segments[m].cleared).SameLine m (u.setSegment m u.segments[m].cleared) :=
    ⟨hu.hallTime, hu.held, hu.bound, by rw [segment_setSegment_self, segment_setSegment_self, hu.segment]⟩
  rw [hv.segment, clearSegment_segment]
  exact hline.kicked

/-- Rooms taken in turn, each of them once: the seats lose what each room's queue held at first. -/
theorem clearSegments_frame {is : List (Fin 4)} (hn : is.Nodup) (s : State) : takeInTurn is clearSegment s = { s with
    seats := s.seats.map (fun y => (y.1, y.2.clearedQueues s.segments is)),
    segments := (takeInTurn is clearSegment s).segments } := by
  induction is generalizing s with
  | nil => simp [takeInTurn, Seat.clearedQueues]
  | cons m is ih =>
    obtain ⟨hm, hn⟩ := List.nodup_cons.1 hn
    have hstep := clearSegment_frame m s
    have hqueues : ∀ i ∈ is, (clearSegment m s).segments[i].queue = s.segments[i].queue := fun i hi =>
      congrArg Segment.queue (clearSegment_other (m := m) (fun e : i = m => hm (e ▸ hi)) s).segment
    have hsame : ∀ v : Seat, v.clearedQueues (clearSegment m s).segments is = v.clearedQueues s.segments is := fun v =>
      List.foldl_ext _ _ v fun _ i hi => by rw [hqueues i hi]
    have hrest := ih hn (clearSegment m s)
    simp only [hsame] at hrest
    have hturn : takeInTurn (m :: is) clearSegment s = takeInTurn is clearSegment (clearSegment m s) := rfl
    rw [hturn]
    refine hrest.trans ?_
    generalize (takeInTurn is clearSegment (clearSegment m s)).segments = g
    rw [hstep, List.map_map]
    rfl

/-! ### The intake and the mark engine (R145) -/

/-- The scripts once the script of a sheet in hand has returned to COLLECTED (R145, step 1). -/
def returnedScripts (hand : Option SheetInHand) (scripts : Table Script) : Table Script :=
  match hand with
  | none => scripts
  | some w =>
      match tableFind scripts w.serial with
      | none => scripts
      | some y => tableInsert scripts w.serial { y with state := .collected }

theorem returnedScripts_some {w : SheetInHand} {y : Script} {scripts : Table Script}
    (hy : tableFind scripts w.serial = some y) :
    returnedScripts (some w) scripts = tableInsert scripts w.serial { y with state := .collected } := by
  simp only [returnedScripts, hy]

theorem abandonMarking_none {s : State} (hh : s.hand = none) : abandonMarking s = s := by rw [abandonMarking, hh]

theorem abandonMarking_unknown {w : SheetInHand} (hh : s.hand = some w) (hy : tableFind s.scripts w.serial = none) :
    abandonMarking s = { s with hand := none } := by simp only [abandonMarking, hh, State.script, hy]

theorem abandonMarking_script {w : SheetInHand} {y : Script} (hh : s.hand = some w)
    (hy : tableFind s.scripts w.serial = some y) : abandonMarking s =
      { s with scripts := tableInsert s.scripts w.serial { y with state := .collected }, hand := none } := by
  simp only [abandonMarking, hh, State.script, hy, State.setScript]

theorem abandonMarking_eq (s : State) : abandonMarking s =
    { s with scripts := returnedScripts s.hand s.scripts, hand := none } := by
  cases hh : s.hand with
  | none =>
    rw [abandonMarking_none hh]
    exact congrArg (fun h => ({ s with hand := h } : State)) hh
  | some w =>
    cases hy : tableFind s.scripts w.serial with
    | none =>
      have hscripts : returnedScripts (some w) s.scripts = s.scripts := by simp only [returnedScripts, hy]
      rw [abandonMarking_unknown hh hy, hscripts]
    | some y => rw [abandonMarking_script hh hy, returnedScripts_some hy]

theorem unsettled_eq (b : SheetBuffer) : b.unsettled = [BufferState.filling, .queued, .taken].contains b.state := by
  unfold SheetBuffer.unsettled
  cases b.state <;> rfl

theorem transmit_buffers (k : Intake) : k.transmit.buffers = k.buffers := by rw [Intake.transmit_eq]

theorem clearIntake_eq (s : State) : clearIntake s = { s with
    scripts := returnedScripts s.hand s.scripts, hand := none,
    intake := (s.intake.afterClear s.hallTime).transmit } := by
  rw [clearIntake, abandonMarking_eq]
  rfl

/-! ### The whole clear -/

/-- What a traffic clear makes of the state. -/
def State.trafficCleared (s : State) : State := { s with
  seats := s.seats.map (fun y => (y.1, y.2.clearedQueues s.segments four)),
  segments := (takeInTurn four clearSegment s).segments, scripts := returnedScripts s.hand s.scripts, hand := none,
  intake := (s.intake.afterClear s.hallTime).transmit }

theorem clearTraffic_eq (s : State) : clearTraffic s = okWith
    (be1 s.intake.clearedCount ++ be2 (s.staleCount 0 + s.staleCount 1 + s.staleCount 2 + s.staleCount 3))
    s.trafficCleared := by
  unfold clearTraffic
  rw [clearIntake_eq, clearSegments_frame four_nodup s]
  rfl

theorem seat_trafficCleared (s : State) (x : Nat) : s.trafficCleared.seat x = { s.seat x with
    stale := (s.seat x).stale || (match (s.seat x).binds with
      | some (m, a) => s.segments[m].queue.any (fun e => e.address == a)
      | none => false) } := by
  have hmap : s.trafficCleared.seat x = (s.seat x).clearedQueues s.segments four := by
    show (tableFind (s.seats.map fun y => (y.1, y.2.clearedQueues s.segments four)) x).getD _ = _
    rw [tableFind_map]
    cases h : tableFind s.seats x with
    | some v => simp [State.seat, h]
    | none =>
      have hundefined : Seat.undefinedRecord.clearedQueues s.segments four = Seat.undefinedRecord := by
        rw [clearedQueues_eq, any_awaitsShow]
        rfl
      simp [State.seat, h, hundefined]
  rw [hmap, clearedQueues_eq, any_awaitsShow]

theorem buffer_trafficCleared (s : State) (b : Fin 4) :
    s.trafficCleared.intake.buffers[b] = s.intake.buffers[b].afterClear s.hallTime := by
  show (s.intake.afterClear s.hallTime).transmit.buffers[b] = _
  simp [transmit_buffers, Intake.afterClear]

theorem segment_trafficCleared (m : Fin 4) (s : State) : s.trafficCleared.segments[m] =
    (kickSegment m (s.setSegment m s.segments[m].cleared)).segments[m] := clearSegments_segment m s

/-- Each segment has an empty queue and no window, and has chosen its next exchange (R87, R101). -/
theorem chosen_trafficCleared (m : Fin 4) (s : State) :
    s.segments[m].cleared.Chosen s.trafficCleared.segments[m] := by
  have hchosen := kickSegment_chosen m (s.setSegment m s.segments[m].cleared)
  rwa [← segment_trafficCleared, segment_setSegment_self] at hchosen

theorem cleared_line (g : Segment) : g.cleared.line = g.line.abandoned := by rw [cleared_eq]

theorem abandoned_master {l : LineState} (h : l ≠ .disabled) : l.abandoned = .master := by
  cases l with
  | disabled => exact absurd rfl h
  | master | awaiting a => rfl

/-- The sheets that are not settled are decided CLEARED, with a form; the others stand (R134, R145). -/
theorem buffer_decided (s : State) (b : Fin 4) :
    (s.intake.buffers[b].state ∈ [BufferState.filling, .queued, .taken] → ∃ form, s.trafficCleared.intake.buffers[b] =
      { s.intake.buffers[b] with state := .decided, form := some form, verdict := some .cleared } ∧
      ∀ f, s.intake.buffers[b].form = some f → form = f) ∧
    (s.intake.buffers[b].state ∈ [BufferState.free, .decided] →
      s.trafficCleared.intake.buffers[b] = s.intake.buffers[b]) := by
  rw [buffer_trafficCleared]
  generalize s.intake.buffers[b] = v
  have hunsettled := unsettled_eq v
  rcases v.afterClear_cases s.hallTime with ⟨hu, hclear⟩ | ⟨hu, form, hform, hclear⟩ <;> rw [hu] at hunsettled
  · refine ⟨fun hst => ?_, fun _ => hclear⟩
    rw [← List.contains_iff_mem, ← hunsettled] at hst
    exact absurd hst Bool.false_ne_true
  · refine ⟨fun _ => ⟨form, hclear, hform⟩, fun hst => ?_⟩
    simp only [List.mem_cons, List.not_mem_nil, or_false] at hst
    rcases hst with hst | hst <;> rw [hst] at hunsettled <;> exact absurd hunsettled (by decide)

/-- Settles O60. -/
theorem clearTrafficClearsTheLines : Obligations.ClearTrafficClearsTheLines := by
  refine ⟨fun _ _ => rfl, fun s h _ => ⟨s.trafficCleared, ?_, rfl, fun m g hg => ?_, ?_, fun m => ?_,
    seat_trafficCleared s, buffer_decided s, ?_⟩⟩
  · have hcount : s.intake.clearedCount = (s.intake.buffers.toList.filter
        (fun b => [BufferState.filling, .queued, .taken].contains b.state)).length := by
      rw [Intake.clearedCount, show SheetBuffer.unsettled = _ from funext unsettled_eq]
    rw [← hcount]
    exact exec_ok rfl h (clearTraffic_eq s)
  · subst hg
    rw [segment_trafficCleared, cleared_eq]
    rfl
  · show (s.intake.afterClear s.hallTime).transmit = Intake.transmit { s.intake with
      buffers := (s.intake.afterClear s.hallTime).transmit.buffers, gapTimer := false,
      receive := if s.intake.receive = .filling then .discarding else s.intake.receive }
    rw [transmit_buffers]
    rfl
  · have hchosen := chosen_trafficCleared m s
    have hline := cleared_line s.segments[m]
    exact ⟨hchosen.empty rfl, hchosen.line.trans hline, hchosen.postStatus, hchosen.postMiss, hchosen.busy,
      fun hl => hchosen.sends (hline.trans (abandoned_master hl))⟩
  · have hintake : s.trafficCleared.intake = (s.intake.afterClear s.hallTime).transmit := rfl
    have htransmit := Intake.transmit_eq (s.intake.afterClear s.hallTime)
    rw [hintake, htransmit]
    refine ⟨rfl, rfl, rfl, fun hsend => ?_, rfl, rfl, rfl, fun hh => ?_, fun w y hh hy => ?_⟩
    · obtain ⟨f, hf⟩ := Option.isSome_iff_exists.1 hsend
      rw [Intake.transmit_busy (s.intake.afterClear s.hallTime) f hf]
      exact ⟨rfl, rfl⟩
    · show returnedScripts s.hand s.scripts = _
      rw [hh]
      rfl
    · show returnedScripts s.hand s.scripts = _
      rw [hh]
      exact returnedScripts_some hy

end Sys2Proof.Machine
end

