-- ==== Sys2Proof/Proofs/AnswerFrames.lean ====
section
/-! SUPPORT. The frames of the desks' and posts' answers (R86, Section 10.4): the check byte of Section 4.6, the numbers
of three and four bytes, and the layouts that spell an event. -/

namespace Sys2Proof.Machine

variable {code a : Nat} {fields frame bytes : List Byte} {e : DeskEvent}

/-! ### The check byte (Section 4.6) -/

/-- The generator is odd and a shift is not: one step of the division sends nothing but 0 to 0. -/
theorem crcBit_eq_zero : ∀ c : Byte, crcBit c = 0 ↔ c = 0 := by decide

theorem crcByte_eq_zero (c b : Byte) : crcByte c b = 0 ↔ b = c := by
  simp only [crcByte, crcBit_eq_zero]
  exact BitVec.xor_eq_zero_iff.trans eq_comm

theorem crc8_concat (bytes : List Byte) (b : Byte) : crc8 (bytes ++ [b]) = crcByte (crc8 bytes) b := by
  simp [crc8]

/-- A check passes where the last byte is the check of the others. -/
theorem crc8_eq_zero (frame : List Byte) : crc8 frame = 0 ↔ ∃ bytes, frame = withCheck bytes := by
  constructor
  · intro h
    rcases List.eq_nil_or_concat frame with rfl | ⟨bytes, b, rfl⟩
    · exact absurd h (by decide)
    · rw [List.concat_eq_append, crc8_concat, crcByte_eq_zero] at h
      exact ⟨bytes, by rw [withCheck, h, List.concat_eq_append]⟩
  · rintro ⟨bytes, rfl⟩
    rw [withCheck, crc8_concat, crcByte_eq_zero]

/-! ### Numbers (R172) -/

theorem be3_num3 (a b c : Byte) : be3 (num3 a b c) = [a, b, c] := by
  have ha := a.isLt
  have hb := b.isLt
  have hc := c.isLt
  simp only [be3, num3, List.cons.injEq, and_true, ← BitVec.toNat_inj, BitVec.toNat_ofNat]
  omega

theorem be4_num4 (a b c d : Byte) : be4 (num4 a b c d) = [a, b, c, d] := by
  have ha := a.isLt
  have hb := b.isLt
  have hc := c.isLt
  have hd := d.isLt
  simp only [be4, num4, List.cons.injEq, and_true, ← BitVec.toNat_inj, BitVec.toNat_ofNat]
  omega

theorem num4_lt (a b c d : Byte) : num4 a b c d < 4294967296 := by
  have ha := a.isLt
  have hb := b.isLt
  have hc := c.isLt
  have hd := d.isLt
  rw [num4]
  omega

theorem num3_be3 {n : Nat} (h : n < 16777216) :
    num3 (BitVec.ofNat 8 (n / 65536)) (BitVec.ofNat 8 (n / 256)) (BitVec.ofNat 8 n) = n := by
  simp only [num3, BitVec.toNat_ofNat]
  omega

theorem num4_be4 {n : Nat} (h : n < 4294967296) : num4 (BitVec.ofNat 8 (n / 16777216)) (BitVec.ofNat 8 (n / 65536))
    (BitVec.ofNat 8 (n / 256)) (BitVec.ofNat 8 n) = n := by
  simp only [num4, BitVec.toNat_ofNat]
  omega

/-! ### Layouts (R86) -/

/-- The layouts of Section 10.4 for an answer. -/
def DeskEvent.spelled (code : Nat) (fields : List Byte) (e : DeskEvent) : Prop :=
  (code = 0 ∧ fields = [] ∧ e = .null) ∨
  (∃ n, code = 1 ∧ n < 4294967296 ∧ fields = be4 n ∧ e = .tap n) ∨
  (∃ up, code = 2 ∧ fields = beFlag up ∧ e = .hand up) ∨
  (∃ begin_, code = 3 ∧ fields = beFlag begin_ ∧ e = .rest begin_) ∨
  (code = 4 ∧ fields = [] ∧ e = .submit) ∨
  (∃ d, code = 5 ∧ d ≤ 9999999 ∧ fields = be3 d ∧ e = .slot d) ∨
  (∃ d, code = 6 ∧ d ≤ 9999999 ∧ fields = be3 d ∧ e = .collect d) ∨
  (code = 7 ∧ fields = [] ∧ e = .restart)

theorem flag_spelled {u : Byte} {f : Bool → DeskEvent}
    (h : (if u = 1 then some (f true) else if u = 0 then some (f false) else none) = some e) :
    ∃ up, [u] = beFlag up ∧ e = f up := by
  split at h
  · next hu => exact ⟨true, by rw [hu]; rfl, (Option.some.inj h).symm⟩
  · next =>
    obtain ⟨rfl, he⟩ := Option.ite_none_right_eq_some.1 h
    exact ⟨false, rfl, (Option.some.inj he).symm⟩

theorem serial_spelled {x y z : Byte} {f : Nat → DeskEvent}
    (h : (if num3 x y z ≤ Config.maxSerial then some (f (num3 x y z)) else none) = some e) :
    ∃ d, d ≤ 9999999 ∧ [x, y, z] = be3 d ∧ e = f d := by
  obtain ⟨hd, he⟩ := Option.ite_none_right_eq_some.1 h
  exact ⟨num3 x y z, hd, (be3_num3 x y z).symm, (Option.some.inj he).symm⟩

/-- An event that a code and fields spell is laid out in one of the eight ways; no other code or length spells one. -/
theorem eventOf_spelled : ∀ {code : Nat} {fields : List Byte}, eventOf code fields = some e → e.spelled code fields
  | 0, [], h => .inl ⟨rfl, rfl, (Option.some.inj h).symm⟩
  | 1, [x, y, z, w], h =>
    .inr (.inl ⟨num4 x y z w, rfl, num4_lt x y z w, (be4_num4 x y z w).symm, (Option.some.inj h).symm⟩)
  | 2, [_], h =>
    let ⟨up, hu, he⟩ := flag_spelled (f := .hand) h
    .inr (.inr (.inl ⟨up, rfl, hu, he⟩))
  | 3, [_], h =>
    let ⟨up, hu, he⟩ := flag_spelled (f := .rest) h
    .inr (.inr (.inr (.inl ⟨up, rfl, hu, he⟩)))
  | 4, [], h => .inr (.inr (.inr (.inr (.inl ⟨rfl, rfl, (Option.some.inj h).symm⟩))))
  | 5, [_, _, _], h =>
    let ⟨d, hd, hf, he⟩ := serial_spelled (f := .slot) h
    .inr (.inr (.inr (.inr (.inr (.inl ⟨d, rfl, hd, hf, he⟩)))))
  | 6, [_, _, _], h =>
    let ⟨d, hd, hf, he⟩ := serial_spelled (f := .collect) h
    .inr (.inr (.inr (.inr (.inr (.inr (.inl ⟨d, rfl, hd, hf, he⟩))))))
  | 7, [], h => .inr (.inr (.inr (.inr (.inr (.inr (.inr ⟨rfl, rfl, (Option.some.inj h).symm⟩))))))
  | 0, _ :: _, h | 4, _ :: _, h | 7, _ :: _, h => nomatch h
  | 1, [], h | 1, [_], h | 1, [_, _], h | 1, [_, _, _], h | 1, _ :: _ :: _ :: _ :: _ :: _, h => nomatch h
  | 2, [], h | 2, _ :: _ :: _, h | 3, [], h | 3, _ :: _ :: _, h => nomatch h
  | 5, [], h | 5, [_], h | 5, [_, _], h | 5, _ :: _ :: _ :: _ :: _, h => nomatch h
  | 6, [], h | 6, [_], h | 6, [_, _], h | 6, _ :: _ :: _ :: _ :: _, h => nomatch h
  | _ + 8, _, h => nomatch h

theorem serial_spells {d : Nat} (hd : d ≤ 9999999) (f : Nat → DeskEvent) : (if num3 (BitVec.ofNat 8 (d / 65536))
    (BitVec.ofNat 8 (d / 256)) (BitVec.ofNat 8 d) ≤ Config.maxSerial then some (f (num3 (BitVec.ofNat 8 (d / 65536))
      (BitVec.ofNat 8 (d / 256)) (BitVec.ofNat 8 d))) else none) = some (f d) := by
  rw [num3_be3 (by omega)]
  exact if_pos hd

theorem eventOf_of_spelled (h : e.spelled code fields) : eventOf code fields = some e := by
  rcases h with ⟨rfl, rfl, rfl⟩ | ⟨n, rfl, hn, rfl, rfl⟩ | ⟨up, rfl, rfl, rfl⟩ | ⟨up, rfl, rfl, rfl⟩ | ⟨rfl, rfl, rfl⟩ |
    ⟨d, rfl, hd, rfl, rfl⟩ | ⟨d, rfl, hd, rfl, rfl⟩ | ⟨rfl, rfl, rfl⟩
  · rfl
  · exact congrArg (fun k => some (DeskEvent.tap k)) (num4_be4 hn)
  · cases up <;> rfl
  · cases up <;> rfl
  · rfl
  · exact serial_spells hd .slot
  · exact serial_spells hd .collect
  · rfl

/-- The code of an event is one byte. -/
theorem DeskEvent.spelled.code_lt (h : e.spelled code fields) : code < 256 := by
  rcases h with ⟨rfl, -⟩ | ⟨n, rfl, -⟩ | ⟨up, rfl, -⟩ | ⟨up, rfl, -⟩ | ⟨rfl, -⟩ | ⟨d, rfl, -⟩ | ⟨d, rfl, -⟩ | ⟨rfl, -⟩
  all_goals decide

/-! ### The frame (R86) -/

theorem be1_toNat (b : Byte) : be1 b.toNat = [b] := by simp [be1]

theorem parseAnswer_withCheck (k b c : Byte) (fields : List Byte) :
    parseAnswer (withCheck (k :: b :: c :: fields)) =
      if k.toNat = 4 then (eventOf c.toNat fields).map (fun e => (b.toNat, e)) else none := by
  rw [parseAnswer, if_pos ((crc8_eq_zero _).2 ⟨_, rfl⟩), withCheck, List.dropLast_concat]

/-- A frame whose check passes and that spells an answer has its four parts. -/
theorem parseAnswer_some (h : parseAnswer frame = some (a, e)) : ∃ (b c : Byte) (fields : List Byte),
    frame = withCheck (4 :: b :: c :: fields) ∧ a = b.toNat ∧ eventOf c.toNat fields = some e := by
  obtain ⟨hcheck, hlayout⟩ := Option.ite_none_right_eq_some.1 h
  obtain ⟨bytes, rfl⟩ := (crc8_eq_zero frame).1 hcheck
  rw [withCheck, List.dropLast_concat] at hlayout
  split at hlayout
  · next k b c fields =>
    obtain ⟨hk, hevent⟩ := Option.ite_none_right_eq_some.1 hlayout
    obtain ⟨ev, hev, hpair⟩ := Option.map_eq_some_iff.1 hevent
    obtain ⟨rfl, rfl⟩ := Prod.mk.inj hpair
    have hfour : k = 4 := BitVec.eq_of_toNat_eq hk
    exact ⟨b, c, fields, by rw [hfour], rfl, hev⟩
  · cases hlayout

theorem parseAnswer_iff : parseAnswer frame = some (a, e) ↔
    ∃ code fields, a < 256 ∧ frame = withCheck (be1 4 ++ be1 a ++ be1 code ++ fields) ∧ e.spelled code fields := by
  constructor
  · intro h
    obtain ⟨b, c, fields, rfl, rfl, hev⟩ := parseAnswer_some h
    exact ⟨c.toNat, fields, b.isLt, by rw [be1_toNat, be1_toNat]; rfl, eventOf_spelled hev⟩
  · rintro ⟨code, fields, ha, rfl, hspelled⟩
    have hcode : (BitVec.ofNat 8 code).toNat = code := Nat.mod_eq_of_lt hspelled.code_lt
    have haddress : (BitVec.ofNat 8 a).toNat = a := Nat.mod_eq_of_lt ha
    refine (parseAnswer_withCheck (BitVec.ofNat 8 4) (BitVec.ofNat 8 a) (BitVec.ofNat 8 code) fields).trans ?_
    rw [if_pos (by decide), hcode, haddress, eventOf_of_spelled hspelled]
    rfl

end Sys2Proof.Machine
end

