-- ==== Sys2Proof/Proofs/GoodAnswers.lean ====
section
/-! SUPPORT. A good answer of an awaited desk (R92): the desk is PRESENT and, where it lost contact or missed a message,
resynchronised (R93); then the event is delivered (R97), here a HAND (R99) and a TAP (R61). -/

namespace Sys2Proof.Machine

variable {s u w : State} {m : Fin 4} {x a j n pe : Nat} {v : Seat} {c : Candidate} {p : SeatPlace} {e : DeskEvent}

/-! ### The resync of a desk (R93) -/

theorem endAt_eq (h : c.personalEnd = some pe) (x : Nat) (s : State) :
    endAt x c s = offerDesk x (.ending pe c.state (c.restBudget.getD 0 - c.restUsed)) s := by
  rw [endAt, h]
  rfl

theorem resyncDesk_free (h : (s.seat x).state = .free) : resyncDesk x s = offerDesk x .blank s := by
  rw [resyncDesk, h]

section
variable (hx : (s.seat x).state ∈ [SeatState.held, .occupied, .vacated]) (hj : (s.seat x).candidate = some j)
  (hc : s.cand j = some c)
include hx hj hc

/-- A seat in use with a record: its desk is told what the record's state calls for. -/
theorem resyncDesk_record : resyncDesk x s =
    (match c.state with
      | .active | .resting => endAt x c (showSeat x c s)
      | .done =>
          match c.personalEnd with
          | some _ => endAt x c (showSeat x c s)
          | none => offerDesk x (.notice .done) (showSeat x c s)
      | .expected | .seated | .cleared | .absent | .withdrawn => showSeat x c s) := by
  have hrecord : (s.seat x).candidate.bind s.cand = some c := by rw [hj]; exact hc
  simp only [List.mem_cons, List.not_mem_nil, or_false] at hx
  unfold resyncDesk
  rw [hrecord]
  rcases hx with hx | hx | hx <;> rw [hx] <;> rfl

theorem resyncDesk_waiting (h : c.state ∈ [CandState.expected, .seated]) : resyncDesk x s = showSeat x c s := by
  rw [resyncDesk_record hx hj hc]
  simp only [List.mem_cons, List.not_mem_nil, or_false] at h
  rcases h with h | h <;> rw [h]

theorem resyncDesk_ending (h : c.state ∈ [CandState.active, .resting, .done]) (hpe : c.personalEnd = some pe) :
    resyncDesk x s = endAt x c (showSeat x c s) := by
  rw [resyncDesk_record hx hj hc]
  simp only [List.mem_cons, List.not_mem_nil, or_false] at h
  rcases h with h | h | h <;> rw [h]
  rw [hpe]

theorem resyncDesk_done (h : c.state = .done) (hpe : c.personalEnd = none) :
    resyncDesk x s = offerDesk x (.notice .done) (showSeat x c s) := by
  rw [resyncDesk_record hx hj hc, h, hpe]

end

theorem showSeat_told (x : Nat) (c : Candidate) (s : State) : s.Told (showSeat x c s) x := by
  unfold showSeat
  split
  · exact offerDesk_told ..
  · exact .refl s x

theorem endAt_told (x : Nat) (c : Candidate) (s : State) : s.Told (endAt x c s) x := by
  unfold endAt
  split
  · exact offerDesk_told ..
  · exact .refl s x

theorem resyncDesk_told (x : Nat) (s : State) : s.Told (resyncDesk x s) x := by
  unfold resyncDesk
  split
  · exact .refl s x
  · exact offerDesk_told ..
  all_goals
    split
    · exact .refl s x
    split
    · exact (showSeat_told ..).trans (endAt_told ..)
    · exact (showSeat_told ..).trans (endAt_told ..)
    · split
      · exact (showSeat_told ..).trans (endAt_told ..)
      · exact (showSeat_told ..).trans (offerDesk_told ..)
    all_goals exact showSeat_told ..

/-! ### The desk of a good answer (R92) -/

theorem mem_of_boundSeat (h : s.boundSeat m a = some x) : ∃ v, (x, v) ∈ s.seats ∧ v.binds = some (m, a) := by
  obtain ⟨y, hy, rfl⟩ := Option.map_eq_some_iff.1 h
  have hbinds : (y.2.binds == some (m, a)) = true :=
    List.find?_some (p := fun z : Nat × Seat => z.2.binds == some (m, a)) hy
  exact ⟨y.2, List.mem_of_find?_eq_some hy, beq_iff_eq.1 hbinds⟩

theorem boundSeat_eq_none : s.boundSeat m a = none ↔ ∀ y ∈ s.seats, y.2.binds ≠ some (m, a) := by
  simp [State.boundSeat]

theorem State.Stores.binds_of_boundSeat (hs : s.Stores) (h : s.boundSeat m a = some x) :
    (s.seat x).binds = some (m, a) := by
  obtain ⟨v, hmem, hv⟩ := mem_of_boundSeat h
  rw [seat_of_mem hs hmem]
  exact hv

/-- A seat that binds a desk has been defined, and it is in use. -/
theorem state_of_binds {b : Fin 4 × Nat} (h : v.binds = some b) : v.state ≠ .outOfUse := fun hv => by
  rw [Seat.binds, hv] at h
  cases h

theorem needsResync_iff (v : Seat) :
    v.needsResync = true ↔ v.deskStatus ∈ [DeskStatus.lost, .unknown] ∨ v.stale = true := by
  simp [Seat.needsResync]

theorem goodAnswer_desk (ha : 0 < a) (hx : w.boundSeat m a = some x) (e : DeskEvent) :
    goodAnswer m a e w = deliverDesk x e (deskAnswered x w) := by
  rw [goodAnswer, if_neg (Nat.ne_of_gt ha), hx]

theorem deskAnswered_resyncs (h : (w.seat x).needsResync = true) : deskAnswered x w =
    resyncDesk x (w.setSeat x { w.seat x with deskStatus := .present, missCount := 0, stale := false }) := if_pos h

theorem deskAnswered_inContact (h : (w.seat x).needsResync = false) : deskAnswered x w =
    w.setSeat x { w.seat x with deskStatus := .present, missCount := 0 } := if_neg (Bool.eq_false_iff.1 h)

/-- But for what its desk is told, the seat of a good answer is PRESENT with no miss, and nothing else changes. -/
theorem deskAnswered_told (hx : (w.seat x).state ≠ .outOfUse) :
    (w.setSeat x { w.seat x with deskStatus := .present, missCount := 0 }).Told (deskAnswered x w) x := by
  cases h : (w.seat x).needsResync with
  | false =>
    rw [deskAnswered_inContact h]
    exact .refl ..
  | true =>
    rw [deskAnswered_resyncs h]
    refine .trans ?_ (resyncDesk_told ..)
    have hpresent : ({ w.seat x with deskStatus := .present, missCount := 0 } : Seat) ≠ Seat.undefinedRecord :=
      ne_undefined_of_state hx
    have hfresh : ({ w.seat x with deskStatus := .present, missCount := 0, stale := false } : Seat) ≠
        Seat.undefinedRecord := ne_undefined_of_state hx
    refine ⟨rfl, fun _ => rfl, ?_, fun y hy => ?_⟩
    · rw [seat_setSeat hpresent, seat_setSeat hfresh, if_pos rfl, if_pos rfl]
      rfl
    · rw [seat_setSeat hpresent, seat_setSeat hfresh, if_neg hy, if_neg hy]

/-! ### The hand (R99) -/

theorem deskHand_lowered (x : Nat) (s : State) :
    deskHand x false s = s.setSeat x { s.seat x with handRaised := false } := rfl

theorem deskHand_raised (h : (s.seat x).handRaised = false) :
    deskHand x true s = (s.setSeat x { s.seat x with handRaised := true }).raise .desk := by simp only [deskHand, h]

theorem deskHand_again (h : (s.seat x).handRaised = true) : deskHand x true s = s := by simp only [deskHand, h]

/-! ### The badge (R61) -/

/-- A matching TAP confirms the candidate; its desk may then be told of it. -/
theorem confirmSeat_confirms (hj : (s.seat x).candidate = some j) (hc : s.cand j = some c) :
    (confirmSeat x s).cand j = some { c with flags := { c.flags with confirmed := true } } ∧
      (confirmSeat x s).attention = s.attention := by
  have hconfirm : confirmSeat x s =
      showSeat x c (s.setCand j { c with flags := { c.flags with confirmed := true } }) := by
    rw [confirmSeat, hj]
    dsimp only
    rw [hc]
  have hframe := hconfirm.trans
    (showSeat_desks x c (s.setCand j { c with flags := { c.flags with confirmed := true } }))
  rw [hframe]
  exact ⟨(State.cand_setCand ..).trans (if_pos rfl), rfl⟩

/-- A badge that does not match: one DESK cause, and the room keeps who was refused. -/
theorem wrongSeat_refuses (hp : (s.seat x).place = some p) (n : Nat) :
    (wrongSeat x n s).roll = s.roll ∧ (wrongSeat x n s).attention = (s.raise .desk).attention ∧
      (wrongSeat x n s).rooms[p.room].lastWrongSeat = some ⟨x, n, s.hallTime⟩ := by
  rw [wrongSeat_eq hp]
  refine ⟨?_, rfl, ?_⟩
  · show (offerDesk x (.notice .wrongSeat) s).roll = s.roll
    rw [offerDesk_desks]
  · simp

theorem badgeMatches_false (hj : v.candidate = some j) (h : j ∉ s.chain n) : s.badgeMatches v n = false := by
  rw [Bool.eq_false_iff]
  intro hmatch
  obtain ⟨-, i, hi, hmem⟩ := badgeMatches_iff.1 hmatch
  exact h (Option.some.inj (hj.symm.trans hi) ▸ hmem)

/-! ### The events of an awaited desk (R97) -/

/-- The desk's seat and the state a good answer is delivered to: as before but for contact and the desks' messages. -/
structure Delivered (x : Nat) (s u : State) : Prop where
  frame : u = { s with seats := u.seats, segments := u.segments }
  others : ∀ y, y ≠ x → u.seat y = s.seat y
  seat : (u.seat x).butStale = Seat.butStale { s.seat x with deskStatus := .present, missCount := 0 }

/-- The state as an answer has ended a window (R92). -/
def State.windowEnded (s : State) (m : Fin 4) (door : Bool) : State :=
  s.setSegment m { s.segments[m] with line := .master, doorWire := door }

theorem deskAnswered_delivered (hx : (s.seat x).state ≠ .outOfUse) (m : Fin 4) (door : Bool) :
    Delivered x s (deskAnswered x (s.windowEnded m door)) := by
  have htold := deskAnswered_told (w := s.windowEnded m door) hx
  have hpresent : ({ s.seat x with deskStatus := .present, missCount := 0 } : Seat) ≠ Seat.undefinedRecord :=
    ne_undefined_of_state hx
  refine ⟨htold.frame, fun y hy => ?_, ?_⟩
  · exact (htold.others y hy).trans ((seat_setSeat hpresent _ x y).trans (if_neg hy))
  · exact htold.seat.trans (congrArg Seat.butStale ((seat_setSeat hpresent _ x x).trans (if_pos rfl)))

section
variable (h : Delivered x s u)
include h

theorem Delivered.attention : u.attention = s.attention := by rw [h.frame]

theorem Delivered.raised : (u.raise .desk).attention = (s.raise .desk).attention := by rw [h.frame]; rfl

theorem Delivered.state : (u.seat x).state = (s.seat x).state := (congrArg Seat.state h.seat :)

theorem Delivered.hand : (u.seat x).handRaised = (s.seat x).handRaised := (congrArg Seat.handRaised h.seat :)

theorem Delivered.candidate : (u.seat x).candidate = (s.seat x).candidate := (congrArg Seat.candidate h.seat :)

theorem Delivered.place : (u.seat x).place = (s.seat x).place := (congrArg Seat.place h.seat :)

theorem Delivered.cand (j : Nat) : u.cand j = s.cand j := by rw [h.frame]; rfl

theorem Delivered.chain (n : Nat) : u.chain n = s.chain n := by rw [h.frame]; rfl

/-- A HAND up raises the flag of a seat in use, with one DESK cause (R99). -/
theorem Delivered.handUp (hx : (s.seat x).state ≠ .outOfUse) (hv : (s.seat x).handRaised = false) :
    ((deliverDesk x (.hand true) u).seat x).handRaised = true ∧
      (deliverDesk x (.hand true) u).attention = (s.raise .desk).attention := by
  have hraised : deliverDesk x (.hand true) u = (u.setSeat x { u.seat x with handRaised := true }).raise .desk :=
    deskHand_raised (h.hand.trans hv)
  have hseat : ({ u.seat x with handRaised := true } : Seat) ≠ Seat.undefinedRecord :=
    ne_undefined_of_state (h.state.symm ▸ hx)
  rw [hraised]
  exact ⟨congrArg Seat.handRaised ((seat_setSeat hseat u x x).trans (if_pos rfl)), h.raised⟩

theorem Delivered.handUpAgain (hv : (s.seat x).handRaised = true) :
    (deliverDesk x (.hand true) u).attention = s.attention :=
  (congrArg State.attention (deskHand_again (h.hand.trans hv))).trans h.attention

theorem Delivered.handDown (hx : (s.seat x).state ≠ .outOfUse) :
    ((deliverDesk x (.hand false) u).seat x).handRaised = false ∧
      (deliverDesk x (.hand false) u).attention = s.attention := by
  have hseat : ({ u.seat x with handRaised := false } : Seat) ≠ Seat.undefinedRecord :=
    ne_undefined_of_state (h.state.symm ▸ hx)
  exact ⟨congrArg Seat.handRaised ((seat_setSeat hseat u x x).trans (if_pos rfl)), h.attention⟩

theorem Delivered.tapMatches (hn : n ≤ 99999999) (hv : (s.seat x).state = .occupied)
    (hj : (s.seat x).candidate = some j) (hmem : j ∈ s.chain n) (hc : s.cand j = some c) :
    (deliverDesk x (.tap n) u).cand j = some { c with flags := { c.flags with confirmed := true } } ∧
      (deliverDesk x (.tap n) u).attention = s.attention := by
  have hbadge : u.badgeMatches (u.seat x) n = true :=
    badgeMatches_iff.2 ⟨hn, j, h.candidate.trans hj, (h.chain n).symm ▸ hmem⟩
  obtain ⟨-, -, hoccupied⟩ := deskTap_matching hbadge
  obtain ⟨hcand, hatt⟩ := confirmSeat_confirms (h.candidate.trans hj) ((h.cand j).trans hc)
  have htap : deliverDesk x (.tap n) u = confirmSeat x u := hoccupied (h.state.trans hv)
  rw [htap]
  exact ⟨hcand, hatt.trans h.attention⟩

theorem Delivered.tapStrays (hv : (s.seat x).state = .occupied) (hj : (s.seat x).candidate = some j)
    (hmem : j ∉ s.chain n) (hp : (s.seat x).place = some p) :
    (deliverDesk x (.tap n) u).roll = s.roll ∧
      (deliverDesk x (.tap n) u).attention = (s.raise .desk).attention ∧
      (deliverDesk x (.tap n) u).rooms[p.room].lastWrongSeat = some ⟨x, n, s.hallTime⟩ := by
  have htap : deliverDesk x (.tap n) u = wrongSeat x n u := by
    refine deskTap_stray (badgeMatches_false (h.candidate.trans hj) ((h.chain n).symm ▸ hmem)) ?_
    rw [h.state, hv]
    decide
  obtain ⟨hroll, hatt, hroom⟩ := wrongSeat_refuses (h.place.trans hp) n
  have hrolls : u.roll = s.roll := by rw [h.frame]
  have htime : u.hallTime = s.hallTime := by rw [h.frame]
  rw [htap]
  exact ⟨hroll.trans hrolls, hatt.trans h.raised, htime ▸ hroom⟩

end

/-! ### The choice of the next exchange leaves the records (R87) -/

theorem kickSegment_seat (m : Fin 4) (s : State) (x : Nat) : (kickSegment m s).seat x = s.seat x := by
  rw [kickSegment_frame]
  rfl

theorem kickSegment_cand (m : Fin 4) (s : State) (j : Nat) : (kickSegment m s).cand j = s.cand j := by
  rw [kickSegment_frame]
  rfl

theorem kickSegment_roll (m : Fin 4) (s : State) : (kickSegment m s).roll = s.roll := by rw [kickSegment_frame]

theorem kickSegment_rooms (m : Fin 4) (s : State) : (kickSegment m s).rooms = s.rooms := by rw [kickSegment_frame]

theorem kickSegment_attention (m : Fin 4) (s : State) : (kickSegment m s).attention = s.attention := by
  rw [kickSegment_frame]

/-- The segment of a good answer is in MASTER with an exchange in progress (R87, R92). -/
theorem answered_chosen (s : State) (m : Fin 4) (door : Bool) (x : Nat) (e : DeskEvent) :
    (kickSegment m (deliverDesk x e (deskAnswered x (s.windowEnded m door)))).segments[m].line = .master ∧
      (kickSegment m (deliverDesk x e (deskAnswered x (s.windowEnded m door)))).segments[m].sending.isSome = true := by
  have hended : (s.windowEnded m door).segments[m].line = .master := by
    rw [State.windowEnded, segment_setSegment_self]
  have hline : (deliverDesk x e (deskAnswered x (s.windowEnded m door))).segments[m].line = .master :=
    (deliverDesk_goesOn e (deskAnswered_goesOn (.refl _)) m).line.trans hended
  have hchosen := kickSegment_chosen m (deliverDesk x e (deskAnswered x (s.windowEnded m door)))
  exact ⟨hchosen.line.trans hline, hchosen.sends hline⟩

/-- Outside AWAITING an answer is ignored, and so is the end of a window (R100; log entry 11). -/
theorem exec_unawaited (h : s.resetHold = .running) (hline : ∀ b, s.segments[m].line ≠ .awaiting b) (door : Bool)
    (frame : List Byte) : exec (.deskAnswer m door frame) s = .next s ∧ exec (.answerWindowTimeout m door) s = .next s := by
  have hanswer : deskAnswer m door frame s = s := by
    unfold deskAnswer
    split
    · next b hb => exact absurd hb (hline b)
    all_goals rfl
  have htimeout : answerWindowTimeout m door s = s := by
    unfold answerWindowTimeout
    split
    · next b hb => exact absurd hb (hline b)
    all_goals rfl
  exact ⟨(whileRunning_running (deskAnswer m door frame) s h).trans (congrArg Host.Outcome.next hanswer),
    (whileRunning_running (answerWindowTimeout m door) s h).trans (congrArg Host.Outcome.next htimeout)⟩

/-- Settles O45. -/
theorem goodAnswersAreDelivered : Obligations.GoodAnswersAreDelivered := by
  refine ⟨fun _ _ _ => parseAnswer_iff, fun _ => rfl, fun s m a x => ⟨mem_of_boundSeat, boundSeat_eq_none⟩,
    fun s m door frame a x e v hrun => ⟨fun hline hparse ha hb hstore hv => ?_,
      fun hline => exec_unawaited hrun hline door frame⟩,
    fun s x v hv => ⟨rfl, fun hst => ?_, fun j c p t hst hj hc hp ht => ?_⟩⟩
  · subst hv
    have hbinds := ((storeLaw_iff s).1 hstore).binds_of_boundSeat hb
    have hx := state_of_binds hbinds
    have hboundEnded : (s.windowEnded m door).boundSeat m a = some x := hb
    obtain ⟨hmaster, hsends⟩ := answered_chosen s m door x e
    have hu := deskAnswered_delivered hx m door
    refine ⟨deskAnswered x (s.windowEnded m door), _, ?_, rfl, hmaster, hsends, hu.frame, hu.others, hu.seat,
      fun hresync => ?_, fun hpresent hstale => ?_, ?_, ?_, ?_, ?_, ?_, ?_⟩
    · rw [exec_deskAnswer hrun hline hparse, ← goodAnswer_desk ha hboundEnded e]
      rfl
    · exact deskAnswered_resyncs ((needsResync_iff _).2 hresync)
    · have hcontact : (s.seat x).needsResync = false := by
        rw [Bool.eq_false_iff, Ne, needsResync_iff, hpresent, hstale]
        decide
      have hended : ((s.windowEnded m door).seat x).needsResync = false := hcontact
      have hdefined : ({ s.seat x with deskStatus := .present, missCount := 0 } : Seat) ≠ Seat.undefinedRecord :=
        ne_undefined_of_state hx
      rw [deskAnswered_inContact hended]
      exact ⟨(seat_setSeat hdefined _ x x).trans (if_pos rfl), rfl⟩
    · rintro rfl
      rfl
    · rintro rfl hv
      rw [kickSegment_seat, kickSegment_attention]
      exact hu.handUp hx hv
    · rintro rfl hv
      rw [kickSegment_attention]
      exact hu.handUpAgain hv
    · rintro rfl
      rw [kickSegment_seat, kickSegment_attention]
      exact hu.handDown hx
    · rintro n j c rfl hn hv hj hmem hc
      rw [kickSegment_cand, kickSegment_attention]
      exact hu.tapMatches hn hv hj hmem hc
    · rintro n j rfl hv hj hmem
      obtain ⟨p, hp⟩ := Seat.place_of_binds hbinds
      rw [kickSegment_roll, kickSegment_attention, kickSegment_rooms]
      obtain ⟨hroll, hatt, -⟩ := hu.tapStrays hv hj hmem hp
      exact ⟨hroll, hatt, fun q hq => (hu.tapStrays hv hj hmem hq).2.2⟩
  · exact resyncDesk_free (hv ▸ hst)
  · subst hv ht
    rw [← showSeat_eq hp]
    refine ⟨resyncDesk_waiting hst hj hc, fun pe hc' hpe => ?_, resyncDesk_done hst hj hc⟩
    rw [← endAt_eq hpe]
    exact resyncDesk_ending hst hj hc hc' hpe

end Sys2Proof.Machine
end
